-- ==== Sys2Proof/Word.lean ====
section
/-! DEFINITION. The word types of the M9 (R7, R8): a byte, a 32-bit word, and the wider registers built from words. -/

namespace Sys2Proof

/-- One byte of memory (R7). -/
abbrev Byte := BitVec 8
/-- One 32-bit word: a register, an instruction word (R7, R13). -/
abbrev Word := BitVec 32
/-- A 64-bit register or mask. -/
abbrev DWord := BitVec 64
/-- A 128-bit record: a buffer record, a segment register, a reservation. -/
abbrev QWord := BitVec 128

end Sys2Proof
end

