-- ==== Sys2Proof/Machine/Fp.lean ====
section
/-! DEFINITION. Floating point in integers (R80 to R94): values are decoded to sign, magnitude and a power of two, computed
exactly, and rounded once. Flags are words laid out as TSR (R17). -/

namespace Sys2Proof.Machine

/-- The TSR flag IX (R17). -/
def flagIX : Word := 1
/-- The TSR flag UF. -/
def flagUF : Word := 2
/-- The TSR flag OF. -/
def flagOF : Word := 4
/-- The TSR flag DZ. -/
def flagDZ : Word := 8
/-- The TSR flag IV. -/
def flagIV : Word := 16
/-- The TSR flag SAT. -/
def flagSAT : Word := 32
/-- The TSR flag OOB. -/
def flagOOB : Word := 64

/-- The rounding directions of R82, in the code of the RND field (R73). -/
inductive Rnd where
  | rn
  | rz
  | rd
  | ru
  deriving DecidableEq, Repr

/-- The direction that an RND field names (R64, R73). -/
def Rnd.ofCode (n : Nat) : Rnd := if n = 0 then .rn else if n = 1 then .rz else if n = 2 then .rd else .ru

/-- A binary format: exponent bits and fraction bits. -/
structure Fmt where
  eb : Nat
  fb : Nat
  deriving DecidableEq, Repr

/-- FP32 (R80). -/
def fp32 : Fmt := ⟨8, 23⟩
/-- BF16 (R90). -/
def bf16 : Fmt := ⟨8, 7⟩
/-- FP16 (R94). -/
def fp16 : Fmt := ⟨5, 10⟩

/-- The all-ones exponent field. -/
def Fmt.emax (f : Fmt) : Nat := 2 ^ f.eb - 1
/-- The exponent of the least subnormal: 1 − bias − fraction bits. -/
def Fmt.low (f : Fmt) : Int := 2 - 2 ^ (f.eb - 1) - f.fb
/-- The bits of +∞. -/
def Fmt.inf (f : Fmt) : Nat := f.emax * 2 ^ f.fb
/-- The canonical quiet NaN (R85, R91, R94). -/
def Fmt.nan (f : Fmt) : Nat := f.inf + 2 ^ (f.fb - 1)
/-- The sign bit. -/
def Fmt.sgn (f : Fmt) : Nat := 2 ^ (f.eb + f.fb)
/-- A sign as bits. -/
def Fmt.signed (f : Fmt) (neg : Bool) (b : Nat) : Nat := if neg then f.sgn + b else b

/-- A decoded value (R80): a NaN, an infinity, or (−1)^neg × m × 2^e with m = 0 for a zero. -/
inductive Fv where
  | nan (signalling : Bool)
  | inf (neg : Bool)
  | num (neg : Bool) (m : Nat) (e : Int)
  deriving DecidableEq, Repr

/-- Decoding bits in a format (R80). -/
def Fmt.decode (f : Fmt) (b : Nat) : Fv :=
  let frac := b % 2 ^ f.fb
  let ex := b / 2 ^ f.fb % 2 ^ f.eb
  let neg := b / f.sgn % 2 == 1
  if ex = f.emax then
    if frac = 0 then .inf neg else .nan (frac < 2 ^ (f.fb - 1))
  else if ex = 0 then .num neg frac f.low
  else .num neg (2 ^ f.fb + frac) (f.low + (ex - 1 : Nat))

/-- Is the value a signalling NaN (R86)? -/
def Fv.sig : Fv → Bool
  | .nan b => b
  | _ => false

/-- Is the value a NaN? -/
def Fv.isNan : Fv → Bool
  | .nan _ => true
  | _ => false

/-- Whether the discarded part `rem` of `2^sh` rounds the kept `q` up in magnitude (R82). -/
def roundUp (r : Rnd) (neg : Bool) (q rem sh : Nat) : Bool :=
  match r with
  | .rn => decide (2 ^ sh < 2 * rem) || (decide (2 * rem = 2 ^ sh) && q % 2 == 1)
  | .rz => false
  | .rd => neg && decide (rem ≠ 0)
  | .ru => !neg && decide (rem ≠ 0)

/-- `m × 2^e` brought to multiples of `2^q`: the rounded multiple, and whether anything was lost. -/
def quantise (r : Rnd) (neg : Bool) (m : Nat) (e q : Int) : Nat × Bool :=
  if q ≤ e then (m * 2 ^ (e - q).toNat, false)
  else
    let sh := (q - e).toNat
    let k := m / 2 ^ sh
    let rem := m % 2 ^ sh
    (if roundUp r neg k rem sh then k + 1 else k, decide (rem ≠ 0))

/-- The infinity or the largest finite value that R83 delivers on overflow. -/
def overflowBits (f : Fmt) (r : Rnd) (neg : Bool) : Nat :=
  let toInf := match r with | .rn => true | .rz => false | .rd => neg | .ru => !neg
  f.signed neg (if toInf then f.inf else f.inf - 1)

/-- Rounding a nonzero exact magnitude `m × 2^e` once into a format, with the flags of R83 and R84. -/
def roundFin (f : Fmt) (r : Rnd) (neg : Bool) (m : Nat) (e : Int) : Nat × Word :=
  let top : Int := Nat.log2 m + e
  let q := max (top - f.fb) f.low
  let (k, inexact) := quantise r neg m e q
  let bits := (q - f.low).toNat * 2 ^ f.fb + k
  if f.inf ≤ bits then (overflowBits f r neg, flagOF ||| flagIX)
  else
    let (k', _) := quantise r neg m e (top - f.fb)
    -- tiny: below the least normal even after rounding with an unbounded exponent (R84)
    let tiny := decide (top + 1 < f.low + f.fb) ||
      (decide (top + 1 = f.low + f.fb) && decide (k' < 2 ^ (f.fb + 1)))
    (f.signed neg bits, if inexact then (if tiny then flagUF ||| flagIX else flagIX) else 0)

/-- An exact signed dyadic number, with the sign of a zero. -/
structure Dy where
  neg : Bool
  m   : Nat
  e   : Int
  deriving DecidableEq, Repr

/-- The signed integer multiple of `2^e0` that a dyadic number is, for e0 not above its exponent. -/
def Dy.at_ (d : Dy) (e0 : Int) : Int :=
  let x : Int := d.m * 2 ^ (d.e - e0).toNat
  if d.neg then -x else x

/-- The least exponent of a list of dyadic numbers. -/
def lowExp : List Dy → Int
  | [] => 0
  | [d] => d.e
  | d :: ds => min d.e (lowExp ds)

/-- The exact sum of dyadic numbers, as an integer multiple of the least exponent. -/
def sumDy (ds : List Dy) : Int × Int :=
  let e := lowExp ds
  (ds.foldl (fun a d => a + d.at_ e) 0, e)

/-- Rounding the exact sum of dyadic numbers once (R82): a zero sum of zeros of one sign keeps it, any other exact zero is −0
under rd and +0 otherwise. -/
def roundSum (f : Fmt) (r : Rnd) (ds : List Dy) : Nat × Word :=
  let (z, e) := sumDy ds
  if z = 0 then
    let neg := if ds.all (fun d => d.m == 0 && d.neg) then true
      else if ds.all (fun d => d.m == 0 && !d.neg) then false else r == .rd
    (f.signed neg 0, 0)
  else roundFin f r (z < 0) z.natAbs e

/-- The product of two decoded numbers, exact: a NaN operand, or 0 × ∞, has none. -/
def mulFv : Fv → Fv → Option Fv
  | .num n m e, .num n' m' e' => some (.num (n != n') (m * m') (e + e'))
  | .inf n, .inf n' => some (.inf (n != n'))
  | .inf n, .num n' m' _ => if m' = 0 then none else some (.inf (n != n'))
  | .num n m _, .inf n' => if m = 0 then none else some (.inf (n != n'))
  | _, _ => none

/-- Rounding the sum of decoded terms, any of which may be missing because it is an invalid product (R82 to R86, R92): `sig`
tells that an operand was a signalling NaN. -/
def sumFv (f : Fmt) (r : Rnd) (sig bad : Bool) (ts : List Fv) : Nat × Word :=
  let iv : Word := if sig || bad then flagIV else 0
  if bad then (f.nan, iv)
  else if ts.any (· == .inf false) && ts.any (· == .inf true) then (f.nan, flagIV)
  else if ts.any Fv.isNan then (f.nan, iv)
  else if ts.any (· == .inf false) then (f.inf, iv)
  else if ts.any (· == .inf true) then (f.signed true f.inf, iv)
  else
    let (b, fl) := roundSum f r (ts.map fun t => match t with | .num n m e => ⟨n, m, e⟩ | _ => ⟨false, 0, 0⟩)
    (b, fl ||| iv)

/-- a + b, rounded (R82 to R86). -/
def fAdd (f : Fmt) (r : Rnd) (a b : Nat) : Nat × Word :=
  let x := f.decode a
  let y := f.decode b
  sumFv f r (x.sig || y.sig) false [x, y]

/-- The bits with the sign inverted. -/
def fNegate (f : Fmt) (a : Nat) : Nat := if a / f.sgn % 2 = 1 then a - f.sgn else a + f.sgn

/-- a − b, rounded: a NaN b keeps its own bits. -/
def fSub (f : Fmt) (r : Rnd) (a b : Nat) : Nat × Word := fAdd f r a (fNegate f b)

/-- a × b, rounded (R82 to R86); a zero product takes the exclusive OR of the signs (R135). -/
def fMul (f : Fmt) (r : Rnd) (a b : Nat) : Nat × Word :=
  let x := f.decode a
  let y := f.decode b
  match mulFv x y with
  | none => (f.nan, if x.sig || y.sig || !(x.isNan || y.isNan) then flagIV else 0)
  | some (.num n m e) => if m = 0 then (f.signed n 0, 0) else roundFin f r n m e
  | some (.inf n) => (f.signed n f.inf, 0)
  | some (.nan _) => (f.nan, 0)

/-- a × b + c with one rounding (R135). 0 × ∞ is invalid whatever c is. -/
def fFma (f : Fmt) (r : Rnd) (a b c : Nat) : Nat × Word :=
  let x := f.decode a
  let y := f.decode b
  let z := f.decode c
  let sig := x.sig || y.sig || z.sig
  match mulFv x y with
  | none => (f.nan, if sig || !(x.isNan || y.isNan) then flagIV else 0)
  | some p => sumFv f r sig false [p, z]

/-- The exact value of a.lo × b.lo + a.hi × b.hi + c for BF16 pairs and an FP32 addend, rounded once to FP32 (R92). -/
def fDot2 (alo ahi blo bhi c : Nat) : Nat × Word :=
  let xs := [bf16.decode alo, bf16.decode ahi, bf16.decode blo, bf16.decode bhi]
  let z := fp32.decode c
  let sig := xs.any Fv.sig || z.sig
  let p := mulFv (bf16.decode alo) (bf16.decode blo)
  let q := mulFv (bf16.decode ahi) (bf16.decode bhi)
  let inv (u v : Nat) (w : Option Fv) : Bool :=
    w.isNone && !((bf16.decode u).isNan || (bf16.decode v).isNan)
  let bad := inv alo blo p || inv ahi bhi q
  sumFv fp32 .rn sig bad [p.getD (.nan false), q.getD (.nan false), z]

/-- Is `a` below `b`, with −0 below +0 (R88)? Neither is a NaN. -/
def fLess (f : Fmt) (a b : Nat) : Bool :=
  let key (x : Nat) : Int := if x / f.sgn % 2 = 1 then -1 - (x % f.sgn : Nat) else (x % f.sgn : Nat)
  key a < key b

/-- minimumNumber, or maximumNumber with `big` (R88). -/
def fMinMax (f : Fmt) (big : Bool) (a b : Nat) : Nat × Word :=
  let x := f.decode a
  let y := f.decode b
  let iv : Word := if x.sig || y.sig then flagIV else 0
  if x.isNan then (if y.isNan then (f.nan, iv) else (b, iv))
  else if y.isNan then (a, iv)
  else (if fLess f a b != big then a else b, iv)

/-- The order of two decoded values: none when either is a NaN (R89). -/
def fOrder (a b : Nat) : Option Ordering :=
  match fp32.decode a, fp32.decode b with
  | .nan _, _ => none
  | _, .nan _ => none
  | .inf n, .inf n' => some (compare (!n : Bool).toNat (!n' : Bool).toNat)
  | .inf n, _ => some (if n then .lt else .gt)
  | _, .inf n => some (if n then .gt else .lt)
  | .num n m e, .num n' m' e' =>
    let e0 := min e e'
    some (compare (Dy.at_ ⟨n, m, e⟩ e0) (Dy.at_ ⟨n', m', e'⟩ e0))

/-- The FP32 compares of R89, by condition code (R61): the truth value and IV. -/
def fCompare (cond : Nat) (a b : Nat) : Bool × Word :=
  let sig := (fp32.decode a).sig || (fp32.decode b).sig
  let iv (q : Bool) : Word := if q then flagIV else 0
  match fOrder a b with
  | none =>
    (cond == 1 || cond == 6, iv (sig || (2 ≤ cond && cond ≤ 5)))
  | some o =>
    (match cond with
     | 0 => o == .eq
     | 1 => o != .eq
     | 2 => o == .lt
     | 3 => o != .gt
     | 4 => o == .gt
     | 5 => o != .lt
     | 6 => false
     | _ => true, 0)

/-- Conversion between formats with one rounding (R93, R94). -/
def fConv (f g : Fmt) (r : Rnd) (a : Nat) : Nat × Word :=
  match f.decode a with
  | .nan s => (g.nan, if s then flagIV else 0)
  | .inf n => (g.signed n g.inf, 0)
  | .num n m e => if m = 0 then (g.signed n 0, 0) else roundFin g r n m e

/-- FP32 to FP16 with the SAT bit (R94). -/
def fToHalf (r : Rnd) (sat : Bool) (a : Nat) : Nat × Word :=
  match fp32.decode a with
  | .inf n => if sat then (fp16.signed n (fp16.inf - 1), flagSAT) else (fp16.signed n fp16.inf, 0)
  | .num n m e =>
    if m = 0 then (fp16.signed n 0, 0)
    else
      let (b, fl) := roundFin fp16 r n m e
      if sat && fl &&& flagOF != 0 then (fp16.signed n (fp16.inf - 1), flagSAT ||| flagIX) else (b, fl)
  | .nan s => (fp16.nan, if s then flagIV else 0)

/-- A dyadic number rounded to an integer in a direction (R144, R152): the integer, and whether anything was lost. -/
def toInteger (r : Rnd) (neg : Bool) (m : Nat) (e : Int) : Int × Bool :=
  let (k, ix) := quantise r neg m e 0
  (if neg then -(k : Int) else k, ix)

/-- `cvtfi` and `cvtfu` (R144): `sgn` chooses the signed destination. -/
def fToInt (sgn sat : Bool) (r : Rnd) (a : Nat) : Word × Word :=
  let lo : Int := if sgn then -2 ^ 31 else 0
  let hi : Int := if sgn then 2 ^ 31 - 1 else 2 ^ 32 - 1
  let out (above : Bool) : Word × Word :=
    if sat then (BitVec.ofInt 32 (if above then hi else lo), flagIV ||| flagSAT)
    else (if sgn then 0x80000000 else 0xFFFFFFFF, flagIV)
  match fp32.decode a with
  | .nan _ => if sat then (0, flagIV ||| flagSAT) else (if sgn then 0x80000000 else 0xFFFFFFFF, flagIV)
  | .inf n => out (!n)
  | .num n m e =>
    let (z, ix) := toInteger r n m e
    if z < lo then out false
    else if hi < z then out true
    else (BitVec.ofInt 32 z, if ix then flagIX else 0)

/-- An integer rounded to FP32 (R145). -/
def intToF (r : Rnd) (z : Int) : Nat × Word := if z = 0 then (0, 0) else roundFin fp32 r (z < 0) z.natAbs 0

/-- `frnd` (R152). -/
def fRoundInt (r : Rnd) (a : Nat) : Nat × Word :=
  match fp32.decode a with
  | .nan s => (fp32.nan, if s then flagIV else 0)
  | .inf _ => (a, 0)
  | .num n m e =>
    if m = 0 then (a, 0)
    else
      let (z, _) := toInteger r n m e
      if z = 0 then (fp32.signed n 0, 0) else ((roundFin fp32 .rn n z.natAbs 0).1, 0)

/-- The integer square root, bit by bit from `2^n` down. -/
def isqrt : Nat → Nat → Nat → Nat
  | 0, _, r => r
  | n + 1, x, r => let t := r + 2 ^ n; if t * t ≤ x then isqrt n x t else isqrt n x r

/-- a ÷ b with one rounding, as R475 and R356 use it: 0 ÷ 0 and ∞ ÷ ∞ are invalid. -/
def fDiv (f : Fmt) (r : Rnd) (a b : Nat) : Nat × Word :=
  let x := f.decode a
  let y := f.decode b
  let iv : Word := if x.sig || y.sig then flagIV else 0
  match x, y with
  | .nan _, _ => (f.nan, iv)
  | _, .nan _ => (f.nan, iv)
  | .inf _, .inf _ => (f.nan, flagIV)
  | .inf n, .num n' _ _ => (f.signed (n != n') f.inf, 0)
  | .num n _ _, .inf n' => (f.signed (n != n') 0, 0)
  | .num n m e, .num n' m' e' =>
    if m' = 0 then (if m = 0 then (f.nan, flagIV) else (f.signed (n != n') f.inf, flagDZ))
    else if m = 0 then (f.signed (n != n') 0, 0)
    else
      let sh := 64 + Nat.log2 m'
      let q := m * 2 ^ sh / m'
      let st := if m * 2 ^ sh % m' = 0 then 0 else 1
      roundFin f r (n != n') (2 * q + st) (e - e' - sh - 1)

/-- √a, correctly rounded with rn (R149, R151). -/
def fSqrt (f : Fmt) (a : Nat) : Nat × Word :=
  match f.decode a with
  | .nan s => (f.nan, if s then flagIV else 0)
  | .inf n => if n then (f.nan, flagIV) else (f.inf, 0)
  | .num n m e =>
    if m = 0 then (a, 0)
    else if n then (f.nan, flagIV)
    else
      let (m1, e1) := if e % 2 = 0 then (m, e) else (2 * m, e - 1)
      let x := m1 * 2 ^ 64
      let q := isqrt 64 x 0
      let st := if q * q = x then 0 else 1
      roundFin f .rn false (2 * q + st) (e1 / 2 - 32 - 1)

/-- The two BF16 elements of a register (R90). -/
def bfLo (w : Word) : Nat := w.toNat % 65536
/-- Element 1 of a bf2 register. -/
def bfHi (w : Word) : Nat := w.toNat / 65536
/-- A register from two 16-bit elements (R77). -/
def pair16 (lo hi : Nat) : Word := BitVec.ofNat 32 (lo % 65536 + hi % 65536 * 65536)

/-- An element-wise BF16 function of two pairs, with the flags of both elements (R91). -/
def bf2Map (g : Nat → Nat → Nat × Word) (a b : Word) : Word × Word :=
  let l := g (bfLo a) (bfLo b)
  let h := g (bfHi a) (bfHi b)
  (pair16 l.1 h.1, l.2 ||| h.2)

/-- An FP32 function of two words. -/
def f32Map (g : Nat → Nat → Nat × Word) (a b : Word) : Word × Word :=
  let r := g a.toNat b.toNat
  (BitVec.ofNat 32 r.1, r.2)

end Sys2Proof.Machine
end

