-- ==== Sys2Proof/Machine/Flags.lean ====
section
/-! DEFINITION. The integer results that set a flag: clamps (R79, R95), shifts with rounding (R100, R142), bit fields (R101). The
flags of FP32, BF16 and FP16 results are computed with the results in Machine/Fp.lean (R82 to R94). -/

namespace Sys2Proof.Machine

/-- An exact result clamped to [lo, hi], with SAT where the clamp changed it (R79). -/
def clampTo (lo hi x : Int) : Word × Word :=
  if x < lo then (BitVec.ofInt 32 lo, flagSAT) else if hi < x then (BitVec.ofInt 32 hi, flagSAT) else (BitVec.ofInt 32 x, 0)

/-- Clamping to the i32 range (R79). -/
def clamp32 (x : Int) : Word × Word := clampTo (-2 ^ 31) (2 ^ 31 - 1) x

/-- Clamping to the signed 16-bit range (R95). -/
def clamp16 (x : Int) : Word × Word := clampTo (-2 ^ 15) (2 ^ 15 - 1) x

/-- The signed elements of a packed word (R77): 0 is bits 15:0, 1 is bits 31:16. -/
def elem (x : Word) (e : Nat) : Int := (x.extractLsb' (16 * e) 16).toInt

/-- Two 16-bit results as a packed word, with the flags of both (R91, R95). -/
def packPair (lo hi : Word × Word) : Word × Word :=
  ((hi.1 <<< 16) ||| (lo.1 &&& 0xFFFF), lo.2 ||| hi.2)

/-- A packed INT16 operation element by element, clamped (R141). -/
def elementwise (f : Int → Int → Int) (a b : Word) : Word × Word :=
  packPair (clamp16 (f (elem a 0) (elem b 0))) (clamp16 (f (elem a 1) (elem b 1)))

/-- The exact rounding shift right of an integer (R100, R142): a tie goes toward +∞. -/
def roundShift (x : Int) (n : Nat) : Int := if n = 0 then x else (x + 2 ^ (n - 1)) / 2 ^ n

/-- `srar` (R100). -/
def srarWord (a b : Word) : Word := BitVec.ofInt 32 (roundShift a.toInt (b.toNat % 32))

/-- The field of a control word of `bfx` and `bfi`: its position and length (R101). -/
def fieldPos (c : Word) : Nat := c.toNat % 32
/-- The length, at most 32 (R101). -/
def fieldLen (c : Word) : Nat := min (c.toNat / 32 % 64) 32

/-- `bfx`: bits above bit 31 read as 0 (R101). -/
def bfxWord (a c : Word) : Word := BitVec.ofNat 32 (a.toNat / 2 ^ fieldPos c % 2 ^ fieldLen c)

/-- `bfi`: the field replaces the bits of the old destination (R101). -/
def bfiWord (d a c : Word) : Word :=
  let m : Word := BitVec.ofNat 32 ((2 ^ fieldLen c - 1) * 2 ^ fieldPos c)
  (d &&& ~~~m) ||| (BitVec.ofNat 32 (a.toNat * 2 ^ fieldPos c) &&& m)

/-- The number of 1 bits (R99). -/
def popWord (a : Word) : Word := BitVec.ofNat 32 ((List.range 32).filter fun i => a.getLsbD i).length

/-- The number of leading zero bits, 32 for zero (R99). -/
def clzWord (a : Word) : Word :=
  BitVec.ofNat 32 (((List.range 32).map fun i => a.getLsbD (31 - i)).takeWhile fun b => !b).length

/-- Bits 63:32 of the signed product (R78). -/
def mulhiWord (a b : Word) : Word := BitVec.ofInt 32 (a.toInt * b.toInt / 2 ^ 32)
/-- Bits 63:32 of the unsigned product (R78). -/
def mulhuWord (a b : Word) : Word := BitVec.ofNat 32 (a.toNat * b.toNat / 2 ^ 32)

/-- `pmac2`: one exact sum, judged once against the i32 range (R141, R142). -/
def pmac2Word (d a b : Word) : Word × Word :=
  clamp32 (d.toInt + elem a 0 * elem b 0 + elem a 1 * elem b 1)

/-- `psrar2`: one count, bits 3:0, for both elements (R142). -/
def psrar2Word (a b : Word) : Word × Word :=
  let n := b.toNat % 16
  packPair (clamp16 (roundShift (elem a 0) n)) (clamp16 (roundShift (elem a 1) n))

/-- `pack2s`: two i32 values clamped into one word (R141). -/
def pack2sWord (a b : Word) : Word × Word := packPair (clamp16 a.toInt) (clamp16 b.toInt)

end Sys2Proof.Machine
end

