-- ==== Sys2Proof/Config.lean ====
section
/-! DEFINITION. What one M9 fixes and the manual does not give, and the values the manual leaves open (R10, R12). Each is
opaque: nothing in this development can compute it, so whatever is proved holds for every value of it. -/

namespace Sys2Proof.Config

/-- A word the manual calls unpredictable (R12, R19, R417), drawn afresh at each place of a counter. Log 2. -/
opaque freeWord : Nat → Word
/-- An unpredictable choice between two values (R25, R121, R348), drawn at a place of a counter. Log 2. -/
opaque pick : Nat → Nat → Bool
/-- An unpredictable choice among several things (R238 replacement, R407): an index drawn at a place of a counter. Log 2. -/
opaque pickNat : Nat → Nat
/-- The channel, within its stack, that holds a sector in a boot: a fixed function of the physical address for the life of the boot, not
architectural (R247). Log 3. -/
opaque channelOf : Nat → Nat → Nat
/-- The hash of a physical line address that indexes a base die's horizon table in a boot (R273); not architectural. Log 3. -/
opaque horizonHash : Nat → Nat → Nat
/-- The HBM row, within its die, that holds a sector (R508); not architectural. Log 3. -/
opaque rowOf : Nat → Nat
/-- The plane choice of R441: a hash of a destination id and a sector address. Log 3. -/
opaque planeHash : Nat → Nat → Nat
/-- The links that a path of a collective object takes from rank to rank, by device × 1,024 + die × 16 + link (R457). A plan names ranks
alone (R456), and the manual does not say which links lie between two devices. Log 27. -/
opaque pathLinks : Nat → Nat → List Nat
/-- The mesh of a die (R2, R187): the physical core, 0 to 87, at a row and a column, or none where the stop attaches memory,
fabric or a die link. Physical cores 84 to 87 are the die's spares. Log 4. -/
opaque coreAt : Nat → Nat → Nat → Option Nat
/-- The bits that this part's reciprocal delivers (R149, R150), where they meet the bound. Log 5. -/
opaque rcp : Word → Word
/-- The bits that this part's reciprocal square root delivers, where they meet the bound (R149). Log 5. -/
opaque rsqrt : Word → Word
/-- The bits that this part's 2^x delivers, where they meet the bound (R149); `mmulsm` uses the same (R150). Log 5. -/
opaque exp2 : Word → Word
/-- The bits that this part's base-2 logarithm delivers, where they meet the bound (R149). Log 5. -/
opaque log2 : Word → Word
/-- The bits that this part's sin(πx) delivers for x > 0, where they meet the bound (R149). Log 5. -/
opaque sinpi : Word → Word
/-- The bits that this part's cos(πx) delivers for x > 0, where they meet the bound (R149). Log 5. -/
opaque cospi : Word → Word
/-- The bits that this part's tanh delivers for x > 0, where they meet the bound (R149). Log 5. -/
opaque tanh : Word → Word
/-- AES-XTS-128 of a sector under the keys of a generation, with a sector address as the tweak (R398). Log 6. -/
opaque xts : Nat → Nat → BitVec 512 → BitVec 512
/-- The leftmost 32 bits of AES-CMAC under the MAC key of a generation, over a sector address and 64 bytes (R398). Log 6. -/
opaque mac : Nat → Nat → BitVec 512 → BitVec 32
/-- The inverse of `xts`, applied to bits that are not those it was given (R399). Log 6. -/
opaque unxts : Nat → Nat → BitVec 512 → BitVec 512
/-- SHA-384 of a byte string, as a number (R501, R505). Log 6. -/
opaque sha384 : List Byte → Nat
/-- Neard's Ed25519 signature over a byte string, 64 bytes as a number (R505). Log 6. -/
opaque ed25519Sign : List Byte → Nat
/-- Neard's ML-DSA-65 signature over a byte string, 3,309 bytes as a number (R505). Log 6. -/
opaque mlDsaSign : List Byte → Nat

end Sys2Proof.Config
end

