-- ==== Sys2Proof/Machine/Map.lean ====
section
/-! DEFINITION. Sparse maps: lists of (key, value) pairs in rising key order. Every table of the machine that is large or
mostly at one value (register files, groups, memory) is held in this form, so that equal contents are equal data. -/

namespace Sys2Proof.Machine

/-- A sparse map from numbers: pairs in strictly rising key order. -/
abbrev SMap (α : Type) := List (Nat × α)

/-- The entry at a key, if there is one. -/
def SMap.find? {α : Type} : SMap α → Nat → Option α
  | [], _ => none
  | (k, v) :: m, i => if i = k then some v else if i < k then none else SMap.find? m i

/-- The entry at a key, or a value for the keys that have none. -/
def SMap.get {α : Type} (m : SMap α) (i : Nat) (d : α) : α := (SMap.find? m i).getD d

/-- The map with one entry written, in its place in the order. -/
def SMap.put {α : Type} : SMap α → Nat → α → SMap α
  | [], i, x => [(i, x)]
  | (k, v) :: m, i, x =>
    if i < k then (i, x) :: (k, v) :: m else if i = k then (i, x) :: m else (k, v) :: SMap.put m i x

/-- The map with one entry removed. -/
def SMap.del {α : Type} : SMap α → Nat → SMap α
  | [], _ => []
  | (k, v) :: m, i => if i = k then m else if i < k then (k, v) :: m else (k, v) :: SMap.del m i

/-- Writing where the default stands for an absent entry: the default itself is never listed. -/
def SMap.set {α : Type} [DecidableEq α] (m : SMap α) (i : Nat) (x d : α) : SMap α :=
  if x = d then SMap.del m i else SMap.put m i x

/-- The map with one entry, if it is there, changed by a function. -/
def SMap.upd {α : Type} (m : SMap α) (i : Nat) (f : α → α) : SMap α :=
  match SMap.find? m i with
  | some x => SMap.put m i (f x)
  | none => m

/-- Every key of a map is above a bound and the keys rise. -/
def SMap.wfFrom {α : Type} : Option Nat → SMap α → Bool
  | _, [] => true
  | b, (k, _) :: m => (match b with | none => true | some j => decide (j < k)) && SMap.wfFrom (some k) m

/-- The keys rise strictly: the canonical order. -/
def SMap.wf {α : Type} (m : SMap α) : Bool := SMap.wfFrom none m

/-- The least key that is free in a map, from a bound on, looking at no more than `n` keys. -/
def SMap.freeFrom {α : Type} (m : SMap α) : Nat → Nat → Option Nat
  | 0, _ => none
  | n + 1, i => match SMap.find? m i with | none => some i | some _ => SMap.freeFrom m n (i + 1)

end Sys2Proof.Machine
end

