-- ==== Sys2Proof/Syntax.lean ====
section
/-! DEFINITION. Abstract syntax: `Instr`, one constructor for each row of the opcode table. The first 327 are the
encoded instructions of R55 to R75, with the fields of the table as bit vectors of their widths; the last 81 are the
steps that other parties than an instruction stream take, with the operands that say which of them is meant. -/

namespace Sys2Proof

/-- Every row of the opcode table. `w` is the switch marker of R23. -/
inductive Instr where
  /-- ADD_VR (R99) -/
  | addVr (w : BitVec 1) (d : BitVec 7) (a : BitVec 7) (b : BitVec 7)
  /-- ADD_VS (R99) -/
  | addVs (w : BitVec 1) (d : BitVec 7) (a : BitVec 7) (s : BitVec 7)
  /-- ADD_VI (R99) -/
  | addVi (w : BitVec 1) (d : BitVec 7) (a : BitVec 7) (i : BitVec 7)
  /-- SUB_VR (R99) -/
  | subVr (w : BitVec 1) (d : BitVec 7) (a : BitVec 7) (b : BitVec 7)
  /-- SUB_VS (R99) -/
  | subVs (w : BitVec 1) (d : BitVec 7) (a : BitVec 7) (s : BitVec 7)
  /-- SUB_VI (R99) -/
  | subVi (w : BitVec 1) (d : BitVec 7) (a : BitVec 7) (i : BitVec 7)
  /-- MUL_VR (R99) -/
  | mulVr (w : BitVec 1) (d : BitVec 7) (a : BitVec 7) (b : BitVec 7)
  /-- MUL_VS (R99) -/
  | mulVs (w : BitVec 1) (d : BitVec 7) (a : BitVec 7) (s : BitVec 7)
  /-- MUL_VI (R99) -/
  | mulVi (w : BitVec 1) (d : BitVec 7) (a : BitVec 7) (i : BitVec 7)
  /-- MULHI_VR (R99) -/
  | mulhiVr (w : BitVec 1) (d : BitVec 7) (a : BitVec 7) (b : BitVec 7)
  /-- MULHI_VS (R99) -/
  | mulhiVs (w : BitVec 1) (d : BitVec 7) (a : BitVec 7) (s : BitVec 7)
  /-- MULHI_VI (R99) -/
  | mulhiVi (w : BitVec 1) (d : BitVec 7) (a : BitVec 7) (i : BitVec 7)
  /-- MULHU_VR (R99) -/
  | mulhuVr (w : BitVec 1) (d : BitVec 7) (a : BitVec 7) (b : BitVec 7)
  /-- MULHU_VS (R99) -/
  | mulhuVs (w : BitVec 1) (d : BitVec 7) (a : BitVec 7) (s : BitVec 7)
  /-- MULHU_VI (R99) -/
  | mulhuVi (w : BitVec 1) (d : BitVec 7) (a : BitVec 7) (i : BitVec 7)
  /-- MAD_VR (R99) -/
  | madVr (w : BitVec 1) (d : BitVec 7) (a : BitVec 7) (b : BitVec 7)
  /-- MAD_VS (R99) -/
  | madVs (w : BitVec 1) (d : BitVec 7) (a : BitVec 7) (s : BitVec 7)
  /-- MAD_VI (R99) -/
  | madVi (w : BitVec 1) (d : BitVec 7) (a : BitVec 7) (i : BitVec 7)
  /-- AND_VR (R99) -/
  | andVr (w : BitVec 1) (d : BitVec 7) (a : BitVec 7) (b : BitVec 7)
  /-- AND_VS (R99) -/
  | andVs (w : BitVec 1) (d : BitVec 7) (a : BitVec 7) (s : BitVec 7)
  /-- AND_VI (R99) -/
  | andVi (w : BitVec 1) (d : BitVec 7) (a : BitVec 7) (i : BitVec 7)
  /-- OR_VR (R99) -/
  | orVr (w : BitVec 1) (d : BitVec 7) (a : BitVec 7) (b : BitVec 7)
  /-- OR_VS (R99) -/
  | orVs (w : BitVec 1) (d : BitVec 7) (a : BitVec 7) (s : BitVec 7)
  /-- OR_VI (R99) -/
  | orVi (w : BitVec 1) (d : BitVec 7) (a : BitVec 7) (i : BitVec 7)
  /-- XOR_VR (R99) -/
  | xorVr (w : BitVec 1) (d : BitVec 7) (a : BitVec 7) (b : BitVec 7)
  /-- XOR_VS (R99) -/
  | xorVs (w : BitVec 1) (d : BitVec 7) (a : BitVec 7) (s : BitVec 7)
  /-- XOR_VI (R99) -/
  | xorVi (w : BitVec 1) (d : BitVec 7) (a : BitVec 7) (i : BitVec 7)
  /-- ANDN_VR (R99) -/
  | andnVr (w : BitVec 1) (d : BitVec 7) (a : BitVec 7) (b : BitVec 7)
  /-- ANDN_VS (R99) -/
  | andnVs (w : BitVec 1) (d : BitVec 7) (a : BitVec 7) (s : BitVec 7)
  /-- ANDN_VI (R99) -/
  | andnVi (w : BitVec 1) (d : BitVec 7) (a : BitVec 7) (i : BitVec 7)
  /-- SHL_VR (R100) -/
  | shlVr (w : BitVec 1) (d : BitVec 7) (a : BitVec 7) (b : BitVec 7)
  /-- SHL_VS (R100) -/
  | shlVs (w : BitVec 1) (d : BitVec 7) (a : BitVec 7) (s : BitVec 7)
  /-- SHL_VI (R100) -/
  | shlVi (w : BitVec 1) (d : BitVec 7) (a : BitVec 7) (i : BitVec 7)
  /-- SHR_VR (R100) -/
  | shrVr (w : BitVec 1) (d : BitVec 7) (a : BitVec 7) (b : BitVec 7)
  /-- SHR_VS (R100) -/
  | shrVs (w : BitVec 1) (d : BitVec 7) (a : BitVec 7) (s : BitVec 7)
  /-- SHR_VI (R100) -/
  | shrVi (w : BitVec 1) (d : BitVec 7) (a : BitVec 7) (i : BitVec 7)
  /-- SRA_VR (R100) -/
  | sraVr (w : BitVec 1) (d : BitVec 7) (a : BitVec 7) (b : BitVec 7)
  /-- SRA_VS (R100) -/
  | sraVs (w : BitVec 1) (d : BitVec 7) (a : BitVec 7) (s : BitVec 7)
  /-- SRA_VI (R100) -/
  | sraVi (w : BitVec 1) (d : BitVec 7) (a : BitVec 7) (i : BitVec 7)
  /-- SRAR_VR (R100) -/
  | srarVr (w : BitVec 1) (d : BitVec 7) (a : BitVec 7) (b : BitVec 7)
  /-- SRAR_VS (R100) -/
  | srarVs (w : BitVec 1) (d : BitVec 7) (a : BitVec 7) (s : BitVec 7)
  /-- SRAR_VI (R100) -/
  | srarVi (w : BitVec 1) (d : BitVec 7) (a : BitVec 7) (i : BitVec 7)
  /-- MIN_VR (R99) -/
  | minVr (w : BitVec 1) (d : BitVec 7) (a : BitVec 7) (b : BitVec 7)
  /-- MIN_VS (R99) -/
  | minVs (w : BitVec 1) (d : BitVec 7) (a : BitVec 7) (s : BitVec 7)
  /-- MIN_VI (R99) -/
  | minVi (w : BitVec 1) (d : BitVec 7) (a : BitVec 7) (i : BitVec 7)
  /-- MAX_VR (R99) -/
  | maxVr (w : BitVec 1) (d : BitVec 7) (a : BitVec 7) (b : BitVec 7)
  /-- MAX_VS (R99) -/
  | maxVs (w : BitVec 1) (d : BitVec 7) (a : BitVec 7) (s : BitVec 7)
  /-- MAX_VI (R99) -/
  | maxVi (w : BitVec 1) (d : BitVec 7) (a : BitVec 7) (i : BitVec 7)
  /-- MINU_VR (R99) -/
  | minuVr (w : BitVec 1) (d : BitVec 7) (a : BitVec 7) (b : BitVec 7)
  /-- MINU_VS (R99) -/
  | minuVs (w : BitVec 1) (d : BitVec 7) (a : BitVec 7) (s : BitVec 7)
  /-- MINU_VI (R99) -/
  | minuVi (w : BitVec 1) (d : BitVec 7) (a : BitVec 7) (i : BitVec 7)
  /-- MAXU_VR (R99) -/
  | maxuVr (w : BitVec 1) (d : BitVec 7) (a : BitVec 7) (b : BitVec 7)
  /-- MAXU_VS (R99) -/
  | maxuVs (w : BitVec 1) (d : BitVec 7) (a : BitVec 7) (s : BitVec 7)
  /-- MAXU_VI (R99) -/
  | maxuVi (w : BitVec 1) (d : BitVec 7) (a : BitVec 7) (i : BitVec 7)
  /-- ADDS_VR (R99) -/
  | addsVr (w : BitVec 1) (d : BitVec 7) (a : BitVec 7) (b : BitVec 7)
  /-- ADDS_VS (R99) -/
  | addsVs (w : BitVec 1) (d : BitVec 7) (a : BitVec 7) (s : BitVec 7)
  /-- ADDS_VI (R99) -/
  | addsVi (w : BitVec 1) (d : BitVec 7) (a : BitVec 7) (i : BitVec 7)
  /-- SUBS_VR (R99) -/
  | subsVr (w : BitVec 1) (d : BitVec 7) (a : BitVec 7) (b : BitVec 7)
  /-- SUBS_VS (R99) -/
  | subsVs (w : BitVec 1) (d : BitVec 7) (a : BitVec 7) (s : BitVec 7)
  /-- SUBS_VI (R99) -/
  | subsVi (w : BitVec 1) (d : BitVec 7) (a : BitVec 7) (i : BitVec 7)
  /-- BFX_VR (R101) -/
  | bfxVr (w : BitVec 1) (d : BitVec 7) (a : BitVec 7) (b : BitVec 7)
  /-- BFX_VS (R101) -/
  | bfxVs (w : BitVec 1) (d : BitVec 7) (a : BitVec 7) (s : BitVec 7)
  /-- BFX_VI (R101) -/
  | bfxVi (w : BitVec 1) (d : BitVec 7) (a : BitVec 7) (i : BitVec 7)
  /-- BFI_VR (R101) -/
  | bfiVr (w : BitVec 1) (d : BitVec 7) (a : BitVec 7) (b : BitVec 7)
  /-- BFI_VS (R101) -/
  | bfiVs (w : BitVec 1) (d : BitVec 7) (a : BitVec 7) (s : BitVec 7)
  /-- BFI_VI (R101) -/
  | bfiVi (w : BitVec 1) (d : BitVec 7) (a : BitVec 7) (i : BitVec 7)
  /-- POPC (R99) -/
  | popc (w : BitVec 1) (d : BitVec 7) (a : BitVec 7)
  /-- CLZ (R99) -/
  | clz (w : BitVec 1) (d : BitVec 7) (a : BitVec 7)
  /-- MOV_VR (R102) -/
  | movVr (w : BitVec 1) (d : BitVec 7) (b : BitVec 7)
  /-- MOV_VS (R102) -/
  | movVs (w : BitVec 1) (d : BitVec 7) (s : BitVec 7)
  /-- MOV_VI (R102) -/
  | movVi (w : BitVec 1) (d : BitVec 7) (i : BitVec 7)
  /-- SEL_VR (R102) -/
  | selVr (w : BitVec 1) (d : BitVec 7) (a : BitVec 7) (b : BitVec 7)
  /-- SEL_VS (R102) -/
  | selVs (w : BitVec 1) (d : BitVec 7) (a : BitVec 7) (s : BitVec 7)
  /-- SEL_VI (R102) -/
  | selVi (w : BitVec 1) (d : BitVec 7) (a : BitVec 7) (i : BitVec 7)
  /-- ADD64_VR (R103) -/
  | add64Vr (w : BitVec 1) (d : BitVec 7) (a : BitVec 7) (b : BitVec 7)
  /-- ADD64_VS (R103) -/
  | add64Vs (w : BitVec 1) (d : BitVec 7) (a : BitVec 7) (s : BitVec 7)
  /-- SUB64_VR (R103) -/
  | sub64Vr (w : BitVec 1) (d : BitVec 7) (a : BitVec 7) (b : BitVec 7)
  /-- SUB64_VS (R103) -/
  | sub64Vs (w : BitVec 1) (d : BitVec 7) (a : BitVec 7) (s : BitVec 7)
  /-- SHL64_VR (R103) -/
  | shl64Vr (w : BitVec 1) (d : BitVec 7) (a : BitVec 7) (b : BitVec 7)
  /-- SHL64_VS (R103) -/
  | shl64Vs (w : BitVec 1) (d : BitVec 7) (a : BitVec 7) (s : BitVec 7)
  /-- SHL64_VI (R103) -/
  | shl64Vi (w : BitVec 1) (d : BitVec 7) (a : BitVec 7) (i : BitVec 7)
  /-- SHR64_VR (R103) -/
  | shr64Vr (w : BitVec 1) (d : BitVec 7) (a : BitVec 7) (b : BitVec 7)
  /-- SHR64_VS (R103) -/
  | shr64Vs (w : BitVec 1) (d : BitVec 7) (a : BitVec 7) (s : BitVec 7)
  /-- SHR64_VI (R103) -/
  | shr64Vi (w : BitVec 1) (d : BitVec 7) (a : BitVec 7) (i : BitVec 7)
  /-- FADD_VR (R134) -/
  | faddVr (w : BitVec 1) (d : BitVec 7) (a : BitVec 7) (b : BitVec 7)
  /-- FADD_VS (R134) -/
  | faddVs (w : BitVec 1) (d : BitVec 7) (a : BitVec 7) (s : BitVec 7)
  /-- FSUB_VR (R134) -/
  | fsubVr (w : BitVec 1) (d : BitVec 7) (a : BitVec 7) (b : BitVec 7)
  /-- FSUB_VS (R134) -/
  | fsubVs (w : BitVec 1) (d : BitVec 7) (a : BitVec 7) (s : BitVec 7)
  /-- FMUL_VR (R134) -/
  | fmulVr (w : BitVec 1) (d : BitVec 7) (a : BitVec 7) (b : BitVec 7)
  /-- FMUL_VS (R134) -/
  | fmulVs (w : BitVec 1) (d : BitVec 7) (a : BitVec 7) (s : BitVec 7)
  /-- FFMA_VR (R135) -/
  | ffmaVr (w : BitVec 1) (d : BitVec 7) (a : BitVec 7) (b : BitVec 7)
  /-- FFMA_VS (R135) -/
  | ffmaVs (w : BitVec 1) (d : BitVec 7) (a : BitVec 7) (s : BitVec 7)
  /-- FMIN_VR (R88) -/
  | fminVr (w : BitVec 1) (d : BitVec 7) (a : BitVec 7) (b : BitVec 7)
  /-- FMIN_VS (R88) -/
  | fminVs (w : BitVec 1) (d : BitVec 7) (a : BitVec 7) (s : BitVec 7)
  /-- FMAX_VR (R88) -/
  | fmaxVr (w : BitVec 1) (d : BitVec 7) (a : BitVec 7) (b : BitVec 7)
  /-- FMAX_VS (R88) -/
  | fmaxVs (w : BitVec 1) (d : BitVec 7) (a : BitVec 7) (s : BitVec 7)
  /-- FABS (R134) -/
  | fabs (w : BitVec 1) (d : BitVec 7) (a : BitVec 7)
  /-- FNEG (R134) -/
  | fneg (w : BitVec 1) (d : BitVec 7) (a : BitVec 7)
  /-- HADD2_VR (R138) -/
  | hadd2Vr (w : BitVec 1) (d : BitVec 7) (a : BitVec 7) (b : BitVec 7)
  /-- HADD2_VS (R138) -/
  | hadd2Vs (w : BitVec 1) (d : BitVec 7) (a : BitVec 7) (s : BitVec 7)
  /-- HSUB2_VR (R138) -/
  | hsub2Vr (w : BitVec 1) (d : BitVec 7) (a : BitVec 7) (b : BitVec 7)
  /-- HSUB2_VS (R138) -/
  | hsub2Vs (w : BitVec 1) (d : BitVec 7) (a : BitVec 7) (s : BitVec 7)
  /-- HMUL2_VR (R138) -/
  | hmul2Vr (w : BitVec 1) (d : BitVec 7) (a : BitVec 7) (b : BitVec 7)
  /-- HMUL2_VS (R138) -/
  | hmul2Vs (w : BitVec 1) (d : BitVec 7) (a : BitVec 7) (s : BitVec 7)
  /-- HFMA2_VR (R138) -/
  | hfma2Vr (w : BitVec 1) (d : BitVec 7) (a : BitVec 7) (b : BitVec 7)
  /-- HFMA2_VS (R138) -/
  | hfma2Vs (w : BitVec 1) (d : BitVec 7) (a : BitVec 7) (s : BitVec 7)
  /-- HDOT2_VR (R92) -/
  | hdot2Vr (w : BitVec 1) (d : BitVec 7) (a : BitVec 7) (b : BitVec 7)
  /-- HDOT2_VS (R92) -/
  | hdot2Vs (w : BitVec 1) (d : BitVec 7) (a : BitVec 7) (s : BitVec 7)
  /-- HMAX2_VR (R138) -/
  | hmax2Vr (w : BitVec 1) (d : BitVec 7) (a : BitVec 7) (b : BitVec 7)
  /-- HMAX2_VS (R138) -/
  | hmax2Vs (w : BitVec 1) (d : BitVec 7) (a : BitVec 7) (s : BitVec 7)
  /-- HMIN2_VR (R138) -/
  | hmin2Vr (w : BitVec 1) (d : BitVec 7) (a : BitVec 7) (b : BitVec 7)
  /-- HMIN2_VS (R138) -/
  | hmin2Vs (w : BitVec 1) (d : BitVec 7) (a : BitVec 7) (s : BitVec 7)
  /-- PADD2S_VR (R141) -/
  | padd2sVr (w : BitVec 1) (d : BitVec 7) (a : BitVec 7) (b : BitVec 7)
  /-- PADD2S_VS (R141) -/
  | padd2sVs (w : BitVec 1) (d : BitVec 7) (a : BitVec 7) (s : BitVec 7)
  /-- PSUB2S_VR (R141) -/
  | psub2sVr (w : BitVec 1) (d : BitVec 7) (a : BitVec 7) (b : BitVec 7)
  /-- PSUB2S_VS (R141) -/
  | psub2sVs (w : BitVec 1) (d : BitVec 7) (a : BitVec 7) (s : BitVec 7)
  /-- PMUL2_VR (R141) -/
  | pmul2Vr (w : BitVec 1) (d : BitVec 7) (a : BitVec 7) (b : BitVec 7)
  /-- PMUL2_VS (R141) -/
  | pmul2Vs (w : BitVec 1) (d : BitVec 7) (a : BitVec 7) (s : BitVec 7)
  /-- PMAC2_VR (R141) -/
  | pmac2Vr (w : BitVec 1) (d : BitVec 7) (a : BitVec 7) (b : BitVec 7)
  /-- PMAC2_VS (R141) -/
  | pmac2Vs (w : BitVec 1) (d : BitVec 7) (a : BitVec 7) (s : BitVec 7)
  /-- PMAX2_VR (R141) -/
  | pmax2Vr (w : BitVec 1) (d : BitVec 7) (a : BitVec 7) (b : BitVec 7)
  /-- PMAX2_VS (R141) -/
  | pmax2Vs (w : BitVec 1) (d : BitVec 7) (a : BitVec 7) (s : BitVec 7)
  /-- PMIN2_VR (R141) -/
  | pmin2Vr (w : BitVec 1) (d : BitVec 7) (a : BitVec 7) (b : BitVec 7)
  /-- PMIN2_VS (R141) -/
  | pmin2Vs (w : BitVec 1) (d : BitVec 7) (a : BitVec 7) (s : BitVec 7)
  /-- PSRAR2_VR (R142) -/
  | psrar2Vr (w : BitVec 1) (d : BitVec 7) (a : BitVec 7) (b : BitVec 7)
  /-- PSRAR2_VS (R142) -/
  | psrar2Vs (w : BitVec 1) (d : BitVec 7) (a : BitVec 7) (s : BitVec 7)
  /-- PACK2S_VR (R141) -/
  | pack2sVr (w : BitVec 1) (d : BitVec 7) (a : BitVec 7) (b : BitVec 7)
  /-- PACK2S_VS (R141) -/
  | pack2sVs (w : BitVec 1) (d : BitVec 7) (a : BitVec 7) (s : BitVec 7)
  /-- UNPKLO (R141) -/
  | unpklo (w : BitVec 1) (d : BitVec 7) (a : BitVec 7)
  /-- UNPKHI (R141) -/
  | unpkhi (w : BitVec 1) (d : BitVec 7) (a : BitVec 7)
  /-- CMP_VV (R105) -/
  | cmpVv (w : BitVec 1) (c : BitVec 5) (p : BitVec 3) (t : BitVec 3) (a : BitVec 7) (b : BitVec 7)
  /-- CMP_VS (R105) -/
  | cmpVs (w : BitVec 1) (c : BitVec 5) (p : BitVec 3) (t : BitVec 3) (a : BitVec 7) (s : BitVec 7)
  /-- CMP_VI (R106) -/
  | cmpVi (w : BitVec 1) (c : BitVec 5) (p : BitVec 3) (t : BitVec 3) (a : BitVec 7) (i : BitVec 7)
  /-- SCMP (R105) -/
  | scmp (w : BitVec 1) (c : BitVec 5) (q : BitVec 3) (t : BitVec 3) (a : BitVec 7) (b : BitVec 7)
  /-- SADD (R110) -/
  | sadd (w : BitVec 1) (d : BitVec 10) (a : BitVec 10)
  /-- SSUB (R110) -/
  | ssub (w : BitVec 1) (d : BitVec 10) (a : BitVec 10)
  /-- SMUL (R110) -/
  | smul (w : BitVec 1) (d : BitVec 10) (a : BitVec 10)
  /-- SAND (R110) -/
  | sand (w : BitVec 1) (d : BitVec 10) (a : BitVec 10)
  /-- SOR (R110) -/
  | sor (w : BitVec 1) (d : BitVec 10) (a : BitVec 10)
  /-- SXOR (R110) -/
  | sxor (w : BitVec 1) (d : BitVec 10) (a : BitVec 10)
  /-- SSHL (R110) -/
  | sshl (w : BitVec 1) (d : BitVec 10) (a : BitVec 10)
  /-- SSHR (R110) -/
  | sshr (w : BitVec 1) (d : BitVec 10) (a : BitVec 10)
  /-- SSRA (R110) -/
  | ssra (w : BitVec 1) (d : BitVec 10) (a : BitVec 10)
  /-- SMIN (R110) -/
  | smin (w : BitVec 1) (d : BitVec 10) (a : BitVec 10)
  /-- SMAX (R110) -/
  | smax (w : BitVec 1) (d : BitVec 10) (a : BitVec 10)
  /-- SMINU (R110) -/
  | sminu (w : BitVec 1) (d : BitVec 10) (a : BitVec 10)
  /-- SMAXU (R110) -/
  | smaxu (w : BitVec 1) (d : BitVec 10) (a : BitVec 10)
  /-- SMOV (R110) -/
  | smov (w : BitVec 1) (d : BitVec 10) (a : BitVec 10)
  /-- SADD64 (R110) -/
  | sadd64 (w : BitVec 1) (d : BitVec 10) (a : BitVec 10)
  /-- SSUB64 (R110) -/
  | ssub64 (w : BitVec 1) (d : BitVec 10) (a : BitVec 10)
  /-- SGET (R111) -/
  | sget (w : BitVec 1) (d : BitVec 10) (n : BitVec 10)
  /-- SFROMV (R110) -/
  | sfromv (w : BitVec 1) (d : BitVec 10) (a : BitVec 7)
  /-- STOV (R110) -/
  | stov (w : BitVec 1) (d : BitVec 7) (a : BitVec 10)
  /-- SLI (R112) -/
  | sli (w : BitVec 1) (d : BitVec 10) (i : BitVec 12)
  /-- SADDI (R112) -/
  | saddi (w : BitVec 1) (d : BitVec 10) (i : BitVec 12)
  /-- SANDI (R112) -/
  | sandi (w : BitVec 1) (d : BitVec 10) (i : BitVec 12)
  /-- SORI (R112) -/
  | sori (w : BitVec 1) (d : BitVec 10) (i : BitVec 12)
  /-- SXORI (R112) -/
  | sxori (w : BitVec 1) (d : BitVec 10) (i : BitVec 12)
  /-- SSHLI (R112) -/
  | sshli (w : BitVec 1) (d : BitVec 10) (c : BitVec 5)
  /-- SSHRI (R112) -/
  | sshri (w : BitVec 1) (d : BitVec 10) (c : BitVec 5)
  /-- SSRAI (R112) -/
  | ssrai (w : BitVec 1) (d : BitVec 10) (c : BitVec 5)
  /-- SMULI (R112) -/
  | smuli (w : BitVec 1) (d : BitVec 10) (i : BitVec 12)
  /-- SLD (R130) -/
  | sld (w : BitVec 1) (d : BitVec 10) (b : BitVec 4) (x : BitVec 8)
  /-- SST (R130) -/
  | sst (w : BitVec 1) (d : BitVec 10) (b : BitVec 4) (x : BitVec 8)
  /-- BBIND (R120) -/
  | bbind (w : BitVec 1) (d : BitVec 10) (b : BitVec 4)
  /-- B (R114) -/
  | br (w : BitVec 1) (o : BitVec 21)
  /-- BP (R114) -/
  | bp (w : BitVec 1) (p : BitVec 3) (o : BitVec 21)
  /-- BNP (R114) -/
  | bnp (w : BitVec 1) (p : BitVec 3) (o : BitVec 21)
  /-- BQ (R114) -/
  | bq (w : BitVec 1) (q : BitVec 3) (o : BitVec 21)
  /-- BNQ (R114) -/
  | bnq (w : BitVec 1) (q : BitVec 3) (o : BitVec 21)
  /-- CALL (R114) -/
  | call (w : BitVec 1) (o : BitVec 21)
  /-- RET (R114) -/
  | ret (w : BitVec 1)
  /-- CVTFI (R144) -/
  | cvtfi (w : BitVec 1) (d : BitVec 7) (a : BitVec 7) (s : BitVec 1) (r : BitVec 2)
  /-- CVTFU (R144) -/
  | cvtfu (w : BitVec 1) (d : BitVec 7) (a : BitVec 7) (s : BitVec 1) (r : BitVec 2)
  /-- CVTIF (R145) -/
  | cvtif (w : BitVec 1) (d : BitVec 7) (a : BitVec 7) (r : BitVec 2)
  /-- CVTUF (R145) -/
  | cvtuf (w : BitVec 1) (d : BitVec 7) (a : BitVec 7) (r : BitVec 2)
  /-- CVTBF (R146) -/
  | cvtbf (w : BitVec 1) (d : BitVec 7) (a : BitVec 7) (c : BitVec 7)
  /-- CVTFBL (R146) -/
  | cvtfbl (w : BitVec 1) (d : BitVec 7) (a : BitVec 7)
  /-- CVTFBH (R146) -/
  | cvtfbh (w : BitVec 1) (d : BitVec 7) (a : BitVec 7)
  /-- CVTHF (R147) -/
  | cvthf (w : BitVec 1) (d : BitVec 7) (a : BitVec 7) (h : BitVec 1)
  /-- CVTFHL (R147) -/
  | cvtfhl (w : BitVec 1) (d : BitVec 7) (a : BitVec 7) (s : BitVec 1) (r : BitVec 2)
  /-- CVTFHH (R147) -/
  | cvtfhh (w : BitVec 1) (d : BitVec 7) (a : BitVec 7) (s : BitVec 1) (r : BitVec 2)
  /-- RCP (R149) -/
  | rcp (w : BitVec 1) (d : BitVec 7) (a : BitVec 7)
  /-- RSQRT (R149) -/
  | rsqrt (w : BitVec 1) (d : BitVec 7) (a : BitVec 7)
  /-- SQRT (R149) -/
  | sqrt (w : BitVec 1) (d : BitVec 7) (a : BitVec 7)
  /-- EXP2 (R149) -/
  | exp2 (w : BitVec 1) (d : BitVec 7) (a : BitVec 7)
  /-- LOG2 (R149) -/
  | log2 (w : BitVec 1) (d : BitVec 7) (a : BitVec 7)
  /-- SINPI (R149) -/
  | sinpi (w : BitVec 1) (d : BitVec 7) (a : BitVec 7)
  /-- COSPI (R149) -/
  | cospi (w : BitVec 1) (d : BitVec 7) (a : BitVec 7)
  /-- TANH (R149) -/
  | tanh (w : BitVec 1) (d : BitVec 7) (a : BitVec 7)
  /-- FRND (R152) -/
  | frnd (w : BitVec 1) (d : BitVec 7) (a : BitVec 7) (r : BitVec 2)
  /-- SHFL (R203) -/
  | shfl (w : BitVec 1) (d : BitVec 7) (a : BitVec 7) (x : BitVec 7)
  /-- SHFLI (R203) -/
  | shfli (w : BitVec 1) (d : BitVec 7) (a : BitVec 7) (n : BitVec 5)
  /-- SLUP (R204) -/
  | slup (w : BitVec 1) (d : BitVec 7) (a : BitVec 7) (n : BitVec 5) (l : BitVec 2)
  /-- SLDN (R204) -/
  | sldn (w : BitVec 1) (d : BitVec 7) (a : BitVec 7) (n : BitVec 5) (l : BitVec 2)
  /-- BCST (R203) -/
  | bcst (w : BitVec 1) (d : BitVec 7) (a : BitVec 7) (n : BitVec 5)
  /-- BALLOT (R205) -/
  | ballot (w : BitVec 1) (s : BitVec 7) (p : BitVec 3)
  /-- VANY (R205) -/
  | vany (w : BitVec 1) (q : BitVec 3) (p : BitVec 3)
  /-- VALL (R205) -/
  | vall (w : BitVec 1) (q : BitVec 3) (p : BitVec 3)
  /-- RADD (R206) -/
  | radd (w : BitVec 1) (d : BitVec 7) (a : BitVec 7)
  /-- RFADD (R207) -/
  | rfadd (w : BitVec 1) (d : BitVec 7) (a : BitVec 7)
  /-- RMAX (R206) -/
  | rmax (w : BitVec 1) (d : BitVec 7) (a : BitVec 7)
  /-- RMIN (R206) -/
  | rmin (w : BitVec 1) (d : BitVec 7) (a : BitVec 7)
  /-- SCAN (R206) -/
  | scan (w : BitVec 1) (d : BitVec 7) (a : BitVec 7)
  /-- SCANX (R206) -/
  | scanx (w : BitVec 1) (d : BitVec 7) (a : BitVec 7)
  /-- MATCH (R205) -/
  | matchv (w : BitVec 1) (d : BitVec 7) (a : BitVec 7)
  /-- PAND (R205) -/
  | pand (w : BitVec 1) (d : BitVec 3) (a : BitVec 3) (b : BitVec 3)
  /-- POR (R205) -/
  | por (w : BitVec 1) (d : BitVec 3) (a : BitVec 3) (b : BitVec 3)
  /-- PXOR (R205) -/
  | pxor (w : BitVec 1) (d : BitVec 3) (a : BitVec 3) (b : BitVec 3)
  /-- PNOT (R205) -/
  | pnot (w : BitVec 1) (d : BitVec 3) (a : BitVec 3)
  /-- PTOV (R205) -/
  | ptov (w : BitVec 1) (d : BitVec 7) (p : BitVec 3)
  /-- VTOP (R205) -/
  | vtop (w : BitVec 1) (p : BitVec 3) (a : BitVec 7)
  /-- PEBPK (R209) -/
  | pebpk (w : BitVec 1) (d : BitVec 7) (a : BitVec 7) (f : BitVec 2)
  /-- PEBUP (R209) -/
  | pebup (w : BitVec 1) (d : BitVec 7) (a : BitVec 7) (f : BitVec 2)
  /-- MVLK (R210) -/
  | mvlk (w : BitVec 1) (d : BitVec 7)
  /-- LDLK (R210) -/
  | ldlk (w : BitVec 1) (a : BitVec 7)
  /-- LDB (R124) -/
  | ldb (w : BitVec 1) (d : BitVec 7) (i : BitVec 7) (b : BitVec 4) (c : BitVec 1) (r : BitVec 1) (e : BitVec 1) (n : BitVec 1)
  /-- LDBS (R124) -/
  | ldbs (w : BitVec 1) (d : BitVec 7) (i : BitVec 7) (b : BitVec 4) (c : BitVec 1) (r : BitVec 1) (e : BitVec 1) (n : BitVec 1)
  /-- LDH (R124) -/
  | ldh (w : BitVec 1) (d : BitVec 7) (i : BitVec 7) (b : BitVec 4) (c : BitVec 1) (r : BitVec 1) (e : BitVec 1) (n : BitVec 1)
  /-- LDHS (R124) -/
  | ldhs (w : BitVec 1) (d : BitVec 7) (i : BitVec 7) (b : BitVec 4) (c : BitVec 1) (r : BitVec 1) (e : BitVec 1) (n : BitVec 1)
  /-- LDW (R124) -/
  | ldw (w : BitVec 1) (d : BitVec 7) (i : BitVec 7) (b : BitVec 4) (c : BitVec 1) (r : BitVec 1) (e : BitVec 1) (n : BitVec 1)
  /-- LDD (R124) -/
  | ldd (w : BitVec 1) (d : BitVec 7) (i : BitVec 7) (b : BitVec 4) (c : BitVec 1) (r : BitVec 1) (e : BitVec 1) (n : BitVec 1)
  /-- LDQ (R124) -/
  | ldq (w : BitVec 1) (d : BitVec 7) (i : BitVec 7) (b : BitVec 4) (c : BitVec 1) (r : BitVec 1) (e : BitVec 1) (n : BitVec 1)
  /-- STB (R124) -/
  | stb (w : BitVec 1) (d : BitVec 7) (i : BitVec 7) (b : BitVec 4) (e : BitVec 1) (n : BitVec 1)
  /-- STH (R124) -/
  | sth (w : BitVec 1) (d : BitVec 7) (i : BitVec 7) (b : BitVec 4) (e : BitVec 1) (n : BitVec 1)
  /-- STW (R124) -/
  | stw (w : BitVec 1) (d : BitVec 7) (i : BitVec 7) (b : BitVec 4) (e : BitVec 1) (n : BitVec 1)
  /-- STD (R124) -/
  | std (w : BitVec 1) (d : BitVec 7) (i : BitVec 7) (b : BitVec 4) (e : BitVec 1) (n : BitVec 1)
  /-- STQ (R124) -/
  | stq (w : BitVec 1) (d : BitVec 7) (i : BitVec 7) (b : BitVec 4) (e : BitVec 1) (n : BitVec 1)
  /-- PREF (R292) -/
  | pref (w : BitVec 1) (i : BitVec 7) (b : BitVec 4) (r : BitVec 1) (e : BitVec 1) (n : BitVec 1)
  /-- AADD (R295) -/
  | aadd (w : BitVec 1) (b : BitVec 2) (d : BitVec 7) (i : BitVec 7) (v : BitVec 7)
  /-- AMIN (R295) -/
  | amin (w : BitVec 1) (b : BitVec 2) (d : BitVec 7) (i : BitVec 7) (v : BitVec 7)
  /-- AMAX (R295) -/
  | amax (w : BitVec 1) (b : BitVec 2) (d : BitVec 7) (i : BitVec 7) (v : BitVec 7)
  /-- AMINU (R295) -/
  | aminu (w : BitVec 1) (b : BitVec 2) (d : BitVec 7) (i : BitVec 7) (v : BitVec 7)
  /-- AMAXU (R295) -/
  | amaxu (w : BitVec 1) (b : BitVec 2) (d : BitVec 7) (i : BitVec 7) (v : BitVec 7)
  /-- AAND (R295) -/
  | aand (w : BitVec 1) (b : BitVec 2) (d : BitVec 7) (i : BitVec 7) (v : BitVec 7)
  /-- AOR (R295) -/
  | aor (w : BitVec 1) (b : BitVec 2) (d : BitVec 7) (i : BitVec 7) (v : BitVec 7)
  /-- AXOR (R295) -/
  | axor (w : BitVec 1) (b : BitVec 2) (d : BitVec 7) (i : BitVec 7) (v : BitVec 7)
  /-- AXCHG (R295) -/
  | axchg (w : BitVec 1) (b : BitVec 2) (d : BitVec 7) (i : BitVec 7) (v : BitVec 7)
  /-- ACAS (R295) -/
  | acas (w : BitVec 1) (b : BitVec 2) (d : BitVec 7) (i : BitVec 7) (v : BitVec 7)
  /-- AFADD (R297) -/
  | afadd (w : BitVec 1) (b : BitVec 2) (d : BitVec 7) (i : BitVec 7) (v : BitVec 7)
  /-- AMAXPK (R297) -/
  | amaxpk (w : BitVec 1) (b : BitVec 2) (d : BitVec 7) (i : BitVec 7) (v : BitVec 7)
  /-- AHADD2 (R297) -/
  | ahadd2 (w : BitVec 1) (b : BitVec 2) (d : BitVec 7) (i : BitVec 7) (v : BitVec 7)
  /-- JSET (R212) -/
  | jset (w : BitVec 1) (j : BitVec 3) (s : BitVec 10)
  /-- JSET_ACT (R212) -/
  | jsetAct (w : BitVec 1) (j : BitVec 3)
  /-- JADD (R212) -/
  | jadd (w : BitVec 1) (j : BitVec 3) (s : BitVec 10)
  /-- JADD_ACT (R212) -/
  | jaddAct (w : BitVec 1) (j : BitVec 3)
  /-- JCLR (R212) -/
  | jclr (w : BitVec 1) (j : BitVec 3) (s : BitVec 10)
  /-- JCLR_ACT (R212) -/
  | jclrAct (w : BitVec 1) (j : BitVec 3)
  /-- JOIN (R161) -/
  | join (w : BitVec 1) (j : BitVec 3)
  /-- WAIT (R196) -/
  | wait (w : BitVec 1) (d : BitVec 10) (b : BitVec 7) (c : BitVec 2) (a : BitVec 1)
  /-- BARA (R216) -/
  | bara (w : BitVec 1) (b : BitVec 5) (s : BitVec 10)
  /-- BARW (R216) -/
  | barw (w : BitVec 1) (b : BitVec 5) (s : BitVec 10)
  /-- BARX (R216) -/
  | barx (w : BitVec 1) (b : BitVec 5) (s : BitVec 10)
  /-- TGWA (R218) -/
  | tgwa (w : BitVec 1) (s : BitVec 10)
  /-- TGWL (R218) -/
  | tgwl (w : BitVec 1) (s : BitVec 10)
  /-- TGFF (R218) -/
  | tgff (w : BitVec 1) (d : BitVec 10) (s : BitVec 10)
  /-- TGCLR (R218) -/
  | tgclr (w : BitVec 1) (s : BitVec 10)
  /-- RBACQ (R220) -/
  | rbacq (w : BitVec 1) (n : BitVec 3)
  /-- RBREL (R221) -/
  | rbrel (w : BitVec 1)
  /-- CVJOIN (R303) -/
  | cvjoin (w : BitVec 1) (s : BitVec 10)
  /-- CVLEAVE (R304) -/
  | cvleave (w : BitVec 1)
  /-- CVGET (R305) -/
  | cvget (w : BitVec 1) (d : BitVec 10)
  /-- FENCE (R301) -/
  | fence (w : BitVec 1) (p : BitVec 4) (k : BitVec 2)
  /-- EXIT (R223) -/
  | exit (w : BitVec 1)
  /-- YIELD (R222) -/
  | yield (w : BitVec 1)
  /-- JRI (R115) -/
  | jri (w : BitVec 1) (s : BitVec 10)
  /-- CPY (R372) -/
  | cpy (w : BitVec 1) (a : BitVec 10)
  /-- CPYG (R372) -/
  | cpyg (w : BitVec 1) (a : BitVec 10)
  /-- CPYS (R372) -/
  | cpys (w : BitVec 1) (a : BitVec 10)
  /-- CPYF (R372) -/
  | cpyf (w : BitVec 1) (a : BitVec 10)
  /-- ORSV (R374) -/
  | orsv (w : BitVec 1) (a : BitVec 10) (o : BitVec 3)
  /-- OREL (R375) -/
  | orel (w : BitVec 1) (o : BitVec 3)
  /-- QCLAIM (R377) -/
  | qclaim (w : BitVec 1) (a : BitVec 10) (d : BitVec 10)
  /-- QPUB (R377) -/
  | qpub (w : BitVec 1) (a : BitVec 10)
  /-- QTAKE (R377) -/
  | qtake (w : BitVec 1) (a : BitVec 10) (d : BitVec 10)
  /-- QDONE (R377) -/
  | qdone (w : BitVec 1) (a : BitVec 10)
  /-- QSTAT (R377) -/
  | qstat (w : BitVec 1) (a : BitVec 10) (d : BitVec 10)
  /-- DRO_OPEN (R487) -/
  | droOpen (w : BitVec 1) (a : BitVec 10)
  /-- DRO_OPEN_STATUS (R487) -/
  | droOpenStatus (w : BitVec 1) (a : BitVec 10) (d : BitVec 10)
  /-- DRO_SEND (R489) -/
  | droSend (w : BitVec 1) (a : BitVec 10)
  /-- DRO_SEND_STATUS (R489) -/
  | droSendStatus (w : BitVec 1) (a : BitVec 10) (d : BitVec 10)
  /-- DRO_CLOSE (R490) -/
  | droClose (w : BitVec 1) (a : BitVec 10)
  /-- DRO_CLOSE_STATUS (R490) -/
  | droCloseStatus (w : BitVec 1) (a : BitVec 10) (d : BitVec 10)
  /-- DRO_MFST (R491) -/
  | droMfst (w : BitVec 1) (a : BitVec 10) (d : BitVec 10)
  /-- DRO_CORR (R492) -/
  | droCorr (w : BitVec 1) (a : BitVec 10)
  /-- ASY_OPEN (R493) -/
  | asyOpen (w : BitVec 1) (a : BitVec 10)
  /-- ASY_OPEN_STATUS (R493) -/
  | asyOpenStatus (w : BitVec 1) (a : BitVec 10) (d : BitVec 10)
  /-- ASY_PUT (R494) -/
  | asyPut (w : BitVec 1) (a : BitVec 10)
  /-- ASY_PUT_STATUS (R494) -/
  | asyPutStatus (w : BitVec 1) (a : BitVec 10) (d : BitVec 10)
  /-- ASY_SEAL (R494) -/
  | asySeal (w : BitVec 1) (a : BitVec 10)
  /-- ASY_SEAL_STATUS (R494) -/
  | asySealStatus (w : BitVec 1) (a : BitVec 10) (d : BitVec 10)
  /-- ASY_STAT (R495) -/
  | asyStat (w : BitVec 1) (a : BitVec 10) (d : BitVec 10)
  /-- MLD (R350) -/
  | mld (o : BitVec 3) (h : BitVec 2) (m : BitVec 5)
  /-- MMUL (R351) -/
  | mmul (a : BitVec 3) (o : BitVec 3) (m : BitVec 5) (v : BitVec 1)
  /-- MMULSM (R354) -/
  | mmulsm (a : BitVec 3) (o : BitVec 3) (m : BitVec 5) (v : BitVec 1)
  /-- MCLR (R364) -/
  | mclr (a : BitVec 3)
  /-- MBMAP (R365) -/
  | mbmap (o : BitVec 3) (e : BitVec 1)
  /-- MGRP (R355) -/
  | mgrp (a : BitVec 3) (o : BitVec 3) (m : BitVec 5)
  /-- MRET (R356) -/
  | mret (a : BitVec 3) (t : BitVec 2) (p : BitVec 2) (m : BitVec 5) (b : BitVec 4)
  /-- MRET_COLL (R357) -/
  | mretColl (a : BitVec 3) (t : BitVec 2) (p : BitVec 2) (m : BitVec 5)
  /-- MARV (R346) -/
  | marv (b : BitVec 5)
  /-- MWAIT (R346) -/
  | mwait (b : BitVec 5)
  /-- MSET (R370) -/
  | mset (m : BitVec 5) (i : BitVec 16)
  /-- MADD (R370) -/
  | madd (m : BitVec 5) (i : BitVec 16)
  /-- MBNZ (R370) -/
  | mbnz (m : BitVec 5) (o : BitVec 16)
  /-- MTAG (R347) -/
  | mtag (t : BitVec 6)
  /-- MEND (R370) -/
  | mend 
  /-- TRAP (R424) -/
  | trap (w : BitVec 1) (n : BitVec 16)
  /-- TRET (R427) -/
  | tret (w : BitVec 1)
  /-- TREP (R426) -/
  | trep (w : BitVec 1) (d : BitVec 7) (a : BitVec 7)
  /-- TMASK (R425) -/
  | tmask (w : BitVec 1) (d : BitVec 10)
  /-- TCAUSE (R425) -/
  | tcause (w : BitVec 1) (d : BitVec 10)
  /-- SEGSET (R428) -/
  | segset (w : BitVec 1) (p : BitVec 3) (s : BitVec 10)
  /-- SEGGET (R428) -/
  | segget (w : BitVec 1) (p : BitVec 3) (s : BitVec 10)
  /-- ICINV (R429) -/
  | icinv (w : BitVec 1)
  /-- ISYNC (R429) -/
  | isync (w : BitVec 1)
  /-- TLBINV (R430) -/
  | tlbinv (w : BitVec 1) (s : BitVec 10)
  /-- PCTR (R432) -/
  | pctr (w : BitVec 1) (d : BitVec 10) (n : BitVec 10)
  /-- CLOCK (R433) -/
  | clock (w : BitVec 1) (d : BitVec 10)
  /-- CYCLES (R433) -/
  | cycles (w : BitVec 1) (d : BitVec 10)
  /-- BRK (R424) -/
  | brk (w : BitVec 1) (n : BitVec 16)
  /-- CTXSW (R431) -/
  | ctxsw (w : BitVec 1) (s : BitVec 10)
  /-- IMM (R29) -/
  | imm (w : BitVec 1) (i : BitVec 24)
  /-- IMMHI (R29) -/
  | immhi (w : BitVec 1) (h : BitVec 8)
  /-- MOD (R73) -/
  | modh (w : BitVec 1) (l : BitVec 1) (c : BitVec 1) (f : BitVec 7) (p : BitVec 3) (r : BitVec 2) (y : BitVec 1) (o : BitVec 2) (s : BitVec 4)
  /-- SAFE (R417) -/
  | safe (w : BitVec 1) (j : BitVec 1) (p : BitVec 1) (n : BitVec 10) (v : BitVec 7)
  /-- NOP (R59) -/
  | nop (w : BitVec 1)
  /-- RESULT_WRITEBACK (R26): A variable-latency result returns, is written all or nothing and sets its TSR flags. -/
  | resultWriteback (g id : Nat)
  /-- HANDLER_ENTRY (R389): A parked sub-group enters the registered handler after its frame is saved. -/
  | handlerEntry (g : Nat)
  /-- WAIT_CONDITION_MET (R196): At an evaluation instant the wait conditions hold and the path is released with the satisfied mask. -/
  | waitConditionMet (g id : Nat)
  /-- WAIT_TIMEOUT (R196): A wait's time-out tick passes without its conditions; s[sd] := 0 and the path is released. -/
  | waitTimeout (g id : Nat)
  /-- WAIT_POLL (R196): A kind 2 condition's word is read again at least every 256 ticks. -/
  | waitPoll (g id k : Nat)
  /-- BARRIER_WAIT_RELEASE (R216): A barw or barx path is released with acquire after the phase it awaits. -/
  | barrierWaitRelease (g id : Nat)
  /-- TAG_WAIT_RELEASE (R219): A tgwa or tgwl path returns as an acquire, or traps on a TERR tag. -/
  | tagWaitRelease (g id : Nat)
  /-- REGISTER_BLOCK_GRANT (R168): A waiting rbacq is served in FIFO order when blocks are free. -/
  | registerBlockGrant (c p : Nat)
  /-- CVJOIN_REQUEST (R262): The marshal handles a join: creates the convoy, admits the member or refuses. -/
  | cvjoinRequest (g : Nat)
  /-- CVJOIN_ANSWER (R303): The marshal's answer reaches the group, writes CVM and unblocks the path. -/
  | cvjoinAnswer (g : Nat)
  /-- CONVOY_STEP_REPORT (R264): A member's step reaches the marshal, which recomputes min. -/
  | convoyStepReport (g : Nat)
  /-- CONVOY_HOLD_REPORT (R265): A hold report reaches the marshal, arming the straggler timer if disarmed. -/
  | convoyHoldReport (g : Nat)
  /-- CONVOY_MIN_UPDATE (R264): A new min reaches a member, releasing it if no longer held. -/
  | convoyMinUpdate (g : Nat)
  /-- STRAGGLER_TIMER_EXPIRY (R266): The straggler timer expires; the convoy closes or its slowest member is detached. -/
  | stragglerTimerExpiry (cv : Nat)
  /-- CONVOY_LEAVE_REPORT (R304): A leave, exit or pre-emption detach reaches the marshal, which recomputes min. -/
  | convoyLeaveReport (g : Nat)
  /-- SPOUT_REQUEST_ARRIVAL (R250): A request arrives at its home Spout unit and passes, joins or allocates an entry. -/
  | spoutRequestArrival (r : Nat)
  /-- GRANT (R276): The home die serves a fill, checks integrity, fixes expiries and raises the horizon. -/
  | grant (ch : Nat)
  /-- SPOUT_REPLY_MULTICAST (R254): A memory reply reaches the Spout unit and is copied to every requester of the entry. -/
  | spoutReplyMulticast (e : Nat)
  /-- L1_FILL_ARRIVAL (R242): A fill reaches the L1 sector, merging under DM and setting V and EXP. -/
  | l1FillArrival (f : Nat)
  /-- FLUSH (R274): The core writes back a sector's dirty bytes toward the home die. -/
  | flush (c line k : Nat)
  /-- WRITE_ARRIVAL (R277): A write-back or N-flag store arrives, is written and gets completion time c. -/
  | writeArrival (ch : Nat)
  /-- WRITE_COMPLETION_RETURN (R277): A completion time returns to the writing core, raising HZC. -/
  | writeCompletionReturn (r : Nat)
  /-- ATOM (R282): The home atomic unit or bank performs an atomic step on the memory value. -/
  | atom (ch : Nat)
  /-- FENCE_ACTIONS_END (R279): A release's waits end once now reaches HZC and completions have returned. -/
  | fenceActionsEnd (g id : Nat)
  /-- PEER_ACCESS_ARRIVAL (R443): A peer access reaches its target device and is translated and performed there. -/
  | peerAccessArrival (n : Nat)
  /-- COPY_CHUNK_RETIRE (R315): A copy chunk's writes are performed and their completion times have returned. -/
  | copyChunkRetire (c id : Nat)
  /-- QUEUE_COMMAND_SERVE (R323): The queue unit serves an arriving queue command as one test-and-update step. -/
  | queueCommandServe (d : Nat)
  /-- SEQUENCER_WAIT_RELEASE (R346): A blocked mwait or mtag is satisfied and the sequencer resumes. -/
  | sequencerWaitRelease (t : Nat)
  /-- SQ_DOORBELL_WRITE (R448): The host writes SQT; an out-of-range value sets SQERR and stops the queue. -/
  | sqDoorbellWrite (ep vf q v : Nat)
  /-- LAUNCH_ACCEPT (R176): The device reads the next submission record and accepts or rejects the launch. -/
  | launchAccept 
  /-- TEAM_PLACEMENT (R184): The distributor places the next team or cluster, or requests pre-emption. -/
  | teamPlacement 
  /-- BACKFILL_TIMEOUT (R184): A launch's next team stays unplaced for 1,000,000 ticks and backfill past it stops. -/
  | backfillTimeout (l : Nat)
  /-- LAUNCH_DEADLINE (R180): A Running launch reaches its deadline tick and its late bit is set. -/
  | launchDeadline (l : Nat)
  /-- PREEMPTION_REQUEST (R419): A team is asked to stop its paths at safe points for saving. -/
  | preemptionRequest (t : Nat)
  /-- PREEMPTION_TIMEOUT (R397): The pre-emption time-out expires and threads not at safe points are parked with class 8. -/
  | preemptionTimeout (t : Nat)
  /-- CONTEXT_SAVE (R420): A stopped team is released, detached and written to its save area. -/
  | contextSave (t : Nat)
  /-- TEAM_RESTORE (R422): A saved team is restored onto a fitting core and resumes. -/
  | teamRestore (t : Nat)
  /-- COMPLETION_RECORD_WRITE (R449): A completion record is written to the ring when room allows and CQP advances. -/
  | completionRecordWrite (vf : Nat)
  /-- FAULT_RECORD_WRITE (R413): A held fault or trap record is written to the function's fault ring when room allows. -/
  | faultRecordWrite (vf : Nat)
  /-- FAULT_RESPONSE_WRITE (R414): The host answers a fault record with retry, kill or fail. -/
  | faultResponseWrite (ep vf v : Nat)
  /-- HOST_SHOOTDOWN (R409): The host issues a shootdown command for a function and range. -/
  | hostShootdown (ep vf page n : Nat)
  /-- SHOOTDOWN_COMPLETE (R409): A shootdown finishes once caches, accesses and L1 write-backs of the range are done. -/
  | shootdownComplete (n : Nat)
  /-- FUNCTION_ENABLE (R446): A function register write sets EN and fresh keys are generated for its slot. -/
  | functionEnable (ep vf v : Nat)
  /-- FUNCTION_DISABLE (R446): A write clears EN, failing the function's launches and destroying its keys. -/
  | functionDisable (ep vf v : Nat)
  /-- QUEUE_CONFIG_WRITE (R446): The host writes a disabled queue's record or QOWN byte, clearing EPUB and EDONE. -/
  | queueConfigWrite (ep q v own : Nat)
  /-- STAGING_AREA_SIZE_WRITE (R469): An owner sets a die's Assayer staging size ASZ while no object is open. -/
  | stagingAreaSizeWrite (ep d v : Nat)
  /-- POWER_LIMIT_WRITE (R507): The host lowers the module power limit through Neard. -/
  | powerLimitWrite (ep v : Nat)
  /-- ATTESTATION_REQUEST (R505): An owner requests a signed attestation report with a nonce. -/
  | attestationRequest (ep v : Nat)
  /-- CONFIG_REGISTER_WRITE (R445): An owner endpoint writes a configuration-window register with no behaviour of its own. -/
  | configRegisterWrite (ep vf r v : Nat)
  /-- MODULE_REPLACEMENT (R509): The host retires a module's functions and ports for replacement. -/
  | moduleReplacement (ep : Nat)
  /-- DEVICE_RESET (R501): Power-on or reset runs Neard's measured, signature-checked boot. -/
  | deviceReset 
  /-- RECOVERY_IMAGE_LOAD (R502): A new firmware image arrives in recovery and is verified before replacing the stored one. -/
  | recoveryImageLoad (img sigs ver floor ep hz : Nat)
  /-- SUPPLY_SAG (R506): A die's supply sags and it stretches its core clock. -/
  | supplySag (d v : Nat)
  /-- SUPPLY_RECOVERY (R506): A die's supply recovers and its clock returns toward 1.9 GHz in steps. -/
  | supplyRecovery (d v : Nat)
  /-- MODULE_POWER_EXCESS (R507): Module sensors report a sustained excess and all dies are stretched. -/
  | modulePowerExcess (v : Nat)
  /-- ARRAY_ECC_ERROR (R401): An on-chip array detects a soft error and corrects, refetches, traps or loses the team. -/
  | arrayEccError (c k a b : Nat)
  /-- CORE_RETIREMENT (R403): A core fails its self-check and is retired, its teams reported lost. -/
  | coreRetirement (c : Nat)
  /-- HBM_ROW_REMAP (R508): A row reaching 16 corrections is remapped to a spare row. -/
  | hbmRowRemap (d r : Nat)
  /-- HBM_CHANNEL_SPARING (R508): An uncorrectable channel fault spares the channel and replays its journal. -/
  | hbmChannelSparing (st ch : Nat)
  /-- LINK_LANE_FAILURE (R440): A Smieg lane fails and the spare takes its place, or the port halves. -/
  | linkLaneFailure (p : Nat)
  /-- FLIT_CRC_ERROR (R440): A flit fails its CRC and is resent from the retry buffer. -/
  | flitCrcError (p : Nat)
  /-- PLANE_OUT_OF_SERVICE (R441): A switch plane leaves service and unacknowledged flits are resent on others. -/
  | planeOutOfService (p : Nat)
  /-- DRO_CHUNK_ARRIVAL (R455): A contribution chunk reaches its collective object and is accepted or discarded. -/
  | droChunkArrival (n : Nat)
  /-- DRO_PARTIAL_ARRIVAL (R460): A child's partial reaches a node on time and may complete its forward. -/
  | droPartialArrival (n : Nat)
  /-- DRO_NODE_DEADLINE (R460): A node's deadline passes and it forwards what has arrived with its manifest. -/
  | droNodeDeadline (o p : Nat)
  /-- DRO_RESULT_ARRIVAL (R461): A broadcast result or root notice reaches a rank, which writes and sets DONE. -/
  | droResultArrival (n : Nat)
  /-- DRO_CORRECTION_ARRIVAL (R462): A correction packet reaches the root, is applied and logged, or discarded. -/
  | droCorrectionArrival (n : Nat)
  /-- DRO_CORRECTION_WINDOW_CLOSE (R463): At DL + CTO the root judges its manifest and sends its verdict. -/
  | droCorrectionWindowClose (o p : Nat)
  /-- DRO_VERDICT_ARRIVAL (R463): A root verdict reaches a rank and sets CTMO if incomplete. -/
  | droVerdictArrival (n : Nat)
  /-- DRO_CORR_TIMEOUT (R492): A dro.corr command's TCT passes and it completes. -/
  | droCorrTimeout (o n : Nat)
  /-- LINK_RATE_EXCHANGE (R457): Every 65,536 ticks each Drover sends its measured link rates to the island. -/
  | linkRateExchange (d : Nat)
  /-- ASY_BEGIN_MARKER (R471): A begin marker reaches an assay slot and starts staging. -/
  | asyBeginMarker (n : Nat)
  /-- ASY_DATA_PACKET (R471): A data packet reaches an assay slot and its values are staged. -/
  | asyDataPacket (n : Nat)
  /-- ASY_END_MARKER (R473): An end marker reaches a slot, which is checked, measured and sealed or rejected. -/
  | asyEndMarker (n : Nat)
  /-- ASY_DEADLINE (R477): At DL the Assayer sets DUE, commits sealed slots and writes the total. -/
  | asyDeadline (d o : Nat)
  /-- ASY_CORRECTION_WINDOW_CLOSE (R478): At DL + CTO staging slots are rejected and CTMO set if AMF is incomplete. -/
  | asyCorrectionWindowClose (d o : Nat)
  /-- RESERVED_ENCODING (R58): A thread or the sequencer meets a word that decodes to no instruction, such as hint kind 5 to 7, a reserved class function or a matrix word with bit 31 set, and raises the illegal-instruction trap or the matrix-stream fault. -/
  | reservedEncoding (v : Nat)
  /-- FETCH_BOUNDS (R21): A fetch at or beyond the code segment limit, or beyond the matrix stream, raises the illegal-instruction trap or the matrix-stream fault with the fetch-bounds detail. -/
  | fetchBounds 
  /-- CODE_FETCH_FAULT (R21): A code or matrix-stream fetch fails translation and parks the thread or sequencer, or fails its integrity check and raises class 6 or 7. -/
  | codeFetchFault 
  /-- HOST_MEMORY_ACCESS (R511): An owner host endpoint reads or writes device memory under a function's key slot it names, writing whole sectors that then pass their checks. -/
  | hostMemoryAccess (ep vf w sec v : Nat)
  /-- PART_FAILURE (R402): A Spout unit, or the copy engine, Drover or Assayer running a command, fails or is spared, and its work in flight is replayed from entries or from the last completed chunk. -/
  | partFailure (n : Nat)
  deriving DecidableEq, Repr

end Sys2Proof
end

