-- ==== Sys2Proof/Machine/Types.lean ====
section
/-! DEFINITION. The parts that the machine's state is built from: threads and groups (R13, R154), caches, the requests in
flight and the Spout (R237 to R259), convoys (R260 to R270), the copy engine and hardware queues (R311 to R326), the matrix
unit (R339 to R358), launches and teams (R174 to R190), virtual functions (R445 to R449), the Drover and the Assayer
(R450 to R481). All of it is plain data. -/

namespace Sys2Proof.Machine

/-! ## Threads and groups -/

/-- The state of a thread (R156). `stopped` is a Ready thread that pre-emption has stopped at a safe hint (R417, R419);
`tretWait` is a thread that has executed `tret` and waits for the rest of its handler path (R427); `debug` is a thread that
a `brk` stopped for a debugger (R424). -/
inductive TStat where
  | ready
  | join (n : Nat) (pc : Word)
  | trapped
  | faulted
  | blocked (id : Nat)
  | exited
  | stopped
  | tretWait
  | debug
  deriving DecidableEq, Repr

/-- The recorded hints of a thread, one slot for each kind that has one: the address of the hint word and its payload
(R28, R29). -/
structure Hints where
  imm   : Option (Word × BitVec 24)
  immhi : Option (Word × BitVec 24)
  modh  : Option (Word × BitVec 24)
  nop   : Option (Word × BitVec 24)
  deriving DecidableEq, Repr

/-- No hint recorded (R28). -/
def Hints.clear : Hints := ⟨none, none, none, none⟩

/-- One thread (R13): v0–v127, p0–p7, LK, PC, TSR, its state, its recorded hints, whether it belongs to the group's handler path (R388),
and the address of a C load that has taken its convoy step and that the thread will issue again (R263). -/
structure Thread where
  v     : SMap Word
  p     : BitVec 8
  lk    : Word
  pc    : Word
  tsr   : Word
  st    : TStat
  hints : Hints
  hnd   : Bool
  cstep : Option Word
  deriving DecidableEq, Repr

/-- A thread that has not started: every register zero (R19). -/
def Thread.init : Thread := ⟨[], 0, 0, 0, 0, .exited, Hints.clear, false, none⟩

/-- The destination of a result: thread registers from v(b), or uniform registers from s(b), `n` of them. -/
inductive Dst where
  | v (b n : Nat)
  | s (b n : Nat)
  deriving DecidableEq, Repr

/-- What a result gives one lane: the words, the TSR flags that the write sets, and whether a read failed its integrity
check, which leaves the destination as it was (R33). -/
structure LaneVal where
  lane  : Nat
  words : List Word
  flags : Word
  err   : Bool
  deriving DecidableEq, Repr

/-- A variable-latency instruction that has issued and whose result is not written (R20, R24). `ctr` is the counter that a
`pctr` samples when its result is written (R432). -/
structure Pend where
  id   : Nat
  mask : Word
  pc   : Word
  dst  : Dst
  vals : Option (List LaneVal)
  ctr  : Option Nat
  deriving DecidableEq, Repr

/-- The interval of R25, from the issue of a variable-latency instruction to the first later instruction with W = 1: the
threads it still runs for, the destination, the values the registers had, whether the result has been written, and the
registers another instruction has written meanwhile (lane × 1,024 + register). -/
structure Window where
  id      : Nat
  mask    : Word
  dst     : Dst
  old     : List LaneVal
  written : Bool
  hit     : List Nat
  deriving DecidableEq, Repr

/-- A result error that waits for the thread's next wait (R33, R400). -/
structure LateErr where
  mask   : Word
  fpc    : Word
  detail : Nat
  deriving DecidableEq, Repr

/-- A trap that waits in its group's queue (R388): its lanes, the parked PC, the failing instruction's address FPC, the
skip PC of R391, the cause word of R393, and whether it is a matrix-stream fault, which has no lanes (R396). -/
structure TrapEntry where
  mask  : Word
  pc    : Word
  fpc   : Word
  skip  : Word
  cause : Word
  seq   : Bool
  deriving DecidableEq, Repr

/-- The part of a trap frame that is kept for one lane: v0–v7, p0–p7, LK, TSR and the parked PC (R389). -/
structure LaneFrame where
  lane : Nat
  v    : List Word
  p    : BitVec 8
  lk   : Word
  tsr  : Word
  pc   : Word
  deriving DecidableEq, Repr

/-- The handler path of a group (R388 to R391): the trap it serves, the frame, the replacement records of `trep`, and, for a
matrix-stream fault, the program counter and the hints of a path that has no lanes (R396). `code` is the handler segment;
`halt` tells that such a path is stopped for pre-emption (R390). -/
structure Handler where
  trap  : TrapEntry
  lanes : List LaneFrame
  s     : List Word
  q     : BitVec 8
  b14   : QWord
  b15   : QWord
  repl  : SMap (Nat × Word)
  code  : QWord
  pc    : Word
  hints : Hints
  ready : Bool
  halt  : Bool
  deriving DecidableEq, Repr

/-- Where one byte of an access lies: global (virtual and physical address), an array byte of a core's scratchpad or operand
buffer, or an offset of the peer window (R231, R236). -/
inductive Loc where
  | glob (va pa : Nat)
  | spad (core a : Nat)
  | obuf (core a : Nat)
  | peer (off : Nat)
  deriving DecidableEq, Repr

/-- The reading of a kind 2 word (R195, R196): which series of readings counts, the tick of the last one, the physical sectors that it read,
the bytes that have come, for each sector (by its number in its page) the place in time of what has come, whether one failed its check, and
the class and budget of its record (R256). -/
structure Poll where
  ser  : Nat
  sent : Nat
  secs : List Nat
  got  : SMap Byte
  vers : SMap Nat
  bad  : Bool
  cls  : Nat
  budget : Nat
  deriving DecidableEq, Repr

/-- A word that has not been read. -/
def Poll.init (cls budget : Nat) : Poll := ⟨0, 0, [], [], [], false, cls, budget⟩

/-- One condition of a `wait` as it was read at issue (R194, R214): tags (any of the mask, or all), a barrier's phase, a memory
word (its places, or none when its index is out of bounds; a global place by its virtual address alone) with its comparison and comparand
and the state of its reading, the group's own convoy, a convoy id, or an engine object's event mask. -/
inductive WCond where
  | tags (any : Bool) (m : DWord)
  | bar (b : Nat) (ph : Bool)
  | mem (locs : Option (List Loc)) (cond : Nat) (cmp : Word) (p : Poll)
  | cvSelf
  | cvId (id : Nat)
  | event (asy : Bool) (die obj : Nat) (m : Word)
  deriving DecidableEq, Repr

/-- What a blocked path waits for (R156). `wait` holds its copies of the conditions (R214), whether all must hold, the time-out
and its tick; `fence` the end of the actions of a release or acquire, `peer` the answers of a peer access (log 9), each with the lanes of a
store that are out of bounds, which are flagged when it has its effect (R31, R123). -/
inductive Cond where
  | wait (sd : Nat) (cs : List WCond) (all_ : Bool) (t tEnd : Nat)
  | barw (bar : Nat) (ph : Bool)
  | barx (bar : Nat)
  | tag (m : DWord) (all_ : Bool)
  | rbacq (n : Nat)
  | cvjoin
  | tlbinv (id : Nat)
  | fence (acc : Nat) (oob : Word)
  | peer (acc : Nat) (oob : Word)
  deriving DecidableEq, Repr

/-- A blocked path: an identifier, its threads, the addresses of its instruction and of the first hint of that, what it waits for, the word
that a satisfied wait will return once an evaluation instant has found it satisfied, with the tick of that instant and the completion time
of what it then observed (R284), and whether that was a tag with TERR set (R320). `hseq` marks the lane-less handler path of a matrix-stream fault. -/
structure Block where
  id   : Nat
  mask : Word
  pc   : Word
  first : Word
  cond : Cond
  met  : Option Word
  at_  : Nat
  comp : Nat
  terr : Bool
  hseq : Bool
  deriving DecidableEq, Repr

/-- One lane's part of an access: the places of its bytes (none when it is out of bounds), its data (stored bytes, or the operands of an
atomic), the bytes read, or stored, so far, whether it is performed and its failure, whether its address is no multiple of the width, so that
its bytes go one by one (R127), whether its atomic has been sent, and the peer offset, cause and level of each translation fault at a peer
target (R444). -/
structure LaneAcc where
  lane : Nat
  locs : List Loc
  data : List Byte
  cmp  : List Byte
  got  : SMap Byte
  oob  : Bool
  err  : Bool
  done : Bool
  tear : Bool
  sent : Bool
  flt  : List (Nat × Nat × Nat)
  deriving DecidableEq, Repr

/-- A chunk of a copy command in flight (R315): the transaction that reads for it and writes it, its elements, and the rows whose list
entries it needs. -/
structure CopyChunk where
  txn  : Nat
  run  : List Nat
  deriving DecidableEq, Repr

/-- A copy command as the engine holds it (R311 to R315, R371): the command, its records and segments, its indices, the index entries read
so far (none for one that gives no index) with the transaction that reads the next ones, the next element whose chunk has not started,
the chunks in flight, the element before which every chunk has retired, and the flags of R313. -/
structure CopyCmd where
  id     : Nat
  kind   : Nat
  guid   : Nat
  mask   : Word
  tuid   : Nat
  vf     : Nat
  tag    : Nat
  cls    : Nat
  budget : Nat
  esz    : Nat
  srec   : QWord
  drec   : QWord
  xrec   : QWord
  segs   : SMap QWord
  sidx   : Int
  didx   : Int
  rowlen : Nat
  cnt    : Nat
  ents   : SMap (Option Int)
  etxn   : Option (Nat × Nat)
  pos    : Nat
  chunks : List CopyChunk
  done   : Nat
  oob    : Bool
  err    : Bool
  comp   : Nat
  fid    : Option Nat
  deriving DecidableEq, Repr

/-- A queue command (R323, R376): its kind is the EN function 06 to 0A. -/
structure QCmd where
  kind : Nat
  die  : Nat
  core : Nat
  part : Nat
  guid : Nat
  vf   : Nat
  q    : Nat
  n    : Nat
  k    : Nat
  pend : Option Nat
  deriving DecidableEq, Repr

/-- A Drover or Assayer command on its way (R482): its EN function, the descriptor words, the buffer record that it names and the
segment of global space, and the pending result, if f = 1. `pos` is how far it has come, `out` the chunks or packets that have no
answer yet, `code` the lowest status code that applies (R485), `tick` that of its issue, `txn` the read that it waits for. -/
structure XCmd where
  id   : Nat
  func : Nat
  guid : Nat
  mask : Word
  tuid : Nat
  launch : Nat
  vf   : Nat
  core : Nat
  desc : List Word
  brec : QWord
  seg  : QWord
  pend : Option Nat
  pos  : Nat
  out  : Nat
  code : Nat
  oob  : Bool
  tick : Nat
  txn  : Option Nat
  fid  : Option Nat
  deriving DecidableEq, Repr

/-- An engine command in a group's access order (R275). -/
inductive EngCmd where
  | copy (c : CopyCmd)
  | queue (c : QCmd)
  | x (c : XCmd)
  deriving DecidableEq, Repr

/-- The kinds of entry of a group's access order: the accesses, the release and acquire actions of fences and of annotated
accesses (R279, R280), and engine commands. -/
inductive AccKind where
  | load
  | store
  | atomic (op : Nat) (wide : Bool)
  | release (scope : Nat)
  | acquire (scope : Nat)
  | cmd (c : EngCmd)
  deriving DecidableEq, Repr

/-- One entry of a group's access order (R275, R288). `acq` is the scope of an acquire access, 0 for none. `wait` counts the
requests whose answers are due; `comp` is the largest completion time returned; `evict` and `noAlloc` are the flags E and N, `cload` marks a
C load whose convoy step depends on its answer (R263). -/
structure Acc where
  id     : Nat
  mask   : Word
  kind   : AccKind
  lanes  : List LaneAcc
  width  : Nat
  sext   : Bool
  pend   : Option Nat
  acq    : Nat
  cls    : Nat
  budget : Nat
  lease  : Nat
  evict  : Bool
  noAlloc : Bool
  cload  : Bool
  uniform : Bool
  begun  : Bool
  wait   : Nat
  perf   : Bool
  comp   : Nat
  pc     : Word
  deriving DecidableEq, Repr

/-- The state of CVM (R270). -/
structure Cvm where
  rcode : Nat
  rej   : Bool
  held  : Bool
  cause : Nat
  state : Nat
  pos   : Nat
  id    : Nat
  index : Nat
  deriving DecidableEq, Repr

/-- CVM as it is at group start: every field 0 (R270). -/
def Cvm.init : Cvm := ⟨0, false, false, 0, 0, 0, 0, 0⟩

/-- A sector of an instruction-cache line (R429): its function and ASID, its virtual sector number, and its bytes. -/
structure IcLine where
  vf   : Nat
  asid : Nat
  vsec : Nat
  data : BitVec 512
  deriving DecidableEq, Repr

/-- One group (R154, R156 to R164). It is kept under an identifier that is never used again. `core`, `part` and `slot` are its
place; `team` and `idx` its team and index; `cur` and `run` the PC of the current path of R158 and the instructions it has
issued in a row; `pre` the words it had fetched, by address, when an `icinv` took effect (R429); `minp` the local copy of min of R264;
`cvAt` the tick of its detach (R267); `svHeld` HELD as it stood at its save (R305);
`joinDesc` the descriptor of an outstanding `cvjoin`;
`rbReq` an outstanding `rbacq`; `skip` the cycle that `yield` gives up (R222); `live` the largest live set of its stopped paths
(R417); `comp` and `peerC` the largest completion times returned to it for its N-flag stores and atomics, and for its peer
accesses, and `acks` the acknowledgements of peer stores and atomics that are due (R279). -/
structure Group where
  core  : Nat
  part  : Nat
  slot  : Nat
  team  : Nat
  idx   : Nat
  vf    : Nat
  lanes : SMap Thread
  s     : SMap Word
  q     : BitVec 8
  j     : SMap Word
  arr   : SMap Word
  b     : SMap QWord
  seg   : SMap QWord
  cvm   : Cvm
  cvAt  : Nat
  svHeld : Bool
  minp  : Nat
  joinDesc : Option (List Word)
  ext   : Nat
  rbReq : Bool
  cur   : Option Word
  run   : Nat
  skip  : Bool
  pend  : List Pend
  wins  : List Window
  errs  : List LateErr
  werr  : Bool
  acc   : List Acc
  blk   : List Block
  trapQ : List TrapEntry
  hnd   : Option Handler
  live  : Option (Nat × Nat × Bool × Bool)
  ended : Bool
  comp  : Nat
  peerC : Nat
  acks  : Nat
  pre   : SMap Word
  deriving DecidableEq, Repr

/-- What a trap record says of a group that has ended and left its place (R400, R412): its function, its launch's LID, its core, partition
and slot. -/
structure Past where
  vf   : Nat
  lid  : Nat
  core : Nat
  part : Nat
  slot : Nat
  deriving DecidableEq, Repr

/-! ## A core's memories -/

/-- One sector of an L1 line (R239): its dirty mask, whether fill data is present, the expiry, the bytes, and the group set. -/
structure Sector where
  dm   : DWord
  v    : Bool
  exp  : Nat
  data : BitVec 512
  gset : List Nat
  deriving DecidableEq, Repr

/-- A sector that holds nothing. -/
def Sector.init : Sector := ⟨0, false, 0, 0, []⟩

/-- One L1 line (R238): the function and ASID of its tag, its virtual and physical line number (address ÷ 256), its four
sectors and its evict-first mark (R243). -/
structure Line where
  vf    : Nat
  asid  : Nat
  vline : Nat
  pline : Nat
  secs  : SMap Sector
  first : Bool
  deriving DecidableEq, Repr

/-- An outstanding fill of a sector (R240, R242): the sector's tag and address, whether it is superseded, whether it is an
N-flag load's, which allocates nothing (R243), the bytes that the core has written back since it was sent, which are newer than its data
(R128), and the accesses that wait on it. -/
structure Fill where
  id     : Nat
  vf     : Nat
  asid   : Nat
  vsec   : Nat
  psec   : Nat
  sup    : Bool
  noAlloc : Bool
  keep   : DWord
  part   : Nat
  waiters : List (Nat × Nat)
  deriving DecidableEq, Repr

/-- A cached translation: the function, the level, the address bits that the entry covers, and the entry (R408). -/
structure TlbEntry where
  vf  : Nat
  lev : Nat
  tag : Nat
  ent : Nat
  deriving DecidableEq, Repr

/-- The loop buffer of a partition (R512): the function whose code it holds, the range of code addresses, the words captured so far, and
the groups that take no more words from it, since they have fetched outside its range after an `icinv`. -/
structure LoopBuf where
  vf : Nat
  asid : Nat
  lo : Nat
  hi : Nat
  ws : SMap Word
  inv : Bool
  gone : List Nat
  deriving DecidableEq, Repr

/-- One partition of a core (R167, R192, R512): the slot that issued last, the free extended blocks, the `rbacq` requests in
FIFO order, and the loop buffer. -/
structure Part where
  last : Option Nat
  pool : Nat
  rbq  : List (Nat × Nat)
  loop : Option LoopBuf
  deriving DecidableEq, Repr

/-- A partition with nothing on it. -/
def Part.init : Part := ⟨none, 8, [], none⟩

/-- A sector of code on its way to an instruction cache (R181, R429). -/
structure CodeFill where
  id   : Nat
  vf   : Nat
  asid : Nat
  vsec : Nat
  deriving DecidableEq, Repr

/-- A prefetch that waits for a line of its set, since all of them have fills outstanding (R238): the sector, and what its fill will carry. -/
structure PrefWait where
  vf   : Nat
  asid : Nat
  vsec : Nat
  psec : Nat
  part : Nat
  cls  : Nat
  budget : Nat
  lease : Nat
  evict : Bool
  deriving DecidableEq, Repr

/-- One logical core (R154, R238, R245, R318): its memories, caches, tags, partitions and counters. `missed` holds the
missed-deadline counters of its partitions (0–15), copy engine (16) and sequencer epilogue (17), `prefq` the prefetches that wait for a
line, `cfills` the sectors of code on their way,
`cbad` those that came and failed their check (function, ASID, virtual sector), `obOld` the bytes that the operand buffer
held before writes that nothing separates yet from a reader of the matrix unit (R348). -/
structure Core where
  up     : Bool
  spad   : List Host.Cell
  obuf   : List Host.Cell
  l1     : List Line
  fills  : List Fill
  prefq  : List PrefWait
  hzc    : Nat
  tags   : DWord
  terr   : DWord
  tagCnt : SMap Nat
  tagTime : SMap Nat
  copies : List CopyCmd
  xcnt   : Nat
  parts  : SMap Part
  icache : List IcLine
  cfills : List CodeFill
  cbad   : List (Nat × Nat × Nat)
  tlb    : List TlbEntry
  missed : SMap Nat
  secc   : Nat
  obOld  : SMap Byte
  deriving DecidableEq, Repr

/-- A core after reset: enabled, its caches empty, TAGS all ones and TERR zero (R318). -/
def Core.init : Core :=
  ⟨true, [], [], [], [], [], 0, BitVec.allOnes 64, 0, [], [], [], 0, [], [], [], [], [], [], 0, []⟩

/-! ## Device memory, the Spout and the channels -/

/-- What is kept beside a sector of device memory (R398, R510): the key generation under which it was last written, and how its stored
ciphertext, its column parity and its MAC now differ from those of its contents, bit by bit. -/
structure Side where
  key  : Nat
  err  : BitVec 512
  perr : BitVec 32
  merr : BitVec 32
  deriving DecidableEq, Repr

/-- A sector as it has just been written under a key generation. -/
def Side.clean (key : Nat) : Side := ⟨key, 0, 0, 0⟩

/-- Who makes an engine's accesses (R257, R283): a command of a core's copy engine, an `mret` of a team's sequencer, a command of a die's
Drover or Assayer, the writes of a collective or an assay object, a die's queue unit, a ring of a function (its completion ring, or its
fault ring), a submission queue, the start of a team, an owner of the host (its function and sector), and the target's part of a peer
access. -/
inductive Eng where
  | copy (core id : Nat)
  | mret (t : Nat)
  | cmd (die id : Nat)
  | coll (o : Nat)
  | assay (die o : Nat)
  | queue (die : Nat)
  | ring (vf : Nat) (cq : Bool)
  | subq (vf q : Nat)
  | start (t : Nat)
  | host (vf sec : Nat)
  | peer
  deriving DecidableEq, Repr

/-- An engine's accesses that are under way together (R283): who makes them, under which function, class and budget, the places they read
and write by element, the sectors whose replies are due, the data that have come, the sectors that failed their check, the writes whose
completions are due, the largest completion time returned and whether a write failed. -/
structure Txn where
  who    : Eng
  vf     : Nat
  cls    : Nat
  budget : Nat
  rd     : List (Nat × List Loc)
  wr     : List (Nat × List Loc)
  due    : List Nat
  got    : SMap (BitVec 512)
  bad    : List Nat
  sent   : Bool
  out    : Nat
  comp   : Nat
  werr   : Bool
  id     : Nat
  deriving DecidableEq, Repr

/-- Who made a memory request: a partition's L1 fill, a core's write-back, an access of a group's access order (a lane of an
atomic, an N-flag store), an engine's transaction, the reading of a kind 2 word (the group, the blocked path, the condition and the
number of the read, R195), or the fetch of a sector of code. -/
inductive Src where
  | fill (core id : Nat)
  | back (core : Nat) (gset : List Nat)
  | acc (guid id lane : Nat)
  | eng (txn : Nat)
  | wait (guid blk k ser : Nat)
  | code (core id : Nat)
  deriving DecidableEq, Repr

/-- What a memory request asks of its sector (R248): a read, with the lease class of the copy it will keep (none for one that
keeps no copy), the read of a kind 2 word, which takes no entry (R250), a masked write, or an atomic step. -/
inductive ReqKind where
  | read (lease : Option Nat)
  | wait
  | write (mask : DWord) (data : BitVec 512)
  | atomic (op : Nat) (wide : Bool) (at_ : Nat) (val cmp : List Byte)
  deriving DecidableEq, Repr

/-- One memory request (R237, R256): its sector, function, key generation, class, stamp (0 for none), requester core and
partition (for an engine its port, see `Eng.port`), and kind. -/
structure Req where
  id    : Nat
  src   : Src
  kind  : ReqKind
  psec  : Nat
  vf    : Nat
  key   : Nat
  cls   : Nat
  stamp : Nat
  core  : Nat
  part  : Nat
  deriving DecidableEq, Repr

/-- A Spout entry (R249): its sector and key, the tick of its memory issue, the requesters in the order they joined, whether it is open, and,
once its memory read has been served, the data or the fault, with the tick of the grant. Its class and its deadline are those of its
requesters (R259). -/
structure Entry where
  id    : Nat
  psec  : Nat
  key   : Nat
  tick  : Nat
  reqs  : List Req
  open_ : Bool
  data  : Option (BitVec 512 × Bool × Nat)
  deriving DecidableEq, Repr

/-- One request queued at a channel (R252, R258): a Spout entry's read, or a request that takes no entry. -/
inductive ChReq where
  | entry (id : Nat)
  | req (r : Req)
  deriving DecidableEq, Repr

/-- A reply on its way from a Spout unit to one requester (R254): the entry it comes from, and the tick by which it arrives, once the first
copy of the entry has arrived. -/
structure Copy where
  id   : Nat
  req  : Req
  ent  : Nat
  data : BitVec 512
  bad  : Bool
  exp  : Nat
  by_  : Option Nat
  deriving DecidableEq, Repr

/-- The completion of a write or atomic on its way back (R277, R282): the completion time, the old bytes of an atomic, and
whether the check of the first read failed (R399). -/
structure Done where
  id   : Nat
  req  : Req
  c    : Nat
  old  : List Byte
  bad  : Bool
  deriving DecidableEq, Repr

/-- One Spout unit (R249, R250, R255): its entries, its input queue and its four counters. -/
structure Unit where
  entries : List Entry
  inq     : List Req
  alloc   : Nat
  join    : Nat
  close   : Nat
  full    : Nat
  deriving DecidableEq, Repr

/-- An idle unit. -/
def Unit.init : Unit := ⟨[], [], 0, 0, 0, 0⟩

/-- One channel scheduler (R258): the requests in arrival order and what classes 1 to 3 have left of the round. -/
structure Channel where
  q  : List ChReq
  w1 : Nat
  w2 : Nat
  w3 : Nat
  deriving DecidableEq, Repr

/-- An idle channel at the start of a round: weights 4, 2 and 1. -/
def Channel.init : Channel := ⟨[], 4, 2, 1⟩

/-! ## Convoys -/

/-- A member of a convoy, under its index (R262, R263): its group, its position as the marshal knows it, whether it is
attached, and whether it has reported a hold. -/
structure Member where
  guid : Nat
  pos  : Nat
  att  : Bool
  held : Bool
  deriving DecidableEq, Repr

/-- A convoy (R260 to R269). -/
structure Convoy where
  key    : DWord
  slip   : Nat
  count  : Nat
  tout   : Nat
  mem    : List Member
  closed : Bool
  timer  : Option Nat
  deriving DecidableEq, Repr

/-- A message between a group and a marshal (R262 to R265, R303, R304): a join and its answer, a step, a hold, a new min, that a group has
left, and that the straggler timer has detached it. -/
inductive CvMsg where
  | joinReq (g : Nat)
  | answer (g : Nat) (cvm : Cvm) (min : Nat)
  | step (g cv : Nat)
  | hold (g cv : Nat)
  | min_ (g cv m : Nat)
  | leave (g cv : Nat)
  | out (g cv tick : Nat)
  deriving DecidableEq, Repr

/-- A message on its way: the tick by which it arrives, for a step and a new min (R264), and the dies between which it travels (R439). -/
structure CvMail where
  msg  : CvMsg
  by_  : Option Nat
  src  : Nat
  dst  : Nat
  deriving DecidableEq, Repr

/-! ## Hardware queues -/

/-- The record of a hardware queue (R322) and its QOWN byte (R445), with the slots published and done out of order. -/
structure QRec where
  mirror : Nat
  base   : Nat
  edone  : Bool
  epub   : Bool
  en     : Bool
  cls    : Nat
  lns    : Nat
  lsz    : Nat
  free   : Nat
  done   : Nat
  head   : Nat
  pub    : Nat
  tail   : Nat
  own    : BitVec 8
  pubs   : List Nat
  dones  : List Nat
  deriving DecidableEq, Repr

/-- A queue after reset: every field 0 (R322). -/
def QRec.init : QRec := ⟨0, 0, false, false, false, 0, 0, 0, 0, 0, 0, 0, 0, 0, [], []⟩

/-! ## The matrix unit -/

/-- A paired-exponent block (R327): the block exponent, the four micro-exponents, and sixteen codes. -/
structure Blk where
  e    : Nat
  mu   : List Nat
  code : List Nat
  deriving DecidableEq, Repr

/-- The state of a team's sequencer and matrix unit (R339, R340, R344, R349): `run` is SSTATE of TMS, `wait` what it is blocked
in (barrier or tag), `shape` and `fmt` those of the last `mld`, `macros` the blocks of B by column × 32 + block, tiles by tile
× 8,192 + row × 128 + column, RMAX and RSUM by tile × 64 + row, chains by tile, and the stores of `mret` that are not finished:
their largest completion time and whether one failed. `buf` holds the words that it has fetched ahead, by address (R429). Each team has
macros and tiles of its own (log 71). `chunks` tells of an `mret` to a collective: 1 while its chunk has no answer, 2 once it has been
accepted (R454). -/
structure Seq where
  mpc    : Word
  m      : SMap Word
  xp     : Word
  bitmap : Option Nat
  rmax   : SMap Word
  rsum   : SMap Word
  chain  : SMap Nat
  tiles  : SMap Word
  shape  : Option Nat
  fmt    : Nat
  macros : SMap Blk
  run    : Nat
  wait   : Option (Bool × Nat)
  sflt   : Bool
  msat   : Bool
  bmx    : Bool
  munf   : Bool
  movf   : Bool
  comp   : Nat
  serr   : Bool
  buf    : SMap Word
  chunks : Nat
  fid    : Option Nat
  deriving DecidableEq, Repr

/-- The matrix unit of a team at its start: tiles +0, m0–m31 zero, XP0–XP31 one (R340, R344). -/
def Seq.init : Seq :=
  ⟨0, [], BitVec.allOnes 32, none, [], [], [], [], none, 0, [], 0, none, false, false, false, false, false, 0, false, [], 0, none⟩

/-! ## Launches and teams -/

/-- A launch record (R174, R452), by field. -/
structure LaunchRec where
  lid : Nat
  prio : Nat
  svc : Nat
  ndep : Nat
  resx : Bool
  deps : List Nat
  budget : Nat
  gx : Nat
  gy : Nat
  gz : Nat
  teamg : Nat
  clw : Nat
  clh : Nat
  tagn : Nat
  ns : Nat
  rgen : Nat
  rcpy : Nat
  repi : Nat
  xgen : Nat
  xcpy : Nat
  xepi : Nat
  spadsz : Nat
  obufsz : Nat
  codeb : Nat
  codel : Nat
  entry : Nat
  msoff : Nat
  mslen : Nat
  preb : Nat
  recb : Nat
  rmask : Nat
  obj : Nat
  tmask : Nat
  ctype : Nat
  ch0 : Nat
  ddev : Nat
  ddv : Bool
  deriving DecidableEq, Repr

/-- The states of a launch (R178). -/
inductive LStat where
  | waiting
  | eligible
  | running
  | ended
  | failed
  | rejected
  deriving DecidableEq, Repr

/-- A launch (R178 to R184): its function, record, state, deadline, whether it was late, the next team never placed, the saved
teams to place again, the tick since which its next team has waited, whether backfill past it has stopped, and the teams that
have ended. `wait` lists the launches it still depends on (R179); `ran` is the tick of the first placement. -/
structure Launch where
  vf    : Nat
  r     : LaunchRec
  st    : LStat
  dl    : Option Nat
  late  : Bool
  next  : Nat
  saved : List Nat
  since : Nat
  noBack : Bool
  ended : Nat
  wait  : List Nat
  ran   : Option Nat
  deriving DecidableEq, Repr

/-- A barrier object as its 64 bits give it (R198). -/
structure Bar where
  exp   : Nat
  phase : Bool
  pend  : Nat
  deriving DecidableEq, Repr

/-- The stages of a team's pre-emption (R419, R420): none, requested at a tick, stopped with its fences running, saved. -/
inductive Pre where
  | none
  | asked (tick : Nat)
  | flushing
  | saved
  deriving DecidableEq, Repr

/-- A team (R154, R185, R342, R344): its launch and linear index, core, groups, ranges of scratchpad, operand buffer and tags,
cluster rank, reservations, DRT (R453), sequencer, the records kept of group 0 (R356), its pre-emption, whether its
groups have started and the faults that park their start (R177), its place in the order of placements, and whether its pre-emption makes room for a placement (R189), and, once saved, the arrays of its context (R420) and the answers
to its faults (R415). -/
structure Team where
  launch : Nat
  x      : Nat
  vf     : Nat
  core   : Nat
  groups : List Nat
  spadB  : Nat
  spadN  : Nat
  obufB  : Nat
  obufN  : Nat
  tagB   : Nat
  tagN   : Nat
  part0  : Nat
  cluster : Nat
  rank   : Nat
  resv   : SMap QWord
  drt    : Word
  seq    : Seq
  recs0  : Option (SMap QWord)
  pre    : Pre
  seqStop : Bool
  started : Bool
  fid    : Option Nat
  order  : Nat
  room   : Bool
  svSpad : List Host.Cell
  svObuf : List Host.Cell
  svTags : DWord
  svTerr : DWord
  svTime : SMap Nat
  answers : List (Nat × Nat)
  deriving DecidableEq, Repr

/-! ## Virtual functions -/

/-- A ring of records in device memory (R413, R449): base, size field, enable, consumer and producer index, and the records
held inside the device, oldest first. -/
structure Ring where
  base : Nat
  l    : Nat
  en   : Bool
  c    : Word
  p    : Word
  held : List (BitVec 512)
  deriving DecidableEq, Repr

/-- A ring after reset (R413). -/
def Ring.init : Ring := ⟨0, 0, false, 0, 0, []⟩

/-- A submission queue's register (R447), and the fault that stops it (R448). -/
structure SubQ where
  base : Nat
  l    : Nat
  err  : Bool
  en   : Bool
  head : Word
  tail : Word
  fid  : Option Nat
  deriving DecidableEq, Repr

/-- A submission queue after reset (R447). -/
def SubQ.init : SubQ := ⟨0, 0, false, false, 0, 0, none⟩

/-- A virtual function (R445): its register, fault ring, completion ring and notice address, submission queues, the next fault
identifier, the response register, and the key generation of its slot (R504). -/
structure Vf where
  hcb  : Nat
  hcl  : Nat
  hent : Nat
  pwb  : Nat
  pwn  : Nat
  root : Nat
  pto  : Nat
  key  : Nat
  asid : Nat
  priv : Bool
  en   : Bool
  fq   : Ring
  cq   : Ring
  cqn  : Nat
  sq   : SMap SubQ
  fid  : Nat
  resp : DWord
  gen  : Nat
  deriving DecidableEq, Repr

/-- A function after reset: every field 0 (R413, R445, R447, R449); the first fault identifier is 1 (R412). -/
def Vf.init : Vf :=
  ⟨0, 0, 0, 0, 0, 0, 0, 0, 0, false, false, Ring.init, Ring.init, 0, [], 1, 0, 0⟩

/-- Who is parked on a fault record (R411, R414). -/
inductive Parked where
  | lanes (guid : Nat) (mask : Word)
  | copy (core id : Nat)
  | seq (tuid : Nat)
  | cmd (die id : Nat)
  | start (tuid : Nat)
  | subq (vf q : Nat)
  | obj (o : Nat)
  | assay (die o : Nat)
  | trap
  deriving DecidableEq, Repr

/-- A shootdown in progress (R409): the function, the first page, the number of pages (0 for all), whether the lines of the range
have been written back, the write-backs that have yet to complete, and the largest completion time of those that have. -/
structure Shoot where
  id   : Nat
  vf   : Nat
  page : Nat
  n    : Nat
  begun : Bool
  out  : List Nat
  until_ : Nat
  deriving DecidableEq, Repr

/-! ## The Drover -/

/-- One path of a collective at this rank (R456): the plan entry. -/
structure PathEnt where
  nchd   : Nat
  depth  : Nat
  cidx   : Nat
  parent : Nat
  deriving DecidableEq, Repr

/-- A packet between ranks (R459 to R463): the object, the round serial, the path, its kind (0 partial, 1 result, 2 notice of a
result, 3 correction on its way up, 4 correction on its way down, 5 notice of a correction, 6 verdict, 7 split, 8 a peer of the path
cannot be reached), the rank it goes to (1,024 for every child of the sender, 1,025 for every rank), the sender's child index, the
manifest, whether a verdict is of a complete manifest, the tick of arrival (for a packet sent, the tick from which it is sent), the
split, and the values by element of the message. -/
structure DroPkt where
  obj    : Nat
  rnd    : Nat
  path   : Nat
  kind   : Nat
  to_    : Nat
  cidx   : Nat
  man    : BitVec 1024
  full   : Bool
  tick   : Nat
  split  : List Nat
  vals   : SMap Word
  deriving DecidableEq, Repr

/-- One path's progress in a round at this rank (R460 to R463): the partials that have come on time, the late corrections that wait
for the root's own result, whether the node has forwarded, whether its own contribution has been handed on, the manifest with
which the result was first written here and the manifest now, whether the result is known here, and whether the verdict is. -/
structure PathSt where
  got    : List DroPkt
  cq     : List DroPkt
  fwd    : Bool
  own    : Bool
  man0   : BitVec 1024
  man    : BitVec 1024
  have_  : Bool
  closed : Bool
  deriving DecidableEq, Repr

/-- A path at the start of a round. -/
def PathSt.init : PathSt := ⟨[], [], false, false, 0, 0, false, false⟩

/-- A write that an engine has yet to make for an object (R461, R462, R477, R478): the path, whether it is a correction, the
elements, the log entry with its address, the status bits that its completion sets, and what is sent then. -/
structure Job where
  path  : Nat
  corr  : Bool
  elems : SMap Word
  log   : Option (Nat × List Byte)
  bits  : Word
  send  : List DroPkt
  deriving DecidableEq, Repr

/-- A `dro.corr` command that waits (R492): the core, team and tag, the tick of its time-out. -/
structure Corr where
  id   : Nat
  core : Nat
  tuid : Nat
  tag  : Nat
  tEnd : Option Nat
  deriving DecidableEq, Repr

/-- A collective object at this device's rank (R450 to R466, R513): its owner, the fields of R451, DST, the split in slices, the
chunks that have come, the contribution and the results by element of the message, the log position, the largest completion time
of its writes, the packets held for its next round, the `dro.corr` commands, the writes it has yet to make, the bits that wait for a
completion time, and the fault it is parked on. `guess` is the place of the free values of a split that has not come (log 27). -/
structure Coll where
  owner  : Nat
  launch : Nat
  op     : Nat
  type   : Nat
  n      : Nat
  rank   : Nat
  nch    : Nat
  plan   : List PathEnt
  res    : QWord
  seg    : QWord
  dl     : Nat
  slk    : Nat
  cto    : Nat
  live   : Bool
  log    : Nat
  rnd    : Nat
  dst    : Word
  split  : List Nat
  chunks : List Nat
  contrib : SMap Word
  ctick  : Option Nat
  result : SMap Word
  paths  : SMap PathSt
  logk   : Nat
  comp   : Nat
  held   : List DroPkt
  corrs  : List Corr
  jobs   : List Job
  due    : List (Nat × Word)
  fid    : Option Nat
  guess  : Nat
  deriving DecidableEq, Repr

/-- A closed object (R464). No function owns it: 64 names none. -/
def Coll.init : Coll :=
  ⟨64, 0, 0, 0, 0, 0, 0, [], 0, 0, 0, 0, 0, false, 0, 0, 0, [], [], [], none, [], [], 0, 0, [], [], [], [], none, 0⟩

/-- A chunk on its way to a collective object (R454, R455, R489): the devices it comes from and goes to, the die it leaves from, the object, the function
that sends it, the chunk's index and type, its values, and who waits for the answer: a team's sequencer, or a command. -/
structure Chunk where
  src  : Nat
  dev  : Nat
  die  : Nat
  obj  : Nat
  vf   : Nat
  idx  : Nat
  type : Nat
  vals : List Word
  seq  : Option Nat
  cmd  : Option Nat
  deriving DecidableEq, Repr

/-! ## The Assayer -/

/-- One assay slot (R471, R472). `cnt` counts the distinct elements staged, `want` is the begin marker's count, and
`bad` tells of a staging sector that fails its check (R473). -/
structure Slot where
  st   : Nat
  want : Nat
  cnt  : Nat
  vals : SMap Word
  nsq  : Word
  scale : Word
  ser  : Nat
  why  : Nat
  late : Bool
  bad  : Bool
  deriving DecidableEq, Repr

/-- An idle slot. -/
def Slot.init : Slot := ⟨0, 0, 0, [], 0, 0, 0, 0, false, false⟩

/-- An assay object (R467 to R480): its owner, the fields of R468, AST, AMF, the slots, the total, the log position, whether the
correction window has closed, the largest completion time of its writes, the writes it has yet to make, the bits that wait for a
completion time, the fault it is parked on, and whether the staging of another open object has overlapped its own (R469). -/
structure Assay where
  owner : Nat
  launch : Nat
  c     : Nat
  ne    : Nat
  alim  : Word
  dl    : Nat
  cto   : Nat
  res   : QWord
  seg   : QWord
  soff  : Nat
  log   : Nat
  akey  : Word
  rnd   : Nat
  ast   : Word
  amf   : DWord
  slots : SMap Slot
  total : SMap Word
  logk  : Nat
  wrote : Bool
  shut  : Bool
  comp  : Nat
  jobs  : List Job
  due   : List (Nat × Word)
  fid   : Option Nat
  smear : Bool
  deriving DecidableEq, Repr

/-- A closed object (R479), owned by no function. -/
def Assay.init : Assay :=
  ⟨64, 0, 0, 0, 0, 0, 0, 0, 0, 0, 0, 0, 0, 0, 0, [], [], 0, false, false, 0, [], [], none, false⟩

/-- A packet to an assay object (R471): its kind (0 begin marker, 1 data, 2 end marker), the devices it comes from and goes to, the
object, the key, contributor and serial, the count, the first element, the values, the tick of arrival, and the sender's command. -/
structure AsyPkt where
  kind : Nat
  src  : Nat
  dev  : Nat
  die  : Nat
  obj  : Nat
  key  : Word
  id   : Nat
  ser  : Nat
  n    : Nat
  first : Nat
  vals : List Word
  tick : Nat
  cmd  : Nat
  deriving DecidableEq, Repr

/-! ## Dies, links and the device -/

/-- One die (R247, R261, R322, R469, R506): its convoys by slot, queues, queue commands in arrival order, staging size, Spout
units, channels by stack × 32 + channel, horizon table, counters of its Drover, Assayer and queue unit, integrity counts,
clock in MHz, thousandths of core cycles since reset, spare cores left, the physical core of each logical core that has been moved, the link rates of R457 with the tick at which the die sent its own last,
and the translations that its engines have cached. -/
structure Die where
  convoys : SMap Convoy
  queues  : SMap QRec
  qcmds   : List QCmd
  xcmds   : List XCmd
  assays  : SMap Assay
  asz     : Nat
  units   : SMap Unit
  chans   : SMap Channel
  hor     : SMap Nat
  missD   : Nat
  missA   : Nat
  missQ   : Nat
  corr    : Nat
  parity  : Nat
  mhz     : Nat
  cyc     : Nat
  spares  : List Nat
  phys    : SMap Nat
  rates   : SMap Nat
  rateAt  : Nat
  tlb     : List TlbEntry
  deriving DecidableEq, Repr

/-- A die after reset: idle, at 1,900 MHz, four spare cores (R2, R5, R469). -/
def Die.init : Die :=
  ⟨[], [], [], [], [], 0, [], [], [], 0, 0, 0, 0, 0, 1900, 0, [84, 85, 86, 87], [], [], 0, []⟩

/-- One Smieg port (R440, R441): lanes in service, whether the spare lane is still unused, and whether its plane is in service. -/
structure Port where
  lanes : Nat
  spare : Bool
  up    : Bool
  deriving DecidableEq, Repr

/-- A port in service with its spare unused (R440). -/
def Port.init : Port := ⟨8, true, true⟩

/-- A byte of a peer access: the lane, its number within the lane's access, and its place in the sector. -/
structure PeerByte where
  lane : Nat
  i    : Nat
  at_  : Nat
  deriving DecidableEq, Repr

/-- A peer access between devices, for one sector of the target's virtual space (R237, R443, R444): an identifier, the target and the
asking device, the plane it travels on (R441), the place it has in its access order, the function and virtual sector at the target, the
lowest peer offset, and what it asks of which bytes: `op` is 0 for a read, 1 for a write, 2 + the operation for an atomic; `data` are the
bytes stored, or the operand of an atomic. -/
structure PeerReq where
  id   : Nat
  dev  : Nat
  from_ : Nat
  plane : Nat
  guid : Nat
  acc  : Nat
  rvf  : Nat
  vsec : Nat
  off  : Nat
  op   : Nat
  wide : Bool
  parts : List PeerByte
  data : List Byte
  cmp  : List Byte
  cls  : Nat
  stamp : Nat
  deriving DecidableEq, Repr

/-- The answer to a peer access: the bytes read or the old value with their lanes, the completion time in the target's ticks, a refusal, or
a translation fault at the target with its cause and level (R444). `ack` marks the acknowledgement that follows once the target's tick has
reached the completion time (R279). -/
structure PeerAns where
  id   : Nat
  guid : Nat
  acc  : Nat
  off  : Nat
  parts : List PeerByte
  data : List Byte
  c    : Nat
  bad  : Bool
  fault : Option (Nat × Nat)
  ack  : Bool
  deriving DecidableEq, Repr

/-- Neard's condition (R501 to R503): booted, or in recovery. -/
inductive Boot where
  | up
  | recovery
  deriving DecidableEq, Repr

/-- A firmware image as Neard sees it (R501, R503, R505): its bytes, which signatures verify, its security version, the floor it
raises to, the owner endpoints of its configuration, and whether the hazard-check mode is on (R27). -/
structure Image where
  bytes : List Byte
  ed    : Bool
  ml    : Bool
  ver   : Nat
  floor : Nat
  owners : List Nat
  hazard : Bool
  deriving DecidableEq, Repr

/-- Who issues (R157, R172): the path of a group, or the sequencer of a team. A path is the group's identifier, whether it is the
handler path, its PC and its active mask. -/
inductive Focus where
  | none
  | path (g : Nat) (h : Bool) (pc : Word) (mask : Word)
  | seq (t : Nat)
  deriving DecidableEq, Repr

/-- What reaches the device from outside, or what a part of it does of its own accord: the moves that are no row of the opcode
table. A peer access and the answer to one; a packet of a collective, a chunk of another device and the answer to one; a packet of
an assay and the answer to one (the command, the status code); the link rates of a die of another device (R457); errors in a sector's
stored bits, in an assay slot's staging; the
contents of a table node in host memory; a debugger attached or detached, and letting threads go on; a firmware image put into the
flash; whether another device can be reached. -/
inductive Outside where
  | peerReq (r : PeerReq)
  | peerAns (a : PeerAns)
  | dro (p : DroPkt)
  | chunk (c : Chunk)
  | chunkAns (t : Nat) (ok : Bool)
  | asy (p : AsyPkt)
  | asyAns (cmd code : Nat)
  | rates (dev die : Nat) (vs : List Nat)
  | flaw (sector : Nat) (err : BitVec 512) (perr merr : BitVec 32)
  | staging (die obj id : Nat)
  | hostNode (a : Nat) (v : Option Nat)
  | debugger (on : Bool)
  | release_ (g : Nat) (pc : Word)
  | image (i : Image)
  | reach (dev : Nat) (ok : Bool)
  deriving DecidableEq, Repr

/-- One choice of which party moves next (R274, R192): a row of the opcode table that is an event, one cycle of a partition (in which
groups that may be paired are paired, or are not, R165), the next word of a sequencer, the next step of an access in a group's order, or
of one lane of it (and, where its bytes go one by one, of one byte), of a copy command, of a command of a die's Drover and Assayer, of the
writes of a collective or assay object, the acknowledgement of a peer access, the passing of ticks, a translation cached ahead of its use
by a core or by a die's engines (R408), a sector of code cached ahead of its use, a word fetched ahead of its use by a group or by a
sequencer (R429), or something from outside. -/
inductive Choice where
  | ev (i : Instr)
  | issue (core part : Nat) (pair : Bool)
  | seq (t : Nat)
  | perform (g id : Nat)
  | part (g id lane byte : Nat)
  | copy (core id : Nat)
  | command (die id : Nat)
  | writes (asy : Bool) (die obj : Nat)
  | peerAck (n : Nat)
  | tick (n : Nat)
  | prefetch (die : Bool) (n vf va : Nat)
  | codeAhead (core vf va : Nat)
  | wordAhead (g va : Nat)
  | seqAhead (t va : Nat)
  | outside (o : Outside)
  deriving DecidableEq, Repr

end Sys2Proof.Machine
end

