-- ==== Sys2Proof/Machine/State.lean ====
section
/-! DEFINITION. The state of one M9 as plain data, why a step can stop, and the state after reset. -/

namespace Sys2Proof.Machine

/-- Why a step stops with a fault. -/
inductive Fault where
  /-- Raised by `exec` of an instruction of a thread stream or of a matrix stream when no live path and no running sequencer is
  the issuer (`State.cur`): the step belongs to no party. Safe: such a step is none of the machine's. -/
  | noIssuer
  deriving DecidableEq, Repr

/-- Why a step is refused. -/
inductive Refusal where
  /-- An instruction that has no meaning in this model yet, by the name the opcode table gives it. Safe. -/
  | notModelled (mnemonic : String)
  /-- Raised by `exec` of an event of the opcode table that is not due: the party has no such step to take in this state (no
  result to write back, no request at the channel). Safe: the step is none of the machine's. -/
  | notPending (event : String)
  deriving DecidableEq, Repr

/-- The state of one device. -/
structure State where
  /-- The tick (R4). -/
  now     : Nat
  /-- Which party moves next, oldest first: the schedule. The model's own (log 1). -/
  agenda  : List Choice
  /-- The path or the sequencer that issues now. The model's own (log 1). -/
  cur     : Focus
  /-- The place of the next free value (log 2). The model's own. -/
  fresh   : Nat
  /-- The next identifier for a request, a group, a command. The model's own. -/
  uid     : Nat
  /-- The number of boots so far: what is fixed for the life of a boot alone depends on it (R247, R273). -/
  boots   : Nat
  /-- Neard: booted or in recovery (R501, R502). -/
  boot    : Boot
  /-- The stored firmware image (R501). -/
  image   : Image
  /-- The fused security-version floor (R503). -/
  floor   : Nat
  /-- The 12-bit device id (R442). -/
  devId   : Nat
  /-- The hazard-check debug mode (R27). -/
  hazard  : Bool
  /-- A debugger is attached through Neard (R424). -/
  debugger : Bool
  /-- What the debugger has been told: group and PC (R424). -/
  debugLog : List (Nat × Word)
  /-- Device memory, 512 GiB (R247). -/
  mem     : List Host.Cell
  /-- What stands beside each sector of device memory (R398). -/
  side    : SMap Side
  /-- Entries of table nodes in host-endpoint memory, by address (R405, R406). -/
  hostMem : SMap Nat
  /-- The dies. -/
  dies    : SMap Die
  /-- The 336 logical cores (R2). -/
  cores   : SMap Core
  /-- The groups that are resident or saved. -/
  groups  : SMap Group
  /-- The groups that have ended, for the write errors that come after their end (R400). -/
  past    : SMap Past
  /-- The teams that are resident or saved. -/
  teams   : SMap Team
  /-- The launches, by acceptance serial (R178). -/
  launches : SMap Launch
  /-- The 64 virtual functions (R445). -/
  vfs     : SMap Vf
  /-- Memory requests on their way to their Spout unit (R247). -/
  wire    : List Req
  /-- Replies on their way to requesters (R254). -/
  copies  : List Copy
  /-- Completions on their way back (R277). -/
  dones   : List Done
  /-- Messages between groups and marshals (R262 to R265). -/
  cvMsgs  : List CvMail
  /-- The accesses of the engines that are under way (R283), by identifier. -/
  txns    : SMap Txn
  /-- Who waits for the answer to each fault record, by function × 2^32 + FID (R412, R414). -/
  faults  : SMap Parked
  /-- Shootdowns in progress (R409). -/
  shoots  : List Shoot
  /-- The 256 collective objects (R450). -/
  colls   : SMap Coll
  /-- Contribution chunks on their way to objects of this device (R455). -/
  chunks  : List Chunk
  /-- Collective packets that have reached this device (R513). -/
  droIn   : List DroPkt
  /-- Assay packets that have reached this device (R471). -/
  asyIn   : List AsyPkt
  /-- Peer accesses that have reached this device (R443). -/
  peerIn  : List PeerReq
  /-- What this device has sent out: collective packets (R459 to R463). -/
  droOut  : List DroPkt
  /-- Contribution chunks sent to other devices (R454). -/
  chunkOut : List Chunk
  /-- Assay packets sent to other devices (R494). -/
  asyOut  : List AsyPkt
  /-- Answers to the chunks of other devices: device, object, chunk, whether the object was open (R454). -/
  chunkAnsOut : List (Nat × Nat × Nat × Bool)
  /-- Answers to the assay packets of other devices: device, command, status code (R494). -/
  asyAnsOut : List (Nat × Nat × Nat)
  /-- Link rates that this device's Drovers have sent to those of other devices: the die, and the rates of its links (R457). -/
  rateOut : List (Nat × List Nat)
  /-- Peer accesses that wait at this device for their memory: the transaction with the access (R443). -/
  peerRun : List (Nat × PeerReq)
  /-- Acknowledgements of peer accesses that wait for their completion times (R279): the device that asked, and the acknowledgement. -/
  peerAcks : List (Nat × PeerAns)
  /-- Peer accesses sent to other devices that have no answer yet (R441). -/
  peerSent : List PeerReq
  /-- Peer accesses sent to other devices (R443). -/
  peerOut : List PeerReq
  /-- Answers to the peer accesses of other devices (R444). -/
  ansOut  : List PeerAns
  /-- Words stored to other endpoints: endpoint, address, value (R449 CQN). -/
  notices : List (Nat × Nat × Word)
  /-- Attestation reports sent: the report, the two signatures (R505). -/
  reports : List (List Byte × Nat × Nat)
  /-- What the host has read through Neard: function, address, bytes, whether the check failed (R511). -/
  hostReads : List (Nat × Nat × List Byte × Bool)
  /-- The 20 Smieg ports (R440). -/
  ports   : SMap Port
  /-- Devices that cannot be reached (R444, R509). -/
  unreach : List Nat
  /-- The module power limit in watts (R507). -/
  power   : Nat
  /-- The submission queue served last, function × 4 + queue (R448). -/
  lastSq  : Nat
  /-- The next key generation (R504). -/
  gens    : Nat
  /-- Corrections counted per HBM row: the ticks of the last ones (R508). -/
  rowCorr : SMap (List Nat)
  /-- Rows that have been remapped to a spare row (R508). -/
  rows    : List Nat
  /-- Channels that the spare has replaced, one at most for each stack (R508). -/
  spared  : SMap Nat
  deriving DecidableEq, Repr

/-- The firmware image that stands in Neard's flash at reset: both signatures verify, security version 0 (R501). The owner
endpoint is endpoint 0. DESIGN CHOICE, log 7. -/
def Image.shipped : Image := ⟨[], true, true, 0, 0, [0], false⟩

/-- The device right after reset, its boot done (R10, R273, R318, R322, R413, R445, R447, R464, R469, R479, R501). Every field
that the manual gives a reset value has it; what it leaves open is named in the log. -/
def State.reset : State where
  now := 0
  agenda := []
  cur := .none
  fresh := 0
  uid := 1
  boots := 0
  boot := .up
  image := Image.shipped
  floor := 0
  devId := 0
  hazard := false
  debugger := false
  debugLog := []
  mem := []
  side := []
  hostMem := []
  dies := []
  cores := []
  groups := []
  past := []
  teams := []
  launches := []
  vfs := []
  wire := []
  copies := []
  dones := []
  cvMsgs := []
  txns := []
  faults := []
  shoots := []
  colls := []
  chunks := []
  droIn := []
  asyIn := []
  peerIn := []
  droOut := []
  chunkOut := []
  asyOut := []
  chunkAnsOut := []
  asyAnsOut := []
  rateOut := []
  peerRun := []
  peerAcks := []
  peerSent := []
  peerOut := []
  ansOut := []
  notices := []
  reports := []
  hostReads := []
  ports := []
  unreach := []
  power := 2400
  lastSq := 255
  gens := 1
  rowCorr := []
  rows := []
  spared := []

end Sys2Proof.Machine
end

