-- ==== Sys2Proof/Machine/Ops.lean ====
section
/-! DEFINITION. The named operations over the state: finding and changing its parts, thread and uniform registers with the
interval of R25, exit and rejoin (R161 to R164), barriers (R199), launches (R178), and taking a trap (R385 to R392). -/

namespace Sys2Proof.Machine

/-! ## Parts of the state -/

/-- The die of a logical core (R2): 84 cores to a die. -/
def dieOf (core : Nat) : Nat := core / 84

/-- A group, by identifier. -/
def State.group? (s : State) (g : Nat) : Option Group := s.groups.find? g
/-- Changing a group. -/
def State.updGroup (s : State) (g : Nat) (f : Group → Group) : State := { s with groups := s.groups.upd g f }
/-- Changing every group. -/
def State.mapGroups (s : State) (f : Group → Group) : State :=
  { s with groups := List.map (fun (x : Nat × Group) => (x.1, f x.2)) s.groups }
/-- A team, by identifier. -/
def State.team? (s : State) (t : Nat) : Option Team := s.teams.find? t
/-- Changing a team. -/
def State.updTeam (s : State) (t : Nat) (f : Team → Team) : State := { s with teams := s.teams.upd t f }
/-- A core. -/
def State.core (s : State) (c : Nat) : Core := s.cores.get c Core.init
/-- Changing a core. -/
def State.updCore (s : State) (c : Nat) (f : Core → Core) : State := { s with cores := s.cores.put c (f (s.core c)) }
/-- A die. -/
def State.die (s : State) (d : Nat) : Die := s.dies.get d Die.init
/-- Changing a die. -/
def State.updDie (s : State) (d : Nat) (f : Die → Die) : State := { s with dies := s.dies.put d (f (s.die d)) }
/-- A virtual function. -/
def State.vf (s : State) (v : Nat) : Vf := s.vfs.get v Vf.init
/-- Changing a virtual function. -/
def State.updVf (s : State) (v : Nat) (f : Vf → Vf) : State := { s with vfs := s.vfs.put v (f (s.vf v)) }
/-- A launch. -/
def State.launch? (s : State) (l : Nat) : Option Launch := s.launches.find? l
/-- Changing a launch. -/
def State.updLaunch (s : State) (l : Nat) (f : Launch → Launch) : State := { s with launches := s.launches.upd l f }
/-- A collective object. -/
def State.coll (s : State) (o : Nat) : Coll := s.colls.get o Coll.init
/-- Changing a collective object. -/
def State.updColl (s : State) (o : Nat) (f : Coll → Coll) : State := { s with colls := s.colls.put o (f (s.coll o)) }
/-- An assay object of a die. -/
def State.assay (s : State) (d o : Nat) : Assay := (s.die d).assays.get o Assay.init
/-- Changing an assay object. -/
def State.updAssay (s : State) (d o : Nat) (f : Assay → Assay) : State :=
  s.updDie d fun x => { x with assays := x.assays.put o (f (x.assays.get o Assay.init)) }
/-- A Smieg port. -/
def State.port (s : State) (p : Nat) : Port := s.ports.get p Port.init
/-- Changing a port. -/
def State.updPort (s : State) (p : Nat) (f : Port → Port) : State := { s with ports := s.ports.put p (f (s.port p)) }
/-- The next identifier is used up. -/
def State.bump (s : State) : State := { s with uid := s.uid + 1 }
/-- The next free values are used up. -/
def State.draw (s : State) (n : Nat) : State := { s with fresh := s.fresh + n }

/-- A partition of a core. -/
def Core.part (c : Core) (p : Nat) : Part := c.parts.get p Part.init
/-- Changing a partition. -/
def State.updPart (s : State) (c p : Nat) (f : Part → Part) : State :=
  s.updCore c fun x => { x with parts := x.parts.put p (f (x.part p)) }

/-- A 32-bit saturating counter goes up (R255, R257). -/
def satInc (n : Nat) : Nat := if n < 0xFFFFFFFF then n + 1 else n

/-- A missed-deadline counter of a core goes up (R257): partitions 0–15, copy engine 16, sequencer epilogue 17. -/
def State.miss (s : State) (c k : Nat) : State :=
  s.updCore c fun x => { x with missed := x.missed.put k (satInc (x.missed.get k 0)) }

/-- An engine's own number as a requester (R257), apart from those of the cores: what one of them sends to a sector keeps its order. -/
def Eng.port : Eng → Nat
  | .copy core _ => 1024 + core
  | .mret t => 65536 + t
  | .cmd die _ => 512 + die
  | .coll o => 512 + o / 64
  | .assay die _ => 516 + die
  | .queue die => 520 + die
  | .ring _ _ => 524
  | .subq _ _ => 525
  | .start _ => 526
  | .host _ _ => 527
  | .peer => 528

/-- The die on which an engine stands (R439). Launches, rings and the host come in at die 0. -/
def State.engDie (s : State) : Eng → Nat
  | .copy core _ => dieOf core
  | .mret t => match s.team? t with | some T => dieOf T.core | none => 0
  | .cmd die _ => die
  | .coll o => o / 64
  | .assay die _ => die
  | .queue die => die
  | .start t => match s.team? t with | some T => dieOf T.core | none => 0
  | _ => 0

/-- The missed-deadline counter of an engine goes up (R257): that of its copy engine, epilogue, Drover, Assayer or queue unit. -/
def State.engMiss (s : State) : Eng → State
  | .copy core _ => s.miss core 16
  | .mret t => match s.team? t with | some T => s.miss T.core 17 | none => s
  | .coll o => s.updDie (o / 64) fun D => { D with missD := satInc D.missD }
  | .cmd die id =>
    match (s.die die).xcmds.find? (·.id == id) with
    | some x => s.updDie die fun D =>
        if x.func < 16 then { D with missD := satInc D.missD } else { D with missA := satInc D.missA }
    | none => s
  | .assay die _ => s.updDie die fun D => { D with missA := satInc D.missA }
  | .queue die => s.updDie die fun D => { D with missQ := satInc D.missQ }
  | _ => s

/-- The key generation of a function's slot (R504, R511); 0 stands for no keys. -/
def State.key (s : State) (vf : Nat) : Nat := if (s.vf vf).en then (s.vf vf).gen else 0

/-! ## Lanes and masks -/

/-- The lanes of a mask, lowest first (R155). -/
def lanesOf (m : Word) : List Nat := (List.range 32).filter fun i => m.getLsbD i
/-- The mask of one lane. -/
def laneBit (l : Nat) : Word := (1 : Word) <<< l
/-- The mask of a list of lanes. -/
def maskOf (ls : List Nat) : Word := ls.foldl (fun m l => m ||| laneBit l) 0
/-- The number of set bits among the first n. -/
def popBits (x : Nat) (n : Nat) : Nat := ((List.range n).filter fun i => x.testBit i).length

/-- A thread of a group. -/
def Group.lane (G : Group) (l : Nat) : Thread := G.lanes.get l Thread.init
/-- Changing one thread. -/
def Group.updLane (G : Group) (l : Nat) (f : Thread → Thread) : Group := { G with lanes := G.lanes.put l (f (G.lane l)) }
/-- Changing the threads of a list. -/
def Group.updLanes (G : Group) (ls : List Nat) (f : Nat → Thread → Thread) : Group :=
  ls.foldl (fun G l => G.updLane l (f l)) G
/-- The threads of a group in a given state. -/
def Group.lanesWith (G : Group) (p : Thread → Bool) : Word := maskOf ((List.range 32).filter fun l => p (G.lane l))
/-- The threads that have not exited. -/
def Group.liveMask (G : Group) : Word := G.lanesWith fun t => t.st != .exited

/-- A bit of a predicate register set or cleared. -/
def setBit8 (x : BitVec 8) (i : Nat) (b : Bool) : BitVec 8 :=
  if b then x ||| ((1 : BitVec 8) <<< i) else x &&& ~~~((1 : BitVec 8) <<< i)
/-- A bit of a word set or cleared. -/
def setBitW (x : Word) (i : Nat) (b : Bool) : Word := if b then x ||| laneBit i else x &&& ~~~(laneBit i)

/-! ## Registers, with the interval of R25 -/

/-- Do two issuers share a thread? A path without lanes (R396) shares with itself. -/
def overlaps (a b : Word) : Bool := a &&& b != 0 || (a == 0 && b == 0)

/-- Does a destination cover a register of a kind? -/
def Dst.covers (d : Dst) (thread : Bool) (r : Nat) : Bool :=
  match d with
  | .v b n => thread && b ≤ r && r < b + n
  | .s b n => !thread && b ≤ r && r < b + n

/-- The value a register had when a window opened. -/
def Window.oldAt (w : Window) (l r : Nat) : Option Word :=
  match w.dst with
  | .v b _ => (w.old.find? (·.lane == l)).bind fun x => x.words[r - b]?
  | .s b _ => w.old.head?.bind fun x => x.words[r - b]?

/-- Reading a register through the windows that cover it: where a result has been written and no W has passed, the old value or
the new one, unpredictably (R25). -/
def windowRead (ws : List Window) (thread : Bool) (mask : Word) (l r n : Nat) (x : Word) : Word :=
  match ws.find? fun w => w.dst.covers thread r && overlaps w.mask mask && w.written && !(w.hit.contains (l * 1024 + r)) with
  | none => x
  | some w =>
    match w.oldAt l r with
    | none => x
    | some o => if o = x then x else if Config.pick n (l * 1024 + r) then o else x

/-- Thread register r of lane l, read by an instruction (R13, R25); n is the place of its free choice. -/
def Group.readV (G : Group) (n l r : Nat) : Word :=
  windowRead G.wins true (laneBit l) l r n ((G.lane l).v.get r 0)

/-- Uniform register r, read by a path (R13, R25). -/
def Group.readS (G : Group) (n : Nat) (mask : Word) (r : Nat) : Word :=
  windowRead G.wins false mask 0 r n (G.s.get r 0)

/-- What a write by another instruction does to the windows that cover its register: before the result is written the register
is marked, so that the result may or may not stand over it (R25). -/
def markWindows (ws : List Window) (thread : Bool) (mask : Word) (l r : Nat) : List Window :=
  ws.map fun w =>
    if w.dst.covers thread r && overlaps w.mask mask && !w.written then { w with hit := (l * 1024 + r) :: w.hit } else w

/-- Whether a write falls after the result of an open window has been written: then either value may stand (R25). -/
def windowKeeps (ws : List Window) (thread : Bool) (mask : Word) (l r n : Nat) : Bool :=
  ws.any (fun w => w.dst.covers thread r && overlaps w.mask mask && w.written) && Config.pick n (l * 1024 + r)

/-- Writing thread register r of lane l by an instruction (R25). -/
def Group.writeV (G : Group) (n l r : Nat) (x : Word) : Group :=
  if windowKeeps G.wins true (laneBit l) l r n then G
  else { G.updLane l fun t => { t with v := t.v.put r x } with wins := markWindows G.wins true (laneBit l) l r }

/-- Writing uniform register r by an instruction of a path (R25). -/
def Group.writeS (G : Group) (n : Nat) (mask : Word) (r : Nat) (x : Word) : Group :=
  if windowKeeps G.wins false mask 0 r n then G
  else { G with s := G.s.put r x, wins := markWindows G.wins false mask 0 r }

/-- Writing successive uniform registers. -/
def Group.writeSs (G : Group) (n : Nat) (mask : Word) (r : Nat) (xs : List Word) : Group :=
  (xs.zipIdx).foldl (fun G (x, i) => G.writeS n mask (r + i) x) G

/-- Setting TSR flags of a thread; flags are sticky (R17, R97). -/
def Thread.flag (t : Thread) (f : Word) : Thread := { t with tsr := t.tsr ||| f }

/-- Setting TSR flags in every thread of a mask (R109). -/
def Group.flagAll (G : Group) (mask : Word) (f : Word) : Group := G.updLanes (lanesOf mask) fun _ t => t.flag f

/-- Opening the window of a variable-latency instruction (R25): its destinations and the values they have. -/
def Group.openWindow (G : Group) (id : Nat) (mask : Word) (d : Dst) : Group :=
  let old : List LaneVal := match d with
    | .v b n => (lanesOf mask).map fun l => ⟨l, (List.range n).map fun i => (G.lane l).v.get (b + i) 0, 0, false⟩
    | .s b n => [⟨0, (List.range n).map fun i => G.s.get (b + i) 0, 0, false⟩]
  { G with wins := ⟨id, mask, d, old, false, []⟩ :: G.wins }

/-- A wait as W = 1 ends the windows of its threads (R25). -/
def Group.closeWindows (G : Group) (mask : Word) : Group :=
  { G with wins := G.wins.filterMap fun w =>
      if overlaps w.mask mask then
        (if w.mask &&& ~~~mask = 0 then none else some { w with mask := w.mask &&& ~~~mask })
      else some w }

/-- Starting a variable-latency result (R20, R24): its entry among the pending results, its window, its values where they are
known already. -/
def Group.start (G : Group) (id : Nat) (mask : Word) (pc : Word) (d : Dst) (vals : Option (List LaneVal)) : Group :=
  { G.openWindow id mask d with pend := G.pend ++ [⟨id, mask, pc, d, vals, none⟩] }

/-- Writing the registers of one lane's result, all or nothing (R32); a register that another instruction has written in the
window keeps either value (R25). -/
def Group.landLane (G : Group) (n : Nat) (w : Option Window) (d : Dst) (x : LaneVal) : Group :=
  if x.err then G
  else
    let skip (r : Nat) : Bool :=
      match w with
      | none => false
      | some w => w.hit.contains (x.lane * 1024 + r) && Config.pick n (x.lane * 1024 + r)
    match d with
    | .v b _ =>
      G.updLane x.lane fun t =>
        { t with v := (x.words.zipIdx).foldl (fun v (y, i) => if skip (b + i) then v else SMap.put v (b + i) y) t.v }
    | .s b _ =>
      { G with s := (x.words.zipIdx).foldl (fun s (y, i) => if skip (b + i) then s else SMap.put s (b + i) y) G.s }

/-- Writing a result back (R26, R32, R33): the registers, the TSR flags of each lane (of every thread of the instruction for a
uniform result), and the errors that wait for the threads' next wait. -/
def Group.land (G : Group) (n : Nat) (p : Pend) (vals : List LaneVal) : Group :=
  let w := G.wins.find? (·.id == p.id)
  let G : Group := vals.foldl (fun (G : Group) (x : LaneVal) => G.landLane n w p.dst x) G
  let G : Group := vals.foldl (fun (G : Group) (x : LaneVal) => if x.err then G else
    match p.dst with
    | .v _ _ => G.updLane x.lane (·.flag x.flags)
    | .s _ _ => G.flagAll p.mask x.flags) G
  let bad : Word := match p.dst with
    | .v _ _ => maskOf ((vals.filter fun (x : LaneVal) => x.err).map fun x => x.lane)
    | .s _ _ => if vals.any (fun (x : LaneVal) => x.err) then p.mask else 0
  { G with
    pend := G.pend.filter (·.id != p.id)
    wins := G.wins.map fun w => if w.id = p.id then { w with written := true } else w
    errs := if bad = 0 then G.errs else G.errs ++ [⟨bad, p.pc, 21⟩] }

/-! ## Rejoin and exit -/

/-- release_check of R161: when every named thread has arrived, the arrived ones go on past their joins. -/
def Group.releaseCheck (G : Group) (n : Nat) : Group :=
  let a := G.arr.get n 0
  if G.j.get n 0 &&& ~~~a = 0 ∧ a ≠ 0 then
    { G.updLanes (lanesOf a) fun _ t =>
        match t.st with
        | .join k pc => if k = n then { t with st := .ready, pc := pc + 4 } else t
        | _ => t with arr := G.arr.put n 0 }
  else G

/-- A thread exits or is killed (R162): it leaves every rejoin mask, and every mask is checked in ascending order. -/
def Group.exitLanes (G : Group) (mask : Word) : Group :=
  let G := G.updLanes (lanesOf mask) fun _ t => { t with st := .exited, hnd := false }
  let G := { G with
    j := G.j.map fun (k, m) => (k, m &&& ~~~mask)
    arr := G.arr.map fun (k, m) => (k, m &&& ~~~mask) }
  (List.range 8).foldl (fun G n => G.releaseCheck n) G

/-- The held range of thread registers (R14). -/
def Group.held (G : Group) : Nat := 32 + 16 * G.ext

/-! ## Records for the host -/

/-- A field at a bit position. -/
def fieldAt (v lo : Nat) : Nat := v * 2 ^ lo

/-- A record is held in a function's fault queue until it can be written (R413). -/
def State.holdFault (s : State) (vf : Nat) (r : Nat) : State :=
  s.updVf vf fun v => { v with fq := { v.fq with held := v.fq.held ++ [BitVec.ofNat 512 r] } }

/-- FIDs count from 1 and skip 0 (R412). -/
def nextFid (f : Nat) : Nat := if f + 1 = 2 ^ 32 then 1 else f + 1

/-- The next fault identifier of a function is taken by a party. -/
def State.takeFid (s : State) (vf : Nat) (p : Parked) : State × Nat :=
  let f := (s.vf vf).fid
  ({ s.updVf vf fun v => { v with fid := nextFid f } with faults := s.faults.put (vf * 2 ^ 32 + f) p }, f)

/-- The place of a group in a record (R412): core, die, partition and slot. -/
def placeBits (core part slot : Nat) : Nat :=
  fieldAt core 212 + fieldAt (dieOf core) 210 + fieldAt part 206 + fieldAt slot 203

/-- A trap record (R392, R400, R413). -/
def State.trapRecord (s : State) (vf lid core part slot src : Nat) (lmask fpc cause : Word) : State :=
  let (s, f) := s.takeFid vf .trap
  s.holdFault vf (fieldAt s.now 448 + fieldAt f 320 + fieldAt lid 288 + fieldAt lmask.toNat 256 + fieldAt fpc.toNat 224 +
    placeBits core part slot + fieldAt src 200 + fieldAt cause.toNat 114 + fieldAt fpc.toNat 146)

/-- A completion record is held in a function's completion ring (R449). -/
def State.holdDone (s : State) (vf lid code why : Nat) (late : Bool) : State :=
  s.updVf vf fun v => { v with cq := { v.cq with
    held := v.cq.held ++ [BitVec.ofNat 512 (fieldAt s.now 64 + fieldAt why 36 + fieldAt late.toNat 35 + fieldAt code 32 + lid)] } }

/-! ## The end of groups, teams and launches -/

/-- The teams of a launch that are placed or saved. -/
def State.teamsOf (s : State) (l : Nat) : List Nat := (s.teams.filter fun (_, t) => t.launch == l).map (·.1)

/-- Is a team saved (R420)? -/
def State.isSaved (s : State) (t : Nat) : Bool := match s.team? t with | some T => T.pre == .saved | none => false

/-- A group gives its held extended blocks back to its partition (R164, R168); the blocks of a saved group are back already. -/
def State.freeBlocks (s : State) (g : Nat) : State :=
  match s.group? g with
  | none => s
  | some G =>
    let s := if s.isSaved G.team then s
      else s.updPart G.core G.part fun p => { p with pool := p.pool + G.ext, rbq := p.rbq.filter (·.1 != g) }
    s.updGroup g fun G => { G with ext := 0, rbReq := false }

/-- A message from a group to the marshal of its convoy leaves (R264, R439): `within` is the number of ticks in which it arrives, if the
manual gives one. -/
def State.cvSend (s : State) (G : Group) (cv : Nat) (within : Option Nat) (m : CvMsg) : State :=
  { s with cvMsgs := s.cvMsgs ++ [⟨m, within.map (s.now + ·), dieOf G.core, cv / 256⟩] }

/-- An attached member leaves its convoy: CVM takes the cause at once, and the marshal is told, of a `cvleave` within 128 ticks (R267, R304). Of two events that meet a
member in one tick the later one of the list of causes is recorded. -/
def State.detach (s : State) (g cause : Nat) : State :=
  match s.group? g with
  | none => s
  | some G =>
    if G.cvm.state = 1 then
      (s.updGroup g fun G => { G with cvm := { G.cvm with state := 2, cause := cause, held := false }, cvAt := s.now }).cvSend G G.cvm.id
        (if cause = 3 then some 128 else none) (.leave g G.cvm.id)
    else if G.cvm.state = 2 ∧ G.cvAt = s.now ∧ G.cvm.cause < cause then
      s.updGroup g fun G => { G with cvm := { G.cvm with cause := cause } }
    else s

/-- Is a team's sequencer there to execute its next word: running, in no fault, in no wait, with no answer due (R345, R349, R358)? -/
def Team.seqLive (T : Team) : Bool :=
  T.seq.run == 1 && !T.seq.sflt && T.seq.wait.isNone && T.seq.fid.isNone && !T.seqStop && T.seq.chunks != 1

/-- Is a team stopping for pre-emption (R419)? -/
def State.stopping (s : State) (t : Nat) : Bool :=
  match s.team? t with | some T => T.pre != .none | none => false

/-- The address of the first recorded hint, or the instruction's own (R31). -/
def Hints.first (h : Hints) (pc : Word) : Word :=
  let as := (h.imm.toList ++ h.immhi.toList ++ h.modh.toList ++ h.nop.toList).map (·.1)
  as.foldl (fun a b => if b < a then b else a) pc

/-- The Ready threads of a group that its convoy holds are at a safe point, the full allotment live (R418). The context of a save lists no
recorded hints (R420): a thread goes on from the first of them, and records them again (log 60). -/
def State.stopReady (s : State) (g : Nat) : State :=
  s.updGroup g fun G =>
    { G with
      lanes := G.lanes.map fun (l, t) =>
        (l, if t.st = .ready then { t with st := .stopped, pc := t.hints.first t.pc, hints := Hints.clear } else t)
      hnd := G.hnd.map fun H => if H.trap.seq && H.ready then { H with halt := true } else H
      live := some (127, 1023, true, true) }

/-- The request reaches one team: an outstanding `rbacq` of its groups loses its place (R220), and a group that its convoy holds stops
(R418). -/
def State.askPreempt (s : State) (u : Nat) : State :=
  let s := s.updTeam u fun U => { U with pre := .asked s.now }
  match s.team? u with
  | none => s
  | some U => U.groups.foldl (fun s g => match s.group? g with
      | some G =>
        let s := s.updPart G.core G.part fun p => { p with rbq := p.rbq.filter (·.1 != g) }
        if G.cvm.held then s.stopReady g else s
      | none => s) s

/-- Pre-emption of a team is requested; a cluster is pre-empted whole (R419, R431). A team that is stopping or saved already is
unaffected. -/
def State.preempt (s : State) (t : Nat) : State :=
  match s.team? t with
  | none => s
  | some T =>
    if T.pre = .none then
      let of_ (u : Nat) (U : Team) : Bool := u == t || (U.launch == T.launch && U.cluster == T.cluster && U.cluster != 0)
      let ts := (s.teams.filter fun (u, U) => of_ u U && U.pre == .none).map (·.1)
      ts.foldl State.askPreempt s
    else s

/-- The commands that would complete on a tag of a saved team have none left to complete on, once the team is gone. -/
def State.dropCorrs (s : State) (t : Nat) : State :=
  { s with
    colls := s.colls.map fun (k, c) => (k, { c with corrs := c.corrs.filter fun x => x.tuid != t })
    dies := s.dies.map fun (k, D) => (k, { D with xcmds := D.xcmds.filter fun x => !(x.tuid == t && x.func == 15) }) }

/-- The launch identifier of a group's launch. -/
def State.lidOf (s : State) (G : Group) : Nat :=
  match s.team? G.team with
  | none => 0
  | some T => match s.launch? T.launch with | none => 0 | some L => L.r.lid

/-- A group has ended and leaves its place (R164, R400). -/
def State.passed (s : State) (g : Nat) : State :=
  match s.group? g with
  | some G => { s with past := s.past.put g ⟨G.vf, s.lidOf G, G.core, G.part, G.slot⟩ }
  | none => s

/-- Removing a team and its groups from the machine (R164, R392): ranges, slots and blocks are free again. -/
def State.dropTeam (s : State) (t : Nat) : State :=
  match s.team? t with
  | none => s
  | some T =>
    let s := if T.pre = .saved then s.dropCorrs t else s
    let s := T.groups.foldl (fun s g => ((s.passed g).detach g 2).freeBlocks g) s
    { s with
      groups := s.groups.filter fun (k, G) => !(T.groups.contains k) || (G.ended && !G.acc.isEmpty)
      teams := s.teams.del t
      txns := s.txns.filter fun x => x.2.who != .start t }

/-- Was a launch still Running at its deadline (R180)? -/
def Launch.isLate (L : Launch) (now : Nat) : Bool :=
  L.late || (match L.ran, L.dl with | some r, some d => decide (r ≤ d) && decide (d ≤ now) | _, _ => false)

/-- One launch goes to Failed (R178): its teams stop, its record is posted. -/
def State.failOne (s : State) (l why : Nat) : State :=
  match s.launch? l with
  | none => s
  | some L =>
    if L.st = .ended ∨ L.st = .failed ∨ L.st = .rejected then s
    else
      let s := (s.teamsOf l).foldl State.dropTeam s
      (s.updLaunch l fun L => { L with st := .failed }).holdDone L.vf L.r.lid 2 why (L.isLate s.now)

/-- A launch whose dependence has failed fails in turn (R179); the fuel is the number of launches. -/
def State.failDeps : Nat → State → State
  | 0, s => s
  | n + 1, s =>
    let failed (k : Nat) : Bool := match s.launch? k with | some L => L.st == .failed | none => false
    match List.find? (fun (x : Nat × Launch) => x.2.st == .waiting && x.2.wait.any failed) s.launches with
    | none => s
    | some (k, _) => State.failDeps n (s.failOne k 1)

/-- A launch goes to Failed, with those that depend on it (R178, R179). -/
def State.failLaunch (s : State) (l why : Nat) : State :=
  let s := s.failOne l why
  State.failDeps s.launches.length s

/-- A launch's dependence has ended: those that waited for it alone become eligible (R179). -/
def State.satisfy (s : State) (l : Nat) : State :=
  { s with launches := s.launches.map fun (k, L) =>
      if L.st = .waiting ∧ L.wait.contains l then
        let w := L.wait.filter (· != l)
        (k, { L with wait := w, st := if w.isEmpty then .eligible else .waiting, since := s.now })
      else (k, L) }

/-- The number of teams of a launch (R154). -/
def LaunchRec.teams (r : LaunchRec) : Nat := r.gx * r.gy * r.gz

/-- A team has ended (R164): its launch ends when it was the last. -/
def State.endTeam (s : State) (t : Nat) : State :=
  match s.team? t with
  | none => s
  | some T =>
    let s := s.dropTeam t
    let s := s.updLaunch T.launch fun L => { L with ended := L.ended + 1 }
    match s.launch? T.launch with
    | none => s
    | some L =>
      if L.st = .running ∧ L.ended = L.r.teams then
        let s := (s.updLaunch T.launch fun L => { L with st := .ended }).holdDone L.vf L.r.lid 1 0 (L.isLate s.now)
        s.satisfy T.launch
      else s

/-- Has every group of a team ended? -/
def State.groupsEnded (s : State) (T : Team) : Bool :=
  T.groups.all fun g => match s.group? g with | some G => G.ended | none => true

/-- A team ends when its groups have ended and its sequencer, if it has one, has executed `mend` (R164). Its tag range is free again once the
commands on it have completed, which the counts of its tags tell (R321). -/
def State.checkTeam (s : State) (t : Nat) : State :=
  match s.team? t with
  | none => s
  | some T => if s.groupsEnded T && (T.seq.run == 0 || T.seq.run == 3) then s.endTeam t else s

/-- A team is reported lost: its launch fails (R178, R396, R403). -/
def State.loseTeam (s : State) (t : Nat) : State :=
  match s.team? t with
  | none => s
  | some T => s.failLaunch T.launch 2

/-! ## Barriers, tags and waking -/

/-- The status word of an engine object as a group of a function reads it (R194, R450, R467). -/
def State.eventWord (s : State) (vf : Nat) (asy : Bool) (die obj : Nat) : Word :=
  if asy then
    let a := s.assay die obj
    if a.ast &&& 1 != 0 && a.owner == vf then a.ast else 0
  else
    let c := s.coll obj
    if die = obj / 64 ∧ c.owner = vf then c.dst else 0

/-- A byte of a place, from memory or from a bank. -/
def State.byteAt (s : State) : Loc → Byte
  | .glob _ pa => SMap.get s.mem pa 0
  | .spad c a => SMap.get (s.core c).spad a 0
  | .obuf c a => SMap.get (s.core c).obuf a 0
  | .peer _ => 0

/-- Bytes as a little-endian number (R8). -/
def leNat : List Byte → Nat
  | [] => 0
  | b :: bs => b.toNat + 256 * leNat bs

/-- A number as n little-endian bytes (R8). -/
def leBytes : Nat → Nat → List Byte
  | 0, _ => []
  | n + 1, x => BitVec.ofNat 8 x :: leBytes n (x / 256)

/-- The comparisons of a kind 2 condition (R194): 0–5 as i32, 8–13 as n32. -/
def waitCompare (cond : Nat) (a b : Word) : Bool :=
  match cond with
  | 0 => a == b
  | 1 => a != b
  | 2 => a.slt b
  | 3 => a.sle b
  | 4 => b.slt a
  | 5 => b.sle a
  | 8 => a == b
  | 9 => a != b
  | 10 => a.ult b
  | 11 => a.ule b
  | 12 => b.ult a
  | 13 => b.ule a
  | _ => false

/-- Barrier object b of a team (R198), from its eight bytes at the top of the team's scratchpad range. -/
def State.bar (s : State) (T : Team) (b : Nat) : Bar :=
  let x := leNat ((List.range 8).map fun i => s.byteAt (.spad T.core (T.spadB + (T.spadN - 256) + 8 * b + i)))
  ⟨x / 2 ^ 32 % 2 ^ 16, x / 2 ^ 31 % 2 == 1, x % 2 ^ 16⟩

/-- The eight bytes of a barrier object, as a number. -/
def Bar.bits (b : Bar) : Nat := b.exp * 2 ^ 32 + b.phase.toNat * 2 ^ 31 + b.pend

/-- Writing a barrier object. -/
def State.setBar (s : State) (T : Team) (b : Nat) (x : Bar) : State :=
  let a := T.spadB + (T.spadN - 256) + 8 * b
  s.updCore T.core fun c =>
    { c with spad := ((leBytes 8 x.bits).zipIdx).foldl (fun m (y, i) => SMap.set m (a + i) y 0) c.spad }

/-- Does a kind 2 word that has been read meet its comparison: every byte is there, and no sector failed its check (R194, R196)? -/
def Poll.holds (p : Poll) (cond : Nat) (cmp : Word) : Bool :=
  !p.bad && p.got.length == 4 && waitCompare cond (BitVec.ofNat 32 (leNat (p.got.map (·.2)))) cmp

/-- Does one condition of a `wait` hold now (R194)? -/
def State.condHolds (s : State) (g : Nat) (G : Group) : WCond → Bool
  | .tags any m =>
    let t := (s.core G.core).tags &&& m
    if any then t != 0 else t == m
  | .bar b ph => match s.team? G.team with | some T => (s.bar T b).phase == ph | none => false
  | .mem locs cond cmp p =>
    match locs with
    | none => waitCompare cond 0 cmp
    | some (.glob _ _ :: _) => p.holds cond cmp
    | some ls => waitCompare cond (BitVec.ofNat 32 (leNat (ls.map s.byteAt))) cmp
  | .cvSelf => G.cvm.state != 1
  | .cvId id => !(s.groups.any fun (k, H) => H.cvm.state == 1 && H.cvm.id == id && k != g) && !(G.cvm.state == 1 && G.cvm.id == id)
  | .event asy die obj m => s.eventWord G.vf asy die obj &&& m != 0

/-- The mask of the conditions of a `wait` that hold now (R196). -/
def State.waitMask (s : State) (g : Nat) (G : Group) (cs : List WCond) : Word :=
  (cs.zipIdx).foldl (fun m (c, i) => if s.condHolds g G c then m ||| laneBit i else m) 0

/-- The tags through which a wait's conditions are satisfied (R284, R320). -/
def observedTags (core : Core) (cs : List WCond) (m : Word) : DWord :=
  (cs.zipIdx).foldl (fun t (k, i) => match k with
    | .tags _ x => if m.getLsbD i then t ||| (core.tags &&& x) else t
    | _ => t) 0

/-- The largest completion time of some tags. -/
def tagTimes (core : Core) (tags : DWord) : Nat :=
  (List.range 64).foldl (fun t i => if tags.getLsbD i then max t (core.tagTime.get i 0) else t) 0

/-- The completion time that the satisfied conditions report (R284). -/
def State.reported (s : State) (G : Group) (cs : List WCond) (m : Word) : Nat :=
  let c := s.core G.core
  (cs.zipIdx).foldl (fun t (k, i) => match k with
    | .event asy die o _ => if m.getLsbD i then max t (if asy then (s.assay die o).comp else (s.coll o).comp) else t
    | _ => t) (tagTimes c (observedTags c cs m))

/-- A blocked path is satisfied at an instant: the word that it returns, the tick, and the completion time of what it observes (R196,
R219, R284). What holds at later instants of the same tick is observed with it. -/
def Block.hit (b : Block) (now : Nat) (w : Word) (comp : Nat) (terr : Bool) : Block :=
  { b with met := some (b.met.getD 0 ||| w), at_ := now, comp := max b.comp comp, terr := b.terr || terr }

/-- The evaluation of one blocked path at an instant (R196, R216, R218). -/
def State.evalBlock (s : State) (g : Nat) (G : Group) (b : Block) : Block :=
  if b.met.isSome && b.at_ != s.now then b
  else
    match b.cond with
    | .wait _ cs all_ _ _ =>
      let m := s.waitMask g G cs
      if (if all_ then m == BitVec.ofNat 32 (2 ^ cs.length - 1) else m != 0) then
        b.hit s.now m (s.reported G cs m) (observedTags (s.core G.core) cs m &&& (s.core G.core).terr != 0) else b
    | .barw bar ph =>
      match s.team? G.team with
      | some T => if (s.bar T bar).phase = ph then b.hit s.now 0 0 false else b
      | none => b
    | .tag m all_ =>
      let t := (s.core G.core).tags &&& m
      if (if all_ then t == m else t != 0) then b.hit s.now 0 (tagTimes (s.core G.core) t) (t &&& (s.core G.core).terr != 0) else b
    | _ => b

/-- An evaluation instant (R196): every blocked path is looked at, and those that are satisfied are marked. Called at every
change of a tag, a barrier, CVM, a convoy, an engine's status or memory. -/
def State.wake (s : State) : State :=
  { s with groups := s.groups.map fun (k, G) =>
      (k, if G.blk.isEmpty then G else { G with blk := G.blk.map fun b => s.evalBlock k G b }) }

/-- A completed barrier or tag separates the writes of a team's operand range before it from the matrix words after it (R348). -/
def State.settleObuf (s : State) (T : Team) : State :=
  if (s.core T.core).obOld.isEmpty then s
  else s.updCore T.core fun c => { c with obOld := c.obOld.filter fun x => x.1 < T.obufB || T.obufB + T.obufN ≤ x.1 }

/-- An arrival at a barrier object with a count (R199): PEND falls, and at 0 or below PHASE inverts and PEND is EXP again; the
paths in `barx` on it are then satisfied (R216). -/
def State.arrive (s : State) (t bar c : Nat) : State :=
  match s.team? t with
  | none => s
  | some T =>
    let b := s.bar T bar
    if c = 0 then s
    else if b.pend ≤ c then
      let s := (s.setBar T bar { b with phase := !b.phase, pend := b.exp }).settleObuf T
      let s := T.groups.foldl (fun s g => s.updGroup g fun G =>
        { G with blk := G.blk.map fun k => if k.cond = .barx bar ∧ k.met = none then k.hit s.now 0 0 false else k }) s
      s.wake
    else s.setBar T bar { b with pend := b.pend - c }

/-- A command completes on a tag (R319, R320): the count falls, the bit is set at zero, an error sets TERR; the completion time
is reported (R283). -/
def State.tagDone (s : State) (core tag c : Nat) (err : Bool) : State :=
  (s.updCore core fun x =>
    let n := x.tagCnt.get tag 0 - 1
    { x with
      tagCnt := x.tagCnt.put tag n
      tagTime := x.tagTime.put tag (max (x.tagTime.get tag 0) c)
      tags := if n = 0 then x.tags ||| ((1 : DWord) <<< tag) else x.tags
      terr := if err then x.terr ||| ((1 : DWord) <<< tag) else x.terr }).wake

/-- A command is accepted on a tag (R319). -/
def State.tagTake (s : State) (core tag : Nat) : State :=
  s.updCore core fun x =>
    { x with tagCnt := x.tagCnt.put tag (x.tagCnt.get tag 0 + 1), tags := x.tags &&& ~~~((1 : DWord) <<< tag) }

/-! ## Taking a trap -/

/-- The cause word of R393. -/
def causeWord (cls detail info : Nat) : Word := BitVec.ofNat 32 (info % 65536 * 65536 + detail * 256 + cls)

/-- A trap is raised in a group (R385, R386, R388, R392). The failing threads leave their path and are parked at `e.pc`; the trap
waits in the group's queue for the handler. Without a handler, or within the handler path, the launch fails with a trap record. -/
def State.raise (s : State) (g : Nat) (inHandler : Bool) (e : TrapEntry) : State :=
  match s.group? g with
  | none => s
  | some G =>
    let s := s.updGroup g fun G =>
      { G.updLanes (lanesOf e.mask) fun _ t => { t with st := .trapped, pc := e.pc, hints := Hints.clear } with
        trapQ := G.trapQ ++ [e] }
    if inHandler || (s.vf G.vf).hcl == 0 then
      let s := s.trapRecord G.vf (s.lidOf G) G.core G.part G.slot (if e.seq then 2 else 0) e.mask e.fpc e.cause
      match s.team? G.team with
      | none => s
      | some T => s.failLaunch T.launch (if inHandler then 6 else 4)
    else s

/-- The lowest-numbered group of a team that has not ended (R396). -/
def State.firstGroup (s : State) (T : Team) : Option Nat :=
  T.groups.find? fun g => match s.group? g with | some G => !G.ended | none => false

/-- A matrix-stream fault (R349, R396): the sequencer stops in front of the word, SFLT is set, and the trap waits in the
lowest-numbered group that has not ended; a team with no such group is lost. -/
def State.seqFault (s : State) (t : Nat) (detail info : Nat) : State :=
  match s.team? t with
  | none => s
  | some T =>
    let s := s.updTeam t fun T => { T with seq := { T.seq with sflt := true, wait := none } }
    match s.firstGroup T with
    | none => s.loseTeam t
    | some g => s.raise g false ⟨0, 0, T.seq.mpc, 0, causeWord 7 detail info, true⟩

/-- The fault of a team's stream whose group has ended goes to the next group, or the team is lost (R396). -/
def State.seqHandOver (s : State) (t : Nat) (e : TrapEntry) : State :=
  match s.team? t with
  | none => s
  | some T =>
    match s.firstGroup T with
    | none => s.loseTeam t
    | some g => s.raise g false e

/-- The trap whose handler runs in the group, and those that wait for it (R388). -/
def Group.traps (G : Group) : List TrapEntry := (match G.hnd with | some H => [H.trap] | none => []) ++ G.trapQ

/-- A group whose threads have all exited ends (R164, R223): its slot and blocks return, group 0's records stay with the team
(R356), and a write error that comes too late becomes a record (R400). A matrix-stream fault that it was to serve passes on (R396). -/
def State.checkGroup (s : State) (g : Nat) : State :=
  match s.group? g with
  | none => s
  | some G =>
    if G.liveMask = 0 ∧ G.ended = false then
      let s := s.detach g 2
      let s := s.freeBlocks g
      let s := s.updGroup g fun G => { G with ended := true, hnd := none, trapQ := [] }
      let s := if G.idx = 0 then s.updTeam G.team fun T => { T with recs0 := some G.b } else s
      match G.traps.find? (·.seq) with
      | some e => s.seqHandOver G.team e
      | none => s.checkTeam G.team
    else s

end Sys2Proof.Machine
end

