-- ==== Sys2Proof/Machine/Operands.lean ====
section
/-! DEFINITION. What an instruction asks of its issue: its switch marker and latency (R23, R24), the mode it needs (R58), the
hints that are legal for it (R29, R74) and the registers it names (R14); and its operands, hints included (R63, R98). -/

namespace Sys2Proof.Machine

/-- Registers that an instruction names: `n` thread registers from `b`, or uniform registers, with the alignment that the
field asks for (R14, R58 step 8). -/
inductive Use where
  | v (b n align : Nat)
  | s (b n align : Nat)
  deriving DecidableEq, Repr

/-- What an instruction asks of its issue. `mods` masks the modifier bits that are legal for it and `ords` the ordering
values; `noHint` forbids every hint but nop; `fill` tells that it reads the fill register of its mod hint (R73). -/
structure Info where
  w        : Bool := false
  var      : Bool := false
  blocking : Bool := false
  handler  : Bool := false
  priv     : Bool := false
  imm      : Bool := false
  immhi    : Bool := false
  noHint   : Bool := false
  fill     : Bool := false
  mods     : Nat := 0
  ords     : List Nat := [0]
  regs     : List Use := []
  deriving DecidableEq, Repr

/-- Bits of the mod payload (R73). -/
def modSCP : Nat := 0xF
/-- Ordering, bits 5:4. -/
def modORD : Nat := 0x30
/-- Width, bit 6. -/
def modWID : Nat := 0x40
/-- Rounding, bits 8:7. -/
def modRND : Nat := 0x180
/-- Predicate select, bits 11:9. -/
def modPSEL : Nat := 0xE00
/-- Fill register, bits 18:12. -/
def modFILL : Nat := 0x7F000
/-- TSR clear, bit 19. -/
def modCLR : Nat := 0x80000
/-- Lease class 3, bit 20. -/
def modLC3 : Nat := 0x100000

/-- A one-bit field. -/
def flag1 (w : BitVec 1) : Bool := w == 1

/-- A field of the recorded mod payload; 0 without one (R73, R75). -/
def Hints.field (h : Hints) (lo n : Nat) : Nat :=
  match h.modh with
  | none => 0
  | some (_, p) => p.toNat / 2 ^ lo % 2 ^ n

/-- The scope code of the mod hint. -/
def Hints.scp (h : Hints) : Nat := h.field 0 4
/-- The ordering code of the mod hint. -/
def Hints.ord (h : Hints) : Nat := h.field 4 2
/-- The width bit of the mod hint. -/
def Hints.wide (h : Hints) : Bool := h.field 6 1 == 1
/-- The rounding direction of the mod hint. -/
def Hints.rnd (h : Hints) : Rnd := Rnd.ofCode (h.field 7 2)
/-- The predicate of the mod hint. -/
def Hints.psel (h : Hints) : Nat := h.field 9 3
/-- The fill register of the mod hint. -/
def Hints.fill (h : Hints) : Nat := h.field 12 7
/-- The TSR clear bit of the mod hint. -/
def Hints.clr (h : Hints) : Bool := h.field 19 1 == 1
/-- The lease bit of the mod hint. -/
def Hints.lc3 (h : Hints) : Bool := h.field 20 1 == 1

/-- The widened immediate of R29, if a hint gives one. -/
def Hints.value (h : Hints) : Option Word :=
  match h.immhi, h.imm with
  | none, none => none
  | none, some (_, i) => some (i.signExtend 32)
  | some (_, x), none => some ((x.setWidth 32) <<< 24)
  | some (_, x), some (_, i) => some (((x.setWidth 32) <<< 24) ||| i.setWidth 32)

/-- The immediate of an instruction: the widened value, or its field as extended (R29, R63, R98). -/
def Hints.immOr (h : Hints) (field : Word) : Word := h.value.getD field

/-- The element offset of a memory form: the imm hint's signed value, else 0 (R66, R122). -/
def Hints.offset (h : Hints) : Int :=
  match h.imm with
  | none => 0
  | some (_, i) => i.toInt

/-- Is some recorded hint illegal for the instruction (R29, R73, R74)? A mod hint whose payload is all zero sets nothing, and is legal on every
instruction that no rule bars from hints (R73, log 61). -/
def Info.hintBad (i : Info) (h : Hints) : Bool :=
  (match h.nop with | none => false | some (_, p) => p != 0) ||
  (i.noHint && (h.imm.isSome || h.immhi.isSome || h.modh.isSome)) ||
  (h.imm.isSome && !i.imm) ||
  (match h.immhi with | none => false | some (_, p) => !i.immhi || p.toNat / 2 ^ 8 != 0) ||
  (match h.modh with
   | none => false
   | some (_, p) =>
     p.toNat / 2 ^ 21 != 0 || p.toNat % 16 > 10 || p.toNat &&& (0xFFFFFF - i.mods) != 0 ||
     !i.ords.contains (p.toNat / 16 % 4))

/-- Is a register use within the held range, or s0–s1023, and aligned (R14, R58 step 8)? -/
def Use.ok (held : Nat) : Use → Bool
  | .v b n a => b % a == 0 && b + n ≤ held
  | .s b n a => b % a == 0 && b + n ≤ 1024

/-- The registers that an instruction reads or writes, the fill register of its mod hint among them (R25, R73). -/
def Info.uses (i : Info) (h : Hints) : List Use := if i.fill then .s h.fill 1 1 :: i.regs else i.regs

/-- Does a register use meet the destination of an open window (R27)? -/
def Use.meets (u : Use) (d : Dst) : Bool :=
  match u, d with
  | .v b n _, .v b' n' => b < b' + n' && b' < b + n
  | .s b n _, .s b' n' => b < b' + n' && b' < b + n
  | _, _ => false

/-- The thread ALU forms (R98): VR names three thread registers. -/
def infoVR (w : BitVec 1) (d a b : BitVec 7) (k : Nat := 1) : Info :=
  { w := flag1 w, regs := [.v d.toNat k k, .v a.toNat k k, .v b.toNat k k] }

/-- VS names a uniform register s0–s127 as third operand (R15). -/
def infoVS (w : BitVec 1) (d a s : BitVec 7) (k : Nat := 1) : Info :=
  { w := flag1 w, regs := [.v d.toNat k k, .v a.toNat k k, .s s.toNat k k] }

/-- VI takes imm7, which imm and immhi hints may widen (R40). -/
def infoVI (w : BitVec 1) (d a : BitVec 7) (k : Nat := 1) : Info :=
  { w := flag1 w, imm := true, immhi := true, regs := [.v d.toNat k k, .v a.toNat k k] }

/-- A form with one destination and one source thread register. -/
def infoV2 (w : BitVec 1) (d a : BitVec 7) : Info :=
  { w := flag1 w, regs := [.v d.toNat 1 1, .v a.toNat 1 1] }

/-- A form with one thread register. -/
def infoV1 (w : BitVec 1) (d : BitVec 7) : Info := { w := flag1 w, regs := [.v d.toNat 1 1] }

/-- The SR forms: destination and source uniform registers (R62). -/
def infoS2 (w : BitVec 1) (d a : BitVec 10) (k : Nat := 1) : Info :=
  { w := flag1 w, regs := [.s d.toNat k k, .s a.toNat k k] }

/-- A form with one run of uniform registers. -/
def infoS1 (w : BitVec 1) (d : BitVec 10) (n align : Nat) : Info := { w := flag1 w, regs := [.s d.toNat n align] }

/-- A form with no register. -/
def infoNone (w : BitVec 1) : Info := { w := flag1 w }

/-- No hint but nop may stand before the instruction (R116, R224, R302, R306, R379, R423). -/
def Info.bare (i : Info) : Info := { i with noHint := true }
/-- The instruction waits as W = 1 does before it takes effect (R26). -/
def Info.block (i : Info) : Info := { i with blocking := true }
/-- The instruction is of variable latency (R24). -/
def Info.late (i : Info) : Info := { i with var := true }
/-- Modifier bits are legal on the instruction (R74). -/
def Info.allow (i : Info) (m : Nat) : Info := { i with mods := i.mods ||| m }

/-- The VI immediate: imm7, sign-extended, or the widened value (R98). -/
def imm7 (h : Hints) (i : BitVec 7) : Word := h.immOr (i.signExtend 32)

end Sys2Proof.Machine
end

