-- ==== Sys2Proof/Machine/Issue.lean ====
section
/-! DEFINITION. The issue of one instruction by a path (R20 to R34, R58, R157, R385): who issues, the waits, the checks in their
order, the trap where one fails, and the advance of the PC where none does. Every instruction of a thread stream goes through
`issue`. -/

namespace Sys2Proof.Machine

/-- What a meaning answers. -/
abbrev Result := Host.Outcome State Fault Refusal

/-- The issuing path (R157): its group, whether it is the handler path, its PC, its threads, their recorded hints, the address
that a trap reports (R31), and the place of its free values (log 2). -/
structure Ctx where
  g     : Nat
  G     : Group
  h     : Bool
  pc    : Word
  mask  : Word
  hints : Hints
  first : Word
  n     : Nat
  deriving DecidableEq, Repr

/-- The recorded hints of a path: those of its lowest lane; a path without lanes keeps its own (R396). -/
def Group.pathHints (G : Group) (mask : Word) : Hints :=
  match lanesOf mask with
  | l :: _ => (G.lane l).hints
  | [] => match G.hnd with | some H => H.hints | none => Hints.clear

/-- Is a thread Ready on a path (R157)? -/
def Thread.on (t : Thread) (h : Bool) (pc : Word) : Bool := t.st == .ready && t.hnd == h && t.pc == pc

/-- Is a path still there to issue: its threads Ready at its PC, or, for the handler path of a matrix-stream fault, the handler
ready at it (R396)? -/
def Group.pathLive (G : Group) (h : Bool) (pc mask : Word) : Bool :=
  !G.ended &&
  if mask = 0 then h && (match G.hnd with | some H => H.trap.seq && H.ready && !H.halt && H.pc == pc | none => false)
  else (lanesOf mask).all fun l => (G.lane l).on h pc

/-- The issuing path, if `cur` names one that is there. -/
def State.context? (s : State) : Option Ctx :=
  match s.cur with
  | .path g h pc mask =>
    match s.group? g with
    | none => none
    | some G =>
      if G.pathLive h pc mask then
        let hs := G.pathHints mask
        some ⟨g, G, h, pc, mask, hs, hs.first pc, s.fresh⟩
      else none
  | _ => none

/-- The lowest active lane (R110, R111). -/
def Ctx.low (c : Ctx) : Nat := (lanesOf c.mask).headD 0

/-- Reading a thread register of one lane. -/
def Ctx.rv (c : Ctx) (l r : Nat) : Word := c.G.readV c.n l r
/-- Reading a uniform register. -/
def Ctx.rs (c : Ctx) (r : Nat) : Word := c.G.readS c.n c.mask r
/-- Reading a pair of thread registers (R77). -/
def Ctx.rv2 (c : Ctx) (l r : Nat) : DWord := c.rv l (r + 1) ++ c.rv l r
/-- Reading a pair of uniform registers (R77). -/
def Ctx.rs2 (c : Ctx) (r : Nat) : DWord := c.rs (r + 1) ++ c.rs r
/-- Reading n uniform registers. -/
def Ctx.rsn (c : Ctx) (r n : Nat) : List Word := (List.range n).map fun i => c.rs (r + i)
/-- Reading four uniform registers as 128 bits (R119, R230). -/
def Ctx.rs4 (c : Ctx) (r : Nat) : QWord := c.rs (r + 3) ++ c.rs (r + 2) ++ c.rs (r + 1) ++ c.rs r

/-- Does a path have a result that is not written (R20, R23)? -/
def Group.waits (G : Group) (mask : Word) : Bool := G.pend.any fun p => overlaps p.mask mask

/-- Has some thread of a path sixteen results that are not written (R20)? -/
def Group.full (G : Group) (mask : Word) : Bool :=
  (lanesOf mask).any (fun l => (G.pend.filter fun p => p.mask.getLsbD l).length ≥ 16) ||
  (mask == 0 && (G.pend.filter fun p => p.mask == 0).length ≥ 16)

/-- The late errors of a path, in the order in which they came: those that stay with other threads, and those that its own threads take
(R33). -/
def splitErrs (mask : Word) (es : List LateErr) : List LateErr × List LateErr :=
  (es.filterMap fun e =>
     if !(overlaps e.mask mask) then some e
     else if e.mask &&& ~~~mask = 0 then none else some { e with mask := e.mask &&& ~~~mask },
   (es.filter fun e => overlaps e.mask mask).map fun e => { e with mask := e.mask &&& mask })

/-- Delivering the late errors of a path at its wait (R33): each parks its threads at the waiting instruction. -/
def State.deliver (s : State) (c : Ctx) : State :=
  let r := splitErrs c.mask c.G.errs
  r.2.foldl (fun s e => s.raise c.g c.h ⟨e.mask, c.first, e.fpc, c.first, causeWord 6 e.detail 0, false⟩)
    (s.updGroup c.g fun G => { G with errs := r.1 })

/-- Has the path a late error (R33)? -/
def Group.late (G : Group) (mask : Word) : Bool := G.errs.any fun e => overlaps e.mask mask

/-- A precise trap of some threads of the issuing path (R31, R385). The skip PC is the word after the instruction (R391). -/
def State.trapLanes (s : State) (c : Ctx) (m : Word) (cls detail info : Nat) : State :=
  s.raise c.g c.h ⟨m, c.first, c.first, c.pc + 4, causeWord cls detail info, false⟩

/-- A precise trap of the whole path (R385). -/
def State.trapAt (s : State) (c : Ctx) (cls detail : Nat) (info : Nat := 0) : State := s.trapLanes c c.mask cls detail info

/-- Moving the threads of the issuing path that are still Ready to a new PC, their hints cleared (R20, R28). -/
def Group.moveTo (G : Group) (mask : Word) (f : Nat → Thread → Word) : Group :=
  if mask = 0 then
    { G with hnd := G.hnd.map fun H => { H with pc := f 0 { Thread.init with pc := H.pc }, hints := Hints.clear } }
  else
    G.updLanes (lanesOf mask) fun l t => if t.st = .ready then { t with pc := f l t, hints := Hints.clear } else t

/-- The instruction has issued: the next word of the path follows (R20), and its place of free values is used up. -/
def State.retire (s : State) (c : Ctx) : State :=
  (s.updGroup c.g fun G => G.moveTo c.mask fun _ t => t.pc + 4).draw 1

/-- Each thread of the path goes on at an address of its own (R114). -/
def State.goto (s : State) (c : Ctx) (f : Nat → Thread → Word) : State :=
  (s.updGroup c.g fun G => G.moveTo c.mask f).draw 1

/-- Is a group in privileged mode on this path (R423)? -/
def State.privileged (s : State) (c : Ctx) : Bool := (s.vf c.G.vf).priv && !c.h

/-- Steps 5 to 8 of R58, and the hazard check of R27: the class and detail of the first that fails. A blocking instruction waits as W = 1
does before it takes effect (R26), so that nothing it names is unpredictable to it. -/
def Info.check (i : Info) (c : Ctx) (s : State) : Option (Nat × Nat) :=
  if i.handler && !c.h then some (1, 4)
  else if i.priv && !(s.privileged c) then some (2, 0)
  else if i.hintBad c.hints then some (1, 0)
  else if i.regs.any (fun u => !(u.ok c.G.held)) then some (3, 0)
  else if s.hazard && !i.blocking &&
      c.G.wins.any (fun w => overlaps w.mask c.mask && (i.uses c.hints).any fun u => u.meets w.dst) then some (1, 5)
  else none

/-- The path has waited for its results: its windows are closed (R25). -/
def State.waited (s : State) (c : Ctx) : State := s.updGroup c.g fun G => G.closeWindows c.mask
/-- The same for the issuing path as the instruction sees it. -/
def Ctx.waited (c : Ctx) : Ctx := { c with G := c.G.closeWindows c.mask }

/-- From the checks of R58 on, the waiting of R23 done: the instruction traps, waits (R20, R26), or takes its effect `k`. -/
def issueChecked (i : Info) (k : Ctx → State → State) (c : Ctx) (s : State) : State :=
  match i.check c s with
  | some (cls, detail) => s.trapAt c cls detail
  | none =>
    if i.blocking && c.G.waits c.mask then s
    else if i.blocking && c.G.late c.mask then s.deliver c
    else if i.var && c.G.full c.mask then s
    else if i.blocking then k c.waited (s.waited c) else k c s

/-- The loop of R20 for one instruction: with W = 1 it waits for every earlier result and takes the errors that came late. -/
def issueOne (i : Info) (k : Ctx → State → State) (c : Ctx) (s : State) : State :=
  if i.w then
    if c.G.waits c.mask then s
    else if c.G.late c.mask then s.deliver c
    else issueChecked i k c.waited (s.waited c)
  else issueChecked i k c s

/-- Have all threads of the issuing path the same recorded hints (R28)? -/
def Ctx.alike (c : Ctx) : Bool := (lanesOf c.mask).all fun l => (c.G.lane l).hints == c.hints

/-- The classes of equal recorded hints among some lanes, the lowest lane first; the fuel is the number of lanes. -/
def Group.hintClasses (G : Group) : Nat → List Nat → List Word
  | 0, _ => []
  | _, [] => []
  | n + 1, l :: ls =>
    let same := ls.filter fun k => (G.lane k).hints == (G.lane l).hints
    maskOf (l :: same) :: Group.hintClasses G n (ls.filter fun k => !(same.contains k))

/-- The part of the issuing path that has one class of hints, as it stands in a state: none where it is no longer there. -/
def Ctx.class_ (c : Ctx) (s : State) (m : Word) : Option Ctx :=
  (s.group? c.g).bind fun G =>
    if G.pathLive c.h c.pc m then
      let hs := G.pathHints m
      some { c with G := G, mask := m, hints := hs, first := hs.first c.pc, n := s.fresh }
    else none

/-- Does an issue wait: for the results of its threads (R23, R26), or for the pending limit (R20)? -/
def Info.held (i : Info) (c : Ctx) : Bool :=
  ((i.w || i.blocking) && c.G.waits c.mask) || (i.var && c.G.full c.mask)

/-- Each class of equal hints of the issuing path in turn, the class of the lowest lane first. -/
def Ctx.eachClass (c : Ctx) (f : Ctx → State → State) (s : State) : State :=
  (c.G.hintClasses 32 (lanesOf c.mask)).foldl (fun s m => match c.class_ s m with | some d => f d s | none => s) s

/-- What a path does to itself, each thread with its own recorded hints (R28, R157): the path as a whole where they are the same, each class of
equal hints in turn where they are not (log 41). -/
def State.eachHints (s : State) (c : Ctx) (f : Ctx → State → State) : State := if c.alike then f c s else c.eachClass f s

/-- Delivering the late errors of a path: each thread is parked at its own first hint (R31, R33). -/
def State.deliverAll (s : State) (c : Ctx) : State := s.eachHints c fun d s => s.deliver d

/-- The check of the instruction that fails for some class of a path (R385: it fails every thread of the path together). -/
def Ctx.checkAny (c : Ctx) (i : Ctx → Info) (s : State) : Option (Nat × Nat) :=
  (c.G.hintClasses 32 (lanesOf c.mask)).findSome? fun m =>
    (c.class_ s m).bind fun d => (i d).check (if (i d).w then d.waited else d) s

/-- One issue of a path whose threads have different recorded hints. Threads of equal PC are one path, and issue together (R157); each
hint applies to its own thread (R28). The waits are those of the path, and a check that fails fails all of it (R385); then each class of
equal hints takes the instruction with its hints (log 41). -/
def issueMixed (i : Ctx → Info) (k : Ctx → State → State) (c : Ctx) (s : State) : State :=
  if (i c).held c then s
  else if ((i c).w || (i c).blocking) && c.G.late c.mask then s.deliverAll c
  else
    match c.checkAny i s with
    | some (cls, detail) => c.eachClass (fun d s => s.trapAt d cls detail) s
    | none => c.eachClass (fun d s => issueOne (i d) k d s) s

/-- The issue of an instruction by a path (R20, R157), with what it asks under the hints of the path. -/
def issueAt (i : Ctx → Info) (k : Ctx → State → State) (c : Ctx) (s : State) : State :=
  if c.alike then issueOne (i c) k c s else issueMixed i k c s

/-- The issue of an instruction of a thread stream, what it asks of its issue depending on the recorded hints. In a matrix stream it is a
fault of the stream (R58 step 3). -/
def issueBy (i : Ctx → Info) (k : Ctx → State → State) (s : State) : Result :=
  match s.cur with
  | .none => .fault .noIssuer
  | .seq t =>
    match s.team? t with
    | some T => if T.seqLive then .next (s.seqFault t 2 0) else .fault .noIssuer
    | none => .fault .noIssuer
  | .path _ _ _ _ =>
    match s.context? with
    | some c => .next (issueAt i k c s)
    | none => .fault .noIssuer

/-- The issue of an instruction of a thread stream. -/
def issue (i : Info) (k : Ctx → State → State) (s : State) : Result := issueBy (fun _ => i) k s

/-- Writing thread register results lane by lane, with the flags of each (R32, R96), and going on. -/
def State.putV (s : State) (c : Ctx) (d : Nat) (f : Nat → Word × Word) : State :=
  (s.updGroup c.g fun G =>
    (lanesOf c.mask).foldl (fun G l => (G.writeV c.n l d (f l).1).updLane l (·.flag (f l).2)) G).retire c

/-- Writing a pair of thread registers in each lane (R77). -/
def State.putV2 (s : State) (c : Ctx) (d : Nat) (f : Nat → DWord) : State :=
  (s.updGroup c.g fun G =>
    (lanesOf c.mask).foldl
      (fun G l => (G.writeV c.n l d ((f l).setWidth 32)).writeV c.n l (d + 1) ((f l).extractLsb' 32 32)) G).retire c

/-- Writing uniform registers, and going on (R109). -/
def State.putS (s : State) (c : Ctx) (d : Nat) (xs : List Word) : State :=
  (s.updGroup c.g fun G => G.writeSs c.n c.mask d xs).retire c

/-- Writing a predicate in each lane, with flags (R105, R107). -/
def State.putP (s : State) (c : Ctx) (p : Nat) (f : Nat → Bool × Word) : State :=
  (s.updGroup c.g fun G =>
    G.updLanes (lanesOf c.mask) fun l t => { t with p := setBit8 t.p p (f l).1, tsr := t.tsr ||| (f l).2 }).retire c

/-- Writing a uniform predicate, with flags for every active thread (R107). -/
def State.putQ (s : State) (c : Ctx) (q : Nat) (x : Bool) (fl : Word := 0) : State :=
  (s.updGroup c.g fun G => { G.flagAll c.mask fl with q := setBit8 G.q q x }).retire c

/-- Starting a variable-latency result whose values are known at issue, and going on (R24, R26). -/
def State.startV (s : State) (c : Ctx) (d : Nat) (f : Nat → Word × Word) : State :=
  ((s.updGroup c.g fun G =>
    G.start s.uid c.mask c.first (.v d 1) (some ((lanesOf c.mask).map fun l => ⟨l, [(f l).1], (f l).2, false⟩))).bump).retire c

/-- Starting a variable-latency result in uniform registers (R24). -/
def State.startS (s : State) (c : Ctx) (d : Nat) (xs : List Word) : State :=
  ((s.updGroup c.g fun G =>
    G.start s.uid c.mask c.first (.s d xs.length) (some [⟨0, xs, 0, false⟩])).bump).retire c

/-- A predicate of one lane. A path without lanes (R396) has no thread whose predicate it could read: its value is free (log 23). -/
def Ctx.pred (c : Ctx) (l p : Nat) : Bool := if c.mask = 0 then Config.pick c.n p else (c.G.lane l).p.getLsbD p

end Sys2Proof.Machine
end

