-- ==== Sys2Proof/Machine/Alu.lean ====
section
/-! DEFINITION. The integer thread ALU, VR, VS and VI (R98 to R104): each form once over the old destination and two operands. -/

namespace Sys2Proof.Machine

/-- A function of the old destination and two operands: the result and the flags that it sets (R98). -/
abbrev AluFn := Word → Word → Word → Word × Word

/-- A function that neither reads its destination nor sets a flag. -/
def pure2 (f : Word → Word → Word) : AluFn := fun _ a b => (f a b, 0)

/-- A VR form (R98). -/
def aluVR (f : AluFn) (w : BitVec 1) (d a b : BitVec 7) (s0 : State) : Result :=
  issue (infoVR w d a b)
    (fun c s => s.putV c d.toNat fun l => f (c.rv l d.toNat) (c.rv l a.toNat) (c.rv l b.toNat)) s0

/-- A VS form (R98). -/
def aluVS (f : AluFn) (w : BitVec 1) (d a u : BitVec 7) (s0 : State) : Result :=
  issue (infoVS w d a u)
    (fun c s => s.putV c d.toNat fun l => f (c.rv l d.toNat) (c.rv l a.toNat) (c.rs u.toNat)) s0

/-- A VI form (R98). -/
def aluVI (f : AluFn) (w : BitVec 1) (d a i : BitVec 7) (s0 : State) : Result :=
  issue (infoVI w d a)
    (fun c s => s.putV c d.toNat fun l => f (c.rv l d.toNat) (c.rv l a.toNat) (imm7 c.hints i)) s0

/-- A VR form with one source (R60). -/
def aluV1 (f : Word → Word) (w : BitVec 1) (d a : BitVec 7) (s0 : State) : Result :=
  issue (infoV2 w d a) (fun c s => s.putV c d.toNat fun l => (f (c.rv l a.toNat), 0)) s0

/-- Shift left by bits 4:0 of the count (R100). -/
def shlWord (a b : Word) : Word := a <<< (b.toNat % 32)
/-- Logical shift right by bits 4:0 (R100). -/
def shrWord (a b : Word) : Word := a >>> (b.toNat % 32)
/-- Arithmetic shift right by bits 4:0 (R100). -/
def sraWord (a b : Word) : Word := a.sshiftRight (b.toNat % 32)
/-- Signed minimum (R99). -/
def minWord (a b : Word) : Word := if a.slt b then a else b
/-- Signed maximum (R99). -/
def maxWord (a b : Word) : Word := if a.slt b then b else a
/-- Unsigned minimum (R99). -/
def minuWord (a b : Word) : Word := if a.ult b then a else b
/-- Unsigned maximum (R99). -/
def maxuWord (a b : Word) : Word := if a.ult b then b else a

/-- The function of `add` (R99). -/
def addFn : AluFn := pure2 fun a b => a + b

/-- `add` with a thread register (R99). -/
def execAddVr (w : BitVec 1) (d : BitVec 7) (a : BitVec 7) (b : BitVec 7) (s0 : State) : Result :=
  aluVR addFn w d a b s0

/-- `add` with a uniform register (R99). -/
def execAddVs (w : BitVec 1) (d : BitVec 7) (a : BitVec 7) (s : BitVec 7) (s0 : State) : Result :=
  aluVS addFn w d a s s0

/-- `add` with an immediate (R99). -/
def execAddVi (w : BitVec 1) (d : BitVec 7) (a : BitVec 7) (i : BitVec 7) (s0 : State) : Result :=
  aluVI addFn w d a i s0

/-- The function of `sub` (R99). -/
def subFn : AluFn := pure2 fun a b => a - b

/-- `sub` with a thread register (R99). -/
def execSubVr (w : BitVec 1) (d : BitVec 7) (a : BitVec 7) (b : BitVec 7) (s0 : State) : Result :=
  aluVR subFn w d a b s0

/-- `sub` with a uniform register (R99). -/
def execSubVs (w : BitVec 1) (d : BitVec 7) (a : BitVec 7) (s : BitVec 7) (s0 : State) : Result :=
  aluVS subFn w d a s s0

/-- `sub` with an immediate (R99). -/
def execSubVi (w : BitVec 1) (d : BitVec 7) (a : BitVec 7) (i : BitVec 7) (s0 : State) : Result :=
  aluVI subFn w d a i s0

/-- The function of `mul` (R99). -/
def mulFn : AluFn := pure2 fun a b => a * b

/-- `mul` with a thread register (R99). -/
def execMulVr (w : BitVec 1) (d : BitVec 7) (a : BitVec 7) (b : BitVec 7) (s0 : State) : Result :=
  aluVR mulFn w d a b s0

/-- `mul` with a uniform register (R99). -/
def execMulVs (w : BitVec 1) (d : BitVec 7) (a : BitVec 7) (s : BitVec 7) (s0 : State) : Result :=
  aluVS mulFn w d a s s0

/-- `mul` with an immediate (R99). -/
def execMulVi (w : BitVec 1) (d : BitVec 7) (a : BitVec 7) (i : BitVec 7) (s0 : State) : Result :=
  aluVI mulFn w d a i s0

/-- The function of `mulhi` (R99). -/
def mulhiFn : AluFn := pure2 mulhiWord

/-- `mulhi` with a thread register (R99). -/
def execMulhiVr (w : BitVec 1) (d : BitVec 7) (a : BitVec 7) (b : BitVec 7) (s0 : State) : Result :=
  aluVR mulhiFn w d a b s0

/-- `mulhi` with a uniform register (R99). -/
def execMulhiVs (w : BitVec 1) (d : BitVec 7) (a : BitVec 7) (s : BitVec 7) (s0 : State) : Result :=
  aluVS mulhiFn w d a s s0

/-- `mulhi` with an immediate (R99). -/
def execMulhiVi (w : BitVec 1) (d : BitVec 7) (a : BitVec 7) (i : BitVec 7) (s0 : State) : Result :=
  aluVI mulhiFn w d a i s0

/-- The function of `mulhu` (R99). -/
def mulhuFn : AluFn := pure2 mulhuWord

/-- `mulhu` with a thread register (R99). -/
def execMulhuVr (w : BitVec 1) (d : BitVec 7) (a : BitVec 7) (b : BitVec 7) (s0 : State) : Result :=
  aluVR mulhuFn w d a b s0

/-- `mulhu` with a uniform register (R99). -/
def execMulhuVs (w : BitVec 1) (d : BitVec 7) (a : BitVec 7) (s : BitVec 7) (s0 : State) : Result :=
  aluVS mulhuFn w d a s s0

/-- `mulhu` with an immediate (R99). -/
def execMulhuVi (w : BitVec 1) (d : BitVec 7) (a : BitVec 7) (i : BitVec 7) (s0 : State) : Result :=
  aluVI mulhuFn w d a i s0

/-- The function of `mad` (R99). -/
def madFn : AluFn := fun d a b => (a * b + d, 0)

/-- `mad` with a thread register (R99). -/
def execMadVr (w : BitVec 1) (d : BitVec 7) (a : BitVec 7) (b : BitVec 7) (s0 : State) : Result :=
  aluVR madFn w d a b s0

/-- `mad` with a uniform register (R99). -/
def execMadVs (w : BitVec 1) (d : BitVec 7) (a : BitVec 7) (s : BitVec 7) (s0 : State) : Result :=
  aluVS madFn w d a s s0

/-- `mad` with an immediate (R99). -/
def execMadVi (w : BitVec 1) (d : BitVec 7) (a : BitVec 7) (i : BitVec 7) (s0 : State) : Result :=
  aluVI madFn w d a i s0

/-- The function of `and` (R99). -/
def andFn : AluFn := pure2 fun a b => a &&& b

/-- `and` with a thread register (R99). -/
def execAndVr (w : BitVec 1) (d : BitVec 7) (a : BitVec 7) (b : BitVec 7) (s0 : State) : Result :=
  aluVR andFn w d a b s0

/-- `and` with a uniform register (R99). -/
def execAndVs (w : BitVec 1) (d : BitVec 7) (a : BitVec 7) (s : BitVec 7) (s0 : State) : Result :=
  aluVS andFn w d a s s0

/-- `and` with an immediate (R99). -/
def execAndVi (w : BitVec 1) (d : BitVec 7) (a : BitVec 7) (i : BitVec 7) (s0 : State) : Result :=
  aluVI andFn w d a i s0

/-- The function of `or` (R99). -/
def orFn : AluFn := pure2 fun a b => a ||| b

/-- `or` with a thread register (R99). -/
def execOrVr (w : BitVec 1) (d : BitVec 7) (a : BitVec 7) (b : BitVec 7) (s0 : State) : Result :=
  aluVR orFn w d a b s0

/-- `or` with a uniform register (R99). -/
def execOrVs (w : BitVec 1) (d : BitVec 7) (a : BitVec 7) (s : BitVec 7) (s0 : State) : Result :=
  aluVS orFn w d a s s0

/-- `or` with an immediate (R99). -/
def execOrVi (w : BitVec 1) (d : BitVec 7) (a : BitVec 7) (i : BitVec 7) (s0 : State) : Result :=
  aluVI orFn w d a i s0

/-- The function of `xor` (R99). -/
def xorFn : AluFn := pure2 fun a b => a ^^^ b

/-- `xor` with a thread register (R99). -/
def execXorVr (w : BitVec 1) (d : BitVec 7) (a : BitVec 7) (b : BitVec 7) (s0 : State) : Result :=
  aluVR xorFn w d a b s0

/-- `xor` with a uniform register (R99). -/
def execXorVs (w : BitVec 1) (d : BitVec 7) (a : BitVec 7) (s : BitVec 7) (s0 : State) : Result :=
  aluVS xorFn w d a s s0

/-- `xor` with an immediate (R99). -/
def execXorVi (w : BitVec 1) (d : BitVec 7) (a : BitVec 7) (i : BitVec 7) (s0 : State) : Result :=
  aluVI xorFn w d a i s0

/-- The function of `andn` (R99). -/
def andnFn : AluFn := pure2 fun a b => a &&& ~~~b

/-- `andn` with a thread register (R99). -/
def execAndnVr (w : BitVec 1) (d : BitVec 7) (a : BitVec 7) (b : BitVec 7) (s0 : State) : Result :=
  aluVR andnFn w d a b s0

/-- `andn` with a uniform register (R99). -/
def execAndnVs (w : BitVec 1) (d : BitVec 7) (a : BitVec 7) (s : BitVec 7) (s0 : State) : Result :=
  aluVS andnFn w d a s s0

/-- `andn` with an immediate (R99). -/
def execAndnVi (w : BitVec 1) (d : BitVec 7) (a : BitVec 7) (i : BitVec 7) (s0 : State) : Result :=
  aluVI andnFn w d a i s0

/-- The function of `shl` (R100). -/
def shlFn : AluFn := pure2 shlWord

/-- `shl` with a thread register (R100). -/
def execShlVr (w : BitVec 1) (d : BitVec 7) (a : BitVec 7) (b : BitVec 7) (s0 : State) : Result :=
  aluVR shlFn w d a b s0

/-- `shl` with a uniform register (R100). -/
def execShlVs (w : BitVec 1) (d : BitVec 7) (a : BitVec 7) (s : BitVec 7) (s0 : State) : Result :=
  aluVS shlFn w d a s s0

/-- `shl` with an immediate (R100). -/
def execShlVi (w : BitVec 1) (d : BitVec 7) (a : BitVec 7) (i : BitVec 7) (s0 : State) : Result :=
  aluVI shlFn w d a i s0

/-- The function of `shr` (R100). -/
def shrFn : AluFn := pure2 shrWord

/-- `shr` with a thread register (R100). -/
def execShrVr (w : BitVec 1) (d : BitVec 7) (a : BitVec 7) (b : BitVec 7) (s0 : State) : Result :=
  aluVR shrFn w d a b s0

/-- `shr` with a uniform register (R100). -/
def execShrVs (w : BitVec 1) (d : BitVec 7) (a : BitVec 7) (s : BitVec 7) (s0 : State) : Result :=
  aluVS shrFn w d a s s0

/-- `shr` with an immediate (R100). -/
def execShrVi (w : BitVec 1) (d : BitVec 7) (a : BitVec 7) (i : BitVec 7) (s0 : State) : Result :=
  aluVI shrFn w d a i s0

/-- The function of `sra` (R100). -/
def sraFn : AluFn := pure2 sraWord

/-- `sra` with a thread register (R100). -/
def execSraVr (w : BitVec 1) (d : BitVec 7) (a : BitVec 7) (b : BitVec 7) (s0 : State) : Result :=
  aluVR sraFn w d a b s0

/-- `sra` with a uniform register (R100). -/
def execSraVs (w : BitVec 1) (d : BitVec 7) (a : BitVec 7) (s : BitVec 7) (s0 : State) : Result :=
  aluVS sraFn w d a s s0

/-- `sra` with an immediate (R100). -/
def execSraVi (w : BitVec 1) (d : BitVec 7) (a : BitVec 7) (i : BitVec 7) (s0 : State) : Result :=
  aluVI sraFn w d a i s0

/-- The function of `srar` (R100). -/
def srarFn : AluFn := pure2 srarWord

/-- `srar` with a thread register (R100). -/
def execSrarVr (w : BitVec 1) (d : BitVec 7) (a : BitVec 7) (b : BitVec 7) (s0 : State) : Result :=
  aluVR srarFn w d a b s0

/-- `srar` with a uniform register (R100). -/
def execSrarVs (w : BitVec 1) (d : BitVec 7) (a : BitVec 7) (s : BitVec 7) (s0 : State) : Result :=
  aluVS srarFn w d a s s0

/-- `srar` with an immediate (R100). -/
def execSrarVi (w : BitVec 1) (d : BitVec 7) (a : BitVec 7) (i : BitVec 7) (s0 : State) : Result :=
  aluVI srarFn w d a i s0

/-- The function of `min` (R99). -/
def minFn : AluFn := pure2 minWord

/-- `min` with a thread register (R99). -/
def execMinVr (w : BitVec 1) (d : BitVec 7) (a : BitVec 7) (b : BitVec 7) (s0 : State) : Result :=
  aluVR minFn w d a b s0

/-- `min` with a uniform register (R99). -/
def execMinVs (w : BitVec 1) (d : BitVec 7) (a : BitVec 7) (s : BitVec 7) (s0 : State) : Result :=
  aluVS minFn w d a s s0

/-- `min` with an immediate (R99). -/
def execMinVi (w : BitVec 1) (d : BitVec 7) (a : BitVec 7) (i : BitVec 7) (s0 : State) : Result :=
  aluVI minFn w d a i s0

/-- The function of `max` (R99). -/
def maxFn : AluFn := pure2 maxWord

/-- `max` with a thread register (R99). -/
def execMaxVr (w : BitVec 1) (d : BitVec 7) (a : BitVec 7) (b : BitVec 7) (s0 : State) : Result :=
  aluVR maxFn w d a b s0

/-- `max` with a uniform register (R99). -/
def execMaxVs (w : BitVec 1) (d : BitVec 7) (a : BitVec 7) (s : BitVec 7) (s0 : State) : Result :=
  aluVS maxFn w d a s s0

/-- `max` with an immediate (R99). -/
def execMaxVi (w : BitVec 1) (d : BitVec 7) (a : BitVec 7) (i : BitVec 7) (s0 : State) : Result :=
  aluVI maxFn w d a i s0

/-- The function of `minu` (R99). -/
def minuFn : AluFn := pure2 minuWord

/-- `minu` with a thread register (R99). -/
def execMinuVr (w : BitVec 1) (d : BitVec 7) (a : BitVec 7) (b : BitVec 7) (s0 : State) : Result :=
  aluVR minuFn w d a b s0

/-- `minu` with a uniform register (R99). -/
def execMinuVs (w : BitVec 1) (d : BitVec 7) (a : BitVec 7) (s : BitVec 7) (s0 : State) : Result :=
  aluVS minuFn w d a s s0

/-- `minu` with an immediate (R99). -/
def execMinuVi (w : BitVec 1) (d : BitVec 7) (a : BitVec 7) (i : BitVec 7) (s0 : State) : Result :=
  aluVI minuFn w d a i s0

/-- The function of `maxu` (R99). -/
def maxuFn : AluFn := pure2 maxuWord

/-- `maxu` with a thread register (R99). -/
def execMaxuVr (w : BitVec 1) (d : BitVec 7) (a : BitVec 7) (b : BitVec 7) (s0 : State) : Result :=
  aluVR maxuFn w d a b s0

/-- `maxu` with a uniform register (R99). -/
def execMaxuVs (w : BitVec 1) (d : BitVec 7) (a : BitVec 7) (s : BitVec 7) (s0 : State) : Result :=
  aluVS maxuFn w d a s s0

/-- `maxu` with an immediate (R99). -/
def execMaxuVi (w : BitVec 1) (d : BitVec 7) (a : BitVec 7) (i : BitVec 7) (s0 : State) : Result :=
  aluVI maxuFn w d a i s0

/-- The function of `adds` (R99). -/
def addsFn : AluFn := fun _ a b => clamp32 (a.toInt + b.toInt)

/-- `adds` with a thread register (R99). -/
def execAddsVr (w : BitVec 1) (d : BitVec 7) (a : BitVec 7) (b : BitVec 7) (s0 : State) : Result :=
  aluVR addsFn w d a b s0

/-- `adds` with a uniform register (R99). -/
def execAddsVs (w : BitVec 1) (d : BitVec 7) (a : BitVec 7) (s : BitVec 7) (s0 : State) : Result :=
  aluVS addsFn w d a s s0

/-- `adds` with an immediate (R99). -/
def execAddsVi (w : BitVec 1) (d : BitVec 7) (a : BitVec 7) (i : BitVec 7) (s0 : State) : Result :=
  aluVI addsFn w d a i s0

/-- The function of `subs` (R99). -/
def subsFn : AluFn := fun _ a b => clamp32 (a.toInt - b.toInt)

/-- `subs` with a thread register (R99). -/
def execSubsVr (w : BitVec 1) (d : BitVec 7) (a : BitVec 7) (b : BitVec 7) (s0 : State) : Result :=
  aluVR subsFn w d a b s0

/-- `subs` with a uniform register (R99). -/
def execSubsVs (w : BitVec 1) (d : BitVec 7) (a : BitVec 7) (s : BitVec 7) (s0 : State) : Result :=
  aluVS subsFn w d a s s0

/-- `subs` with an immediate (R99). -/
def execSubsVi (w : BitVec 1) (d : BitVec 7) (a : BitVec 7) (i : BitVec 7) (s0 : State) : Result :=
  aluVI subsFn w d a i s0

/-- The function of `bfx` (R101). -/
def bfxFn : AluFn := pure2 bfxWord

/-- `bfx` with a thread register (R101). -/
def execBfxVr (w : BitVec 1) (d : BitVec 7) (a : BitVec 7) (b : BitVec 7) (s0 : State) : Result :=
  aluVR bfxFn w d a b s0

/-- `bfx` with a uniform register (R101). -/
def execBfxVs (w : BitVec 1) (d : BitVec 7) (a : BitVec 7) (s : BitVec 7) (s0 : State) : Result :=
  aluVS bfxFn w d a s s0

/-- `bfx` with an immediate (R101). -/
def execBfxVi (w : BitVec 1) (d : BitVec 7) (a : BitVec 7) (i : BitVec 7) (s0 : State) : Result :=
  aluVI bfxFn w d a i s0

/-- The function of `bfi` (R101). -/
def bfiFn : AluFn := fun d a b => (bfiWord d a b, 0)

/-- `bfi` with a thread register (R101). -/
def execBfiVr (w : BitVec 1) (d : BitVec 7) (a : BitVec 7) (b : BitVec 7) (s0 : State) : Result :=
  aluVR bfiFn w d a b s0

/-- `bfi` with a uniform register (R101). -/
def execBfiVs (w : BitVec 1) (d : BitVec 7) (a : BitVec 7) (s : BitVec 7) (s0 : State) : Result :=
  aluVS bfiFn w d a s s0

/-- `bfi` with an immediate (R101). -/
def execBfiVi (w : BitVec 1) (d : BitVec 7) (a : BitVec 7) (i : BitVec 7) (s0 : State) : Result :=
  aluVI bfiFn w d a i s0

/-- `popc` (R99). -/
def execPopc (w : BitVec 1) (d : BitVec 7) (a : BitVec 7) (s0 : State) : Result :=
  aluV1 popWord w d a s0

/-- `clz` (R99). -/
def execClz (w : BitVec 1) (d : BitVec 7) (a : BitVec 7) (s0 : State) : Result :=
  aluV1 clzWord w d a s0

/-- `mov` of a thread register (R102). -/
def execMovVr (w : BitVec 1) (d : BitVec 7) (b : BitVec 7) (s0 : State) : Result :=
  issue (infoV2 w d b) (fun c s => s.putV c d.toNat fun l => (c.rv l b.toNat, 0)) s0

/-- `mov` of a uniform register (R102). -/
def execMovVs (w : BitVec 1) (d : BitVec 7) (s : BitVec 7) (s0 : State) : Result :=
  issue { w := flag1 w, regs := [.v d.toNat 1 1, .s s.toNat 1 1] } (fun c s1 => s1.putV c d.toNat fun _ => (c.rs s.toNat, 0)) s0

/-- `mov` of an immediate (R102). -/
def execMovVi (w : BitVec 1) (d : BitVec 7) (i : BitVec 7) (s0 : State) : Result :=
  issue { infoV1 w d with imm := true, immhi := true } (fun c s => s.putV c d.toNat fun _ => (imm7 c.hints i, 0)) s0

/-- `sel` with a thread register (R102). -/
def execSelVr (w : BitVec 1) (d : BitVec 7) (a : BitVec 7) (b : BitVec 7) (s0 : State) : Result :=
  issue ((infoVR w d a b).allow modPSEL)
    (fun c s1 => s1.putV c d.toNat fun l => (if c.pred l c.hints.psel then c.rv l a.toNat else c.rv l b.toNat, 0)) s0

/-- `sel` with a uniform register (R102). -/
def execSelVs (w : BitVec 1) (d : BitVec 7) (a : BitVec 7) (s : BitVec 7) (s0 : State) : Result :=
  issue ((infoVS w d a s).allow modPSEL)
    (fun c s1 => s1.putV c d.toNat fun l => (if c.pred l c.hints.psel then c.rv l a.toNat else c.rs s.toNat, 0)) s0

/-- `sel` with an immediate (R102). -/
def execSelVi (w : BitVec 1) (d : BitVec 7) (a : BitVec 7) (i : BitVec 7) (s0 : State) : Result :=
  issue ((infoVI w d a).allow modPSEL)
    (fun c s1 => s1.putV c d.toNat fun l => (if c.pred l c.hints.psel then c.rv l a.toNat else imm7 c.hints i, 0)) s0

/-- `add64` with a thread register pair (R103). -/
def execAdd64Vr (w : BitVec 1) (d : BitVec 7) (a : BitVec 7) (b : BitVec 7) (s0 : State) : Result :=
  issue (infoVR w d a b 2) (fun c s => s.putV2 c d.toNat fun l => c.rv2 l a.toNat + c.rv2 l b.toNat) s0

/-- `add64` with a uniform register pair (R103). -/
def execAdd64Vs (w : BitVec 1) (d : BitVec 7) (a : BitVec 7) (s : BitVec 7) (s0 : State) : Result :=
  issue (infoVS w d a s 2) (fun c s1 => s1.putV2 c d.toNat fun l => c.rv2 l a.toNat + c.rs2 s.toNat) s0

/-- `sub64` with a thread register pair (R103). -/
def execSub64Vr (w : BitVec 1) (d : BitVec 7) (a : BitVec 7) (b : BitVec 7) (s0 : State) : Result :=
  issue (infoVR w d a b 2) (fun c s => s.putV2 c d.toNat fun l => c.rv2 l a.toNat - c.rv2 l b.toNat) s0

/-- `sub64` with a uniform register pair (R103). -/
def execSub64Vs (w : BitVec 1) (d : BitVec 7) (a : BitVec 7) (s : BitVec 7) (s0 : State) : Result :=
  issue (infoVS w d a s 2) (fun c s1 => s1.putV2 c d.toNat fun l => c.rv2 l a.toNat - c.rs2 s.toNat) s0

/-- `shl64` by a thread register (R103). -/
def execShl64Vr (w : BitVec 1) (d : BitVec 7) (a : BitVec 7) (b : BitVec 7) (s0 : State) : Result :=
  issue { w := flag1 w, regs := [.v d.toNat 2 2, .v a.toNat 2 2, .v b.toNat 1 1] }
    (fun c s => s.putV2 c d.toNat fun l => c.rv2 l a.toNat <<< ((c.rv l b.toNat).toNat % 64)) s0

/-- `shl64` by a uniform register (R103). -/
def execShl64Vs (w : BitVec 1) (d : BitVec 7) (a : BitVec 7) (s : BitVec 7) (s0 : State) : Result :=
  issue { w := flag1 w, regs := [.v d.toNat 2 2, .v a.toNat 2 2, .s s.toNat 1 1] }
    (fun c s1 => s1.putV2 c d.toNat fun l => c.rv2 l a.toNat <<< ((c.rs s.toNat).toNat % 64)) s0

/-- `shl64` by an immediate (R103). -/
def execShl64Vi (w : BitVec 1) (d : BitVec 7) (a : BitVec 7) (i : BitVec 7) (s0 : State) : Result :=
  issue { w := flag1 w, imm := true, immhi := true, regs := [.v d.toNat 2 2, .v a.toNat 2 2] }
    (fun c s => s.putV2 c d.toNat fun l => c.rv2 l a.toNat <<< ((imm7 c.hints i).toNat % 64)) s0

/-- `shr64` by a thread register (R103). -/
def execShr64Vr (w : BitVec 1) (d : BitVec 7) (a : BitVec 7) (b : BitVec 7) (s0 : State) : Result :=
  issue { w := flag1 w, regs := [.v d.toNat 2 2, .v a.toNat 2 2, .v b.toNat 1 1] }
    (fun c s => s.putV2 c d.toNat fun l => c.rv2 l a.toNat >>> ((c.rv l b.toNat).toNat % 64)) s0

/-- `shr64` by a uniform register (R103). -/
def execShr64Vs (w : BitVec 1) (d : BitVec 7) (a : BitVec 7) (s : BitVec 7) (s0 : State) : Result :=
  issue { w := flag1 w, regs := [.v d.toNat 2 2, .v a.toNat 2 2, .s s.toNat 1 1] }
    (fun c s1 => s1.putV2 c d.toNat fun l => c.rv2 l a.toNat >>> ((c.rs s.toNat).toNat % 64)) s0

/-- `shr64` by an immediate (R103). -/
def execShr64Vi (w : BitVec 1) (d : BitVec 7) (a : BitVec 7) (i : BitVec 7) (s0 : State) : Result :=
  issue { w := flag1 w, imm := true, immhi := true, regs := [.v d.toNat 2 2, .v a.toNat 2 2] }
    (fun c s => s.putV2 c d.toNat fun l => c.rv2 l a.toNat >>> ((imm7 c.hints i).toNat % 64)) s0

end Sys2Proof.Machine
end

