-- ==== Sys2Proof/Machine/Space.lean ====
section
/-! DEFINITION. Buffer records, segment registers, and the way from an element index to bytes (R118, R119, R122, R229 to R236). -/

namespace Sys2Proof.Machine

/-- Bits of a 128-bit register, `n` from `lo`. -/
def qbits (x : QWord) (lo n : Nat) : Nat := x.toNat / 2 ^ lo % 2 ^ n

/-! ## Records (R119) -/

/-- Byte offset in the space. -/
def recBase (r : QWord) : Nat := qbits r 0 48
/-- The space. -/
def recSpace (r : QWord) : Nat := qbits r 48 3
/-- The element type. -/
def recType (r : QWord) : Nat := qbits r 51 4
/-- The service class. -/
def recClass (r : QWord) : Nat := qbits r 55 2
/-- The lease class. -/
def recLease (r : QWord) : Nat := qbits r 57 2
/-- The swizzle. -/
def recSwiz (r : QWord) : Nat := qbits r 59 3
/-- The policy for elements out of bounds. -/
def recOob (r : QWord) : Nat := qbits r 62 2
/-- The element stride. -/
def recStride (r : QWord) : Nat := qbits r 64 24
/-- The latency budget. -/
def recBudget (r : QWord) : Nat := qbits r 88 8
/-- The number of elements. -/
def recExtent (r : QWord) : Nat := qbits r 96 32

/-- The check of `bbind`: no reserved OOB, SWIZ, TYPE or SPACE value (R119, R120). -/
def recOk (r : QWord) : Bool :=
  recOob r ≤ 1 && recSwiz r ≤ 3 && recType r ≤ 12 && (recSpace r ≤ 3 || recSpace r == 5)

/-- A record of a group. -/
def Group.bufRec (G : Group) (b : Nat) : QWord := G.b.get b 0

/-! ## Segments (R230, R231) -/

/-- The base of a segment. -/
def segBase (x : QWord) : Nat := qbits x 0 48
/-- The highest valid offset. -/
def segLast (x : QWord) : Nat := qbits x 48 48
/-- The valid bit. -/
def segV (x : QWord) : Bool := qbits x 96 1 == 1
/-- Is an offset inside a segment (R231)? -/
def segIn (x : QWord) (o : Nat) : Bool := segV x && o ≤ segLast x
/-- A segment register from its fields. -/
def segMake (base last : Nat) (v : Bool) : QWord := BitVec.ofNat 128 (base + last * 2 ^ 48 + v.toNat * 2 ^ 96)
/-- A segment register of a group. -/
def Group.segment (G : Group) (sp : Nat) : QWord := G.seg.get sp 0

/-- The check of `segset` on a space (R232). -/
def segOk (sp : Nat) (x : QWord) : Bool :=
  x.toNat / 2 ^ 97 == 0 &&
  (if sp = 1 ∨ sp = 3 then segBase x + segLast x < 2 ^ 19
   else if sp = 2 then segBase x == 0 && segLast x < 2 ^ 20
   else segBase x + segLast x < 2 ^ 48)

/-! ## From index to bytes -/

/-- The exchange of address bits: bits [lo + n − 1 : lo] take XOR with bits [7 + n − 1 : 7]. -/
def swapBits (o lo n : Nat) : Nat :=
  let f := o / 2 ^ lo % 2 ^ n
  o - f * 2 ^ lo + (f ^^^ (o / 2 ^ 7 % 2 ^ n)) * 2 ^ lo

/-- The swizzles of R235. -/
def swz (k o : Nat) : Nat :=
  if k = 1 then swapBits o 2 5 else if k = 2 then swapBits o 3 4 else if k = 3 then swapBits o 4 3 else o

/-- The launch record of a team. -/
def State.recOf (s : State) (T : Team) : Option LaunchRec := (s.launch? T.launch).map (·.r)

/-- Has a team a cluster of more than one core (R174: 1 × 1 means none)? -/
def LaunchRec.clustered (r : LaunchRec) : Bool := r.clw * r.clh != 1

/-- The team of a rank of the cluster of a team (R236). -/
def State.rankTeam (s : State) (t : Nat) (T : Team) (rank : Nat) : Option Team :=
  match s.recOf T with
  | none => none
  | some r =>
    if r.clustered then
      (List.find? (fun (x : Nat × Team) => x.2.launch == T.launch && x.2.cluster == T.cluster && x.2.rank == rank) s.teams).map (·.2)
    else if rank = 0 then s.team? t else none

/-- The byte of a space at an offset, or none where it is out of bounds (R231, R236). A global byte is not translated yet. -/
def State.place (s : State) (G : Group) (sp o : Nat) : Option Loc :=
  let x := G.segment sp
  match sp with
  | 0 => if segIn x o then some (.glob (segBase x + o) 0) else none
  | 1 => if segIn x o then some (.spad G.core (segBase x + o)) else none
  | 2 =>
    let rank := o / 2 ^ 20
    let byte := o % 2 ^ 20
    match s.team? G.team with
    | none => none
    | some T =>
      match s.recOf T, s.rankTeam G.team T rank with
      | some r, some U =>
        if o < 2 ^ 26 ∧ rank < r.clw * r.clh ∧ segIn x byte ∧ byte + 256 < r.spadsz * 1024 then
          some (.spad U.core (U.spadB + byte)) else none
      | _, _ => none
  | 3 => if segIn x o then some (.obuf G.core (segBase x + o)) else none
  | 5 => if segIn x o then some (.peer (segBase x + o)) else none
  | _ => none

/-- The bytes of an access of a width through a record at an element index, all in bounds, or none (R234). -/
def State.bytesOf (s : State) (G : Group) (r : QWord) (k : Int) (width : Nat) : Option (List Loc) :=
  if 0 ≤ k ∧ k < recExtent r then
    let a := recBase r + k.toNat * recStride r
    ((List.range width).map fun i => s.place G (recSpace r) (swz (recSwiz r) (a + i))).mapM id
  else none

/-- The scope that `bysp` names for a space (R229). -/
def spaceScope (sp : Nat) : Nat :=
  if sp = 0 then 7 else if sp = 2 then 5 else if sp = 5 then 8 else 3

/-- The code segment of a path: the handler path fetches through the handler segment (R389). -/
def Group.code (G : Group) (h : Bool) : QWord :=
  if h then (match G.hnd with | some H => H.code | none => 0) else G.segment 4

end Sys2Proof.Machine
end

