-- ==== Sys2Proof/Machine/Check.lean ====
section
/-! DEFINITION. Device memory by sectors: their bytes, where they are homed (R247), and the encryption and check that the base die makes of
each (R398, R399, R508, R510). -/

namespace Sys2Proof.Machine

/-! ## Bytes of a sector -/

/-- Byte i of a sector. -/
def secByte (d : BitVec 512) (i : Nat) : Byte := d.extractLsb' (8 * i) 8
/-- A sector from its 64 bytes. -/
def secOf (bs : List Byte) : BitVec 512 := BitVec.ofNat 512 (leNat bs)
/-- Bytes taken from `y` where the mask has a bit, and from `x` elsewhere. -/
def secMix (m : DWord) (x y : BitVec 512) : BitVec 512 :=
  secOf ((List.range 64).map fun i => if m.getLsbD i then secByte y i else secByte x i)
/-- The bit of a byte in a mask. -/
def byteBit (i : Nat) : DWord := (1 : DWord) <<< i

/-- Writing one byte of device memory, in canonical form: 0 stands for an unlisted byte (log 8). -/
def memPut (m : List Host.Cell) (a : Nat) (x : Byte) : List Host.Cell := SMap.set m a x 0
/-- Writing successive bytes. -/
def memPuts (m : List Host.Cell) (a : Nat) (xs : List Byte) : List Host.Cell :=
  (xs.zipIdx).foldl (fun m (x, i) => memPut m (a + i) x) m
/-- The contents of the sector at a sector number (physical address ÷ 64), as they were last written. -/
def State.sector (s : State) (psec : Nat) : BitVec 512 :=
  secOf ((List.range 64).map fun i => s.byteAt (.glob 0 (psec * 64 + i)))
/-- The bytes of a sector from an offset. -/
def State.bytesAt (s : State) (pa n : Nat) : List Byte := (List.range n).map fun i => s.byteAt (.glob 0 (pa + i))

/-- The end of device memory: 512 GiB (R247). -/
def memEnd : Nat := 2 ^ 39

/-- The home die of a sector (R247). -/
def homeDie (psec : Nat) : Nat := psec * 64 / 2 ^ 37 % 4
/-- The home unit of a sector within its die (R247). -/
def homeUnit (psec : Nat) : Nat := psec % 32

/-! ## Encryption and checks (R398, R399) -/

/-- What stands beside a sector; an unlisted sector has been written under no keys (R510). -/
def State.sideOf (s : State) (psec : Nat) : Side := s.side.get psec (Side.clean 0)

/-- Word w of a ciphertext. -/
def cipherWord (c : BitVec 512) (w : Nat) : Word := c.extractLsb' (32 * w) 32
/-- A word XORed into a ciphertext. -/
def cipherXor (c : BitVec 512) (w : Nat) (x : Word) : BitVec 512 := c ^^^ ((x.setWidth 512) <<< (32 * w))
/-- The column parity of a ciphertext: the XOR of its sixteen words (R398). -/
def parity (c : BitVec 512) : Word := (List.range 16).foldl (fun x w => x ^^^ cipherWord c w) 0

/-- What a read that passes its check delivers: the data, the ciphertext that was put right by a correction, if one was, and whether the
parity did not match (R399). -/
structure Delivered where
  data : BitVec 512
  fixed : Option (BitVec 512)
  odd  : Bool
  deriving DecidableEq, Repr

/-- The contents that a ciphertext stands for: those that were written where it is the one that was stored. -/
def decrypt (key psec : Nat) (plain c0 c : BitVec 512) : BitVec 512 := if c = c0 then plain else Config.unxts key (psec * 64) c

/-- The check of a sector whose stored bits differ from those that were written (R399): the MAC over the stored ciphertext, then the sixteen
trials, the lowest word first. -/
def Side.tryFix (x : Side) (psec : Nat) (plain : BitVec 512) : Option Delivered :=
  let a := psec * 64
  let c0 := Config.xts x.key a plain
  let c := c0 ^^^ x.err
  let stored := Config.mac x.key a c0 ^^^ x.merr
  let syn := parity c0 ^^^ x.perr ^^^ parity c
  if Config.mac x.key a c = stored then some ⟨decrypt x.key psec plain c0 c, none, syn != 0⟩
  else
    match (List.range 16).find? fun w => Config.mac x.key a (cipherXor c w syn) == stored with
    | some w => some ⟨decrypt x.key psec plain c0 (cipherXor c w syn), some (cipherXor c w syn), false⟩
    | none => none

/-- A read of a sector under a key generation (R399, R510): none where it fails its check. Bits that stand as they were written pass, whatever
the parity. -/
def State.check (s : State) (key psec : Nat) : Option Delivered :=
  let x := s.sideOf psec
  if x.key ≠ key ∨ key = 0 ∨ memEnd ≤ psec * 64 then none
  else if x.err = 0 ∧ x.merr = 0 then some ⟨s.sector psec, none, x.perr != 0⟩
  else x.tryFix psec (s.sector psec)

/-- Does a sector pass its check under a key generation (R399, R510)? -/
def State.passes (s : State) (key psec : Nat) : Bool := (s.check key psec).isSome

/-- The row of a sector, with its die (R508). -/
def rowKey (psec : Nat) : Nat := homeDie psec * 2 ^ 32 + Config.rowOf psec % 2 ^ 32

/-- A correction is counted in its die and in its row, of which the ticks of the last sixteen are kept (R399, R508). -/
def State.corrected (s : State) (psec : Nat) : State :=
  let k := rowKey psec
  { s.updDie (homeDie psec) fun D => { D with corr := satInc D.corr } with
    rowCorr := s.rowCorr.put k ((s.now :: s.rowCorr.get k []).take 16) }

/-- A sector's stored bits after a trial has been written back with its side bits (R399): its ciphertext, its parity, and the MAC that it
matched. -/
def Side.fix (x : Side) (psec : Nat) (plain c : BitVec 512) : Side :=
  let d := c ^^^ Config.xts x.key (psec * 64) plain
  { x with err := d, perr := parity d }

/-- What the check of a read does (R399): a correction is counted and written back, a parity mismatch counted. -/
def State.checked (s : State) (key psec : Nat) : State :=
  match s.check key psec with
  | none => s
  | some d =>
    match d.fixed with
    | some c => { s.corrected psec with side := s.side.put psec ((s.sideOf psec).fix psec (s.sector psec) c) }
    | none => if d.odd then s.updDie (homeDie psec) fun D => { D with parity := satInc D.parity } else s

/-- Errors in a sector's stored bits (R399): flips of its ciphertext, its parity and its MAC. A sector that has never been written has
none that could show. -/
def State.flip (s : State) (psec : Nat) (err : BitVec 512) (perr merr : Word) : State :=
  match s.side.find? psec with
  | some x => { s with side := s.side.put psec { x with err := x.err ^^^ err, perr := x.perr ^^^ perr, merr := x.merr ^^^ merr } }
  | none => s

end Sys2Proof.Machine
end

