-- ==== Sys2Proof/Machine/Walk.lean ====
section
/-! DEFINITION. Translation (R404 to R408), and the records of translation faults (R411, R412). -/

namespace Sys2Proof.Machine

/-- What an access needs of its page (R406); the codes are those of ACC (R412). -/
inductive Want where
  | read
  | write
  | atomic
  | fetch
  deriving DecidableEq, Repr

/-- The ACC code of an access. -/
def Want.code : Want → Nat
  | .read => 0
  | .write => 1
  | .atomic => 2
  | .fetch => 3

/-- What a walk has come by: the valid entries, which may be cached (R408), and the sectors that it has read, with their keys. -/
structure Walked where
  path : List TlbEntry
  secs : List (Nat × Nat)
  deriving DecidableEq, Repr

/-- A walk has come by one more entry. -/
def Walked.pass (w : Walked) (e : TlbEntry) : Walked := { w with path := e :: w.path }
/-- A walk has read one more sector. -/
def Walked.read (w : Walked) (key psec : Nat) : Walked := { w with secs := (key, psec) :: w.secs }

/-- The outcome of a walk (R406): the physical address, or a fault with cause and level, and what the walk has come by. -/
inductive Trans where
  | ok (pa : Nat) (w : Walked)
  | fault (cause lev : Nat) (w : Walked)
  deriving DecidableEq, Repr

/-- The size of a page at a level (R404). -/
def pageSize (lev : Nat) : Nat := 2 ^ (12 + 9 * lev)

/-- A bit of an entry. -/
def entBit (e i : Nat) : Bool := e / 2 ^ i % 2 == 1
/-- The address in an entry: PA, bits 51:12 (R405). -/
def entAddr (e : Nat) : Nat := e / 2 ^ 12 % 2 ^ 40 * 2 ^ 12

/-- Is an entry malformed at a level (R406)? -/
def malformed (e lev : Nat) : Bool :=
  e / 2 ^ 52 != 0 || e / 2 ^ 7 % 32 != 0 ||
  (entBit e 1 && lev == 3) || (!entBit e 1 && lev == 0) ||
  (entBit e 1 && entBit e 6) ||
  (entBit e 4 && (lev == 2 || !entBit e 1)) ||
  (entBit e 1 && (entAddr e % pageSize lev != 0 || entAddr e + pageSize lev > memEnd))

/-- Reading an entry of a node (R406): from host-endpoint memory, or from device memory under the key slot of the function
(R511). None where the read fails. The walker's reads are requests of class 1 (R406); one that memory serves at a walk's step stands for
a request that came there before those that are queued (log 62). -/
def State.pte (s : State) (vf : Nat) (host : Bool) (a : Nat) : Option Nat :=
  if host then s.hostMem.find? a
  else (s.check (s.key vf) (a / 64)).map fun d => leNat ((List.range 8).map fun i => secByte d.data (a % 64 + i))

/-- What reading an entry leaves with a walk. -/
def State.pteRead (s : State) (vf : Nat) (host : Bool) (a : Nat) (w : Walked) : Walked :=
  if host then w else w.read (s.key vf) (a / 64)

/-- The address of the entry that serves a virtual address in a node of a level. -/
def pteAddr (node va lev : Nat) : Nat := node + 8 * (va / pageSize lev % 512)

/-- Do the sixteen entries of a contiguous group agree (R407)? -/
def contiguous (es : List (Option Nat)) (lev : Nat) : Bool :=
  match es with
  | some e0 :: _ =>
    entAddr e0 % (16 * pageSize lev) == 0 &&
    (es.zipIdx).all fun (x, i) =>
      match x with
      | some e =>
        entBit e 0 && entBit e 2 == entBit e0 2 && entBit e 3 == entBit e0 3 && entBit e 4 && !malformed e lev && !entBit e 5 &&
          entBit e 1 && entAddr e == entAddr e0 + i * pageSize lev
      | none => false
  | _ => false

/-- The entry through which an access in a group of sixteen translates (R407): its own, or, where some entry of the group has C = 1 and
the group does not agree, any of its leaves with C = 1, unpredictably. -/
def State.groupEntry (s : State) (vf : Nat) (host : Bool) (node va lev e n : Nat) : Nat :=
  if lev ≥ 2 then e
  else
    let i0 := va / pageSize lev % 512 / 16 * 16
    let es := (List.range 16).map fun i => s.pte vf host (node + 8 * (i0 + i))
    let ok := es.filterMap fun x =>
      match x with
      | some y => if entBit y 4 ∧ entBit y 0 ∧ entBit y 1 ∧ !entBit y 5 ∧ !malformed y lev then some y else none
      | none => none
    if ok.isEmpty || contiguous es lev then e
    else (e :: ok).getD (Config.pickNat (n + 2 ^ 64 * (lev + 1)) % (ok.length + 1)) e

/-- The walk from an entry of a level down (R406), with what it has come by. -/
def State.walkEntry (s : State) (vf va : Nat) (w : Want) (n : Nat) : Nat → Nat → Walked → Trans
  | lev, e, k =>
    if !entBit e 0 then .fault 0 lev k
    else if entBit e 5 then .fault 1 lev k
    else if malformed e lev then .fault 4 lev k
    else
      let k := k.pass ⟨vf, lev, va / pageSize lev, e⟩
      if entBit e 1 then
        if (w = .write ∨ w = .atomic) ∧ !entBit e 2 then .fault 2 lev k
        else if w = .fetch ∧ !entBit e 3 then .fault 3 lev k
        else .ok (entAddr e + va % pageSize lev) k
      else
        match lev with
        | 0 => .fault 4 0 k
        | l + 1 =>
          let k := s.pteRead vf (entBit e 6) (pteAddr (entAddr e) va l) k
          match s.pte vf (entBit e 6) (pteAddr (entAddr e) va l) with
          | none => .fault 5 l k
          | some e' => State.walkEntry s vf va w n l (s.groupEntry vf (entBit e 6) (entAddr e) va l e' n) k

/-- The walk from the root (R406). -/
def State.walk (s : State) (vf va : Nat) (w : Want) (n : Nat) : Trans :=
  let a := pteAddr (s.vf vf).root va 3
  let k := s.pteRead vf false a ⟨[], []⟩
  match s.pte vf false a with
  | none => .fault 5 3 k
  | some e => s.walkEntry vf va w n 3 e k

/-- Do two walks come to the same end? -/
def Trans.same : Trans → Trans → Bool
  | .ok a _, .ok b _ => a == b
  | .fault a b _, .fault c d _ => a == c && b == d
  | _, _ => false

/-- Translating an address (R406, R408): by a walk, or from a cached copy of any entry on the way. Where these differ the choice
is open. -/
def State.translate (s : State) (tlb : List TlbEntry) (vf va : Nat) (w : Want) (n : Nat) : Trans :=
  (List.range 4).foldl
    (fun t lev =>
      match tlb.find? fun x => x.vf == vf && x.lev == lev && x.tag == va / pageSize lev with
      | none => t
      | some x =>
        let u := s.walkEntry vf va w n lev x.ent ⟨[], []⟩
        if t.same u then t else if Config.pick n lev then u else t)
    (s.walk vf va w n)

/-- What a translation has come by. -/
def Trans.walked : Trans → Walked
  | .ok _ k => k
  | .fault _ _ k => k

/-- Entries added to a cache of translations. -/
def tlbAdd (tlb path : List TlbEntry) : List TlbEntry :=
  path.foldl (fun t e => if t.contains e then t else e :: t) tlb

/-- The checks of what a walk has read (R399). -/
def State.walkChecked (s : State) (t : Trans) : State := t.walked.secs.foldl (fun s (k, p) => s.checked k p) s

/-- A core caches the valid entries that a walk of one of its accesses came by (R408), and memory puts right what the walk found damaged
(R399). -/
def State.learn (s : State) (core : Nat) (t : Trans) : State :=
  (s.updCore core fun c => { c with tlb := tlbAdd c.tlb t.walked.path }).walkChecked t

/-- An engine of a die caches the entries likewise (R408). -/
def State.learnDie (s : State) (d : Nat) (t : Trans) : State :=
  (s.updDie d fun D => { D with tlb := tlbAdd D.tlb t.walked.path }).walkChecked t

/-- What a fault record says beside its tick and FID (R412). -/
structure FaultAt where
  vf    : Nat
  va    : Nat
  lid   : Nat
  mask  : Word
  pc    : Word
  core  : Nat
  die   : Nat
  part  : Nat
  slot  : Nat
  src   : Nat
  tag   : Nat
  acc   : Nat
  cause : Nat
  level : Nat
  peer  : Bool
  deriving DecidableEq, Repr

/-- The record of a fault, 64 bytes as a number (R412). ACC is 4 exactly where CAUSE is 5. -/
def faultBits (now fid : Nat) (f : FaultAt) : Nat :=
  fieldAt now 448 + fieldAt f.va 352 + fieldAt fid 320 + fieldAt f.lid 288 + fieldAt f.mask.toNat 256 + fieldAt f.pc.toNat 224 +
  fieldAt f.core 212 + fieldAt f.die 210 + fieldAt f.part 206 + fieldAt f.slot 203 + fieldAt f.src 200 + fieldAt f.tag 194 +
  fieldAt (if f.cause = 5 then 4 else f.acc) 184 + fieldAt f.cause 180 + fieldAt f.level 178 + fieldAt f.peer.toNat 113

/-- A translation fault is recorded: its party waits for the answer to the FID it takes (R411, R412). -/
def State.fault (s : State) (f : FaultAt) (p : Parked) : State × Nat :=
  let r := s.takeFid f.vf p
  (r.1.holdFault f.vf (faultBits s.now r.2 f), r.2)

/-- A fault record of some threads of a group (R411, R412). -/
def State.groupFault (s : State) (g : Nat) (G : Group) (mask pc : Word) (va cause lev acc : Nat) : State :=
  (s.fault ⟨G.vf, va, s.lidOf G, mask, pc, G.core, dieOf G.core, G.part, G.slot, 0, 0, acc, cause, lev, false⟩ (.lanes g mask)).1

end Sys2Proof.Machine
end

