-- ==== Sys2Proof/Machine/Mem.lean ====
section
/-! DEFINITION. The L1 caches (R237 to R243), the requests between a core or an engine and device memory (R256, R283), the Spout (R248 to
R255), the channel schedulers (R256 to R259), and the steps of the home die (R273 to R278, R282, R399, R510). -/

namespace Sys2Proof.Machine

/-! ## The L1 -/

/-- The line of a virtual line number, under the tag of a function (R238). -/
def Core.line? (c : Core) (vf asid vline : Nat) : Option Line :=
  c.l1.find? fun L => L.vf == vf && L.asid == asid && L.vline == vline
/-- Changing that line. -/
def Core.updLine (c : Core) (vf asid vline : Nat) (f : Line → Line) : Core :=
  { c with l1 := c.l1.map fun L => if L.vf = vf ∧ L.asid = asid ∧ L.vline = vline then f L else L }
/-- A sector of a line. -/
def Line.sec (L : Line) (k : Nat) : Sector := L.secs.get k Sector.init
/-- Changing a sector of a line. -/
def Line.updSec (L : Line) (k : Nat) (f : Sector → Sector) : Line := { L with secs := L.secs.put k (f (L.sec k)) }
/-- The sector that holds a virtual sector number (virtual address ÷ 64); empty where the line is absent. -/
def Core.secAt (c : Core) (vf asid vsec : Nat) : Sector :=
  match c.line? vf asid (vsec / 4) with
  | some L => L.sec (vsec % 4)
  | none => Sector.init
/-- Changing that sector. -/
def Core.updSecAt (c : Core) (vf asid vsec : Nat) (f : Sector → Sector) : Core :=
  c.updLine vf asid (vsec / 4) fun L => L.updSec (vsec % 4) f

/-- The read of one byte of a sector under R240: none is a miss. -/
def Sector.read (x : Sector) (now i : Nat) : Option Byte :=
  if x.dm.getLsbD i || (x.v && now < x.exp) then some (secByte x.data i) else none

/-- The fill outstanding for a sector (R240). -/
def Core.fillOf (c : Core) (vf asid vsec : Nat) : Option Fill :=
  c.fills.find? fun f => f.vf == vf && f.asid == asid && f.vsec == vsec
/-- Has a line a fill outstanding for any of its sectors (R238)? -/
def Core.lineBusy (c : Core) (L : Line) : Bool :=
  c.fills.any fun f => f.vf == L.vf && f.asid == L.asid && f.vsec / 4 == L.vline

/-- A request leaves for its home unit (R237, R247). -/
def State.send (s : State) (r : Req) : State := { s with wire := s.wire ++ [{ r with id := s.uid }] }.bump

/-- The stamp of a request that leaves now (R256): 0 stands for no deadline. -/
def State.stamp (s : State) (budget : Nat) : Nat := if budget = 0 then 0 else s.now + 16 * budget

/-- The bytes of a sector that the core writes back are newer than what the fill outstanding for it brings (R128). -/
def Core.keepBytes (c : Core) (vf asid vsec : Nat) (m : DWord) : Core :=
  { c with fills := c.fills.map fun f => if f.vf = vf ∧ f.asid = asid ∧ f.vsec = vsec then { f with keep := f.keep ||| m } else f }

/-- Writing back the dirty bytes of a sector: class 1, no deadline; DM and the group set are cleared (R243, R256). -/
def State.backSec (s : State) (core : Nat) (L : Line) (k : Nat) : State :=
  let x := L.sec k
  if x.dm = 0 then s
  else
    (s.send ⟨0, .back core x.gset, .write x.dm x.data, L.pline * 4 + k, L.vf, s.key L.vf, 1, 0, core, 0⟩).updCore core fun c =>
      (c.updLine L.vf L.asid L.vline fun L => L.updSec k fun x => { x with dm := 0, gset := [] }).keepBytes L.vf L.asid
        (L.vline * 4 + k) x.dm

/-- Writing back every dirty sector of a line. -/
def State.backLine (s : State) (core : Nat) (L : Line) : State :=
  (List.range 4).foldl (fun s k => s.backSec core L k) s

/-- Replacing a line: it is written back and its state cleared (R243). -/
def State.evict (s : State) (core : Nat) (L : Line) : State :=
  (s.backLine core L).updCore core fun c =>
    { c with l1 := c.l1.filter fun M => !(M.vf == L.vf && M.asid == L.asid && M.vline == L.vline) }

/-- The line of an access is there, or is allocated with V = 0 (R238, R241): in a set of eight lines one without outstanding fills
is replaced, one marked evict-first before the others (R243), the choice being open otherwise; none where there is none. -/
def State.allocLine (s : State) (core vf asid vline pline : Nat) : Option State :=
  let c := s.core core
  match c.line? vf asid vline with
  | some _ => some s
  | none =>
    let add (s : State) : State :=
      s.updCore core fun c => { c with l1 := c.l1 ++ [⟨vf, asid, vline, pline, [], false⟩] }
    let set := c.l1.filter fun L => L.vline % 128 == vline % 128
    if set.length < 8 then some (add s)
    else
      let free := set.filter fun L => !c.lineBusy L
      let cand := if free.any (·.first) then free.filter (·.first) else free
      match cand[Config.pickNat s.fresh % max cand.length 1]? with
      | none => none
      | some L => some (add ((s.evict core L).draw 1))

/-- The first-to-be-replaced mark of the E flag (R243). -/
def State.markFirst (s : State) (core vf asid vline : Nat) : State :=
  s.updCore core fun c => c.updLine vf asid vline fun L => { L with first := true }

/-- V := 0 in a sector, and its outstanding fill is superseded (R242). -/
def Core.invalidate (c : Core) (p : Nat → Nat → Nat → Bool) : Core :=
  { c with
    l1 := c.l1.map fun L => { L with secs := L.secs.map fun (k, x) =>
      (k, if p L.vf L.asid (L.vline * 4 + k) then { x with v := false } else x) }
    fills := c.fills.map fun f => if p f.vf f.asid f.vsec then { f with sup := true } else f }

/-! ## Spout units -/

/-- The stack and the channel of a sector, and the key of its scheduler: die × 64 + stack × 32 + channel (R247). Which channel holds a
sector is fixed for the life of a boot. -/
def State.chanOf (s : State) (psec : Nat) : Nat :=
  psec * 64 / 2 ^ 37 * 64 + psec * 64 / 2 ^ 36 % 2 * 32 + Config.channelOf s.boots psec % 32

/-- A Spout unit of a die. -/
def State.unit (s : State) (d u : Nat) : Unit := (s.die d).units.get u Unit.init
/-- Changing a unit. -/
def State.updUnit (s : State) (d u : Nat) (f : Unit → Unit) : State :=
  s.updDie d fun D => { D with units := D.units.put u (f (D.units.get u Unit.init)) }
/-- A channel by the number of `chanOf`. -/
def State.chan (s : State) (n : Nat) : Channel := (s.die (n / 64)).chans.get (n % 64) Channel.init
/-- Changing a channel. -/
def State.updChan (s : State) (n : Nat) (f : Channel → Channel) : State :=
  s.updDie (n / 64) fun D => { D with chans := D.chans.put (n % 64) (f (D.chans.get (n % 64) Channel.init)) }

/-- A store, write-back or atomic closes every open entry of its sector, and each closing is counted (R251, R255). -/
def Unit.closeSec (u : Unit) (psec : Nat) : Unit :=
  { u with
    entries := u.entries.map fun e => if e.psec = psec then { e with open_ := false } else e
    close := (u.entries.filter fun e => e.psec == psec && e.open_).foldl (fun n _ => satInc n) u.close }

/-- A unit handles one request (R250): it joins an open entry, allocates one, or passes to the channel; the read of a kind 2 word closes no
entry and takes none. -/
def State.handle (s : State) (r : Req) : State :=
  let d := homeDie r.psec
  let u := homeUnit r.psec
  let toChan (s : State) (x : ChReq) : State := s.updChan (s.chanOf r.psec) fun c => { c with q := c.q ++ [x] }
  match r.kind with
  | .read _ =>
    let joins (e : Entry) : Bool := e.open_ && e.psec == r.psec && e.key == r.key
    if (s.unit d u).entries.any joins then
      s.updUnit d u fun U =>
        { U with
          entries := U.entries.map fun e =>
            if joins e then { e with reqs := e.reqs ++ [r], open_ := e.reqs.length + 1 < 64 } else e
          join := satInc U.join }
    else
      let id := s.uid
      toChan ((s.bump).updUnit d u fun U =>
        { U with entries := U.entries ++ [⟨id, r.psec, r.key, s.now, [r], true, none⟩], alloc := satInc U.alloc }) (.entry id)
  | .wait => toChan s (.req r)
  | _ => toChan (s.updUnit d u fun U => U.closeSec r.psec) (.req r)

/-- A unit serves its input queue in order while it has a free entry (R250); the fuel is the length of the queue. -/
def State.serveUnit : Nat → Nat → Nat → State → State
  | 0, _, _, s => s
  | n + 1, d, u, s =>
    let U := s.unit d u
    if U.entries.length < 512 then
      match U.inq with
      | [] => s
      | r :: rs => State.serveUnit n d u ((s.updUnit d u fun U => { U with inq := rs }).handle r)
    else s

/-- A request reaches its home unit (R247, R250): it waits in the input queue where all entries are in use, and that is counted
once (R255). -/
def State.arriveUnit (s : State) (r : Req) : State :=
  let d := homeDie r.psec
  let u := homeUnit r.psec
  let U := s.unit d u
  if U.entries.length ≥ 512 then s.updUnit d u fun U => { U with inq := U.inq ++ [r], full := satInc U.full }
  else if U.inq.isEmpty then s.handle r
  else s.updUnit d u fun U => { U with inq := U.inq ++ [r] }

/-- The die from which a request comes (R439), by its requester: a core, or the port of an engine (`Eng.port`). -/
def State.dieFrom (s : State) (p : Nat) : Nat :=
  if p < 336 then dieOf p
  else if 65536 ≤ p then (match s.team? (p - 65536) with | some T => dieOf T.core | none => 0)
  else if 1024 ≤ p then dieOf (p - 1024)
  else if 512 ≤ p ∧ p < 524 then (p - 512) % 4
  else 0

/-- May a request on the wire be the next to arrive? Requests of one requester to one sector keep their order, so that an access never
overtakes the same thread's earlier one (R128, R282); and requests from one die to another arrive in the order in which they were sent
(R439). -/
def State.wireNext (s : State) (r : Req) : Bool :=
  let far (x : Req) : Bool := s.dieFrom x.core != homeDie x.psec
  match s.wire.find? fun x => (x.core == r.core && x.psec == r.psec) ||
      (far r && s.dieFrom x.core == s.dieFrom r.core && homeDie x.psec == homeDie r.psec) with
  | some x => x.id == r.id
  | none => false

/-- May a reply be the next to arrive? Replies from one die to another arrive in the order in which they were sent (R439). -/
def State.copyNext (s : State) (k : Copy) : Bool :=
  let d := s.dieFrom k.req.core
  d == homeDie k.req.psec ||
  match s.copies.find? fun x => s.dieFrom x.req.core == d && homeDie x.req.psec == homeDie k.req.psec with
  | some x => x.id == k.id
  | none => false

/-- May a completion be the next to arrive (R439)? -/
def State.doneNext (s : State) (k : Done) : Bool :=
  let d := s.dieFrom k.req.core
  d == homeDie k.req.psec ||
  match s.dones.find? fun x => s.dieFrom x.req.core == d && homeDie x.req.psec == homeDie k.req.psec with
  | some x => x.id == k.id
  | none => false

/-! ## Channel schedulers -/

/-- What a scheduler knows of a queued request: its sector, class and stamp (R258, R259). -/
structure ChView where
  at_   : Nat
  what  : ChReq
  psec  : Nat
  cls   : Nat
  stamp : Nat
  deriving DecidableEq, Repr

/-- The earliest of two stamps, 0 standing for none. -/
def earlier (a b : Nat) : Nat := if a = 0 then b else if b = 0 then a else min a b

/-- A queued request as the scheduler sees it; an entry counts by its lowest class and earliest stamp (R259). -/
def State.chView (s : State) (n i : Nat) (x : ChReq) : Option ChView :=
  match x with
  | .req r => some ⟨i, x, r.psec, r.cls, r.stamp⟩
  | .entry id =>
    ((s.die (n / 64)).units.findSome? fun (_, U) => U.entries.find? (·.id == id)).map fun e =>
      ⟨i, x, e.psec, e.reqs.foldl (fun m r => min m r.cls) 3, e.reqs.foldl (fun m r => earlier m r.stamp) 0⟩

/-- The requests that may be served now: the first of each sector, in arrival order (R252). -/
def heads : List Nat → List ChView → List ChView
  | _, [] => []
  | seen, v :: vs => if seen.contains v.psec then heads seen vs else v :: heads (v.psec :: seen) vs

/-- Within a class the earliest stamp goes first, none last, then arrival order (R258). -/
def bestOf (vs : List ChView) : Option ChView :=
  vs.foldl (fun b v =>
    match b with
    | none => some v
    | some w => if v.stamp ≠ 0 ∧ (w.stamp = 0 ∨ v.stamp < w.stamp) then some v else b) none

/-- The weight that a class has left of the round. -/
def Channel.left (c : Channel) (k : Nat) : Nat := if k = 1 then c.w1 else if k = 2 then c.w2 else c.w3
/-- A class has used one of its turns. -/
def Channel.use (c : Channel) (k : Nat) : Channel :=
  if k = 1 then { c with w1 := c.w1 - 1 } else if k = 2 then { c with w2 := c.w2 - 1 } else { c with w3 := c.w3 - 1 }

/-- The choice of a scheduler (R258): class 0 first, then the classes that have turns left in the round; a round that is used up
starts again. -/
def State.nextAt (s : State) (n : Nat) : Option (ChView × Channel) :=
  let c := s.chan n
  let vs := heads [] ((c.q.zipIdx).filterMap fun (x, i) => s.chView n i x)
  let ofClass (k : Nat) := bestOf (vs.filter (·.cls == k))
  match ofClass 0 with
  | some v => some (v, c)
  | none =>
    let try_ (c : Channel) : Option (ChView × Channel) :=
      [1, 2, 3].findSome? fun k => if c.left k = 0 then none else (ofClass k).map fun v => (v, c.use k)
    match try_ c with
    | some r => some r
    | none => try_ { c with w1 := 4, w2 := 2, w3 := 1 }

/-- A request leaves the queue of its channel. -/
def State.takeAt (s : State) (n : Nat) (v : ChView) (c : Channel) : State :=
  s.updChan n fun _ => { c with q := c.q.eraseIdx v.at_ }

/-! ## The home die -/

/-- The lease of a class (R276). -/
def leaseTicks (k : Nat) : Nat := if k = 0 then 256 else if k = 1 then 512 else if k = 2 then 2048 else 8192

/-- The place of a sector's line in the horizon tables of its die (R273): one table of 65,536 words in each of the two base dies, the base
die PA[36] naming the one that keeps the sector's (R247). -/
def State.horAt (s : State) (psec : Nat) : Nat :=
  psec * 64 / 2 ^ 36 % 2 * 65536 + Config.horizonHash s.boots (psec / 4) % 65536
/-- The horizon of a sector's line (R273). -/
def State.horizon (s : State) (psec : Nat) : Nat := (s.die (homeDie psec)).hor.get (s.horAt psec) 0
/-- Raising it (R276). -/
def State.raiseHorizon (s : State) (psec e : Nat) : State :=
  let i := s.horAt psec
  s.updDie (homeDie psec) fun D => { D with hor := D.hor.put i (max (D.hor.get i 0) e) }
/-- The completion time of a write or atomic that arrives now (R277, R282). -/
def State.completion (s : State) (psec : Nat) : Nat := max s.now (s.horizon psec)

/-- The contents of a sector written anew under a key generation (R398). -/
def State.writeSector (s : State) (key psec : Nat) (d : BitVec 512) : State :=
  { s with
    mem := memPuts s.mem (psec * 64) ((List.range 64).map (secByte d))
    side := s.side.put psec (Side.clean key) }

/-- What memory answers to a read of a sector (R399): the data, and whether the check failed. -/
def State.answerOf (s : State) (key psec : Nat) : BitVec 512 × Bool :=
  match s.check key psec with
  | some d => (d.data, false)
  | none => (0, true)

/-- The paths that wait for a word in a sector (R195, R196): group, block, condition and series, with the class of the reading, its core and
partition, and the function. -/
def State.watchers (s : State) (psec : Nat) : List (Src × Nat × Nat × Nat × Nat) :=
  s.groups.flatMap fun (g, G) => G.blk.flatMap fun b =>
    match b.cond with
    | .wait _ cs _ _ _ => (cs.zipIdx).filterMap fun (x, k) =>
        match x with
        | .mem _ _ _ p => if p.secs.contains psec then some (.wait g b.id k p.ser, p.cls, G.core, G.part, G.vf) else none
        | _ => none
    | _ => []

/-- A store or an atomic has reached memory: the words of its sector that paths wait for are read behind it, each under its own function
(R196, R511); the reading reaches the path in time for it to go on within 512 ticks (R200). -/
def State.watch (s : State) (psec : Nat) : State :=
  (s.watchers psec).foldl (fun s (src, cls, core, part, vf) =>
    let x := s.answerOf (s.key vf) psec
    let r : Req := ⟨s.uid, src, .wait, psec, vf, s.key vf, cls, 0, core, part⟩
    { s with copies := s.copies ++ [(⟨s.uid, r, 0, x.1, x.2, s.uid, some (s.now + 448)⟩ : Copy)] }.bump) s

/-- The arrival of a masked write at memory (R277, R399, R510): a whole sector needs no read and always succeeds; a part reads the
sector first and is not performed where that fails. Answers whether it failed. -/
def State.storeSector (s : State) (key psec : Nat) (mask : DWord) (data : BitVec 512) : State × Bool :=
  if memEnd ≤ psec * 64 then (s, true)
  else if mask = BitVec.allOnes 64 then ((s.writeSector key psec data).watch psec, false)
  else
    match s.check key psec with
    | none => (s, true)
    | some d => (((s.checked key psec).writeSector key psec (secMix mask d.data data)).watch psec, false)

/-- The bytes of an atomic's operand as a number of its width. -/
def opWord (wide : Bool) (x : Nat) : DWord := BitVec.ofNat 64 (if wide then x else x % 2 ^ 32)

/-- A signed value of an atomic's width. -/
def opInt (wide : Bool) (x : Nat) : Int := if wide then (BitVec.ofNat 64 x).toInt else (BitVec.ofNat 32 x).toInt

/-- The new value of an atomic's word, and the flags it sets (R295, R297). -/
def atomNew (op : Nat) (wide : Bool) (m v cmp : Nat) : Nat × Word :=
  let n := if wide then 2 ^ 64 else 2 ^ 32
  match op with
  | 0 => ((m + v) % n, 0)
  | 1 => (if opInt wide v < opInt wide m then v else m, 0)
  | 2 => (if opInt wide m < opInt wide v then v else m, 0)
  | 3 => (min m v, 0)
  | 4 => (max m v, 0)
  | 5 => (m &&& v, 0)
  | 6 => (m ||| v, 0)
  | 7 => (m ^^^ v, 0)
  | 8 => (v, 0)
  | 9 => (if m = cmp then v else m, 0)
  | 10 => fAdd fp32 .rn m v
  | 11 => (if v / 65536 > m / 65536 ∨ (v / 65536 = m / 65536 ∧ v % 65536 < m % 65536) then v else m, 0)
  | _ => let r := bf2Map (fAdd bf16 .rn) (BitVec.ofNat 32 m) (BitVec.ofNat 32 v); (r.1.toNat, r.2)

/-- A sector with some of its bytes replaced, from an offset on. -/
def secPut (d : BitVec 512) (at_ : Nat) (bs : List Byte) : BitVec 512 :=
  secOf ((List.range 64).map fun i => if at_ ≤ i then bs.getD (i - at_) (secByte d i) else secByte d i)

/-- One step of a global atomic (R282, R296): the old bytes, and whether the read failed. An `acas` that does not match writes
nothing (R299). -/
def State.atomStep (s : State) (key psec op : Nat) (wide : Bool) (at_ : Nat) (val cmp : List Byte) : State × List Byte × Bool :=
  let w := if wide then 8 else 4
  match s.check key psec with
  | none => (s, [], true)
  | some d =>
    let s := s.checked key psec
    let old := (List.range w).map fun i => secByte d.data (at_ + i)
    let r := atomNew op wide (leNat old) (leNat val) (leNat cmp)
    if op = 9 ∧ leNat old ≠ leNat cmp then (s, old, false)
    else ((s.writeSector key psec (secPut d.data at_ (leBytes w r.1))).watch psec, old, false)

/-- A write that memory performs at once, outside the steps of R274: the records that a function still holds when it is disabled
(log 36). The completion time, and whether it failed. -/
def State.engineWrite (s : State) (key psec : Nat) (mask : DWord) (data : BitVec 512) : State × Nat × Bool :=
  let c := s.completion psec
  let s := s.updUnit (homeDie psec) (homeUnit psec) fun U => U.closeSec psec
  let r := s.storeSector key psec mask data
  (r.1, c, r.2)

/-! ## The accesses of engines (R248, R256, R257, R283) -/

/-- The physical sectors of the global places of a list, each once. -/
def sectorsOf (ps : List Loc) : List Nat :=
  (ps.filterMap fun x => match x with | .glob _ pa => some (pa / 64) | _ => none).foldl (fun l p => if l.contains p then l else l ++ [p]) []

/-- The stamp of a request of an engine's transaction that leaves now (R256). The part of a peer access at its target keeps the stamp with
which the access left its requester. -/
def State.engStamp (s : State) (x : Txn) : Nat := if x.who = .peer then x.budget else s.stamp x.budget

/-- Sending the requests of an engine for some sectors, each with the transaction's class and the stamp of its leaving (R256). -/
def State.sendEng (s : State) (t : Nat) (x : Txn) (rs : List (Nat × ReqKind)) : State :=
  rs.foldl (fun s (p, k) =>
    s.send ⟨0, .eng t, k, p, x.vf, s.key x.vf, x.cls, s.engStamp x, x.who.port, 0⟩) s

/-- An engine begins a transaction: the reads that it needs leave at once (R248). The key it is found by is the identifier that is answered. -/
def State.beginTxn (s : State) (who : Eng) (vf cls budget : Nat) (rd wr : List (Nat × List Loc)) : State × Nat :=
  let ps := sectorsOf (rd.flatMap (·.2))
  let t := s.uid
  let x : Txn := ⟨who, vf, cls, budget, rd, wr, ps, [], [], false, 0, 0, false, t⟩
  (({ s with txns := s.txns.put t x }.bump).sendEng t x (ps.map fun p => (p, .read none)), t)

/-- The transaction of an engine that has one at a time, with its key. -/
def State.txnOf (s : State) (e : Eng) : Option (Nat × Txn) := List.find? (fun (x : Nat × Txn) => x.2.who == e) s.txns

/-- Changing a transaction. -/
def State.updTxn (s : State) (t : Nat) (f : Txn → Txn) : State := { s with txns := s.txns.upd t f }
/-- A transaction is over. -/
def State.endTxn (s : State) (t : Nat) : State := { s with txns := s.txns.del t }

/-- A byte that an engine's reads have brought, or that lies in a bank; none where its sector failed its check. -/
def State.txnByte (s : State) (x : Txn) : Loc → Option Byte
  | .glob _ pa => if x.bad.contains (pa / 64) then none else some (secByte (x.got.get (pa / 64) 0) (pa % 64))
  | p => some (s.byteAt p)

/-- The bytes of some places, none where one of them failed. -/
def State.txnBytes (s : State) (x : Txn) (ps : List Loc) : Option (List Byte) := (ps.map (s.txnByte x)).mapM id

/-- A store into a bank. -/
def State.pokeBank (s : State) (p : Loc) (b : Byte) : State :=
  match p with
  | .spad c a => s.updCore c fun x => { x with spad := SMap.set x.spad a b 0 }
  | .obuf c a => s.updCore c fun x =>
      { x with
        obuf := SMap.set x.obuf a b 0
        obOld := if (SMap.find? x.obOld a).isSome then x.obOld else SMap.put x.obOld a (SMap.get x.obuf a 0) }
  | _ => s

/-- A store into a bank by the sequencer, which its own later words see for certain (R345). -/
def State.pokeOwn (s : State) (p : Loc) (b : Byte) : State :=
  match p with
  | .obuf c a => (s.pokeBank p b).updCore c fun x => { x with obOld := x.obOld.del a }
  | _ => s.pokeBank p b

/-- Is an engine the sequencer of a team? -/
def Eng.isSeq : Eng → Bool
  | .mret _ => true
  | _ => false

/-- The global part of some stored bytes in one sector: mask and data. -/
def sectorStore (bs : List (Loc × Byte)) (psec : Nat) : DWord × BitVec 512 :=
  let r := bs.foldl (fun (r : DWord × List Byte) (p, b) =>
    match p with
    | .glob _ pa => if pa / 64 = psec then (r.1 ||| byteBit (pa % 64), r.2.set (pa % 64) b) else r
    | _ => r) (0, List.replicate 64 0)
  (r.1, secOf r.2)

/-- Does a place lie in a bank? -/
def Loc.bank : Loc → Bool
  | .spad _ _ => true
  | .obuf _ _ => true
  | _ => false

/-- The writes of an engine's transaction leave: one request for each sector, and what lies in banks at once, at the tick that counts as its
completion (R283). -/
def State.writeTxn (s : State) (t : Nat) (bs : List (Loc × Byte)) : State :=
  match s.txns.find? t with
  | none => s
  | some x =>
    let ps := sectorsOf (bs.map (·.1))
    let s := bs.foldl (fun s (p, b) => if x.who.isSeq then s.pokeOwn p b else s.pokeBank p b) s
    (s.updTxn t fun x =>
      { x with sent := true, out := ps.length, comp := if bs.any (·.1.bank) then max x.comp s.now else x.comp }).wake.sendEng t x (ps.map fun p =>
      let w := sectorStore bs p
      (p, .write w.1 w.2))

/-- Have the reads of a transaction all been answered, and its writes not left? -/
def Txn.ready (x : Txn) : Bool := !x.sent && x.due.isEmpty
/-- Have the writes of a transaction all completed? -/
def Txn.complete (x : Txn) : Bool := x.sent && x.out == 0

/-- An engine's reply or completion comes after its stamp (R257). -/
def State.engJudge (s : State) (r : Req) (x : Txn) : State := if r.stamp ≠ 0 ∧ s.now > r.stamp then s.engMiss x.who else s

/-- The reply to an engine's read arrives (R254, R257). -/
def State.engReply (s : State) (k : Copy) (t : Nat) : State :=
  match s.txns.find? t with
  | none => s
  | some x =>
    (s.engJudge k.req x).updTxn t fun x =>
      { x with
        due := x.due.filter (· != k.req.psec)
        got := if k.bad then x.got else x.got.put k.req.psec k.data
        bad := if k.bad then k.req.psec :: x.bad else x.bad }

/-- An engine that does not wait for its writes is done with a transaction whose writes have all completed: a queue unit, whose writes of PUB
report to nobody (R324), and a sequencer, which keeps the largest completion time of its stores and whether one failed (R346, R400). -/
def State.engClose (s : State) (t : Nat) : State :=
  match s.txns.find? t with
  | none => s
  | some x =>
    if x.complete then
      match x.who with
      | .queue _ => s.endTxn t
      | .mret n => (s.endTxn t).updTeam n fun T => { T with seq := { T.seq with comp := max T.seq.comp x.comp, serr := T.seq.serr || x.werr } }
      | _ => s
    else s

/-- The completion of an engine's write or atomic arrives (R257, R283). -/
def State.engDone (s : State) (d : Done) (t : Nat) : State :=
  match s.txns.find? t with
  | none => s
  | some x =>
    ((s.engJudge d.req x).updTxn t fun x =>
      { x with
        out := x.out - 1
        comp := max x.comp d.c
        werr := x.werr || d.bad
        got := match d.req.kind with
          | .atomic _ _ at_ _ _ => if d.bad then x.got else x.got.put d.req.psec (secPut 0 at_ d.old)
          | _ => x.got
        bad := if d.bad then d.req.psec :: x.bad else x.bad }).engClose t

end Sys2Proof.Machine
end

