-- ==== Sys2Proof/Machine/Access.lean ====
section
/-! DEFINITION. The accesses of a group: from a record and an index to bytes (R122, R123, R234, R237), their place in the group's
access order and the steps that perform them (R274, R275, R279 to R284, R288 to R301), fills and completions. -/

namespace Sys2Proof.Machine

/-! ## Blocking a path -/

/-- The issuing path becomes Blocked at its instruction (R156). -/
def State.blockPath (s : State) (c : Ctx) (cond : Cond) : State :=
  let id := s.uid
  let m := c.mask &&& (match s.group? c.g with | some G => G.lanesWith fun t => t.st == .ready | none => 0)
  ((s.updGroup c.g fun G =>
    if c.mask = 0 then
      { G with hnd := G.hnd.map fun H => { H with ready := false, hints := Hints.clear }
               blk := G.blk ++ [⟨id, 0, c.pc, c.first, cond, none, s.now, 0, false, true⟩] }
    else
      { G.updLanes (lanesOf m) fun _ t => { t with st := .blocked id, hints := Hints.clear } with
        blk := G.blk ++ [⟨id, m, c.pc, c.first, cond, none, s.now, 0, false, false⟩] }).bump).draw 1

/-- Does a blocked path wait for the actions of an entry of the access order to end? -/
def Block.fences (b : Block) (id : Nat) : Bool := match b.cond with | .fence i _ => i == id | _ => false
/-- Does a blocked path wait for the answers to a peer access? -/
def Block.peers (b : Block) (id : Nat) : Bool := match b.cond with | .peer i _ => i == id | _ => false
/-- The lanes that an access flags as out of bounds when its path goes on. -/
def Cond.oob : Cond → Word
  | .fence _ m => m
  | .peer _ m => m
  | _ => 0

/-- A blocked path goes on: at the next word, or, where `again` holds, at its instruction and its hints once more. -/
def State.unblock (s : State) (g : Nat) (b : Block) (again : Bool := false) : State :=
  let pc := if again then b.first else b.pc + 4
  s.updGroup g fun G =>
    let G := { G.flagAll b.cond.oob flagOOB with blk := G.blk.filter (·.id != b.id) }
    if b.hseq then { G with hnd := G.hnd.map fun H => { H with ready := true, pc := pc } }
    else G.updLanes (lanesOf b.mask) fun _ t => if t.st = .blocked b.id then { t with st := .ready, pc := pc } else t

/-- Threads of the issuing path are parked on a page fault, in front of the instruction and its hints (R34, R411). -/
def State.parkLanes (s : State) (c : Ctx) (m : Word) : State :=
  s.updGroup c.g fun G =>
    if c.mask = 0 then { G with hnd := G.hnd.map fun H => { H with ready := false, pc := c.first, hints := Hints.clear } }
    else G.updLanes (lanesOf m) fun _ t => { t with st := .faulted, pc := c.first, hints := Hints.clear }

/-! ## From indices to places -/

/-- An entry of a function's peer window table, 16 bytes (R443), read as every request for the function is (R511). None where a sector of it
fails its check: such an entry maps nothing (log 63). -/
def State.window (s : State) (vf i : Nat) : Option Nat :=
  let a := (s.vf vf).pwb + 16 * i
  match s.check (s.key vf) (a / 64), s.check (s.key vf) ((a + 15) / 64) with
  | some d, some e =>
    some (leNat ((List.range 16).map fun k =>
      if (a + k) / 64 = a / 64 then secByte d.data ((a + k) % 64) else secByte e.data ((a + k) % 64)))
  | _, _ => none

/-- Where a byte of the peer window lies: device, target function and virtual address, or none where it is out of bounds (R443). -/
def State.peerByte (s : State) (vf o : Nat) (write : Bool) : Option (Nat × Nat × Nat) :=
  let i := o / 2 ^ 40
  if i < (s.vf vf).pwn then
    match s.window vf i with
    | some e =>
      if e % 2 = 1 ∧ o % 2 ^ 40 < e / 2 ^ 88 ∧ (!write ∨ e / 2 % 2 = 1) then
        some (e / 2 ^ 28 % 2 ^ 12, e / 2 ^ 22 % 64, e / 2 ^ 40 % 2 ^ 48 + o % 2 ^ 40)
      else none
    | none => none
  else none

/-- Is every byte of an access in bounds beyond its segment? Only the peer window has such bounds (R443). -/
def State.windowOk (s : State) (vf : Nat) (write : Bool) (ls : List Loc) : Bool :=
  ls.all fun x => match x with | .peer o => (s.peerByte vf o write).isSome | _ => true

/-- The address of a byte in its space. -/
def Loc.at_ : Loc → Nat
  | .glob va _ => va
  | .spad _ a => a
  | .obuf _ a => a
  | .peer o => o

/-- Is the address of an access a multiple of its width, its bytes lying one after another (R127)? -/
def alignedAt (width : Nat) (ls : List Loc) : Bool :=
  match ls with
  | x :: _ => x.at_ % width == 0 && (ls.zipIdx).all fun (y, i) => y.at_ == x.at_ + i
  | [] => true

/-- The bytes of a lane's access, in bounds (R234, R443); an atomic's address must be a multiple of its width (R294). -/
def State.laneBytes (s : State) (G : Group) (r : QWord) (k : Int) (width : Nat) (w : Want) : Option (List Loc) :=
  match s.bytesOf G r k width with
  | none => none
  | some ls =>
    if s.windowOk G.vf (w == .write || w == .atomic) ls && (w != .atomic || alignedAt width ls) then some ls else none

/-- What the translation of an access gives: the state with the entries cached, the lanes with their bytes, the lanes out of
bounds, and for each page that faults its lowest faulting address, cause, level and lanes (R386, R411). -/
structure Plan where
  st     : State
  good   : List (Nat × List Loc)
  oob    : List Nat
  faults : List (Nat × Nat × Nat × List Nat)
  deriving DecidableEq, Repr

/-- The virtual addresses of the global bytes of a list. -/
def globVas (ls : List Loc) : List Nat := ls.filterMap fun x => match x with | .glob va _ => some va | _ => none

/-- Removing repetitions, the first of each staying. -/
def distinct : List Nat → List Nat → List Nat
  | _, [] => []
  | seen, x :: xs => if seen.contains x then distinct seen xs else x :: distinct (x :: seen) xs

/-- The plan of an access with a cache of translations, where `learn` adds what a walk passed: bounds first, then the translation of
every page it touches (R122, R234, R237, R411). `idx` pairs each lane with its index; a uniform access has one. -/
def State.planBy (s : State) (tlb : List TlbEntry) (learn : State → Trans → State) (G : Group) (r : QWord) (width : Nat) (w : Want)
    (idx : List (Nat × Int)) : Plan :=
  let raw := idx.map fun (l, k) => (l, s.laneBytes G r k width w)
  let oob := raw.filterMap fun (l, x) => match x with | none => some l | some _ => none
  let inb := raw.filterMap fun (l, x) => x.map fun ls => (l, ls)
  let pages := distinct [] (inb.flatMap fun (_, ls) => (globVas ls).map (· / 4096))
  let ts := (pages.zipIdx).map fun (p, i) => (p, s.translate tlb G.vf (p * 4096) w (s.fresh + 1 + i))
  let bad := ts.filter fun (_, t) => match t with | .ok _ _ => false | .fault _ _ _ => true
  let laneBad (ls : List Loc) : Bool := (globVas ls).any fun va => bad.any (·.1 == va / 4096)
  let fix (x : Loc) : Loc :=
    match x with
    | .glob va _ =>
      match (List.find? (fun (y : Nat × Trans) => y.1 == va / 4096) ts).map (·.2) with
      | some (Trans.ok pa _) => .glob va (pa + va % 4096)
      | _ => x
    | _ => x
  ⟨(ts.foldl (fun s (_, t) => learn s t) s).draw (1 + pages.length),
   (inb.filter fun (_, ls) => !(laneBad ls)).map fun (l, ls) => (l, ls.map fix),
   oob,
   bad.filterMap fun (p, t) =>
     match t with
     | .ok _ _ => none
     | .fault cause lev _ =>
       let ls := inb.filter fun (_, ls) => (globVas ls).any (· / 4096 == p)
       let vas := (ls.flatMap fun (_, ls) => globVas ls).filter (· / 4096 == p)
       if ls.isEmpty then none else some (vas.foldl min (vas.headD 0), cause, lev, ls.map (·.1))⟩

/-- The plan of a core's access, with the core's cache of translations. -/
def State.plan (s : State) (core : Nat) (G : Group) (r : QWord) (width : Nat) (w : Want) (idx : List (Nat × Int)) : Plan :=
  s.planBy (s.core core).tlb (fun s t => s.learn core t) G r width w idx

/-- The lanes that stop at an access: page-fault lanes are parked, each page with its record, and under OOB policy 1 the lanes out
of bounds trap (R123, R386, R411). A uniform access stops whole. -/
def State.stopLanes (s : State) (c : Ctx) (p : Plan) (w : Want) (uniform oobTrap : Bool) : State :=
  let m (ls : List Nat) : Word := if uniform then c.mask else maskOf ls
  let s := p.faults.foldl (fun s (va, cause, lev, ls) =>
    (s.groupFault c.g c.G (m ls) c.first va cause lev w.code).parkLanes c (m ls)) s
  if oobTrap ∧ p.oob ≠ [] ∧ !(uniform && p.faults != []) then s.trapLanes c (m p.oob) 4 0 0 else s

/-! ## The access order of a group -/

/-- The scope of an access: SCP of its hint, or that of its record's space (R272, R229). -/
def accScope (c : Ctx) (r : QWord) : Nat := if c.hints.scp = 0 then spaceScope (recSpace r) else c.hints.scp

/-- An entry that stands for the actions of a release or an acquire (R279, R280). -/
def fenceAcc (id : Nat) (c : Ctx) (k : AccKind) : Acc :=
  ⟨id, c.mask, k, [], 0, false, none, 0, 1, 0, 0, false, false, false, false, false, 0, false, 0, c.first⟩

/-- Adding an entry at the end of a group's access order (R275). -/
def State.addAcc (s : State) (g : Nat) (a : Acc) : State := s.updGroup g fun G => { G with acc := G.acc ++ [a] }
/-- Changing an entry. -/
def State.updAcc (s : State) (g id : Nat) (f : Acc → Acc) : State :=
  s.updGroup g fun G => { G with acc := G.acc.map fun a => if a.id = id then f a else a }
/-- Changing one lane of an entry. -/
def Acc.updLane (a : Acc) (l : Nat) (f : LaneAcc → LaneAcc) : Acc :=
  { a with lanes := a.lanes.map fun x => if x.lane = l then f x else x }

/-- Do two places name one byte? -/
def Loc.same : Loc → Loc → Bool
  | .glob _ a, .glob _ b => a == b
  | .spad c a, .spad d b => c == d && a == b
  | .obuf c a, .obuf d b => c == d && a == b
  | .peer a, .peer b => a == b
  | _, _ => false

/-- Do two lanes reach a byte in common? -/
def LaneAcc.meets (x y : LaneAcc) : Bool := x.locs.any fun p => y.locs.any fun q => p.same q

/-- Is an acquire not yet performed (R280)? An atomic at die scope or wider waits for its completion times too (R298). At thread scope an
access orders its threads' own accesses alone, which R128 does (R272, R291). -/
def Acc.acqOpen (a : Acc) (now : Nat) : Bool :=
  match a.kind with
  | .acquire _ => !a.perf
  | .atomic _ _ => a.acq ≥ 2 && (!a.perf || (a.acq ≥ 6 && now < a.comp))
  | _ => a.acq ≥ 2 && !a.perf

/-- Is an acquire one toward parties of the core alone, so that a later load may be bound before it as far as no such party stores to what
it has read (R272)? -/
def Acc.narrow (a : Acc) : Bool := match a.kind with | .load => a.acq ≤ 4 | .atomic _ _ => a.acq ≤ 4 | _ => false

/-- Is an entry the actions of a release? -/
def Acc.isRelease (a : Acc) : Bool := match a.kind with | .release _ => true | _ => false

/-- Does an entry hold every path of its group while its actions run: a release (R279), or a fence that acquires (R301)? -/
def Acc.holdsAll (a : Acc) : Bool := match a.kind with | .release _ => true | .acquire _ => true | _ => false

/-- The lanes of an access that belong to some threads: a uniform access belongs to all of its path (R293). -/
def Acc.lanesFor (a : Acc) (t : Word) : List LaneAcc := a.lanes.filter fun x => a.uniform || t.getLsbD x.lane

/-- The threads for which a lane of an access is made. -/
def Acc.threads (a : Acc) (x : LaneAcc) : Word := if a.uniform then a.mask else laneBit x.lane

/-- Is what an access does for some threads performed: every lane of it that belongs to them, or, of an entry without lanes, the whole? -/
def Acc.doneFor (a : Acc) (t : Word) : Bool :=
  a.perf || (match a.kind with
    | .load => (a.lanesFor t).all (·.done)
    | .store => (a.lanesFor t).all (·.done)
    | .atomic _ _ => (a.lanesFor t).all (·.done)
    | _ => false)

/-- Has an earlier access been performed as far as the bytes of a lane go, stores that were sent to memory or to another core's bank
included (R128)? -/
def Acc.past (a : Acc) (t : Word) (x : LaneAcc) : Bool :=
  (a.lanesFor t).all fun y => !(y.meets x) || (y.done && (a.kind != .store || a.wait == 0))

/-- May the part of an access that belongs to one of its lanes be performed now, with the entries before it (R275, R279)? The constraints
are those of each thread (R383): a lane waits for what its own thread did before. A load waits for an earlier load or store only where
they share bytes; `early` lets it go before a narrow acquire. A release, or a fence that acquires, stops the whole group. -/
def Acc.dueLane (a : Acc) (before : List Acc) (now : Nat) (early : Bool) (x : LaneAcc) : Bool :=
  let t := a.threads x
  let mine := before.filter fun b => overlaps t b.mask
  before.all (fun b => !b.holdsAll) && mine.all (fun b => !(b.acqOpen now) || (early && b.narrow)) &&
  (match a.kind with
   | .load => mine.all fun b => b.past t x
   | _ => mine.all fun b => b.doneFor t && b.past t x)

/-- May every lane of an entry be performed now? An entry without lanes waits for all that its threads did before. -/
def Acc.due (a : Acc) (before : List Acc) (now : Nat) (early : Bool := false) : Bool :=
  if a.lanes.isEmpty then
    let mine := before.filter fun b => overlaps a.mask b.mask
    before.all (fun b => !b.holdsAll) && mine.all (fun b => !(b.acqOpen now)) && mine.all (·.perf)
  else a.lanes.all (a.dueLane before now early)

/-- The entries before one in the order. -/
def accBefore (as : List Acc) (id : Nat) : List Acc := as.takeWhile (·.id != id)

/-- A group that has ended, whose team is gone and whose last access is over, is no longer kept. -/
def State.bury (s : State) (g : Nat) : State :=
  match s.group? g with
  | some G => if G.ended ∧ G.acc.isEmpty ∧ (s.team? G.team).isNone then { s with groups := s.groups.del g } else s
  | none => s

/-- Entries that have nothing left to do leave the order. -/
def State.sweep (s : State) (g : Nat) : State :=
  (s.updGroup g fun G => { G with acc := G.acc.filter fun a => !(a.perf && a.wait == 0 && !a.acqOpen s.now) }).bury g

/-- The words of a load's bytes (R124): one word extended for a width below 4, else a word for each four bytes. -/
def loadWords (width : Nat) (sext : Bool) (bs : List Byte) : List Word :=
  if width < 4 then
    let x := BitVec.ofNat 32 (leNat bs)
    [if sext then (x <<< (32 - 8 * width)).sshiftRight (32 - 8 * width) else x]
  else (List.range (width / 4)).map fun i => BitVec.ofNat 32 (leNat ((bs.drop (4 * i)).take 4))

/-- The result of a lane of an access: zero with OOB where it was out of bounds, the error, the loaded words, or the old value of
an atomic with the flags of its operation (R123, R124, R296, R297). -/
def Acc.laneVal (a : Acc) (x : LaneAcc) : LaneVal :=
  let n := max 1 (a.width / 4)
  if x.oob then ⟨x.lane, List.replicate n 0, flagOOB, false⟩
  else if x.err then ⟨x.lane, [], 0, true⟩
  else
    let bs := (List.range a.width).map fun i => x.got.get i 0
    match a.kind with
    | .atomic op wide => ⟨x.lane, loadWords a.width false bs, (atomNew op wide (leNat bs) (leNat x.data) (leNat x.cmp)).2, false⟩
    | _ => ⟨x.lane, loadWords a.width a.sext bs, 0, false⟩

/-- When every lane of a load or an atomic has its answer it is performed, and its result may be written (R274, R20); a load that was bound
before a narrow acquire waits for that. -/
def State.finish (s : State) (g id : Nat) : State :=
  match s.group? g with
  | none => s
  | some G =>
    match G.acc.find? (·.id == id) with
    | none => s
    | some a =>
      if a.perf ∨ a.pend.isNone ∨ !(a.lanes.all (·.done)) ∨ (a.kind = .load ∧ !(a.due (accBefore G.acc id) s.now)) then s
      else
        let vs := a.lanes.map a.laneVal
        (s.updAcc g id fun a => { a with perf := true }).updGroup g fun G =>
          { G with pend := G.pend.map fun p => if some p.id = a.pend then { p with vals := some vs } else p }

/-! ## Which bytes go in one step (R127, R129) -/

/-- A byte of an access: lane and number. -/
abbrev AccByte := Nat × Nat

/-- The bytes of an access that are in bounds, lane by lane in ascending order, with their places. -/
def Acc.bytes (a : Acc) : List (AccByte × Loc) :=
  a.lanes.flatMap fun x => if x.oob then [] else (x.locs.zipIdx).map fun (p, i) => ((x.lane, i), p)

/-- Those that have not been read, or stored. -/
def Acc.left (a : Acc) : List (AccByte × Loc) :=
  a.bytes.filter fun (k, _) => a.lanes.any fun x => x.lane == k.1 && (SMap.find? x.got k.2).isNone

/-- A lane of an access. -/
def Acc.lane? (a : Acc) (l : Nat) : Option LaneAcc := a.lanes.find? (·.lane == l)

/-- Is a lane's access one whose bytes go one by one (R127)? -/
def Acc.tears (a : Acc) (l : Nat) : Bool := match a.lane? l with | some x => x.tear | none => false

/-- A set of bytes of a load with those that are read in the same step: the whole of a lane whose address is a multiple of the width (R127),
and the same byte of every other lane (R129). -/
def Acc.grow (a : Acc) (ks : List (AccByte × Loc)) : List (AccByte × Loc) :=
  a.left.filter fun (k, p) =>
    ks.any fun (j, q) => j == k || (j.1 == k.1 && !(a.tears k.1)) || p.same q

/-- The bytes that one step of a load reads, beginning with one byte; the fuel bounds the number of lanes that join. -/
def Acc.together (a : Acc) : Nat → List (AccByte × Loc) → List (AccByte × Loc)
  | 0, ks => ks
  | n + 1, ks => let ls := a.grow ks; if ls.length = ks.length then ks else Acc.together a n ls

/-- The bytes of a lane that a step takes: one byte where they go one by one, else all of them. -/
def Acc.unit_ (a : Acc) (l i : Nat) : List (AccByte × Loc) :=
  a.left.filter fun (k, _) => k.1 == l && (!(a.tears l) || k.2 == i)

/-- The lanes of some bytes. -/
def lanesIn (ks : List (AccByte × Loc)) : List Nat := distinct [] (ks.map (·.1.1))

/-- May a store's bytes be stored now, as far as its own lower lanes go: the highest lane provides a byte that several reach (R129)? -/
def Acc.inTurn (a : Acc) (ks : List (AccByte × Loc)) : Bool :=
  ks.all fun (k, p) => a.left.all fun (j, q) => k.1 ≤ j.1 || !(p.same q)

/-! ## Performing a load -/

/-- Taking a byte for a lane's access. -/
def LaneAcc.take (x : LaneAcc) (n i : Nat) (b : Byte) : LaneAcc :=
  let g := x.got.put i b
  { x with got := g, done := g.length == n }

/-- Taking a byte for one lane of an access. -/
def Acc.takeByte (a : Acc) (k : AccByte) (b : Byte) : Acc := a.updLane k.1 fun x => x.take a.width k.2 b

/-- Those of some bytes that lie in a virtual sector, with their places in it. -/
def inSector (ks : List (AccByte × Loc)) (vsec : Nat) : List (AccByte × Nat) :=
  ks.filterMap fun (k, p) => match p with | .glob va _ => if va / 64 = vsec then some (k, va % 64) else none | _ => none

/-- The virtual and physical sectors of some bytes. -/
def secsOf (ks : List (AccByte × Loc)) : List (Nat × Nat) :=
  (ks.filterMap fun (_, p) => match p with | .glob va pa => some (va / 64, pa / 64) | _ => none).foldl
    (fun l p => if l.contains p then l else l ++ [p]) []

/-- Reading some bytes of a sector for a load where every one of them hits (R240). -/
def Acc.hits (a : Acc) (x : Sector) (now : Nat) (ns : List (AccByte × Nat)) : Option Acc :=
  if ns.all fun (_, i) => (x.read now i).isSome then
    some (ns.foldl (fun a (k, i) => a.takeByte k ((x.read now i).getD 0)) a)
  else none

/-- A load reads what lies in banks at once (R245, R246). -/
def State.bindBanks (s : State) (a : Acc) (ks : List (AccByte × Loc)) : Acc :=
  ks.foldl (fun a (k, p) =>
    match p with
    | .spad _ _ => a.takeByte k (s.byteAt p)
    | .obuf _ _ => a.takeByte k (s.byteAt p)
    | _ => a) a

/-- The access with an identifier in a group's order. -/
def State.acc? (s : State) (g id : Nat) : Option Acc := (s.group? g).bind fun G => G.acc.find? (·.id == id)

/-- One sector of a load, for some of its bytes (R237, R240, R243): they hit, or wait for the fill that is outstanding, or a fill is
requested. E marks the line that is used; an N load that misses uses none. -/
def State.bindSector (s : State) (g : Nat) (G : Group) (id : Nat) (ks : List (AccByte × Loc)) (v : Nat × Nat) : State :=
  match s.acc? g id with
  | none => s
  | some a =>
    let asid := (s.vf G.vf).asid
    let c := s.core G.core
    match a.hits (c.secAt G.vf asid v.1) s.now (inSector ks v.1) with
    | some a' =>
      (if a.evict then s.markFirst G.core G.vf asid (v.1 / 4) else s).updAcc g id fun _ => a'
    | none =>
      let s := if a.evict ∧ !a.noAlloc then s.markFirst G.core G.vf asid (v.1 / 4) else s
      match c.fillOf G.vf asid v.1 with
      | some f =>
        if f.sup ∨ f.waiters.contains (g, id) then s
        else s.updCore G.core fun c =>
          { c with fills := c.fills.map fun x => if x.id = f.id then { x with waiters := x.waiters ++ [(g, id)] } else x }
      | none =>
        match if a.noAlloc then some s else s.allocLine G.core G.vf asid (v.1 / 4) (v.2 / 4) with
        | none => s
        | some s =>
          let s := if a.evict ∧ !a.noAlloc then s.markFirst G.core G.vf asid (v.1 / 4) else s
          let fid := s.uid
          ((s.bump).updCore G.core fun c =>
            { c with fills := c.fills ++ [⟨fid, G.vf, asid, v.1, v.2, false, a.noAlloc, 0, G.part, [(g, id)]⟩] }).send
            ⟨0, .fill G.core fid, .read (if a.noAlloc then none else some a.lease), v.2, G.vf, s.key G.vf, a.cls,
              s.stamp a.budget, G.core, G.part⟩

/-- A step of a load on some of its bytes. -/
def State.bindBytes (s : State) (g : Nat) (G : Group) (a : Acc) (ks : List (AccByte × Loc)) : State :=
  let s := s.updAcc g a.id fun _ => s.bindBanks a ks
  (((secsOf ks).foldl (fun s v => s.bindSector g G a.id ks v) s).finish g a.id).sweep g

/-! ## Performing a store -/

/-- The byte that a store brings for one of its bytes. -/
def Acc.datum (a : Acc) (k : AccByte) : Byte := match a.lane? k.1 with | some x => x.data.getD k.2 0 | none => 0

/-- Some bytes of a store with what they bring, in the order in which they stand (R129). -/
def Acc.stored (a : Acc) (ks : List (AccByte × Loc)) : List (Loc × Byte) := ks.map fun (k, p) => (p, a.datum k)

/-- Some bytes of a store have been stored; the lanes that have no more are performed, and with the last of them the access. -/
def Acc.posted (a : Acc) (ks : List (AccByte × Loc)) : Acc :=
  let a := ks.foldl (fun a (k, _) => a.takeByte k (a.datum k)) a
  { a with perf := a.perf || a.lanes.all (·.done) }

/-- The global part of a store in one sector: mask and data. -/
def secStore (bs : List (Loc × Byte)) (vsec : Nat) : DWord × List (Nat × Byte) :=
  bs.foldl (fun r (p, b) =>
    match p with
    | .glob va _ => if va / 64 = vsec then (r.1 ||| byteBit (va % 64), r.2 ++ [(va % 64, b)]) else r
    | _ => r) (0, [])

/-- Bytes laid over a sector, later ones standing. -/
def overlay (d : BitVec 512) (bs : List (Nat × Byte)) : BitVec 512 :=
  secOf (bs.foldl (fun (l : List Byte) (i, b) => l.set i b) ((List.range 64).map (secByte d)))

/-- One sector of a global store (R241, R243): into the L1, or, with N and the sector not present, to memory at once. An N store
supersedes a fill that is outstanding for its sector, so that the thread's later loads see its bytes (R128, log 10). None where
no line can be allocated yet. -/
def State.postSector (s : State) (g : Nat) (G : Group) (a : Acc) (ks : List (AccByte × Loc)) (v : Nat × Nat) : Option State :=
  let asid := (s.vf G.vf).asid
  let c := s.core G.core
  let x := c.secAt G.vf asid v.1
  let w := secStore (a.stored ks) v.1
  if a.noAlloc ∧ !x.v ∧ x.dm = 0 then
    some (((s.updCore G.core fun c => c.invalidate fun f i k => f == G.vf && i == asid && k == v.1).send
      ⟨0, .acc g a.id 0, .write w.1 (overlay 0 w.2), v.2, G.vf, s.key G.vf, a.cls, s.stamp a.budget, G.core, G.part⟩).updAcc g a.id
        fun a => { a with wait := a.wait + 1 })
  else
    (s.allocLine G.core G.vf asid (v.1 / 4) (v.2 / 4)).map fun s =>
      let s := if a.evict then s.markFirst G.core G.vf asid (v.1 / 4) else s
      s.updCore G.core fun c => c.updSecAt G.vf asid v.1 fun x =>
        { x with data := overlay x.data w.2, dm := x.dm ||| w.1, gset := if x.gset.contains g then x.gset else x.gset ++ [g] }

/-- Does an access reach a bank of another core (R236)? -/
def Acc.remote (a : Acc) (core : Nat) : Bool :=
  a.lanes.any fun x => x.locs.any fun p => match p with | .spad c _ => c != core | _ => false
/-- Does an access reach the peer window? -/
def Acc.isPeer (a : Acc) : Bool := a.lanes.any fun x => x.locs.any fun p => match p with | .peer _ => true | _ => false

/-- A load that has been bound before a narrow acquire gives back what it has read of some bytes. -/
def Acc.forget (a : Acc) (ps : List Loc) : Acc :=
  { a with lanes := a.lanes.map fun x =>
      let got := x.got.filter fun (i, _) => !((x.locs[i]?.map fun p => ps.any p.same).getD false)
      if x.oob || x.err then x else { x with got := got, done := x.done && got.length == x.got.length } }

/-- Is an acquire of a group, with its identifier, one toward a party on its core: a group of a team, or an engine, which has neither
(R271, R272)? -/
def Acc.toward (b : Acc) (k team : Nat) (party : Option (Nat × Nat)) : Bool :=
  match party with
  | none => b.acq ≥ 4
  | some (g, t) => if b.acq = 2 then g == k else if b.acq = 3 then t == team else true

/-- A store, or an atomic, of a party on a core to some bytes: what loads have read of them before an acquire toward that party is read
again (R272). -/
def State.snoop (s : State) (core : Nat) (party : Option (Nat × Nat)) (ps : List Loc) : State :=
  { s with groups := s.groups.map fun (k, G) =>
      (k, if G.core = core ∧ G.acc.any (fun a => a.kind == .load && !a.perf) then
        { G with acc := G.acc.map fun a =>
            if a.kind = .load ∧ !a.perf ∧
                (accBefore G.acc a.id).any (fun b => overlaps a.mask b.mask && b.narrow && b.acqOpen s.now && b.toward k G.team party) then
              a.forget ps else a }
        else G) }

/-- Posting some bytes of a store (R274, R275): its global sectors and its banks. None where a line cannot be allocated yet. -/
def State.postBytes (s : State) (g : Nat) (G : Group) (a : Acc) (ks : List (AccByte × Loc)) : Option State :=
  let r := (secsOf ks).foldl (fun r v => r.bind fun s => State.postSector s g G a ks v) (some s)
  r.map fun s =>
    ((((a.stored ks).foldl (fun s (p, b) => s.pokeBank p b) s).snoop G.core (some (g, G.team)) (ks.map (·.2))).wake.updAcc g a.id
      fun a => a.posted ks).sweep g

/-- The write-error bit of a group (R400); a group that has ended has a trap record instead. -/
def State.writeError (s : State) (vf core g : Nat) : State :=
  match s.group? g with
  | some G =>
    if G.ended then
      (let p := s.past.get g ⟨G.vf, s.lidOf G, G.core, G.part, G.slot⟩
       s.trapRecord p.vf p.lid p.core p.part p.slot 0 0 0 (causeWord 6 23 0))
    else s.updGroup g fun G => { G with werr := true }
  | none =>
    let p := s.past.get g ⟨vf, 0, core, 0, 0⟩
    s.trapRecord p.vf p.lid p.core p.part p.slot 0 0 0 (causeWord 6 23 0)

/-- The target of a peer offset: device, function and page; lanes of one issue that fault share a record for each (R411, R444). -/
def State.peerPage (s : State) (vf o : Nat) : Nat × Nat × Nat :=
  match s.peerByte vf o false with | some (d, f, va) => (d, f, va / 4096) | none => (0, 0, 0)

/-- The ACC code of an access (R412). -/
def AccKind.accCode : AccKind → Nat
  | .store => 1
  | .atomic _ _ => 2
  | _ => 0

/-- Threads of a peer access leave its path and are parked in front of it: their part of the block, the pending result and the
window goes (R34, R444). -/
def State.parkPeer (s : State) (g : Nat) (a : Acc) (m : Word) : State :=
  let keep (x : Word) : Bool := x &&& ~~~m != 0
  s.updGroup g fun G =>
    let G :=
      if a.mask = 0 then { G with hnd := G.hnd.map fun H => { H with ready := false, pc := a.pc, hints := Hints.clear } }
      else G.updLanes (lanesOf m) fun _ t => { t with st := .faulted, pc := a.pc, hints := Hints.clear }
    { G with
      blk := G.blk.filterMap fun b =>
        if b.peers a.id then (if keep b.mask then some { b with mask := b.mask &&& ~~~m } else none) else some b
      pend := G.pend.filterMap fun p =>
        if some p.id = a.pend then (if keep p.mask then some { p with mask := p.mask &&& ~~~m } else none) else some p
      wins := G.wins.filterMap fun w =>
        if some w.id = a.pend then (if keep w.mask then some { w with mask := w.mask &&& ~~~m } else none) else some w }

/-- The lanes of a peer access that its target could not translate are parked, each page with its record (R411, R444). -/
def State.peerFaults (s : State) (g : Nat) (G : Group) (a : Acc) : State :=
  let bad : List (Nat × Nat × Nat × Nat) := a.lanes.flatMap fun x => x.flt.map fun (o, cause, lev) => (x.lane, o, cause, lev)
  let pages := bad.foldl (fun (l : List (Nat × Nat × Nat)) x =>
    let p := s.peerPage G.vf x.2.1
    if l.contains p then l else l ++ [p]) []
  pages.foldl (fun s p =>
    match bad.filter fun x => s.peerPage G.vf x.2.1 == p with
    | [] => s
    | (l, o, cause, lev) :: rest =>
      let m := if a.uniform then a.mask else maskOf (l :: rest.map (·.1))
      let va := rest.foldl (fun k x => min k x.2.1) o
      (s.fault ⟨G.vf, va, s.lidOf G, m, a.pc, G.core, dieOf G.core, G.part, G.slot, 0, 0, a.kind.accCode, cause, lev, true⟩
        (.lanes g m)).1.parkPeer g a m) s

/-- Is a thread one that has stopped at an instruction beside lanes that complete it: parked or trapped by it, or of another class of hints
at it? -/
def Thread.left (t : Thread) (inMask : Bool) (pc : Word) : Bool :=
  (inMask && (t.st == .faulted || t.st == .trapped)) || (t.st == .ready && t.pc == pc)

/-- One convoy step of an attached group, at a C load (R263): it is reported within 128 ticks (R264). The lanes that have not completed the
load take no further step for it. -/
def State.convoyStep (s : State) (g : Nat) (mask pc : Word) : State :=
  match s.group? g with
  | none => s
  | some G =>
    if G.cvm.state = 1 then
      (s.updGroup g fun G =>
        { G with
          cvm := { G.cvm with pos := G.cvm.pos + 1 }
          lanes := G.lanes.map fun (l, t) => (l, if t.left (mask.getLsbD l) pc then { t with cstep := some pc } else t) }).cvSend G G.cvm.id
        (some 128) (.step g G.cvm.id)
    else s

/-- A C load has been issued or answered: it counts a step if some lane completes it that has not taken its step there (R263). -/
def State.countStep (s : State) (g : Nat) (mask pc : Word) (done : List Nat) : State :=
  match s.group? g with
  | none => s
  | some G =>
    let fresh := done.any fun l => (G.lane l).cstep != some pc
    let s := s.updGroup g fun G => G.updLanes done fun _ t => { t with cstep := none }
    if fresh then s.convoyStep g mask pc else s

/-- A peer access whose requests have all been answered: lanes that faulted are parked, the others have their result, and the path
goes on (R444, log 9). A C load counts its step now, if some lane has completed (R263). -/
def State.peerEnd (s : State) (g : Nat) (G : Group) (a : Acc) : State :=
  let blk := G.blk.find? (·.peers a.id)
  let s := s.peerFaults g G a
  let good : List LaneAcc := a.lanes.filter fun x => x.flt.isEmpty
  let s := if good.isEmpty then s.updGroup g fun G => { G with acc := G.acc.filter fun b => b.id != a.id }
    else
      let s := match blk with
        | some b => if a.cload then s.countStep g a.mask b.pc (good.map fun (x : LaneAcc) => x.lane) else s
        | none => s
      ((s.updAcc g a.id fun b => { b with lanes := good.map fun (x : LaneAcc) => { x with done := true } }).finish g a.id).sweep g
  match (s.group? g).bind fun G => G.blk.find? (·.peers a.id) with
  | some b => s.unblock g b
  | none => s

/-- What an answer gives one lane of a peer access: the bytes read, a refusal, or a translation fault. -/
def LaneAcc.answer (x : LaneAcc) (store : Bool) (r : PeerAns) : LaneAcc :=
  let mine := (r.parts.zip r.data).filter fun (p, _) => p.lane == x.lane
  if r.parts.any (·.lane == x.lane) then
    let x := if store || r.bad || r.fault.isSome then x else mine.foldl (fun x (p, b) => { x with got := x.got.put p.i b }) x
    { x with
      err := x.err || (r.bad && !store)
      flt := match r.fault with | some (cause, lev) => x.flt ++ [(r.off, cause, lev)] | none => x.flt }
  else x

/-- Has a peer request passed its stamp without an answer (R257)? -/
def State.peerLate (s : State) (id : Nat) : Bool :=
  s.peerSent.any fun (r : PeerReq) => r.id == id && r.stamp != 0 && Nat.blt r.stamp s.now

/-- The answer to one request of a peer access (R443, R444): data or the old value, the completion time, a refusal, which is an
integrity fault with detail 21 or 23, or a translation fault at the target. An acknowledgement is counted by its group alone (R279). -/
def State.peerAnswer (s : State) (x : PeerAns) : State :=
  let late := s.peerLate x.id
  if x.ack then s.updGroup x.guid fun G => { G with acks := G.acks - 1 }
  else
    let s := { s with peerSent := s.peerSent.filter (·.id != x.id) }
    match (s.group? x.guid).bind fun G => (G.acc.find? (·.id == x.acc)).map fun a => (G, a) with
    | none => s
    | some (G, a) =>
      let s := if late then s.miss G.core G.part else s
      let store := a.kind == .store
      let s := s.updAcc x.guid a.id fun a =>
        { a with lanes := a.lanes.map fun l => l.answer store x, wait := a.wait - 1, comp := max a.comp x.c }
      let s := if a.kind = .load then s else s.updGroup x.guid fun G =>
        { G with peerC := max G.peerC x.c, acks := if x.bad || x.fault.isSome then G.acks - 1 else G.acks }
      let s := if x.bad && store then s.writeError G.vf G.core x.guid else s
      match s.acc? x.guid x.acc with
      | some b => if b.wait = 0 then s.peerEnd x.guid G b else s
      | none => s

/-- The planes in service (R441). -/
def State.planes (s : State) : List Nat := (List.range 20).filter fun p => (s.port p).up

/-- Can a device be reached: some plane is in service, and it answers (R441, R444)? -/
def State.reaches (s : State) (dev : Nat) : Bool := dev == s.devId || (!(s.unreach.contains dev) && !s.planes.isEmpty)

/-- The plane of a request to a sector of a device: a hash taken over the planes in service (R441). -/
def State.planeOf (s : State) (dev sec : Nat) : Nat := (s.planes)[Config.planeHash dev sec % max s.planes.length 1]?.getD 0

/-- The bytes of a peer access with their targets: the lane and byte, the peer offset, the device, function and virtual address. -/
def State.peerBytes (s : State) (vf : Nat) (a : Acc) (write : Bool) : List (AccByte × Nat × Nat × Nat × Nat) :=
  a.bytes.filterMap fun (k, p) =>
    match p with
    | .peer o => (s.peerByte vf o write).map fun (d, f, va) => (k, o, d, f, va)
    | _ => none

/-- The request of some bytes of a peer access, which lie in one sector of one target (R237, R443). -/
def State.peerReqOf (s : State) (g : Nat) (a : Acc) (op : Nat) (wide : Bool) (bs : List (AccByte × Nat × Nat × Nat × Nat)) : Option PeerReq :=
  match bs with
  | [] => none
  | (k, o, d, f, va) :: _ =>
    let x := a.lane? k.1
    some
      { id := 0, dev := d, from_ := s.devId, plane := s.planeOf d (va / 64), guid := g, acc := a.id, rvf := f, vsec := va / 64
        off := bs.foldl (fun m b => min m b.2.1) o, op := op, wide := wide
        parts := bs.map fun (j, _, _, _, v) => ⟨j.1, j.2, v % 64⟩
        data := if op = 1 then bs.map fun (j, _) => a.datum j else if op = 0 then [] else (x.map (·.data)).getD []
        cmp := if op < 2 then [] else (x.map (·.cmp)).getD []
        cls := a.cls, stamp := s.stamp a.budget }

/-- The requests of a peer access (R237, R443): for a load or a store one for each sector of a target, for an atomic one for each lane, in
lane order. -/
def State.peerReqs (s : State) (g : Nat) (G : Group) (a : Acc) (op : Nat) (wide : Bool) : List PeerReq :=
  let bs := s.peerBytes G.vf a (op != 0)
  let key (b : AccByte × Nat × Nat × Nat × Nat) : Nat × Nat × Nat × Nat :=
    (if op < 2 then 0 else b.1.1 + 1, b.2.2.1, b.2.2.2.1, b.2.2.2.2 / 64)
  let ks := bs.foldl (fun (l : List (Nat × Nat × Nat × Nat)) b => if l.contains (key b) then l else l ++ [key b]) []
  ks.filterMap fun k => s.peerReqOf g a op wide (bs.filter fun b => key b == k)

/-- A peer request is sent toward its target (R443). -/
def State.sendPeerReq (s : State) (r : PeerReq) : State :=
  let r := { r with id := s.uid }
  if r.dev = s.devId then { s with peerIn := s.peerIn ++ [r], peerSent := s.peerSent ++ [r] }.bump
  else { s with peerOut := s.peerOut ++ [r], peerSent := s.peerSent ++ [r] }.bump

/-- The sectors of the window table that a peer access reads are checked (R399, R511). -/
def State.windowChecked (s : State) (vf : Nat) (a : Acc) : State :=
  let is := distinct [] (a.bytes.filterMap fun (_, p) => match p with | .peer o => some (o / 2 ^ 40) | _ => none)
  (distinct [] (is.flatMap fun i => [((s.vf vf).pwb + 16 * i) / 64, ((s.vf vf).pwb + 16 * i + 15) / 64])).foldl
    (fun s p => s.checked (s.key vf) p) s

/-- Sending the requests of a peer access (R443); a target that cannot be reached refuses at once (R444). -/
def State.sendPeer (s : State) (g : Nat) (G : Group) (a : Acc) (op : Nat) (wide : Bool) : State :=
  let rs := s.peerReqs g G a op wide
  let s := s.windowChecked G.vf a
  let s := (s.updAcc g a.id fun a => { a with begun := true, wait := a.wait + rs.length, perf := op == 1 }).updGroup g fun G =>
    { G with acks := if op = 0 then G.acks else G.acks + rs.length }
  let s := (rs.filter fun r => s.reaches r.dev).foldl State.sendPeerReq s
  (rs.filter fun r => !(s.reaches r.dev)).foldl
    (fun s r => s.peerAnswer ⟨s.uid, g, a.id, r.off, r.parts, [], 0, true, none, false⟩) s

/-! ## Performing an atomic -/

/-- One lane's atomic in a bank (R245, R296): one step. -/
def State.bankAtomic (s : State) (g : Nat) (G : Group) (a : Acc) (op : Nat) (wide : Bool) (x : LaneAcc) : State :=
  let old := x.locs.map s.byteAt
  let r := atomNew op wide (leNat old) (leNat x.data) (leNat x.cmp)
  ((((x.locs.zip (leBytes a.width r.1)).foldl (fun s (p, b) => s.pokeBank p b) s).snoop G.core (some (g, G.team)) x.locs).wake.updAcc g a.id
    fun a => a.updLane x.lane fun x => (old.zipIdx).foldl (fun x (b, i) => x.take a.width i b) { x with sent := true })

/-- Sending one lane's global atomic (R282): the core's own dirty bytes of its line go first, and the sector is set to V := 0. -/
def State.sendAtomic (s : State) (g : Nat) (G : Group) (a : Acc) (op : Nat) (wide : Bool) (x : LaneAcc) : State :=
  let asid := (s.vf G.vf).asid
  match x.locs with
  | .glob va pa :: _ =>
    let s := match (s.core G.core).line? G.vf asid (va / 256) with
      | some L => s.backLine G.core L
      | none => s
    (((s.updCore G.core fun c => c.invalidate fun f i k => f == G.vf && i == asid && k == va / 64).snoop G.core (some (g, G.team)) x.locs).send
      ⟨0, .acc g a.id x.lane, .atomic op wide (pa % 64) x.data x.cmp, pa / 64, G.vf, s.key G.vf, a.cls, s.stamp a.budget,
        G.core, G.part⟩).updAcc g a.id fun a => { a.updLane x.lane fun x => { x with sent := true } with begun := true, wait := a.wait + 1 }
  | _ => s

/-- The lanes of an atomic that may go next: each waits for the lower lanes that reach its word (R296). -/
def Acc.nextAtomic (a : Acc) : List LaneAcc :=
  a.lanes.filter fun x => !x.sent && !x.oob && a.lanes.all fun y => x.lane ≤ y.lane || y.oob || y.sent || !(y.meets x)

/-- One lane's step of an atomic that is due: in its bank, or sent to its home die; those of a peer record leave together. -/
def State.performAtomic (s : State) (g : Nat) (G : Group) (a : Acc) (op : Nat) (wide : Bool) (x : LaneAcc) : State :=
  match x.locs with
  | .glob _ _ :: _ => s.sendAtomic g G a op wide x
  | .peer _ :: _ => if a.begun || !(a.due (accBefore G.acc a.id) s.now) then s else s.sendPeer g G a (2 + op) wide
  | _ => ((s.bankAtomic g G a op wide x).finish g a.id).sweep g

/-! ## Releases and acquires -/

/-- Does a release at a scope act on global bytes as die scope does (R279)? -/
def State.globalRelease (s : State) (G : Group) (scope : Nat) : Bool :=
  scope ≥ 6 || (scope == 5 && (match (s.team? G.team).bind s.recOf with | some r => r.clustered | none => false))

/-- The flushes of a release (R279): every sector whose group set names the group. -/
def State.flushGroup (s : State) (g : Nat) (G : Group) : State :=
  (s.core G.core).l1.foldl (fun s L =>
    (List.range 4).foldl (fun s k => if (L.sec k).gset.contains g then s.backSec G.core L k else s) s) s

/-- Are write-backs that name a group still on their way (R279)? -/
def State.backsOut (s : State) (g : Nat) : Bool :=
  let mine (r : Req) : Bool := match r.src with | .back _ gs => gs.contains g | _ => false
  s.wire.any mine || s.dones.any (fun d => mine d.req) ||
  s.dies.any fun (_, D) =>
    D.units.any (fun (_, U) => U.inq.any mine) ||
    D.chans.any fun (_, C) => C.q.any fun x => match x with | .req r => mine r | .entry _ => false

/-- Have the actions of a release at a scope ended (R279)? At fabric and system scope each earlier peer store and atomic has been
acknowledged. -/
def State.released (s : State) (g : Nat) (G : Group) (a : Acc) (scope : Nat) : Bool :=
  let before := accBefore G.acc a.id
  before.all (fun b => b.perf || !(overlaps a.mask b.mask)) &&
  (scope < 5 || before.all fun b => !(b.remote G.core) || b.wait == 0) &&
  (!(s.globalRelease G scope) || (a.begun && !(s.backsOut g) && before.all (fun b => b.wait == 0) && s.now ≥ (s.core G.core).hzc)) &&
  (scope < 8 || G.peerC = 0 || s.now ≥ G.peerC + 100) &&
  (scope < 9 || G.acks = 0)

/-- V := 0 in every sector of a core's L1 (R280). -/
def State.invalidateAll (s : State) (core : Nat) : State := s.updCore core fun c => c.invalidate fun _ _ _ => true

/-! ## One step of an access -/

/-- Taking an entry out of the order. -/
def State.dropAcc (s : State) (g id : Nat) : State := (s.updGroup g fun G => { G with acc := G.acc.filter (·.id != id) }).bury g

/-- The die whose Drover or Assayer carries out a command (R487, R493, R494): that of the object, or, for a packet sender toward
another device, that of the issuing core. -/
def XCmd.home (x : XCmd) (dev : Nat) : Nat :=
  let a := (x.desc.getD 0 0).toNat
  if x.func < 16 then a % 256 / 64
  else if (x.func = 17 ∨ x.func = 18) ∧ a / 256 % 4096 ≠ dev then dieOf x.core
  else a / 16 % 4

/-- An engine command is sent (R275, R314, R323, R482). -/
def State.sendCmd (s : State) (g : Nat) (G : Group) (a : Acc) (c : EngCmd) : State :=
  match c with
  | .copy x => (s.updCore G.core fun k => { k with copies := k.copies ++ [x] }).dropAcc g a.id
  | .queue q => (s.updDie q.die fun D => { D with qcmds := D.qcmds ++ [q] }).updAcc g a.id fun a => { a with perf := a.acq == 0, begun := true }
  | .x q => (s.updDie (q.home s.devId) fun D => { D with xcmds := D.xcmds ++ [q] }).dropAcc g a.id

/-- A store to a bank of another core has been sent, and reaches the bank (R236, R274). -/
def State.landBytes (s : State) (g : Nat) (a : Acc) (ks : List (AccByte × Loc)) : State :=
  (((a.stored ks).foldl (fun s (p, b) => s.pokeBank p b) s).wake.updAcc g a.id fun a =>
    let a := ks.foldl (fun a (k, _) => a.takeByte k (a.datum k)) a
    { a with wait := if a.left.isEmpty then 0 else a.wait }).sweep g

/-- Does a store go to memory past the L1 in some sector: with N, where the sector is not present (R243)? -/
def State.direct (s : State) (G : Group) (a : Acc) : Bool :=
  a.noAlloc && (secsOf a.bytes).any fun v =>
    let x := (s.core G.core).secAt G.vf (s.vf G.vf).asid v.1
    !x.v && x.dm == 0

/-- The next step of one access in a group's order, its lanes together (R274): nothing where R275 holds it back. -/
def State.perform (s : State) (g id : Nat) : State :=
  match s.group? g with
  | none => s
  | some G =>
    match G.acc.find? (·.id == id) with
    | none => s
    | some a =>
      let before := accBefore G.acc id
      match a.kind with
      | .load =>
        if a.perf then s
        else if a.isPeer then (if a.begun || !(a.due before s.now) then s else s.sendPeer g G a 0 false)
        else if a.due before s.now true then s.bindBytes g G a a.left
        else s
      | .store =>
        if a.perf then (if a.begun ∧ a.wait ≠ 0 ∧ a.remote G.core then s.landBytes g a a.left else s)
        else if !(a.due before s.now) then s
        else if a.isPeer then (s.sendPeer g G a 1 false).sweep g
        else if a.remote G.core then
          s.updAcc g id fun a => { a with begun := true, perf := true, wait := 1, lanes := a.lanes.map fun x => { x with done := true } }
        else (s.postBytes g G a a.left).getD s
      | .atomic op wide =>
        match a.nextAtomic.find? fun x => a.dueLane before s.now false x with
        | some x => s.performAtomic g G a op wide x
        | none => (s.finish g id).sweep g
      | .release scope =>
        if a.perf ∨ !(a.due before s.now) then s
        else if a.begun ∨ !(s.globalRelease G scope) then s
        else (s.flushGroup g G).updAcc g id fun a => { a with begun := true }
      | .acquire _ => s
      | .cmd c => if a.perf ∨ a.begun ∨ !(a.due before s.now) then s else (s.sendCmd g G a c).sweep g

/-- The step of one lane of an access alone, or of one byte where its bytes go one by one (R127, R274, R383). A load takes with it what it
has to read in the same step; a store waits for its lower lanes where they reach the same bytes (R129). -/
def State.performPart (s : State) (g id lane byte : Nat) : State :=
  match s.group? g with
  | none => s
  | some G =>
    match G.acc.find? (·.id == id) with
    | none => s
    | some a =>
      let before := accBefore G.acc id
      let dueAll (early : Bool) (ks : List (AccByte × Loc)) : Bool :=
        (lanesIn ks).all fun l => match a.lane? l with | some x => a.dueLane before s.now early x | none => false
      match a.kind with
      | .load =>
        let ks := a.together 32 (a.unit_ lane byte)
        if a.perf ∨ a.isPeer ∨ ks = [] ∨ !(dueAll true ks) then s else s.bindBytes g G a ks
      | .store =>
        let ks := a.unit_ lane byte
        if ks = [] ∨ !(a.inTurn ks) ∨ a.isPeer then s
        else if a.perf then (if a.begun ∧ a.wait ≠ 0 ∧ a.remote G.core then s.landBytes g a ks else s)
        else if a.remote G.core ∨ s.direct G a ∨ !(dueAll false ks) then s
        else (s.postBytes g G a ks).getD s
      | .atomic op wide =>
        match a.nextAtomic.find? fun x => x.lane == lane && a.dueLane before s.now false x with
        | some x => s.performAtomic g G a op wide x
        | none => s
      | _ => s

/-! ## Fills and completions -/

/-- A write or a read of a requester came after its stamp: the partition's counter goes up (R257). -/
def State.judge (s : State) (r : Req) : State :=
  if r.stamp ≠ 0 ∧ s.now > r.stamp then s.miss r.core r.part else s

/-- The bytes of a load that may be read now: those of the lanes that are due with all that are read in the same step. -/
def State.readyBytes (s : State) (g id : Nat) : List (AccByte × Loc) :=
  match s.group? g with
  | none => []
  | some G =>
    match G.acc.find? (·.id == id) with
    | none => []
    | some a =>
      if a.due (accBefore G.acc id) s.now true then a.left
      else
        a.left.filter fun (k, _) =>
          (lanesIn (a.together 32 (a.unit_ k.1 k.2))).all fun l =>
            match a.lane? l with | some x => a.dueLane (accBefore G.acc id) s.now true x | none => false

/-- A waiting load reads a sector as it stands with a fill (R240, R242); what a fill that failed its check would have brought is an error of
the lanes that needed it (R400). -/
def State.wakeLoad (s : State) (x : Sector) (vsec : Nat) (bad : Bool) (g id : Nat) : State :=
  let ns := inSector (s.readyBytes g id) vsec
  ((s.updAcc g id fun a =>
    if bad then
      { a with lanes := a.lanes.map fun l =>
          if ns.any fun (k, i) => k.1 == l.lane && !x.dm.getLsbD i then { l with err := true, done := true } else l }
    else (a.hits x s.now ns).getD a).finish g id).sweep g

/-- A prefetch asks for its sector (R292): where some byte would miss and no fill is outstanding, a fill is requested; where the set has no
line to give, it waits for one (R238). -/
def State.prefetchFill (s : State) (core : Nat) (w : PrefWait) : State :=
  let c := s.core core
  let hit := (List.range 64).all fun i => ((c.secAt w.vf w.asid w.vsec).read s.now i).isSome
  let mark (s : State) : State := if w.evict then s.markFirst core w.vf w.asid (w.vsec / 4) else s
  if hit ∨ (c.fillOf w.vf w.asid w.vsec).isSome then mark s
  else
    match s.allocLine core w.vf w.asid (w.vsec / 4) (w.psec / 4) with
    | none => s.updCore core fun c => { c with prefq := c.prefq ++ [w] }
    | some s =>
      let fid := s.uid
      mark (((s.bump).updCore core fun c =>
        { c with fills := c.fills ++ [⟨fid, w.vf, w.asid, w.vsec, w.psec, false, false, 0, w.part, []⟩] }).send
        ⟨0, .fill core fid, .read (some w.lease), w.psec, w.vf, s.key w.vf, w.cls, s.stamp w.budget, core, w.part⟩)

/-- The prefetches that wait for a line try again. -/
def State.retryPrefetch (s : State) (core : Nat) : State :=
  let ws := (s.core core).prefq
  ws.foldl (fun s w => s.prefetchFill core w) (s.updCore core fun c => { c with prefq := [] })

/-- A sector with what a fill brings (R242): the line's bytes stand where they are dirty, or where the core has written them back since the
fill was sent. -/
def Fill.merge (f : Fill) (x : Sector) (k : Copy) : Sector :=
  { x with data := secMix (x.dm ||| f.keep) k.data x.data, v := true, exp := k.exp }

/-- The copy of a reply reaches a core (R242, R254): the sector is filled, unless the fill was superseded or allocates nothing, and
the loads that wait for it read. What an N load's fill brings serves that load alone (R243): the others miss again. -/
def State.fillArrives (s : State) (k : Copy) (core fid : Nat) : State :=
  let s := s.judge k.req
  match (s.core core).fills.find? (·.id == fid) with
  | none => s
  | some f =>
    let x := (s.core core).secAt f.vf f.asid f.vsec
    let y := f.merge x k
    let s := s.updCore core fun c => { c with fills := c.fills.filter (·.id != fid) }
    let s := if f.sup ∨ f.noAlloc ∨ k.bad then s else s.updCore core fun c => c.updSecAt f.vf f.asid f.vsec fun _ => y
    let s :=
      if f.noAlloc then
        (match f.waiters with
         | (g, id) :: _ => s.wakeLoad { y with exp := s.now + 1 } f.vsec k.bad g id
         | [] => s)
      else f.waiters.foldl (fun s (g, id) => s.wakeLoad y f.vsec k.bad g id) s
    s.retryPrefetch core

/-- The completion of a write or an atomic comes back (R277, R282, R400). -/
def State.completes (s : State) (d : Done) : State :=
  let r := d.req
  match r.src with
  | .eng t => s.engDone d t
  | _ =>
    let s := (s.judge r).updCore r.core fun c => { c with hzc := max c.hzc d.c }
    let s := { s with shoots := s.shoots.map fun x =>
      if x.out.contains r.id then { x with out := x.out.filter (· != r.id), until_ := max x.until_ d.c } else x }
    match r.src with
    | .back core gs => if d.bad then gs.foldl (fun s g => s.writeError r.vf core g) s else s
    | .acc g id lane =>
      let s := s.updGroup g fun G => { G with comp := max G.comp d.c }
      let s := s.updAcc g id fun a => { a with wait := a.wait - 1, comp := max a.comp d.c }
      match r.kind with
      | .atomic _ _ at_ _ _ =>
        let team := match s.group? g with | some G => G.team | none => 0
        let s := s.snoop r.core (some (g, team)) ((List.range d.old.length).map fun i => .glob 0 (r.psec * 64 + at_ + i))
        ((s.updAcc g id fun a => a.updLane lane fun x =>
          if d.bad then { x with err := true, done := true }
          else (d.old.zipIdx).foldl (fun x (b, i) => x.take a.width i b) x).finish g id).sweep g
      | _ => (if d.bad then s.writeError r.vf r.core g else s).sweep g
    | _ => s

/-! ## Issuing an access -/

/-- The class, budget and lease of a record's accesses; class 3 of lease under R or LC3 (R237, R289). -/
def accLease (c : Ctx) (r : QWord) (ro : Bool) : Nat := if ro || c.hints.lc3 then 3 else recLease r

/-- The lanes of an access with the data they bring, and those that are out of bounds, already done. -/
def accLanes (p : Plan) (width : Nat) (data cmp : Nat → List Byte) : List LaneAcc :=
  p.good.map (fun (l, ls) => ⟨l, ls, data l, cmp l, [], false, false, false, !(alignedAt width ls), false, []⟩) ++
  p.oob.map fun l => ⟨l, [], [], [], [], true, false, true, false, true, []⟩

/-- Does a path stay at an access: at a peer access until the target has answered (R34, R444, log 9), at one with a release at die scope or
wider until the actions of that release have ended (R400, log 11)? -/
def stays (peer : Bool) (rel : Nat) : Bool := peer || rel ≥ 6

/-- Leaving an access behind: the path goes on, or stays; then the lanes of a store that are out of bounds are flagged when it goes on. -/
def State.leave (s : State) (c : Ctx) (peer : Bool) (id rel rid : Nat) (oob : Word) : State :=
  if peer then s.blockPath c (.peer id oob) else if rel ≥ 6 then s.blockPath c (.fence rid oob) else s.retire c

/-- What an access does to its path at issue: a load or an atomic starts its result; a store that its path leaves behind flags its lanes out
of bounds (R20, R123). -/
def State.startAccess (s : State) (c : Ctx) (pid : Nat) (mask : Word) (dst : Option Dst) (v : Option (List LaneVal)) (oob : Word) : State :=
  match dst with
  | some d => s.updGroup c.g fun G => G.start pid mask c.first d v
  | none => if oob = 0 then s else s.updGroup c.g fun G => G.flagAll oob flagOOB

/-- Issuing an access of a kind through a record (R122, R123, R288, R296, R411): lanes that fail are stopped; with a release the
release actions go before it in the order; a load or atomic starts its result. Nothing is left to do where no lane goes on; a path
without lanes (R396) has nothing to access, and goes on. `cload` marks a C load, which counts its convoy step here, or, toward another
device, when it is answered (R263). -/
def State.access (s : State) (c : Ctx) (k : AccKind) (r : QWord) (width : Nat) (sext : Bool) (w : Want) (idx : List (Nat × Int))
    (uniform evict noAlloc cload : Bool) (lease acq rel : Nat) (dst : Option Dst) (data cmp : Nat → List Byte) : State :=
  let p := s.plan c.G.core c.G r width w idx
  let pol1 := recOob r == 1
  let stops := p.faults ≠ [] ∨ (pol1 ∧ p.oob ≠ [])
  let s := p.st.stopLanes c p w uniform pol1
  let p := if pol1 then { p with oob := [] } else p
  if (uniform ∧ stops) ∨ (c.mask ≠ 0 ∧ p.good = [] ∧ p.oob = []) then s
  else
    let mask : Word := if uniform then c.mask else maskOf (p.good.map (·.1) ++ p.oob)
    let rid := s.uid
    let s := if rel = 0 then s else (s.addAcc c.g (fenceAcc rid { c with mask := mask } (.release rel))).bump
    let pid := s.uid
    let id := pid + 1
    let a : Acc := ⟨id, mask, k, accLanes p width data cmp, width, sext, dst.map fun _ => pid, acq, recClass r, recBudget r, lease,
      evict, noAlloc, cload, uniform, false, 0, false, 0, c.first⟩
    let none_ := p.good == []
    let peer := a.isPeer && !none_
    let oob : Word := if dst.isSome ∨ p.oob = [] then 0 else if uniform then c.mask else maskOf p.oob
    let s := s.startAccess c pid mask dst (if none_ then some (a.lanes.map a.laneVal) else none) (if stays peer rel then 0 else oob)
    let s := if none_ then s else s.addAcc c.g a
    let s := (((s.bump).bump).sweep c.g).leave c peer id rel rid oob
    if cload && !peer then s.countStep c.g c.mask c.pc (p.good.map (·.1) ++ p.oob) else s

end Sys2Proof.Machine
end

