-- ==== Sys2Proof/Machine/MemSteps.lean ====
section
/-! DEFINITION. The steps of the memory system that no instruction stream takes: results written back (R26), requests, grants,
replies and fills (R242, R250, R254, R276), write-backs and their completions (R243, R277), global atomics (R282), and the end of
the actions of a fence (R279, R280). -/

namespace Sys2Proof.Machine

/-- A step of another party, or a refusal where it is not due. -/
def eventOf (name : String) (r : Option State) : Result :=
  match r with
  | some s => .next s
  | none => .refused (.notPending name)

/-- SPOUT_REQUEST_ARRIVAL: request `r` reaches its home unit (R247, R250). -/
def execSpoutRequestArrival (r : Nat) (s : State) : Result :=
  eventOf "SPOUT_REQUEST_ARRIVAL"
    ((s.wire.find? (·.id == r)).bind fun q =>
      if s.wireNext q then some ({ s with wire := s.wire.filter (·.id != r) }.arriveUnit q) else none)

/-- Changing a Spout entry, wherever it is. -/
def State.updEntry (s : State) (id : Nat) (f : Entry → Entry) : State :=
  { s with dies := s.dies.map fun (d, D) =>
      (d, { D with units := D.units.map fun (u, U) =>
        (u, { U with entries := U.entries.map fun e => if e.id = id then f e else e }) }) }

/-- A Spout entry with its die and unit. -/
def State.entry? (s : State) (id : Nat) : Option (Nat × Nat × Entry) :=
  s.dies.findSome? fun (d, D) => D.units.findSome? fun (u, U) => (U.entries.find? (·.id == id)).map fun e => (d, u, e)

/-- The expiry that a request's copy receives, granted at a tick: none for a read that keeps no copy (R276). -/
def expiryOf (now : Nat) (r : Req) : Nat := match r.kind with | .read (some k) => now + leaseTicks k | _ => 0

/-- GRANT: the channel serves a Spout entry's read (R276, R251, R399): the data and the expiries are fixed, the horizon is raised,
and the entry closes. The read of a kind 2 word, which has no entry and keeps no copy, is answered likewise (R250). -/
def execGrant (ch : Nat) (s : State) : Result :=
  eventOf "GRANT"
    ((s.nextAt ch).bind fun (v, c) =>
      match v.what with
      | .req r =>
        match r.kind with
        | .wait =>
          let x := s.answerOf r.key r.psec
          let s := (s.takeAt ch v c).checked r.key r.psec
          some { s with copies := s.copies ++ [(⟨r.id, r, 0, x.1, x.2, s.uid, none⟩ : Copy)] }.bump
        | _ => none
      | .entry id =>
        (s.entry? id).map fun (_, _, e) =>
          let x := s.answerOf e.key e.psec
          let s := (s.takeAt ch v c).checked e.key e.psec
          let top := e.reqs.foldl (fun m r => max m (expiryOf s.now r)) 0
          (s.raiseHorizon e.psec top).updEntry id fun e => { e with open_ := false, data := some (x.1, x.2, s.now) })

/-- WRITE_ARRIVAL: the channel serves a write-back or an N-flag store (R277, R399). -/
def execWriteArrival (ch : Nat) (s : State) : Result :=
  eventOf "WRITE_ARRIVAL"
    ((s.nextAt ch).bind fun (v, c) =>
      match v.what with
      | .entry _ => none
      | .req r =>
        match r.kind with
        | .write m d =>
          let t := s.completion r.psec
          let x := (s.takeAt ch v c).storeSector r.key r.psec m d
          some { x.1 with dones := x.1.dones ++ [⟨r.id, r, t, [], x.2⟩] }
        | _ => none)

/-- ATOM: the atomic unit performs one lane's step (R282, R296). -/
def execAtom (ch : Nat) (s : State) : Result :=
  eventOf "ATOM"
    ((s.nextAt ch).bind fun (v, c) =>
      match v.what with
      | .entry _ => none
      | .req r =>
        match r.kind with
        | .atomic op wide at_ x y =>
          let t := s.completion r.psec
          let z := (s.takeAt ch v c).atomStep r.key r.psec op wide at_ x y
          some { z.1 with dones := z.1.dones ++ [⟨r.id, r, t, z.2.1, z.2.2⟩] }
        | _ => none)

/-- SPOUT_REPLY_MULTICAST: the reply of entry `e` is copied to each requester in the order they joined, and the entry is freed
(R249, R254). -/
def execSpoutReplyMulticast (e : Nat) (s : State) : Result :=
  eventOf "SPOUT_REPLY_MULTICAST"
    ((s.entry? e).bind fun (d, u, x) => x.data.map fun (data, bad, t) =>
      let s := { s with copies := s.copies ++ x.reqs.map fun (r : Req) => (⟨r.id, r, e, data, bad, expiryOf t r, none⟩ : Copy) }
      let s := s.updUnit d u fun U => { U with entries := U.entries.filter (·.id != e) }
      State.serveUnit (s.unit d u).inq.length d u s)

/-- The first copy of an entry's reply has arrived: the others arrive within 64 ticks (R254). -/
def State.firstCopy (s : State) (k : Copy) : State :=
  { s with copies := s.copies.map fun x =>
      if k.ent ≠ 0 ∧ x.ent = k.ent ∧ x.by_ = none then { x with by_ := some (s.now + 64) } else x }

/-- A sector of code reaches a core's instruction cache, 2,048 sectors of which it holds (R3, R429); the sector that it replaces is a free
choice. One that failed its check is not kept. A fill that is no longer there has been superseded by an invalidation. -/
def State.codeArrives (s : State) (k : Copy) (core id : Nat) : State :=
  match (s.core core).cfills.find? (·.id == id) with
  | none => s
  | some f =>
    s.draw 1 |>.updCore core fun c =>
      let c := { c with
        cfills := c.cfills.filter (·.id != id)
        cbad := c.cbad.filter (· != (f.vf, f.asid, f.vsec))
        icache := c.icache.filter fun x => !(x.vf == f.vf && x.asid == f.asid && x.vsec == f.vsec) }
      if k.bad then { c with cbad := (f.vf, f.asid, f.vsec) :: c.cbad }
      else
        let ls := if c.icache.length < 2048 then c.icache else c.icache.eraseIdx (Config.pickNat s.fresh % c.icache.length)
        { c with icache := ⟨f.vf, f.asid, f.vsec, k.data⟩ :: ls }

/-- What a reply brings to the reading of a word: its bytes, unless something later has come from that sector. -/
def Poll.take (p : Poll) (ls : List Loc) (k : Copy) (ser : Nat) : Poll :=
  let i := k.req.psec % 64
  if p.ser ≠ ser ∨ k.exp < p.vers.get i 0 then p
  else
    { p with
      vers := p.vers.put i k.exp
      bad := p.bad || k.bad
      got := if k.bad then p.got else (ls.zipIdx).foldl (fun (m : SMap Byte) (x, n) =>
        match x with
        | .glob va _ => if va % 4096 / 64 = i then m.put n (secByte k.data (va % 64)) else m
        | _ => m) p.got }

/-- Changing the reading of one condition. -/
def WCond.updPoll (f : List Loc → Poll → Poll) : WCond → WCond
  | .mem (some ls) cnd cmp p => .mem (some ls) cnd cmp (f ls p)
  | x => x

/-- Changing the reading of condition n of a blocked `wait`. -/
def Block.updPoll (b : Block) (n : Nat) (f : List Loc → Poll → Poll) : Block :=
  { b with cond := match b.cond with
    | .wait sd cs all_ t e => .wait sd ((cs.zipIdx).map fun (x, i) => if i = n then x.updPoll f else x) all_ t e
    | x => x }

/-- The reply to the reading of a kind 2 word reaches the waiting path (R195, R196). -/
def State.waitArrives (s : State) (k : Copy) (g blk n ser : Nat) : State :=
  (s.judge k.req).updGroup g fun G =>
    { G with blk := G.blk.map fun b => if b.id = blk then b.updPoll n fun ls p => p.take ls k ser else b }

/-- L1_FILL_ARRIVAL: the copy for request `f` reaches its requester: the L1 (R242), an instruction cache, an engine, or a waiting path
(R254). -/
def execL1FillArrival (f : Nat) (s : State) : Result :=
  eventOf "L1_FILL_ARRIVAL"
    ((s.copies.find? (·.id == f)).bind fun k =>
      if s.copyNext k then
        let t := { s with copies := s.copies.filter (·.id != f) }.firstCopy k
        match k.req.src with
        | .fill core id => some (t.fillArrives k core id)
        | .code core id => some (t.codeArrives k core id)
        | .eng x => some (t.engReply k x)
        | .wait g b n ser => some (t.waitArrives k g b n ser).wake
        | _ => none
      else none)

/-- FLUSH: a core writes back sector `k` of the line at place `line` of its L1 (R243, R274). A line is replaced where another needs its
place alone (`allocLine`). -/
def execFlush (c line k : Nat) (s : State) : Result :=
  eventOf "FLUSH"
    (((s.core c).l1[line]?).bind fun L => if k < 4 ∧ (L.sec k).dm ≠ 0 then some (s.backSec c L k) else none)

/-- WRITE_COMPLETION_RETURN: the completion of request `r` reaches its core (R277). -/
def execWriteCompletionReturn (r : Nat) (s : State) : Result :=
  eventOf "WRITE_COMPLETION_RETURN"
    ((s.dones.find? (·.id == r)).bind fun d =>
      if s.doneNext d then some ({ s with dones := s.dones.filter (·.id != r) }.completes d) else none)

/-- A blocked path takes a trap in front of its instruction in place of going on (R33, R320, R400): a trap at a wait, whose skip PC is the
parked PC (R391). -/
def State.trapBlock (s : State) (g : Nat) (G : Group) (b : Block) (cls detail : Nat) : State :=
  let inH := b.hseq || (lanesOf b.mask).any fun l => (G.lane l).hnd
  (s.updGroup g fun G => { G with blk := G.blk.filter (·.id != b.id) }).raise g inH
    ⟨b.mask, b.first, b.first, b.first, causeWord cls detail 0, false⟩

/-- What a path's instruction has put into the access order from a release on is taken back, with its results (R31, R400). -/
def Group.takeBack (G : Group) (mask : Word) (rid : Nat) : Group :=
  let mine (a : Acc) : Bool := Nat.ble rid a.id && overlaps a.mask mask
  let ids := (G.acc.filter mine).filterMap (·.pend)
  { G with
    acc := G.acc.filter fun a => !(mine a)
    pend := G.pend.filter fun p => !(ids.contains p.id)
    wins := G.wins.filter fun w => !(ids.contains w.id) }

/-- The end of a release (R279): a write error of the group is delivered first, at the instruction that waits for it, which then has no
effect (R400, log 11). -/
def State.endRelease (s : State) (g : Nat) (G : Group) (a : Acc) (scope : Nat) : State :=
  let waiter := G.blk.find? fun b => overlaps b.mask a.mask
  if G.werr ∧ scope ≥ 6 then
    let s := s.updGroup g fun G => { G with werr := false }
    match waiter with
    | some b => (s.updGroup g fun G => G.takeBack b.mask a.id).trapBlock g G b 6 23
    | none => (s.dropAcc g a.id).updGroup g fun G => { G with errs := G.errs ++ [⟨a.mask, a.pc, 23⟩] }
  else
    let s := s.dropAcc g a.id
    match G.blk.find? (·.fences a.id) with
    | some b => s.unblock g b
    | none => s

/-- FENCE_ACTIONS_END: the actions of entry `id` of group `g` have ended (R279, R280, R301): a release's waits are over, or an
acquire has nothing earlier left, and at die scope or wider clears V in the L1. -/
def execFenceActionsEnd (g id : Nat) (s : State) : Result :=
  eventOf "FENCE_ACTIONS_END"
    ((s.group? g).bind fun G => (G.acc.find? (·.id == id)).bind fun a =>
      match a.kind with
      | .release scope =>
        if (accBefore G.acc id).all (fun b => !b.isRelease) ∧ s.released g G a scope then some (s.endRelease g G a scope) else none
      | .acquire scope =>
        if a.due (accBefore G.acc id) s.now then
          let s := if scope ≥ 6 then s.invalidateAll G.core else s
          let s := s.dropAcc g id
          some (match G.blk.find? (·.fences id) with | some b => s.unblock g b | none => s)
        else none
      | _ => none)

end Sys2Proof.Machine
end

