-- ==== Sys2Proof/Machine/Handler.lean ====
section
/-! DEFINITION. Entry to the trap handler and its end (R388 to R391, R396, R427). -/

namespace Sys2Proof.Machine

/-- The part of the trap frame that a lane has (R389). -/
def Group.laneFrame (G : Group) (l : Nat) : LaneFrame :=
  let t := G.lane l
  ⟨l, (List.range 8).map fun i => t.v.get i 0, t.p, t.lk, t.tsr, t.pc⟩

/-- Entering the handler (R389): the frame is saved, the lanes become the handler path at the entry. -/
def Group.enter (G : Group) (e : TrapEntry) (rest : List TrapEntry) (code : QWord) (entry : Word) : Group :=
  let H : Handler :=
    ⟨e, (lanesOf e.mask).map G.laneFrame, (List.range 8).map fun i => G.s.get (1016 + i) 0, G.q, G.b.get 14 0, G.b.get 15 0, [],
      code, entry, Hints.clear, true, false⟩
  { (G.closeWindows e.mask).updLanes (lanesOf e.mask) fun _ t =>
      { t with st := .ready, hnd := true, pc := entry, hints := Hints.clear } with
    trapQ := rest, hnd := some H }

/-- The entry to a handler is a wait (R26): the errors of reads that came late for the lanes of the trap are delivered there, in front of
what waits, which is the trap itself (R33, R400). Their traps go before it. -/
def Group.lateTraps (G : Group) (e : TrapEntry) : Group × List TrapEntry :=
  if e.mask = 0 then (G, [])
  else
    let r := splitErrs e.mask G.errs
    ({ G with errs := r.1 }, r.2.map fun x => ⟨x.mask, e.pc, x.fpc, e.pc, causeWord 6 x.detail 0, false⟩)

/-- A trap with the lanes that still wait for its handler: a lane that an earlier handler killed waits no more (R391). -/
def Group.waiting (G : Group) (e : TrapEntry) : TrapEntry :=
  { e with mask := e.mask &&& G.lanesWith fun t => t.st == .trapped }

/-- The oldest trap of a group enters the handler, the late errors of its lanes before it; one none of whose lanes is left is dropped. -/
def Group.enterNext (G : Group) (e : TrapEntry) (rest : List TrapEntry) (code : QWord) (entry : Word) : Group :=
  if e.mask ≠ 0 ∧ (G.waiting e).mask = 0 then { G with trapQ := rest }
  else
    match G.lateTraps (G.waiting e) with
    | (G', []) => G'.enter (G.waiting e) rest code entry
    | (G', l :: ls) => G'.enter l (ls ++ G.waiting e :: rest) code entry

/-- HANDLER_ENTRY: the oldest trap of group `g` enters its function's handler, once no handler path is there and its threads have
no result pending (R388, R389). -/
def execHandlerEntry (g : Nat) (s : State) : Result :=
  eventOf "HANDLER_ENTRY"
    ((s.group? g).bind fun G =>
      match G.trapQ, G.hnd with
      | e :: rest, none =>
        let v := s.vf G.vf
        if v.hcl = 0 ∨ G.ended ∨ s.stopping G.team ∨ (e.mask ≠ 0 ∧ G.waits e.mask) then none
        else some (s.updGroup g fun G => G.enterNext e rest (segMake v.hcb (v.hcl - 1) true) (BitVec.ofNat 32 v.hent))
      | _, _ => none)

/-- The restored thread at the end of a handler (R390, R427): TSR is the OR of the frame's and its own; a replacement is written
last and makes the thread go on at the skip PC. -/
def Handler.restore (H : Handler) (f : LaneFrame) (t : Thread) : Thread :=
  let v := (f.v.zipIdx).foldl (fun v (x, i) => SMap.put v i x) t.v
  let t := { t with p := f.p, lk := f.lk, tsr := t.tsr ||| f.tsr, st := .ready, hnd := false, hints := Hints.clear }
  match H.repl.find? f.lane with
  | some (r, x) => { t with v := v.put r x, pc := H.trap.skip }
  | none => { t with v := v, pc := f.pc }

/-- A lane for which another trap waits stays parked for it when a handler ends (R388). -/
def Group.parkAgain (G : Group) (l : Nat) (t : Thread) : Thread :=
  if G.trapQ.any fun e => e.mask.getLsbD l then { t with st := .trapped } else t

/-- Restoring the group's part of the frame and the lanes that executed `tret` (R427). -/
def Group.endHandler (G : Group) (H : Handler) : Group :=
  let G := H.lanes.foldl (fun (G : Group) f =>
    if (G.lane f.lane).st = .tretWait then G.updLane f.lane fun t => G.parkAgain f.lane (H.restore f t) else G) G
  { G with
    s := (H.s.zipIdx).foldl (fun s (x, i) => SMap.put s (1016 + i) x) G.s
    q := H.q
    b := (G.b.put 14 H.b14).put 15 H.b15
    hnd := none }

/-- The handler ends when every thread of its path has executed `tret` or `exit` (R427). -/
def State.handlerCheck (s : State) (g : Nat) : State :=
  match s.group? g with
  | none => s
  | some G =>
    match G.hnd with
    | none => s
    | some H =>
      if H.trap.seq then s
      else if H.lanes.all fun f => (G.lane f.lane).st = .tretWait ∨ (G.lane f.lane).st = .exited then
        s.updGroup g fun G => G.endHandler H
      else s

/-- The handler of a matrix-stream fault ends (R396, R427); with `resume` the sequencer starts again at the faulting word. -/
def State.endSeqHandler (s : State) (g : Nat) (resume : Bool) : State :=
  match s.group? g with
  | none => s
  | some G =>
    match G.hnd with
    | none => s
    | some H =>
      let s := s.updGroup g fun G => G.endHandler H
      if resume then s.updTeam G.team fun T => { T with seq := { T.seq with sflt := false } } else s

end Sys2Proof.Machine
end

