-- ==== Sys2Proof/Machine/Sync.lean ====
section
/-! DEFINITION. Rejoin masks, waits, barriers, tag waits, register blocks, `fence`, `yield` and `exit`, class SY (R212 to R224, R300
to R302), and the steps that release what they block (R196, R200). -/

namespace Sys2Proof.Machine

/-! ## Rejoin masks -/

/-- Writing a rejoin mask (R163, R212): threads that have exited leave it, and the mask is checked at once. -/
def Group.writeJ (G : Group) (n : Nat) (x : Word) : Group :=
  ({ G with j := G.j.put n (x &&& G.liveMask) }).releaseCheck n

/-- A rejoin-mask instruction with a uniform operand (R212). -/
def jForm (f : Word → Word → Word) (w : BitVec 1) (j : BitVec 3) (a : BitVec 10) (s0 : State) : Result :=
  issue (infoS1 w a 1 1).bare
    (fun c s => (s.updGroup c.g fun G => G.writeJ j.toNat (f (G.j.get j.toNat 0) (c.rs a.toNat))).retire c) s0

/-- A rejoin-mask instruction with the active mask (R212). -/
def jActForm (f : Word → Word → Word) (w : BitVec 1) (j : BitVec 3) (s0 : State) : Result :=
  issue (infoNone w).bare
    (fun c s => (s.updGroup c.g fun G => G.writeJ j.toNat (f (G.j.get j.toNat 0) c.mask)).retire c) s0

/-- `jset` (R212). -/
def execJset (w : BitVec 1) (j : BitVec 3) (a : BitVec 10) (s0 : State) : Result := jForm (fun _ x => x) w j a s0
/-- `jset … act` (R212). -/
def execJsetAct (w : BitVec 1) (j : BitVec 3) (s0 : State) : Result := jActForm (fun _ x => x) w j s0
/-- `jadd` (R212). -/
def execJadd (w : BitVec 1) (j : BitVec 3) (a : BitVec 10) (s0 : State) : Result := jForm (fun y x => y ||| x) w j a s0
/-- `jadd … act` (R212). -/
def execJaddAct (w : BitVec 1) (j : BitVec 3) (s0 : State) : Result := jActForm (fun y x => y ||| x) w j s0
/-- `jclr` (R212). -/
def execJclr (w : BitVec 1) (j : BitVec 3) (a : BitVec 10) (s0 : State) : Result := jForm (fun y x => y &&& ~~~x) w j a s0
/-- `jclr … act` (R212). -/
def execJclrAct (w : BitVec 1) (j : BitVec 3) (s0 : State) : Result := jActForm (fun y x => y &&& ~~~x) w j s0

/-- `join`: threads that the mask names park, the others pass through; then the mask is checked (R161, R213). -/
def execJoin (w : BitVec 1) (j : BitVec 3) (s0 : State) : Result :=
  issue (infoNone w).bare.block
    (fun c s =>
      let n := j.toNat
      let named := c.mask &&& c.G.j.get n 0
      ((s.updGroup c.g fun G =>
        let G := G.moveTo c.mask fun l t => if named.getLsbD l then t.pc else t.pc + 4
        let G := G.updLanes (lanesOf named) fun _ t => { t with st := .join n c.pc }
        ({ G with arr := G.arr.put n (G.arr.get n 0 ||| named) }).releaseCheck n)).draw 1) s0

/-! ## The conditions of `wait` -/

/-- The tags of a team's range as a mask (R185). -/
def tagRange (T : Team) : DWord := BitVec.ofNat 64 ((2 ^ T.tagN - 1) * 2 ^ T.tagB)
/-- Is a tag mask inside the range of a group's team (R218)? -/
def State.tagsOk (s : State) (G : Group) (m : DWord) : Bool :=
  match s.team? G.team with | some T => m &&& ~~~(tagRange T) == 0 | none => false

/-- A condition as its two registers give it: its kind 2 place is read later (R194). None where it is malformed. -/
def State.condOf (s : State) (G : Group) (a b : Word) : Option WCond :=
  let x := a.toNat % 2 ^ 28
  match a.toNat / 2 ^ 28 with
  | 0 =>
    let m : DWord := (b.setWidth 64) <<< (if x / 64 % 2 = 1 then 32 else 0)
    if x / 256 = 0 ∧ x % 64 = 0 ∧ s.tagsOk G m then some (.tags (x / 128 % 2 == 1) m) else none
  | 1 => if x / 64 = 0 ∧ b = 0 then some (.bar (x % 32) (x / 32 % 2 == 1)) else none
  | 2 =>
    let sp := recSpace (G.bufRec (x % 16))
    let k := x / 16 % 16
    if k % 8 < 6 ∧ (sp = 0 ∨ sp = 1) then some (.mem none k b (Poll.init 0 0)) else none
  | 3 =>
    if x / 2 = 0 then
      (if x = 1 then (if b.toNat / 1024 = 0 then some (.cvId b.toNat) else none) else if b = 0 then some .cvSelf else none)
    else none
  | 4 =>
    let asy := x / 256 % 2 == 1
    let o := x % 256
    if x / 2048 = 0 ∧ (!asy || o < 16) then some (.event asy (x / 512 % 4) o b) else none
  | _ => none

/-- The place of a kind 2 condition (R195): the state with its page cached, and the plan of its read. -/
def State.condPlan (s : State) (c : Ctx) (a : Word) : Plan :=
  let x := a.toNat % 2 ^ 28
  s.plan c.G.core c.G (c.G.bufRec (x % 16)) 4 .read [(0, (x / 256 : Nat))]

/-- The kind 2 conditions of a wait placed one after another: the state, the conditions so far, the physical sectors that their first
readings go to, and whether the path has stopped (a page fault or the bounds trap, R195). -/
structure Placed where
  st   : State
  cs   : List WCond
  secs : List (List Nat)
  stop : Bool
  deriving DecidableEq, Repr

/-- A place by its virtual address alone: a translation is no part of what a wait keeps (R196, R409). -/
def Loc.virtual : Loc → Loc
  | .glob va _ => .glob va 0
  | p => p

/-- Placing one condition. -/
def Placed.add (p : Placed) (c : Ctx) (a : Word) (k : WCond) : Placed :=
  if p.stop then p else
  match k with
  | .mem _ cond cmp _ =>
    let q := p.st.condPlan c a
    let r := c.G.bufRec (a.toNat % 16)
    let pol1 := recOob r == 1
    let stops := q.faults ≠ [] ∨ (pol1 ∧ q.oob ≠ [])
    let s := q.st.stopLanes c q .read true pol1
    let ls := q.good.head?.map (·.2)
    ⟨s, p.cs ++ [.mem (ls.map fun l => l.map Loc.virtual) cond cmp (Poll.init (recClass r) (recBudget r))],
      p.secs ++ [sectorsOf (ls.getD [])], stops⟩
  | k => { p with cs := p.cs ++ [k], secs := p.secs ++ [[]] }

/-- Condition k of a blocked path is read: a request for each of its sectors leaves, and what reaches memory there is watched (R195, R196,
R248). -/
def State.sendPoll (s : State) (g : Nat) (G : Group) (blk k : Nat) (p : Poll) (secs : List Nat) : State :=
  if secs.isEmpty then s
  else
    let now := s.now
    let s := s.updGroup g fun H =>
      { H with blk := H.blk.map fun b =>
          if b.id = blk then b.updPoll k (fun _ p => { p with sent := now, secs := secs }) else b }
    secs.foldl (fun s x =>
      s.send ⟨0, .wait g blk k p.ser, .wait, x, G.vf, s.key G.vf, p.cls, s.stamp p.budget, G.core, G.part⟩) s

/-- The reading of a condition. -/
def WCond.poll : WCond → Poll
  | .mem _ _ _ p => p
  | _ => Poll.init 0 0

/-- The threads of a blocked path are parked on a page fault in front of its instruction (R34, R411). -/
def State.parkBlock (s : State) (g : Nat) (b : Block) : State :=
  s.updGroup g fun G =>
    let G := { G with blk := G.blk.filter (·.id != b.id) }
    if b.hseq then { G with hnd := G.hnd.map fun H => { H with ready := false, pc := b.first, hints := Hints.clear } }
    else G.updLanes (lanesOf b.mask) fun _ t =>
      if t.st = .blocked b.id then { t with st := .faulted, pc := b.first, hints := Hints.clear } else t

/-- The pages of a word of kind 2, as the walker finds them now (R196, R409). -/
def State.pollPages (s : State) (G : Group) (ls : List Loc) : List (Nat × Trans) :=
  ((distinct [] ((globVas ls).map (· / 4096))).zipIdx).map fun x =>
    (x.1, s.translate (s.core G.core).tlb G.vf (x.1 * 4096) .read (s.fresh + 1 + x.2))

/-- The physical sectors of a word of kind 2 whose pages are found. -/
def State.pollSecs (s : State) (G : Group) (ls : List Loc) : List Nat :=
  sectorsOf ((globVas ls).filterMap fun va =>
    (s.pollPages G ls).findSome? fun x => match x.2 with
      | .ok pa _ => if x.1 = va / 4096 then some (Loc.glob va (pa + va % 4096)) else none
      | _ => none)

/-- The pages of a word of kind 2 that fault, with cause and level. -/
def State.pollBad (s : State) (G : Group) (ls : List Loc) : List (Nat × Nat × Nat) :=
  (s.pollPages G ls).filterMap fun x => match x.2 with | .fault cause lev _ => some (x.1, cause, lev) | .ok _ _ => none

/-- Condition k of a blocked path is read again (R196): its page is translated anew (R409), and a fault parks the path (R411). -/
def State.repoll (s : State) (g : Nat) (G : Group) (b : Block) (k : Nat) (x : WCond) : State :=
  match x with
  | .mem (some ls) _ _ p =>
    let ts := s.pollPages G ls
    let t := (ts.foldl (fun s x => s.learn G.core x.2) s).draw (1 + ts.length)
    let bad := s.pollBad G ls
    if bad.isEmpty then t.sendPoll g G b.id k p (s.pollSecs G ls)
    else
      (bad.foldl (fun s (q, cause, lev) =>
        s.groupFault g G b.mask b.first (((globVas ls).filter (· / 4096 == q)).foldl min (q * 4096 + 4095)) cause lev 0) t).parkBlock g b
  | _ => s

/-- `wait` (R194 to R197, R214): the conditions and the time-out are read at issue; the path is blocked, the words of kind 2 are sent for,
and the wait is evaluated at once. -/
def execWait (w : BitVec 1) (d : BitVec 10) (b : BitVec 7) (n : BitVec 2) (al : BitVec 1) (s0 : State) : Result :=
  let cnt := n.toNat + 1
  issue { w := flag1 w, var := true, blocking := true, noHint := true,
          regs := [.s d.toNat 1 1, .s (8 * b.toNat) (2 * cnt) 1] }
    (fun c s =>
      let ab := (List.range cnt).map fun k => (c.rs (8 * b.toNat + 2 * k), c.rs (8 * b.toNat + 2 * k + 1))
      match (ab.map fun (x, y) => s.condOf c.G x y).mapM id with
      | none => s.trapAt c 1 7
      | some ks =>
        let t := (c.rs d.toNat).toNat
        let p := (ab.zip ks).foldl (fun p (x, k) => Placed.add p c x.1 k) ⟨s, [], [], false⟩
        if p.stop then p.st
        else
          let id := p.st.uid
          let s := p.st.blockPath c (.wait d.toNat p.cs (flag1 al) t (s.now + t))
          (((p.cs.zip p.secs).zipIdx).foldl (fun s (x, k) => s.sendPoll c.g c.G id k x.1.poll x.2) s).wake) s0

/-- Has a kind 2 word of a wait failed its check (R400)? -/
def waitBad (cs : List WCond) : Bool := cs.any fun k => k.poll.bad

/-- The flags of a wait's result: OOB where an index was out of bounds (R26, R195). -/
def waitFlags (cs : List WCond) : Word := if cs.any (fun k => match k with | .mem none _ _ _ => true | _ => false) then flagOOB else 0

/-- A wait returns a word (R196): its result is written, and its path goes on. -/
def State.waitReturns (s : State) (g : Nat) (b : Block) (sd : Nat) (cs : List WCond) (m : Word) : State :=
  ((s.updGroup g fun G => G.start s.uid b.mask b.first (.s sd 1) (some [⟨0, [m], waitFlags cs, false⟩])).bump).unblock g b

/-- A blocked path, by identifier. -/
def State.block? (s : State) (g id : Nat) : Option (Group × Block) :=
  (s.group? g).bind fun G => (G.blk.find? (·.id == id)).map fun b => (G, b)

/-- May a blocked path go on now? A group stopped for pre-emption does not (R419). -/
def State.mayReturn (s : State) (G : Group) : Bool := !(s.stopping G.team)

/-- WAIT_CONDITION_MET: the conditions of a `wait` held at an evaluation instant (R196), with all that held at that tick; a word that fails its
check, or a tag with TERR set, traps in place of returning (R320, R400). -/
def execWaitConditionMet (g id : Nat) (s : State) : Result :=
  eventOf "WAIT_CONDITION_MET"
    ((s.block? g id).bind fun (G, b) =>
      match b.cond with
      | .wait sd cs _ _ _ =>
        if !(s.mayReturn G) then none
        else if waitBad cs then some (s.trapBlock g G b 6 21)
        else b.met.bind fun m =>
          if s.now ≤ b.at_ ∨ s.now < b.comp then none
          else if b.terr then some (s.trapBlock g G b 6 22)
          else some (s.waitReturns g b sd cs m)
      | _ => none)

/-- WAIT_TIMEOUT: the tick of a `wait`'s time-out has gone by and its conditions have not held (R196): at one tick the conditions win. -/
def execWaitTimeout (g id : Nat) (s : State) : Result :=
  eventOf "WAIT_TIMEOUT"
    ((s.block? g id).bind fun (G, b) =>
      match b.cond with
      | .wait sd cs _ t e =>
        if t ≠ 0 ∧ s.now > e ∧ b.met = none ∧ !(waitBad cs) ∧ s.mayReturn G then some (s.waitReturns g b sd cs 0) else none
      | _ => none)

/-- WAIT_POLL: the word of kind 2 condition `k` is read again (R196). -/
def execWaitPoll (g id k : Nat) (s : State) : Result :=
  eventOf "WAIT_POLL"
    ((s.block? g id).bind fun (G, b) =>
      match b.cond with
      | .wait _ cs _ _ _ =>
        match cs[k]? with
        | some (.mem (some ls) cnd cmp p) =>
          if globVas ls = [] ∨ b.met.isSome ∨ !(s.mayReturn G) then none else some (s.repoll g G b k (.mem (some ls) cnd cmp p))
        | _ => none
      | _ => none)

/-! ## Barriers -/

/-- Have a path's earlier accesses all been performed (R217, R279)? -/
def Group.quiet (G : Group) (mask : Word) (now : Nat) : Bool :=
  G.acc.all fun a => !(overlaps a.mask mask) || (a.perf && !(a.acqOpen now))

/-- `bara`: the arrival is a release at team scope, so it waits for the earlier accesses (R216, R217, log 12). -/
def execBara (w : BitVec 1) (b : BitVec 5) (a : BitVec 10) (s0 : State) : Result :=
  issue (infoS1 w a 1 1).bare
    (fun c s =>
      let x := c.rs a.toNat
      if x.toNat / 65536 ≠ 0 then s.trapAt c 1 9
      else if c.G.quiet c.mask s.now then (s.arrive c.G.team b.toNat (x.toNat % 65536)).retire c
      else s) s0

/-- `barw` (R216). -/
def execBarw (w : BitVec 1) (b : BitVec 5) (a : BitVec 10) (s0 : State) : Result :=
  issue (infoS1 w a 1 1).bare.block
    (fun c s => (s.blockPath c (.barw b.toNat ((c.rs a.toNat).getLsbD 0))).wake) s0

/-- `barx`: it arrives, and waits for the first completion at or after its arrival (R216, R217). -/
def execBarx (w : BitVec 1) (b : BitVec 5) (a : BitVec 10) (s0 : State) : Result :=
  issue (infoS1 w a 1 1).bare.block
    (fun c s =>
      let x := c.rs a.toNat
      if x.toNat / 65536 ≠ 0 then s.trapAt c 1 9
      else if c.G.quiet c.mask s.now then (s.blockPath c (.barx b.toNat)).arrive c.G.team b.toNat (x.toNat % 65536)
      else s) s0

/-- BARRIER_WAIT_RELEASE: a `barw` or `barx` that is satisfied returns (R216). -/
def execBarrierWaitRelease (g id : Nat) (s : State) : Result :=
  eventOf "BARRIER_WAIT_RELEASE"
    ((s.block? g id).bind fun (G, b) =>
      match b.cond with
      | .barw _ _ => if b.met.isSome ∧ s.mayReturn G then some (s.unblock g b) else none
      | .barx _ => if b.met.isSome ∧ s.mayReturn G then some (s.unblock g b) else none
      | _ => none)

/-! ## Tags -/

/-- What a tag instruction asks of its issue: an even pair (R218). -/
def infoTag (w : BitVec 1) (a : BitVec 10) : Info := (infoS1 w a 2 2).bare

/-- `tgwa` (R218): an all-zero mask traps. -/
def execTgwa (w : BitVec 1) (a : BitVec 10) (s0 : State) : Result :=
  issue (infoTag w a).block
    (fun c s =>
      let m := c.rs2 a.toNat
      if !(s.tagsOk c.G m) then s.trapAt c 1 7
      else if m = 0 then s.trapAt c 1 0
      else (s.blockPath c (.tag m false)).wake) s0

/-- `tgwl` (R218). -/
def execTgwl (w : BitVec 1) (a : BitVec 10) (s0 : State) : Result :=
  issue (infoTag w a).block
    (fun c s =>
      let m := c.rs2 a.toNat
      if !(s.tagsOk c.G m) then s.trapAt c 1 7 else (s.blockPath c (.tag m true)).wake) s0

/-- The lowest tag of a mask, or all ones (R218). -/
def lowestTag (m : DWord) : Word :=
  match (List.range 64).find? fun i => m.getLsbD i with | some i => BitVec.ofNat 32 i | none => 0xFFFFFFFF

/-- `tgff` (R218). -/
def execTgff (w : BitVec 1) (d : BitVec 10) (a : BitVec 10) (s0 : State) : Result :=
  issue { w := flag1 w, var := true, noHint := true, regs := [.s d.toNat 1 1, .s a.toNat 2 2] }
    (fun c s =>
      let m := c.rs2 a.toNat
      if !(s.tagsOk c.G m) then s.trapAt c 1 7 else s.startS c d.toNat [lowestTag ((s.core c.G.core).tags &&& m)]) s0

/-- `tgclr`: TERR is cleared with TAGS (R218, R318). -/
def execTgclr (w : BitVec 1) (a : BitVec 10) (s0 : State) : Result :=
  issue (infoTag w a)
    (fun c s =>
      let m := c.rs2 a.toNat
      if !(s.tagsOk c.G m) then s.trapAt c 1 7
      else (s.updCore c.G.core fun k => { k with tags := k.tags &&& ~~~m, terr := k.terr &&& ~~~m }).retire c) s0

/-- TAG_WAIT_RELEASE: a `tgwa` or `tgwl` returns, no earlier than the completion times of its tags (R219, R284), or traps where one
of them has TERR set (R320). -/
def execTagWaitRelease (g id : Nat) (s : State) : Result :=
  eventOf "TAG_WAIT_RELEASE"
    ((s.block? g id).bind fun (G, b) =>
      match b.cond with
      | .tag _ _ =>
        if b.met.isNone ∨ !(s.mayReturn G) ∨ s.now < b.comp then none
        else if b.terr then some (s.trapBlock g G b 6 22)
        else some (s.unblock g b)
      | _ => none)

/-! ## Register blocks -/

/-- The extended budget of a group's role (R170). -/
def LaunchRec.budgetOf (r : LaunchRec) (idx : Nat) : Nat :=
  if r.rgen + r.rcpy + r.repi = 0 ∨ idx < r.rgen then r.xgen
  else if idx < r.rgen + r.rcpy then r.xcpy else r.xepi

/-- `rbacq` (R168, R220): with blocks held or a request outstanding it traps; above the role's budget the illegal-register trap. -/
def execRbacq (w : BitVec 1) (n : BitVec 3) (s0 : State) : Result :=
  issue (infoNone w).bare.block
    (fun c s =>
      let budget := match (s.team? c.G.team).bind s.recOf with | some r => r.budgetOf c.G.idx | none => 0
      if c.G.ext ≠ 0 ∨ c.G.rbReq then s.trapAt c 1 0
      else if n.toNat > budget then s.trapAt c 3 0
      else
        ((s.updGroup c.g fun G => { G with rbReq := true }).updPart c.G.core c.G.part fun p =>
          { p with rbq := p.rbq ++ [(c.g, n.toNat)] }).blockPath c (.rbacq n.toNat)) s0

/-- The registers of a fresh block hold free values (R19, R168, log 2). -/
def Group.freshBlocks (G : Group) (n k : Nat) : Group :=
  { G with
    ext := n, rbReq := false
    lanes := G.lanes.map fun (l, t) =>
      (l, { t with v := (List.range (16 * n)).foldl (fun v i => SMap.put v (32 + i) (Config.freeWord (k + 96 * l + i))) t.v }) }

/-- Does a blocked path wait for register blocks? -/
def Block.forBlocks (b : Block) : Bool := match b.cond with | .rbacq _ => true | _ => false

/-- The extended blocks that a resident group of a RESX launch may yet ask for (R169). -/
def State.owed (s : State) (G : Group) : Nat :=
  match (s.team? G.team).bind s.recOf with
  | some r => if r.resx && !G.ended && !(s.isSaved G.team) then r.budgetOf G.idx - G.ext else 0
  | none => 0

/-- The blocks of a partition that stay free for the RESX groups on it other than one (R169). -/
def State.owedOn (s : State) (c p g : Nat) : Nat :=
  s.groups.foldl (fun n (k, G) => if k ≠ g ∧ G.core = c ∧ G.part = p then n + s.owed G else n) 0

/-- REGISTER_BLOCK_GRANT: the first request of a partition is served, once its blocks are free beside those that stay for groups of RESX
launches (R168, R169, R220). -/
def execRegisterBlockGrant (c p : Nat) (s : State) : Result :=
  eventOf "REGISTER_BLOCK_GRANT"
    (match ((s.core c).part p).rbq with
     | [] => none
     | (g, n) :: rest =>
       if n + s.owedOn c p g ≤ ((s.core c).part p).pool then
         (s.group? g).bind fun G =>
           (G.blk.find? (·.forBlocks)).map fun b =>
             (((s.updPart c p fun x => { x with pool := x.pool - n, rbq := rest }).updGroup g fun G =>
               G.freshBlocks n s.fresh).draw 3072).unblock g b
       else none)

/-- `rbrel` (R221): it waits for results to registers above v31; the blocks return, and their contents are lost. -/
def execRbrel (w : BitVec 1) (s0 : State) : Result :=
  issue (infoNone w).bare
    (fun c s =>
      if c.G.pend.any fun p => match p.dst with | .v b n => b + n > 32 | .s _ _ => false then s
      else
        ((s.updPart c.G.core c.G.part fun p => { p with pool := p.pool + c.G.ext }).updGroup c.g fun G =>
          { G with ext := 0, lanes := G.lanes.map fun (l, t) => (l, { t with v := t.v.filter (·.1 < 32) }) }).retire c) s0

/-! ## Fence, yield, exit -/

/-- `fence` (R300, R301): its release and acquire actions stand in the access order, and the path waits for their end. -/
def execFence (w : BitVec 1) (p : BitVec 4) (k : BitVec 2) (s0 : State) : Result :=
  issue (infoNone w).bare
    (fun c s =>
      let sc := p.toNat
      let rel (s : State) : State := (s.addAcc c.g (fenceAcc s.uid c (.release sc))).bump
      let acq (s : State) : State := (s.addAcc c.g (fenceAcc s.uid c (.acquire sc))).bump
      let s := if k = 2 then rel s else if k = 1 then acq s else acq (rel s)
      s.blockPath c (.fence (s.uid - 1) 0)) s0

/-- `yield`: the path ceases to be current as after its 64th instruction, and the group gives up the next cycle (R222). -/
def execYield (w : BitVec 1) (s0 : State) : Result :=
  issue (infoNone w).bare (fun c s => (s.updGroup c.g fun G => { G with run := 64, skip := true }).retire c) s0

/-- The end of the threads of a path, or of some parked threads: they exit, and their group, its handler and its team are checked
(R162, R164, R223, R391). -/
def State.kill (s : State) (g : Nat) (m : Word) : State :=
  ((s.updGroup g fun G => G.exitLanes m).handlerCheck g).checkGroup g

/-- `exit` (R223): a write error of the group is delivered in front of it (R400). The path of a matrix-stream fault has no threads:
its handler ends and the sequencer stays stopped (R396, log 23). -/
def execExit (w : BitVec 1) (s0 : State) : Result :=
  issue (infoNone w).bare.block
    (fun c s =>
      if c.G.werr then
        (s.updGroup c.g fun G => { G with werr := false }).raise c.g c.h
          ⟨c.mask, c.first, c.first, c.first, causeWord 6 23 0, false⟩
      else if c.mask = 0 then (s.endSeqHandler c.g false).draw 1
      else (s.kill c.g c.mask).draw 1) s0

end Sys2Proof.Machine
end

