-- ==== Sys2Proof/Machine/Copy.lean ====
section
/-! DEFINITION. The copy engine and the reservations of the operand buffer (R311 to R321, R371 to R375). -/

namespace Sys2Proof.Machine

/-- A group with nothing in it: the engines address memory with the segments of a command in it. -/
def Group.blank : Group :=
  { core := 0, part := 0, slot := 0, team := 0, idx := 0, vf := 0, lanes := [], s := [], q := 0, j := [], arr := [], b := [], seg := []
    cvm := Cvm.init, cvAt := 0, svHeld := false, minp := 0, joinDesc := none, ext := 0, rbReq := false, cur := none, run := 0, skip := false
    pend := [], wins := [], errs := [], werr := false, acc := [], blk := [], trapQ := [], hnd := none, live := none, ended := false
    comp := 0, peerC := 0, acks := 0, pre := [] }

/-- The element size of a TYPE (R312); 0 for a reserved one. -/
def elemSize (t : Nat) : Nat :=
  if t = 0 ∨ t = 1 ∨ t = 11 ∨ t = 12 then 1
  else if t = 2 ∨ t = 3 ∨ t = 7 ∨ t = 8 then 2
  else if t = 4 ∨ t = 5 ∨ t = 6 then 4
  else if t = 9 ∨ t = 10 then 8 else 0

/-- Does a command go by rows (`cpyg`, `cpys`)? -/
def CopyCmd.rows (x : CopyCmd) : Bool := x.kind == 1 || x.kind == 2
/-- The number of elements that a command moves (R372). -/
def CopyCmd.total (x : CopyCmd) : Nat := if x.rows then x.cnt * x.rowlen else x.cnt
/-- The row of an element. -/
def CopyCmd.row (x : CopyCmd) (i : Nat) : Nat := if x.rowlen = 0 then 0 else i / x.rowlen

/-- The list entry of a row, as it has been read: none where it gives no index (R372). -/
def CopyCmd.ent (x : CopyCmd) (row : Nat) : Option Int := x.ents.get row none
/-- Has the list entry that places an element been read, if there is one (R313)? -/
def CopyCmd.known (x : CopyCmd) (i : Nat) : Bool := !x.rows || (x.ents.find? (x.row i)).isSome

/-- The source element of element i: none gives zeros (R372, R313). -/
def CopyCmd.src (x : CopyCmd) (i : Nat) : Option Int :=
  match x.kind with
  | 0 => some (x.sidx + i)
  | 1 => (x.ent (x.row i)).map fun v => v * x.rowlen + (i % x.rowlen : Nat)
  | 2 => some (x.didx + i)
  | _ => none

/-- The destination element of element i: none drops it (R372, R313). -/
def CopyCmd.dst (x : CopyCmd) (i : Nat) : Option Int :=
  match x.kind with
  | 2 => (x.ent (x.row i)).map fun v => v * x.rowlen + (i % x.rowlen : Nat)
  | _ => some (x.didx + i)

/-- The group as which a command addresses memory: its segments as they were at issue (R121, R311). -/
def CopyCmd.asGroup (x : CopyCmd) (core : Nat) : Group := { Group.blank with core := core, team := x.tuid, vf := x.vf, seg := x.segs }

/-! ## The commands -/

/-- Are the elements of a range all in bounds (R313)? -/
def State.rangeOk (s : State) (G : Group) (r : QWord) (first : Int) (n width : Nat) : Bool :=
  (List.range n).all fun i => (s.bytesOf G r (first + i) width).isSome

/-- The checks of a copy command after its register check, in order (R373): class and detail of the first that fails. -/
def State.copyCheck (s : State) (G : Group) (d : List Word) (x : CopyCmd) : Option (Nat × Nat) :=
  let a := (d.getD 0 0).toNat
  let z := (d.getD 3 0).toNat
  let xrec := a / 256 % 16
  let fields := a / 2 ^ 28 != 0 || (!x.rows && xrec != 0) || (x.kind == 3 && a % 16 != 0) ||
    (x.rows && z / 2 ^ 20 == 0) || (!x.rows && z / 2 ^ 20 != 0)
  let recs := recSpace x.drec == 5 || x.esz == 0 ||
    (x.kind != 3 && (recSpace x.srec == 5 || elemSize (recType x.srec) != x.esz)) ||
    (x.rows && (recSpace x.xrec == 5 || (recType x.xrec != 4 && recType x.xrec != 5)))
  let pol (r : QWord) : Bool := recOob r == 1
  let bounds :=
    (pol x.drec && x.kind != 2 && !(s.rangeOk G x.drec x.didx x.total x.esz)) ||
    (pol x.srec && x.kind == 0 && !(s.rangeOk G x.srec x.sidx x.total x.esz)) ||
    (pol x.srec && x.kind == 2 && !(s.rangeOk G x.srec x.didx x.total x.esz)) ||
    (pol x.xrec && x.rows && !(s.rangeOk G x.xrec x.sidx x.cnt 4))
  if fields then some (1, 6)
  else if !(s.tagsOk G ((1 : DWord) <<< x.tag)) then some (1, 7)
  else if recs then some (1, 6)
  else if bounds then some (4, 0)
  else none

/-- A command as its descriptor gives it (R371). -/
def copyOf (s : State) (c : Ctx) (kind : Nat) (d : List Word) : CopyCmd :=
  let a := (d.getD 0 0).toNat
  let z := (d.getD 3 0).toNat
  let drec := c.G.bufRec (a / 16 % 16)
  { id := s.uid, kind := kind, guid := c.g, mask := c.mask, tuid := c.G.team, vf := c.G.vf, tag := a / 2 ^ 12 % 64,
    cls := a / 2 ^ 18 % 4, budget := a / 2 ^ 20 % 256, esz := elemSize (recType drec), srec := c.G.bufRec (a % 16), drec := drec,
    xrec := c.G.bufRec (a / 256 % 16), segs := c.G.seg, sidx := (d.getD 1 0).toInt, didx := (d.getD 2 0).toInt,
    rowlen := z / 2 ^ 20, cnt := z % 2 ^ 20, ents := [], etxn := none, pos := 0, chunks := [], done := 0
    oob := false, err := false, comp := 0, fid := none }

/-- Has the core of the issuing path 32 commands outstanding (R314)? -/
def State.copyHeld (s : State) : Bool :=
  match s.context? with
  | some c => Nat.ble 32 (s.core c.G.core).xcnt
  | none => false

/-- A copy command (R314, R371, R373): with 32 outstanding it does not issue, and nothing of its descriptor is checked, the alignment of its
first register included; accepted, it takes its tag, and it is sent in the group's access order. -/
def copyForm (kind : Nat) (w : BitVec 1) (a : BitVec 10) (s0 : State) : Result :=
  issue (if s0.copyHeld then infoNone w else infoS1 w a 4 4).bare
    (fun c s =>
      if Nat.ble 32 (s.core c.G.core).xcnt then s
      else
        let d := c.rsn a.toNat 4
        let x := copyOf s c kind d
        match s.copyCheck c.G d x with
        | some (cls, detail) => s.trapAt c cls detail
        | none =>
          let s := (s.updCore c.G.core fun k => { k with xcnt := k.xcnt + 1 }).tagTake c.G.core x.tag
          ((s.addAcc c.g (fenceAcc s.uid c (.cmd (.copy x)))).bump).retire c) s0

/-- `cpy` (R311, R371). -/
def execCpy (w : BitVec 1) (a : BitVec 10) (s0 : State) : Result := copyForm 0 w a s0
/-- `cpyg` (R311, R371). -/
def execCpyg (w : BitVec 1) (a : BitVec 10) (s0 : State) : Result := copyForm 1 w a s0
/-- `cpys` (R311, R371). -/
def execCpys (w : BitVec 1) (a : BitVec 10) (s0 : State) : Result := copyForm 2 w a s0
/-- `cpyf` (R311, R371). -/
def execCpyf (w : BitVec 1) (a : BitVec 10) (s0 : State) : Result := copyForm 3 w a s0

/-! ## Chunks -/

/-- The destination line of an element's first byte (R315): its space and place, and the address ÷ 256. -/
def lineKey : Loc → Nat × Nat × Nat
  | .glob va _ => (0, 0, va / 256)
  | .spad c a => (1, c, a / 256)
  | .obuf c a => (2, c, a / 256)
  | .peer o => (3, 0, o / 256)

/-- The elements of the next chunk (R315): those from `i` on whose first bytes lie in one line; a dropped element has no line. None where the
chunk depends on a list entry that has not been read (R313). -/
def State.runFrom (s : State) (G : Group) (x : CopyCmd) : Nat → Nat → Option (Nat × Nat × Nat) → Option (List Nat)
  | 0, _, _ => some []
  | n + 1, i, key =>
    if x.kind = 2 ∧ !(x.known i) then none
    else
      match ((x.dst i).bind fun k => s.bytesOf G x.drec k x.esz).bind List.head? with
      | none => if x.known i then (State.runFrom s G x n (i + 1) key).map fun l => i :: l else none
      | some b =>
        if key.all (· == lineKey b) then
          (if x.known i then (State.runFrom s G x n (i + 1) (some (lineKey b))).map fun l => i :: l else none)
        else some []

/-- A command of a core. -/
def State.copyCmd? (s : State) (core id : Nat) : Option CopyCmd := (s.core core).copies.find? (·.id == id)
/-- Changing it. -/
def State.updCopy (s : State) (core id : Nat) (f : CopyCmd → CopyCmd) : State :=
  s.updCore core fun c => { c with copies := c.copies.map fun x => if x.id = id then f x else x }

/-- A command completes (R313, R315, R319, R320): its tag, and OOB in the threads that were active at its issue. -/
def State.copyDone (s : State) (core : Nat) (x : CopyCmd) : State :=
  let s := match x.etxn with | some (t, _) => s.endTxn t | none => s
  let s := s.updCore core fun c => { c with copies := c.copies.filter (·.id != x.id), xcnt := c.xcnt - 1 }
  let s := s.tagDone core x.tag x.comp x.err
  if x.oob then s.updGroup x.guid fun G =>
    G.updLanes (lanesOf x.mask) fun _ t => if t.st = .exited then t else t.flag flagOOB
  else s

/-- A page fault in a chunk parks its command alone (R317, R411). -/
def State.copyFault (s : State) (core : Nat) (x : CopyCmd) (w : Want) (f : Nat × Nat × Nat × List Nat) : State :=
  let lid := match s.group? x.guid with
    | some G => s.lidOf G
    | none => match (s.team? x.tuid).bind fun T => s.launch? T.launch with | some L => L.r.lid | none => 0
  let r := s.fault ⟨x.vf, f.1, lid, 0, 0, core, dieOf core, 0, 0, 1, x.tag, w.code, f.2.1, f.2.2.1, false⟩ (.copy core x.id)
  r.1.updCopy core x.id fun y => { y with fid := some r.2 }

/-- What places some elements of a command read, or write, by element number. -/
def CopyCmd.reads (x : CopyCmd) (is : List Nat) : List (Nat × Int) := is.filterMap fun i => (x.src i).map fun k => (i, k)
/-- What they write. -/
def CopyCmd.writes (x : CopyCmd) (is : List Nat) : List (Nat × Int) := is.filterMap fun i => (x.dst i).map fun k => (i, k)

/-- Reading the next list entry of a command (R313); one that is out of bounds gives no index. -/
def State.copyEntry (s : State) (core : Nat) (x : CopyCmd) : State :=
  let row := x.ents.length
  let p := s.plan core (x.asGroup core) x.xrec 4 .read [(row, x.sidx + row)]
  match p.faults, p.good with
  | f :: _, _ => p.st.copyFault core x .read f
  | [], [] => p.st.updCopy core x.id fun y => { y with ents := y.ents.put row none, oob := true }
  | [], g =>
    let b := p.st.beginTxn (.copy core x.id) x.vf x.cls x.budget g []
    b.1.updCopy core x.id fun y => { y with etxn := some (b.2, row) }

/-- A list entry has come (R313, R372); one that fails its check ends the command with an error (R317). -/
def State.copyEntered (s : State) (core : Nat) (x : CopyCmd) (t row : Nat) (y : Txn) : State :=
  let s := s.endTxn t
  match s.txnBytes y (y.rd.flatMap (·.2)) with
  | some bs => s.updCopy core x.id fun z =>
      { z with ents := z.ents.put row (some (BitVec.ofNat 32 (leNat bs)).toInt), etxn := none }
  | none => s.updCopy core x.id fun z => { z with etxn := none, err := true, pos := z.total }

/-- A chunk starts (R315): its source and destination bytes are translated, and its reads leave. A destination byte of an earlier chunk
that is a source byte of this one is written once more, since it ends unpredictable (R316). -/
def State.copyStart (s : State) (core : Nat) (x : CopyCmd) (run : List Nat) : State :=
  let G := x.asGroup core
  let sp := s.plan core G x.srec x.esz .read (x.reads run)
  let dp := sp.st.plan core G x.drec x.esz .write (x.writes run)
  match sp.faults, dp.faults with
  | f :: _, _ => dp.st.copyFault core x .read f
  | [], f :: _ => dp.st.copyFault core x .write f
  | [], [] =>
    let from_ := sp.good.flatMap (·.2)
    let again := (s.plan core G x.drec x.esz .write (x.writes (List.range x.pos))).good.filter fun (_, ls) =>
      ls.any fun p => from_.any p.same
    let b := dp.st.beginTxn (.copy core x.id) x.vf x.cls x.budget sp.good (dp.good ++ again)
    let drops := run.any fun i => (!(sp.good.any (·.1 == i)) && x.kind != 3) || !(dp.good.any (·.1 == i))
    b.1.updCopy core x.id fun y =>
      { y with chunks := y.chunks ++ [⟨b.2, run⟩], pos := x.pos + run.length, oob := y.oob || drops }

/-- The source bytes of a command as far as its list entries have been read. -/
def State.copySources (s : State) (core : Nat) (x : CopyCmd) : List Loc :=
  (s.plan core (x.asGroup core) x.srec x.esz .read (x.reads (List.range x.total))).good.flatMap (·.2)

/-- The bytes that element i of a chunk brings; none for one whose read failed its check (R317). -/
def State.copyData (s : State) (x : CopyCmd) (y : Txn) (i : Nat) : List (Option Byte) :=
  if x.kind = 3 then (leBytes x.esz (x.sidx % 2 ^ (8 * x.esz) : Int).toNat).map some
  else match y.rd.find? (·.1 == i) with
    | some (_, ls) => ls.map (s.txnByte y)
    | none => List.replicate x.esz (some 0)

/-- The writes of a chunk leave once its data have come (R315): a byte whose read failed is not written, and the command ends (R317); one that
is also a source byte of the command takes a free value (R316). -/
def State.copyWrite (s : State) (core : Nat) (x : CopyCmd) (k : CopyChunk) (y : Txn) : State :=
  let all_ := s.copySources core x
  let own := y.rd.flatMap (·.2)
  let ws := y.wr.flatMap fun (i, ls) =>
    if k.run.contains i then (ls.zip (s.copyData x y i)).filterMap fun (p, b) => b.map fun b => (p, b, all_.any p.same)
    else (ls.filter fun p => own.any p.same).map fun p => (p, 0, true)
  let ws := (ws.zipIdx).map fun ((p, b, any_), n) => (p, if any_ then (Config.freeWord (s.fresh + n)).setWidth 8 else b)
  (((s.draw ws.length).snoop core none (ws.map (·.1))).writeTxn k.txn ws).updCopy core x.id fun z =>
    if y.bad = [] then z else { z with err := true, pos := z.total }

/-- The chunks of a command whose data have come, each with its transaction. Chunks that write a byte in common write it in their order
(R316). -/
def State.copyReady (s : State) (x : CopyCmd) : List (CopyChunk × Txn) :=
  let ks := x.chunks.filterMap fun k => (s.txns.find? k.txn).map fun y => (k, y)
  let outs (y : Txn) : List Loc := y.wr.flatMap (·.2)
  ks.filter fun (k, y) => y.ready && (ks.takeWhile fun (j, _) => j.txn != k.txn).all fun (_, z) =>
    z.sent || !((outs y).any fun p => (outs z).any p.same)

/-- One step of a copy command (R313 to R317): a list entry that has come is taken, or the writes of a chunk leave, or the next chunk
starts, or the next list entry is sent for. How far ahead entries are read, and which of several chunks writes first, is a free choice. -/
def State.copyStep (s : State) (core id : Nat) : State :=
  match s.copyCmd? core id with
  | none => s
  | some x =>
    match x.etxn.bind fun (t, row) => (s.txns.find? t).bind fun y => if y.ready then some (t, row, y) else none with
    | some (t, row, y) => s.copyEntered core x t row y
    | none =>
      let ks := s.copyReady x
      match ks[Config.pickNat s.fresh % max ks.length 1]? with
      | some (k, y) => (s.draw 1).copyWrite core x k y
      | none =>
        if x.fid.isSome ∨ x.total ≤ x.pos then s
        else
          let more := x.rows && x.etxn.isNone && Nat.blt x.ents.length x.cnt
          match s.runFrom (x.asGroup core) x (x.total - x.pos) x.pos none with
          | some run => if more && Config.pick s.fresh 0 then (s.draw 1).copyEntry core x else (s.draw 1).copyStart core x run
          | none => if more then s.copyEntry core x else s

/-- A command that has nothing left to retire completes (R313, R315). -/
def State.copyEnd (s : State) (core : Nat) (x : CopyCmd) : State :=
  if x.chunks = [] ∧ x.total ≤ x.pos then s.copyDone core x else s.updCopy core x.id fun _ => x

/-- COPY_CHUNK_RETIRE: the first chunk of command `id` of core `c` that has not retired has had all its writes performed (R315); a command that
moves nothing completes (R373). -/
def execCopyChunkRetire (c id : Nat) (s : State) : Result :=
  eventOf "COPY_CHUNK_RETIRE"
    ((s.copyCmd? c id).bind fun x =>
      match x.chunks with
      | [] => if x.total ≤ x.pos then some (s.copyDone c { x with comp := max x.comp s.now }) else none
      | k :: ks =>
        (s.txns.find? k.txn).bind fun y =>
          if y.complete then
            some ((s.endTxn k.txn).copyEnd c
              { x with
                chunks := ks
                done := x.done + k.run.length
                comp := max x.comp y.comp
                err := x.err || y.werr
                pos := if y.werr then x.total else x.pos })
          else none)

/-! ## Reservations -/

/-- Fields of a reservation (R342). -/
def rsvBase (x : QWord) : Nat := qbits x 0 19
/-- Is it valid? -/
def rsvV (x : QWord) : Bool := qbits x 19 1 == 1
/-- Length in bytes. -/
def rsvLen (x : QWord) : Nat := qbits x 20 20
/-- Format. -/
def rsvFmt (x : QWord) : Nat := qbits x 40 2
/-- Block length. -/
def rsvBlk (x : QWord) : Nat := qbits x 42 5
/-- Side-plane offset. -/
def rsvSoff (x : QWord) : Nat := qbits x 48 19
/-- Bitmap offset. -/
def rsvBmoff (x : QWord) : Nat := qbits x 67 19
/-- Payload row pitch. -/
def rsvPitch (x : QWord) : Nat := qbits x 86 16
/-- The V bit. -/
def rsvVbit : QWord := (1 : QWord) <<< 19

/-- The check of `orsv` against the team's operand range (R374). -/
def rsvOk (x : QWord) (range : Nat) : Bool :=
  x.toNat / 2 ^ 102 == 0 && qbits x 47 1 == 0 && 1 ≤ rsvLen x && rsvLen x ≤ 2 ^ 19 && rsvBase x + rsvLen x ≤ range

/-- `orsv` (R374): the reservation takes the descriptor with V := 1. -/
def execOrsv (w : BitVec 1) (a : BitVec 10) (o : BitVec 3) (s0 : State) : Result :=
  issue (infoS1 w a 4 4).bare
    (fun c s =>
      let x := c.rs4 a.toNat
      let range := match s.team? c.G.team with | some T => T.obufN | none => 0
      if rsvOk x range then
        (s.updTeam c.G.team fun T => { T with resv := T.resv.put o.toNat (x ||| rsvVbit) }).retire c
      else s.trapAt c 1 11) s0

/-- `orel` (R375): V := 0. -/
def execOrel (w : BitVec 1) (o : BitVec 3) (s0 : State) : Result :=
  issue (infoNone w).bare
    (fun c s =>
      (s.updTeam c.G.team fun T => { T with resv := T.resv.put o.toNat (T.resv.get o.toNat 0 &&& ~~~rsvVbit) }).retire c) s0

end Sys2Proof.Machine
end

