-- ==== Sys2Proof/Machine/Peb.lean ====
section
/-! DEFINITION. The paired-exponent block formats (R208, R209, R327 to R338): conversion of FP32 values to the fields of a block and
back, and the two planes of a block in memory. -/

namespace Sys2Proof.Machine

/-- The mantissa bits m of a format code: PEB2, PEB4, PEB7 (R208, R327). -/
def pebM (f : Nat) : Nat := if f = 0 then 2 else if f = 1 then 4 else 7

/-- The payload bytes of a block (R327). -/
def pebP (f : Nat) : Nat := if f = 0 then 6 else if f = 1 then 10 else 16

/-- Sign-free bits of an FP32 word. -/
def magBits (x : Word) : Nat := x.toNat % 2 ^ 31

/-- ⌊log2 |x|⌋ + 127 of a nonzero finite magnitude (R209). -/
def biasedExp (a : Nat) : Int := if a ≥ 2 ^ 23 then ((a / 2 ^ 23 : Nat) : Int) else ((a.log2 : Nat) : Int) - 22

/-- A magnitude as an integer times a power of two. -/
def magParts (a : Nat) : Nat × Int :=
  if a ≥ 2 ^ 23 then (2 ^ 23 + a % 2 ^ 23, ((a / 2 ^ 23 : Nat) : Int) - 150) else (a, -149)

/-- One element's fields: micro-exponent, sign, mantissa, and whether it saturated. -/
structure PebElem where
  mu  : Nat
  s   : Nat
  m   : Nat
  sat : Bool
  deriving DecidableEq, Repr

/-- The block exponent and the fields of sixteen values, of which those that are none count as 0 (R209, R334). -/
def pebPack (f : Nat) (xs : List (Option Word)) : Nat × List PebElem :=
  let v : List Word := xs.map fun x => x.getD 0
  if v.any fun x => magBits x ≥ 0x7F800000 then
    (0xFF, v.map fun _ => ⟨0, 0, 0, false⟩)
  else
    let mx : Nat := (v.map magBits).foldl max 0
    let e : Int := if mx = 0 then 0 else max 0 (biasedExp mx)
    let quad (i : Nat) : Nat := (((v.drop (4 * i)).take 4).map magBits).foldl max 0
    let mu (i : Nat) : Nat := if quad i = 0 then 3 else min 3 (e - biasedExp (quad i)).toNat
    (e.toNat, (v.zipIdx).map fun (x, j) =>
      let u := mu (j / 4)
      let p := magParts (magBits x)
      let q := (quantise .rn false p.1 (p.2 + 127 + u + pebM f - 1 - e) 0).1
      ⟨u, (if x.getLsbD 31 then 1 else 0), min q (2 ^ pebM f - 1), 2 ^ pebM f - 1 < q⟩)

/-- The code of an element: sign in bit m, mantissa below (R208). -/
def PebElem.code (f : Nat) (x : PebElem) : Nat := x.s * 2 ^ pebM f + x.m

/-- The FP32 bits of an element from its code, block exponent and micro-exponent (R209, R328); bits of the code above the sign are
not read. -/
def pebValue (f code e mu : Nat) : Word :=
  if e = 0xFF then 0x7FC00000
  else
    let m := code % 2 ^ pebM f
    let neg := code / 2 ^ pebM f % 2 = 1
    if m = 0 then (if neg then 0x80000000 else 0)
    else BitVec.ofNat 32 (roundFin fp32 .rn neg m ((e : Int) - 127 - mu - (pebM f - 1 : Nat))).1

/-- The field word of `pebpk` (R208). -/
def pebField (f e : Nat) (x : PebElem) : Word := BitVec.ofNat 32 (x.code f + e * 2 ^ 8 + x.mu * 2 ^ 16)

/-- `pebup` of one field word (R209). -/
def pebUnfield (f : Nat) (x : Word) : Word := pebValue f (x.toNat % 256) (x.toNat / 256 % 256) (x.toNat / 65536 % 4)

/-- The payload of a block (R329): element j takes m + 1 bits of the string. -/
def pebPayload (f : Nat) (codes : List Nat) : List Byte :=
  leBytes (pebP f) ((codes.zipIdx).foldl (fun a (c, j) => a + c * 2 ^ ((pebM f + 1) * j)) 0)

/-- The side entry of a block (R330). -/
def pebSide (e : Nat) (mus : List Nat) : List Byte :=
  [BitVec.ofNat 8 e, BitVec.ofNat 8 ((mus.zipIdx).foldl (fun a (u, i) => a + u * 2 ^ (2 * i)) 0)]

/-- The codes of a payload (R329). -/
def pebCodes (f : Nat) (bs : List Byte) : List Nat :=
  let n := bs.foldr (fun b a => b.toNat + 256 * a) 0
  (List.range 16).map fun j => n / 2 ^ ((pebM f + 1) * j) % 2 ^ (pebM f + 1)

/-- The micro-exponents of a side entry's second byte (R330). -/
def pebMus (b : Byte) : List Nat := (List.range 4).map fun i => b.toNat / 4 ^ i % 4

/-- The aligned integer of a code under a micro-exponent (R338). -/
def pebAligned (f code mu : Nat) : Int :=
  let m : Int := ((code % 2 ^ pebM f) * 2 ^ (3 - mu) : Nat)
  if code / 2 ^ pebM f % 2 = 1 then -m else m

end Sys2Proof.Machine
end

