-- ==== Sys2Proof/Machine/Transc.lean ====
section
/-! DEFINITION. The reciprocals and transcendental functions (R149 to R151). The bits that the part delivers are open within the
bound: `Config` supplies a candidate, which is taken when a rational enclosure of the exact result shows that it meets the
bound, and the correctly rounded result is taken otherwise. Exact results and the special operands are fixed. -/

namespace Sys2Proof.Machine

/-- An enclosure of a positive real: it lies between `lo × 2^e` and `hi × 2^e`. -/
structure Enc where
  lo : Int
  hi : Int
  e  : Int
  deriving DecidableEq, Repr

/-- The fraction bits of the fixed-point series. -/
def fxBits : Nat := 160
/-- One in fixed point. -/
def fxOne : Int := 2 ^ fxBits
/-- ln 2 in fixed point: the sum of 1 / (k 2^k), from a term on. -/
def fxLn2From : Nat → Nat → Int
  | 0, _ => 0
  | n + 1, k => fxOne / ((k : Int) * 2 ^ k) + fxLn2From n (k + 1)
/-- ln 2 in fixed point. -/
def fxLn2 : Int := fxLn2From 170 1
/-- arctan (1 / q) in fixed point, by its series: `t` is the next power. -/
def fxAtanInv : Nat → Int → Nat → Int → Int
  | 0, _, _, _ => 0
  | n + 1, q, k, t => t / (2 * (k : Int) + 1) - fxAtanInv n q (k + 1) (t / (q * q))
/-- π in fixed point, by Machin's formula. -/
def fxPi : Int := 4 * (4 * fxAtanInv 40 5 0 (fxOne / 5) - fxAtanInv 14 239 0 (fxOne / 239))
/-- exp x in fixed point for 0 ≤ x < 1: the series from term k, `t` the next term. -/
def fxExp : Nat → Int → Nat → Int → Int
  | 0, _, _, _ => 0
  | n + 1, x, k, t => t + fxExp n x (k + 1) (t * x / fxOne / ((k : Int) + 1))
/-- The odd series of sine (or, from 1, the even one of cosine): term `t`, index k, argument squared. -/
def fxTrig : Nat → Int → Nat → Int → Int
  | 0, _, _, _ => 0
  | n + 1, x2, k, t => t - fxTrig n x2 (k + 2) (t * x2 / fxOne / (((k : Int) + 1) * ((k : Int) + 2)))
/-- atanh z in fixed point, for |z| ≤ 1/3. -/
def fxAtanh : Nat → Int → Nat → Int → Int
  | 0, _, _, _ => 0
  | n + 1, z2, k, t => t / (2 * (k : Int) + 1) + fxAtanh n z2 (k + 1) (t * z2 / fxOne)

/-- A fixed-point value with the slack of its series, times a power of two. -/
def fxEnc (v : Int) (e : Int) : Enc := ⟨v - 2 ^ 16, v + 2 ^ 16, e - fxBits⟩

/-- `m × 2^e` in fixed point, cut below. -/
def fxOf (m : Nat) (e : Int) : Int :=
  if 0 ≤ e + fxBits then (m : Int) * 2 ^ (e + fxBits).toNat else (m : Int) / 2 ^ (-(e + fxBits)).toNat

/-- 2^x for x = ± m × 2^e: the integer part gives the power of two. -/
def encExp2 (neg : Bool) (m : Nat) (e : Int) : Enc :=
  let x := if neg then -fxOf m e else fxOf m e
  let n := x.fdiv fxOne
  let r := x - n * fxOne
  fxEnc (fxExp 60 (r * fxLn2 / fxOne) 0 fxOne) n

/-- log2 (m × 2^e), with its sign. -/
def encLog2 (m : Nat) (e : Int) : Bool × Enc :=
  let l := Nat.log2 m
  let k := e + l
  let t := fxOf m (-(l : Int))
  let z := (t - fxOne) * fxOne / (t + fxOne)
  let v := k * fxOne + 2 * fxAtanh 90 (z * z / fxOne) 0 z * fxOne / fxLn2
  (decide (v < 0), fxEnc v.natAbs 0)

/-- sin(π r) for 0 ≤ r ≤ 1/2 given in fixed point. -/
def fxSinPi (r : Int) : Int :=
  let x := r * fxPi / fxOne
  fxTrig 40 (x * x / fxOne) 1 x

/-- |sin(π x)| and its sign, for x = m × 2^e > 0; below 2^−60, π x bounds it above and π x (1 − 2^−100) below. -/
def encSinPi (m : Nat) (e : Int) : Bool × Enc :=
  if Nat.log2 m + e < -60 then
    let p := (m : Int) * fxPi
    (false, ⟨p - p / 2 ^ 100 - 1, p + 1, e - fxBits⟩)
  else
    let x := fxOf m e
    let r := x % (2 * fxOne)
    let (neg, s) := if r < fxOne then (false, r) else (true, r - fxOne)
    (neg, fxEnc (fxSinPi (if 2 * s ≤ fxOne then s else fxOne - s)) 0)

/-- |cos(π x)| and its sign, for x = m × 2^e ≥ 0: the sine of x + 1/2. -/
def encCosPi (m : Nat) (e : Int) : Bool × Enc :=
  let r := (fxOf m e + fxOne / 2) % (2 * fxOne)
  let (neg, s) := if r < fxOne then (false, r) else (true, r - fxOne)
  (neg, fxEnc (fxSinPi (if 2 * s ≤ fxOne then s else fxOne - s)) 0)

/-- tanh x for x = m × 2^e > 0: below 2^−40, x and x (1 − 2^−80) bound it; above 64 it is within 2^−128 of 1. -/
def encTanh (m : Nat) (e : Int) : Enc :=
  if Nat.log2 m + e < -40 then ⟨(m : Int) * 2 ^ 100 - (m : Int) * 2 ^ 20, (m : Int) * 2 ^ 100, e - 100⟩
  else if 6 ≤ Nat.log2 m + e then ⟨2 ^ 130 - 1, 2 ^ 130, -130⟩
  else
    let u := encExp2 true (2 * m * (fxOne * fxOne / fxLn2).toNat) (e - fxBits)
    let w := (u.lo + u.hi) / 2 * 2 ^ 128 / 2 ^ (128 - (u.e + fxBits)).toNat
    fxEnc ((fxOne - w) * fxOne / (fxOne + w)) 0

/-- 1 ÷ (m × 2^e). -/
def encRcp (m : Nat) (e : Int) : Enc :=
  let q : Int := 2 ^ (200 + Nat.log2 m) / m
  ⟨q, q + 1, -(e + 200 + Nat.log2 m)⟩

/-- 1 ÷ √(m × 2^e). -/
def encRsqrt (m : Nat) (e : Int) : Enc :=
  let (m1, e1) := if e % 2 = 0 then (m, e) else (2 * m, e - 1)
  let q : Int := isqrt 230 (2 ^ 440 / m1) 0
  ⟨q, q + 1, -(e1 / 2) - 220⟩

/-- How far from the exact result a delivered value may lie (R149): a number of ulps, and an absolute bound 2^a if there is
one, the larger counting; `only` tells that the absolute bound stands alone. -/
structure Bound where
  ulps : Nat
  abs_ : Option Int
  only : Bool
  deriving DecidableEq, Repr

/-- Does `c × 2^ec` certainly lie within the bound of everything in the enclosure? -/
def within (b : Bound) (x : Enc) (c : Nat) (ec : Int) : Bool :=
  let top : Int := Nat.log2 x.lo.natAbs + x.e
  let u : Int := max top (-126) - 23
  let e0 := min (min (min x.e ec) u) (b.abs_.getD u)
  let at0 (v : Int) (e : Int) : Int := v * 2 ^ (e - e0).toNat
  let cc := at0 c ec
  let d := max (cc - at0 x.lo x.e) (at0 x.hi x.e - cc)
  let byUlp := decide (d ≤ at0 b.ulps u)
  match b.abs_ with
  | none => byUlp
  | some a => decide (d ≤ at0 1 a) || (!b.only && byUlp)

/-- The result of an inexact case (R149, R150): the candidate where it meets the bound, the correctly rounded value otherwise;
IX always, UF by the exact value. An exact magnitude above the largest finite value gives ∞ with OF and IX. The sign is that of the
exact result, also where an absolute bound would let the other one in (log 73). -/
def deliver (b : Bound) (neg : Bool) (x : Enc) (cand : Word) : Nat × Word :=
  let mid := ((x.lo + x.hi) / 2).natAbs
  let (bits, fl) := roundFin fp32 .rn neg (2 * mid + 1) (x.e - 1)
  let above := decide ((2 ^ 24 - 1 : Int) * 2 ^ (104 - min x.e 0).toNat < x.lo * 2 ^ (x.e - min x.e 0).toNat)
  if above || fl &&& flagOF != 0 then (fp32.signed neg fp32.inf, flagOF ||| flagIX)
  else
    let flags := flagIX ||| (fl &&& flagUF)
    match fp32.decode cand.toNat with
    | .num n m e =>
      if (n == neg) && within b x m e then (cand.toNat, flags) else (bits, flags)
    | _ => (bits, flags)

/-- Is a magnitude `m × 2^e`, not zero, a power of two, and which? -/
def powerOfTwo (m : Nat) (e : Int) : Option Int :=
  if m = 2 ^ Nat.log2 m then some (e + Nat.log2 m) else none

/-- Is `m × 2^e` an integer? -/
def isInteger (m : Nat) (e : Int) : Bool := decide (0 ≤ e) || decide (m % 2 ^ (-e).toNat = 0)

/-- The FP32 bits of 2^k, for a k that has them. -/
def pow2Bits (k : Int) : Nat := (roundFin fp32 .rn false 1 k).1

/-- `rcp` (R149 to R151). -/
def fRcp (a : Word) : Nat × Word :=
  match fp32.decode a.toNat with
  | .nan s => (fp32.nan, if s then flagIV else 0)
  | .inf n => (fp32.signed n 0, 0)
  | .num n m e =>
    if m = 0 then (fp32.signed n fp32.inf, flagDZ)
    else match powerOfTwo m e with
      | some k => if -k ≤ 127 then (fp32.signed n (pow2Bits (-k)), 0) else (fp32.signed n fp32.inf, flagOF ||| flagIX)
      | none => deliver ⟨1, none, false⟩ n (encRcp m e) (Config.rcp a)

/-- `rsqrt` (R149 to R151): exact on the even powers of two. -/
def fRsqrt (a : Word) : Nat × Word :=
  match fp32.decode a.toNat with
  | .nan s => (fp32.nan, if s then flagIV else 0)
  | .inf n => if n then (fp32.nan, flagIV) else (0, 0)
  | .num n m e =>
    if m = 0 then (fp32.signed n fp32.inf, flagDZ)
    else if n then (fp32.nan, flagIV)
    else match powerOfTwo m e with
      | some k => if k % 2 = 0 then (pow2Bits (-(k / 2)), 0)
                  else deliver ⟨2, none, false⟩ false (encRsqrt m e) (Config.rsqrt a)
      | none => deliver ⟨2, none, false⟩ false (encRsqrt m e) (Config.rsqrt a)

/-- `exp2` (R149 to R151). Beyond the ranges of R151 the result is ∞ or +0; the integers from −149 to 127 are exact. -/
def fExp2 (a : Word) : Nat × Word :=
  match fp32.decode a.toNat with
  | .nan s => (fp32.nan, if s then flagIV else 0)
  | .inf n => if n then (0, 0) else (fp32.inf, 0)
  | .num n m e =>
    let mag := Dy.at_ ⟨false, m, e⟩ (min e 0)
    let scale : Int := 2 ^ (-(min e 0)).toNat
    if m = 0 then (pow2Bits 0, 0)
    else if !n && decide (128 * scale ≤ mag) then (fp32.inf, flagOF ||| flagIX)
    else if n && decide (150 * scale < mag) then (0, flagUF ||| flagIX)
    else if isInteger m e && !(n && decide (150 * scale ≤ mag)) then
      (pow2Bits (if n then -(mag / scale) else mag / scale), 0)
    else deliver ⟨2, none, false⟩ false (encExp2 n m e) (Config.exp2 a)

/-- `log2` (R149 to R151): exact on the powers of two. -/
def fLog2 (a : Word) : Nat × Word :=
  match fp32.decode a.toNat with
  | .nan s => (fp32.nan, if s then flagIV else 0)
  | .inf n => if n then (fp32.nan, flagIV) else (fp32.inf, 0)
  | .num n m e =>
    if m = 0 then (fp32.signed true fp32.inf, flagDZ)
    else if n then (fp32.nan, flagIV)
    else match powerOfTwo m e with
      | some k => ((intToF .rn k).1, 0)
      | none =>
        let (neg, x) := encLog2 m e
        let inside := decide (Nat.log2 m + e = 0) || decide (Nat.log2 m + e = -1)
        deliver (if inside then ⟨0, some (-21), true⟩ else ⟨2, none, false⟩) neg x (Config.log2 a)

/-- The bound of `sinpi`, `cospi` and `tanh` (R149). -/
def boundAbs : Bound := ⟨2, some (-24), false⟩

/-- |x| as a word: the operand at which an odd or even function's candidate is taken (R150). -/
def absWord (a : Word) : Word := a &&& 0x7FFFFFFF

/-- `sinpi` (R149 to R151): odd; exact on the integers and half-integers. -/
def fSinPi (a : Word) : Nat × Word :=
  match fp32.decode a.toNat with
  | .nan s => (fp32.nan, if s then flagIV else 0)
  | .inf _ => (fp32.nan, flagIV)
  | .num n m e =>
    if m = 0 then (a.toNat, 0)
    else if isInteger m e then (fp32.signed n 0, 0)
    else if isInteger m (e + 1) then
      let odd := Dy.at_ ⟨false, m, e + 1⟩ 0 / 1
      let k := if e + 1 < 0 then (m / 2 ^ (-(e + 1)).toNat : Nat) else odd.toNat
      (fp32.signed (n != (k % 4 == 3)) (pow2Bits 0), 0)
    else
      let (s, x) := encSinPi m e
      let (b, fl) := deliver boundAbs s x (Config.sinpi (absWord a))
      (if n then fNegate fp32 b else b, fl)

/-- `cospi` (R149 to R151): even; exact on the integers and half-integers. -/
def fCosPi (a : Word) : Nat × Word :=
  match fp32.decode a.toNat with
  | .nan s => (fp32.nan, if s then flagIV else 0)
  | .inf _ => (fp32.nan, flagIV)
  | .num _ m e =>
    if m = 0 then (pow2Bits 0, 0)
    else if isInteger m e then
      let k := if e < 0 then m / 2 ^ (-e).toNat else m * 2 ^ e.toNat
      (fp32.signed (k % 2 == 1) (pow2Bits 0), 0)
    else if isInteger m (e + 1) then (0, 0)
    else
      let (s, x) := encCosPi m e
      deliver boundAbs s x (Config.cospi (absWord a))

/-- `tanh` (R149 to R151): odd. -/
def fTanh (a : Word) : Nat × Word :=
  match fp32.decode a.toNat with
  | .nan s => (fp32.nan, if s then flagIV else 0)
  | .inf n => (fp32.signed n (pow2Bits 0), 0)
  | .num n m e =>
    if m = 0 then (a.toNat, 0)
    else
      let (b, fl) := deliver boundAbs false (encTanh m e) (Config.tanh (absWord a))
      (if n then fNegate fp32 b else b, fl)

end Sys2Proof.Machine
end

