-- ==== Sys2Proof/Machine/Matrix.lean ====
section
/-! DEFINITION. The matrix unit and the words of the matrix stream (R339 to R370). -/

namespace Sys2Proof.Machine

/-- The issue of a word of class MX (R359). In a thread stream it is a trap with the stream detail (R58 step 3). -/
def mxIssue (k : Nat → Team → State → State) (s : State) : Result :=
  match s.cur with
  | .none => .fault .noIssuer
  | .seq t =>
    match s.team? t with
    | some T => if T.seqLive then .next (k t T s) else .fault .noIssuer
    | none => .fault .noIssuer
  | .path _ _ _ _ =>
    match s.context? with
    | some c => .next (s.trapAt c 1 2)
    | none => .fault .noIssuer

/-- Changing a team's sequencer. -/
def State.updSeq (s : State) (t : Nat) (f : Seq → Seq) : State := s.updTeam t fun T => { T with seq := f T.seq }
/-- The word has its effect, and the next one follows (R345). -/
def State.seqThen (s : State) (t : Nat) (f : Seq → Seq) : State :=
  s.updSeq t fun q => { f q with mpc := q.mpc + 4 }
/-- A stream register (R344). -/
def Seq.reg (q : Seq) (m : Nat) : Word := q.m.get m 0

/-! ## Reservations -/

/-- Do the payload blocks and side entries of a row lie inside a reservation, for K elements (R343)? -/
def rowInside (x : QWord) (r K : Nat) : Bool :=
  let P := pebP (rsvFmt x)
  r * rsvPitch x + K / 16 * P ≤ rsvLen x && rsvSoff x + r * (2 * rsvPitch x / P) + K / 16 * 2 ≤ rsvLen x

/-- May a word use rows [r, r + n) of a reservation with K elements each (R343)? -/
def rsvUsable (x : QWord) (r n K : Nat) : Bool :=
  rsvV x && rsvBlk x == 16 && rsvFmt x != 3 && rsvPitch x % pebP (rsvFmt x) == 0 && (n == 0 || rowInside x (r + n - 1) K)

/-- A reservation of a team. -/
def Team.rsv (T : Team) (o : Nat) : QWord := T.resv.get o 0

/-- A byte of a reservation, by its offset from BASE. Where a write that no barrier completion or tag separates from the word has changed it,
it is the old or the new byte, unpredictably (R332, R348). -/
def State.rsvByte (s : State) (T : Team) (x : QWord) (off : Nat) : Byte :=
  let a := T.obufB + rsvBase x + off
  match (s.core T.core).obOld.find? a with
  | some o => if Config.pick s.fresh a then o else s.byteAt (.obuf T.core a)
  | none => s.byteAt (.obuf T.core a)

/-- Block k of row r of a reservation (R343). -/
def State.rsvBlock (s : State) (T : Team) (x : QWord) (r k : Nat) : Blk :=
  let f := rsvFmt x
  let P := pebP f
  let pay := (List.range P).map fun i => s.rsvByte T x (r * rsvPitch x + k * P + i)
  let side := rsvSoff x + r * (2 * rsvPitch x / P) + 2 * k
  ⟨(s.rsvByte T x side).toNat, pebMus (s.rsvByte T x (side + 1)), pebCodes f pay⟩

/-- The blocks of a row, for K elements. -/
def State.rsvRow (s : State) (T : Team) (x : QWord) (r K : Nat) : List Blk := (List.range (K / 16)).map fun k => s.rsvBlock T x r k

/-- The bitmap bit of a region: rows 8g to 8g + 7, elements 8c to 8c + 7 (R353). -/
def bmBit (x : QWord) (g c : Nat) : Nat := g * (16 * rsvPitch x / pebP (rsvFmt x) / 8) + c
/-- Is the byte of a bitmap bit inside the reservation? -/
def bmInside (x : QWord) (b : Nat) : Bool := rsvBmoff x + b / 8 < rsvLen x
/-- Is a region marked? -/
def State.bmMarked (s : State) (T : Team) (x : QWord) (b : Nat) : Bool := (s.rsvByte T x (rsvBmoff x + b / 8)).getLsbD (b % 8)

/-- The bitmap bits of the regions that rows [r, r + n) of K elements meet. -/
def bmBits (x : QWord) (r n K : Nat) : List Nat :=
  if n = 0 then [] else
    (List.range ((r + n - 1) / 8 + 1 - r / 8)).flatMap fun i => (List.range (K / 8)).map fun c => bmBit x (r / 8 + i) c

/-- Is the bitmap that is bound to a reservation inside it for every region that a word needs (R353)? -/
def Team.bmOk (T : Team) (o : Nat) (x : QWord) (r n K : Nat) : Bool :=
  T.seq.bitmap != some o || (bmBits x r n K).all (bmInside x)

/-- The rows of the row groups that rows [r, r + n) meet: 8g to 8g + 7 for each, as far as they lie in the reservation (R353). -/
def regionRows (x : QWord) (r n K : Nat) : List Nat :=
  if n = 0 then []
  else ((List.range (8 * ((r + n - 1) / 8 + 1 - r / 8))).map fun i => r / 8 * 8 + i).filter fun i => rowInside x i K

/-- Does a marked region, of those that a word takes rows of, hold a nonzero code (R353)? -/
def State.bmFound (s : State) (T : Team) (o : Nat) (x : QWord) (r n K : Nat) : Bool :=
  T.seq.bitmap == some o &&
  (regionRows x r n K).any fun i => (List.range (K / 16)).any fun k =>
    let codes := (s.rsvBlock T x i k).code
    (List.range 2).any fun h =>
      let b := bmBit x (i / 8) (2 * k + h)
      bmInside x b && s.bmMarked T x b && ((codes.drop (8 * h)).take 8).any fun c => c % 2 ^ pebM (rsvFmt x) != 0

/-! ## The arithmetic of the unit (R351, R352) -/

/-- A result of the unit: its FP32 bits, and whether MOVF and MUNF are set. -/
structure MVal where
  x  : Nat
  ov : Bool
  un : Bool
  deriving DecidableEq, Repr

/-- mconv of a nonzero exact value ± m × 2^e (R352). -/
def mconvFin (neg : Bool) (m : Nat) (e : Int) : MVal :=
  let q : Int := e + (Nat.log2 m : Int) - 23
  let k := (quantise .rn neg m e q).1
  let top : Int := (Nat.log2 k : Int) + q
  if top ≥ 128 then ⟨fp32.signed neg 0x7F7FFFFF, true, false⟩
  else if top < -126 then ⟨fp32.signed neg 0, false, true⟩
  else ⟨(roundFin fp32 .rn neg k q).1, false, false⟩

/-- The NaN that mconv gives. -/
def mNan : MVal := ⟨0x7FC00000, false, false⟩

/-- mconv of a sum of two FP32 values (R351, R352). -/
def mAdd (a b : Nat) : MVal :=
  match fp32.decode a, fp32.decode b with
  | .num n m e, .num n' m' e' =>
    let ds : List Dy := [⟨n, m, e⟩, ⟨n', m', e'⟩]
    let z := sumDy ds
    if z.1 = 0 then ⟨(roundSum fp32 .rn ds).1, false, false⟩ else mconvFin (z.1 < 0) z.1.natAbs z.2
  | _, _ => mNan

/-- mconv of an infinity: a magnitude above the largest finite one (R352). -/
def mInf (neg : Bool) : MVal := ⟨fp32.signed neg 0x7F7FFFFF, true, false⟩

/-- mconv of a product of two FP32 values (R354, R356): an exact zero gives +0, an infinity saturates (R352), and 0 × ∞ is a NaN. -/
def mMul (a b : Nat) : MVal :=
  match mulFv (fp32.decode a) (fp32.decode b) with
  | some (.num n m e) => if m = 0 then ⟨0, false, false⟩ else mconvFin n m e
  | some (.inf n) => mInf n
  | _ => mNan

/-- mconv of a quotient of two FP32 values, the divisor no zero (R356). -/
def mDiv (a b : Nat) : MVal :=
  match fp32.decode a, fp32.decode b with
  | .num n m e, .num n' m' e' =>
    if m = 0 then ⟨0, false, false⟩
    else
      let q := m * 2 ^ 64 / m'
      mconvFin (n != n') (2 * q + (if m * 2 ^ 64 % m' = 0 then 0 else 1)) (e - e' - 65)
  | _, _ => mNan

/-- The products of a pair of blocks, summed exactly and converted (R351). -/
def blockSum (f : Nat) (A B : Blk) : MVal :=
  if A.e = 0xFF ∨ B.e = 0xFF then mNan
  else
    let ka (X : Blk) (j : Nat) : Int := pebAligned f (X.code.getD j 0) (X.mu.getD (j / 4) 0)
    let z : Int := (List.range 16).foldl (fun a j => a + ka A j * ka B j) 0
    if z = 0 then ⟨0, false, false⟩
    else mconvFin (z < 0) z.natAbs ((A.e : Int) + B.e - 260 - 2 * ((pebM f : Int) - 1))

/-- One element of a product (R351): block sums are added in ascending k. -/
def dotRow (f : Nat) (init : Nat) (as bs : List Blk) : MVal :=
  (as.zip bs).foldl (fun r (A, B) =>
    let x := blockSum f A B
    let y := mAdd r.x x.x
    ⟨y.x, r.ov || x.ov || y.ov, r.un || x.un || y.un⟩) ⟨init, false, false⟩

/-- The place of an element in tile memory (R340): column n of a product based on tile a. -/
def tileKey (a i n : Nat) : Nat := (a + n / 128) * 8192 + i * 128 + n % 128
/-- A tile element. -/
def Seq.tile (q : Seq) (key : Nat) : Nat := (q.tiles.get key 0).toNat
/-- Writing a tile element, with the flags of its computation. -/
def Seq.putTile (q : Seq) (key : Nat) (v : MVal) : Seq :=
  { q with tiles := q.tiles.set key (BitVec.ofNat 32 v.x) 0, movf := q.movf || v.ov, munf := q.munf || v.un }

/-- A product into tiles (R351, R355): rows of A with the row they go to, `cols` columns of B from column c0 on. -/
def Seq.product (q : Seq) (rows : List (Nat × List Blk)) (a c0 cols : Nat) (ovw : Bool) : Seq :=
  rows.foldl (fun q (i, as) => (List.range cols).foldl (fun q n =>
    let bs := (List.range as.length).map fun k => q.macros.get ((c0 + n) * 32 + k) ⟨0, [], []⟩
    q.putTile (tileKey a i n) (dotRow q.fmt (if ovw then 0 else q.tile (tileKey a i n)) as bs)) q) q

/-- A tile leaves its softmax chain (R354). -/
def Seq.unchain (q : Seq) (a n : Nat) : Seq :=
  (List.range n).foldl (fun q i => { q with chain := q.chain.del (a + i) }) q

/-! ## Shapes -/

/-- nN of a shape (R339). -/
def shapeN (h : Nat) : Nat := if h = 0 then 8 else if h = 1 then 1 else if h = 2 then 4 else 2
/-- K of a shape. -/
def shapeK (h : Nat) : Nat := 512 / shapeN h
/-- N of a shape. -/
def shapeCols (h : Nat) : Nat := 128 * shapeN h

/-- `mld` (R350, R361). -/
def execMld (o : BitVec 3) (h : BitVec 2) (m : BitVec 5) (s0 : State) : Result :=
  mxIssue
    (fun t T s =>
      let x := T.rsv o.toNat
      let r := (T.seq.reg m.toNat).toNat
      let K := shapeK h.toNat
      let N := shapeCols h.toNat
      if !(rsvUsable x r N K) then s.seqFault t 11 0
      else
        (s.draw 1).seqThen t fun q =>
          { q with
            shape := some h.toNat
            fmt := rsvFmt x
            macros := (List.range N).flatMap fun n => (List.range (K / 16)).map fun k => (n * 32 + k, s.rsvBlock T x (r + n) k) }) s0

/-- `mmul` (R351, R362). -/
def execMmul (a : BitVec 3) (o : BitVec 3) (m : BitVec 5) (v : BitVec 1) (s0 : State) : Result :=
  mxIssue
    (fun t T s =>
      match T.seq.shape with
      | none => s.seqFault t 13 0
      | some h =>
        let x := T.rsv o.toNat
        let r := (T.seq.reg m.toNat).toNat
        let K := shapeK h
        if a.toNat + shapeN h - 1 > 7 then s.seqFault t 13 0
        else if !(rsvUsable x r 64 K) then s.seqFault t 11 0
        else if rsvFmt x ≠ T.seq.fmt then s.seqFault t 14 0
        else if !(T.bmOk o.toNat x r 64 K) then s.seqFault t 11 0
        else
          let rows := (List.range 64).map fun i => (i, s.rsvRow T x (r + i) K)
          let found := s.bmFound T o.toNat x r 64 K
          (s.draw 1).seqThen t fun q =>
            let q := (q.product rows a.toNat 0 (shapeCols h) (flag1 v)).unchain a.toNat (shapeN h)
            { q with bmx := q.bmx || found }) s0

/-! ## The softmax step (R354) -/

/-- 1.0 and −∞ as FP32 bits. -/
def oneF : Nat := 0x3F800000
/-- −∞. -/
def negInf : Nat := 0xFF800000

/-- The new maximum of a row, the factor of its rescaling and its weights. -/
def softRow (old : Nat) (xs : List Nat) : Nat × Nat × List Nat :=
  let new := xs.foldl (fun m x => (fMinMax fp32 true m x).1) old
  if new = negInf then (new, oneF, xs.map fun _ => 0)
  else
    let ex (x : Nat) : Nat := (fExp2 (BitVec.ofNat 32 (fSub fp32 .rn x new).1)).1
    (new, ex old, xs.map ex)

/-- Eight blocks converted from a row's weights (R334): the blocks, and whether a code saturated. -/
def softBlocks (f : Nat) (ps : List Nat) : List Blk × Bool :=
  let rs := (List.range 8).map fun k => pebPack f (((ps.drop (16 * k)).take 16).map fun p => some (BitVec.ofNat 32 p))
  (rs.map fun (e, xs) => ⟨e, (List.range 4).map (fun i => ((xs[4 * i]?).map (·.mu)).getD 0), xs.map fun x => x.code f⟩,
   rs.any fun (_, xs) => xs.any (·.sat))

/-- The payload and side bytes of a block. -/
def Blk.bytes (f : Nat) (b : Blk) : List Byte × List Byte := (pebPayload f b.code, pebSide b.e b.mu)

/-- Writing bytes into a reservation, as a word of the stream. -/
def State.rsvPoke (s : State) (T : Team) (x : QWord) (off : Nat) (bs : List Byte) : State :=
  (bs.zipIdx).foldl (fun s (b, i) => s.pokeOwn (.obuf T.core (T.obufB + rsvBase x + off + i)) b) s

/-- One row of `mmulsm` before the product: the row's maximum and sum, the rescaled tiles, the flags. `qs` are the weights as
decoded from the blocks. -/
def Seq.softScale (q : Seq) (a i new d : Nat) (qs : List Nat) (first : Bool) : Seq :=
  let r0 : MVal := if first then ⟨0, false, false⟩ else mMul (q.rsum.get (a * 64 + i) 0).toNat d
  let sum := qs.foldl (fun (r : MVal) x => let y := mAdd r.x x; (⟨y.x, r.ov || y.ov, r.un || y.un⟩ : MVal)) r0
  let q := (List.range 512).foldl (fun q n =>
    q.putTile (tileKey a i n) (if first then ⟨0, false, false⟩ else mMul (q.tile (tileKey a i n)) d)) q
  { q with
    rsum := q.rsum.put (a * 64 + i) (BitVec.ofNat 32 sum.x)
    rmax := q.rmax.put (a * 64 + i) (BitVec.ofNat 32 new)
    movf := q.movf || sum.ov
    munf := q.munf || sum.un }

/-- `mmulsm` (R354, R363). -/
def execMmulsm (a : BitVec 3) (o : BitVec 3) (m : BitVec 5) (v : BitVec 1) (s0 : State) : Result :=
  mxIssue
    (fun t T s =>
      let x := T.rsv o.toNat
      let mk := (T.seq.reg m.toNat).toNat
      let b := a.toNat
      let first := flag1 v
      if T.seq.shape ≠ some 2 ∨ (b ≠ 0 ∧ b ≠ 4) ∨ mk / 8 ≠ 0 ∨ (b ≤ mk ∧ mk ≤ b + 3) then s.seqFault t 13 0
      else if !first ∧ !((List.range 4).all fun i => T.seq.chain.find? (b + i) == some b) then s.seqFault t 15 0
      else if !(rsvUsable x 0 64 128) then s.seqFault t 11 0
      else if rsvFmt x ≠ T.seq.fmt then s.seqFault t 14 0
      else if !(T.bmOk o.toNat x 0 64 128) then s.seqFault t 11 0
      else
        let f := rsvFmt x
        let rows : List (Nat × Nat × Nat × List Blk × Bool) := (List.range 64).map fun i =>
          let old := if first then negInf else (T.seq.rmax.get (b * 64 + i) 0xFF800000).toNat
          let (new, d, ps) := softRow old ((List.range 128).map fun k => T.seq.tile (tileKey mk i k))
          let (bs, sat) := softBlocks f ps
          (i, new, d, bs, sat)
        let s := rows.foldl (fun s (i, _, _, bs, _) => (bs.zipIdx).foldl (fun s (bl, k) =>
          let y := bl.bytes f
          (s.rsvPoke T x (i * rsvPitch x + k * pebP f) y.1).rsvPoke T x
            (rsvSoff x + i * (2 * rsvPitch x / pebP f) + 2 * k) y.2) s) s
        let found := s.bmFound T o.toNat x 0 64 128
        let as := (List.range 64).map fun i => (i, s.rsvRow T x i 128)
        (s.draw 1).seqThen t fun q =>
          let q := rows.foldl (fun (q : Seq) (i, new, d, bs, _) =>
            q.softScale b i new d ((bs.flatMap fun bl => (List.range 16).map fun j =>
              (pebValue f (bl.code.getD j 0) bl.e (bl.mu.getD (j / 4) 0)).toNat)) first) q
          let q := q.product as b 0 512 false
          { q with
            bmx := q.bmx || found
            msat := q.msat || rows.any fun (_, _, _, _, z) => z
            chain := (List.range 4).foldl (fun c i => SMap.put c (b + i) b) q.chain }) s0

/-! ## Clearing, bitmaps, grouped products -/

/-- `mclr` (R354, R364). -/
def execMclr (a : BitVec 3) (s0 : State) : Result :=
  mxIssue
    (fun t _ s =>
      let of_ (n k : Nat) : Bool := k / n == a.toNat
      s.seqThen t fun q =>
        { q with
          tiles := q.tiles.filter fun (k, _) => !(of_ 8192 k)
          rmax := q.rmax.filter fun (k, _) => !(of_ 64 k)
          rsum := q.rsum.filter fun (k, _) => !(of_ 64 k)
          chain := q.chain.del a.toNat }) s0

/-- `mbmap` (R353, R365). -/
def execMbmap (o : BitVec 3) (e : BitVec 1) (s0 : State) : Result :=
  mxIssue (fun t _ s => s.seqThen t fun q => { q with bitmap := if e = 1 then some o.toNat else none }) s0

/-- `mgrp` (R355, R366). -/
def execMgrp (a : BitVec 3) (o : BitVec 3) (m : BitVec 5) (s0 : State) : Result :=
  mxIssue
    (fun t T s =>
      let x := T.rsv o.toNat
      let mk := (T.seq.reg m.toNat).toNat
      let vec := mk % 2 ^ 20
      let G := mk / 2 ^ 24
      if T.seq.shape ≠ some 0 then s.seqFault t 13 0
      else if G = 0 ∨ G > 8 ∨ mk / 2 ^ 20 % 16 ≠ 0 then s.seqFault t 16 0
      else if vec + 2 * (G + 1) > rsvLen x then s.seqFault t 11 0
      else
        let off (g : Nat) : Nat := (s.rsvByte T x (vec + 2 * g)).toNat + 256 * (s.rsvByte T x (vec + 2 * g + 1)).toNat
        let bad (g : Nat) : Bool :=
          (g > 0 && off g < off (g - 1)) || (off g != 0 && !(rowInside x (off g - 1) 64)) || off g > off 0 + 64
        match (List.range (G + 1)).find? bad with
        | some g => s.seqFault t 16 g
        | none =>
          let n := off G - off 0
          if !(rsvUsable x (off 0) n 64) then s.seqFault t 11 0
          else if rsvFmt x ≠ T.seq.fmt then s.seqFault t 14 0
          else
            let found := s.bmFound T o.toNat x (off 0) n 64
            (s.draw 1).seqThen t fun q =>
              let q := (List.range G).foldl (fun (q : Seq) g =>
                q.product ((List.range (off (g + 1) - off g)).map fun i => (off g + i - off 0, s.rsvRow T x (off g + i) 64))
                  a.toNat (128 * g) 128 false) q
              let q := q.unchain a.toNat 1
              { q with bmx := q.bmx || found }) s0

/-! ## The epilogue (R356, R357, R367) -/

/-- The value of an element as it is retired: y of R356. -/
def Seq.retired (q : Seq) (a i n : Nat) (scale : Nat) : MVal :=
  let x : MVal := ⟨q.tile (tileKey a i n), false, false⟩
  let x := match q.chain.find? a with
    | none => x
    | some c =>
      let d := (q.rsum.get (c * 64 + i) 0).toNat
      if d % 2 ^ 31 = 0 then ⟨0, false, false⟩ else mDiv x.x d
  let y := mMul x.x scale
  ⟨y.x, x.ov || y.ov, x.un || y.un⟩

/-- The BF16 form of a retired value (R356). -/
def MVal.toBf (v : MVal) : MVal :=
  let b := (fConv fp32 bf16 .rn v.x).1
  if b % 2 ^ 15 = 0x7F80 then ⟨b - 1, true, v.un⟩ else ⟨b, v.ov, v.un⟩

/-- What an epilogue stores: for each record the bytes with their element, the flags, and whether a code saturated. -/
structure Epi where
  main : List (Int × List Byte)
  side : List (Int × List Byte)
  vals : List Word
  ov   : Bool
  un   : Bool
  sat  : Bool
  deriving DecidableEq, Repr

/-- The conversion of a tile (R356). `first`, `pitch` and `sbase` are the stream registers after the scale, read as n32. -/
def Seq.epilogue (q : Seq) (a fmt peb scale first pitch sbase : Nat) : Epi :=
  let ys (i : Nat) : List MVal := (List.range 128).map fun n => q.retired a i n scale
  let rows := (List.range 64).map fun i => (i, ys i)
  match fmt with
  | 2 =>
    let bs := rows.flatMap fun (i, r) => (List.range 8).map fun k =>
      (i, k, pebPack peb (((r.drop (16 * k)).take 16).map fun v => some (BitVec.ofNat 32 v.x)))
    let split (at_ : Nat) (l : List Byte) : List (Int × List Byte) := (l.zipIdx).map fun (b, j) => (((at_ + j : Nat) : Int), [b])
    ⟨bs.flatMap (fun (i, k, _, xs) => split (first + i * pitch + k * pebP peb) (pebPayload peb (xs.map fun x => x.code peb))),
     bs.flatMap (fun (i, k, e, xs) => split (sbase + 16 * i + 2 * k)
       (pebSide e ((List.range 4).map fun j => ((xs[4 * j]?).map (·.mu)).getD 0))),
     [], rows.any (fun (_, r) => r.any (·.ov)), rows.any (fun (_, r) => r.any (·.un)), bs.any fun (_, _, _, xs) => xs.any (·.sat)⟩
  | f =>
    let conv (v : MVal) : MVal := if f = 1 then v.toBf else v
    let rows := rows.map fun (i, r) => (i, r.map conv)
    ⟨rows.flatMap (fun (i, r) => (r.zipIdx).map fun (v, n) =>
       (((first + i * pitch + n : Nat) : Int), leBytes (if f = 1 then 2 else 4) v.x)),
     [], rows.flatMap (fun (_, r) => r.map fun v => BitVec.ofNat 32 v.x),
     rows.any (fun (_, r) => r.any (·.ov)), rows.any (fun (_, r) => r.any (·.un)), false⟩

/-- A tile is retired: the flags, and the closing of its chain (R354, R356). -/
def Seq.retire (q : Seq) (a : Nat) (e : Epi) : Seq :=
  { q.unchain a 1 with movf := q.movf || e.ov, munf := q.munf || e.un, msat := q.msat || e.sat }

/-- The group as which a team's sequencer addresses memory: group 0's records and segments, those it held at its end once it has
ended (R356). -/
def State.seqGroup (s : State) (t : Nat) (T : Team) : Group :=
  match T.groups.head?.bind s.group? with
  | some G => { Group.blank with core := T.core, team := t, vf := T.vf, seg := G.seg, b := T.recs0.getD G.b }
  | none => { Group.blank with core := T.core, team := t, vf := T.vf, b := T.recs0.getD [] }

/-- A page fault of the sequencer: it is parked in front of the word (R411). -/
def State.seqPark (s : State) (t : Nat) (T : Team) (va cause lev acc : Nat) : State :=
  let lid := match s.launch? T.launch with | some L => L.r.lid | none => 0
  let r := s.fault ⟨T.vf, va, lid, 0, T.seq.mpc, T.core, dieOf T.core, 0, 0, 2, 0, acc, cause, lev, false⟩ (.seq t)
  r.1.updSeq t fun q => { q with fid := some r.2 }

/-- Do the record types fit the format (R367 step 4)? -/
def mretRecs (fmt : Nat) (r r' : QWord) : Bool :=
  recSpace r != 5 &&
  (if fmt = 0 then recType r == 6 else if fmt = 1 then recType r == 7
   else recType r == 11 && recType r' == 12 && recSpace r' != 5)

/-- The elements of an epilogue by their place in the list, with their index in the record. -/
def numbered (l : List (Int × List Byte)) : List (Nat × Int) := (l.zipIdx).map fun (x, i) => (i, x.1)
/-- The bytes of those elements that go on, with the places that they go to. -/
def placed (g : List (Nat × List Loc)) (l : List (Int × List Byte)) : List (Loc × Byte) :=
  g.flatMap fun (i, ls) => ls.zip ((l[i]?).map (·.2) |>.getD [])

/-- The stores of an epilogue through one record leave (R283, R356), with the record's class and budget (log 25). -/
def State.mretSend (s : State) (t : Nat) (T : Team) (r : QWord) (ws : List (Loc × Byte)) : State :=
  let b := s.beginTxn (.mret t) T.vf (recClass r) (recBudget r) [] [(0, ws.map (·.1))]
  (b.1.writeTxn b.2 ws).engClose b.2

/-- The pages that an epilogue's two records fault on, each once (R411). -/
def mretFaults (p0 p1 : Plan) : List (Nat × Nat × Nat × List Nat) :=
  p0.faults ++ p1.faults.filter fun f => !(p0.faults.any fun e => e.1 / 4096 == f.1 / 4096)

/-- The stores of an epilogue whose plans are `p0` and `p1` (R356, R367): bounds and translations first, then the stores, as an
engine's (R283). The word does not wait for them. -/
def State.mretStores (s : State) (t : Nat) (T : Team) (a : Nat) (e : Epi) (r r' : QWord) (p0 p1 : Plan) : State :=
  if (recOob r = 1 ∧ p0.oob ≠ []) ∨ (recOob r' = 1 ∧ p1.oob ≠ []) then s.seqFault t 17 0
  else
    match mretFaults p0 p1 with
    | [] => ((p1.st.mretSend t T r (placed p0.good e.main)).mretSend t T r' (placed p1.good e.side)).seqThen t fun q => q.retire a e
    | fs => fs.foldl (fun s (va, cause, lev, _) => s.seqPark t T va cause lev 1) p1.st

/-- `mret` to memory (R356, R367). -/
def execMret (a : BitVec 3) (f : BitVec 2) (p : BitVec 2) (m : BitVec 5) (b : BitVec 4) (s0 : State) : Result :=
  mxIssue
    (fun t T s =>
      let k := m.toNat
      let G := s.seqGroup t T
      let r := G.bufRec b.toNat
      let r' := G.bufRec (b.toNat + 1)
      if k > 28 then s.seqFault t 12 0
      else if !(mretRecs f.toNat r r') then s.seqFault t 6 0
      else
        let reg (i : Nat) : Nat := (T.seq.reg (k + i)).toNat
        let e := T.seq.epilogue a.toNat f.toNat p.toNat (reg 0) (reg 1) (reg 2) (reg 3)
        let p0 := s.plan T.core G r (if f = 0 then 4 else if f = 1 then 2 else 1) .write (numbered e.main)
        let p1 := p0.st.plan T.core G r' 1 .write (numbered e.side)
        s.mretStores t T a.toNat e r r' p0 p1) s0

/-- The chunk index of a bound tile (R454). -/
def LaunchRec.chunkOf (r : LaunchRec) (x a : Nat) : Nat := (r.ch0 + x * popBits r.tmask 8 + popBits r.tmask a) % 2 ^ 32

/-- `mret … coll` (R357, R367, R454): the chunk leaves for the object that DRT names, and the sequencer waits for the answer; once
the object has accepted it the tile is retired. -/
def execMretColl (a : BitVec 3) (f : BitVec 2) (_p : BitVec 2) (m : BitVec 5) (s0 : State) : Result :=
  mxIssue
    (fun t T s =>
      let k := m.toNat
      match s.recOf T with
      | none => s.seqFault t 18 0
      | some r =>
        if k > 28 then s.seqFault t 12 0
        else if !(r.tmask.testBit a.toNat) ∨ f.toNat ≠ r.ctype then s.seqFault t 18 0
        else
          let e := T.seq.epilogue a.toNat f.toNat 0 (T.seq.reg k).toNat 0 0 0
          if T.seq.chunks = 2 then s.seqThen t fun q => { q.retire a.toNat e with chunks := 0 }
          else
            let c : Chunk := ⟨s.devId, T.drt.toNat / 2 ^ 10 % 2 ^ 12, dieOf T.core, T.drt.toNat % 256, T.vf, r.chunkOf T.x a.toNat, f.toNat, e.vals, some t, none⟩
            let s := if c.dev = s.devId then { s with chunks := s.chunks ++ [c] } else { s with chunkOut := s.chunkOut ++ [c] }
            s.updSeq t fun q => { q with chunks := 1 }) s0

/-- The answer to a sequencer's chunk (R454, R455): where the object is not open, the word faults with the collective detail. -/
def State.chunkAnswer (s : State) (t : Nat) (ok : Bool) : State :=
  if ok then s.updSeq t fun q => { q with chunks := 2 }
  else (s.updSeq t fun q => { q with chunks := 0 }).seqFault t 18 0

/-! ## Barriers, tags, registers -/

/-- Are stores of a team's sequencer under way (R346)? -/
def State.mretBusy (s : State) (t : Nat) : Bool := s.txns.any fun x => x.2.who == .mret t

/-- `marv` (R346, R368): it waits until the earlier stores have been performed and their completion times have been reached; one of them that
failed faults here (R400); under a pre-emption request the sequencer stops in front of it (R358). -/
def execMarv (b : BitVec 5) (s0 : State) : Result :=
  mxIssue
    (fun t T s =>
      if s.stopping t then s.updTeam t fun T => { T with seqStop := true }
      else if s.mretBusy t then s
      else if T.seq.serr then (s.updSeq t fun q => { q with serr := false }).seqFault t 20 0
      else if s.now < T.seq.comp then s
      else (s.arrive t b.toNat 1).seqThen t id) s0

/-- Has a barrier the phase that the sequencer expects? -/
def State.expected (s : State) (T : Team) (b : Nat) : Bool := (s.bar T b).phase == T.seq.xp.getLsbD b

/-- `mwait` returns: the expected phase is inverted (R346). -/
def State.mwaitDone (s : State) (t b : Nat) : State :=
  s.seqThen t fun q => { q with xp := q.xp ^^^ laneBit b, wait := none }

/-- `mwait` (R346, R368). -/
def execMwait (b : BitVec 5) (s0 : State) : Result :=
  mxIssue
    (fun t T s =>
      if s.stopping t then s.updTeam t fun T => { T with seqStop := true }
      else if s.expected T b.toNat then s.mwaitDone t b.toNat
      else s.updSeq t fun q => { q with wait := some (true, b.toNat) }) s0

/-- Is a tag set, and its completion time reached (R284)? -/
def State.tagReady (s : State) (core t : Nat) : Bool := (s.core core).tags.getLsbD t && (s.core core).tagTime.get t 0 ≤ s.now

/-- `mtag` returns, or faults where the tag has its error bit set (R320, R347). What was written to the operand buffer before the completed
tag is separated from the words that follow (R348). -/
def State.mtagDone (s : State) (t core tag : Nat) : State :=
  if (s.core core).terr.getLsbD tag then (s.updSeq t fun q => { q with wait := none }).seqFault t 20 0
  else (match s.team? t with | some T => s.settleObuf T | none => s).seqThen t fun q => { q with wait := none }

/-- `mtag` (R347, R369). -/
def execMtag (g : BitVec 6) (s0 : State) : Result :=
  mxIssue
    (fun t T s =>
      if !(T.tagB ≤ g.toNat ∧ g.toNat < T.tagB + T.tagN) then s.seqFault t 19 0
      else if s.tagReady T.core g.toNat then s.mtagDone t T.core g.toNat
      else s.updSeq t fun q => { q with wait := some (false, g.toNat) }) s0

/-- SEQUENCER_WAIT_RELEASE: the barrier or the tag that the sequencer of team `t` waits for is there (R346, R347). Under a pre-emption request a
sequencer in `mwait` stays in front of that; one in `mtag` goes on to its next `marv` or `mwait` (R358, R419). -/
def execSequencerWaitRelease (t : Nat) (s : State) : Result :=
  eventOf "SEQUENCER_WAIT_RELEASE"
    ((s.team? t).bind fun T =>
      if T.seq.run ≠ 1 ∨ T.seq.sflt then none
      else match T.seq.wait with
        | some (true, b) => if !(s.stopping t) ∧ s.expected T b then some (s.mwaitDone t b) else none
        | some (false, g) => if s.tagReady T.core g then some (s.mtagDone t T.core g) else none
        | none => none)

/-- `mset` (R345, R370). -/
def execMset (m : BitVec 5) (i : BitVec 16) (s0 : State) : Result :=
  mxIssue (fun t _ s => s.seqThen t fun q => { q with m := q.m.put m.toNat (i.signExtend 32) }) s0
/-- `madd` (R345, R370). -/
def execMadd (m : BitVec 5) (i : BitVec 16) (s0 : State) : Result :=
  mxIssue (fun t _ s => s.seqThen t fun q => { q with m := q.m.put m.toNat (q.reg m.toNat + i.signExtend 32) }) s0
/-- `mbnz` (R345, R370). -/
def execMbnz (m : BitVec 5) (o : BitVec 16) (s0 : State) : Result :=
  mxIssue
    (fun t _ s => s.updSeq t fun q => { q with mpc := if q.reg m.toNat = 0 then q.mpc + 4 else q.mpc + (o.signExtend 32) <<< 2 }) s0

/-- `mend` (R345, R370): the sequencer ends. It waits for the answers of its stores, since one that failed faults in front of it where no `marv`
follows (R400, log 25). -/
def execMend (s0 : State) : Result :=
  mxIssue
    (fun t T s =>
      if s.mretBusy t then s
      else if T.seq.serr then (s.updSeq t fun q => { q with serr := false }).seqFault t 20 0
      else (s.seqThen t fun q => { q with run := 3 }).checkTeam t) s0

end Sys2Proof.Machine
end

