-- ==== Sys2Proof/Machine/Queue.lean ====
section
/-! DEFINITION. Hardware queues (R322 to R326, R376 to R379). -/

namespace Sys2Proof.Machine

/-- The result of a variable-latency instruction in a uniform register has come back. -/
def State.answer (s : State) (g : Nat) (pend : Option Nat) (x : Word) : State :=
  match pend with
  | none => s
  | some p => s.updGroup g fun G =>
      { G with pend := G.pend.map fun y => if y.id = p then { y with vals := some [⟨0, [x], 0, false⟩] } else y }

/-- The descriptor of a queue command (R376): the queue and the count, or none where a bit or the count is not legal. -/
def queueDesc (stat : Bool) (a : Word) : Option (Nat × Nat) :=
  let n := a.toNat / 2 ^ 16 % 512
  if a.toNat / 2 ^ 25 = 0 ∧ a.toNat / 2 ^ 10 % 64 = 0 ∧ (if stat then n = 0 else 1 ≤ n ∧ n ≤ 256) then
    some (a.toNat % 1024, n)
  else none

/-- A queue command with a result (R377): sent in the access order; `qtake` is an acquire (R325). -/
def queueGet (kind : Nat) (w : BitVec 1) (a d : BitVec 10) (s0 : State) : Result :=
  issue { w := flag1 w, var := true, noHint := true, regs := [.s a.toNat 1 1, .s d.toNat 1 1] }
    (fun c s =>
      match queueDesc (kind == 10) (c.rs a.toNat) with
      | none => s.trapAt c 1 10
      | some (q, n) =>
        let pid := s.uid
        let s := (s.updGroup c.g fun G => G.start pid c.mask c.first (.s d.toNat 1) none).bump
        let cmd : QCmd := ⟨kind, q / 256, c.G.core, c.G.part, c.g, c.G.vf, q, n, 0, some pid⟩
        let e := { fenceAcc s.uid c (.cmd (.queue cmd)) with acq := if kind = 8 then 1 else 0 }
        ((s.addAcc c.g e).bump).retire c) s0

/-- A queue command without a result (R325, R377): a release at device scope holds the path as a fence does, and the command
follows it in the access order. -/
def queuePut (kind : Nat) (w : BitVec 1) (a : BitVec 10) (s0 : State) : Result :=
  issue { w := flag1 w, noHint := true, regs := [.s a.toNat 2 1] }
    (fun c s =>
      let k := (c.rs (a.toNat + 1)).toNat
      match queueDesc false (c.rs a.toNat) with
      | none => s.trapAt c 1 10
      | some (q, n) =>
        if k ≥ 2 ^ 31 then s.trapAt c 1 10
        else
          let rid := s.uid
          let s := (s.addAcc c.g (fenceAcc rid c (.release 7))).bump
          let cmd : QCmd := ⟨kind, q / 256, c.G.core, c.G.part, c.g, c.G.vf, q, n, k, none⟩
          ((s.addAcc c.g (fenceAcc s.uid c (.cmd (.queue cmd)))).bump).blockPath c (.fence rid 0)) s0

/-- `qclaim` (R323, R377). -/
def execQclaim (w : BitVec 1) (a d : BitVec 10) (s0 : State) : Result := queueGet 6 w a d s0
/-- `qpub` (R323, R377). -/
def execQpub (w : BitVec 1) (a : BitVec 10) (s0 : State) : Result := queuePut 7 w a s0
/-- `qtake` (R323, R377). -/
def execQtake (w : BitVec 1) (a d : BitVec 10) (s0 : State) : Result := queueGet 8 w a d s0
/-- `qdone` (R323, R377). -/
def execQdone (w : BitVec 1) (a : BitVec 10) (s0 : State) : Result := queuePut 9 w a s0
/-- `qstat` (R323, R377). -/
def execQstat (w : BitVec 1) (a d : BitVec 10) (s0 : State) : Result := queueGet 10 w a d s0

/-! ## The queue unit -/

/-- Slot indices wrap modulo 2^31 (R322). -/
def qWrap (x : Nat) : Nat := x % 2 ^ 31
/-- The distance from one index to another. -/
def qDist (a b : Nat) : Nat := qWrap (b + 2 ^ 31 - a)
/-- NSLOT (R322). -/
def QRec.nslot (q : QRec) : Nat := 2 ^ (q.lns + 1)

/-- Advancing a pointer over the slots that are marked, one after another: the pointer, the marks that stay. -/
def qAdvance : Nat → Nat → List Nat → Nat × List Nat
  | 0, p, ms => (p, ms)
  | n + 1, p, ms => if ms.contains p then qAdvance n (qWrap (p + 1)) (ms.erase p) else (p, ms)

/-- The slots [k, k + n). -/
def qSlots (k n : Nat) : List Nat := (List.range n).map fun i => qWrap (k + i)

/-- Is [k, k + n) inside [a, b) and unmarked (R323)? -/
def qInside (a b k n : Nat) (ms : List Nat) : Bool := qDist a k + n ≤ qDist a b && (qSlots k n).all fun i => !ms.contains i

/-- The bit that marks a failed claim or take (R323). -/
def qFail : Nat := 0x80000000

/-- One command of the queue unit (R323): the new record, the result, and whether PUB advanced. -/
def QRec.serve (q : QRec) (c : QCmd) : QRec × Nat × Bool :=
  match c.kind with
  | 6 => if q.en ∧ q.free ≥ c.n then ({ q with tail := qWrap (q.tail + c.n), free := q.free - c.n }, q.tail, false)
         else (q, qFail + q.free, false)
  | 7 =>
    if qInside q.pub q.tail c.k c.n q.pubs then
      let r := qAdvance q.nslot q.pub (q.pubs ++ qSlots c.k c.n)
      ({ q with pub := r.1, pubs := r.2 }, 0, r.1 != q.pub)
    else ({ q with epub := true }, 0, false)
  | 8 => if q.en ∧ qDist q.head q.pub ≥ c.n then ({ q with head := qWrap (q.head + c.n) }, q.head, false)
         else (q, qFail + qDist q.head q.pub, false)
  | 9 =>
    if qInside q.done q.head c.k c.n q.dones then
      let r := qAdvance q.nslot q.done (q.dones ++ qSlots c.k c.n)
      ({ q with done := r.1, dones := r.2, free := q.free + qDist q.done r.1 }, 0, false)
    else ({ q with edone := true }, 0, false)
  | _ => (q, q.free + fieldAt q.en.toNat 17 + fieldAt q.epub.toNat 18 + fieldAt q.edone.toNat 19, false)

/-- Is a queue assigned to a function (R378, R445)? -/
def QRec.ownedBy (q : QRec) (vf : Nat) : Bool := q.own.getLsbD 7 && q.own.toNat % 64 == vf

/-- A queue of a die. -/
def Die.queue (D : Die) (q : Nat) : QRec := D.queues.get (q % 256) QRec.init

/-- The write of PUB to MIRROR (R324): a global store under the owner's function (R511), of the queue's class (R322). A store that fails its
translation or its check is dropped (log 14). -/
def State.mirror (s : State) (d : Nat) (q : QRec) : State :=
  if q.mirror = 0 then s
  else
    let vf := q.own.toNat % 64
    let t := s.translate (s.die d).tlb vf q.mirror .write s.fresh
    let s := (s.draw 1).learnDie d t
    match t with
    | .fault _ _ _ => s
    | .ok pa _ =>
      let ps := (List.range 4).map fun i => Loc.glob (q.mirror + i) (pa + i)
      let b := s.beginTxn (.queue d) vf q.cls 0 [] [(0, ps)]
      b.1.writeTxn b.2 (ps.zip (leBytes 4 q.pub))

/-- What a command of another function's queue gives (R378). -/
def foreignResult (kind : Nat) : Nat := if kind = 10 then 0 else qFail

/-- The issuer of a served command goes on: its result is back, and a `qtake` has been performed (R325). -/
def State.queueAnswer (s : State) (c : QCmd) (x : Nat) : State :=
  let s := s.answer c.guid c.pend (BitVec.ofNat 32 x)
  if c.kind = 8 then
    s.updGroup c.guid fun G => { G with acc := G.acc.filter fun a =>
      match a.kind with | .cmd (.queue y) => y.pend != c.pend | _ => true }
  else s

/-- QUEUE_COMMAND_SERVE: the queue unit of die `d` serves its oldest command in one step (R323, R324, R378). -/
def execQueueCommandServe (d : Nat) (s : State) : Result :=
  eventOf "QUEUE_COMMAND_SERVE"
    (match (s.die d).qcmds with
     | [] => none
     | c :: rest =>
       let q := (s.die d).queue c.q
       let t := s.updDie d fun D => { D with qcmds := rest }
       if q.ownedBy c.vf then
         let r := q.serve c
         let t := t.updDie d fun D => { D with queues := D.queues.put (c.q % 256) r.1 }
         some ((if r.2.2 then t.mirror d r.1 else t).queueAnswer c r.2.1)
       else some (t.queueAnswer c (foreignResult c.kind)))

end Sys2Proof.Machine
end

