-- ==== Sys2Proof/Machine/Engine.lean ====
section
/-! DEFINITION. The commands of the Drover and the Assayer as a group issues them (R482 to R495), and what the two engines share:
status words, reads and writes of memory. -/

namespace Sys2Proof.Machine

/-! ## Issue -/

/-- Is an access-order entry a command of the two engines? -/
def Acc.xcmd? (a : Acc) : Option XCmd := match a.kind with | .cmd (.x x) => some x | _ => none

/-- The commands of a core that are outstanding (R484). -/
def State.xOut (s : State) (core : Nat) : Nat :=
  (s.groups.flatMap fun (_, G) => if G.core = core then G.acc.filterMap Acc.xcmd? else []).length +
  (s.dies.flatMap fun (_, D) => D.xcmds.filter fun x => x.core == core).length +
  (s.colls.flatMap fun (_, c) => c.corrs.filter fun x => x.core == core).length

/-- The launch of a group's team. -/
def State.launchOf (s : State) (G : Group) : Nat := match s.team? G.team with | some T => T.launch | none => 0

/-- A command as its descriptor gives it; `brec` is the record that it names, `pend` its pending result (R483). -/
def xCmdOf (s : State) (c : Ctx) (func : Nat) (d : List Word) (brec : QWord) (pend : Option Nat) : XCmd :=
  { id := s.uid, func := func, guid := c.g, mask := c.mask, tuid := c.G.team, launch := s.launchOf c.G, vf := c.G.vf,
    core := c.G.core, desc := d, brec := brec, seg := c.G.segment 0, pend := pend, pos := 0, out := 0, code := 0, oob := false,
    tick := s.now, txn := none, fid := none }

/-- Has the core of the issuing path 64 commands of the two engines outstanding (R484)? -/
def State.xHeld (s : State) : Bool :=
  match s.context? with
  | some c => Nat.ble 64 (s.xOut c.G.core)
  | none => false

/-- The issue of a command (R483, R484): with 64 outstanding it does not issue, and nothing of it is checked, its registers included (R314);
its checks give class and detail of the first that fails; `rcd` is the record field of its first descriptor word, and `dst` the result. -/
def xForm (func : Nat) (i : Info) (sa n : Nat) (check : State → Ctx → List Word → Option (Nat × Nat)) (rcd : List Word → Nat)
    (dst : List Word → Option Dst) (s0 : State) : Result :=
  issue (if s0.xHeld then { i with regs := [] } else i)
    (fun c s =>
      if Nat.ble 64 (s.xOut c.G.core) then s
      else
        let d := c.rsn sa n
        match check s c d with
        | some (cls, detail) => s.trapAt c cls detail
        | none =>
          let pid := s.uid
          let s := match dst d with
            | some x => (s.updGroup c.g fun G => G.start pid c.mask c.first x none).bump
            | none => s
          let s := if func = 15 then s.tagTake c.G.core ((d.getD 0 0).toNat / 256 % 64) else s
          let x := xCmdOf s c func d (c.G.bufRec (rcd d)) ((dst d).map fun _ => pid)
          ((s.addAcc c.g (fenceAcc s.uid c (.cmd (.x x)))).bump).retire c) s0

/-- What a command without a result asks of its issue. -/
def infoX (w : BitVec 1) (a : BitVec 10) (n align : Nat) : Info := { w := flag1 w, noHint := true, regs := [.s a.toNat n align] }
/-- The same with a result. -/
def infoXd (w : BitVec 1) (a : BitVec 10) (n align : Nat) (d : BitVec 10) (m malign : Nat) : Info :=
  { w := flag1 w, var := true, noHint := true, regs := [.s a.toNat n align, .s d.toNat m malign] }

/-- A descriptor word as a number. -/
def dw (d : List Word) (i : Nat) : Nat := (d.getD i 0).toNat
/-- Bits of a descriptor word. -/
def db (d : List Word) (i lo n : Nat) : Nat := dw d i / 2 ^ lo % 2 ^ n

/-- Turning a test into a check's answer. -/
def failsIf (b : Bool) (cls detail : Nat) : Option (Nat × Nat) := if b then some (cls, detail) else none

/-- The descriptor of `dro.open` (R486, R488). -/
def droOpenCheck (_ : State) (_ : Ctx) (d : List Word) : Option (Nat × Nat) :=
  failsIf
    (if db d 0 30 2 = 1 then db d 0 8 22 != 0
     else db d 0 30 2 > 1 || db d 0 27 2 != 0 || db d 0 24 3 > 2 || db d 0 22 2 > 1 || db d 0 8 8 != 0 ||
       db d 1 26 6 != 0 || db d 1 10 6 != 0 || db d 3 0 3 != 0 || db d 4 0 3 != 0) 1 6

/-- A source record: global, TYPE 6 or 7 (R489, R494). -/
def srcOk (r : QWord) : Bool := recSpace r == 0 && (recType r == 6 || recType r == 7)

/-- The descriptor of `dro.send` (R489). -/
def droSendCheck (s : State) (c : Ctx) (d : List Word) : Option (Nat × Nat) :=
  let r := c.G.bufRec (db d 0 8 4)
  if db d 0 12 20 ≠ 0 ∨ db d 2 17 15 ≠ 0 ∨ !(srcOk r) then some (1, 6)
  else failsIf (recOob r == 1 && !(s.rangeOk c.G r (d.getD 3 0).toInt (8192 * db d 2 0 17) (elemSize (recType r)))) 4 0

/-- OBJ alone (R490, R491). -/
def droObjCheck (_ : State) (_ : Ctx) (d : List Word) : Option (Nat × Nat) := failsIf (db d 0 8 24 != 0) 1 6

/-- The descriptor of `dro.corr` (R492). -/
def droCorrCheck (s : State) (c : Ctx) (d : List Word) : Option (Nat × Nat) :=
  if db d 0 14 18 ≠ 0 then some (1, 6) else failsIf (!(s.tagsOk c.G ((1 : DWord) <<< db d 0 8 6))) 1 7

/-- The descriptor of `asy.open` (R493). -/
def asyOpenCheck (_ : State) (_ : Ctx) (d : List Word) : Option (Nat × Nat) :=
  failsIf
    (db d 0 30 2 > 2 || db d 0 6 14 != 0 ||
     (db d 0 30 2 != 2 && (db d 1 24 8 != 0 || db d 6 20 12 != 0 || db d 7 0 5 != 0 || db d 8 16 16 != 0))) 1 6

/-- What `asy.put` and `asy.seal` check of their descriptor alike (R494). -/
def asyPktBad (d : List Word) : Bool :=
  db d 0 30 1 != 0 || db d 0 6 2 != 0 || db d 2 16 16 != 0 || dw d 5 > 2 ^ 24

/-- The descriptor of `asy.put` (R494). -/
def asyPutCheck (s : State) (c : Ctx) (d : List Word) : Option (Nat × Nat) :=
  let r := c.G.bufRec (db d 0 20 4)
  if asyPktBad d ∨ db d 3 24 8 ≠ 0 ∨ dw d 4 > 2 ^ 24 ∨ (db d 0 31 1 = 0 ∧ dw d 5 ≠ 0) ∨ !(srcOk r) then some (1, 6)
  else failsIf (recOob r == 1 && !(s.rangeOk c.G r (d.getD 6 0).toInt (dw d 4) (elemSize (recType r)))) 4 0

/-- The descriptor of `asy.seal` (R494). -/
def asySealCheck (_ : State) (_ : Ctx) (d : List Word) : Option (Nat × Nat) :=
  failsIf (asyPktBad d || db d 0 31 1 != 0 || db d 0 20 4 != 0) 1 6

/-- The number of result registers of `asy.stat` (R495). -/
def asyStatLen (d : List Word) : Nat := if db d 0 30 2 = 1 then 4 else if db d 0 30 2 = 2 then 2 else 1

/-- The descriptor of `asy.stat` (R495): the result's alignment first, then its bits (R483). -/
def asyStatCheck (sd : Nat) (_ : State) (_ : Ctx) (d : List Word) : Option (Nat × Nat) :=
  if sd % asyStatLen d ≠ 0 ∨ sd + asyStatLen d > 1024 then some (3, 0)
  else failsIf (db d 0 30 2 == 3 || db d 0 6 18 != 0) 1 6

/-- No record. -/
def noRec (_ : List Word) : Nat := 0

/-- `dro.open` (R482, R486). -/
def execDroOpen (w : BitVec 1) (a : BitVec 10) (s0 : State) : Result :=
  xForm 11 (infoX w a 9 4) a.toNat 9 droOpenCheck (fun d => db d 0 16 4) (fun _ => none) s0
/-- `dro.open` with its status (R482, R485). -/
def execDroOpenStatus (w : BitVec 1) (a : BitVec 10) (d : BitVec 10) (s0 : State) : Result :=
  xForm 11 (infoXd w a 9 4 d 1 1) a.toNat 9 droOpenCheck (fun d => db d 0 16 4) (fun _ => some (.s d.toNat 1)) s0
/-- `dro.send` (R482, R489). -/
def execDroSend (w : BitVec 1) (a : BitVec 10) (s0 : State) : Result :=
  xForm 12 (infoX w a 4 4) a.toNat 4 droSendCheck (fun d => db d 0 8 4) (fun _ => none) s0
/-- `dro.send` with its status. -/
def execDroSendStatus (w : BitVec 1) (a : BitVec 10) (d : BitVec 10) (s0 : State) : Result :=
  xForm 12 (infoXd w a 4 4 d 1 1) a.toNat 4 droSendCheck (fun d => db d 0 8 4) (fun _ => some (.s d.toNat 1)) s0
/-- `dro.close` (R482, R490). -/
def execDroClose (w : BitVec 1) (a : BitVec 10) (s0 : State) : Result :=
  xForm 13 (infoX w a 1 1) a.toNat 1 droObjCheck noRec (fun _ => none) s0
/-- `dro.close` with its status. -/
def execDroCloseStatus (w : BitVec 1) (a : BitVec 10) (d : BitVec 10) (s0 : State) : Result :=
  xForm 13 (infoXd w a 1 1 d 1 1) a.toNat 1 droObjCheck noRec (fun _ => some (.s d.toNat 1)) s0
/-- `dro.mfst` (R482, R491). -/
def execDroMfst (w : BitVec 1) (a : BitVec 10) (d : BitVec 10) (s0 : State) : Result :=
  xForm 14 (infoXd w a 1 1 d 32 32) a.toNat 1 droObjCheck noRec (fun _ => some (.s d.toNat 32)) s0
/-- `dro.corr` (R482, R492): accepted on its tag as a copy command is (R319). -/
def execDroCorr (w : BitVec 1) (a : BitVec 10) (s0 : State) : Result :=
  xForm 15 (infoX w a 2 2) a.toNat 2 droCorrCheck noRec (fun _ => none) s0
/-- `asy.open` (R482, R493). -/
def execAsyOpen (w : BitVec 1) (a : BitVec 10) (s0 : State) : Result :=
  xForm 16 (infoX w a 10 4) a.toNat 10 asyOpenCheck (fun d => db d 0 20 4) (fun _ => none) s0
/-- `asy.open` with its status. -/
def execAsyOpenStatus (w : BitVec 1) (a : BitVec 10) (d : BitVec 10) (s0 : State) : Result :=
  xForm 16 (infoXd w a 10 4 d 1 1) a.toNat 10 asyOpenCheck (fun d => db d 0 20 4) (fun _ => some (.s d.toNat 1)) s0
/-- `asy.put` (R482, R494). -/
def execAsyPut (w : BitVec 1) (a : BitVec 10) (s0 : State) : Result :=
  xForm 17 (infoX w a 7 8) a.toNat 7 asyPutCheck (fun d => db d 0 20 4) (fun _ => none) s0
/-- `asy.put` with its status. -/
def execAsyPutStatus (w : BitVec 1) (a : BitVec 10) (d : BitVec 10) (s0 : State) : Result :=
  xForm 17 (infoXd w a 7 8 d 1 1) a.toNat 7 asyPutCheck (fun d => db d 0 20 4) (fun _ => some (.s d.toNat 1)) s0
/-- `asy.seal` (R482, R494). -/
def execAsySeal (w : BitVec 1) (a : BitVec 10) (s0 : State) : Result :=
  xForm 18 (infoX w a 6 8) a.toNat 6 asySealCheck noRec (fun _ => none) s0
/-- `asy.seal` with its status. -/
def execAsySealStatus (w : BitVec 1) (a : BitVec 10) (d : BitVec 10) (s0 : State) : Result :=
  xForm 18 (infoXd w a 6 8 d 1 1) a.toNat 6 asySealCheck noRec (fun _ => some (.s d.toNat 1)) s0
/-- `asy.stat` (R482, R495). -/
def execAsyStat (w : BitVec 1) (a : BitVec 10) (d : BitVec 10) (s0 : State) : Result :=
  xForm 19 (infoXd w a 1 1 d 1 1) a.toNat 1 (asyStatCheck d.toNat) noRec (fun x => some (.s d.toNat (asyStatLen x))) s0

/-! ## Carrying out a command -/

/-- The status word (R485). -/
def statusWord (code : Nat) : Word := if code = 0 then 0 else BitVec.ofNat 32 (0x80000000 + code)
/-- The lower of two status codes that apply, 0 standing for none (R485). -/
def lowCode (a b : Nat) : Nat := if a = 0 then b else if b = 0 then a else min a b

/-- A command of a die. -/
def State.xcmd? (s : State) (d id : Nat) : Option XCmd := (s.die d).xcmds.find? (·.id == id)
/-- Changing a command. -/
def State.updXCmd (s : State) (d id : Nat) (f : XCmd → XCmd) : State :=
  s.updDie d fun D => { D with xcmds := D.xcmds.map fun x => if x.id = id then f x else x }

/-- A result of several words comes back. -/
def State.answers (s : State) (g : Nat) (pend : Option Nat) (xs : List Word) : State :=
  match pend with
  | none => s
  | some p => s.updGroup g fun G =>
      { G with pend := G.pend.map fun y => if y.id = p then { y with vals := some [⟨0, xs, 0, false⟩] } else y }

/-- An engine's transactions are forgotten; what has left goes on. -/
def State.dropTxns (s : State) (e : Eng) : State := { s with txns := s.txns.filter fun x => x.2.who != e }

/-- A command is over: its result is back, and OOB reaches the threads that were active at its issue (R313). -/
def State.xEnd (s : State) (d : Nat) (x : XCmd) (xs : List Word) : State :=
  let s := (s.updDie d fun D => { D with xcmds := D.xcmds.filter (·.id != x.id) }).dropTxns (.cmd d x.id)
  let s := s.answers x.guid x.pend xs
  if x.oob then s.updGroup x.guid fun G =>
      G.updLanes (lanesOf x.mask) fun _ t => if t.st = .exited then t else t.flag flagOOB
  else s

/-- A command is over with a status code. -/
def State.xStatus (s : State) (d : Nat) (x : XCmd) (code : Nat) : State := s.xEnd d x [statusWord code]

/-- The object that a command is for: the engine, the device, the object with its die. -/
def XCmd.object (x : XCmd) (dev : Nat) : Nat × Nat × Nat :=
  if x.func < 16 then (0, dev, db x.desc 0 0 8)
  else if x.func = 17 ∨ x.func = 18 then (1, db x.desc 0 8 12, db x.desc 0 0 6)
  else (1, dev, db x.desc 0 0 6)

/-- May a command act: commands of one group to one object act in issue order (R484), and a seal waits for the earlier puts of its
group (R494)? -/
def State.xTurn (s : State) (d : Nat) (x : XCmd) : Bool :=
  let before := (s.die d).xcmds.takeWhile fun y => y.id != x.id
  x.fid.isNone && before.all (fun y => !(y.guid == x.guid && y.object s.devId == x.object s.devId)) &&
  (x.func != 18 ||
    (s.dies.all (fun (_, D) => D.xcmds.all fun y => !(y.guid == x.guid && y.func == 17 && y.id < x.id)) &&
     (match s.group? x.guid with
      | some G => (G.acc.filterMap Acc.xcmd?).all fun y => !(y.func == 17 && y.id < x.id)
      | none => true)))

/-! ## Memory -/

/-- The group as which an engine addresses memory for a function, with the segment of global space of the command's issue. -/
def engGroup (vf : Nat) (seg : QWord) : Group := { Group.blank with vf := vf, seg := [(0, seg)] }

/-- The plan of an engine's access on a die (R411, R483). -/
def State.planDie (s : State) (d vf : Nat) (seg r : QWord) (width : Nat) (w : Want) (idx : List (Nat × Int)) : Plan :=
  s.planBy (s.die d).tlb (fun s t => s.learnDie d t) (engGroup vf seg) r width w idx

/-- A record that reaches global bytes one by one, from a virtual address (R456, R462). -/
def byteRec (va n : Nat) : QWord := BitVec.ofNat 128 (va + 2 ^ 64 + n * 2 ^ 96)
/-- The segment that reaches the whole of global space (R233). -/
def wholeSeg : QWord := segMake 0 (2 ^ 48 - 1) true

/-- A page fault of an engine (R411, R412): its party is parked. -/
def State.engFault (s : State) (d src launch vf : Nat) (f : Nat × Nat × Nat × List Nat) (acc : Nat) (p : Parked) : State × Nat :=
  let lid := match s.launch? launch with | some L => L.r.lid | none => 0
  s.fault ⟨vf, f.1, lid, 0, 0, 0, d, 0, 0, src, 0, acc, f.2.1, f.2.2.1, false⟩ p

/-- A command is parked on the page faults of its read, each page with its record. -/
def State.xPark (s : State) (d : Nat) (x : XCmd) (fs : List (Nat × Nat × Nat × List Nat)) : State :=
  fs.foldl (fun s f =>
    let r := s.engFault d (if x.func < 16 then 3 else 4) x.launch x.vf f 0 (.cmd d x.id)
    r.1.updXCmd d x.id fun y => { y with fid := some r.2 }) s

/-- The reads of a command leave (R484). -/
def Plan.xRead (p : Plan) (d : Nat) (x : XCmd) (cls budget : Nat) : State :=
  match p.faults with
  | [] =>
    let b := p.st.beginTxn (.cmd d x.id) x.vf cls budget p.good []
    b.1.updXCmd d x.id fun y => { y with txn := some b.2 }
  | fs => p.st.xPark d x fs

/-- The reads of a command that have come, and the command free to go on. -/
def State.xGot (s : State) (d : Nat) (x : XCmd) (t : Nat) : State := (s.endTxn t).updXCmd d x.id fun y => { y with txn := none }

/-- The bytes that a transaction has read for an element: none for an element that it did not read, and none of its bytes where its sector
failed its check. -/
def State.txnElem (s : State) (x : Txn) (i : Nat) : Option (Option (List Byte)) :=
  (x.rd.find? (·.1 == i)).map fun (_, ls) => s.txnBytes x ls

/-- The transactions of an engine. -/
def State.txnsOf (s : State) (e : Eng) : List (Nat × Txn) := List.filter (fun (x : Nat × Txn) => x.2.who == e) s.txns
/-- The write that an object has to make: the plan of the elements, and that of the log entry. -/
def State.jobPlans (s : State) (d vf : Nat) (seg r : QWord) (j : Job) : Plan × Plan :=
  let w := elemSize (recType r)
  let p := s.planDie d vf seg r w .write ((j.elems.zipIdx).map fun ((e, _), i) => (i, (e : Int)))
  match j.log with
  | none => (p, ⟨p.st, [], [], []⟩)
  | some (va, bs) =>
    (p, p.st.planDie d vf wholeSeg (byteRec va bs.length) 1 .write ((List.range bs.length).map fun i => (i, (i : Int))))

/-- The bytes that a job writes through the result record. -/
def jobElems (r : QWord) (j : Job) (p : Plan) : List (Loc × Byte) :=
  let w := elemSize (recType r)
  p.good.flatMap fun (i, ls) => ls.zip (leBytes w ((j.elems[i]?).map (fun x => x.2.toNat) |>.getD 0))
/-- The bytes that a job writes to the log. -/
def jobLog (j : Job) (q : Plan) : List (Loc × Byte) :=
  match j.log with
  | none => []
  | some (_, bs) => q.good.flatMap fun (i, ls) => ls.zip ((bs[i]?).toList)

/-- Some bytes leave as a transaction of an engine, if there are any. -/
def State.engStore (s : State) (e : Eng) (vf cls budget : Nat) (ws : List (Loc × Byte)) : State :=
  if ws.isEmpty then s
  else
    let b := s.beginTxn e vf cls budget [] [(0, ws.map (·.1))]
    b.1.writeTxn b.2 ws

/-- The writes of a job leave (R256): those through the result record with its class and budget, those to the log with class 1 and no
deadline. -/
def State.jobSend (s : State) (e : Eng) (vf : Nat) (r : QWord) (j : Job) (p q : Plan) : State :=
  (s.engStore e vf (recClass r) (recBudget r) (jobElems r j p)).engStore e vf 1 0 (jobLog j q)

/-- Have all writes of an engine's transactions completed? -/
def State.stored (s : State) (e : Eng) : Bool := (s.txnsOf e).all fun x => x.2.complete

/-- The largest completion time of an engine's writes, at least a tick given, and whether one failed. -/
def State.storedAt (s : State) (e : Eng) (c : Nat) : Nat × Bool :=
  ((s.txnsOf e).foldl (fun m x => max m x.2.comp) c, (s.txnsOf e).any fun x => x.2.werr)

end Sys2Proof.Machine
end

