-- ==== Sys2Proof/Machine/Drover.lean ====
section
/-! DEFINITION. The Drover: collective objects, rounds, corrections (R450 to R466, R513), and the carrying out of its commands
(R486 to R492). -/

namespace Sys2Proof.Machine

/-! ## The status word (R464) -/

/-- DST bit OPEN. -/
def dstOPEN : Word := 0x001
/-- DST bit SENT. -/
def dstSENT : Word := 0x002
/-- DST bit DONE. -/
def dstDONE : Word := 0x004
/-- DST bit PART. -/
def dstPART : Word := 0x008
/-- DST bit CORR. -/
def dstCORR : Word := 0x010
/-- DST bit CFULL. -/
def dstCFULL : Word := 0x020
/-- DST bit CTMO. -/
def dstCTMO : Word := 0x040
/-- DST bit MIX. -/
def dstMIX : Word := 0x080
/-- DST bit ERR. -/
def dstERR : Word := 0x100
/-- DST bit DROP. -/
def dstDROP : Word := 0x200

/-- Is an object open? -/
def Coll.isOpen (c : Coll) : Bool := c.dst &&& dstOPEN != 0
/-- Is it open, and owned by a function (R488, R489)? -/
def Coll.ownedBy (c : Coll) (vf : Nat) : Bool := c.isOpen && c.owner == vf

/-! ## Paths and the split (R456 to R458) -/

/-- Is a rank the root of a path (R456)? -/
def PathEnt.root (e : PathEnt) : Bool := e.parent == 0x3FF
/-- The manifest of all ranks. -/
def Coll.full (c : Coll) : BitVec 1024 := BitVec.ofNat 1024 (2 ^ c.n - 1)
/-- The number of slices of the message (R457, R459). -/
def Coll.slices (c : Coll) : Nat := c.nch * 128 * (if c.op = 2 then c.n else 1)
/-- The progress of a path. -/
def Coll.path (c : Coll) (p : Nat) : PathSt := c.paths.get p PathSt.init
/-- Changing it. -/
def Coll.updPath (c : Coll) (p : Nat) (f : PathSt → PathSt) : Coll := { c with paths := c.paths.put p (f (c.path p)) }
/-- The deadline of this node in a path (R460). -/
def Coll.deadline (c : Coll) (p : Nat) : Int := c.dl - (c.slk * ((c.plan[p]?).map (·.depth) |>.getD 0) : Nat)
/-- The last tick at which the root accepts a correction (R463). -/
def Coll.window (c : Coll) : Nat := c.dl + c.cto
/-- The round manifest (R461): the AND of the manifests of the paths. -/
def Coll.manifest (c : Coll) : BitVec 1024 :=
  (List.range c.plan.length).foldl (fun m p => m &&& (if (c.path p).have_ then (c.path p).man else 0)) c.full

/-- The split of S slices by weights (R457). -/
def splitBy (n : Nat) (ws : List Nat) : List Nat :=
  let front := (ws.dropLast).map fun w => n * w / ws.sum
  front ++ [n - front.sum]

/-- A weight that this device does not know: 1 to 255 (R457, log 27). -/
def anyWeight (n : Nat) : Nat := 1 + Config.pickNat n % 255

/-- The weights that rank 0 holds for the paths of a collective (R457): the rate of each path's slowest link, of those rates that its Drover has
measured or been sent. -/
def State.droWeights (s : State) (o k : Nat) : List Nat :=
  (List.range k).map fun j =>
    match (Config.pathLinks o j).map fun l => (s.die (o / 64)).rates.get l (anyWeight (s.fresh + j)) with
    | [] => anyWeight (s.fresh + j)
    | r :: rs => rs.foldl min r

/-- The split by which a node goes on (R457, R460): the one that has come to it; with one path the whole message; where a deadline comes before
the split, a free one (log 27). -/
def Coll.parts (c : Coll) : List Nat :=
  if c.split ≠ [] then c.split
  else if c.plan.length ≤ 1 then [c.slices]
  else splitBy c.slices ((List.range c.plan.length).map fun j => anyWeight (c.guess + j))
/-- Does a node know which slices its paths have? -/
def Coll.knows (c : Coll) : Bool := c.split != [] || Nat.ble c.plan.length 1
/-- The first element of a path and their number. -/
def Coll.range (c : Coll) (p : Nat) : Nat × Nat := (64 * (c.parts.take p).sum, 64 * c.parts.getD p 0)

/-! ## Values (R459, R461) -/

/-- The elements of a map within a range. -/
def elemsIn (m : SMap Word) (r : Nat × Nat) : SMap Word := m.filter fun x => r.1 ≤ x.1 && x.1 < r.1 + r.2

/-- Adding one partial to a sum, element by element, or, for OP 2, placing its elements (R459, R462). -/
def mergeVals (op : Nat) (a b : SMap Word) : SMap Word :=
  b.foldl (fun m (k, v) =>
    match op, SMap.find? m k with
    | 2, _ => m.put k v
    | _, some y => m.put k (BitVec.ofNat 32 (fAdd fp32 .rn y.toNat v.toNat).1)
    | _, none => m.put k v) a

/-- A result element as its root holds it: for TYPE 1 it is rounded to BF16 (R461). -/
def Coll.rounded (c : Coll) (x : Word) : Word :=
  if c.type = 1 then BitVec.ofNat 32 ((fConv fp32 bf16 .rn x.toNat).1 * 65536) else x

/-- An element as it is written through RES (R451). -/
def Coll.stored (c : Coll) (x : Word) : Word := if c.type = 1 then x >>> 16 else x

/-- An element of a contribution as it enters the sum (R459): BF16 as FP32; under OP 2 its bits are kept. -/
def Coll.entered (c : Coll) (x : Word) : Word :=
  if c.type = 0 then x
  else if c.op = 2 then x <<< 16
  else BitVec.ofNat 32 (fConv bf16 fp32 .rn (x.toNat % 65536)).1

/-- The sum that a node holds: its own contribution where it came on time, then its children's partials in ascending CIDX, with
the manifest (R459, R460); none where it holds nothing. -/
def Coll.partialOf (c : Coll) (p : Nat) (own : Bool) : Option (SMap Word × BitVec 1024) :=
  let kids := (c.path p).got.foldl (fun (l : List DroPkt) x =>
    l.takeWhile (fun y => y.cidx ≤ x.cidx) ++ [x] ++ l.dropWhile (fun y => y.cidx ≤ x.cidx)) []
  let parts := (if own then [(elemsIn c.contrib (c.range p), (1 : BitVec 1024) <<< c.rank)] else []) ++
    kids.map fun x => (x.vals, x.man)
  match parts with
  | [] => none
  | x :: xs => some (xs.foldl (fun a b => (mergeVals c.op a.1 b.1, a.2 ||| b.2)) x)

/-- The elements of a path's result, +0 where nothing has come (R461). -/
def Coll.resultOf (c : Coll) (p : Nat) (vals : SMap Word) : SMap Word :=
  let r := c.range p
  (List.range r.2).map fun i => (r.1 + i, c.rounded (vals.get (r.1 + i) 0))

/-! ## `dro.corr` (R492) -/

/-- A `dro.corr` command completes: its tag falls; in a saved team that is entered into the saved context (R421). -/
def State.corrDone (s : State) (o : Nat) (x : Corr) (c : Nat) : State :=
  let s := s.updColl o fun k => { k with corrs := k.corrs.filter fun y => y.id != x.id }
  match s.team? x.tuid with
  | none => s.tagDone x.core x.tag c false
  | some T =>
    if T.pre = .saved then
      let more := (s.colls.any fun (_, k) => k.corrs.any fun y => y.tuid == x.tuid && y.tag == x.tag) ||
        s.dies.any fun (_, D) => D.xcmds.any fun y => y.func == 15 && y.tuid == x.tuid && db y.desc 0 8 6 == x.tag
      s.updTeam x.tuid fun T =>
        { T with svTags := if more then T.svTags else T.svTags ||| ((1 : DWord) <<< x.tag)
                 svTime := T.svTime.put x.tag (max (T.svTime.get x.tag 0) c) }
    else s.tagDone x.core x.tag c false

/-- The `dro.corr` commands of an object that a change of DST ends (R492). -/
def State.corrCheck (s : State) (o : Nat) : State :=
  let c := s.coll o
  let ends (t : Nat) : State := c.corrs.foldl (fun s x => s.corrDone o x t) s
  if c.dst &&& dstDONE ≠ 0 ∧ c.dst &&& dstPART = 0 then ends s.now
  else if c.dst &&& dstCFULL ≠ 0 then ends c.comp
  else if c.dst &&& dstCTMO ≠ 0 then ends s.now
  else s

/-- DST bits are set together, at an evaluation instant (R465). -/
def State.droBits (s : State) (o : Nat) (b : Word) : State :=
  if b = 0 then s else ((s.updColl o fun c => { c with dst := c.dst ||| b }).corrCheck o).wake

/-- The bits whose writes have completed are set (R465). -/
def State.droDue (s : State) (o : Nat) : State :=
  let c := s.coll o
  let now := c.due.filter fun x => x.1 ≤ s.now
  (s.updColl o fun c => { c with due := c.due.filter fun x => s.now < x.1 }).droBits o (now.foldl (fun b x => b ||| x.2) 0)

/-! ## Packets -/

/-- A packet leaves for a rank of the round (R459 to R463). -/
def State.droEmit (s : State) (o p kind to_ : Nat) (man : BitVec 1024) (full : Bool) (split : List Nat) (vals : SMap Word) : State :=
  let c := s.coll o
  { s with droOut := s.droOut ++
      [(⟨o, c.rnd, p, kind, to_, (c.plan[p]?).map (·.cidx) |>.getD 0, man, full, s.now, split, vals⟩ : DroPkt)] }

/-- A packet from the root goes on to the children of this node. -/
def State.droRelay (s : State) (o : Nat) (x : DroPkt) : State :=
  let c := s.coll o
  match c.plan[x.path]? with
  | some e => if e.nchd = 0 then s else s.droEmit o x.path x.kind 1024 x.man x.full [] x.vals
  | none => s

/-- The correction counter of an object's die goes up (R466). -/
def State.droMiss (s : State) (o : Nat) : State := s.updDie (o / 64) fun D => { D with missD := satInc D.missD }

/-- SENT is set once every path has the contribution (R464). -/
def State.droSent (s : State) (o : Nat) : State :=
  let c := s.coll o
  if c.dst &&& dstSENT = 0 ∧ (List.range c.plan.length).all (fun p => (c.path p).own) then s.droBits o dstSENT else s

/-! ## Results at a rank (R461, R465) -/

/-- MIX, where the manifests of the paths differ once the results of all are known (R461): as they are now, or as they came with the results. -/
def Coll.mixed (c : Coll) : Word :=
  let ps := (List.range c.plan.length).map c.path
  let differ (f : PathSt → BitVec 1024) : Bool := ps.any fun x => ps.any fun y => f x != f y
  if ps.all (·.have_) && (differ PathSt.man || differ PathSt.man0) then dstMIX else 0

/-- The bits that a rank sets when the first results of all paths have been written. -/
def Coll.doneBits (c : Coll) : Word :=
  let ps := (List.range c.plan.length).map c.path
  if ps.all (·.have_) then
    let part := ps.any fun x => x.man0 != c.full
    dstDONE ||| (if part then dstPART else 0) ||| (if part && c.manifest == c.full then dstCFULL else 0) ||| c.mixed
  else 0

/-- A path's result is known at this rank: its write is due, unless another rank writes (OP 1). `send` leaves when the write is
complete. -/
def State.droResult (s : State) (o p : Nat) (elems : SMap Word) (man : BitVec 1024) (write : Bool) (send : List DroPkt) : State :=
  s.updColl o fun c =>
    let c := c.updPath p fun x => { x with have_ := true, man0 := man, man := man }
    let j : Job := ⟨p, false, if write then elems.map fun (k, v) => (k, c.stored v) else [], none, c.doneBits, send⟩
    { c with result := elems.foldl (fun m (k, v) => SMap.put m k v) c.result, jobs := c.jobs ++ [j] }

/-- A correction of a path reaches this rank's result (R462). -/
def State.droCorrected (s : State) (o p : Nat) (elems : SMap Word) (man : BitVec 1024) (write : Bool) (log : Option (Nat × List Byte))
    (send : List DroPkt) : State :=
  s.updColl o fun c =>
    let c := c.updPath p fun x => { x with man := man }
    let bits := dstCORR ||| (if c.manifest = c.full then dstCFULL else 0) ||| c.mixed
    let j : Job := ⟨p, true, if write then elems.map fun (k, v) => (k, c.stored v) else [], log, bits, send⟩
    { c with result := elems.foldl (fun m (k, v) => SMap.put m k v) c.result, jobs := c.jobs ++ [j] }

/-- The bytes of a log entry (R462). -/
def droLogBytes (tick p rnd : Nat) (man : BitVec 1024) : List Byte :=
  leBytes 8 tick ++ leBytes 4 p ++ leBytes 4 (rnd % 65536) ++ leBytes 128 man.toNat

/-- A notice to the children of the root. -/
def Coll.notice (c : Coll) (o p kind : Nat) (man : BitVec 1024) : List DroPkt := [⟨o, c.rnd, p, kind, 1024, 0, man, false, 0, [], []⟩]

/-- The root applies a correction, or discards it (R462, R463). One that comes before the root's own result waits for it. -/
def State.droApply (s : State) (o : Nat) (x : DroPkt) : State :=
  let c := s.coll o
  if c.cto = 0 ∨ c.window < x.tick then s.droBits o dstDROP
  else if !(c.path x.path).have_ then s.updColl o fun c => c.updPath x.path fun y => { y with cq := y.cq ++ [x] }
  else
    let old : SMap Word := x.vals.map fun (k, _) => (k, c.result.get k 0)
    let new : SMap Word := (mergeVals c.op old x.vals).map fun (k, v) => (k, c.rounded v)
    let man := (c.path x.path).man ||| x.man
    let log := if c.log = 0 then none else some (c.log + 144 * c.logk, droLogBytes s.now x.path c.rnd x.man)
    let s := (s.droMiss o).updColl o fun c => { c with logk := if c.log = 0 then c.logk else c.logk + 1 }
    let s := s.droCorrected o x.path new man true log (if c.op = 1 then c.notice o x.path 5 man else [])
    if c.op = 1 then s else s.droEmit o x.path 4 1024 man false [] new

/-- A correction travels up the path, or is applied at the root (R462). -/
def State.droUp (s : State) (o : Nat) (x : DroPkt) : State :=
  match (s.coll o).plan[x.path]? with
  | none => s.droBits o dstDROP
  | some e => if e.root then s.droApply o x else (s.droMiss o).droEmit o x.path 3 e.parent x.man false [] x.vals

/-! ## A node's round (R460) -/

/-- Has a node's own contribution come on time in a path? -/
def Coll.ownOnTime (c : Coll) (p : Nat) : Bool :=
  match c.ctick with | some t => decide ((t : Int) < c.deadline p) | none => false

/-- A node forwards what it holds (R460, R461): to its parent, or, at the root, as the path's result. -/
def State.droForward (s : State) (o p : Nat) : State :=
  let c := s.coll o
  match c.plan[p]? with
  | none => s
  | some e =>
    let own := c.ownOnTime p
    let s := s.updColl o fun c => c.updPath p fun x => { x with fwd := true, own := x.own || own }
    let s :=
      if e.root then
        let v := (c.partialOf p own).getD ([], 0)
        let r := c.resultOf p v.1
        let s := s.droResult o p r v.2 true (if c.op = 1 then c.notice o p 2 v.2 else [])
        let s := if c.op = 1 then s else s.droEmit o p 1 1024 v.2 false [] r
        (c.path p).cq.foldl (fun s x => s.droApply o x) (s.updColl o fun c => c.updPath p fun x => { x with cq := [] })
      else
        match c.partialOf p own with
        | none => s
        | some v => s.droEmit o p 0 e.parent v.2 false [] v.1
    s.droSent o

/-- A node forwards as soon as it holds its own contribution and all its children's partials (R460). -/
def State.droTry (s : State) (o p : Nat) : State :=
  let c := s.coll o
  match c.plan[p]? with
  | none => s
  | some e =>
    if !(c.path p).fwd ∧ c.knows ∧ c.ownOnTime p ∧ e.nchd ≤ (c.path p).got.length then s.droForward o p else s

/-- A node's own contribution is complete: it goes into the sum, or, late, travels as a correction, behind the packets that have come before it
(R460, R462). -/
def State.droOwn (s : State) (o p : Nat) : State :=
  let c := s.coll o
  if !c.knows ∨ (c.path p).own ∨ c.ctick = none then s
  else if c.ownOnTime p then s.droTry o p
  else
    let s := s.updColl o fun c => c.updPath p fun x => { x with own := true }
    let x : DroPkt := ⟨o, c.rnd, p, 3, 0, 0, (1 : BitVec 1024) <<< c.rank, false, c.ctick.getD 0, [], elemsIn c.contrib (c.range p)⟩
    { s with droIn := s.droIn ++ [x] }.droSent o

/-- The split has come (R457): what waited for it goes on. -/
def State.droSplit (s : State) (o : Nat) (sp : List Nat) : State :=
  let c := s.coll o
  if c.split ≠ [] ∨ sp = [] then s
  else
    let s := s.updColl o fun c => { c with split := sp }
    (List.range c.plan.length).foldl (fun s p => s.droOwn o p) s

/-- A packet of the object's own round is taken in (R513). -/
def State.droTake (s : State) (x : DroPkt) : State :=
  if x.kind = 8 then s.droBits x.obj dstERR
  else
    let s := s.droSplit x.obj x.split
    if x.kind = 7 then s else { s with droIn := s.droIn ++ [x] }

/-- A packet reaches this device (R513): it enters its round, is held for the next, or is discarded. -/
def State.droReceive (s : State) (x : DroPkt) : State :=
  let x := { x with tick := s.now }
  let c := s.coll x.obj
  if x.obj ≥ 256 then s
  else if c.isOpen ∧ x.rnd = c.rnd then s.droTake x
  else if (c.isOpen ∧ x.rnd = c.rnd + 1) ∨ (!c.isOpen ∧ x.rnd = 0) then
    s.updColl x.obj fun c => { c with held := c.held ++ [x] }
  else s.droBits x.obj dstDROP

/-- A round begins (R458, R464, R513): its status, its split, and the packets that were held for it. -/
def State.droRound (s : State) (o : Nat) : State :=
  let c := s.coll o
  let fresh := c.rank = 0 ∧ (c.live ∨ c.split = [])
  let sp := if fresh then splitBy c.slices (s.droWeights o c.plan.length) else if c.live then [] else c.split
  let s := (s.updColl o fun c =>
    { c with
      dst := dstOPEN ||| BitVec.ofNat 32 (c.rnd % 65536 * 65536)
      split := sp
      chunks := []
      contrib := []
      ctick := none
      result := []
      paths := []
      logk := 0
      comp := 0
      held := []
      jobs := []
      due := []
      fid := none
      guess := s.fresh + 4 }).dropTxns (.coll o)
  let s := s.draw 8
  let s := if c.rank = 0 then s.droEmit o 0 7 1025 0 false sp [] else s
  (c.held.foldl (fun s x => s.droTake x) s).wake

/-! ## Events -/

/-- Does a packet of a path wait for one that came before it? What goes up the path is taken in order of arrival (R462), corrections that come
down keep theirs, and a verdict comes behind all that its root sent before it (R463). -/
def droBehind (before x : Nat) : Bool :=
  if x = 0 ∨ x = 3 then before == 0 || before == 3
  else if x = 4 ∨ x = 5 then before == 4 || before == 5
  else if x = 6 then before == 1 || before == 2 || before == 4 || before == 5
  else false

/-- The packet at a place of the input, if its kind is one that an event handles and it is its turn. -/
def State.droPkt? (s : State) (n : Nat) (kinds : List Nat) : Option DroPkt :=
  (s.droIn[n]?).bind fun x =>
    let before := (s.droIn.take n).any fun y => y.obj == x.obj && y.path == x.path && y.rnd == x.rnd && droBehind y.kind x.kind
    if kinds.contains x.kind && !before then some x else none

/-- A packet is taken from the input; one whose round is over is discarded (R463, R513). -/
def State.droHandle (s : State) (n : Nat) (x : DroPkt) (f : State → State) : State :=
  let s := { s with droIn := s.droIn.eraseIdx n }
  let c := s.coll x.obj
  if c.isOpen ∧ x.rnd = c.rnd ∧ x.path < c.plan.length then f s else s.droBits x.obj dstDROP

/-- DRO_PARTIAL_ARRIVAL: the partial at place `n` of the input reaches its node (R460): on time it is kept, and may complete the
node's forward; late it goes on as a correction (R462). -/
def execDroPartialArrival (n : Nat) (s : State) : Result :=
  eventOf "DRO_PARTIAL_ARRIVAL"
    ((s.droPkt? n [0]).map fun x =>
      s.droHandle n x fun s =>
        let c := s.coll x.obj
        if (x.tick : Int) < c.deadline x.path ∧ !(c.path x.path).fwd then
          (s.updColl x.obj fun c => c.updPath x.path fun y => { y with got := y.got ++ [x] }).droTry x.obj x.path
        else s.droUp x.obj x)

/-- DRO_NODE_DEADLINE: the deadline of object `o`'s node in path `p` passes, and it forwards what has arrived, whether or not the split has come
(R460, log 27). -/
def execDroNodeDeadline (o p : Nat) (s : State) : Result :=
  let c := s.coll o
  let early (x : DroPkt) : Bool := x.kind == 0 && x.obj == o && x.path == p && x.rnd == c.rnd && decide ((x.tick : Int) < c.deadline p)
  eventOf "DRO_NODE_DEADLINE"
    (if c.isOpen ∧ p < c.plan.length ∧ !(c.path p).fwd ∧ c.deadline p ≤ s.now ∧ !(s.droIn.any early) then
      some (s.droForward o p) else none)

/-- DRO_RESULT_ARRIVAL: the result, or the notice of one, at place `n` reaches this rank (R461). -/
def execDroResultArrival (n : Nat) (s : State) : Result :=
  eventOf "DRO_RESULT_ARRIVAL"
    ((s.droPkt? n [1, 2]).map fun x =>
      s.droHandle n x fun s =>
        if ((s.coll x.obj).path x.path).have_ then s
        else (s.droResult x.obj x.path x.vals x.man (x.kind == 1) []).droRelay x.obj x)

/-- DRO_CORRECTION_ARRIVAL: the correction at place `n` goes up its path, is applied and logged at the root or discarded, or, come
down from the root, reaches this rank's result (R462, R463). -/
def execDroCorrectionArrival (n : Nat) (s : State) : Result :=
  eventOf "DRO_CORRECTION_ARRIVAL"
    ((s.droPkt? n [3, 4, 5]).bind fun x =>
      let c := s.coll x.obj
      let waits := x.kind ≠ 3 ∧ c.isOpen ∧ x.rnd = c.rnd ∧ !(c.path x.path).have_ ∧ x.path < c.plan.length
      if waits then none
      else some (s.droHandle n x fun s =>
        if x.kind = 3 then s.droUp x.obj x
        else (s.droCorrected x.obj x.path x.vals x.man (x.kind == 4) none []).droRelay x.obj x))

/-- DRO_CORRECTION_WINDOW_CLOSE: at DL + CTO the root of path `p` judges its manifest and sends its verdict, after every correction
that it applies before that tick, and after the notices of those (R463). -/
def execDroCorrectionWindowClose (o p : Nat) (s : State) : Result :=
  let c := s.coll o
  let waits (x : DroPkt) : Bool :=
    (x.kind == 0 || x.kind == 3) && x.obj == o && x.path == p && x.rnd == c.rnd && x.tick < c.window
  eventOf "DRO_CORRECTION_WINDOW_CLOSE"
    ((c.plan[p]?).bind fun e =>
      if c.isOpen ∧ e.root ∧ c.window ≤ s.now ∧ (c.path p).have_ ∧ !(c.path p).closed ∧ !(s.droIn.any waits) ∧
          !(c.jobs.any fun j => j.path == p) ∧ (c.op ≠ 1 ∨ c.comp ≤ s.now) then
        let full := (c.path p).man == c.full
        let s := s.updColl o fun c => c.updPath p fun x => { x with closed := true }
        let s := s.droEmit o p 6 1024 (c.path p).man full [] []
        some (if full then s else s.droBits o dstCTMO)
      else none)

/-- DRO_VERDICT_ARRIVAL: the root's verdict at place `n` reaches this rank (R463). -/
def execDroVerdictArrival (n : Nat) (s : State) : Result :=
  eventOf "DRO_VERDICT_ARRIVAL"
    ((s.droPkt? n [6]).map fun x =>
      s.droHandle n x fun s =>
        let s := (s.updColl x.obj fun c => c.updPath x.path fun y => { y with closed := true }).droRelay x.obj x
        if x.full then s else s.droBits x.obj dstCTMO)

/-- DRO_CORR_TIMEOUT: the time-out of the `dro.corr` command `n` on object `o` passes (R492). -/
def execDroCorrTimeout (o n : Nat) (s : State) : Result :=
  eventOf "DRO_CORR_TIMEOUT"
    (((s.coll o).corrs.find? fun (x : Corr) => x.id == n).bind fun x =>
      match x.tEnd with
      | some t => if t ≤ s.now then some (s.corrDone o x s.now) else none
      | none => none)

/-- The capacity of a link that die `d` sends on: its five ports, then its three die links (R439, R440, R457). -/
def State.linkRate (s : State) (d k : Nat) : Nat :=
  if k < 5 then (if !(s.port (5 * d + k)).up then 0 else if (s.port (5 * d + k)).lanes < 8 then 105 else 210) else 1600

/-- A rate as it is sent: the capacity less the average of other traffic, quantised (R457). -/
def quantRate (r : Nat) : Nat := min 255 (max 1 (r / 8))

/-- Has a link that die `d` sends on carried nothing yet: no request has been made on the device, or, for a port, nothing has left it? -/
def State.linkIdle (s : State) (k : Nat) : Bool :=
  s.uid == 1 ||
  (Nat.blt k 5 && s.peerOut.isEmpty && s.ansOut.isEmpty && s.droOut.isEmpty && s.chunkOut.isEmpty && s.chunkAnsOut.isEmpty &&
    s.asyOut.isEmpty && s.asyAnsOut.isEmpty && s.rateOut.isEmpty)

/-- The rate of a link (R457): what other traffic it has carried is a free value, and 0 before there was any. -/
def State.rateOf (s : State) (d k : Nat) : Nat :=
  quantRate (s.linkRate d k - (if s.linkIdle k then 0 else Config.pickNat (s.fresh + k) % (s.linkRate d k + 1)))

/-- Rates of the links of a device's die reach every Drover of this device (R457). -/
def State.takeRates (s : State) (dev d : Nat) (rs : List Nat) : State :=
  (List.range 4).foldl (fun s e =>
    s.updDie e fun D => { D with rates := (rs.zipIdx).foldl (fun m (r, k) => SMap.put m (dev * 1024 + 16 * d + k) r) D.rates }) s

/-- LINK_RATE_EXCHANGE: once every 65,536 ticks the Drover of die `d` sends the rates of its links to every Drover of the island
(R457). -/
def execLinkRateExchange (d : Nat) (s : State) : Result :=
  eventOf "LINK_RATE_EXCHANGE"
    (if d < 4 ∧ (s.die d).rateAt + 65536 ≤ s.now then
      let rs := (List.range 8).map (s.rateOf d)
      let s := (s.takeRates s.devId d rs).updDie d fun D => { D with rateAt := s.now }
      some ({ s with rateOut := s.rateOut ++ [(d, rs)] }.draw 8)
    else none)

/-! ## Chunks (R454, R455) -/

/-- The sender of a chunk has its answer: a sequencer, a command of one of this device's Drovers, or another device. -/
def State.chunkReply (s : State) (x : Chunk) (isOpen ok : Bool) : State :=
  if x.src ≠ s.devId then { s with chunkAnsOut := s.chunkAnsOut ++ [(x.src, x.obj, x.idx, isOpen)] }
  else
    match x.seq, x.cmd with
    | some t, _ => s.chunkAnswer t isOpen
    | none, some id =>
      s.updXCmd (x.obj / 64) id fun y => { y with out := y.out - 1, code := if ok then y.code else lowCode y.code 4 }
    | none, none => s

/-- A chunk is accepted: its elements enter the contribution, and with the last the contribution is complete (R454, R455). -/
def State.droAccept (s : State) (x : Chunk) : State :=
  let c := s.coll x.obj
  let base := 8192 * (if c.op = 2 then c.rank * c.nch + x.idx else x.idx)
  let s := s.updColl x.obj fun c =>
    { c with
      chunks := c.chunks ++ [x.idx]
      contrib := (x.vals.zipIdx).foldl (fun m (v, i) => SMap.put m (base + i) (c.entered v)) c.contrib }
  if (s.coll x.obj).chunks.length = c.nch then
    let s := s.updColl x.obj fun c => { c with ctick := some s.now }
    (List.range c.plan.length).foldl (fun s p => s.droOwn x.obj p) s
  else s

/-- May a chunk be the next to arrive? Chunks that go from one die to another keep their order (R439). -/
def State.chunkNext (s : State) (n : Nat) (x : Chunk) : Bool :=
  (s.chunks.take n).all fun y => !(y.src == x.src && y.die == x.die && y.obj / 64 == x.obj / 64)

/-- DRO_CHUNK_ARRIVAL: the contribution chunk at place `n` reaches its object, which accepts or discards it (R455). -/
def execDroChunkArrival (n : Nat) (s : State) : Result :=
  eventOf "DRO_CHUNK_ARRIVAL"
    (((s.chunks[n]?).bind fun x => if s.chunkNext n x then some x else none).map fun x =>
      let s := { s with chunks := s.chunks.eraseIdx n }
      let c := s.coll x.obj
      let ok := c.isOpen && x.idx < c.nch && !(c.chunks.contains x.idx) && x.type == c.type
      (if ok then s.droAccept x else s.droBits x.obj dstERR).chunkReply x c.isOpen ok)

/-! ## Commands (R486 to R492) -/

/-- The place of the plan entries of the opening rank (R456). -/
def droPlanVa (d : List Word) : Nat := dw d 3 + db d 5 0 16 * 2 ^ 32 + 32 * db d 1 16 10

/-- A plan entry from its 64 bits (R456). -/
def planEnt (e : Nat) : PathEnt := ⟨e / 2 ^ 28 % 256, e / 2 ^ 20 % 256, e / 2 ^ 10 % 1024, e % 1024⟩

/-- Are four plan entries within the field limits, for P paths and N ranks (R487)? -/
def planOk (es : List Nat) (p n : Nat) : Bool :=
  (es.zipIdx).all fun (e, j) => e / 2 ^ 37 == 0 && (e / 2 ^ 36 % 2 == 1) == decide (j < p) && (e % 1024 == 0x3FF || e % 1024 < n)

/-- The field limits of an opening (R451, R487). -/
def droLimits (d : List Word) (r : QWord) : Bool :=
  let n := db d 1 0 10 + 1
  2 ≤ n && db d 1 16 10 < n && recSpace r == 0 && recType r == 6 + db d 0 22 2 &&
  8192 * (db d 2 0 16 + 1) * (if db d 0 24 3 = 2 then n else 1) ≤ recExtent r

/-- The 64-bit number of two descriptor words. -/
def dw2 (d : List Word) (i : Nat) : Nat := dw d i + dw d (i + 1) * 2 ^ 32

/-- An accepted opening sets the fields of the object and begins round 0 (R451, R487). -/
def State.droOpened (s : State) (x : XCmd) (es : List Nat) : State :=
  let d := x.desc
  let o := db d 0 0 8
  let p := db d 0 20 2 + 1
  (s.updColl o fun c =>
    { Coll.init with
      owner := x.vf, launch := x.launch, op := db d 0 24 3, type := db d 0 22 2, n := db d 1 0 10 + 1, rank := db d 1 16 10
      nch := db d 2 0 16 + 1, plan := (es.take p).map planEnt, res := x.brec, seg := x.seg, dl := dw2 d 6, slk := db d 2 16 16
      cto := dw d 8, live := db d 0 29 1 == 1, log := dw d 4 + db d 5 16 16 * 2 ^ 32, held := c.held }).droRound o

/-- The plan of the read of the opening rank's plan entries (R456, R487). -/
def State.droEntries (s : State) (die : Nat) (x : XCmd) : Plan :=
  s.planDie die x.vf wholeSeg (byteRec (droPlanVa x.desc) 32) 1 .read ((List.range 32).map fun i => (i, (i : Int)))

/-- The plan entries of an opening as they have been read: 32 bytes, each none where its sector fails its check. -/
def droRead (f : Nat → Option (Option (List Byte))) : List (Option (List Byte)) := (List.range 32).map fun i => (f i).bind id

/-- The entries have been read (R456, R487): the object opens, or the command is refused with code 5. -/
def State.droEnter (s : State) (die : Nat) (x : XCmd) (bs : List (Option (List Byte))) : State :=
  let bytes := bs.flatMap fun b => b.getD []
  let es := (List.range 4).map fun j => leNat ((bytes.drop (8 * j)).take 8)
  if !(bs.any Option.isNone) && planOk es (db x.desc 0 20 2 + 1) (db x.desc 1 0 10 + 1) then (s.droOpened x es).xStatus die x 0
  else s.xStatus die x 5

/-- The read of the plan entries (R256, R411): it leaves with class 1 and no deadline, and a page fault parks the command; once it has come, the
object opens. -/
def State.droReadPlan (s : State) (die : Nat) (x : XCmd) : State :=
  match x.txn with
  | none => (s.droEntries die x).xRead die x 1 0
  | some t =>
    match s.txns.find? t with
    | some y => if y.ready then (s.xGot die x t).droEnter die x (droRead (s.txnElem y)) else s
    | none => s

/-- A next round begins, if the last one is done (R487, R488); `dro.corr` commands of the old one end (R492). -/
def State.droNext (s : State) (die : Nat) (x : XCmd) : State :=
  let o := db x.desc 0 0 8
  let c := s.coll o
  if !(c.ownedBy x.vf && c.dst &&& dstDONE != 0) then s.xStatus die x 1
  else
    let s := c.corrs.foldl (fun s y => s.corrDone o y s.now) s
    ((s.updColl o fun c => { c with dl := dw2 x.desc 6, cto := dw x.desc 8, rnd := c.rnd + 1 }).droRound o).xStatus die x 0

/-- `dro.open` is carried out (R487, R488). -/
def State.droOpen (s : State) (die : Nat) (x : XCmd) : State :=
  if db x.desc 0 30 2 = 1 then s.droNext die x
  else if x.txn.isSome then s.droReadPlan die x
  else if (s.coll (db x.desc 0 0 8)).isOpen then s.xStatus die x 1
  else if !(droLimits x.desc x.brec) then s.xStatus die x 2
  else s.droReadPlan die x

/-- The elements of a chunk have come (R489): the chunk leaves, or, where a sector failed its check, is not sent. -/
def State.droSendChunk (s : State) (die : Nat) (x : XCmd) (vs : List (Option (Option (List Byte)))) : State :=
  let o := db x.desc 0 0 8
  if vs.any (fun v => v == some none) then
    (s.updXCmd die x.id fun y => { y with pos := y.pos + 1, code := lowCode y.code 7 }).droBits o dstERR
  else
    let vals := vs.map fun v => match v with | some (some bs) => BitVec.ofNat 32 (leNat bs) | _ => 0
    let ch : Chunk :=
      ⟨s.devId, s.devId, die, o, x.vf, (dw x.desc 1 + x.pos) % 2 ^ 32, if recType x.brec = 7 then 1 else 0, vals, none, some x.id⟩
    let s := s.updXCmd die x.id fun y => { y with pos := y.pos + 1, out := y.out + 1, oob := y.oob || vs.any Option.isNone }
    { s with chunks := s.chunks ++ [ch] }

/-- `dro.send` is carried out, one chunk at a time (R489), its reads with the class and budget of the source record (R256). -/
def State.droSendStep (s : State) (die : Nat) (x : XCmd) : State :=
  let d := x.desc
  let o := db d 0 0 8
  let k := db d 2 0 17
  match x.txn with
  | some t =>
    (match s.txns.find? t with
     | some y => if y.ready then (s.xGot die x t).droSendChunk die x ((List.range 8192).map (s.txnElem y)) else s
     | none => s)
  | none =>
    if x.pos = 0 ∧ !((s.coll o).ownedBy x.vf) ∧ x.out = 0 then s.xStatus die x 1
    else if k = 0 ∨ k > 65536 then s.xStatus die x 2
    else if x.pos ≥ k then (if x.out = 0 then s.xStatus die x x.code else s)
    else
      let w := elemSize (recType x.brec)
      let first : Int := (d.getD 3 0).toInt + (8192 * x.pos : Nat)
      (s.planDie die x.vf x.seg x.brec w .read ((List.range 8192).map fun i => (i, first + i))).xRead die x (recClass x.brec)
        (recBudget x.brec)

/-- `dro.close` is carried out (R490). -/
def State.droClose (s : State) (die : Nat) (x : XCmd) : State :=
  let o := db x.desc 0 0 8
  let c := s.coll o
  if !(c.ownedBy x.vf) then s.xStatus die x 1
  else
    let s := c.corrs.foldl (fun s y => s.corrDone o y s.now) s
    ((s.updColl o fun c =>
      { c with dst := c.dst &&& ~~~dstOPEN, held := [], jobs := [], due := [], fid := none }).dropTxns (.coll o)).wake.xStatus die x 0

/-- `dro.mfst` is carried out (R491). -/
def State.droMfst (s : State) (die : Nat) (x : XCmd) : State :=
  let c := s.coll (db x.desc 0 0 8)
  let m := if c.ownedBy x.vf then c.manifest else 0
  s.xEnd die x ((List.range 32).map fun i => m.extractLsb' (32 * i) 32)

/-- `dro.corr` is carried out (R492). -/
def State.droCorr (s : State) (die : Nat) (x : XCmd) : State :=
  let o := db x.desc 0 0 8
  let t := dw x.desc 1
  let y : Corr := ⟨x.id, x.core, x.tuid, db x.desc 0 8 6, if t = 0 then none else some (x.tick + t)⟩
  let s := (s.xEnd die x []).updColl o fun c => { c with corrs := c.corrs ++ [y] }
  if (s.coll o).ownedBy x.vf then s.corrCheck o else s.corrDone o y s.now

/-- The next step of a Drover command. -/
def State.droCommand (s : State) (die : Nat) (x : XCmd) : State :=
  match x.func with
  | 11 => s.droOpen die x
  | 12 => s.droSendStep die x
  | 13 => s.droClose die x
  | 14 => s.droMfst die x
  | _ => s.droCorr die x

/-! ## Writes (R461, R465) -/

/-- A write of an object has completed, at a tick and with or without an error (R461, R465): its bits follow that tick together, and what waited
for it leaves then. -/
def State.droWrote (s : State) (o : Nat) (j : Job) (t : Nat) (bad : Bool) : State :=
  let bits := if bad then j.bits ||| dstERR else j.bits
  let s := s.updColl o fun c => { c with jobs := c.jobs.drop 1, comp := max c.comp t, due := c.due ++ [(max c.comp t, bits)] }
  { s with droOut := s.droOut ++ j.send.map fun (x : DroPkt) => { x with tick := max x.tick t } }.droDue o

/-- The next write of a collective object: through RES and to the log, under the function's keys (R256, R461). It leaves, and is over when its
completions have come. A page fault parks the object (R411, log 28). -/
def State.droWrite (s : State) (o : Nat) : State :=
  let c := s.coll o
  let e : Eng := .coll o
  match c.jobs with
  | [] => s
  | j :: _ =>
    if !c.isOpen then s
    else if !((s.txnsOf e).isEmpty) then
      (if s.stored e then let r := s.storedAt e c.comp; (s.dropTxns e).droWrote o j r.1 r.2 else s)
    else if c.fid.isSome then s
    else
      let pq := s.jobPlans (o / 64) c.owner c.seg c.res j
      match pq.1.faults ++ pq.2.faults with
      | [] =>
        let s := pq.2.st.jobSend e c.owner c.res j pq.1 pq.2
        if (s.txnsOf e).isEmpty then s.droWrote o j (max c.comp s.now) false else s
      | fs => fs.foldl (fun s f =>
          let r := s.engFault (o / 64) 3 c.launch c.owner f 1 (.obj o)
          r.1.updColl o fun c => { c with fid := some r.2 }) pq.2.st

end Sys2Proof.Machine
end

