-- ==== Sys2Proof/Machine/Assayer.lean ====
section
/-! DEFINITION. The Assayer: assay objects, contributions, commits and corrections (R467 to R481), and the carrying out of its
commands (R493 to R495). -/

namespace Sys2Proof.Machine

/-! ## The status word (R479) -/

/-- AST bit OPEN. -/
def astOPEN : Word := 0x001
/-- AST bit DUE. -/
def astDUE : Word := 0x002
/-- AST bit CLIP. -/
def astCLIP : Word := 0x004
/-- AST bit DONE. -/
def astDONE : Word := 0x008
/-- AST bit PART. -/
def astPART : Word := 0x010
/-- AST bit CORR. -/
def astCORR : Word := 0x020
/-- AST bit CFULL. -/
def astCFULL : Word := 0x040
/-- AST bit CTMO. -/
def astCTMO : Word := 0x080
/-- AST bit ERR. -/
def astERR : Word := 0x100
/-- AST bit DROP. -/
def astDROP : Word := 0x200
/-- AST bit REJ. -/
def astREJ : Word := 0x400

/-- Is an object open? -/
def Assay.isOpen (a : Assay) : Bool := a.ast &&& astOPEN != 0
/-- Is it open, and owned by a function (R467)? -/
def Assay.ownedBy (a : Assay) (vf : Nat) : Bool := a.isOpen && a.owner == vf
/-- Has the deadline passed for it (R477)? -/
def Assay.isDue (a : Assay) : Bool := a.ast &&& astDUE != 0
/-- The manifest with every contributor in it. -/
def Assay.full (a : Assay) : Bool := a.amf == BitVec.ofNat 64 (2 ^ a.c - 1)
/-- A slot. -/
def Assay.slot (a : Assay) (i : Nat) : Slot := a.slots.get i Slot.init
/-- Changing a slot. -/
def Assay.updSlot (a : Assay) (i : Nat) (f : Slot → Slot) : Assay := { a with slots := a.slots.put i (f (a.slot i)) }
/-- Setting status bits. -/
def Assay.mark (a : Assay) (b : Word) : Assay := { a with ast := a.ast ||| b }
/-- The bytes of staging that an object of C contributors and NE elements needs (R469). -/
def asyNeed (c ne : Nat) : Nat := (c + 1) * 64 * ((ne + 15) / 16)

/-- AST bits are set together, at an evaluation instant (R480). -/
def State.asyBits (s : State) (d o : Nat) (b : Word) : State := if b = 0 then s else (s.updAssay d o fun a => a.mark b).wake

/-- The bits whose writes have completed are set (R480). -/
def State.asyDue (s : State) (d o : Nat) : State :=
  let a := s.assay d o
  let now := a.due.filter fun x => x.1 ≤ s.now
  (s.updAssay d o fun a => { a with due := a.due.filter fun x => s.now < x.1 }).asyBits d o (now.foldl (fun b x => b ||| x.2) 0)

/-! ## Norm and scale (R474, R475) -/

/-- The squared norm of the staged values (R474). -/
def asyNorm (ne : Nat) (v : SMap Word) : Nat :=
  (List.range ((ne + 15) / 16)).foldl (fun t k =>
    let q := (List.range 16).foldl (fun q j => let x := (v.get (16 * k + j) 0).toNat; (fFma fp32 .rn x x q).1) 0
    (fAdd fp32 .rn t q).1) 0

/-- 1.0 in FP32. -/
def fpOne : Nat := 0x3F800000

/-- The scale of a contribution (R475): positive FP32 numbers stand in the order of their bits. -/
def asyScale (alim nsq : Nat) : Nat :=
  if nsq % 2 ^ 31 = 0 then fpOne else min fpOne (fDiv fp32 .rn alim (fSqrt fp32 nsq).1).1

/-- A sealed slot commits (R475): scaled, it is added to the total. -/
def Assay.commit (a : Assay) (i : Nat) (late : Bool) : Assay :=
  let x := a.slot i
  let sc := asyScale a.alim.toNat x.nsq.toNat
  let total := (List.range a.ne).foldl (fun m j =>
    SMap.put m j (BitVec.ofNat 32 (fAdd fp32 .rn (m.get j 0).toNat (fMul fp32 .rn sc (x.vals.get j 0).toNat).1).1)) a.total
  (({ a with total := total, amf := a.amf ||| ((1 : DWord) <<< i) }).updSlot i fun x =>
    { x with st := 3, scale := BitVec.ofNat 32 sc, late := late, vals := [] }).mark (if sc < fpOne then astCLIP else 0)

/-- The commits that are due, in ascending id (R476, R477): before DL an idle or staging slot holds back those above it. -/
def Assay.drain (a : Assay) : Assay :=
  ((List.range a.c).foldl (fun (x : Assay × Bool) i =>
    let st := (x.1.slot i).st
    if !x.2 then x
    else if st = 2 then (x.1.commit i false, true)
    else (x.1, st == 3 || st == 4 || st == 5 || (st == 1 && x.1.isDue))) (a, true)).1

/-- A write of the total is due (R477, R478), with the bits that its completion sets. -/
def Assay.result (a : Assay) (corr : Bool) (log : Option (Nat × List Byte)) (bits : Word) : Assay :=
  let elems : SMap Word := (List.range a.ne).map fun j => (j, a.total.get j 0)
  { a with jobs := a.jobs ++ [(⟨0, corr, elems, log, bits, []⟩ : Job)], wrote := true }

/-- Commits that are due, and the result where every slot has committed before DL (R476, R477). -/
def Assay.advance (a : Assay) : Assay :=
  let a := a.drain
  if !a.isDue && !a.wrote && a.full then a.result false none astDONE else a

/-- A contribution is rejected (R473); a slot above it may now commit. -/
def Assay.reject (a : Assay) (i why : Nat) : Assay :=
  ((a.updSlot i fun x => { x with st := 5, why := why, vals := [] }).mark (astREJ ||| (if why = 4 then astERR else 0))).advance

/-- The log entry of a correction (R478). -/
def Assay.logBytes (a : Assay) (tick i : Nat) : List Byte :=
  leBytes 8 tick ++ leBytes 4 i ++ leBytes 4 (a.slot i).scale.toNat ++ leBytes 8 a.amf.toNat ++ leBytes 8 (a.rnd % 65536)

/-- A late contribution commits at once as a correction (R478). -/
def Assay.correct (a : Assay) (tick i : Nat) : Assay :=
  let a := a.commit i true
  let log := if a.log = 0 then none else some (a.log + 32 * a.logk, a.logBytes tick i)
  ({ a with logk := if a.log = 0 then a.logk else a.logk + 1 }).result true log (astCORR ||| (if a.full then astCFULL else 0))

/-- The correction window closes (R478): slots still staging are rejected. -/
def Assay.shutWindow (a : Assay) : Assay :=
  let a := (List.range a.c).foldl (fun (a : Assay) i =>
    if (a.slot i).st = 1 then (a.updSlot i fun x => { x with st := 5, why := 2, vals := [] }).mark astREJ else a) a
  { a.mark (if a.full then 0 else astCTMO) with shut := true }

/-! ## Staging (R469) -/

/-- Do the stagings of two objects overlap? -/
def Assay.overlaps (a b : Assay) : Bool :=
  a.soff < b.soff + asyNeed b.c b.ne && b.soff < a.soff + asyNeed a.c a.ne

/-- Free values in place of those of a map. -/
def freeVals (n : Nat) (m : SMap Word) : SMap Word := (m.zipIdx).map fun ((k, _), i) => (k, Config.freeWord (n + i))

/-- An object opens: it and every other open object of its die whose staging overlaps corrupt each other's from then on (R469). -/
def State.asyClash (s : State) (d o : Nat) : State :=
  let a := s.assay d o
  let hits : List Nat := ((s.die d).assays.filter fun (k, b) => k != o && b.isOpen && a.overlaps b).map (·.1)
  hits.foldl (fun s k => (s.updAssay d k fun b => { b with smear := true }).updAssay d o fun a => { a with smear := true }) s

/-- Where another open object's staging has overlapped an object's, its staged values and its total are unpredictable, and what stands in a
sector written under the keys of another function may fail its check (R399, R469). -/
def State.asySmear (s : State) (d o : Nat) : State :=
  let a := s.assay d o
  if a.smear then
    let total : SMap Word := (List.range a.ne).map fun j => (j, (0 : Word))
    let slots := a.slots.map fun (i, x) =>
      (i, { x with vals := freeVals (s.fresh + a.ne * (i + 1)) x.vals, bad := x.bad || Config.pick s.fresh i })
    (s.updAssay d o fun a => { a with total := freeVals s.fresh total, slots := slots }).draw (a.ne * 65)
  else s

/-! ## Packets (R471) -/

/-- The sender of a packet has its answer: a command of this device, or another device. -/
def State.asyReply (s : State) (x : AsyPkt) (code : Nat) : State :=
  if x.src ≠ s.devId then { s with asyAnsOut := s.asyAnsOut ++ [(x.src, x.cmd, code)] }
  else s.updXCmd x.die x.cmd fun y => { y with out := y.out - 1, code := lowCode y.code code }

/-- The answer of another device to a packet (R494). -/
def State.asyAnswer (s : State) (cmd code : Nat) : State :=
  { s with dies := s.dies.map fun (k, D) =>
      (k, { D with xcmds := D.xcmds.map fun (x : XCmd) =>
        if x.id = cmd then { x with out := x.out - 1, code := lowCode x.code code } else x }) }

/-- The packet at a place of the input, of a kind, if its turn has come: the events of its object's deadline and window that fall
before it are over (R477, R478), a begin marker goes before the data that were sent behind it (R494), and end markers of one tick at or
after DL go in ascending id, earlier ticks first. -/
def State.asyPkt? (s : State) (n kind : Nat) : Option AsyPkt :=
  (s.asyIn[n]?).bind fun x =>
    let a := s.assay x.die x.obj
    let timely := !a.isOpen || ((x.tick < a.dl || a.isDue) && (x.tick < a.dl + a.cto || a.shut))
    let ahead (y : AsyPkt) : Bool :=
      y.kind == 2 && y.die == x.die && y.obj == x.obj && (y.tick < x.tick || (y.tick == x.tick && y.id < x.id))
    let turn := kind != 2 || x.tick < a.dl || !(s.asyIn.any ahead)
    let begun := kind == 0 || (s.asyIn.take n).all fun y =>
      !(y.kind == 0 && y.die == x.die && y.obj == x.obj && y.src == x.src && y.id == x.id)
    if x.kind == kind && timely && turn && begun then some x else none

/-- What a packet does once it has passed the tests of R471: the object, and whether it was discarded. -/
def Assay.accept (a : Assay) (x : AsyPkt) : Assay × Bool :=
  let q := a.slot x.id
  match x.kind with
  | 0 =>
    if q.st = 0 then (a.updSlot x.id fun q => { q with st := 1, want := x.n, ser := x.ser }, false)
    else (a.mark astDROP, true)
  | 1 =>
    if q.st ≠ 1 then (a.mark astERR, true)
    else if x.first + x.vals.length > a.ne ∨ (List.range x.vals.length).any (fun i => (SMap.find? q.vals (x.first + i)).isSome) then
      (a.reject x.id 1, true)
    else
      (a.updSlot x.id fun q =>
        { q with
          cnt := q.cnt + x.vals.length
          vals := (x.vals.zipIdx).foldl (fun m (v, i) => SMap.put m (x.first + i) v) q.vals }, false)
  | _ =>
    if q.st ≠ 1 then (a.mark astDROP, true)
    else if x.n ≠ q.want ∨ q.want ≠ a.ne ∨ q.cnt ≠ a.ne then (a.reject x.id 1, true)
    else if q.bad then (a.reject x.id 4, true)
    else
      let nsq := asyNorm a.ne q.vals
      let a := a.updSlot x.id fun q => { q with nsq := BitVec.ofNat 32 nsq }
      if nsq / 2 ^ 23 % 256 = 255 then (a.reject x.id 3, true)
      else
        let a := a.updSlot x.id fun q => { q with st := 2 }
        (if x.tick < a.dl then a.advance else a.correct x.tick x.id, false)

/-- A packet reaches its object (R470, R471, R478): closed, it sets nothing; with a wrong key or id it sets ERR, with another serial
or after the window DROP. A late end marker is counted (R481). -/
def State.asyHandle (s : State) (n : Nat) (x : AsyPkt) : State :=
  let s := { s with asyIn := s.asyIn.eraseIdx n }
  let a := s.assay x.die x.obj
  if !a.isOpen then s.asyReply x 1
  else
    let s := if x.kind = 2 ∧ a.dl ≤ x.tick then s.updDie x.die fun D => { D with missA := satInc D.missA } else s
    if x.key ≠ a.akey ∨ x.id ≥ a.c then (s.asyBits x.die x.obj astERR).asyReply x 4
    else if x.ser ≠ a.rnd % 65536 ∨ a.shut then (s.asyBits x.die x.obj astDROP).asyReply x 4
    else
      let s := s.asySmear x.die x.obj
      let r := (s.assay x.die x.obj).accept x
      (s.updAssay x.die x.obj fun _ => r.1).wake.asyReply x (if r.2 then 4 else 0)

/-- A packet from another device reaches this one. -/
def State.asyReceive (s : State) (x : AsyPkt) : State :=
  if x.die < 4 ∧ x.obj < 16 then { s with asyIn := s.asyIn ++ [{ x with tick := s.now }] }
  else ({ s with asyAnsOut := s.asyAnsOut ++ [(x.src, x.cmd, 1)] })

/-- ASY_BEGIN_MARKER: the begin marker at place `n` of the input reaches its slot (R471). -/
def execAsyBeginMarker (n : Nat) (s : State) : Result :=
  eventOf "ASY_BEGIN_MARKER" ((s.asyPkt? n 0).map fun x => s.asyHandle n x)

/-- ASY_DATA_PACKET: the data packet at place `n` reaches its slot (R471, R473). -/
def execAsyDataPacket (n : Nat) (s : State) : Result :=
  eventOf "ASY_DATA_PACKET" ((s.asyPkt? n 1).map fun x => s.asyHandle n x)

/-- ASY_END_MARKER: the end marker at place `n` reaches its slot (R471, R473 to R476, R478). -/
def execAsyEndMarker (n : Nat) (s : State) : Result :=
  eventOf "ASY_END_MARKER" ((s.asyPkt? n 2).map fun x => s.asyHandle n x)

/-- Has a packet that came before a tick yet to reach an object? -/
def State.asyWaits (s : State) (d o t : Nat) : Bool := s.asyIn.any fun x => x.die == d && x.obj == o && x.tick < t

/-- ASY_DEADLINE: at DL object `o` of die `d` takes the steps of R477. -/
def execAsyDeadline (d o : Nat) (s : State) : Result :=
  let a := s.assay d o
  eventOf "ASY_DEADLINE"
    (if a.isOpen ∧ !a.isDue ∧ a.dl ≤ s.now ∧ !(s.asyWaits d o a.dl) then
      let s := s.asySmear d o
      some (s.updAssay d o fun a =>
        let a := a.mark astDUE
        let a := (List.range a.c).foldl (fun (a : Assay) i =>
          if (a.slot i).st = 0 then a.updSlot i fun x => { x with st := 4 } else a) a
        let a := a.drain
        if a.wrote then a else a.result false none (astDONE ||| (if a.full then 0 else astPART))).wake
    else none)

/-- ASY_CORRECTION_WINDOW_CLOSE: at DL + CTO the correction window of object `o` of die `d` closes (R478). -/
def execAsyCorrectionWindowClose (d o : Nat) (s : State) : Result :=
  let a := s.assay d o
  eventOf "ASY_CORRECTION_WINDOW_CLOSE"
    (if a.isOpen ∧ a.isDue ∧ !a.shut ∧ a.dl + a.cto ≤ s.now ∧ !(s.asyWaits d o (a.dl + a.cto)) then
      some (s.updAssay d o fun a => a.shutWindow).wake
    else none)

/-! ## Commands (R493 to R495) -/

/-- An ALIM within its limits: positive and finite, or +∞ (R468). -/
def alimOk (x : Nat) : Bool := 0 < x && x ≤ 0x7F800000

/-- `asy.open` is carried out (R470, R493). Next round and close wait for the object's earlier writes (log 29). -/
def State.asyOpen (s : State) (die : Nat) (x : XCmd) : State :=
  let d := x.desc
  let o := db d 0 0 4
  let act := db d 0 30 2
  let a := s.assay die o
  let c := db d 0 24 6 + 1
  let ne := db d 1 0 24 + 1
  let soff := db d 6 0 20 * 4096
  if (a.isOpen ∧ a.owner ≠ x.vf) ∨ a.isOpen = (act == 0) then s.xStatus die x 1
  else if act = 2 then
    if a.jobs ≠ [] ∨ a.due ≠ [] then s
    else ((s.updAssay die o fun _ => Assay.init).wake).xStatus die x 0
  else if !(alimOk (dw d 2)) ∨ recSpace x.brec ≠ 0 ∨ recType x.brec ≠ 6 ∨ recExtent x.brec < ne then s.xStatus die x 2
  else if soff + asyNeed c ne > (s.die die).asz then s.xStatus die x 3
  else if a.jobs ≠ [] ∨ a.due ≠ [] then s
  else
    let rnd := if act = 0 then 0 else a.rnd + 1
    ((s.updAssay die o fun _ =>
      { Assay.init with
        owner := x.vf, launch := x.launch, c := c, ne := ne, alim := d.getD 2 0, dl := dw2 d 3, cto := dw d 5, res := x.brec
        seg := x.seg, soff := soff, log := dw d 7 + db d 8 0 16 * 2 ^ 32, akey := d.getD 9 0, rnd := rnd
        ast := astOPEN ||| BitVec.ofNat 32 (rnd % 65536 * 65536) }).asyClash die o).wake.xStatus die x 0

/-- A packet leaves for its object. -/
def State.asySend (s : State) (p : AsyPkt) : State :=
  if p.dev = s.devId then { s with asyIn := s.asyIn ++ [p] } else { s with asyOut := s.asyOut ++ [p] }

/-- A packet of a command (R494), of a kind, with its count, first element and values. -/
def State.asyPacket (s : State) (x : XCmd) (kind n first : Nat) (vals : List Word) : AsyPkt :=
  let d := x.desc
  ⟨kind, s.devId, db d 0 8 12, db d 0 4 2, db d 0 0 4, d.getD 1 0, db d 0 24 6, db d 2 0 16, n, first, vals, s.now, x.id⟩

/-- The elements of the next data packet, at most 64: those whose source bytes lie in the sectors of the first (log 30). -/
def asyRun (p : Plan) (n : Nat) : List Nat :=
  let at_ (i : Nat) : Option (List Nat) :=
    match p.good.find? (·.1 == i) with
    | some (_, ls) => some (sectorsOf ls)
    | none => if p.oob.contains i then some [] else none
  match at_ 0 with
  | none => []
  | some k => (List.range n).takeWhile fun i => at_ i == some k

/-- The source bytes of a data packet have come (R494): it is sent, or, where a sector failed its check, left out. -/
def State.asyPutSend (s : State) (die : Nat) (x : XCmd) (n : Nat) (vs : List (Option (Option (List Byte)))) : State :=
  let s := s.updXCmd die x.id fun y => { y with pos := y.pos + max 1 n, oob := y.oob || vs.any Option.isNone }
  if vs.any (fun v => v == some none) then s.updXCmd die x.id fun y => { y with code := lowCode y.code 7 }
  else
    let val (bs : List Byte) : Word :=
      if recType x.brec = 7 then BitVec.ofNat 32 (fConv bf16 fp32 .rn (leNat bs)).1 else BitVec.ofNat 32 (leNat bs)
    let vals := vs.map fun v => match v with | some (some bs) => val bs | _ => 0
    (s.asySend (s.asyPacket x 1 vals.length (dw x.desc 3 + (x.pos - 1)) vals)).updXCmd die x.id fun y => { y with out := y.out + 1 }

/-- The read of the next data packet's source bytes leaves, with the class and budget of the source record (R256); bytes out of bounds need
none, and read as zero (R313). -/
def State.asyPutRead (s : State) (die : Nat) (x : XCmd) : State :=
  let e := x.pos - 1
  let k := min 64 (dw x.desc 4 - e)
  let first : Int := (x.desc.getD 6 0).toInt + (e : Nat)
  let p := s.planDie die x.vf x.seg x.brec (elemSize (recType x.brec)) .read ((List.range k).map fun i => (i, first + i))
  let run := asyRun p k
  let bad := p.faults.filter fun f => f.2.2.2.contains 0
  let good := p.good.filter fun y => run.contains y.1
  if run = [] ∧ bad ≠ [] then p.st.xPark die x bad
  else if good = [] then p.st.asyPutSend die x run.length (run.map fun _ => none)
  else { p with good := good, faults := [] }.xRead die x (recClass x.brec) (recBudget x.brec)

/-- `asy.put` is carried out, one packet at a time (R494). -/
def State.asyPutStep (s : State) (die : Nat) (x : XCmd) : State :=
  let d := x.desc
  let dev := db d 0 8 12
  let cnt := dw d 4
  match x.txn with
  | some t =>
    (match s.txns.find? t with
     | some y => if y.ready then (s.xGot die x t).asyPutSend die x y.rd.length (y.rd.map fun r => s.txnElem y r.1) else s
     | none => s)
  | none =>
    if !(s.reaches dev) then s.xStatus die x (lowCode x.code 6)
    else if x.pos = 0 then
      if db d 0 31 1 = 1 then
        (s.asySend (s.asyPacket x 0 (dw d 5) 0 [])).updXCmd die x.id fun y => { y with pos := 1, out := y.out + 1 }
      else s.updXCmd die x.id fun y => { y with pos := 1 }
    else if x.pos - 1 ≥ cnt then
      if x.out ≠ 0 then s
      else if cnt = 0 ∧ dev = s.devId ∧ !(s.assay (db d 0 4 2) (db d 0 0 4)).isOpen then s.xStatus die x (lowCode x.code 1)
      else s.xStatus die x x.code
    else s.asyPutRead die x

/-- `asy.seal` is carried out (R494). -/
def State.asySealStep (s : State) (die : Nat) (x : XCmd) : State :=
  let d := x.desc
  let dev := db d 0 8 12
  if !(s.reaches dev) then s.xStatus die x (lowCode x.code 6)
  else if x.pos = 0 then
    (s.asySend (s.asyPacket x 2 (dw d 5) 0 [])).updXCmd die x.id fun y => { y with pos := 1, out := y.out + 1 }
  else if x.out ≠ 0 then s
  else s.xStatus die x x.code

/-- A slot as `asy.stat` reads it (R472), 128 bits as a number. -/
def Slot.bits (q : Slot) : Nat :=
  fieldAt q.nsq.toNat 96 + fieldAt q.scale.toNat 64 + fieldAt q.ser 48 + fieldAt q.cnt 16 + fieldAt q.why 8 + fieldAt q.late.toNat 7 + q.st

/-- `asy.stat` is carried out (R495). -/
def State.asyStat (s : State) (die : Nat) (x : XCmd) : State :=
  let d := x.desc
  let a := s.assay die (db d 0 0 4)
  let i := db d 0 24 6
  let v : Nat :=
    if !(a.ownedBy x.vf) then 0
    else if db d 0 30 2 = 0 then a.ast.toNat
    else if db d 0 30 2 = 1 then (if i < a.c then (a.slot i).bits else 0)
    else a.amf.toNat
  s.xEnd die x ((List.range (asyStatLen d)).map fun k => BitVec.ofNat 32 (v / 2 ^ (32 * k)))

/-- The next step of an Assayer command. -/
def State.asyCommand (s : State) (die : Nat) (x : XCmd) : State :=
  match x.func with
  | 16 => s.asyOpen die x
  | 17 => s.asyPutStep die x
  | 18 => s.asySealStep die x
  | _ => s.asyStat die x

/-- The next step of a command of a die's Drover or Assayer; nothing where its turn has not come (R484). -/
def State.command (s : State) (die id : Nat) : State :=
  match s.xcmd? die id with
  | none => s
  | some x => if !(s.xTurn die x) then s else if x.func < 16 then s.droCommand die x else s.asyCommand die x

/-! ## Writes (R477, R480) -/

/-- A write of an object has completed, at a tick and with or without an error (R477, R480): its bits follow that tick together. -/
def State.asyWrote (s : State) (d o : Nat) (j : Job) (t : Nat) (bad : Bool) : State :=
  let bits := if bad then j.bits ||| astERR else j.bits
  (s.updAssay d o fun a => { a with jobs := a.jobs.drop 1, comp := max a.comp t, due := a.due ++ [(max a.comp t, bits)] }).asyDue d o

/-- The next write of an assay object: through RES and to the log, under the function's keys (R256, R477, R478). It leaves, and is over when its
completions have come. A page fault parks the object (R411, log 28). -/
def State.asyWrite (s : State) (d o : Nat) : State :=
  let a := s.assay d o
  let e : Eng := .assay d o
  match a.jobs with
  | [] => s
  | j :: _ =>
    if !((s.txnsOf e).isEmpty) then
      (if s.stored e then let r := s.storedAt e a.comp; (s.dropTxns e).asyWrote d o j r.1 r.2 else s)
    else if a.fid.isSome then s
    else
      let pq := s.jobPlans d a.owner a.seg a.res j
      match pq.1.faults ++ pq.2.faults with
      | [] =>
        let s := pq.2.st.jobSend e a.owner a.res j pq.1 pq.2
        if (s.txnsOf e).isEmpty then s.asyWrote d o j (max a.comp s.now) false else s
      | fs => fs.foldl (fun s f =>
          let r := s.engFault d 4 a.launch a.owner f 1 (.assay d o)
          r.1.updAssay d o fun a => { a with fid := some r.2 }) pq.2.st

/-- The next write of an object: of the collective `o`, or of assay object `o` of die `d`. -/
def State.writes (s : State) (asy : Bool) (d o : Nat) : State := if asy then s.asyWrite d o else s.droWrite o

end Sys2Proof.Machine
end

