-- ==== Sys2Proof/Machine/Memory.lean ====
section
/-! DEFINITION. Loads, stores and prefetch of threads and groups, class MEM, `sld` and `sst` (R122 to R131, R286 to R293). -/

namespace Sys2Proof.Machine

/-! ## Convoy steps (R263, R264) -/

/-- The slip limit of a group's convoy (R260). -/
def State.slipOf (s : State) (G : Group) : Nat :=
  match (s.die (G.cvm.id / 256)).convoys.find? (G.cvm.id % 256) with | some v => v.slip | none => 0

/-- Is an attached member held in front of a C load (R264)? -/
def State.holds (s : State) (G : Group) : Bool := G.cvm.state == 1 && G.minp + s.slipOf G ≤ G.cvm.pos

/-- A member is held: it reports the hold when it begins (R264). -/
def State.holdGroup (s : State) (g : Nat) (G : Group) : State :=
  if G.cvm.held then s
  else
    let s := s.updGroup g fun G => { G with cvm := { G.cvm with held := true } }
    let s := if s.stopping G.team then s.stopReady g else s
    s.cvSend G G.cvm.id none (.hold g G.cvm.id)

/-! ## Loads -/

/-- The index of each active lane: v[vi], signed, plus the offset (R122). -/
def Ctx.indices (c : Ctx) (i : Nat) : List (Nat × Int) := (lanesOf c.mask).map fun l => (l, (c.rv l i).toInt + c.hints.offset)

/-- The scope with which an acquire or release of the hint acts, or 0. -/
def ordScope (c : Ctx) (r : QWord) (codes : List Nat) : Nat := if codes.contains c.hints.ord then accScope c r else 0

/-- A load that a thread makes (R122, R124, R288 to R290). A C load of an attached group is held, or counts a step when some lane
completes. -/
def memLoad (width : Nat) (sext : Bool) (w : BitVec 1) (d i : BitVec 7) (b : BitVec 4) (cf ro ef na : BitVec 1) (s0 : State) : Result :=
  let n := max 1 (width / 4)
  issue { w := flag1 w, var := true, imm := true, mods := modSCP ||| modORD ||| modLC3, ords := [0, 1],
          regs := [.v d.toNat n n, .v i.toNat 1 1] }
    (fun c s =>
      let r := c.G.bufRec b.toNat
      if flag1 cf ∧ s.holds c.G then s.holdGroup c.g c.G
      else
        s.access c .load r width sext .read (c.indices i.toNat) false (flag1 ef && recSpace r == 0) (flag1 na && recSpace r == 0)
          (flag1 cf) (accLease c r (flag1 ro)) (ordScope c r [1]) 0 (some (.v d.toNat n)) (fun _ => []) (fun _ => [])) s0

/-- `ldb` (R124). -/
def execLdb (w : BitVec 1) (d i : BitVec 7) (b : BitVec 4) (c r e n : BitVec 1) (s0 : State) : Result := memLoad 1 false w d i b c r e n s0
/-- `ldbs` (R124). -/
def execLdbs (w : BitVec 1) (d i : BitVec 7) (b : BitVec 4) (c r e n : BitVec 1) (s0 : State) : Result := memLoad 1 true w d i b c r e n s0
/-- `ldh` (R124). -/
def execLdh (w : BitVec 1) (d i : BitVec 7) (b : BitVec 4) (c r e n : BitVec 1) (s0 : State) : Result := memLoad 2 false w d i b c r e n s0
/-- `ldhs` (R124). -/
def execLdhs (w : BitVec 1) (d i : BitVec 7) (b : BitVec 4) (c r e n : BitVec 1) (s0 : State) : Result := memLoad 2 true w d i b c r e n s0
/-- `ldw` (R124). -/
def execLdw (w : BitVec 1) (d i : BitVec 7) (b : BitVec 4) (c r e n : BitVec 1) (s0 : State) : Result := memLoad 4 false w d i b c r e n s0
/-- `ldd` (R124). -/
def execLdd (w : BitVec 1) (d i : BitVec 7) (b : BitVec 4) (c r e n : BitVec 1) (s0 : State) : Result := memLoad 8 false w d i b c r e n s0
/-- `ldq` (R124). -/
def execLdq (w : BitVec 1) (d i : BitVec 7) (b : BitVec 4) (c r e n : BitVec 1) (s0 : State) : Result := memLoad 16 false w d i b c r e n s0

/-! ## Stores -/

/-- The low bytes of a lane's register, pair or quad (R124). -/
def Ctx.storeData (c : Ctx) (width d l : Nat) : List Byte :=
  ((List.range (max 1 (width / 4))).flatMap fun k => leBytes 4 (c.rv l (d + k)).toNat).take width

/-- A store that a thread makes (R122, R124, R288). -/
def memStore (width : Nat) (w : BitVec 1) (d i : BitVec 7) (b : BitVec 4) (ef na : BitVec 1) (s0 : State) : Result :=
  let n := max 1 (width / 4)
  issue { w := flag1 w, imm := true, mods := modSCP ||| modORD, ords := [0, 2], regs := [.v d.toNat n n, .v i.toNat 1 1] }
    (fun c s =>
      let r := c.G.bufRec b.toNat
      s.access c .store r width false .write (c.indices i.toNat) false (flag1 ef && recSpace r == 0) (flag1 na && recSpace r == 0)
        false 0 0 (ordScope c r [2]) none (c.storeData width d.toNat) (fun _ => [])) s0

/-- `stb` (R124). -/
def execStb (w : BitVec 1) (d i : BitVec 7) (b : BitVec 4) (e n : BitVec 1) (s0 : State) : Result := memStore 1 w d i b e n s0
/-- `sth` (R124). -/
def execSth (w : BitVec 1) (d i : BitVec 7) (b : BitVec 4) (e n : BitVec 1) (s0 : State) : Result := memStore 2 w d i b e n s0
/-- `stw` (R124). -/
def execStw (w : BitVec 1) (d i : BitVec 7) (b : BitVec 4) (e n : BitVec 1) (s0 : State) : Result := memStore 4 w d i b e n s0
/-- `std` (R124). -/
def execStd (w : BitVec 1) (d i : BitVec 7) (b : BitVec 4) (e n : BitVec 1) (s0 : State) : Result := memStore 8 w d i b e n s0
/-- `stq` (R124). -/
def execStq (w : BitVec 1) (d i : BitVec 7) (b : BitVec 4) (e n : BitVec 1) (s0 : State) : Result := memStore 16 w d i b e n s0

/-! ## Prefetch -/

/-- The prefetch of one lane's sector (R292), as a request of its record's class and budget. -/
def State.prefetchSector (s : State) (G : Group) (r : QWord) (lease : Nat) (ef : Bool) (va pa : Nat) : State :=
  s.prefetchFill G.core ⟨G.vf, (s.vf G.vf).asid, va / 64, pa / 64, G.part, recClass r, recBudget r, lease, ef⟩

/-- `pref` (R124, R126, R292): lanes out of bounds, or whose translation fails, do nothing; with N nothing is requested. -/
def execPref (w : BitVec 1) (i : BitVec 7) (b : BitVec 4) (r e n : BitVec 1) (s0 : State) : Result :=
  issue { w := flag1 w, imm := true, mods := modLC3, regs := [.v i.toNat 1 1] }
    (fun c s =>
      let q := c.G.bufRec b.toNat
      let p := s.plan c.G.core c.G q 1 .read (c.indices i.toNat)
      let s := if recSpace q ≠ 0 ∨ flag1 n then p.st
        else p.good.foldl (fun s (_, ls) =>
          match ls with
          | .glob va pa :: _ => s.prefetchSector c.G q (accLease c q (flag1 r)) (flag1 e) va pa
          | _ => s) p.st
      s.retire c) s0

/-! ## Uniform loads and stores -/

/-- The index of a uniform access: the 8-bit field, or the imm hint's signed value (R63, R130). -/
def Ctx.uniIndex (c : Ctx) (x : BitVec 8) : List (Nat × Int) :=
  [(0, match c.hints.imm with | none => x.toNat | some (_, i) => i.toInt)]

/-- `sld` (R130, R293). -/
def execSld (w : BitVec 1) (d : BitVec 10) (b : BitVec 4) (x : BitVec 8) (s0 : State) : Result :=
  issue { w := flag1 w, var := true, imm := true, regs := [.s d.toNat 1 1] }
    (fun c s =>
      let r := c.G.bufRec b.toNat
      s.access c .load r 4 false .read (c.uniIndex x) true false false false (recLease r) 0 0 (some (.s d.toNat 1))
        (fun _ => []) (fun _ => [])) s0

/-- `sst` (R130, R293). -/
def execSst (w : BitVec 1) (d : BitVec 10) (b : BitVec 4) (x : BitVec 8) (s0 : State) : Result :=
  issue { w := flag1 w, imm := true, regs := [.s d.toNat 1 1] }
    (fun c s =>
      s.access c .store (c.G.bufRec b.toNat) 4 false .write (c.uniIndex x) true false false false 0 0 0 none
        (fun _ => leBytes 4 (c.rs d.toNat).toNat) (fun _ => [])) s0

end Sys2Proof.Machine
end

