-- ==== Sys2Proof/Machine/Atomic.lean ====
section
/-! DEFINITION. Atomics, class ATM (R294 to R299). -/

namespace Sys2Proof.Machine

/-- A thread's atomic operand: a register, or a pair with b64 (R295). -/
def Ctx.atomWord (c : Ctx) (wide : Bool) (l r : Nat) : List Byte :=
  if wide then leBytes 8 (c.rv2 l r).toNat else leBytes 4 (c.rv l r).toNat

/-- What an atomic asks of its issue (R294, R295): its operands are pairs with b64. -/
def infoAtomic (op : Nat) (w : BitVec 1) (d i v : BitVec 7) (c : Ctx) : Info :=
  let n := if c.hints.wide then 2 else 1
  let vn := if op = 9 then 2 * n else n
  { w := flag1 w, var := true, mods := modSCP ||| modORD ||| (if op < 10 then modWID else 0), ords := [0, 1, 2, 3],
    regs := [.v d.toNat n n, .v i.toNat 1 1, .v v.toNat vn vn] }

/-- An atomic (R294 to R298). With b64 the operands are pairs; an operand-buffer record traps with the record detail. `acas` takes
its comparand from vv and its new value from the register or pair after it (R295). -/
def atomic (op : Nat) (w : BitVec 1) (b : BitVec 2) (d i v : BitVec 7) (s0 : State) : Result :=
  issueBy (infoAtomic op w d i v)
    (fun c s =>
      let wide := c.hints.wide
      let n := if wide then 2 else 1
      let r := c.G.bufRec b.toNat
      if recSpace r = 3 then s.trapAt c 1 6
      else
        let new := if op = 9 then v.toNat + n else v.toNat
        s.access c (.atomic op wide) r (4 * n) false .atomic ((lanesOf c.mask).map fun l => (l, (c.rv l i.toNat).toInt))
          false false false false 0 (ordScope c r [1, 3]) (ordScope c r [2, 3]) (some (.v d.toNat n))
          (fun l => c.atomWord wide l new) (fun l => if op = 9 then c.atomWord wide l v.toNat else [])) s0

/-- `aadd` (R295). -/
def execAadd (w : BitVec 1) (b : BitVec 2) (d i v : BitVec 7) (s0 : State) : Result := atomic 0 w b d i v s0
/-- `amin` (R295). -/
def execAmin (w : BitVec 1) (b : BitVec 2) (d i v : BitVec 7) (s0 : State) : Result := atomic 1 w b d i v s0
/-- `amax` (R295). -/
def execAmax (w : BitVec 1) (b : BitVec 2) (d i v : BitVec 7) (s0 : State) : Result := atomic 2 w b d i v s0
/-- `aminu` (R295). -/
def execAminu (w : BitVec 1) (b : BitVec 2) (d i v : BitVec 7) (s0 : State) : Result := atomic 3 w b d i v s0
/-- `amaxu` (R295). -/
def execAmaxu (w : BitVec 1) (b : BitVec 2) (d i v : BitVec 7) (s0 : State) : Result := atomic 4 w b d i v s0
/-- `aand` (R295). -/
def execAand (w : BitVec 1) (b : BitVec 2) (d i v : BitVec 7) (s0 : State) : Result := atomic 5 w b d i v s0
/-- `aor` (R295). -/
def execAor (w : BitVec 1) (b : BitVec 2) (d i v : BitVec 7) (s0 : State) : Result := atomic 6 w b d i v s0
/-- `axor` (R295). -/
def execAxor (w : BitVec 1) (b : BitVec 2) (d i v : BitVec 7) (s0 : State) : Result := atomic 7 w b d i v s0
/-- `axchg` (R295). -/
def execAxchg (w : BitVec 1) (b : BitVec 2) (d i v : BitVec 7) (s0 : State) : Result := atomic 8 w b d i v s0
/-- `acas` (R295). -/
def execAcas (w : BitVec 1) (b : BitVec 2) (d i v : BitVec 7) (s0 : State) : Result := atomic 9 w b d i v s0
/-- `afadd` (R295). -/
def execAfadd (w : BitVec 1) (b : BitVec 2) (d i v : BitVec 7) (s0 : State) : Result := atomic 10 w b d i v s0
/-- `amaxpk` (R295). -/
def execAmaxpk (w : BitVec 1) (b : BitVec 2) (d i v : BitVec 7) (s0 : State) : Result := atomic 11 w b d i v s0
/-- `ahadd2` (R295). -/
def execAhadd2 (w : BitVec 1) (b : BitVec 2) (d i v : BitVec 7) (s0 : State) : Result := atomic 12 w b d i v s0

end Sys2Proof.Machine
end

