-- ==== Sys2Proof/Machine/Branch.lean ====
section
/-! DEFINITION. Branches and calls, class BR, and `jri` (R114 to R117), with what a taken backward branch does to the loop buffer
(R512). -/

namespace Sys2Proof.Machine

/-- The target of a branch word: PC + 4 × off21, modulo 2^32 (R39, R114). -/
def branchTarget (pc : Word) (o : BitVec 21) : Word := pc + (o.signExtend 32) <<< 2

/-- What a taken backward branch does to the loop buffer of its partition (R512): a target at most 63 words back makes the buffer
take that range, unless it holds it already. Addresses are those of the code bytes. -/
def State.noteLoop (s : State) (c : Ctx) (target : Word) : State :=
  let x := c.G.code c.h
  let lo := segBase x + target.toNat
  let hi := segBase x + c.pc.toNat
  if target.toNat ≤ c.pc.toNat ∧ hi - lo ≤ 63 * 4 then
    s.updPart c.G.core c.G.part fun p =>
      match p.loop with
      | some b => if b.vf = c.G.vf ∧ b.asid = (s.vf c.G.vf).asid ∧ b.lo ≤ lo ∧ hi ≤ b.hi then p
                  else { p with loop := some ⟨c.G.vf, (s.vf c.G.vf).asid, lo, hi, [], false, []⟩ }
      | none => { p with loop := some ⟨c.G.vf, (s.vf c.G.vf).asid, lo, hi, [], false, []⟩ }
  else s

/-- A relative branch: each thread for which `f` holds takes it, the others go on (R114). -/
def branchRel (w : BitVec 1) (o : BitVec 21) (f : Ctx → Nat → Bool) (s0 : State) : Result :=
  issue (infoNone w).bare
    (fun c s =>
      let t := branchTarget c.pc o
      let took := if c.mask = 0 then f c 0 else (lanesOf c.mask).any (f c)
      (if took then s.noteLoop c t else s).goto c fun l th => if f c l then t else th.pc + 4) s0

/-- `b` (R114). -/
def execBr (w : BitVec 1) (o : BitVec 21) (s0 : State) : Result := branchRel w o (fun _ _ => true) s0
/-- `bp` (R114). -/
def execBp (w : BitVec 1) (p : BitVec 3) (o : BitVec 21) (s0 : State) : Result := branchRel w o (fun c l => c.pred l p.toNat) s0
/-- `bnp` (R114). -/
def execBnp (w : BitVec 1) (p : BitVec 3) (o : BitVec 21) (s0 : State) : Result := branchRel w o (fun c l => !c.pred l p.toNat) s0
/-- `bq`: uniform (R114). -/
def execBq (w : BitVec 1) (q : BitVec 3) (o : BitVec 21) (s0 : State) : Result :=
  branchRel w o (fun c _ => c.G.q.getLsbD q.toNat) s0
/-- `bnq`: uniform (R114). -/
def execBnq (w : BitVec 1) (q : BitVec 3) (o : BitVec 21) (s0 : State) : Result :=
  branchRel w o (fun c _ => !c.G.q.getLsbD q.toNat) s0

/-- `call`: LK takes the address of the next word (R114). -/
def execCall (w : BitVec 1) (o : BitVec 21) (s0 : State) : Result :=
  issue (infoNone w).bare
    (fun c s =>
      let t := branchTarget c.pc o
      ((s.updGroup c.g fun G => G.updLanes (lanesOf c.mask) fun _ th => { th with lk := c.pc + 4 }).noteLoop c t).goto c fun _ _ => t) s0

/-- `ret`: each thread goes to its LK, bits 1:0 cleared (R114). A path without lanes has no LK: the address is a free value
(R396, log 23). -/
def execRet (w : BitVec 1) (s0 : State) : Result :=
  issue (infoNone w).bare
    (fun c s => s.goto c fun _ th => (if c.mask = 0 then Config.freeWord c.n else th.lk) &&& ~~~3) s0

/-- `jri`: every thread goes to s[sa]; an address that is no multiple of 4 traps with the fetch-bounds detail (R115). -/
def execJri (w : BitVec 1) (a : BitVec 10) (s0 : State) : Result :=
  issue (infoS1 w a 1 1).bare
    (fun c s =>
      let x := c.rs a.toNat
      if x &&& 3 = 0 then s.goto c fun _ _ => x else s.trapAt c 1 1) s0

end Sys2Proof.Machine
end

