-- ==== Sys2Proof/Machine/Compare.lean ====
section
/-! DEFINITION. Compares (R105 to R108). -/

namespace Sys2Proof.Machine

/-- An integer comparison by its condition code (R105). -/
def relTest (cond : Nat) (a b : Int) : Bool :=
  match cond with
  | 0 => a == b
  | 1 => a != b
  | 2 => a < b
  | 3 => a ≤ b
  | 4 => b < a
  | _ => b ≤ a

/-- The test of a compare by condition and type: 0 i32, 1 n32, 2 f32, 3 i64, 4 n64 (R105, R89). A 32-bit type looks at the low
word. Only f32 sets a flag (R107). -/
def cmpTest (cond ty : Nat) (a b : DWord) : Bool × Word :=
  match ty with
  | 0 => (relTest cond (a.setWidth 32).toInt (b.setWidth 32).toInt, 0)
  | 1 => (relTest cond (a.setWidth 32).toNat (b.setWidth 32).toNat, 0)
  | 2 => fCompare cond (a.setWidth 32).toNat (b.setWidth 32).toNat
  | 3 => (relTest cond a.toInt b.toInt, 0)
  | _ => (relTest cond a.toNat b.toNat, 0)

/-- Is a type 64 bits wide (R61)? -/
def cmpWide (ty : Nat) : Bool := ty ≥ 3

/-- A single register or immediate as the b of a type (R61, R106): sign-extended for i64, zero-extended for n64. -/
def cmpExtend (ty : Nat) (x : Word) : DWord := if ty = 3 then x.signExtend 64 else x.setWidth 64

/-- The immediate of kind 10 (R106): imm7 zero-extended for n32 and n64 and sign-extended otherwise, or the widened value; for f32
the integer converted once, to nearest-even. What `imm` and `immhi` form together is read as signed there (log 72). -/
def cmpImm (ty : Nat) (h : Hints) (i : BitVec 7) : DWord :=
  let x := h.immOr (if ty = 1 ∨ ty = 4 then i.setWidth 32 else i.signExtend 32)
  if ty = 2 then BitVec.ofNat 64 (intToF .rn x.toInt).1 else cmpExtend ty x

/-- The width in registers of an operand of a type. -/
def cmpRegs (ty : Nat) : Nat := if cmpWide ty then 2 else 1

/-- Operand a of a `cmp`, a pair for a 64-bit type (R105). -/
def Ctx.cmpV (c : Ctx) (ty l r : Nat) : DWord := if cmpWide ty then c.rv2 l r else (c.rv l r).setWidth 64
/-- Operand of an `scmp`, a pair for a 64-bit type (R105). -/
def Ctx.cmpS (c : Ctx) (ty r : Nat) : DWord := if cmpWide ty then c.rs2 r else (c.rs r).setWidth 64

/-- `cmp` of two thread registers, kind 00 (R105). -/
def execCmpVv (w : BitVec 1) (k : BitVec 5) (p : BitVec 3) (t : BitVec 3) (a b : BitVec 7) (s0 : State) : Result :=
  let n := cmpRegs t.toNat
  issue { w := flag1 w, regs := [.v a.toNat n n, .v b.toNat n n] }
    (fun c s => s.putP c p.toNat fun l => cmpTest k.toNat t.toNat (c.cmpV t.toNat l a.toNat) (c.cmpV t.toNat l b.toNat)) s0

/-- `cmp` with a uniform register, kind 01: a single register, extended for a 64-bit type (R61, R105). -/
def execCmpVs (w : BitVec 1) (k : BitVec 5) (p : BitVec 3) (t : BitVec 3) (a u : BitVec 7) (s0 : State) : Result :=
  let n := cmpRegs t.toNat
  issue { w := flag1 w, regs := [.v a.toNat n n, .s u.toNat 1 1] }
    (fun c s => s.putP c p.toNat fun l => cmpTest k.toNat t.toNat (c.cmpV t.toNat l a.toNat) (cmpExtend t.toNat (c.rs u.toNat))) s0

/-- `cmp` with an immediate, kind 10 (R105, R106). -/
def execCmpVi (w : BitVec 1) (k : BitVec 5) (p : BitVec 3) (t : BitVec 3) (a i : BitVec 7) (s0 : State) : Result :=
  let n := cmpRegs t.toNat
  issue { w := flag1 w, imm := true, immhi := true, regs := [.v a.toNat n n] }
    (fun c s => s.putP c p.toNat fun l => cmpTest k.toNat t.toNat (c.cmpV t.toNat l a.toNat) (cmpImm t.toNat c.hints i)) s0

/-- `scmp`, kind 11: once for the group; the flag goes to every active thread (R105, R107). -/
def execScmp (w : BitVec 1) (k : BitVec 5) (q : BitVec 3) (t : BitVec 3) (a b : BitVec 7) (s0 : State) : Result :=
  let n := cmpRegs t.toNat
  issue { w := flag1 w, regs := [.s a.toNat n n, .s b.toNat n n] }
    (fun c s =>
      let r := cmpTest k.toNat t.toNat (c.cmpS t.toNat a.toNat) (c.cmpS t.toNat b.toNat)
      s.putQ c q.toNat r.1 r.2) s0

end Sys2Proof.Machine
end

