-- ==== Sys2Proof/Machine/Convert.lean ====
section
/-! DEFINITION. Conversions and transcendental functions, class CV (R144 to R153). The rounding direction and the saturation stand in the word. -/

namespace Sys2Proof.Machine

/-- A conversion of one source, of fixed latency (R24). -/
def cvFn (f : Word → Word × Word) (w : BitVec 1) (d a : BitVec 7) (s0 : State) : Result :=
  issue (infoV2 w d a) (fun c s => s.putV c d.toNat fun l => f (c.rv l a.toNat)) s0

/-- A function of one source, of variable latency: its flags are set when it is written (R24, R26). -/
def cvLate (f : Word → Word × Word) (w : BitVec 1) (d a : BitVec 7) (s0 : State) : Result :=
  issue (infoV2 w d a).late (fun c s => s.startV c d.toNat fun l => f (c.rv l a.toNat)) s0

/-- Bits and flags as a word and flags. -/
def wordOf (r : Nat × Word) : Word × Word := (BitVec.ofNat 32 r.1, r.2)

/-- Two BF16 results from two FP32 values (R93, R146). -/
def toBf2 (a b : Word) : Word × Word :=
  let lo := fConv fp32 bf16 .rn a.toNat
  let hi := fConv fp32 bf16 .rn b.toNat
  (pair16 lo.1 hi.1, lo.2 ||| hi.2)

/-- One half of the destination replaced by an FP16 result (R94, R147). -/
def toHalf (high : Bool) (r : Rnd) (sat : Bool) (d a : Word) : Word × Word :=
  let h := fToHalf r sat a.toNat
  (if high then pair16 (bfLo d) h.1 else pair16 h.1 (bfHi d), h.2)

/-- `cvtfi` (R144). -/
def execCvtfi (w : BitVec 1) (d : BitVec 7) (a : BitVec 7) (s : BitVec 1) (r : BitVec 2) (s0 : State) : Result :=
  cvFn (fun x => fToInt true (flag1 s) (Rnd.ofCode r.toNat) x.toNat) w d a s0

/-- `cvtfu` (R144). -/
def execCvtfu (w : BitVec 1) (d : BitVec 7) (a : BitVec 7) (s : BitVec 1) (r : BitVec 2) (s0 : State) : Result :=
  cvFn (fun x => fToInt false (flag1 s) (Rnd.ofCode r.toNat) x.toNat) w d a s0

/-- `cvtif` (R145). -/
def execCvtif (w : BitVec 1) (d : BitVec 7) (a : BitVec 7) (r : BitVec 2) (s0 : State) : Result :=
  cvFn (fun x => wordOf (intToF (Rnd.ofCode r.toNat) x.toInt)) w d a s0

/-- `cvtuf` (R145). -/
def execCvtuf (w : BitVec 1) (d : BitVec 7) (a : BitVec 7) (r : BitVec 2) (s0 : State) : Result :=
  cvFn (fun x => wordOf (intToF (Rnd.ofCode r.toNat) x.toNat)) w d a s0

/-- `cvtbf` (R146). -/
def execCvtbf (w : BitVec 1) (d : BitVec 7) (a : BitVec 7) (c : BitVec 7) (s0 : State) : Result :=
  issue (infoVR w d a c) (fun x s => s.putV x d.toNat fun l => toBf2 (x.rv l a.toNat) (x.rv l c.toNat)) s0

/-- `cvtfbl` (R146). -/
def execCvtfbl (w : BitVec 1) (d : BitVec 7) (a : BitVec 7) (s0 : State) : Result :=
  cvFn (fun x => wordOf (fConv bf16 fp32 .rn (bfLo x))) w d a s0

/-- `cvtfbh` (R146). -/
def execCvtfbh (w : BitVec 1) (d : BitVec 7) (a : BitVec 7) (s0 : State) : Result :=
  cvFn (fun x => wordOf (fConv bf16 fp32 .rn (bfHi x))) w d a s0

/-- `cvthf` (R147). -/
def execCvthf (w : BitVec 1) (d : BitVec 7) (a : BitVec 7) (h : BitVec 1) (s0 : State) : Result :=
  cvFn (fun x => wordOf (fConv fp16 fp32 .rn (if flag1 h then bfHi x else bfLo x))) w d a s0

/-- `cvtfhl` (R147). -/
def execCvtfhl (w : BitVec 1) (d : BitVec 7) (a : BitVec 7) (s : BitVec 1) (r : BitVec 2) (s0 : State) : Result :=
  issue (infoV2 w d a)
    (fun c s1 => s1.putV c d.toNat fun l => toHalf false (Rnd.ofCode r.toNat) (flag1 s) (c.rv l d.toNat) (c.rv l a.toNat)) s0

/-- `cvtfhh` (R147). -/
def execCvtfhh (w : BitVec 1) (d : BitVec 7) (a : BitVec 7) (s : BitVec 1) (r : BitVec 2) (s0 : State) : Result :=
  issue (infoV2 w d a)
    (fun c s1 => s1.putV c d.toNat fun l => toHalf true (Rnd.ofCode r.toNat) (flag1 s) (c.rv l d.toNat) (c.rv l a.toNat)) s0

/-- `rcp` (R149). -/
def execRcp (w : BitVec 1) (d : BitVec 7) (a : BitVec 7) (s0 : State) : Result :=
  cvLate (fun x => wordOf ((fRcp) x)) w d a s0

/-- `rsqrt` (R149). -/
def execRsqrt (w : BitVec 1) (d : BitVec 7) (a : BitVec 7) (s0 : State) : Result :=
  cvLate (fun x => wordOf ((fRsqrt) x)) w d a s0

/-- `sqrt` (R149). -/
def execSqrt (w : BitVec 1) (d : BitVec 7) (a : BitVec 7) (s0 : State) : Result :=
  cvLate (fun x => wordOf ((fun x => fSqrt fp32 x.toNat) x)) w d a s0

/-- `exp2` (R149). -/
def execExp2 (w : BitVec 1) (d : BitVec 7) (a : BitVec 7) (s0 : State) : Result :=
  cvLate (fun x => wordOf ((fExp2) x)) w d a s0

/-- `log2` (R149). -/
def execLog2 (w : BitVec 1) (d : BitVec 7) (a : BitVec 7) (s0 : State) : Result :=
  cvLate (fun x => wordOf ((fLog2) x)) w d a s0

/-- `sinpi` (R149). -/
def execSinpi (w : BitVec 1) (d : BitVec 7) (a : BitVec 7) (s0 : State) : Result :=
  cvLate (fun x => wordOf ((fSinPi) x)) w d a s0

/-- `cospi` (R149). -/
def execCospi (w : BitVec 1) (d : BitVec 7) (a : BitVec 7) (s0 : State) : Result :=
  cvLate (fun x => wordOf ((fCosPi) x)) w d a s0

/-- `tanh` (R149). -/
def execTanh (w : BitVec 1) (d : BitVec 7) (a : BitVec 7) (s0 : State) : Result :=
  cvLate (fun x => wordOf ((fTanh) x)) w d a s0

/-- `frnd` (R152). -/
def execFrnd (w : BitVec 1) (d : BitVec 7) (a : BitVec 7) (r : BitVec 2) (s0 : State) : Result :=
  cvLate (fun x => wordOf (fRoundInt (Rnd.ofCode r.toNat) x.toNat)) w d a s0

end Sys2Proof.Machine
end

