-- ==== Sys2Proof/Machine/Convoy.lean ====
section
/-! DEFINITION. Convoys (R260 to R270, R303 to R306): the three instructions, and the steps of the marshals. -/

namespace Sys2Proof.Machine

/-! ## The marshal -/

/-- The die of a key's marshal: the XOR of its 32 two-bit slices (R261). -/
def marshalDie (key : DWord) : Nat := (List.range 32).foldl (fun d i => d ^^^ (key.toNat / 4 ^ i % 4)) 0

/-- Is a slot of the COUNT still empty (R263)? -/
def Convoy.empty (v : Convoy) : Bool := !v.closed && v.mem.length < v.count

/-- min: the least position over the attached members and the empty slots (R263). None where there are none. -/
def Convoy.min? (v : Convoy) : Option Nat :=
  let ps := (v.mem.filter (·.att)).map (·.pos) ++ (if v.empty then [0] else [])
  match ps with
  | [] => none
  | p :: ps => some (ps.foldl min p)

/-- Is some attached member held at a min (R264)? -/
def Convoy.anyHeld (v : Convoy) (m : Nat) : Bool := v.mem.any fun x => x.att && x.held && m + v.slip ≤ x.pos

/-- Has the straggler timer run out in a tick that is over (R265)? At the tick itself an advance of min would win: an expiry is the end of its
tick, and what reaches the marshal later waits for it (log 68). -/
def Convoy.overdue (v : Convoy) (now : Nat) : Bool := match v.timer with | some e => Nat.blt e now | none => false

/-- Arming the straggler timer at a tick (R265); a convoy with TOUT = 0 has none. -/
def Convoy.arm (v : Convoy) (now : Nat) : Convoy := if v.tout = 0 then v else { v with timer := some (now + v.tout) }

/-- A convoy by its id (R261). -/
def State.convoy? (s : State) (cv : Nat) : Option Convoy := (s.die (cv / 256)).convoys.find? (cv % 256)
/-- Putting it. -/
def State.putConvoy (s : State) (cv : Nat) (v : Convoy) : State :=
  s.updDie (cv / 256) fun D => { D with convoys := D.convoys.put (cv % 256) v }

/-- A message from a convoy's marshal to a group leaves (R264, R439): `within` is the number of ticks in which it arrives, if the manual gives
one. -/
def State.cvReply (s : State) (g cv : Nat) (within : Option Nat) (m : CvMsg) : State :=
  let dst := match s.group? g with | some G => dieOf G.core | none => cv / 256
  { s with cvMsgs := s.cvMsgs ++ [⟨m, within.map (s.now + ·), cv / 256, dst⟩] }

/-- A change of a convoy (R263 to R266, R269): when min has advanced, the new value goes to every attached member and the timer is
disarmed, or armed again while a member is still held; with no attached member and no empty slot the convoy ends. Waits on it are
evaluated (R194). -/
def State.settle (s : State) (cv : Nat) (old : Option Nat) (v : Convoy) : State :=
  match v.min? with
  | none => (s.updDie (cv / 256) fun D => { D with convoys := D.convoys.del (cv % 256) }).wake
  | some m =>
    if old.getD m < m then
      let v : Convoy := { v with timer := none, mem := v.mem.map fun (x : Member) => if x.pos < m + v.slip then { x with held := false } else x }
      let v : Convoy := if v.anyHeld m then v.arm s.now else v
      let s := s.putConvoy cv v
      (v.mem.filter fun (x : Member) => x.att).foldl (fun s (x : Member) => s.cvReply x.guid cv (some 128) (.min_ x.guid cv m)) s |>.wake
    else (s.putConvoy cv v).wake

/-- Changing the member of a group. -/
def Convoy.updMember (v : Convoy) (g : Nat) (f : Member → Member) : Convoy :=
  { v with mem := v.mem.map fun x => if x.guid = g then f x else x }

/-- The lowest convoy of a die with a key. -/
def Die.convoyOf (D : Die) (key : DWord) : Option (Nat × Convoy) := List.find? (fun (x : Nat × Convoy) => x.2.key == key) D.convoys

/-- The descriptor of `cvjoin` (R260): key, slip, count, time-out; none where a field is outside its limits. -/
def cvDesc (d : List Word) : Option (DWord × Nat × Nat × Nat) :=
  match d with
  | [a, b, x, t] =>
    let slip := x.toNat % 256
    let n := x.toNat / 256 % 128
    if x.toNat / 2 ^ 15 = 0 ∧ 1 ≤ slip ∧ 2 ≤ n ∧ n ≤ 64 then some (b ++ a, slip, n, t.toNat) else none
  | _ => none

/-- CVM after an accepted join (R303). -/
def cvAccept (cv idx : Nat) : Cvm := ⟨0, false, false, 0, 1, 0, cv, idx⟩

/-- The marshal handles a join (R262, R303): the answer is the group's new CVM with min. -/
def State.marshalJoin (s : State) (g : Nat) (G : Group) (d : List Word) : State :=
  match cvDesc d with
  | none => s
  | some (key, slip, n, tout) =>
    let die := marshalDie key
    let answer (s : State) (c : Cvm) (m : Nat) : State := s.cvReply g (256 * die) none (.answer g c m)
    let refuse (s : State) (k : Nat) : State := answer s { G.cvm with rej := true, rcode := k } G.minp
    match (s.die die).convoyOf key with
    | none =>
      match (s.die die).convoys.freeFrom 256 0 with
      | none => refuse s 1
      | some k =>
        if k ≥ 256 then refuse s 1
        else answer (s.putConvoy (256 * die + k) ⟨key, slip, n, tout, [⟨g, 0, true, false⟩], false, none⟩)
          (cvAccept (256 * die + k) 0) 0
    | some (k, v) =>
      if v.mem.any (·.guid == g) then refuse s 5
      else if v.closed then refuse s 4
      else if v.slip ≠ slip ∨ v.count ≠ n ∨ v.tout ≠ tout then refuse s 3
      else if v.mem.length ≥ v.count then refuse s 2
      else
        answer (s.putConvoy (256 * die + k) { v with mem := v.mem ++ [⟨g, 0, true, false⟩] })
          (cvAccept (256 * die + k) v.mem.length) (v.min?.getD 0)

/-! ## The instructions -/

/-- `cvjoin` (R260, R303): blocked until the marshal answers; attached, or with a join outstanding, it traps. -/
def execCvjoin (w : BitVec 1) (a : BitVec 10) (s0 : State) : Result :=
  issue (infoS1 w a 4 4).bare.block
    (fun c s =>
      let d := c.rsn a.toNat 4
      if c.G.cvm.state = 1 ∨ c.G.joinDesc.isSome ∨ (cvDesc d).isNone then s.trapAt c 1 8
      else
        let s := s.updGroup c.g fun G => { G with joinDesc := some d }
        (s.cvSend c.G (256 * (match cvDesc d with | some x => marshalDie x.1 | none => 0)) none (.joinReq c.g)).blockPath c .cvjoin) s0

/-- `cvleave`: an attached group detaches with cause leave (R304). -/
def execCvleave (w : BitVec 1) (s0 : State) : Result :=
  issue (infoNone w).bare (fun c s => ((s.detach c.g 3).wake).retire c) s0

/-- The two words of CVM (R270); `cvget` reads HELD as 0 (R305). -/
def Cvm.words (c : Cvm) (held : Bool) : List Word :=
  [BitVec.ofNat 32 (c.pos % 65536 * 65536 + c.id * 64 + c.index),
   BitVec.ofNat 32 (c.rcode * 128 + c.rej.toNat * 64 + held.toNat * 32 + c.cause * 4 + c.state)]

/-- `cvget` (R305). -/
def execCvget (w : BitVec 1) (d : BitVec 10) (s0 : State) : Result :=
  issue (infoS1 w d 2 1).bare.late (fun c s => s.startS c d.toNat (c.G.cvm.words false)) s0

/-! ## The steps of the marshals -/

/-- Whose message it is. -/
def CvMsg.group : CvMsg → Nat
  | .joinReq g => g
  | .answer g _ _ => g
  | .step g _ => g
  | .hold g _ => g
  | .min_ g _ _ => g
  | .leave g _ => g
  | .out g _ _ => g

/-- Is a message one toward the marshal? -/
def CvMsg.up : CvMsg → Bool
  | .joinReq _ => true
  | .step _ _ => true
  | .hold _ _ => true
  | .leave _ _ => true
  | _ => false

/-- Is a message not to arrive before another that was sent earlier: those of one group keep their order, and so do those from one die to
another (R439)? -/
def CvMail.after (x y : CvMail) : Bool :=
  x.msg.up == y.msg.up && (x.msg.group == y.msg.group || (x.src != x.dst && x.src == y.src && x.dst == y.dst))

/-- The next message of a group in a direction, if no earlier one holds it back: the messages before it, itself, and those after it. -/
def nextMail (g : Nat) (up : Bool) (l : List CvMail) : Option (List CvMail × CvMail × List CvMail) :=
  let before := l.takeWhile fun m => !(m.msg.group == g && m.msg.up == up)
  match l.drop before.length with
  | [] => none
  | m :: rest => if before.any m.after then none else some (before, m, rest)

/-- The next message of a group in a direction, and the state without it. -/
def State.nextMsg (s : State) (g : Nat) (up : Bool) : Option (CvMsg × State) :=
  (nextMail g up s.cvMsgs).map fun (xs, m, ys) => (m.msg, { s with cvMsgs := xs ++ ys })

/-- May a marshal take what concerns a convoy: an expiry of its timer that is over comes first (R265)? -/
def State.onTime (s : State) (cv : Nat) : Bool := match s.convoy? cv with | some v => !(v.overdue s.now) | none => true

/-- The convoy of a join's key, if there is one. -/
def State.convoyFor (s : State) (d : List Word) : Option Nat :=
  (cvDesc d).bind fun x => ((s.die (marshalDie x.1)).convoyOf x.1).map fun y => 256 * marshalDie x.1 + y.1

/-- CVJOIN_REQUEST: group `g`'s join reaches the marshal (R262); that of a group that is gone joins nothing. -/
def execCvjoinRequest (g : Nat) (s : State) : Result :=
  eventOf "CVJOIN_REQUEST"
    ((s.nextMsg g true).bind fun (m, t) =>
      match m with
      | .joinReq _ =>
        match (s.group? g).bind fun G => G.joinDesc.map fun d => (G, d) with
        | some (G, d) =>
          if (match t.convoyFor d with | some cv => t.onTime cv | none => true) then some (t.marshalJoin g G d) else none
        | none => some t
      | _ => none)

/-- CVJOIN_ANSWER: the marshal's answer reaches group `g` (R303). In a team that stops for pre-emption the path goes on at the restore
(R418). -/
def execCvjoinAnswer (g : Nat) (s : State) : Result :=
  eventOf "CVJOIN_ANSWER"
    ((s.nextMsg g false).bind fun (m, t) =>
      match m with
      | .answer _ c mn =>
        match s.group? g with
        | none => some t
        | some G =>
          let t := t.updGroup g fun G => { G with cvm := c, minp := mn, joinDesc := none }
          some (match G.blk.find? (·.cond == .cvjoin) with
          | some b =>
            if s.stopping G.team then
              (t.updGroup g fun G => { G with blk := G.blk.map fun k => if k.id = b.id then { k with met := some 0 } else k }).wake
            else (t.unblock g b).wake
          | none => t.wake)
      | _ => none)

/-- CONVOY_STEP_REPORT: a step of group `g` reaches the marshal (R264). -/
def execConvoyStepReport (g : Nat) (s : State) : Result :=
  eventOf "CONVOY_STEP_REPORT"
    ((s.nextMsg g true).bind fun (m, t) =>
      match m with
      | .step _ cv =>
        if !(t.onTime cv) then none
        else some (match t.convoy? cv with
          | some v => t.settle cv v.min? (v.updMember g fun x => { x with pos := x.pos + 1, held := false })
          | none => t)
      | _ => none)

/-- CONVOY_HOLD_REPORT: a hold of group `g` reaches the marshal, which arms a disarmed timer (R264, R265). -/
def execConvoyHoldReport (g : Nat) (s : State) : Result :=
  eventOf "CONVOY_HOLD_REPORT"
    ((s.nextMsg g true).bind fun (m, t) =>
      match m with
      | .hold _ cv =>
        if !(t.onTime cv) then none
        else some (match t.convoy? cv with
          | some v =>
            if v.mem.any fun x => x.guid == g && x.att then
              let v := v.updMember g fun x => { x with held := true }
              t.putConvoy cv (if v.timer.isNone then v.arm t.now else v)
            else t
          | none => t)
      | _ => none)

/-- The time-out of a member reaches its group (R266, R267): CVM takes it unless the group has left meanwhile. The tick of the expiry counts
for what else meets the member in it. -/
def Group.timeOut (G : Group) (cv tick : Nat) : Group :=
  if G.cvm.state = 1 ∧ G.cvm.id = cv then { G with cvm := { G.cvm with state := 2, cause := 1, held := false }, cvAt := tick } else G

/-- CONVOY_MIN_UPDATE: what a marshal has changed reaches group `g`: a new min, under which it is released where the hold test fails (R264),
or its detach by the straggler timer (R266, R303). -/
def execConvoyMinUpdate (g : Nat) (s : State) : Result :=
  eventOf "CONVOY_MIN_UPDATE"
    ((s.nextMsg g false).bind fun (m, t) =>
      match m with
      | .min_ _ cv n =>
        some (t.updGroup g fun G =>
          if G.cvm.state = 1 ∧ G.cvm.id = cv then
            let G := { G with minp := max G.minp n }
            { G with cvm := { G.cvm with held := G.cvm.held && t.holds G } }
          else G)
      | .out _ cv tick => some (t.updGroup g fun G => G.timeOut cv tick).wake
      | _ => none)

/-- CONVOY_LEAVE_REPORT: the marshal learns that group `g` has left (R267, R304). -/
def execConvoyLeaveReport (g : Nat) (s : State) : Result :=
  eventOf "CONVOY_LEAVE_REPORT"
    ((s.nextMsg g true).bind fun (m, t) =>
      match m with
      | .leave _ cv =>
        if !(t.onTime cv) then none
        else some (match t.convoy? cv with
          | some v => t.settle cv v.min? (v.updMember g fun x => { x with att := false, held := false })
          | none => t)
      | _ => none)

/-- The attached member with the lowest position, then the lowest index (R266). -/
def Convoy.straggler (v : Convoy) : Option Member :=
  (v.mem.filter (·.att)).foldl (fun b x => match b with | none => some x | some y => if x.pos < y.pos then some x else b) none

/-- A convoy's timer starts again, at the tick of an expiry, where a member is still held (R266). -/
def State.rearm (s : State) (cv e : Nat) : State :=
  match s.convoy? cv with
  | some u => if u.anyHeld (u.min?.getD 0) then s.putConvoy cv (u.arm e) else s
  | none => s

/-- STRAGGLER_TIMER_EXPIRY: the timer of convoy `cv` has run out at a tick that is over, without an advance of min in it (R265, R266). The
member that is detached hears of it from the marshal, after what the marshal sent before (R303). -/
def execStragglerTimerExpiry (cv : Nat) (s : State) : Result :=
  eventOf "STRAGGLER_TIMER_EXPIRY"
    ((s.convoy? cv).bind fun v => v.timer.bind fun e =>
      if !(v.overdue s.now) then none
      else
        let old := v.min?
        let v := { v with timer := none }
        if v.empty then some ((s.settle cv old { v with closed := true, count := v.mem.length }).rearm cv e)
        else
          v.straggler.map fun x =>
            ((s.cvReply x.guid cv none (.out x.guid cv e)).settle cv old
              (v.updMember x.guid fun y => { y with att := false, held := false })).rearm cv e)

end Sys2Proof.Machine
end

