-- ==== Sys2Proof/WellFormed.lean ====
section
/-! DEFINITION. Which instructions are well formed: the constraints on fields that the opcode table's masks do not carry
(R58 step 4). A word that breaks one is a reserved encoding. An event of the opcode table has no word. -/

namespace Sys2Proof

/-- A compare's condition and type (R61, R108): conditions 0–7, types 0–4, and un and or (6, 7) with f32 (type 2) alone. -/
def cmpOk (c : BitVec 5) (t : BitVec 3) : Bool := c.toNat < 8 && t.toNat < 5 && (c.toNat < 6 || t.toNat == 2)

/-- The format fields of `mret` (R70, R367): fmt 0–2, peb 0–2 and nonzero for fmt 2 alone. For fmt 2, b is no 15 either. -/
def mretOk (t p : BitVec 2) : Bool := t.toNat ≤ 2 && p.toNat ≤ 2 && (p.toNat == 0 || t.toNat == 2)

/-- Is an instruction a legal word of a thread stream or a matrix stream, its registers and hints aside (R58 steps 4 to 8 look at
those)? -/
def Instr.wf : Instr → Bool
  | .addVr _ _ _ _ => true
  | .addVs _ _ _ _ => true
  | .addVi _ _ _ _ => true
  | .subVr _ _ _ _ => true
  | .subVs _ _ _ _ => true
  | .subVi _ _ _ _ => true
  | .mulVr _ _ _ _ => true
  | .mulVs _ _ _ _ => true
  | .mulVi _ _ _ _ => true
  | .mulhiVr _ _ _ _ => true
  | .mulhiVs _ _ _ _ => true
  | .mulhiVi _ _ _ _ => true
  | .mulhuVr _ _ _ _ => true
  | .mulhuVs _ _ _ _ => true
  | .mulhuVi _ _ _ _ => true
  | .madVr _ _ _ _ => true
  | .madVs _ _ _ _ => true
  | .madVi _ _ _ _ => true
  | .andVr _ _ _ _ => true
  | .andVs _ _ _ _ => true
  | .andVi _ _ _ _ => true
  | .orVr _ _ _ _ => true
  | .orVs _ _ _ _ => true
  | .orVi _ _ _ _ => true
  | .xorVr _ _ _ _ => true
  | .xorVs _ _ _ _ => true
  | .xorVi _ _ _ _ => true
  | .andnVr _ _ _ _ => true
  | .andnVs _ _ _ _ => true
  | .andnVi _ _ _ _ => true
  | .shlVr _ _ _ _ => true
  | .shlVs _ _ _ _ => true
  | .shlVi _ _ _ _ => true
  | .shrVr _ _ _ _ => true
  | .shrVs _ _ _ _ => true
  | .shrVi _ _ _ _ => true
  | .sraVr _ _ _ _ => true
  | .sraVs _ _ _ _ => true
  | .sraVi _ _ _ _ => true
  | .srarVr _ _ _ _ => true
  | .srarVs _ _ _ _ => true
  | .srarVi _ _ _ _ => true
  | .minVr _ _ _ _ => true
  | .minVs _ _ _ _ => true
  | .minVi _ _ _ _ => true
  | .maxVr _ _ _ _ => true
  | .maxVs _ _ _ _ => true
  | .maxVi _ _ _ _ => true
  | .minuVr _ _ _ _ => true
  | .minuVs _ _ _ _ => true
  | .minuVi _ _ _ _ => true
  | .maxuVr _ _ _ _ => true
  | .maxuVs _ _ _ _ => true
  | .maxuVi _ _ _ _ => true
  | .addsVr _ _ _ _ => true
  | .addsVs _ _ _ _ => true
  | .addsVi _ _ _ _ => true
  | .subsVr _ _ _ _ => true
  | .subsVs _ _ _ _ => true
  | .subsVi _ _ _ _ => true
  | .bfxVr _ _ _ _ => true
  | .bfxVs _ _ _ _ => true
  | .bfxVi _ _ _ _ => true
  | .bfiVr _ _ _ _ => true
  | .bfiVs _ _ _ _ => true
  | .bfiVi _ _ _ _ => true
  | .popc _ _ _ => true
  | .clz _ _ _ => true
  | .movVr _ _ _ => true
  | .movVs _ _ _ => true
  | .movVi _ _ _ => true
  | .selVr _ _ _ _ => true
  | .selVs _ _ _ _ => true
  | .selVi _ _ _ _ => true
  | .add64Vr _ _ _ _ => true
  | .add64Vs _ _ _ _ => true
  | .sub64Vr _ _ _ _ => true
  | .sub64Vs _ _ _ _ => true
  | .shl64Vr _ _ _ _ => true
  | .shl64Vs _ _ _ _ => true
  | .shl64Vi _ _ _ _ => true
  | .shr64Vr _ _ _ _ => true
  | .shr64Vs _ _ _ _ => true
  | .shr64Vi _ _ _ _ => true
  | .faddVr _ _ _ _ => true
  | .faddVs _ _ _ _ => true
  | .fsubVr _ _ _ _ => true
  | .fsubVs _ _ _ _ => true
  | .fmulVr _ _ _ _ => true
  | .fmulVs _ _ _ _ => true
  | .ffmaVr _ _ _ _ => true
  | .ffmaVs _ _ _ _ => true
  | .fminVr _ _ _ _ => true
  | .fminVs _ _ _ _ => true
  | .fmaxVr _ _ _ _ => true
  | .fmaxVs _ _ _ _ => true
  | .fabs _ _ _ => true
  | .fneg _ _ _ => true
  | .hadd2Vr _ _ _ _ => true
  | .hadd2Vs _ _ _ _ => true
  | .hsub2Vr _ _ _ _ => true
  | .hsub2Vs _ _ _ _ => true
  | .hmul2Vr _ _ _ _ => true
  | .hmul2Vs _ _ _ _ => true
  | .hfma2Vr _ _ _ _ => true
  | .hfma2Vs _ _ _ _ => true
  | .hdot2Vr _ _ _ _ => true
  | .hdot2Vs _ _ _ _ => true
  | .hmax2Vr _ _ _ _ => true
  | .hmax2Vs _ _ _ _ => true
  | .hmin2Vr _ _ _ _ => true
  | .hmin2Vs _ _ _ _ => true
  | .padd2sVr _ _ _ _ => true
  | .padd2sVs _ _ _ _ => true
  | .psub2sVr _ _ _ _ => true
  | .psub2sVs _ _ _ _ => true
  | .pmul2Vr _ _ _ _ => true
  | .pmul2Vs _ _ _ _ => true
  | .pmac2Vr _ _ _ _ => true
  | .pmac2Vs _ _ _ _ => true
  | .pmax2Vr _ _ _ _ => true
  | .pmax2Vs _ _ _ _ => true
  | .pmin2Vr _ _ _ _ => true
  | .pmin2Vs _ _ _ _ => true
  | .psrar2Vr _ _ _ _ => true
  | .psrar2Vs _ _ _ _ => true
  | .pack2sVr _ _ _ _ => true
  | .pack2sVs _ _ _ _ => true
  | .unpklo _ _ _ => true
  | .unpkhi _ _ _ => true
  | .cmpVv _ c _ t _ _ => cmpOk c t
  | .cmpVs _ c _ t _ _ => cmpOk c t
  | .cmpVi _ c _ t _ _ => cmpOk c t
  | .scmp _ c _ t _ _ => cmpOk c t
  | .sadd _ _ _ => true
  | .ssub _ _ _ => true
  | .smul _ _ _ => true
  | .sand _ _ _ => true
  | .sor _ _ _ => true
  | .sxor _ _ _ => true
  | .sshl _ _ _ => true
  | .sshr _ _ _ => true
  | .ssra _ _ _ => true
  | .smin _ _ _ => true
  | .smax _ _ _ => true
  | .sminu _ _ _ => true
  | .smaxu _ _ _ => true
  | .smov _ _ _ => true
  | .sadd64 _ _ _ => true
  | .ssub64 _ _ _ => true
  | .sget _ _ n => decide (n.toNat ≤ 18)
  | .sfromv _ _ _ => true
  | .stov _ _ _ => true
  | .sli _ _ _ => true
  | .saddi _ _ _ => true
  | .sandi _ _ _ => true
  | .sori _ _ _ => true
  | .sxori _ _ _ => true
  | .sshli _ _ _ => true
  | .sshri _ _ _ => true
  | .ssrai _ _ _ => true
  | .smuli _ _ _ => true
  | .sld _ _ _ _ => true
  | .sst _ _ _ _ => true
  | .bbind _ _ _ => true
  | .br _ _ => true
  | .bp _ _ _ => true
  | .bnp _ _ _ => true
  | .bq _ _ _ => true
  | .bnq _ _ _ => true
  | .call _ _ => true
  | .ret _ => true
  | .cvtfi _ _ _ _ _ => true
  | .cvtfu _ _ _ _ _ => true
  | .cvtif _ _ _ _ => true
  | .cvtuf _ _ _ _ => true
  | .cvtbf _ _ _ _ => true
  | .cvtfbl _ _ _ => true
  | .cvtfbh _ _ _ => true
  | .cvthf _ _ _ _ => true
  | .cvtfhl _ _ _ _ _ => true
  | .cvtfhh _ _ _ _ _ => true
  | .rcp _ _ _ => true
  | .rsqrt _ _ _ => true
  | .sqrt _ _ _ => true
  | .exp2 _ _ _ => true
  | .log2 _ _ _ => true
  | .sinpi _ _ _ => true
  | .cospi _ _ _ => true
  | .tanh _ _ _ => true
  | .frnd _ _ _ _ => true
  | .shfl _ _ _ _ => true
  | .shfli _ _ _ _ => true
  | .slup _ _ _ _ _ => true
  | .sldn _ _ _ _ _ => true
  | .bcst _ _ _ _ => true
  | .ballot _ _ _ => true
  | .vany _ _ _ => true
  | .vall _ _ _ => true
  | .radd _ _ _ => true
  | .rfadd _ _ _ => true
  | .rmax _ _ _ => true
  | .rmin _ _ _ => true
  | .scan _ _ _ => true
  | .scanx _ _ _ => true
  | .matchv _ _ _ => true
  | .pand _ _ _ _ => true
  | .por _ _ _ _ => true
  | .pxor _ _ _ _ => true
  | .pnot _ _ _ => true
  | .ptov _ _ _ => true
  | .vtop _ _ _ => true
  | .pebpk _ _ _ f => decide (f.toNat ≤ 2)
  | .pebup _ _ _ f => decide (f.toNat ≤ 2)
  | .mvlk _ _ => true
  | .ldlk _ _ => true
  | .ldb _ _ _ _ _ _ _ _ => true
  | .ldbs _ _ _ _ _ _ _ _ => true
  | .ldh _ _ _ _ _ _ _ _ => true
  | .ldhs _ _ _ _ _ _ _ _ => true
  | .ldw _ _ _ _ _ _ _ _ => true
  | .ldd _ _ _ _ _ _ _ _ => true
  | .ldq _ _ _ _ _ _ _ _ => true
  | .stb _ _ _ _ _ _ => true
  | .sth _ _ _ _ _ _ => true
  | .stw _ _ _ _ _ _ => true
  | .std _ _ _ _ _ _ => true
  | .stq _ _ _ _ _ _ => true
  | .pref _ _ _ _ _ _ => true
  | .aadd _ _ _ _ _ => true
  | .amin _ _ _ _ _ => true
  | .amax _ _ _ _ _ => true
  | .aminu _ _ _ _ _ => true
  | .amaxu _ _ _ _ _ => true
  | .aand _ _ _ _ _ => true
  | .aor _ _ _ _ _ => true
  | .axor _ _ _ _ _ => true
  | .axchg _ _ _ _ _ => true
  | .acas _ _ _ _ _ => true
  | .afadd _ _ _ _ _ => true
  | .amaxpk _ _ _ _ _ => true
  | .ahadd2 _ _ _ _ _ => true
  | .jset _ _ _ => true
  | .jsetAct _ _ => true
  | .jadd _ _ _ => true
  | .jaddAct _ _ => true
  | .jclr _ _ _ => true
  | .jclrAct _ _ => true
  | .join _ _ => true
  | .wait _ _ _ _ _ => true
  | .bara _ _ _ => true
  | .barw _ _ _ => true
  | .barx _ _ _ => true
  | .tgwa _ _ => true
  | .tgwl _ _ => true
  | .tgff _ _ _ => true
  | .tgclr _ _ => true
  | .rbacq _ n => decide (1 ≤ n.toNat ∧ n.toNat ≤ 6)
  | .rbrel _ => true
  | .cvjoin _ _ => true
  | .cvleave _ => true
  | .cvget _ _ => true
  | .fence _ p k => decide (1 ≤ p.toNat ∧ p.toNat ≤ 10 ∧ k.toNat ≤ 2)
  | .exit _ => true
  | .yield _ => true
  | .jri _ _ => true
  | .cpy _ _ => true
  | .cpyg _ _ => true
  | .cpys _ _ => true
  | .cpyf _ _ => true
  | .orsv _ _ _ => true
  | .orel _ _ => true
  | .qclaim _ _ _ => true
  | .qpub _ _ => true
  | .qtake _ _ _ => true
  | .qdone _ _ => true
  | .qstat _ _ _ => true
  | .droOpen _ _ => true
  | .droOpenStatus _ _ _ => true
  | .droSend _ _ => true
  | .droSendStatus _ _ _ => true
  | .droClose _ _ => true
  | .droCloseStatus _ _ _ => true
  | .droMfst _ _ _ => true
  | .droCorr _ _ => true
  | .asyOpen _ _ => true
  | .asyOpenStatus _ _ _ => true
  | .asyPut _ _ => true
  | .asyPutStatus _ _ _ => true
  | .asySeal _ _ => true
  | .asySealStatus _ _ _ => true
  | .asyStat _ _ _ => true
  | .mld _ _ _ => true
  | .mmul _ _ _ _ => true
  | .mmulsm _ _ _ _ => true
  | .mclr _ => true
  | .mbmap _ _ => true
  | .mgrp _ _ _ => true
  | .mret _ t p _ b => mretOk t p && (t.toNat != 2 || b.toNat != 15)
  | .mretColl _ t p _ => mretOk t p
  | .marv _ => true
  | .mwait _ => true
  | .mset _ _ => true
  | .madd _ _ => true
  | .mbnz _ _ => true
  | .mtag _ => true
  | .mend => true
  | .trap _ _ => true
  | .tret _ => true
  | .trep _ _ _ => true
  | .tmask _ _ => true
  | .tcause _ _ => true
  | .segset _ p _ => decide (p.toNat ≤ 5)
  | .segget _ p _ => decide (p.toNat ≤ 5)
  | .icinv _ => true
  | .isync _ => true
  | .tlbinv _ _ => true
  | .pctr _ _ _ => true
  | .clock _ _ => true
  | .cycles _ _ => true
  | .brk _ _ => true
  | .ctxsw _ _ => true
  | .imm _ _ => true
  | .immhi _ _ => true
  | .modh _ _ _ _ _ _ _ _ _ => true
  | .safe _ _ _ _ _ => true
  | .nop _ => true
  | .resultWriteback _ _ => false
  | .handlerEntry _ => false
  | .waitConditionMet _ _ => false
  | .waitTimeout _ _ => false
  | .waitPoll _ _ _ => false
  | .barrierWaitRelease _ _ => false
  | .tagWaitRelease _ _ => false
  | .registerBlockGrant _ _ => false
  | .cvjoinRequest _ => false
  | .cvjoinAnswer _ => false
  | .convoyStepReport _ => false
  | .convoyHoldReport _ => false
  | .convoyMinUpdate _ => false
  | .stragglerTimerExpiry _ => false
  | .convoyLeaveReport _ => false
  | .spoutRequestArrival _ => false
  | .grant _ => false
  | .spoutReplyMulticast _ => false
  | .l1FillArrival _ => false
  | .flush _ _ _ => false
  | .writeArrival _ => false
  | .writeCompletionReturn _ => false
  | .atom _ => false
  | .fenceActionsEnd _ _ => false
  | .peerAccessArrival _ => false
  | .copyChunkRetire _ _ => false
  | .queueCommandServe _ => false
  | .sequencerWaitRelease _ => false
  | .sqDoorbellWrite _ _ _ _ => false
  | .launchAccept => false
  | .teamPlacement => false
  | .backfillTimeout _ => false
  | .launchDeadline _ => false
  | .preemptionRequest _ => false
  | .preemptionTimeout _ => false
  | .contextSave _ => false
  | .teamRestore _ => false
  | .completionRecordWrite _ => false
  | .faultRecordWrite _ => false
  | .faultResponseWrite _ _ _ => false
  | .hostShootdown _ _ _ _ => false
  | .shootdownComplete _ => false
  | .functionEnable _ _ _ => false
  | .functionDisable _ _ _ => false
  | .queueConfigWrite _ _ _ _ => false
  | .stagingAreaSizeWrite _ _ _ => false
  | .powerLimitWrite _ _ => false
  | .attestationRequest _ _ => false
  | .configRegisterWrite _ _ _ _ => false
  | .moduleReplacement _ => false
  | .deviceReset => false
  | .recoveryImageLoad _ _ _ _ _ _ => false
  | .supplySag _ _ => false
  | .supplyRecovery _ _ => false
  | .modulePowerExcess _ => false
  | .arrayEccError _ _ _ _ => false
  | .coreRetirement _ => false
  | .hbmRowRemap _ _ => false
  | .hbmChannelSparing _ _ => false
  | .linkLaneFailure _ => false
  | .flitCrcError _ => false
  | .planeOutOfService _ => false
  | .droChunkArrival _ => false
  | .droPartialArrival _ => false
  | .droNodeDeadline _ _ => false
  | .droResultArrival _ => false
  | .droCorrectionArrival _ => false
  | .droCorrectionWindowClose _ _ => false
  | .droVerdictArrival _ => false
  | .droCorrTimeout _ _ => false
  | .linkRateExchange _ => false
  | .asyBeginMarker _ => false
  | .asyDataPacket _ => false
  | .asyEndMarker _ => false
  | .asyDeadline _ _ => false
  | .asyCorrectionWindowClose _ _ => false
  | .reservedEncoding _ => false
  | .fetchBounds => false
  | .codeFetchFault => false
  | .hostMemoryAccess _ _ _ _ _ => false
  | .partFailure _ => false

end Sys2Proof
end

