-- ==== Sys2Proof/Decode.lean ====
section
/-! DEFINITION. Decoding a 32-bit word (R55 to R75), and encoding an instruction. The decoder is marked noncomputable because the
compiler has no code for a type of more than 244 constructors; the kernel evaluates it. -/

namespace Sys2Proof

/-- The bits of a word from `lo`, `n` of them. -/
def bitsAt (x lo n : Nat) : Nat := x / 2 ^ lo % 2 ^ n

/-- A field of a word. -/
def fieldOf (x lo n : Nat) : BitVec n := BitVec.ofNat n (x / 2 ^ lo)

/-- Class VR (R60). -/
noncomputable def decodeVr (x : Nat) : Option Instr :=
  match bitsAt x 21 6 with
  | 0 => some (.addVr (fieldOf x 31 1) (fieldOf x 14 7) (fieldOf x 7 7) (fieldOf x 0 7))
  | 1 => some (.subVr (fieldOf x 31 1) (fieldOf x 14 7) (fieldOf x 7 7) (fieldOf x 0 7))
  | 2 => some (.mulVr (fieldOf x 31 1) (fieldOf x 14 7) (fieldOf x 7 7) (fieldOf x 0 7))
  | 3 => some (.mulhiVr (fieldOf x 31 1) (fieldOf x 14 7) (fieldOf x 7 7) (fieldOf x 0 7))
  | 4 => some (.mulhuVr (fieldOf x 31 1) (fieldOf x 14 7) (fieldOf x 7 7) (fieldOf x 0 7))
  | 5 => some (.madVr (fieldOf x 31 1) (fieldOf x 14 7) (fieldOf x 7 7) (fieldOf x 0 7))
  | 6 => some (.andVr (fieldOf x 31 1) (fieldOf x 14 7) (fieldOf x 7 7) (fieldOf x 0 7))
  | 7 => some (.orVr (fieldOf x 31 1) (fieldOf x 14 7) (fieldOf x 7 7) (fieldOf x 0 7))
  | 8 => some (.xorVr (fieldOf x 31 1) (fieldOf x 14 7) (fieldOf x 7 7) (fieldOf x 0 7))
  | 9 => some (.andnVr (fieldOf x 31 1) (fieldOf x 14 7) (fieldOf x 7 7) (fieldOf x 0 7))
  | 10 => some (.shlVr (fieldOf x 31 1) (fieldOf x 14 7) (fieldOf x 7 7) (fieldOf x 0 7))
  | 11 => some (.shrVr (fieldOf x 31 1) (fieldOf x 14 7) (fieldOf x 7 7) (fieldOf x 0 7))
  | 12 => some (.sraVr (fieldOf x 31 1) (fieldOf x 14 7) (fieldOf x 7 7) (fieldOf x 0 7))
  | 13 => some (.srarVr (fieldOf x 31 1) (fieldOf x 14 7) (fieldOf x 7 7) (fieldOf x 0 7))
  | 14 => some (.minVr (fieldOf x 31 1) (fieldOf x 14 7) (fieldOf x 7 7) (fieldOf x 0 7))
  | 15 => some (.maxVr (fieldOf x 31 1) (fieldOf x 14 7) (fieldOf x 7 7) (fieldOf x 0 7))
  | 16 => some (.minuVr (fieldOf x 31 1) (fieldOf x 14 7) (fieldOf x 7 7) (fieldOf x 0 7))
  | 17 => some (.maxuVr (fieldOf x 31 1) (fieldOf x 14 7) (fieldOf x 7 7) (fieldOf x 0 7))
  | 18 => some (.addsVr (fieldOf x 31 1) (fieldOf x 14 7) (fieldOf x 7 7) (fieldOf x 0 7))
  | 19 => some (.subsVr (fieldOf x 31 1) (fieldOf x 14 7) (fieldOf x 7 7) (fieldOf x 0 7))
  | 20 => some (.bfxVr (fieldOf x 31 1) (fieldOf x 14 7) (fieldOf x 7 7) (fieldOf x 0 7))
  | 21 => some (.bfiVr (fieldOf x 31 1) (fieldOf x 14 7) (fieldOf x 7 7) (fieldOf x 0 7))
  | 22 => if bitsAt x 0 7 = 0 then some (.popc (fieldOf x 31 1) (fieldOf x 14 7) (fieldOf x 7 7)) else none
  | 23 => if bitsAt x 0 7 = 0 then some (.clz (fieldOf x 31 1) (fieldOf x 14 7) (fieldOf x 7 7)) else none
  | 24 => if bitsAt x 7 7 = 0 then some (.movVr (fieldOf x 31 1) (fieldOf x 14 7) (fieldOf x 0 7)) else none
  | 25 => some (.selVr (fieldOf x 31 1) (fieldOf x 14 7) (fieldOf x 7 7) (fieldOf x 0 7))
  | 26 => some (.add64Vr (fieldOf x 31 1) (fieldOf x 14 7) (fieldOf x 7 7) (fieldOf x 0 7))
  | 27 => some (.sub64Vr (fieldOf x 31 1) (fieldOf x 14 7) (fieldOf x 7 7) (fieldOf x 0 7))
  | 28 => some (.shl64Vr (fieldOf x 31 1) (fieldOf x 14 7) (fieldOf x 7 7) (fieldOf x 0 7))
  | 29 => some (.shr64Vr (fieldOf x 31 1) (fieldOf x 14 7) (fieldOf x 7 7) (fieldOf x 0 7))
  | 32 => some (.faddVr (fieldOf x 31 1) (fieldOf x 14 7) (fieldOf x 7 7) (fieldOf x 0 7))
  | 33 => some (.fsubVr (fieldOf x 31 1) (fieldOf x 14 7) (fieldOf x 7 7) (fieldOf x 0 7))
  | 34 => some (.fmulVr (fieldOf x 31 1) (fieldOf x 14 7) (fieldOf x 7 7) (fieldOf x 0 7))
  | 35 => some (.ffmaVr (fieldOf x 31 1) (fieldOf x 14 7) (fieldOf x 7 7) (fieldOf x 0 7))
  | 36 => some (.fminVr (fieldOf x 31 1) (fieldOf x 14 7) (fieldOf x 7 7) (fieldOf x 0 7))
  | 37 => some (.fmaxVr (fieldOf x 31 1) (fieldOf x 14 7) (fieldOf x 7 7) (fieldOf x 0 7))
  | 38 => if bitsAt x 0 7 = 0 then some (.fabs (fieldOf x 31 1) (fieldOf x 14 7) (fieldOf x 7 7)) else none
  | 39 => if bitsAt x 0 7 = 0 then some (.fneg (fieldOf x 31 1) (fieldOf x 14 7) (fieldOf x 7 7)) else none
  | 40 => some (.hadd2Vr (fieldOf x 31 1) (fieldOf x 14 7) (fieldOf x 7 7) (fieldOf x 0 7))
  | 41 => some (.hsub2Vr (fieldOf x 31 1) (fieldOf x 14 7) (fieldOf x 7 7) (fieldOf x 0 7))
  | 42 => some (.hmul2Vr (fieldOf x 31 1) (fieldOf x 14 7) (fieldOf x 7 7) (fieldOf x 0 7))
  | 43 => some (.hfma2Vr (fieldOf x 31 1) (fieldOf x 14 7) (fieldOf x 7 7) (fieldOf x 0 7))
  | 44 => some (.hdot2Vr (fieldOf x 31 1) (fieldOf x 14 7) (fieldOf x 7 7) (fieldOf x 0 7))
  | 45 => some (.hmax2Vr (fieldOf x 31 1) (fieldOf x 14 7) (fieldOf x 7 7) (fieldOf x 0 7))
  | 46 => some (.hmin2Vr (fieldOf x 31 1) (fieldOf x 14 7) (fieldOf x 7 7) (fieldOf x 0 7))
  | 48 => some (.padd2sVr (fieldOf x 31 1) (fieldOf x 14 7) (fieldOf x 7 7) (fieldOf x 0 7))
  | 49 => some (.psub2sVr (fieldOf x 31 1) (fieldOf x 14 7) (fieldOf x 7 7) (fieldOf x 0 7))
  | 50 => some (.pmul2Vr (fieldOf x 31 1) (fieldOf x 14 7) (fieldOf x 7 7) (fieldOf x 0 7))
  | 51 => some (.pmac2Vr (fieldOf x 31 1) (fieldOf x 14 7) (fieldOf x 7 7) (fieldOf x 0 7))
  | 52 => some (.pmax2Vr (fieldOf x 31 1) (fieldOf x 14 7) (fieldOf x 7 7) (fieldOf x 0 7))
  | 53 => some (.pmin2Vr (fieldOf x 31 1) (fieldOf x 14 7) (fieldOf x 7 7) (fieldOf x 0 7))
  | 54 => some (.psrar2Vr (fieldOf x 31 1) (fieldOf x 14 7) (fieldOf x 7 7) (fieldOf x 0 7))
  | 55 => some (.pack2sVr (fieldOf x 31 1) (fieldOf x 14 7) (fieldOf x 7 7) (fieldOf x 0 7))
  | 56 => if bitsAt x 0 7 = 0 then some (.unpklo (fieldOf x 31 1) (fieldOf x 14 7) (fieldOf x 7 7)) else none
  | 57 => if bitsAt x 0 7 = 0 then some (.unpkhi (fieldOf x 31 1) (fieldOf x 14 7) (fieldOf x 7 7)) else none
  | _ => none

/-- Class VS (R60). -/
noncomputable def decodeVs (x : Nat) : Option Instr :=
  match bitsAt x 21 6 with
  | 0 => some (.addVs (fieldOf x 31 1) (fieldOf x 14 7) (fieldOf x 7 7) (fieldOf x 0 7))
  | 1 => some (.subVs (fieldOf x 31 1) (fieldOf x 14 7) (fieldOf x 7 7) (fieldOf x 0 7))
  | 2 => some (.mulVs (fieldOf x 31 1) (fieldOf x 14 7) (fieldOf x 7 7) (fieldOf x 0 7))
  | 3 => some (.mulhiVs (fieldOf x 31 1) (fieldOf x 14 7) (fieldOf x 7 7) (fieldOf x 0 7))
  | 4 => some (.mulhuVs (fieldOf x 31 1) (fieldOf x 14 7) (fieldOf x 7 7) (fieldOf x 0 7))
  | 5 => some (.madVs (fieldOf x 31 1) (fieldOf x 14 7) (fieldOf x 7 7) (fieldOf x 0 7))
  | 6 => some (.andVs (fieldOf x 31 1) (fieldOf x 14 7) (fieldOf x 7 7) (fieldOf x 0 7))
  | 7 => some (.orVs (fieldOf x 31 1) (fieldOf x 14 7) (fieldOf x 7 7) (fieldOf x 0 7))
  | 8 => some (.xorVs (fieldOf x 31 1) (fieldOf x 14 7) (fieldOf x 7 7) (fieldOf x 0 7))
  | 9 => some (.andnVs (fieldOf x 31 1) (fieldOf x 14 7) (fieldOf x 7 7) (fieldOf x 0 7))
  | 10 => some (.shlVs (fieldOf x 31 1) (fieldOf x 14 7) (fieldOf x 7 7) (fieldOf x 0 7))
  | 11 => some (.shrVs (fieldOf x 31 1) (fieldOf x 14 7) (fieldOf x 7 7) (fieldOf x 0 7))
  | 12 => some (.sraVs (fieldOf x 31 1) (fieldOf x 14 7) (fieldOf x 7 7) (fieldOf x 0 7))
  | 13 => some (.srarVs (fieldOf x 31 1) (fieldOf x 14 7) (fieldOf x 7 7) (fieldOf x 0 7))
  | 14 => some (.minVs (fieldOf x 31 1) (fieldOf x 14 7) (fieldOf x 7 7) (fieldOf x 0 7))
  | 15 => some (.maxVs (fieldOf x 31 1) (fieldOf x 14 7) (fieldOf x 7 7) (fieldOf x 0 7))
  | 16 => some (.minuVs (fieldOf x 31 1) (fieldOf x 14 7) (fieldOf x 7 7) (fieldOf x 0 7))
  | 17 => some (.maxuVs (fieldOf x 31 1) (fieldOf x 14 7) (fieldOf x 7 7) (fieldOf x 0 7))
  | 18 => some (.addsVs (fieldOf x 31 1) (fieldOf x 14 7) (fieldOf x 7 7) (fieldOf x 0 7))
  | 19 => some (.subsVs (fieldOf x 31 1) (fieldOf x 14 7) (fieldOf x 7 7) (fieldOf x 0 7))
  | 20 => some (.bfxVs (fieldOf x 31 1) (fieldOf x 14 7) (fieldOf x 7 7) (fieldOf x 0 7))
  | 21 => some (.bfiVs (fieldOf x 31 1) (fieldOf x 14 7) (fieldOf x 7 7) (fieldOf x 0 7))
  | 24 => if bitsAt x 7 7 = 0 then some (.movVs (fieldOf x 31 1) (fieldOf x 14 7) (fieldOf x 0 7)) else none
  | 25 => some (.selVs (fieldOf x 31 1) (fieldOf x 14 7) (fieldOf x 7 7) (fieldOf x 0 7))
  | 26 => some (.add64Vs (fieldOf x 31 1) (fieldOf x 14 7) (fieldOf x 7 7) (fieldOf x 0 7))
  | 27 => some (.sub64Vs (fieldOf x 31 1) (fieldOf x 14 7) (fieldOf x 7 7) (fieldOf x 0 7))
  | 28 => some (.shl64Vs (fieldOf x 31 1) (fieldOf x 14 7) (fieldOf x 7 7) (fieldOf x 0 7))
  | 29 => some (.shr64Vs (fieldOf x 31 1) (fieldOf x 14 7) (fieldOf x 7 7) (fieldOf x 0 7))
  | 32 => some (.faddVs (fieldOf x 31 1) (fieldOf x 14 7) (fieldOf x 7 7) (fieldOf x 0 7))
  | 33 => some (.fsubVs (fieldOf x 31 1) (fieldOf x 14 7) (fieldOf x 7 7) (fieldOf x 0 7))
  | 34 => some (.fmulVs (fieldOf x 31 1) (fieldOf x 14 7) (fieldOf x 7 7) (fieldOf x 0 7))
  | 35 => some (.ffmaVs (fieldOf x 31 1) (fieldOf x 14 7) (fieldOf x 7 7) (fieldOf x 0 7))
  | 36 => some (.fminVs (fieldOf x 31 1) (fieldOf x 14 7) (fieldOf x 7 7) (fieldOf x 0 7))
  | 37 => some (.fmaxVs (fieldOf x 31 1) (fieldOf x 14 7) (fieldOf x 7 7) (fieldOf x 0 7))
  | 40 => some (.hadd2Vs (fieldOf x 31 1) (fieldOf x 14 7) (fieldOf x 7 7) (fieldOf x 0 7))
  | 41 => some (.hsub2Vs (fieldOf x 31 1) (fieldOf x 14 7) (fieldOf x 7 7) (fieldOf x 0 7))
  | 42 => some (.hmul2Vs (fieldOf x 31 1) (fieldOf x 14 7) (fieldOf x 7 7) (fieldOf x 0 7))
  | 43 => some (.hfma2Vs (fieldOf x 31 1) (fieldOf x 14 7) (fieldOf x 7 7) (fieldOf x 0 7))
  | 44 => some (.hdot2Vs (fieldOf x 31 1) (fieldOf x 14 7) (fieldOf x 7 7) (fieldOf x 0 7))
  | 45 => some (.hmax2Vs (fieldOf x 31 1) (fieldOf x 14 7) (fieldOf x 7 7) (fieldOf x 0 7))
  | 46 => some (.hmin2Vs (fieldOf x 31 1) (fieldOf x 14 7) (fieldOf x 7 7) (fieldOf x 0 7))
  | 48 => some (.padd2sVs (fieldOf x 31 1) (fieldOf x 14 7) (fieldOf x 7 7) (fieldOf x 0 7))
  | 49 => some (.psub2sVs (fieldOf x 31 1) (fieldOf x 14 7) (fieldOf x 7 7) (fieldOf x 0 7))
  | 50 => some (.pmul2Vs (fieldOf x 31 1) (fieldOf x 14 7) (fieldOf x 7 7) (fieldOf x 0 7))
  | 51 => some (.pmac2Vs (fieldOf x 31 1) (fieldOf x 14 7) (fieldOf x 7 7) (fieldOf x 0 7))
  | 52 => some (.pmax2Vs (fieldOf x 31 1) (fieldOf x 14 7) (fieldOf x 7 7) (fieldOf x 0 7))
  | 53 => some (.pmin2Vs (fieldOf x 31 1) (fieldOf x 14 7) (fieldOf x 7 7) (fieldOf x 0 7))
  | 54 => some (.psrar2Vs (fieldOf x 31 1) (fieldOf x 14 7) (fieldOf x 7 7) (fieldOf x 0 7))
  | 55 => some (.pack2sVs (fieldOf x 31 1) (fieldOf x 14 7) (fieldOf x 7 7) (fieldOf x 0 7))
  | _ => none

/-- Class VI (R60). -/
noncomputable def decodeVi (x : Nat) : Option Instr :=
  match bitsAt x 21 6 with
  | 0 => some (.addVi (fieldOf x 31 1) (fieldOf x 14 7) (fieldOf x 7 7) (fieldOf x 0 7))
  | 1 => some (.subVi (fieldOf x 31 1) (fieldOf x 14 7) (fieldOf x 7 7) (fieldOf x 0 7))
  | 2 => some (.mulVi (fieldOf x 31 1) (fieldOf x 14 7) (fieldOf x 7 7) (fieldOf x 0 7))
  | 3 => some (.mulhiVi (fieldOf x 31 1) (fieldOf x 14 7) (fieldOf x 7 7) (fieldOf x 0 7))
  | 4 => some (.mulhuVi (fieldOf x 31 1) (fieldOf x 14 7) (fieldOf x 7 7) (fieldOf x 0 7))
  | 5 => some (.madVi (fieldOf x 31 1) (fieldOf x 14 7) (fieldOf x 7 7) (fieldOf x 0 7))
  | 6 => some (.andVi (fieldOf x 31 1) (fieldOf x 14 7) (fieldOf x 7 7) (fieldOf x 0 7))
  | 7 => some (.orVi (fieldOf x 31 1) (fieldOf x 14 7) (fieldOf x 7 7) (fieldOf x 0 7))
  | 8 => some (.xorVi (fieldOf x 31 1) (fieldOf x 14 7) (fieldOf x 7 7) (fieldOf x 0 7))
  | 9 => some (.andnVi (fieldOf x 31 1) (fieldOf x 14 7) (fieldOf x 7 7) (fieldOf x 0 7))
  | 10 => some (.shlVi (fieldOf x 31 1) (fieldOf x 14 7) (fieldOf x 7 7) (fieldOf x 0 7))
  | 11 => some (.shrVi (fieldOf x 31 1) (fieldOf x 14 7) (fieldOf x 7 7) (fieldOf x 0 7))
  | 12 => some (.sraVi (fieldOf x 31 1) (fieldOf x 14 7) (fieldOf x 7 7) (fieldOf x 0 7))
  | 13 => some (.srarVi (fieldOf x 31 1) (fieldOf x 14 7) (fieldOf x 7 7) (fieldOf x 0 7))
  | 14 => some (.minVi (fieldOf x 31 1) (fieldOf x 14 7) (fieldOf x 7 7) (fieldOf x 0 7))
  | 15 => some (.maxVi (fieldOf x 31 1) (fieldOf x 14 7) (fieldOf x 7 7) (fieldOf x 0 7))
  | 16 => some (.minuVi (fieldOf x 31 1) (fieldOf x 14 7) (fieldOf x 7 7) (fieldOf x 0 7))
  | 17 => some (.maxuVi (fieldOf x 31 1) (fieldOf x 14 7) (fieldOf x 7 7) (fieldOf x 0 7))
  | 18 => some (.addsVi (fieldOf x 31 1) (fieldOf x 14 7) (fieldOf x 7 7) (fieldOf x 0 7))
  | 19 => some (.subsVi (fieldOf x 31 1) (fieldOf x 14 7) (fieldOf x 7 7) (fieldOf x 0 7))
  | 20 => some (.bfxVi (fieldOf x 31 1) (fieldOf x 14 7) (fieldOf x 7 7) (fieldOf x 0 7))
  | 21 => some (.bfiVi (fieldOf x 31 1) (fieldOf x 14 7) (fieldOf x 7 7) (fieldOf x 0 7))
  | 24 => if bitsAt x 7 7 = 0 then some (.movVi (fieldOf x 31 1) (fieldOf x 14 7) (fieldOf x 0 7)) else none
  | 25 => some (.selVi (fieldOf x 31 1) (fieldOf x 14 7) (fieldOf x 7 7) (fieldOf x 0 7))
  | 28 => some (.shl64Vi (fieldOf x 31 1) (fieldOf x 14 7) (fieldOf x 7 7) (fieldOf x 0 7))
  | 29 => some (.shr64Vi (fieldOf x 31 1) (fieldOf x 14 7) (fieldOf x 7 7) (fieldOf x 0 7))
  | _ => none

/-- Class VC (R61). -/
noncomputable def decodeVc (x : Nat) : Option Instr :=
  match bitsAt x 17 2 with
  | 0 => some (.cmpVv (fieldOf x 31 1) (fieldOf x 22 5) (fieldOf x 19 3) (fieldOf x 14 3) (fieldOf x 7 7) (fieldOf x 0 7))
  | 1 => some (.cmpVs (fieldOf x 31 1) (fieldOf x 22 5) (fieldOf x 19 3) (fieldOf x 14 3) (fieldOf x 7 7) (fieldOf x 0 7))
  | 2 => some (.cmpVi (fieldOf x 31 1) (fieldOf x 22 5) (fieldOf x 19 3) (fieldOf x 14 3) (fieldOf x 7 7) (fieldOf x 0 7))
  | _ => some (.scmp (fieldOf x 31 1) (fieldOf x 22 5) (fieldOf x 19 3) (fieldOf x 14 3) (fieldOf x 7 7) (fieldOf x 0 7))

/-- Class SR (R62). -/
noncomputable def decodeSr (x : Nat) : Option Instr :=
  match bitsAt x 21 6 with
  | 0 => if bitsAt x 0 1 = 0 then some (.sadd (fieldOf x 31 1) (fieldOf x 11 10) (fieldOf x 1 10)) else none
  | 1 => if bitsAt x 0 1 = 0 then some (.ssub (fieldOf x 31 1) (fieldOf x 11 10) (fieldOf x 1 10)) else none
  | 2 => if bitsAt x 0 1 = 0 then some (.smul (fieldOf x 31 1) (fieldOf x 11 10) (fieldOf x 1 10)) else none
  | 3 => if bitsAt x 0 1 = 0 then some (.sand (fieldOf x 31 1) (fieldOf x 11 10) (fieldOf x 1 10)) else none
  | 4 => if bitsAt x 0 1 = 0 then some (.sor (fieldOf x 31 1) (fieldOf x 11 10) (fieldOf x 1 10)) else none
  | 5 => if bitsAt x 0 1 = 0 then some (.sxor (fieldOf x 31 1) (fieldOf x 11 10) (fieldOf x 1 10)) else none
  | 6 => if bitsAt x 0 1 = 0 then some (.sshl (fieldOf x 31 1) (fieldOf x 11 10) (fieldOf x 1 10)) else none
  | 7 => if bitsAt x 0 1 = 0 then some (.sshr (fieldOf x 31 1) (fieldOf x 11 10) (fieldOf x 1 10)) else none
  | 8 => if bitsAt x 0 1 = 0 then some (.ssra (fieldOf x 31 1) (fieldOf x 11 10) (fieldOf x 1 10)) else none
  | 9 => if bitsAt x 0 1 = 0 then some (.smin (fieldOf x 31 1) (fieldOf x 11 10) (fieldOf x 1 10)) else none
  | 10 => if bitsAt x 0 1 = 0 then some (.smax (fieldOf x 31 1) (fieldOf x 11 10) (fieldOf x 1 10)) else none
  | 11 => if bitsAt x 0 1 = 0 then some (.sminu (fieldOf x 31 1) (fieldOf x 11 10) (fieldOf x 1 10)) else none
  | 12 => if bitsAt x 0 1 = 0 then some (.smaxu (fieldOf x 31 1) (fieldOf x 11 10) (fieldOf x 1 10)) else none
  | 13 => if bitsAt x 0 1 = 0 then some (.smov (fieldOf x 31 1) (fieldOf x 11 10) (fieldOf x 1 10)) else none
  | 14 => if bitsAt x 0 1 = 0 then some (.sadd64 (fieldOf x 31 1) (fieldOf x 11 10) (fieldOf x 1 10)) else none
  | 15 => if bitsAt x 0 1 = 0 then some (.ssub64 (fieldOf x 31 1) (fieldOf x 11 10) (fieldOf x 1 10)) else none
  | 16 => if bitsAt x 0 1 = 0 then some (.sget (fieldOf x 31 1) (fieldOf x 11 10) (fieldOf x 1 10)) else none
  | 17 => if bitsAt x 0 1 = 0 ∧ bitsAt x 8 3 = 0 then some (.sfromv (fieldOf x 31 1) (fieldOf x 11 10) (fieldOf x 1 7)) else none
  | 18 => if bitsAt x 0 1 = 0 ∧ bitsAt x 18 3 = 0 then some (.stov (fieldOf x 31 1) (fieldOf x 11 7) (fieldOf x 1 10)) else none
  | _ => none

/-- Class SI (R63). -/
noncomputable def decodeSi (x : Nat) : Option Instr :=
  match bitsAt x 22 5 with
  | 0 => some (.sli (fieldOf x 31 1) (fieldOf x 12 10) (fieldOf x 0 12))
  | 1 => some (.saddi (fieldOf x 31 1) (fieldOf x 12 10) (fieldOf x 0 12))
  | 2 => some (.sandi (fieldOf x 31 1) (fieldOf x 12 10) (fieldOf x 0 12))
  | 3 => some (.sori (fieldOf x 31 1) (fieldOf x 12 10) (fieldOf x 0 12))
  | 4 => some (.sxori (fieldOf x 31 1) (fieldOf x 12 10) (fieldOf x 0 12))
  | 5 => if bitsAt x 5 7 = 0 then some (.sshli (fieldOf x 31 1) (fieldOf x 12 10) (fieldOf x 0 5)) else none
  | 6 => if bitsAt x 5 7 = 0 then some (.sshri (fieldOf x 31 1) (fieldOf x 12 10) (fieldOf x 0 5)) else none
  | 7 => if bitsAt x 5 7 = 0 then some (.ssrai (fieldOf x 31 1) (fieldOf x 12 10) (fieldOf x 0 5)) else none
  | 8 => some (.smuli (fieldOf x 31 1) (fieldOf x 12 10) (fieldOf x 0 12))
  | 9 => some (.sld (fieldOf x 31 1) (fieldOf x 12 10) (fieldOf x 8 4) (fieldOf x 0 8))
  | 10 => some (.sst (fieldOf x 31 1) (fieldOf x 12 10) (fieldOf x 8 4) (fieldOf x 0 8))
  | 11 => if bitsAt x 0 8 = 0 then some (.bbind (fieldOf x 31 1) (fieldOf x 12 10) (fieldOf x 8 4)) else none
  | _ => none

/-- Class BR (R55). -/
noncomputable def decodeBr (x : Nat) : Option Instr :=
  match bitsAt x 24 3 with
  | 0 => if bitsAt x 21 3 = 0 then some (.br (fieldOf x 31 1) (fieldOf x 0 21)) else none
  | 1 => some (.bp (fieldOf x 31 1) (fieldOf x 21 3) (fieldOf x 0 21))
  | 2 => some (.bnp (fieldOf x 31 1) (fieldOf x 21 3) (fieldOf x 0 21))
  | 3 => some (.bq (fieldOf x 31 1) (fieldOf x 21 3) (fieldOf x 0 21))
  | 4 => some (.bnq (fieldOf x 31 1) (fieldOf x 21 3) (fieldOf x 0 21))
  | 5 => if bitsAt x 21 3 = 0 then some (.call (fieldOf x 31 1) (fieldOf x 0 21)) else none
  | 6 => if bitsAt x 0 24 = 0 then some (.ret (fieldOf x 31 1)) else none
  | _ => none

/-- Class CV (R64). -/
noncomputable def decodeCv (x : Nat) : Option Instr :=
  match bitsAt x 21 6 with
  | 0 => if bitsAt x 3 4 = 0 then some (.cvtfi (fieldOf x 31 1) (fieldOf x 14 7) (fieldOf x 7 7) (fieldOf x 2 1) (fieldOf x 0 2)) else none
  | 1 => if bitsAt x 3 4 = 0 then some (.cvtfu (fieldOf x 31 1) (fieldOf x 14 7) (fieldOf x 7 7) (fieldOf x 2 1) (fieldOf x 0 2)) else none
  | 2 => if bitsAt x 2 5 = 0 then some (.cvtif (fieldOf x 31 1) (fieldOf x 14 7) (fieldOf x 7 7) (fieldOf x 0 2)) else none
  | 3 => if bitsAt x 2 5 = 0 then some (.cvtuf (fieldOf x 31 1) (fieldOf x 14 7) (fieldOf x 7 7) (fieldOf x 0 2)) else none
  | 4 => some (.cvtbf (fieldOf x 31 1) (fieldOf x 14 7) (fieldOf x 7 7) (fieldOf x 0 7))
  | 5 => if bitsAt x 0 7 = 0 then some (.cvtfbl (fieldOf x 31 1) (fieldOf x 14 7) (fieldOf x 7 7)) else none
  | 6 => if bitsAt x 0 7 = 0 then some (.cvtfbh (fieldOf x 31 1) (fieldOf x 14 7) (fieldOf x 7 7)) else none
  | 7 => if bitsAt x 0 3 = 0 ∧ bitsAt x 4 3 = 0 then some (.cvthf (fieldOf x 31 1) (fieldOf x 14 7) (fieldOf x 7 7) (fieldOf x 3 1)) else none
  | 8 => if bitsAt x 3 4 = 0 then some (.cvtfhl (fieldOf x 31 1) (fieldOf x 14 7) (fieldOf x 7 7) (fieldOf x 2 1) (fieldOf x 0 2)) else none
  | 9 => if bitsAt x 3 4 = 0 then some (.cvtfhh (fieldOf x 31 1) (fieldOf x 14 7) (fieldOf x 7 7) (fieldOf x 2 1) (fieldOf x 0 2)) else none
  | 10 => if bitsAt x 0 7 = 0 then some (.rcp (fieldOf x 31 1) (fieldOf x 14 7) (fieldOf x 7 7)) else none
  | 11 => if bitsAt x 0 7 = 0 then some (.rsqrt (fieldOf x 31 1) (fieldOf x 14 7) (fieldOf x 7 7)) else none
  | 12 => if bitsAt x 0 7 = 0 then some (.sqrt (fieldOf x 31 1) (fieldOf x 14 7) (fieldOf x 7 7)) else none
  | 13 => if bitsAt x 0 7 = 0 then some (.exp2 (fieldOf x 31 1) (fieldOf x 14 7) (fieldOf x 7 7)) else none
  | 14 => if bitsAt x 0 7 = 0 then some (.log2 (fieldOf x 31 1) (fieldOf x 14 7) (fieldOf x 7 7)) else none
  | 15 => if bitsAt x 0 7 = 0 then some (.sinpi (fieldOf x 31 1) (fieldOf x 14 7) (fieldOf x 7 7)) else none
  | 16 => if bitsAt x 0 7 = 0 then some (.cospi (fieldOf x 31 1) (fieldOf x 14 7) (fieldOf x 7 7)) else none
  | 17 => if bitsAt x 0 7 = 0 then some (.tanh (fieldOf x 31 1) (fieldOf x 14 7) (fieldOf x 7 7)) else none
  | 18 => if bitsAt x 2 5 = 0 then some (.frnd (fieldOf x 31 1) (fieldOf x 14 7) (fieldOf x 7 7) (fieldOf x 0 2)) else none
  | _ => none

/-- Class XL (R65). -/
noncomputable def decodeXl (x : Nat) : Option Instr :=
  match bitsAt x 21 6 with
  | 0 => some (.shfl (fieldOf x 31 1) (fieldOf x 14 7) (fieldOf x 7 7) (fieldOf x 0 7))
  | 1 => if bitsAt x 5 2 = 0 then some (.shfli (fieldOf x 31 1) (fieldOf x 14 7) (fieldOf x 7 7) (fieldOf x 0 5)) else none
  | 2 => some (.slup (fieldOf x 31 1) (fieldOf x 14 7) (fieldOf x 7 7) (fieldOf x 2 5) (fieldOf x 0 2))
  | 3 => some (.sldn (fieldOf x 31 1) (fieldOf x 14 7) (fieldOf x 7 7) (fieldOf x 2 5) (fieldOf x 0 2))
  | 4 => if bitsAt x 5 2 = 0 then some (.bcst (fieldOf x 31 1) (fieldOf x 14 7) (fieldOf x 7 7) (fieldOf x 0 5)) else none
  | 5 => if bitsAt x 0 7 = 0 ∧ bitsAt x 10 4 = 0 then some (.ballot (fieldOf x 31 1) (fieldOf x 14 7) (fieldOf x 7 3)) else none
  | 6 => if bitsAt x 0 7 = 0 ∧ bitsAt x 10 4 = 0 ∧ bitsAt x 17 4 = 0 then some (.vany (fieldOf x 31 1) (fieldOf x 14 3) (fieldOf x 7 3)) else none
  | 7 => if bitsAt x 0 7 = 0 ∧ bitsAt x 10 4 = 0 ∧ bitsAt x 17 4 = 0 then some (.vall (fieldOf x 31 1) (fieldOf x 14 3) (fieldOf x 7 3)) else none
  | 8 => if bitsAt x 0 7 = 0 then some (.radd (fieldOf x 31 1) (fieldOf x 14 7) (fieldOf x 7 7)) else none
  | 9 => if bitsAt x 0 7 = 0 then some (.rfadd (fieldOf x 31 1) (fieldOf x 14 7) (fieldOf x 7 7)) else none
  | 10 => if bitsAt x 0 7 = 0 then some (.rmax (fieldOf x 31 1) (fieldOf x 14 7) (fieldOf x 7 7)) else none
  | 11 => if bitsAt x 0 7 = 0 then some (.rmin (fieldOf x 31 1) (fieldOf x 14 7) (fieldOf x 7 7)) else none
  | 12 => if bitsAt x 0 7 = 0 then some (.scan (fieldOf x 31 1) (fieldOf x 14 7) (fieldOf x 7 7)) else none
  | 13 => if bitsAt x 0 7 = 0 then some (.scanx (fieldOf x 31 1) (fieldOf x 14 7) (fieldOf x 7 7)) else none
  | 14 => if bitsAt x 0 7 = 0 then some (.matchv (fieldOf x 31 1) (fieldOf x 14 7) (fieldOf x 7 7)) else none
  | 15 => if bitsAt x 3 4 = 0 ∧ bitsAt x 10 4 = 0 ∧ bitsAt x 17 4 = 0 then some (.pand (fieldOf x 31 1) (fieldOf x 14 3) (fieldOf x 7 3) (fieldOf x 0 3)) else none
  | 16 => if bitsAt x 3 4 = 0 ∧ bitsAt x 10 4 = 0 ∧ bitsAt x 17 4 = 0 then some (.por (fieldOf x 31 1) (fieldOf x 14 3) (fieldOf x 7 3) (fieldOf x 0 3)) else none
  | 17 => if bitsAt x 3 4 = 0 ∧ bitsAt x 10 4 = 0 ∧ bitsAt x 17 4 = 0 then some (.pxor (fieldOf x 31 1) (fieldOf x 14 3) (fieldOf x 7 3) (fieldOf x 0 3)) else none
  | 18 => if bitsAt x 0 7 = 0 ∧ bitsAt x 10 4 = 0 ∧ bitsAt x 17 4 = 0 then some (.pnot (fieldOf x 31 1) (fieldOf x 14 3) (fieldOf x 7 3)) else none
  | 19 => if bitsAt x 0 7 = 0 ∧ bitsAt x 10 4 = 0 then some (.ptov (fieldOf x 31 1) (fieldOf x 14 7) (fieldOf x 7 3)) else none
  | 20 => if bitsAt x 0 7 = 0 ∧ bitsAt x 17 4 = 0 then some (.vtop (fieldOf x 31 1) (fieldOf x 14 3) (fieldOf x 7 7)) else none
  | 21 => if bitsAt x 2 5 = 0 then some (.pebpk (fieldOf x 31 1) (fieldOf x 14 7) (fieldOf x 7 7) (fieldOf x 0 2)) else none
  | 22 => if bitsAt x 2 5 = 0 then some (.pebup (fieldOf x 31 1) (fieldOf x 14 7) (fieldOf x 7 7) (fieldOf x 0 2)) else none
  | 23 => if bitsAt x 0 14 = 0 then some (.mvlk (fieldOf x 31 1) (fieldOf x 14 7)) else none
  | 24 => if bitsAt x 0 7 = 0 ∧ bitsAt x 14 7 = 0 then some (.ldlk (fieldOf x 31 1) (fieldOf x 7 7)) else none
  | _ => none

/-- Class MEM (R55). -/
noncomputable def decodeMem (x : Nat) : Option Instr :=
  match bitsAt x 22 5 with
  | 0 => some (.ldb (fieldOf x 31 1) (fieldOf x 15 7) (fieldOf x 8 7) (fieldOf x 4 4) (fieldOf x 3 1) (fieldOf x 2 1) (fieldOf x 1 1) (fieldOf x 0 1))
  | 1 => some (.ldbs (fieldOf x 31 1) (fieldOf x 15 7) (fieldOf x 8 7) (fieldOf x 4 4) (fieldOf x 3 1) (fieldOf x 2 1) (fieldOf x 1 1) (fieldOf x 0 1))
  | 2 => some (.ldh (fieldOf x 31 1) (fieldOf x 15 7) (fieldOf x 8 7) (fieldOf x 4 4) (fieldOf x 3 1) (fieldOf x 2 1) (fieldOf x 1 1) (fieldOf x 0 1))
  | 3 => some (.ldhs (fieldOf x 31 1) (fieldOf x 15 7) (fieldOf x 8 7) (fieldOf x 4 4) (fieldOf x 3 1) (fieldOf x 2 1) (fieldOf x 1 1) (fieldOf x 0 1))
  | 4 => some (.ldw (fieldOf x 31 1) (fieldOf x 15 7) (fieldOf x 8 7) (fieldOf x 4 4) (fieldOf x 3 1) (fieldOf x 2 1) (fieldOf x 1 1) (fieldOf x 0 1))
  | 5 => some (.ldd (fieldOf x 31 1) (fieldOf x 15 7) (fieldOf x 8 7) (fieldOf x 4 4) (fieldOf x 3 1) (fieldOf x 2 1) (fieldOf x 1 1) (fieldOf x 0 1))
  | 6 => some (.ldq (fieldOf x 31 1) (fieldOf x 15 7) (fieldOf x 8 7) (fieldOf x 4 4) (fieldOf x 3 1) (fieldOf x 2 1) (fieldOf x 1 1) (fieldOf x 0 1))
  | 7 => if bitsAt x 2 2 = 0 then some (.stb (fieldOf x 31 1) (fieldOf x 15 7) (fieldOf x 8 7) (fieldOf x 4 4) (fieldOf x 1 1) (fieldOf x 0 1)) else none
  | 8 => if bitsAt x 2 2 = 0 then some (.sth (fieldOf x 31 1) (fieldOf x 15 7) (fieldOf x 8 7) (fieldOf x 4 4) (fieldOf x 1 1) (fieldOf x 0 1)) else none
  | 9 => if bitsAt x 2 2 = 0 then some (.stw (fieldOf x 31 1) (fieldOf x 15 7) (fieldOf x 8 7) (fieldOf x 4 4) (fieldOf x 1 1) (fieldOf x 0 1)) else none
  | 10 => if bitsAt x 2 2 = 0 then some (.std (fieldOf x 31 1) (fieldOf x 15 7) (fieldOf x 8 7) (fieldOf x 4 4) (fieldOf x 1 1) (fieldOf x 0 1)) else none
  | 11 => if bitsAt x 2 2 = 0 then some (.stq (fieldOf x 31 1) (fieldOf x 15 7) (fieldOf x 8 7) (fieldOf x 4 4) (fieldOf x 1 1) (fieldOf x 0 1)) else none
  | 12 => if bitsAt x 3 1 = 0 ∧ bitsAt x 15 7 = 0 then some (.pref (fieldOf x 31 1) (fieldOf x 8 7) (fieldOf x 4 4) (fieldOf x 2 1) (fieldOf x 1 1) (fieldOf x 0 1)) else none
  | _ => none

/-- Class ATM (R67). -/
noncomputable def decodeAtm (x : Nat) : Option Instr :=
  match bitsAt x 23 4 with
  | 0 => some (.aadd (fieldOf x 31 1) (fieldOf x 21 2) (fieldOf x 14 7) (fieldOf x 7 7) (fieldOf x 0 7))
  | 1 => some (.amin (fieldOf x 31 1) (fieldOf x 21 2) (fieldOf x 14 7) (fieldOf x 7 7) (fieldOf x 0 7))
  | 2 => some (.amax (fieldOf x 31 1) (fieldOf x 21 2) (fieldOf x 14 7) (fieldOf x 7 7) (fieldOf x 0 7))
  | 3 => some (.aminu (fieldOf x 31 1) (fieldOf x 21 2) (fieldOf x 14 7) (fieldOf x 7 7) (fieldOf x 0 7))
  | 4 => some (.amaxu (fieldOf x 31 1) (fieldOf x 21 2) (fieldOf x 14 7) (fieldOf x 7 7) (fieldOf x 0 7))
  | 5 => some (.aand (fieldOf x 31 1) (fieldOf x 21 2) (fieldOf x 14 7) (fieldOf x 7 7) (fieldOf x 0 7))
  | 6 => some (.aor (fieldOf x 31 1) (fieldOf x 21 2) (fieldOf x 14 7) (fieldOf x 7 7) (fieldOf x 0 7))
  | 7 => some (.axor (fieldOf x 31 1) (fieldOf x 21 2) (fieldOf x 14 7) (fieldOf x 7 7) (fieldOf x 0 7))
  | 8 => some (.axchg (fieldOf x 31 1) (fieldOf x 21 2) (fieldOf x 14 7) (fieldOf x 7 7) (fieldOf x 0 7))
  | 9 => some (.acas (fieldOf x 31 1) (fieldOf x 21 2) (fieldOf x 14 7) (fieldOf x 7 7) (fieldOf x 0 7))
  | 10 => some (.afadd (fieldOf x 31 1) (fieldOf x 21 2) (fieldOf x 14 7) (fieldOf x 7 7) (fieldOf x 0 7))
  | 11 => some (.amaxpk (fieldOf x 31 1) (fieldOf x 21 2) (fieldOf x 14 7) (fieldOf x 7 7) (fieldOf x 0 7))
  | 12 => some (.ahadd2 (fieldOf x 31 1) (fieldOf x 21 2) (fieldOf x 14 7) (fieldOf x 7 7) (fieldOf x 0 7))
  | _ => none

/-- Class SY (R68). -/
noncomputable def decodeSy (x : Nat) : Option Instr :=
  match bitsAt x 21 6 with
  | 0 => if bitsAt x 0 8 = 0 then some (.jset (fieldOf x 31 1) (fieldOf x 18 3) (fieldOf x 8 10)) else if bitsAt x 0 18 = 128 then some (.jsetAct (fieldOf x 31 1) (fieldOf x 18 3)) else none
  | 1 => if bitsAt x 0 8 = 0 then some (.jadd (fieldOf x 31 1) (fieldOf x 18 3) (fieldOf x 8 10)) else if bitsAt x 0 18 = 128 then some (.jaddAct (fieldOf x 31 1) (fieldOf x 18 3)) else none
  | 2 => if bitsAt x 0 8 = 0 then some (.jclr (fieldOf x 31 1) (fieldOf x 18 3) (fieldOf x 8 10)) else if bitsAt x 0 18 = 128 then some (.jclrAct (fieldOf x 31 1) (fieldOf x 18 3)) else none
  | 3 => if bitsAt x 0 18 = 0 then some (.join (fieldOf x 31 1) (fieldOf x 18 3)) else none
  | 4 => if bitsAt x 3 1 = 0 then some (.wait (fieldOf x 31 1) (fieldOf x 11 10) (fieldOf x 4 7) (fieldOf x 1 2) (fieldOf x 0 1)) else none
  | 5 => if bitsAt x 0 6 = 0 then some (.bara (fieldOf x 31 1) (fieldOf x 16 5) (fieldOf x 6 10)) else none
  | 6 => if bitsAt x 0 6 = 0 then some (.barw (fieldOf x 31 1) (fieldOf x 16 5) (fieldOf x 6 10)) else none
  | 7 => if bitsAt x 0 6 = 0 then some (.barx (fieldOf x 31 1) (fieldOf x 16 5) (fieldOf x 6 10)) else none
  | 8 => if bitsAt x 0 11 = 0 then some (.tgwa (fieldOf x 31 1) (fieldOf x 11 10)) else none
  | 9 => if bitsAt x 0 11 = 0 then some (.tgwl (fieldOf x 31 1) (fieldOf x 11 10)) else none
  | 10 => if bitsAt x 0 1 = 0 then some (.tgff (fieldOf x 31 1) (fieldOf x 11 10) (fieldOf x 1 10)) else none
  | 11 => if bitsAt x 0 11 = 0 then some (.tgclr (fieldOf x 31 1) (fieldOf x 11 10)) else none
  | 12 => if bitsAt x 0 18 = 0 then some (.rbacq (fieldOf x 31 1) (fieldOf x 18 3)) else none
  | 13 => if bitsAt x 0 21 = 0 then some (.rbrel (fieldOf x 31 1)) else none
  | 14 => if bitsAt x 0 11 = 0 then some (.cvjoin (fieldOf x 31 1) (fieldOf x 11 10)) else none
  | 15 => if bitsAt x 0 21 = 0 then some (.cvleave (fieldOf x 31 1)) else none
  | 16 => if bitsAt x 0 11 = 0 then some (.cvget (fieldOf x 31 1) (fieldOf x 11 10)) else none
  | 17 => if bitsAt x 0 15 = 0 then some (.fence (fieldOf x 31 1) (fieldOf x 17 4) (fieldOf x 15 2)) else none
  | 18 => if bitsAt x 0 21 = 0 then some (.exit (fieldOf x 31 1)) else none
  | 19 => if bitsAt x 0 21 = 0 then some (.yield (fieldOf x 31 1)) else none
  | 20 => if bitsAt x 0 11 = 0 then some (.jri (fieldOf x 31 1) (fieldOf x 11 10)) else none
  | _ => none

/-- Class EN (R69). -/
noncomputable def decodeEn (x : Nat) : Option Instr :=
  match bitsAt x 21 6 with
  | 0 => if bitsAt x 0 11 = 0 then some (.cpy (fieldOf x 31 1) (fieldOf x 11 10)) else none
  | 1 => if bitsAt x 0 11 = 0 then some (.cpyg (fieldOf x 31 1) (fieldOf x 11 10)) else none
  | 2 => if bitsAt x 0 11 = 0 then some (.cpys (fieldOf x 31 1) (fieldOf x 11 10)) else none
  | 3 => if bitsAt x 0 11 = 0 then some (.cpyf (fieldOf x 31 1) (fieldOf x 11 10)) else none
  | 4 => if bitsAt x 0 1 = 0 ∧ bitsAt x 4 7 = 0 then some (.orsv (fieldOf x 31 1) (fieldOf x 11 10) (fieldOf x 1 3)) else none
  | 5 => if bitsAt x 0 1 = 0 ∧ bitsAt x 4 17 = 0 then some (.orel (fieldOf x 31 1) (fieldOf x 1 3)) else none
  | 6 => if bitsAt x 0 1 = 1 then some (.qclaim (fieldOf x 31 1) (fieldOf x 11 10) (fieldOf x 1 10)) else none
  | 7 => if bitsAt x 0 11 = 0 then some (.qpub (fieldOf x 31 1) (fieldOf x 11 10)) else none
  | 8 => if bitsAt x 0 1 = 1 then some (.qtake (fieldOf x 31 1) (fieldOf x 11 10) (fieldOf x 1 10)) else none
  | 9 => if bitsAt x 0 11 = 0 then some (.qdone (fieldOf x 31 1) (fieldOf x 11 10)) else none
  | 10 => if bitsAt x 0 1 = 1 then some (.qstat (fieldOf x 31 1) (fieldOf x 11 10) (fieldOf x 1 10)) else none
  | 11 => if bitsAt x 0 11 = 0 then some (.droOpen (fieldOf x 31 1) (fieldOf x 11 10)) else if bitsAt x 0 1 = 1 then some (.droOpenStatus (fieldOf x 31 1) (fieldOf x 11 10) (fieldOf x 1 10)) else none
  | 12 => if bitsAt x 0 11 = 0 then some (.droSend (fieldOf x 31 1) (fieldOf x 11 10)) else if bitsAt x 0 1 = 1 then some (.droSendStatus (fieldOf x 31 1) (fieldOf x 11 10) (fieldOf x 1 10)) else none
  | 13 => if bitsAt x 0 11 = 0 then some (.droClose (fieldOf x 31 1) (fieldOf x 11 10)) else if bitsAt x 0 1 = 1 then some (.droCloseStatus (fieldOf x 31 1) (fieldOf x 11 10) (fieldOf x 1 10)) else none
  | 14 => if bitsAt x 0 1 = 1 then some (.droMfst (fieldOf x 31 1) (fieldOf x 11 10) (fieldOf x 1 10)) else none
  | 15 => if bitsAt x 0 11 = 0 then some (.droCorr (fieldOf x 31 1) (fieldOf x 11 10)) else none
  | 16 => if bitsAt x 0 11 = 0 then some (.asyOpen (fieldOf x 31 1) (fieldOf x 11 10)) else if bitsAt x 0 1 = 1 then some (.asyOpenStatus (fieldOf x 31 1) (fieldOf x 11 10) (fieldOf x 1 10)) else none
  | 17 => if bitsAt x 0 11 = 0 then some (.asyPut (fieldOf x 31 1) (fieldOf x 11 10)) else if bitsAt x 0 1 = 1 then some (.asyPutStatus (fieldOf x 31 1) (fieldOf x 11 10) (fieldOf x 1 10)) else none
  | 18 => if bitsAt x 0 11 = 0 then some (.asySeal (fieldOf x 31 1) (fieldOf x 11 10)) else if bitsAt x 0 1 = 1 then some (.asySealStatus (fieldOf x 31 1) (fieldOf x 11 10) (fieldOf x 1 10)) else none
  | 19 => if bitsAt x 0 1 = 1 then some (.asyStat (fieldOf x 31 1) (fieldOf x 11 10) (fieldOf x 1 10)) else none
  | _ => none

/-- Class MX (R70). -/
noncomputable def decodeMx (x : Nat) : Option Instr :=
  match bitsAt x 21 6 with
  | 0 => if bitsAt x 0 11 = 0 ∧ bitsAt x 31 1 = 0 then some (.mld (fieldOf x 18 3) (fieldOf x 16 2) (fieldOf x 11 5)) else none
  | 1 => if bitsAt x 0 9 = 0 ∧ bitsAt x 31 1 = 0 then some (.mmul (fieldOf x 18 3) (fieldOf x 15 3) (fieldOf x 10 5) (fieldOf x 9 1)) else none
  | 2 => if bitsAt x 0 9 = 0 ∧ bitsAt x 31 1 = 0 then some (.mmulsm (fieldOf x 18 3) (fieldOf x 15 3) (fieldOf x 10 5) (fieldOf x 9 1)) else none
  | 3 => if bitsAt x 0 18 = 0 ∧ bitsAt x 31 1 = 0 then some (.mclr (fieldOf x 18 3)) else none
  | 4 => if bitsAt x 0 17 = 0 ∧ bitsAt x 31 1 = 0 then some (.mbmap (fieldOf x 18 3) (fieldOf x 17 1)) else none
  | 5 => if bitsAt x 0 10 = 0 ∧ bitsAt x 31 1 = 0 then some (.mgrp (fieldOf x 18 3) (fieldOf x 15 3) (fieldOf x 10 5)) else none
  | 6 => if bitsAt x 0 5 = 0 ∧ bitsAt x 31 1 = 0 then some (.mret (fieldOf x 18 3) (fieldOf x 16 2) (fieldOf x 14 2) (fieldOf x 9 5) (fieldOf x 5 4)) else if bitsAt x 0 9 = 16 ∧ bitsAt x 31 1 = 0 then some (.mretColl (fieldOf x 18 3) (fieldOf x 16 2) (fieldOf x 14 2) (fieldOf x 9 5)) else none
  | 7 => if bitsAt x 0 16 = 0 ∧ bitsAt x 31 1 = 0 then some (.marv (fieldOf x 16 5)) else none
  | 8 => if bitsAt x 0 16 = 0 ∧ bitsAt x 31 1 = 0 then some (.mwait (fieldOf x 16 5)) else none
  | 9 => if bitsAt x 31 1 = 0 then some (.mset (fieldOf x 16 5) (fieldOf x 0 16)) else none
  | 10 => if bitsAt x 31 1 = 0 then some (.madd (fieldOf x 16 5) (fieldOf x 0 16)) else none
  | 11 => if bitsAt x 31 1 = 0 then some (.mbnz (fieldOf x 16 5) (fieldOf x 0 16)) else none
  | 12 => if bitsAt x 0 15 = 0 ∧ bitsAt x 31 1 = 0 then some (.mtag (fieldOf x 15 6)) else none
  | 13 => if bitsAt x 0 21 = 0 ∧ bitsAt x 31 1 = 0 then some (.mend) else none
  | _ => none

/-- Class SYS (R71). -/
noncomputable def decodeSys (x : Nat) : Option Instr :=
  match bitsAt x 21 6 with
  | 0 => if bitsAt x 16 5 = 0 then some (.trap (fieldOf x 31 1) (fieldOf x 0 16)) else none
  | 1 => if bitsAt x 0 21 = 0 then some (.tret (fieldOf x 31 1)) else none
  | 2 => if bitsAt x 0 7 = 0 then some (.trep (fieldOf x 31 1) (fieldOf x 14 7) (fieldOf x 7 7)) else none
  | 3 => if bitsAt x 0 11 = 0 then some (.tmask (fieldOf x 31 1) (fieldOf x 11 10)) else none
  | 4 => if bitsAt x 0 11 = 0 then some (.tcause (fieldOf x 31 1) (fieldOf x 11 10)) else none
  | 5 => if bitsAt x 0 8 = 0 then some (.segset (fieldOf x 31 1) (fieldOf x 18 3) (fieldOf x 8 10)) else none
  | 6 => if bitsAt x 0 8 = 0 then some (.segget (fieldOf x 31 1) (fieldOf x 18 3) (fieldOf x 8 10)) else none
  | 7 => if bitsAt x 0 21 = 0 then some (.icinv (fieldOf x 31 1)) else none
  | 8 => if bitsAt x 0 21 = 0 then some (.isync (fieldOf x 31 1)) else none
  | 9 => if bitsAt x 0 11 = 0 then some (.tlbinv (fieldOf x 31 1) (fieldOf x 11 10)) else none
  | 10 => if bitsAt x 0 1 = 0 then some (.pctr (fieldOf x 31 1) (fieldOf x 11 10) (fieldOf x 1 10)) else none
  | 11 => if bitsAt x 0 11 = 0 then some (.clock (fieldOf x 31 1) (fieldOf x 11 10)) else none
  | 12 => if bitsAt x 0 11 = 0 then some (.cycles (fieldOf x 31 1) (fieldOf x 11 10)) else none
  | 13 => if bitsAt x 16 5 = 0 then some (.brk (fieldOf x 31 1) (fieldOf x 0 16)) else none
  | 14 => if bitsAt x 0 11 = 0 then some (.ctxsw (fieldOf x 31 1) (fieldOf x 11 10)) else none
  | _ => none

/-- Class HINT (R29, R73). -/
noncomputable def decodeHint (x : Nat) : Option Instr :=
  match bitsAt x 24 3 with
  | 0 => some (.imm (fieldOf x 31 1) (fieldOf x 0 24))
  | 1 => if bitsAt x 8 16 = 0 then some (.immhi (fieldOf x 31 1) (fieldOf x 0 8)) else none
  | 2 => if bitsAt x 21 3 = 0 then some (.modh (fieldOf x 31 1) (fieldOf x 20 1) (fieldOf x 19 1) (fieldOf x 12 7) (fieldOf x 9 3) (fieldOf x 7 2) (fieldOf x 6 1) (fieldOf x 4 2) (fieldOf x 0 4)) else none
  | 3 => if bitsAt x 19 5 = 0 then some (.safe (fieldOf x 31 1) (fieldOf x 18 1) (fieldOf x 17 1) (fieldOf x 7 10) (fieldOf x 0 7)) else none
  | 4 => if bitsAt x 0 24 = 0 then some (.nop (fieldOf x 31 1)) else none
  | _ => none

/-- The layout of a word by its class, bits 30:27 (R55). -/
noncomputable def decodeRaw (x : Nat) : Option Instr :=
  match bitsAt x 27 4 with
  | 0 => decodeVr x
  | 1 => decodeVs x
  | 2 => decodeVi x
  | 3 => decodeVc x
  | 4 => decodeSr x
  | 5 => decodeSi x
  | 6 => decodeBr x
  | 7 => decodeCv x
  | 8 => decodeXl x
  | 9 => decodeMem x
  | 10 => decodeAtm x
  | 11 => decodeSy x
  | 12 => decodeEn x
  | 13 => decodeMx x
  | 14 => decodeSys x
  | _ => decodeHint x

/-- The instruction of a word, or none: then the word is a reserved encoding (R58 step 4). -/
noncomputable def decode (x : Nat) : Option Instr :=
  match decodeRaw x with
  | some i => if i.wf then some i else none
  | none => none

/-- A word with fields in 31, 20:14, 13:7, 6:0. -/
def lay0 (m : Nat) (x0 : BitVec 1) (x1 : BitVec 7) (x2 : BitVec 7) (x3 : BitVec 7) : Nat :=
  m + x0.toNat * 2 ^ 31 + x1.toNat * 2 ^ 14 + x2.toNat * 2 ^ 7 + x3.toNat
/-- A word with fields in 31, 20:14, 13:7. -/
def lay1 (m : Nat) (x0 : BitVec 1) (x1 : BitVec 7) (x2 : BitVec 7) : Nat :=
  m + x0.toNat * 2 ^ 31 + x1.toNat * 2 ^ 14 + x2.toNat * 2 ^ 7
/-- A word with fields in 31, 20:14, 6:0. -/
def lay2 (m : Nat) (x0 : BitVec 1) (x1 : BitVec 7) (x2 : BitVec 7) : Nat :=
  m + x0.toNat * 2 ^ 31 + x1.toNat * 2 ^ 14 + x2.toNat
/-- A word with fields in 31, 26:22, 21:19, 16:14, 13:7, 6:0. -/
def lay3 (m : Nat) (x0 : BitVec 1) (x1 : BitVec 5) (x2 : BitVec 3) (x3 : BitVec 3) (x4 : BitVec 7) (x5 : BitVec 7) : Nat :=
  m + x0.toNat * 2 ^ 31 + x1.toNat * 2 ^ 22 + x2.toNat * 2 ^ 19 + x3.toNat * 2 ^ 14 + x4.toNat * 2 ^ 7 + x5.toNat
/-- A word with fields in 31, 20:11, 10:1. -/
def lay4 (m : Nat) (x0 : BitVec 1) (x1 : BitVec 10) (x2 : BitVec 10) : Nat :=
  m + x0.toNat * 2 ^ 31 + x1.toNat * 2 ^ 11 + x2.toNat * 2 ^ 1
/-- A word with fields in 31, 20:11, 7:1. -/
def lay5 (m : Nat) (x0 : BitVec 1) (x1 : BitVec 10) (x2 : BitVec 7) : Nat :=
  m + x0.toNat * 2 ^ 31 + x1.toNat * 2 ^ 11 + x2.toNat * 2 ^ 1
/-- A word with fields in 31, 17:11, 10:1. -/
def lay6 (m : Nat) (x0 : BitVec 1) (x1 : BitVec 7) (x2 : BitVec 10) : Nat :=
  m + x0.toNat * 2 ^ 31 + x1.toNat * 2 ^ 11 + x2.toNat * 2 ^ 1
/-- A word with fields in 31, 21:12, 11:0. -/
def lay7 (m : Nat) (x0 : BitVec 1) (x1 : BitVec 10) (x2 : BitVec 12) : Nat :=
  m + x0.toNat * 2 ^ 31 + x1.toNat * 2 ^ 12 + x2.toNat
/-- A word with fields in 31, 21:12, 4:0. -/
def lay8 (m : Nat) (x0 : BitVec 1) (x1 : BitVec 10) (x2 : BitVec 5) : Nat :=
  m + x0.toNat * 2 ^ 31 + x1.toNat * 2 ^ 12 + x2.toNat
/-- A word with fields in 31, 21:12, 11:8, 7:0. -/
def lay9 (m : Nat) (x0 : BitVec 1) (x1 : BitVec 10) (x2 : BitVec 4) (x3 : BitVec 8) : Nat :=
  m + x0.toNat * 2 ^ 31 + x1.toNat * 2 ^ 12 + x2.toNat * 2 ^ 8 + x3.toNat
/-- A word with fields in 31, 21:12, 11:8. -/
def lay10 (m : Nat) (x0 : BitVec 1) (x1 : BitVec 10) (x2 : BitVec 4) : Nat :=
  m + x0.toNat * 2 ^ 31 + x1.toNat * 2 ^ 12 + x2.toNat * 2 ^ 8
/-- A word with fields in 31, 20:0. -/
def lay11 (m : Nat) (x0 : BitVec 1) (x1 : BitVec 21) : Nat :=
  m + x0.toNat * 2 ^ 31 + x1.toNat
/-- A word with fields in 31, 23:21, 20:0. -/
def lay12 (m : Nat) (x0 : BitVec 1) (x1 : BitVec 3) (x2 : BitVec 21) : Nat :=
  m + x0.toNat * 2 ^ 31 + x1.toNat * 2 ^ 21 + x2.toNat
/-- A word with fields in 31. -/
def lay13 (m : Nat) (x0 : BitVec 1) : Nat :=
  m + x0.toNat * 2 ^ 31
/-- A word with fields in 31, 20:14, 13:7, 2, 1:0. -/
def lay14 (m : Nat) (x0 : BitVec 1) (x1 : BitVec 7) (x2 : BitVec 7) (x3 : BitVec 1) (x4 : BitVec 2) : Nat :=
  m + x0.toNat * 2 ^ 31 + x1.toNat * 2 ^ 14 + x2.toNat * 2 ^ 7 + x3.toNat * 2 ^ 2 + x4.toNat
/-- A word with fields in 31, 20:14, 13:7, 1:0. -/
def lay15 (m : Nat) (x0 : BitVec 1) (x1 : BitVec 7) (x2 : BitVec 7) (x3 : BitVec 2) : Nat :=
  m + x0.toNat * 2 ^ 31 + x1.toNat * 2 ^ 14 + x2.toNat * 2 ^ 7 + x3.toNat
/-- A word with fields in 31, 20:14, 13:7, 3. -/
def lay16 (m : Nat) (x0 : BitVec 1) (x1 : BitVec 7) (x2 : BitVec 7) (x3 : BitVec 1) : Nat :=
  m + x0.toNat * 2 ^ 31 + x1.toNat * 2 ^ 14 + x2.toNat * 2 ^ 7 + x3.toNat * 2 ^ 3
/-- A word with fields in 31, 20:14, 13:7, 4:0. -/
def lay17 (m : Nat) (x0 : BitVec 1) (x1 : BitVec 7) (x2 : BitVec 7) (x3 : BitVec 5) : Nat :=
  m + x0.toNat * 2 ^ 31 + x1.toNat * 2 ^ 14 + x2.toNat * 2 ^ 7 + x3.toNat
/-- A word with fields in 31, 20:14, 13:7, 6:2, 1:0. -/
def lay18 (m : Nat) (x0 : BitVec 1) (x1 : BitVec 7) (x2 : BitVec 7) (x3 : BitVec 5) (x4 : BitVec 2) : Nat :=
  m + x0.toNat * 2 ^ 31 + x1.toNat * 2 ^ 14 + x2.toNat * 2 ^ 7 + x3.toNat * 2 ^ 2 + x4.toNat
/-- A word with fields in 31, 20:14, 9:7. -/
def lay19 (m : Nat) (x0 : BitVec 1) (x1 : BitVec 7) (x2 : BitVec 3) : Nat :=
  m + x0.toNat * 2 ^ 31 + x1.toNat * 2 ^ 14 + x2.toNat * 2 ^ 7
/-- A word with fields in 31, 16:14, 9:7. -/
def lay20 (m : Nat) (x0 : BitVec 1) (x1 : BitVec 3) (x2 : BitVec 3) : Nat :=
  m + x0.toNat * 2 ^ 31 + x1.toNat * 2 ^ 14 + x2.toNat * 2 ^ 7
/-- A word with fields in 31, 16:14, 9:7, 2:0. -/
def lay21 (m : Nat) (x0 : BitVec 1) (x1 : BitVec 3) (x2 : BitVec 3) (x3 : BitVec 3) : Nat :=
  m + x0.toNat * 2 ^ 31 + x1.toNat * 2 ^ 14 + x2.toNat * 2 ^ 7 + x3.toNat
/-- A word with fields in 31, 16:14, 13:7. -/
def lay22 (m : Nat) (x0 : BitVec 1) (x1 : BitVec 3) (x2 : BitVec 7) : Nat :=
  m + x0.toNat * 2 ^ 31 + x1.toNat * 2 ^ 14 + x2.toNat * 2 ^ 7
/-- A word with fields in 31, 20:14. -/
def lay23 (m : Nat) (x0 : BitVec 1) (x1 : BitVec 7) : Nat :=
  m + x0.toNat * 2 ^ 31 + x1.toNat * 2 ^ 14
/-- A word with fields in 31, 13:7. -/
def lay24 (m : Nat) (x0 : BitVec 1) (x1 : BitVec 7) : Nat :=
  m + x0.toNat * 2 ^ 31 + x1.toNat * 2 ^ 7
/-- A word with fields in 31, 21:15, 14:8, 7:4, 3, 2, 1, 0. -/
def lay25 (m : Nat) (x0 : BitVec 1) (x1 : BitVec 7) (x2 : BitVec 7) (x3 : BitVec 4) (x4 : BitVec 1) (x5 : BitVec 1) (x6 : BitVec 1) (x7 : BitVec 1) : Nat :=
  m + x0.toNat * 2 ^ 31 + x1.toNat * 2 ^ 15 + x2.toNat * 2 ^ 8 + x3.toNat * 2 ^ 4 + x4.toNat * 2 ^ 3 + x5.toNat * 2 ^ 2 + x6.toNat * 2 ^ 1 + x7.toNat
/-- A word with fields in 31, 21:15, 14:8, 7:4, 1, 0. -/
def lay26 (m : Nat) (x0 : BitVec 1) (x1 : BitVec 7) (x2 : BitVec 7) (x3 : BitVec 4) (x4 : BitVec 1) (x5 : BitVec 1) : Nat :=
  m + x0.toNat * 2 ^ 31 + x1.toNat * 2 ^ 15 + x2.toNat * 2 ^ 8 + x3.toNat * 2 ^ 4 + x4.toNat * 2 ^ 1 + x5.toNat
/-- A word with fields in 31, 14:8, 7:4, 2, 1, 0. -/
def lay27 (m : Nat) (x0 : BitVec 1) (x1 : BitVec 7) (x2 : BitVec 4) (x3 : BitVec 1) (x4 : BitVec 1) (x5 : BitVec 1) : Nat :=
  m + x0.toNat * 2 ^ 31 + x1.toNat * 2 ^ 8 + x2.toNat * 2 ^ 4 + x3.toNat * 2 ^ 2 + x4.toNat * 2 ^ 1 + x5.toNat
/-- A word with fields in 31, 22:21, 20:14, 13:7, 6:0. -/
def lay28 (m : Nat) (x0 : BitVec 1) (x1 : BitVec 2) (x2 : BitVec 7) (x3 : BitVec 7) (x4 : BitVec 7) : Nat :=
  m + x0.toNat * 2 ^ 31 + x1.toNat * 2 ^ 21 + x2.toNat * 2 ^ 14 + x3.toNat * 2 ^ 7 + x4.toNat
/-- A word with fields in 31, 20:18, 17:8. -/
def lay29 (m : Nat) (x0 : BitVec 1) (x1 : BitVec 3) (x2 : BitVec 10) : Nat :=
  m + x0.toNat * 2 ^ 31 + x1.toNat * 2 ^ 18 + x2.toNat * 2 ^ 8
/-- A word with fields in 31, 20:18. -/
def lay30 (m : Nat) (x0 : BitVec 1) (x1 : BitVec 3) : Nat :=
  m + x0.toNat * 2 ^ 31 + x1.toNat * 2 ^ 18
/-- A word with fields in 31, 20:11, 10:4, 2:1, 0. -/
def lay31 (m : Nat) (x0 : BitVec 1) (x1 : BitVec 10) (x2 : BitVec 7) (x3 : BitVec 2) (x4 : BitVec 1) : Nat :=
  m + x0.toNat * 2 ^ 31 + x1.toNat * 2 ^ 11 + x2.toNat * 2 ^ 4 + x3.toNat * 2 ^ 1 + x4.toNat
/-- A word with fields in 31, 20:16, 15:6. -/
def lay32 (m : Nat) (x0 : BitVec 1) (x1 : BitVec 5) (x2 : BitVec 10) : Nat :=
  m + x0.toNat * 2 ^ 31 + x1.toNat * 2 ^ 16 + x2.toNat * 2 ^ 6
/-- A word with fields in 31, 20:11. -/
def lay33 (m : Nat) (x0 : BitVec 1) (x1 : BitVec 10) : Nat :=
  m + x0.toNat * 2 ^ 31 + x1.toNat * 2 ^ 11
/-- A word with fields in 31, 20:17, 16:15. -/
def lay34 (m : Nat) (x0 : BitVec 1) (x1 : BitVec 4) (x2 : BitVec 2) : Nat :=
  m + x0.toNat * 2 ^ 31 + x1.toNat * 2 ^ 17 + x2.toNat * 2 ^ 15
/-- A word with fields in 31, 20:11, 3:1. -/
def lay35 (m : Nat) (x0 : BitVec 1) (x1 : BitVec 10) (x2 : BitVec 3) : Nat :=
  m + x0.toNat * 2 ^ 31 + x1.toNat * 2 ^ 11 + x2.toNat * 2 ^ 1
/-- A word with fields in 31, 3:1. -/
def lay36 (m : Nat) (x0 : BitVec 1) (x1 : BitVec 3) : Nat :=
  m + x0.toNat * 2 ^ 31 + x1.toNat * 2 ^ 1
/-- A word with fields in 20:18, 17:16, 15:11. -/
def lay37 (m : Nat) (x0 : BitVec 3) (x1 : BitVec 2) (x2 : BitVec 5) : Nat :=
  m + x0.toNat * 2 ^ 18 + x1.toNat * 2 ^ 16 + x2.toNat * 2 ^ 11
/-- A word with fields in 20:18, 17:15, 14:10, 9. -/
def lay38 (m : Nat) (x0 : BitVec 3) (x1 : BitVec 3) (x2 : BitVec 5) (x3 : BitVec 1) : Nat :=
  m + x0.toNat * 2 ^ 18 + x1.toNat * 2 ^ 15 + x2.toNat * 2 ^ 10 + x3.toNat * 2 ^ 9
/-- A word with fields in 20:18. -/
def lay39 (m : Nat) (x0 : BitVec 3) : Nat :=
  m + x0.toNat * 2 ^ 18
/-- A word with fields in 20:18, 17. -/
def lay40 (m : Nat) (x0 : BitVec 3) (x1 : BitVec 1) : Nat :=
  m + x0.toNat * 2 ^ 18 + x1.toNat * 2 ^ 17
/-- A word with fields in 20:18, 17:15, 14:10. -/
def lay41 (m : Nat) (x0 : BitVec 3) (x1 : BitVec 3) (x2 : BitVec 5) : Nat :=
  m + x0.toNat * 2 ^ 18 + x1.toNat * 2 ^ 15 + x2.toNat * 2 ^ 10
/-- A word with fields in 20:18, 17:16, 15:14, 13:9, 8:5. -/
def lay42 (m : Nat) (x0 : BitVec 3) (x1 : BitVec 2) (x2 : BitVec 2) (x3 : BitVec 5) (x4 : BitVec 4) : Nat :=
  m + x0.toNat * 2 ^ 18 + x1.toNat * 2 ^ 16 + x2.toNat * 2 ^ 14 + x3.toNat * 2 ^ 9 + x4.toNat * 2 ^ 5
/-- A word with fields in 20:18, 17:16, 15:14, 13:9. -/
def lay43 (m : Nat) (x0 : BitVec 3) (x1 : BitVec 2) (x2 : BitVec 2) (x3 : BitVec 5) : Nat :=
  m + x0.toNat * 2 ^ 18 + x1.toNat * 2 ^ 16 + x2.toNat * 2 ^ 14 + x3.toNat * 2 ^ 9
/-- A word with fields in 20:16. -/
def lay44 (m : Nat) (x0 : BitVec 5) : Nat :=
  m + x0.toNat * 2 ^ 16
/-- A word with fields in 20:16, 15:0. -/
def lay45 (m : Nat) (x0 : BitVec 5) (x1 : BitVec 16) : Nat :=
  m + x0.toNat * 2 ^ 16 + x1.toNat
/-- A word with fields in 20:15. -/
def lay46 (m : Nat) (x0 : BitVec 6) : Nat :=
  m + x0.toNat * 2 ^ 15
/-- A word with fields in 31, 15:0. -/
def lay48 (m : Nat) (x0 : BitVec 1) (x1 : BitVec 16) : Nat :=
  m + x0.toNat * 2 ^ 31 + x1.toNat
/-- A word with fields in 31, 23:0. -/
def lay49 (m : Nat) (x0 : BitVec 1) (x1 : BitVec 24) : Nat :=
  m + x0.toNat * 2 ^ 31 + x1.toNat
/-- A word with fields in 31, 7:0. -/
def lay50 (m : Nat) (x0 : BitVec 1) (x1 : BitVec 8) : Nat :=
  m + x0.toNat * 2 ^ 31 + x1.toNat
/-- A word with fields in 31, 20, 19, 18:12, 11:9, 8:7, 6, 5:4, 3:0. -/
def lay51 (m : Nat) (x0 : BitVec 1) (x1 : BitVec 1) (x2 : BitVec 1) (x3 : BitVec 7) (x4 : BitVec 3) (x5 : BitVec 2) (x6 : BitVec 1) (x7 : BitVec 2) (x8 : BitVec 4) : Nat :=
  m + x0.toNat * 2 ^ 31 + x1.toNat * 2 ^ 20 + x2.toNat * 2 ^ 19 + x3.toNat * 2 ^ 12 + x4.toNat * 2 ^ 9 + x5.toNat * 2 ^ 7 + x6.toNat * 2 ^ 6 + x7.toNat * 2 ^ 4 + x8.toNat
/-- A word with fields in 31, 18, 17, 16:7, 6:0. -/
def lay52 (m : Nat) (x0 : BitVec 1) (x1 : BitVec 1) (x2 : BitVec 1) (x3 : BitVec 10) (x4 : BitVec 7) : Nat :=
  m + x0.toNat * 2 ^ 31 + x1.toNat * 2 ^ 18 + x2.toNat * 2 ^ 17 + x3.toNat * 2 ^ 7 + x4.toNat

/-- The word of an instruction, from the encoding tables (R55 to R73). An event has no word; 0 stands for it. -/
def encode : Instr → Nat
  | .addVr w d a b => lay0 0x00000000 w d a b
  | .addVs w d a s => lay0 0x08000000 w d a s
  | .addVi w d a i => lay0 0x10000000 w d a i
  | .subVr w d a b => lay0 0x00200000 w d a b
  | .subVs w d a s => lay0 0x08200000 w d a s
  | .subVi w d a i => lay0 0x10200000 w d a i
  | .mulVr w d a b => lay0 0x00400000 w d a b
  | .mulVs w d a s => lay0 0x08400000 w d a s
  | .mulVi w d a i => lay0 0x10400000 w d a i
  | .mulhiVr w d a b => lay0 0x00600000 w d a b
  | .mulhiVs w d a s => lay0 0x08600000 w d a s
  | .mulhiVi w d a i => lay0 0x10600000 w d a i
  | .mulhuVr w d a b => lay0 0x00800000 w d a b
  | .mulhuVs w d a s => lay0 0x08800000 w d a s
  | .mulhuVi w d a i => lay0 0x10800000 w d a i
  | .madVr w d a b => lay0 0x00A00000 w d a b
  | .madVs w d a s => lay0 0x08A00000 w d a s
  | .madVi w d a i => lay0 0x10A00000 w d a i
  | .andVr w d a b => lay0 0x00C00000 w d a b
  | .andVs w d a s => lay0 0x08C00000 w d a s
  | .andVi w d a i => lay0 0x10C00000 w d a i
  | .orVr w d a b => lay0 0x00E00000 w d a b
  | .orVs w d a s => lay0 0x08E00000 w d a s
  | .orVi w d a i => lay0 0x10E00000 w d a i
  | .xorVr w d a b => lay0 0x01000000 w d a b
  | .xorVs w d a s => lay0 0x09000000 w d a s
  | .xorVi w d a i => lay0 0x11000000 w d a i
  | .andnVr w d a b => lay0 0x01200000 w d a b
  | .andnVs w d a s => lay0 0x09200000 w d a s
  | .andnVi w d a i => lay0 0x11200000 w d a i
  | .shlVr w d a b => lay0 0x01400000 w d a b
  | .shlVs w d a s => lay0 0x09400000 w d a s
  | .shlVi w d a i => lay0 0x11400000 w d a i
  | .shrVr w d a b => lay0 0x01600000 w d a b
  | .shrVs w d a s => lay0 0x09600000 w d a s
  | .shrVi w d a i => lay0 0x11600000 w d a i
  | .sraVr w d a b => lay0 0x01800000 w d a b
  | .sraVs w d a s => lay0 0x09800000 w d a s
  | .sraVi w d a i => lay0 0x11800000 w d a i
  | .srarVr w d a b => lay0 0x01A00000 w d a b
  | .srarVs w d a s => lay0 0x09A00000 w d a s
  | .srarVi w d a i => lay0 0x11A00000 w d a i
  | .minVr w d a b => lay0 0x01C00000 w d a b
  | .minVs w d a s => lay0 0x09C00000 w d a s
  | .minVi w d a i => lay0 0x11C00000 w d a i
  | .maxVr w d a b => lay0 0x01E00000 w d a b
  | .maxVs w d a s => lay0 0x09E00000 w d a s
  | .maxVi w d a i => lay0 0x11E00000 w d a i
  | .minuVr w d a b => lay0 0x02000000 w d a b
  | .minuVs w d a s => lay0 0x0A000000 w d a s
  | .minuVi w d a i => lay0 0x12000000 w d a i
  | .maxuVr w d a b => lay0 0x02200000 w d a b
  | .maxuVs w d a s => lay0 0x0A200000 w d a s
  | .maxuVi w d a i => lay0 0x12200000 w d a i
  | .addsVr w d a b => lay0 0x02400000 w d a b
  | .addsVs w d a s => lay0 0x0A400000 w d a s
  | .addsVi w d a i => lay0 0x12400000 w d a i
  | .subsVr w d a b => lay0 0x02600000 w d a b
  | .subsVs w d a s => lay0 0x0A600000 w d a s
  | .subsVi w d a i => lay0 0x12600000 w d a i
  | .bfxVr w d a b => lay0 0x02800000 w d a b
  | .bfxVs w d a s => lay0 0x0A800000 w d a s
  | .bfxVi w d a i => lay0 0x12800000 w d a i
  | .bfiVr w d a b => lay0 0x02A00000 w d a b
  | .bfiVs w d a s => lay0 0x0AA00000 w d a s
  | .bfiVi w d a i => lay0 0x12A00000 w d a i
  | .popc w d a => lay1 0x02C00000 w d a
  | .clz w d a => lay1 0x02E00000 w d a
  | .movVr w d b => lay2 0x03000000 w d b
  | .movVs w d s => lay2 0x0B000000 w d s
  | .movVi w d i => lay2 0x13000000 w d i
  | .selVr w d a b => lay0 0x03200000 w d a b
  | .selVs w d a s => lay0 0x0B200000 w d a s
  | .selVi w d a i => lay0 0x13200000 w d a i
  | .add64Vr w d a b => lay0 0x03400000 w d a b
  | .add64Vs w d a s => lay0 0x0B400000 w d a s
  | .sub64Vr w d a b => lay0 0x03600000 w d a b
  | .sub64Vs w d a s => lay0 0x0B600000 w d a s
  | .shl64Vr w d a b => lay0 0x03800000 w d a b
  | .shl64Vs w d a s => lay0 0x0B800000 w d a s
  | .shl64Vi w d a i => lay0 0x13800000 w d a i
  | .shr64Vr w d a b => lay0 0x03A00000 w d a b
  | .shr64Vs w d a s => lay0 0x0BA00000 w d a s
  | .shr64Vi w d a i => lay0 0x13A00000 w d a i
  | .faddVr w d a b => lay0 0x04000000 w d a b
  | .faddVs w d a s => lay0 0x0C000000 w d a s
  | .fsubVr w d a b => lay0 0x04200000 w d a b
  | .fsubVs w d a s => lay0 0x0C200000 w d a s
  | .fmulVr w d a b => lay0 0x04400000 w d a b
  | .fmulVs w d a s => lay0 0x0C400000 w d a s
  | .ffmaVr w d a b => lay0 0x04600000 w d a b
  | .ffmaVs w d a s => lay0 0x0C600000 w d a s
  | .fminVr w d a b => lay0 0x04800000 w d a b
  | .fminVs w d a s => lay0 0x0C800000 w d a s
  | .fmaxVr w d a b => lay0 0x04A00000 w d a b
  | .fmaxVs w d a s => lay0 0x0CA00000 w d a s
  | .fabs w d a => lay1 0x04C00000 w d a
  | .fneg w d a => lay1 0x04E00000 w d a
  | .hadd2Vr w d a b => lay0 0x05000000 w d a b
  | .hadd2Vs w d a s => lay0 0x0D000000 w d a s
  | .hsub2Vr w d a b => lay0 0x05200000 w d a b
  | .hsub2Vs w d a s => lay0 0x0D200000 w d a s
  | .hmul2Vr w d a b => lay0 0x05400000 w d a b
  | .hmul2Vs w d a s => lay0 0x0D400000 w d a s
  | .hfma2Vr w d a b => lay0 0x05600000 w d a b
  | .hfma2Vs w d a s => lay0 0x0D600000 w d a s
  | .hdot2Vr w d a b => lay0 0x05800000 w d a b
  | .hdot2Vs w d a s => lay0 0x0D800000 w d a s
  | .hmax2Vr w d a b => lay0 0x05A00000 w d a b
  | .hmax2Vs w d a s => lay0 0x0DA00000 w d a s
  | .hmin2Vr w d a b => lay0 0x05C00000 w d a b
  | .hmin2Vs w d a s => lay0 0x0DC00000 w d a s
  | .padd2sVr w d a b => lay0 0x06000000 w d a b
  | .padd2sVs w d a s => lay0 0x0E000000 w d a s
  | .psub2sVr w d a b => lay0 0x06200000 w d a b
  | .psub2sVs w d a s => lay0 0x0E200000 w d a s
  | .pmul2Vr w d a b => lay0 0x06400000 w d a b
  | .pmul2Vs w d a s => lay0 0x0E400000 w d a s
  | .pmac2Vr w d a b => lay0 0x06600000 w d a b
  | .pmac2Vs w d a s => lay0 0x0E600000 w d a s
  | .pmax2Vr w d a b => lay0 0x06800000 w d a b
  | .pmax2Vs w d a s => lay0 0x0E800000 w d a s
  | .pmin2Vr w d a b => lay0 0x06A00000 w d a b
  | .pmin2Vs w d a s => lay0 0x0EA00000 w d a s
  | .psrar2Vr w d a b => lay0 0x06C00000 w d a b
  | .psrar2Vs w d a s => lay0 0x0EC00000 w d a s
  | .pack2sVr w d a b => lay0 0x06E00000 w d a b
  | .pack2sVs w d a s => lay0 0x0EE00000 w d a s
  | .unpklo w d a => lay1 0x07000000 w d a
  | .unpkhi w d a => lay1 0x07200000 w d a
  | .cmpVv w c p t a b => lay3 0x18000000 w c p t a b
  | .cmpVs w c p t a s => lay3 0x18020000 w c p t a s
  | .cmpVi w c p t a i => lay3 0x18040000 w c p t a i
  | .scmp w c q t a b => lay3 0x18060000 w c q t a b
  | .sadd w d a => lay4 0x20000000 w d a
  | .ssub w d a => lay4 0x20200000 w d a
  | .smul w d a => lay4 0x20400000 w d a
  | .sand w d a => lay4 0x20600000 w d a
  | .sor w d a => lay4 0x20800000 w d a
  | .sxor w d a => lay4 0x20A00000 w d a
  | .sshl w d a => lay4 0x20C00000 w d a
  | .sshr w d a => lay4 0x20E00000 w d a
  | .ssra w d a => lay4 0x21000000 w d a
  | .smin w d a => lay4 0x21200000 w d a
  | .smax w d a => lay4 0x21400000 w d a
  | .sminu w d a => lay4 0x21600000 w d a
  | .smaxu w d a => lay4 0x21800000 w d a
  | .smov w d a => lay4 0x21A00000 w d a
  | .sadd64 w d a => lay4 0x21C00000 w d a
  | .ssub64 w d a => lay4 0x21E00000 w d a
  | .sget w d n => lay4 0x22000000 w d n
  | .sfromv w d a => lay5 0x22200000 w d a
  | .stov w d a => lay6 0x22400000 w d a
  | .sli w d i => lay7 0x28000000 w d i
  | .saddi w d i => lay7 0x28400000 w d i
  | .sandi w d i => lay7 0x28800000 w d i
  | .sori w d i => lay7 0x28C00000 w d i
  | .sxori w d i => lay7 0x29000000 w d i
  | .sshli w d c => lay8 0x29400000 w d c
  | .sshri w d c => lay8 0x29800000 w d c
  | .ssrai w d c => lay8 0x29C00000 w d c
  | .smuli w d i => lay7 0x2A000000 w d i
  | .sld w d b x => lay9 0x2A400000 w d b x
  | .sst w d b x => lay9 0x2A800000 w d b x
  | .bbind w d b => lay10 0x2AC00000 w d b
  | .br w o => lay11 0x30000000 w o
  | .bp w p o => lay12 0x31000000 w p o
  | .bnp w p o => lay12 0x32000000 w p o
  | .bq w q o => lay12 0x33000000 w q o
  | .bnq w q o => lay12 0x34000000 w q o
  | .call w o => lay11 0x35000000 w o
  | .ret w => lay13 0x36000000 w
  | .cvtfi w d a s r => lay14 0x38000000 w d a s r
  | .cvtfu w d a s r => lay14 0x38200000 w d a s r
  | .cvtif w d a r => lay15 0x38400000 w d a r
  | .cvtuf w d a r => lay15 0x38600000 w d a r
  | .cvtbf w d a c => lay0 0x38800000 w d a c
  | .cvtfbl w d a => lay1 0x38A00000 w d a
  | .cvtfbh w d a => lay1 0x38C00000 w d a
  | .cvthf w d a h => lay16 0x38E00000 w d a h
  | .cvtfhl w d a s r => lay14 0x39000000 w d a s r
  | .cvtfhh w d a s r => lay14 0x39200000 w d a s r
  | .rcp w d a => lay1 0x39400000 w d a
  | .rsqrt w d a => lay1 0x39600000 w d a
  | .sqrt w d a => lay1 0x39800000 w d a
  | .exp2 w d a => lay1 0x39A00000 w d a
  | .log2 w d a => lay1 0x39C00000 w d a
  | .sinpi w d a => lay1 0x39E00000 w d a
  | .cospi w d a => lay1 0x3A000000 w d a
  | .tanh w d a => lay1 0x3A200000 w d a
  | .frnd w d a r => lay15 0x3A400000 w d a r
  | .shfl w d a x => lay0 0x40000000 w d a x
  | .shfli w d a n => lay17 0x40200000 w d a n
  | .slup w d a n l => lay18 0x40400000 w d a n l
  | .sldn w d a n l => lay18 0x40600000 w d a n l
  | .bcst w d a n => lay17 0x40800000 w d a n
  | .ballot w s p => lay19 0x40A00000 w s p
  | .vany w q p => lay20 0x40C00000 w q p
  | .vall w q p => lay20 0x40E00000 w q p
  | .radd w d a => lay1 0x41000000 w d a
  | .rfadd w d a => lay1 0x41200000 w d a
  | .rmax w d a => lay1 0x41400000 w d a
  | .rmin w d a => lay1 0x41600000 w d a
  | .scan w d a => lay1 0x41800000 w d a
  | .scanx w d a => lay1 0x41A00000 w d a
  | .matchv w d a => lay1 0x41C00000 w d a
  | .pand w d a b => lay21 0x41E00000 w d a b
  | .por w d a b => lay21 0x42000000 w d a b
  | .pxor w d a b => lay21 0x42200000 w d a b
  | .pnot w d a => lay20 0x42400000 w d a
  | .ptov w d p => lay19 0x42600000 w d p
  | .vtop w p a => lay22 0x42800000 w p a
  | .pebpk w d a f => lay15 0x42A00000 w d a f
  | .pebup w d a f => lay15 0x42C00000 w d a f
  | .mvlk w d => lay23 0x42E00000 w d
  | .ldlk w a => lay24 0x43000000 w a
  | .ldb w d i b c r e n => lay25 0x48000000 w d i b c r e n
  | .ldbs w d i b c r e n => lay25 0x48400000 w d i b c r e n
  | .ldh w d i b c r e n => lay25 0x48800000 w d i b c r e n
  | .ldhs w d i b c r e n => lay25 0x48C00000 w d i b c r e n
  | .ldw w d i b c r e n => lay25 0x49000000 w d i b c r e n
  | .ldd w d i b c r e n => lay25 0x49400000 w d i b c r e n
  | .ldq w d i b c r e n => lay25 0x49800000 w d i b c r e n
  | .stb w d i b e n => lay26 0x49C00000 w d i b e n
  | .sth w d i b e n => lay26 0x4A000000 w d i b e n
  | .stw w d i b e n => lay26 0x4A400000 w d i b e n
  | .std w d i b e n => lay26 0x4A800000 w d i b e n
  | .stq w d i b e n => lay26 0x4AC00000 w d i b e n
  | .pref w i b r e n => lay27 0x4B000000 w i b r e n
  | .aadd w b d i v => lay28 0x50000000 w b d i v
  | .amin w b d i v => lay28 0x50800000 w b d i v
  | .amax w b d i v => lay28 0x51000000 w b d i v
  | .aminu w b d i v => lay28 0x51800000 w b d i v
  | .amaxu w b d i v => lay28 0x52000000 w b d i v
  | .aand w b d i v => lay28 0x52800000 w b d i v
  | .aor w b d i v => lay28 0x53000000 w b d i v
  | .axor w b d i v => lay28 0x53800000 w b d i v
  | .axchg w b d i v => lay28 0x54000000 w b d i v
  | .acas w b d i v => lay28 0x54800000 w b d i v
  | .afadd w b d i v => lay28 0x55000000 w b d i v
  | .amaxpk w b d i v => lay28 0x55800000 w b d i v
  | .ahadd2 w b d i v => lay28 0x56000000 w b d i v
  | .jset w j s => lay29 0x58000000 w j s
  | .jsetAct w j => lay30 0x58000080 w j
  | .jadd w j s => lay29 0x58200000 w j s
  | .jaddAct w j => lay30 0x58200080 w j
  | .jclr w j s => lay29 0x58400000 w j s
  | .jclrAct w j => lay30 0x58400080 w j
  | .join w j => lay30 0x58600000 w j
  | .wait w d b c a => lay31 0x58800000 w d b c a
  | .bara w b s => lay32 0x58A00000 w b s
  | .barw w b s => lay32 0x58C00000 w b s
  | .barx w b s => lay32 0x58E00000 w b s
  | .tgwa w s => lay33 0x59000000 w s
  | .tgwl w s => lay33 0x59200000 w s
  | .tgff w d s => lay4 0x59400000 w d s
  | .tgclr w s => lay33 0x59600000 w s
  | .rbacq w n => lay30 0x59800000 w n
  | .rbrel w => lay13 0x59A00000 w
  | .cvjoin w s => lay33 0x59C00000 w s
  | .cvleave w => lay13 0x59E00000 w
  | .cvget w d => lay33 0x5A000000 w d
  | .fence w p k => lay34 0x5A200000 w p k
  | .exit w => lay13 0x5A400000 w
  | .yield w => lay13 0x5A600000 w
  | .jri w s => lay33 0x5A800000 w s
  | .cpy w a => lay33 0x60000000 w a
  | .cpyg w a => lay33 0x60200000 w a
  | .cpys w a => lay33 0x60400000 w a
  | .cpyf w a => lay33 0x60600000 w a
  | .orsv w a o => lay35 0x60800000 w a o
  | .orel w o => lay36 0x60A00000 w o
  | .qclaim w a d => lay4 0x60C00001 w a d
  | .qpub w a => lay33 0x60E00000 w a
  | .qtake w a d => lay4 0x61000001 w a d
  | .qdone w a => lay33 0x61200000 w a
  | .qstat w a d => lay4 0x61400001 w a d
  | .droOpen w a => lay33 0x61600000 w a
  | .droOpenStatus w a d => lay4 0x61600001 w a d
  | .droSend w a => lay33 0x61800000 w a
  | .droSendStatus w a d => lay4 0x61800001 w a d
  | .droClose w a => lay33 0x61A00000 w a
  | .droCloseStatus w a d => lay4 0x61A00001 w a d
  | .droMfst w a d => lay4 0x61C00001 w a d
  | .droCorr w a => lay33 0x61E00000 w a
  | .asyOpen w a => lay33 0x62000000 w a
  | .asyOpenStatus w a d => lay4 0x62000001 w a d
  | .asyPut w a => lay33 0x62200000 w a
  | .asyPutStatus w a d => lay4 0x62200001 w a d
  | .asySeal w a => lay33 0x62400000 w a
  | .asySealStatus w a d => lay4 0x62400001 w a d
  | .asyStat w a d => lay4 0x62600001 w a d
  | .mld o h m => lay37 0x68000000 o h m
  | .mmul a o m v => lay38 0x68200000 a o m v
  | .mmulsm a o m v => lay38 0x68400000 a o m v
  | .mclr a => lay39 0x68600000 a
  | .mbmap o e => lay40 0x68800000 o e
  | .mgrp a o m => lay41 0x68A00000 a o m
  | .mret a t p m b => lay42 0x68C00000 a t p m b
  | .mretColl a t p m => lay43 0x68C00010 a t p m
  | .marv b => lay44 0x68E00000 b
  | .mwait b => lay44 0x69000000 b
  | .mset m i => lay45 0x69200000 m i
  | .madd m i => lay45 0x69400000 m i
  | .mbnz m o => lay45 0x69600000 m o
  | .mtag t => lay46 0x69800000 t
  | .mend => 0x69A00000
  | .trap w n => lay48 0x70000000 w n
  | .tret w => lay13 0x70200000 w
  | .trep w d a => lay1 0x70400000 w d a
  | .tmask w d => lay33 0x70600000 w d
  | .tcause w d => lay33 0x70800000 w d
  | .segset w p s => lay29 0x70A00000 w p s
  | .segget w p s => lay29 0x70C00000 w p s
  | .icinv w => lay13 0x70E00000 w
  | .isync w => lay13 0x71000000 w
  | .tlbinv w s => lay33 0x71200000 w s
  | .pctr w d n => lay4 0x71400000 w d n
  | .clock w d => lay33 0x71600000 w d
  | .cycles w d => lay33 0x71800000 w d
  | .brk w n => lay48 0x71A00000 w n
  | .ctxsw w s => lay33 0x71C00000 w s
  | .imm w i => lay49 0x78000000 w i
  | .immhi w h => lay50 0x79000000 w h
  | .modh w l c f p r y o s => lay51 0x7A000000 w l c f p r y o s
  | .safe w j p n v => lay52 0x7B000000 w j p n v
  | .nop w => lay13 0x7C000000 w
  | .resultWriteback _ _ => 0
  | .handlerEntry _ => 0
  | .waitConditionMet _ _ => 0
  | .waitTimeout _ _ => 0
  | .waitPoll _ _ _ => 0
  | .barrierWaitRelease _ _ => 0
  | .tagWaitRelease _ _ => 0
  | .registerBlockGrant _ _ => 0
  | .cvjoinRequest _ => 0
  | .cvjoinAnswer _ => 0
  | .convoyStepReport _ => 0
  | .convoyHoldReport _ => 0
  | .convoyMinUpdate _ => 0
  | .stragglerTimerExpiry _ => 0
  | .convoyLeaveReport _ => 0
  | .spoutRequestArrival _ => 0
  | .grant _ => 0
  | .spoutReplyMulticast _ => 0
  | .l1FillArrival _ => 0
  | .flush _ _ _ => 0
  | .writeArrival _ => 0
  | .writeCompletionReturn _ => 0
  | .atom _ => 0
  | .fenceActionsEnd _ _ => 0
  | .peerAccessArrival _ => 0
  | .copyChunkRetire _ _ => 0
  | .queueCommandServe _ => 0
  | .sequencerWaitRelease _ => 0
  | .sqDoorbellWrite _ _ _ _ => 0
  | .launchAccept => 0
  | .teamPlacement => 0
  | .backfillTimeout _ => 0
  | .launchDeadline _ => 0
  | .preemptionRequest _ => 0
  | .preemptionTimeout _ => 0
  | .contextSave _ => 0
  | .teamRestore _ => 0
  | .completionRecordWrite _ => 0
  | .faultRecordWrite _ => 0
  | .faultResponseWrite _ _ _ => 0
  | .hostShootdown _ _ _ _ => 0
  | .shootdownComplete _ => 0
  | .functionEnable _ _ _ => 0
  | .functionDisable _ _ _ => 0
  | .queueConfigWrite _ _ _ _ => 0
  | .stagingAreaSizeWrite _ _ _ => 0
  | .powerLimitWrite _ _ => 0
  | .attestationRequest _ _ => 0
  | .configRegisterWrite _ _ _ _ => 0
  | .moduleReplacement _ => 0
  | .deviceReset => 0
  | .recoveryImageLoad _ _ _ _ _ _ => 0
  | .supplySag _ _ => 0
  | .supplyRecovery _ _ => 0
  | .modulePowerExcess _ => 0
  | .arrayEccError _ _ _ _ => 0
  | .coreRetirement _ => 0
  | .hbmRowRemap _ _ => 0
  | .hbmChannelSparing _ _ => 0
  | .linkLaneFailure _ => 0
  | .flitCrcError _ => 0
  | .planeOutOfService _ => 0
  | .droChunkArrival _ => 0
  | .droPartialArrival _ => 0
  | .droNodeDeadline _ _ => 0
  | .droResultArrival _ => 0
  | .droCorrectionArrival _ => 0
  | .droCorrectionWindowClose _ _ => 0
  | .droVerdictArrival _ => 0
  | .droCorrTimeout _ _ => 0
  | .linkRateExchange _ => 0
  | .asyBeginMarker _ => 0
  | .asyDataPacket _ => 0
  | .asyEndMarker _ => 0
  | .asyDeadline _ _ => 0
  | .asyCorrectionWindowClose _ _ => 0
  | .reservedEncoding _ => 0
  | .fetchBounds => 0
  | .codeFetchFault => 0
  | .hostMemoryAccess _ _ _ _ _ => 0
  | .partFailure _ => 0

/-- A word as it lies in memory: four bytes, the low byte first (R8, R55). -/
def wordBytes (x : Nat) : List Byte :=
  [BitVec.ofNat 8 x, BitVec.ofNat 8 (x / 2 ^ 8), BitVec.ofNat 8 (x / 2 ^ 16), BitVec.ofNat 8 (x / 2 ^ 24)]

/-- The word that four bytes of memory hold (R8, R55). -/
def bytesWord : List Byte → Option Nat
  | [a, b, c, d] => some (a.toNat + b.toNat * 2 ^ 8 + c.toNat * 2 ^ 16 + d.toNat * 2 ^ 24)
  | _ => none

/-- The instruction that the decoder reads from a word numbered as the opcode table numbers it. -/
noncomputable def decodeTableWord (_nbits w : Nat) : Option Instr :=
  match bytesWord (wordBytes w) with
  | some x => decode x
  | none => none

end Sys2Proof
end

