-- ==== Sys2Proof/Machine/Launch.lean ====
section
/-! DEFINITION. Launches: the record (R174, R176, R452), submission (R447, R448), the work distributor (R178 to R190), the start of
teams and groups (R177, R198, R233, R321, R453), and the completion ring (R449). -/

namespace Sys2Proof.Machine

/-! ## The launch record -/

/-- Bits of a record, `n` from `lo`. -/
def rbits (x lo n : Nat) : Nat := x / 2 ^ lo % 2 ^ n

/-- A launch record from its 2,048 bits (R174, R452). -/
def recordOf (x : Nat) : LaunchRec :=
  { lid := rbits x 0 32, prio := rbits x 32 3, svc := rbits x 35 2, ndep := rbits x 37 3, resx := rbits x 40 1 == 1
    deps := (List.range 4).map fun i => rbits x (64 + 32 * i) 32
    budget := rbits x 192 32, gx := rbits x 256 32, gy := rbits x 288 16, gz := rbits x 304 16, teamg := rbits x 320 6
    clw := rbits x 326 4, clh := rbits x 330 4, tagn := rbits x 334 7, ns := rbits x 341 11
    rgen := rbits x 384 7, rcpy := rbits x 391 7, repi := rbits x 398 7
    xgen := rbits x 405 3, xcpy := rbits x 408 3, xepi := rbits x 411 3
    spadsz := rbits x 448 10, obufsz := rbits x 458 10, codeb := rbits x 512 48, codel := rbits x 576 32
    entry := rbits x 608 32, msoff := rbits x 640 32, mslen := rbits x 672 32, preb := rbits x 704 48
    recb := rbits x 768 48, rmask := rbits x 816 16
    obj := rbits x 1024 8, tmask := rbits x 1032 8, ctype := rbits x 1040 2, ch0 := rbits x 1048 32
    ddev := rbits x 1080 12, ddv := rbits x 1092 1 == 1 }

/-- The reserved fields of a record (R174, R452). -/
def reservedBits : List (Nat × Nat) :=
  [(41, 23), (224, 32), (352, 32), (414, 34), (468, 44), (560, 16), (752, 16), (832, 192), (1042, 6), (1093, 955)]

/-- Is a record one that the device accepts (R176)? -/
def recordOk (x : Nat) : Bool :=
  let r := recordOf x
  reservedBits.all (fun (lo, n) => rbits x lo n == 0) && r.lid != 0 && r.ndep ≤ 4 &&
  r.gx != 0 && r.gx < 2 ^ 31 && r.gy != 0 && r.gz != 0 &&
  r.clw != 0 && r.clw ≤ 12 && r.clh != 0 && r.clh ≤ 8 && r.clw * r.clh ≤ 48 && r.gx % r.clw == 0 && r.gy % r.clh == 0 &&
  (r.rgen + r.rcpy + r.repi == 0 || r.rgen + r.rcpy + r.repi == r.teamg + 1) &&
  r.xgen ≤ 6 && r.xcpy ≤ 6 && r.xepi ≤ 6 && r.tagn ≤ 64 && r.ns ≤ 1024 && r.spadsz ≤ 512 && r.obufsz ≤ 512 &&
  r.entry % 4 == 0 && r.msoff % 4 == 0 && r.entry < r.codel && (r.mslen == 0 || r.msoff + 4 * r.mslen ≤ r.codel) &&
  r.recb % 16 == 0 && r.preb % 4 == 0 && r.codeb % 256 == 0 &&
  r.ctype ≤ 1 && (r.tmask != 0 || rbits x 1024 1024 == 0)

/-! ## Submission -/

/-- A submission queue of a function. -/
def Vf.subq (v : Vf) (q : Nat) : SubQ := v.sq.get q SubQ.init
/-- Changing one. -/
def State.updSubQ (s : State) (v q : Nat) (f : SubQ → SubQ) : State :=
  s.updVf v fun V => { V with sq := V.sq.put q (f (V.subq q)) }
/-- The number of records that a queue holds (R447). -/
def SubQ.size (q : SubQ) : Nat := 2 ^ (q.l + 2)

/-- A write of SQT (R448): beyond the ring's size it sets SQERR. -/
def SubQ.doorbell (q : SubQ) (t : Word) : SubQ :=
  { q with tail := t, err := q.err || decide ((t - q.head).toNat > q.size) }

/-- May an endpoint write the configuration window (R445, R501)? -/
def State.owner (s : State) (ep : Nat) : Bool := s.boot == .up && s.image.owners.contains ep

/-- SQ_DOORBELL_WRITE: endpoint `ep` writes SQT of queue `q` of function `vf` (R445, R448): beyond the ring's size it sets SQERR. -/
def execSqDoorbellWrite (ep vf q v : Nat) (s : State) : Result :=
  if s.owner ep ∧ vf < 64 ∧ q < 4 then
    .next (s.updSubQ vf q fun x => x.doorbell (BitVec.ofNat 32 v))
  else .next s

/-- Has a queue a record that the device may read now (R448)? -/
def SubQ.ready (q : SubQ) : Bool := q.en && !q.err && q.head != q.tail && q.fid.isNone

/-- The queue that is served next: round robin over function and then queue number (R448). -/
def State.nextSq (s : State) : Option (Nat × Nat) :=
  ((List.range 256).map fun i => (s.lastSq + 1 + i) % 256).findSome? fun k =>
    if ((s.vf (k / 4)).subq (k % 4)).ready then some (k / 4, k % 4) else none

/-- Is a launch one whose LID counts as in use (R178, R179)? -/
def Launch.live (L : Launch) : Bool := L.st == .waiting || L.st == .eligible || L.st == .running

/-- Acceptance of a record that has been read (R176, R178 to R180). -/
def State.accept (s : State) (vf x : Nat) : State :=
  let r := recordOf x
  let named (lid : Nat) : Option Nat :=
    (List.find? (fun (y : Nat × Launch) => y.2.vf == vf && y.2.r.lid == lid && y.2.live) s.launches).map (·.1)
  if !(recordOk x) ∨ (named r.lid).isSome then s.holdDone vf r.lid 3 0 false
  else
    let wait := distinct [] ((r.deps.take r.ndep).filterMap named)
    let L : Launch :=
      { vf := vf, r := r, st := if wait.isEmpty then .eligible else .waiting
        dl := if r.budget = 0 then none else some (s.now + r.budget)
        late := false, next := 0, saved := [], since := s.now, noBack := false, ended := 0, wait := wait, ran := none }
    { s with launches := s.launches.put s.uid L }.bump

/-- The places of the next record of a submission queue (R447, R448). -/
def State.recordPlan (s : State) (v q : Nat) : Plan :=
  let Q := (s.vf v).subq q
  s.planDie 0 v wholeSeg (byteRec (Q.base + 256 * (Q.head.toNat % Q.size)) 256) 1 .read ((List.range 256).map fun i => (i, (i : Int)))

/-- A record as a number, by its bytes. -/
def recordNat (bs : List (Option (List Byte))) : Nat := leNat (bs.map fun b => (b.getD []).headD 0)

/-- A record that has been read: SQH goes on, and the launch is accepted or rejected; one in a sector that fails its check is rejected
(R448). -/
def State.takeRecord (s : State) (v q : Nat) (bs : List (Option (List Byte))) : State :=
  let s := ({ s with lastSq := v * 4 + q } : State).updSubQ v q fun x => { x with head := x.head + 1 }
  if bs.any Option.isNone then s.holdDone v 0 3 7 false else s.accept v (recordNat bs)

/-- A page fault of the read stops its queue (R411, R448). -/
def State.stopQueue (s : State) (v q : Nat) (f : Nat × Nat × Nat × List Nat) : State :=
  let r := s.fault ⟨v, f.1, 0, 0, 0, 0, 0, 0, 0, 5, 0, 0, f.2.1, f.2.2.1, false⟩ (.subq v q)
  { r.1.updSubQ v q fun x => { x with fid := some r.2 } with lastSq := v * 4 + q }

/-- The read of the next record of a queue leaves (R448), as a request of class 1 without a deadline (log 64); each page that faults has its
record (R411). -/
def State.readRecord (s : State) (v q : Nat) : State :=
  let p := s.recordPlan v q
  if p.faults.isEmpty then (p.st.beginTxn (.subq v q) v 1 0 p.good []).1
  else p.faults.foldl (fun s f => s.stopQueue v q f) p.st

/-- The read of a submission record that is under way, with its function and queue: there is one at a time (R448). -/
def State.recordRead (s : State) : Option (Nat × Txn × Nat × Nat) :=
  s.txns.findSome? fun (t, x) => match x.who with | .subq v q => some (t, x, v, q) | _ => none

/-- LAUNCH_ACCEPT: the device reads the next submission record, or has read it, and accepts or rejects the launch (R448). A queue that has
been turned off meanwhile takes no record. -/
def execLaunchAccept (s : State) : Result :=
  eventOf "LAUNCH_ACCEPT"
    (match s.recordRead with
     | some (t, x, v, q) =>
       if !x.ready then none
       else if (s.vf v).en && ((s.vf v).subq q).ready then
         some ((s.endTxn t).takeRecord v q (x.rd.map fun (_, ls) => s.txnBytes x ls))
       else some (s.endTxn t)
     | none => s.nextSq.map fun x => s.readRecord x.1 x.2)

/-! ## What is free on a core (R185, R186, R422) -/

/-- Does a group take a slot: it has not ended, and its team is not saved (R188)? -/
def State.resident (s : State) (G : Group) : Bool :=
  !G.ended && (match s.team? G.team with | some T => T.pre != .saved | none => false)

/-- The teams that hold resources of a core, but for some that are looked at as if they were gone. -/
def State.teamsOn (s : State) (c : Nat) (gone : List Nat) : List (Nat × Team) :=
  s.teams.filter fun (t, T) => T.core == c && T.pre != .saved && !(gone.contains t)

/-- The groups that take a slot on a core. -/
def State.groupsOn (s : State) (c : Nat) (gone : List Nat) : List Group :=
  s.groups.filterMap fun (_, G) => if G.core = c ∧ s.resident G ∧ !(gone.contains G.team) then some G else none

/-- The lowest place at which a range of a size fits beside the ranges in use (R185). -/
def gapFor (used : List (Nat × Nat)) (size top : Nat) : Option Nat :=
  let ends := 0 :: used.map fun (b, n) => b + n
  let ok (a : Nat) : Bool := a + size ≤ top && used.all fun (b, n) => n == 0 || size == 0 || a + size ≤ b || b + n ≤ a
  (ends.filter ok).foldl (fun m a => match m with | none => some a | some b => some (min a b)) none

/-- What a team needs of a core: its groups' extended budgets, its array sizes, the number of its tags, and, for a saved team, its
first tag and the blocks that its groups hold. -/
structure Need where
  n     : Nat
  budget : List Nat
  resx  : Bool
  spad  : Nat
  obuf  : Nat
  tags  : Nat
  tag0  : Option Nat
  blocks : List Nat
  deriving DecidableEq, Repr

/-- Where a team fits on a core. -/
structure Fit where
  core  : Nat
  part0 : Nat
  spad  : Nat
  obuf  : Nat
  tag   : Nat
  deriving DecidableEq, Repr

/-- The groups of a team that stand on a partition, by index (R171). -/
def groupsAt (n p0 p : Nat) : List Nat := (List.range n).filter fun i => (p0 + i) % 16 == p

/-- The sum of some entries of a list. -/
def sumAt (xs is : List Nat) : Nat := (is.map fun i => xs.getD i 0).sum

/-- The blocks of its partition that a resident group may hold without a wait (R169): under RESX its extended budget, else what it holds. -/
def State.reserve (s : State) (G : Group) : Nat :=
  match (s.team? G.team).bind s.recOf with
  | some r => if r.resx then r.budgetOf G.idx else G.ext
  | none => G.ext

/-- Do the groups of a team fit the partitions from `p0` on: the number of resident groups on those partitions (R186, R422)? The blocks that
RESX groups may hold stay free beside those that others hold, so that no RESX group waits for a release (R169, log 65). -/
def State.fitParts (s : State) (c : Nat) (gone : List Nat) (d : Need) (p0 : Nat) : Option Nat :=
  let gs := s.groupsOn c gone
  (List.range 16).foldl (fun (k : Option Nat) p =>
    k.bind fun k =>
      let mine := groupsAt d.n p0 p
      let here := gs.filter fun G => G.part == p
      if mine.isEmpty then some k
      else if here.length + mine.length > 8 then none
      else if (here.map s.reserve).sum + sumAt (if d.resx then d.budget else d.blocks) mine > 8 then none
      else some (k + here.length)) (some 0)

/-- The partition offset with the fewest resident groups, the lowest of equals (R186). -/
def State.fitOffset (s : State) (c : Nat) (gone : List Nat) (d : Need) : Option Nat :=
  ((List.range 16).foldl (fun (b : Option (Nat × Nat)) p0 =>
    match s.fitParts c gone d p0, b with
    | none, _ => b
    | some k, none => some (k, p0)
    | some k, some (m, _) => if k < m then some (k, p0) else b) none).map (·.2)

/-- Are some tags of a core free (R185, R321)? -/
def State.tagsFree (s : State) (c : Nat) (gone : List Nat) (a n : Nat) : Bool :=
  (s.teamsOn c gone).all (fun (_, T) => T.tagN == 0 || n == 0 || a + n ≤ T.tagB || T.tagB + T.tagN ≤ a) &&
  (List.range n).all fun i => (s.core c).tagCnt.get (a + i) 0 == 0 || !gone.isEmpty

/-- Does a team fit a core, and where (R185, R422)? -/
def State.fitCore (s : State) (gone : List Nat) (d : Need) (c : Nat) : Option Fit :=
  if !((s.core c).up) then none
  else
    let ts := s.teamsOn c gone
    let tag := match d.tag0 with
      | some a => if s.tagsFree c gone a d.tags then some a else none
      | none => if d.tags = 0 then some 0 else (List.range (65 - d.tags)).find? fun a => s.tagsFree c gone a d.tags
    match s.fitOffset c gone d, gapFor (ts.map fun (_, T) => (T.spadB, T.spadN)) d.spad (2 ^ 19),
      gapFor (ts.map fun (_, T) => (T.obufB, T.obufN)) d.obuf (2 ^ 19), tag with
    | some p0, some sb, some ob, some tg => some ⟨c, p0, sb, ob, tg⟩
    | _, _, _, _ => none

/-- The number of resident groups of a core (R187). -/
def State.load (s : State) (c : Nat) : Nat := (s.groupsOn c []).length

/-! ## Where a team or a cluster goes (R173, R187) -/

/-- The physical core at a stop of a die's mesh, which has 8 rows of 12 (R2): none where the stop is no core, or bears the number of an
earlier one (log 4). -/
def meshStop (d row col : Nat) : Option Nat :=
  if row < 8 ∧ col < 12 then
    (Config.coreAt d row col).bind fun p =>
      if p < 88 ∧ (List.range (12 * row + col)).all (fun i => Config.coreAt d (i / 12) (i % 12) != some p) then some p else none
  else none

/-- The logical core at a stop of a die's mesh; none for a spare, a retired core or a stop that is no core (R187). -/
def State.meshCore (s : State) (d row col : Nat) : Option Nat :=
  (meshStop d row col).bind fun p =>
    ((List.range 84).find? fun k => (s.die d).phys.get k k == p).bind fun k =>
      if (s.core (84 * d + k)).up then some (84 * d + k) else none

/-- The cores of a rectangle, by rank (R173). -/
def State.rectangle (s : State) (d row col w h : Nat) : Option (List Nat) :=
  ((List.range (w * h)).map fun r => s.meshCore d (row + r / w) (col + r % w)).mapM id

/-- The cores on which a team or a cluster may go, in the order that settles ties: single cores by number, rectangles by die, row and
column (R187). -/
def State.sites (s : State) (w h : Nat) : List (List Nat) :=
  if w * h = 1 then (List.range 336).map fun c => [c]
  else
    (List.range 4).flatMap fun d => (List.range 8).flatMap fun row => (List.range 12).filterMap fun col => s.rectangle d row col w h

/-- The fits of a cluster's teams on the cores of a site. -/
def State.fitSite (s : State) (gone : List Nat) (ds : List Need) (cs : List Nat) : Option (List Fit) :=
  if cs.length = ds.length then ((ds.zip cs).map fun (d, c) => s.fitCore gone d c).mapM id else none

/-- The site on which a placement fits with the fewest resident groups (R187). -/
def State.bestSite (s : State) (ds : List Need) (w h : Nat) : Option (List Fit) :=
  ((s.sites w h).foldl (fun (b : Option (Nat × List Fit)) cs =>
    let k := (cs.map s.load).sum
    match b with
    | some (m, _) => if k < m then (match s.fitSite [] ds cs with | some f => some (k, f) | none => b) else b
    | none => (s.fitSite [] ds cs).map fun f => (k, f)) none).map (·.2)

/-! ## The distributor's choice (R182 to R190) -/

/-- The number of placements of a launch: teams, or clusters (R183). -/
def LaunchRec.places (r : LaunchRec) : Nat := r.teams / (r.clw * r.clh)

/-- Has a launch an unplaced team (R182, R190)? -/
def Launch.unplaced (L : Launch) : Bool :=
  (L.st == .eligible || L.st == .running) && (!L.saved.isEmpty || L.next < L.r.places)

/-- The order of the distributor: does the first of two launches, each with its serial, come before the second (R182)? -/
def Launch.before (a b : Nat × Launch) : Bool :=
  let dl (L : Launch) (k : Launch) : Bool :=
    match L.dl, k.dl with | some x, some y => x < y | some _, none => true | none, _ => false
  if a.2.r.prio ≠ b.2.r.prio then b.2.r.prio < a.2.r.prio
  else if dl a.2 b.2 then true else if dl b.2 a.2 then false else a.1 < b.1

/-- The launches with an unplaced team, in the distributor's order (R182). -/
def State.queue (s : State) : List (Nat × Launch) :=
  (s.launches.filter fun x => x.2.unplaced).foldl (fun (l : List (Nat × Launch)) x =>
    l.takeWhile (fun y => Launch.before y x) ++ [x] ++ l.dropWhile (fun y => Launch.before y x)) []

/-- The linear indices of the teams of a placement, by rank (R173, R183). -/
def LaunchRec.teamsAt (r : LaunchRec) (k : Nat) : List Nat :=
  let nx := r.gx / r.clw
  let ny := r.gy / r.clh
  let cx := k % nx
  let cy := k / nx % ny
  let z := k / nx / ny
  (List.range (r.clw * r.clh)).map fun i =>
    cx * r.clw + i % r.clw + r.gx * (cy * r.clh + i / r.clw + r.gy * z)

/-- What a team that has never been placed needs (R185, R186). -/
def LaunchRec.need (r : LaunchRec) : Need :=
  { n := r.teamg + 1, budget := (List.range (r.teamg + 1)).map r.budgetOf, resx := r.resx
    spad := max (r.spadsz * 1024) 256, obuf := r.obufsz * 1024, tags := r.tagn, tag0 := none, blocks := [] }

/-- What a saved team needs (R422). -/
def State.needSaved (s : State) (r : LaunchRec) (T : Team) : Need :=
  { r.need with
    tag0 := some T.tagB
    blocks := T.groups.map fun g => match s.group? g with | some G => if G.ended then 0 else G.ext | none => 0 }

/-- A team that needs nothing: a rank of a cluster that had ended before the cluster was pre-empted. -/
def Need.nothing : Need := ⟨0, [], false, 0, 0, 0, none, []⟩

/-- The saved teams that are placed again next, by rank: the lowest, or its cluster, none for a rank whose team has ended (R190). -/
def State.savedNext (s : State) (L : Launch) : List (Option Nat) :=
  let ts := L.saved.filterMap fun t => (s.team? t).map fun T => (t, T)
  match ts.foldl (fun (b : Option (Nat × Team)) x =>
      match b with | none => some x | some y => if x.2.x < y.2.x then some x else b) none with
  | none => []
  | some (t, T) =>
    if T.cluster = 0 then [some t]
    else
      (List.range (L.r.clw * L.r.clh)).map fun r =>
        (ts.find? fun (y : Nat × Team) => y.2.cluster == T.cluster && y.2.rank == r).map (·.1)

/-- Has the whole of what is placed next been saved: a cluster is restored whole (R190)? -/
def State.nextWhole (s : State) (serial : Nat) (L : Launch) : Bool :=
  (s.savedNext L).all fun t =>
    match t.bind s.team? with
    | some T => T.cluster == 0 || s.teams.all fun (_, U) => !(U.launch == serial && U.cluster == T.cluster) || U.pre == .saved
    | none => true

/-- What the next placement of a launch needs, team by team. -/
def State.needs (s : State) (L : Launch) : List Need :=
  if L.saved.isEmpty then List.replicate (L.r.clw * L.r.clh) L.r.need
  else (s.savedNext L).map fun t => match t.bind s.team? with | some T => s.needSaved L.r T | none => Need.nothing

/-- A decision of the distributor (R184, R189, R190). -/
inductive Decision where
  | place (serial : Nat) (fits : List Fit)
  | restore (serial : Nat) (teams : List (Nat × Fit))
  | preempt (teams : List Nat)
  deriving DecidableEq, Repr

/-- Placing the next team or cluster of a launch, if it fits somewhere (R184). -/
def State.tryPlace (s : State) (x : Nat × Launch) : Option Decision :=
  (s.bestSite (s.needs x.2) x.2.r.clw x.2.r.clh).map fun f =>
    if x.2.saved.isEmpty then .place x.1 f
    else .restore x.1 (((s.savedNext x.2).zip f).filterMap fun (t, k) => t.map fun u => (u, k))

/-- The teams that a launch may pre-empt on some cores: strictly lower PRIO, the lowest first, then the most recently placed (R189). -/
def State.victims (s : State) (prio : Nat) (cs : List Nat) : List Nat :=
  let p (T : Team) : Nat := match s.recOf T with | some r => r.prio | none => 8
  let ts := s.teams.filter fun (_, T) => cs.contains T.core && T.pre != .saved && p T < prio
  (ts.foldl (fun (l : List (Nat × Team)) x =>
    let le (y : Nat × Team) : Bool := p y.2 < p x.2 || (p y.2 == p x.2 && x.2.order < y.2.order)
    l.takeWhile le ++ [x] ++ l.dropWhile le) []).map (·.1)

/-- How many of the victims on a site must go for a placement to fit (R189): the least prefix, if any does. -/
def State.cut (s : State) (ds : List Need) (cs vs : List Nat) : Option (List Nat) :=
  ((List.range (vs.length + 1)).find? fun k => (s.fitSite (vs.take k) ds cs).isSome).map vs.take

/-- The number of groups of a team that have not ended: only they can be pre-empted (R188, R189). -/
def State.groupsLeft (s : State) (t : Nat) : Nat :=
  match s.team? t with
  | some T => (T.groups.filter fun g => match s.group? g with | some G => !G.ended | none => false).length
  | none => 0

/-- The teams that must be pre-empted for a launch's next placement, on the site where that takes the fewest groups (R187, R189). -/
def State.toPreempt (s : State) (L : Launch) : Option (List Nat) :=
  let ds := s.needs L
  let groups (ts : List Nat) : Nat := (ts.map fun t => s.groupsLeft t).sum
  ((s.sites L.r.clw L.r.clh).foldl (fun (b : Option (Nat × Nat × List Nat)) cs =>
    match s.cut ds cs (s.victims L.r.prio cs) with
    | none => b
    | some ts =>
      let k := (groups ts, (cs.map s.load).sum, ts)
      match b with
      | none => some k
      | some m => if k.1 < m.1 ∨ (k.1 = m.1 ∧ k.2.1 < m.2.1) then some k else b) none).map (·.2.2)

/-- Does backfill past a launch stop: its next team has been unplaced for more than 1,000,000 ticks (R184)? -/
def Launch.overdue (L : Launch) (now : Nat) : Bool := L.noBack || decide (L.since + 1000000 < now)

/-- The distributor's next decision (R184, R189): a placement of a launch of the highest PRIO, in order, backfill stopping past a
launch that has waited too long; where the next team of a launch fits nowhere, pre-emption for it. -/
def State.decideIn (s : State) : List (Nat × Launch) → Option Decision
  | [] => none
  | x :: rest =>
    match if s.nextWhole x.1 x.2 then s.tryPlace x else none with
    | some d => some d
    | none =>
      match if s.nextWhole x.1 x.2 then s.toPreempt x.2 else none with
      | some ts => some (.preempt ts)
      | none => if x.2.overdue s.now then none else State.decideIn s rest

/-- Are saves that make room for a placement not complete yet: nothing is placed before (R189)? -/
def State.makingRoom (s : State) : Bool := s.teams.any fun (_, T) => T.room && T.pre != .none && T.pre != .saved

/-- The decision over the launches of the highest PRIO (R184). -/
def State.decide (s : State) : Option Decision :=
  match s.queue with
  | [] => none
  | x :: rest => if s.makingRoom then none else s.decideIn ((x :: rest).filter fun y => y.2.r.prio == x.2.r.prio)

/-! ## Placing -/

/-- A group before it has started: its threads are parked (R177). -/
def newGroup (core part slot team idx vf : Nat) : Group :=
  { Group.blank with
    core := core, part := part, slot := slot, team := team, idx := idx, vf := vf
    lanes := (List.range 32).map fun l => (l, { Thread.init with st := .faulted }) }

/-- The slot that a group takes on a partition: the lowest free one (R186 asks for a free slot; log 66). -/
def State.freeSlot (s : State) (c p : Nat) : Nat :=
  let used := (s.groupsOn c []).filterMap fun G => if G.part = p then some G.slot else none
  ((List.range 8).find? fun k => !(used.contains k)).getD 0

/-- A group is placed on its partition (R171, R188). -/
def State.placeGroup (s : State) (t : Nat) (T : Team) (i : Nat) : State :=
  let p := (T.part0 + i) % 16
  let g := s.uid
  ({ s with groups := s.groups.put g (newGroup T.core p (s.freeSlot T.core p) t i T.vf) }.bump).updTeam t fun T =>
    { T with groups := T.groups ++ [g] }

/-- The barrier objects of a team at its start (R198): `n` arrivals are expected at each. -/
def State.startBars (s : State) (T : Team) (n : Nat) : State :=
  (List.range 32).foldl (fun s b => s.setBar T b ⟨n, false, n⟩) s

/-- DRT (R453). -/
def LaunchRec.route (r : LaunchRec) (dev : Nat) : Word :=
  if r.tmask = 0 then 0 else BitVec.ofNat 32 (fieldAt (if r.ddv then r.ddev else dev) 10 + fieldAt 1 9 + r.obj)

/-- The free contents of an array's range at the placement of a team (log 31). -/
def freeCells (n base k : Nat) (m : List Host.Cell) : List Host.Cell :=
  (List.range k).foldl (fun m i => SMap.set m (base + i) ((Config.freeWord (n + i)).setWidth 8) 0) m

/-- A team is placed where it fits (R171, R185, R188, R198, R321, R453): ranges, slots and tags are taken. Its groups start once its
launch reads are done. -/
def State.placeTeam (s : State) (serial : Nat) (L : Launch) (x cluster rank : Nat) (f : Fit) : State :=
  let r := L.r
  let t := s.uid
  let T : Team :=
    { launch := serial, x := x, vf := L.vf, core := f.core, groups := [], spadB := f.spad, spadN := max (r.spadsz * 1024) 256
      obufB := f.obuf, obufN := r.obufsz * 1024, tagB := f.tag, tagN := r.tagn, part0 := f.part0, cluster := cluster, rank := rank
      resv := [], drt := r.route s.devId, seq := Seq.init
      recs0 := none, pre := .none, seqStop := false, started := false, fid := none, order := t, room := false, svSpad := [], svObuf := [], svTags := 0
      svTerr := 0, svTime := [], answers := [] }
  let s := { s with teams := s.teams.put t T }.bump
  let m := tagRange T
  let ns := r.spadsz * 1024 - 256
  let no := r.obufsz * 1024
  let s := (s.updCore f.core fun c =>
    { c with
      tags := c.tags ||| m
      terr := c.terr &&& ~~~m
      tagTime := (List.range r.tagn).foldl (fun k i => SMap.put k (f.tag + i) 0) c.tagTime
      spad := freeCells s.fresh f.spad ns c.spad
      obuf := freeCells (s.fresh + ns) f.obuf no c.obuf
      obOld := c.obOld.filter fun x => x.1 < f.obuf || f.obuf + no ≤ x.1 }).draw (ns + no)
  let s := s.startBars T (r.teamg + 1 + (if r.mslen = 0 then 0 else 1))
  (List.range (r.teamg + 1)).foldl (fun s i => s.placeGroup t T i) s

/-- A decision to place is carried out (R173, R183): every team of the placement, and the launch runs. -/
def State.placeNext (s : State) (serial : Nat) (fits : List Fit) : State :=
  match s.launch? serial with
  | none => s
  | some L =>
    let xs := L.r.teamsAt L.next
    let cluster := if L.r.clustered then L.next + 1 else 0
    let s := ((xs.zip fits).zipIdx).foldl (fun s ((x, f), i) => s.placeTeam serial L x cluster i f) s
    s.updLaunch serial fun L =>
      { L with st := .running, next := L.next + 1, since := s.now, noBack := false, ran := some (L.ran.getD s.now) }

/-! ## Starting (R177, R233) -/

/-- The segment registers of a group at its start (R233). -/
def startSegs (r : LaunchRec) (T : Team) (pwn : Nat) : SMap QWord :=
  let S := r.spadsz * 1024
  let O := r.obufsz * 1024
  [(0, segMake 0 (2 ^ 48 - 1) true),
   (1, segMake T.spadB (if S > 256 then S - 257 else 0) (S > 256)),
   (2, segMake 0 (if S > 256 then S - 257 else 0) (S > 256)),
   (3, segMake (if O > 0 then T.obufB else 0) (if O > 0 then O - 1 else 0) (O > 0)),
   (4, segMake r.codeb (if r.codel > 0 then r.codel - 1 else 0) (r.codel > 0)),
   (5, segMake 0 (if pwn > 0 then pwn * 2 ^ 40 - 1 else 0) (pwn > 0))]

/-- A group starts (R19, R118, R177, R233): preloaded registers and records, its segments, its threads Ready at the entry. -/
def Group.begin_ (G : Group) (r : LaunchRec) (T : Team) (pwn : Nat) (pre : List Word) (recs : SMap QWord) : Group :=
  { G with
    lanes := (List.range 32).map fun l => (l, { Thread.init with st := .ready, pc := BitVec.ofNat 32 r.entry })
    s := pre.zipIdx.map fun (x, i) => (i, x)
    b := recs
    seg := startSegs r T pwn }

/-- The launch reads of a team (R177): byte i of the list is preload byte i, then the images of the records of RMASK. -/
def LaunchRec.reads (r : LaunchRec) : List Nat :=
  (List.range (4 * r.ns)).map (fun i => r.preb + i) ++
  ((List.range 16).filter fun n => r.rmask.testBit n).flatMap fun n => (List.range 16).map fun i => r.recb + 16 * n + i

/-- The launch reads of a placed team leave (R177), with the service class SVC and no deadline (R181); each page that faults has its record,
and parks the start (R411). -/
def State.readStart (s : State) (t : Nat) (T : Team) (L : Launch) : State :=
  let d := dieOf T.core
  let vas := L.r.reads
  let pages := distinct [] (vas.map (· / 4096))
  let ts : List (Nat × Trans) := (pages.zipIdx).map fun (q, i) => (q, s.translate (s.die d).tlb T.vf (q * 4096) .read (s.fresh + 1 + i))
  let s := (ts.foldl (fun s (_, x) => s.learnDie d x) s).draw (1 + pages.length)
  let bad := ts.filterMap fun (q, x) => match x with | .fault cause lev _ => some (q, cause, lev) | .ok _ _ => none
  if bad.isEmpty then
    let pa (a : Nat) : Nat := match ((ts.find? fun (y : Nat × Trans) => y.1 == a / 4096).map (·.2)) with
      | some (Trans.ok x _) => x + a % 4096 | _ => 0
    (s.beginTxn (.start t) T.vf L.r.svc 0 [(0, vas.map fun a => Loc.glob a (pa a))] []).1
  else
    bad.foldl (fun s (q, cause, lev) =>
      let va := (vas.filter fun a => a / 4096 == q).foldl min (q * 4096 + 4095)
      let f := s.fault ⟨T.vf, va, L.r.lid, 0, 0, T.core, d, 0, 0, 5, 0, 0, cause, lev, false⟩ (.start t)
      f.1.updTeam t fun T => { T with fid := some f.2 }) s

/-- A placed team starts with what its launch reads brought (R172, R177): its groups, and its sequencer. -/
def State.startTeam (s : State) (t : Nat) (T : Team) (r : LaunchRec) (bs : List Byte) : State :=
  let pre := (List.range r.ns).map fun i => BitVec.ofNat 32 (leNat ((bs.drop (4 * i)).take 4))
  let ns := (List.range 16).filter fun n => r.rmask.testBit n
  let recs : SMap QWord := (ns.zipIdx).map fun (n, i) => (n, BitVec.ofNat 128 (leNat ((bs.drop (4 * r.ns + 16 * i)).take 16)))
  let s := T.groups.foldl (fun s g => s.updGroup g fun G => G.begin_ r T (s.vf T.vf).pwn pre recs) s
  s.updTeam t fun T =>
    { T with
      started := true
      seq := if r.mslen = 0 then T.seq else { T.seq with run := 1 } }

/-- Is a team placed and not started, with nothing in the way of its start? -/
def Team.starting (T : Team) : Bool := !T.started && T.fid.isNone && T.pre == .none

/-- A placed team whose launch reads have not left. -/
def State.unread (s : State) : Option (Nat × Team) :=
  List.find? (fun (x : Nat × Team) => x.2.starting && (s.txnOf (.start x.1)).isNone) s.teams

/-- The team, or the teams of its cluster, that start together with a team (R173). -/
def State.together (s : State) (t : Nat) (T : Team) : List (Nat × Team) :=
  s.teams.filter fun (u, U) => u == t || (U.launch == T.launch && U.cluster == T.cluster && U.cluster != 0 && !U.started)

/-- The launch reads of a team that have all come. -/
def State.startRead (s : State) (t : Nat) : Option (Nat × Txn) := (s.txnOf (.start t)).bind fun x => if x.2.ready then some x else none

/-- The teams that may start now: the launch reads of all of them have come. -/
def State.startable (s : State) : Option (List (Nat × Team)) :=
  s.teams.findSome? fun (t, T) =>
    if T.started then none
    else
      let ts := s.together t T
      if ts.all fun (u, U) => U.starting && (s.startRead u).isSome then some ts else none

/-- One of the teams that start together starts; a read that failed its check fails the launch (R177, R400). -/
def State.startOne (s : State) (t : Nat) : State :=
  match s.team? t, s.startRead t with
  | some T, some (k, x) =>
    match s.launch? T.launch with
    | none => s
    | some L =>
      match s.txnBytes x (x.rd.flatMap (·.2)) with
      | none => s.failLaunch T.launch 7
      | some bs => (s.endTxn k).startTeam t T L.r bs
  | _, _ => s

/-- Pre-emption that makes room for a placement is requested (R189). -/
def State.makeRoom (s : State) (ts : List Nat) : State :=
  ts.foldl (fun s t => (s.preempt t).updTeam t fun T => { T with room := true }) s

/-- TEAM_PLACEMENT: the next step of the distributor: the launch reads of a placed team leave, teams whose reads have come start, or the next
decision is taken (R177, R184, R189). -/
def execTeamPlacement (s : State) : Result :=
  eventOf "TEAM_PLACEMENT"
    (match s.unread with
     | some (t, T) => (s.launch? T.launch).map fun L => s.readStart t T L
     | none =>
       match s.startable with
       | some ts => some (ts.foldl (fun s x => s.startOne x.1) s)
       | none =>
         match s.decide with
         | some (.place serial fits) => some (s.placeNext serial fits)
         | some (.preempt ts) => some (s.makeRoom ts)
         | _ => none)

/-- BACKFILL_TIMEOUT: the next team of launch `l` has been unplaced for more than 1,000,000 ticks (R184). -/
def execBackfillTimeout (l : Nat) (s : State) : Result :=
  eventOf "BACKFILL_TIMEOUT"
    ((s.launch? l).bind fun L =>
      if L.unplaced ∧ !L.noBack ∧ L.since + 1000000 < s.now then
        some (s.updLaunch l fun L => { L with noBack := true })
      else none)

/-- LAUNCH_DEADLINE: launch `l` is still Running at its deadline (R180). -/
def execLaunchDeadline (l : Nat) (s : State) : Result :=
  eventOf "LAUNCH_DEADLINE"
    ((s.launch? l).bind fun L =>
      if L.st = .running ∧ !L.late ∧ L.isLate s.now then some (s.updLaunch l fun L => { L with late := true }) else none)

/-! ## Completion records (R449) -/

/-- The number of records that a ring holds (R413, R449). -/
def Ring.size (r : Ring) : Nat := 2 ^ (r.l + 6)
/-- May a ring take a record now? -/
def Ring.room (r : Ring) : Bool := r.en && (r.p - r.c).toNat < r.size

/-- A ring of a function: its completion ring, or its fault ring. -/
def Vf.ring (v : Vf) (cq : Bool) : Ring := if cq then v.cq else v.fq
/-- Changing it. -/
def Vf.updRing (v : Vf) (cq : Bool) (f : Ring → Ring) : Vf := if cq then { v with cq := f v.cq } else { v with fq := f v.fq }

/-- The bytes of the record that a ring writes next, with their places: 16 bytes of a completion record, a whole sector of a fault record
(R413, R449). None where there is no record, or no room. -/
def Ring.next (r : Ring) (cq : Bool) : Option (List (Loc × Byte)) :=
  match r.held with
  | [] => none
  | x :: _ =>
    let n := if cq then 16 else 64
    let pa := r.base + n * (r.p.toNat % r.size)
    if r.room then some ((leBytes n x.toNat).zipIdx.map fun (b, i) => (.glob 0 (pa + i), b)) else none

/-- The record that a ring was to write next has been written: the producer index goes on, CQP is stored to CQN (R413, R449). -/
def State.ringOn (s : State) (vf : Nat) (cq : Bool) : State :=
  let s := s.updVf vf fun v => v.updRing cq fun r => { r with held := r.held.drop 1, p := r.p + 1 }
  let v := s.vf vf
  if !cq ∨ v.cqn = 0 then s
  else { s with notices := s.notices ++ [(v.cqn / 2 ^ 48 % 2 ^ 12, v.cqn % 2 ^ 48, v.cq.p)] }

/-- The oldest record of a ring of a function is written, as a request of class 1 without a deadline (log 64), and the producer index passes it
once the write has completed (R413, R449). A write that fails its check leaves the sector as it was (log 32). -/
def State.writeRing (s : State) (vf : Nat) (cq : Bool) : Option State :=
  match s.txnOf (.ring vf cq) with
  | some (t, x) => if x.complete then some ((s.endTxn t).ringOn vf cq) else none
  | none => (((s.vf vf).ring cq).next cq).map fun ws => s.engStore (.ring vf cq) vf 1 0 ws

/-- COMPLETION_RECORD_WRITE: a completion record of function `vf` is written, or its write has completed (R449). -/
def execCompletionRecordWrite (vf : Nat) (s : State) : Result := eventOf "COMPLETION_RECORD_WRITE" (s.writeRing vf true)

/-- FAULT_RECORD_WRITE: a record of function `vf` is written to its fault ring, or its write has completed (R413). -/
def execFaultRecordWrite (vf : Nat) (s : State) : Result := eventOf "FAULT_RECORD_WRITE" (s.writeRing vf false)

end Sys2Proof.Machine
end

