-- ==== Sys2Proof/Machine/System.lean ====
section
/-! DEFINITION. The SYS class (R423 to R434, R512), the hint words (R28 to R30, R417), and shootdowns (R409). -/

namespace Sys2Proof.Machine

/-! ## Traps and the handler -/

/-- `trap` (R385, R424): class 5, parked at the word after. -/
def execTrap (w : BitVec 1) (n : BitVec 16) (s0 : State) : Result :=
  issue (infoNone w).bare
    (fun c s => (s.raise c.g c.h ⟨c.mask, c.pc + 4, c.first, c.pc + 4, causeWord 5 0 n.toNat, false⟩).draw 1) s0

/-- The threads of a path stop for the debugger, at the word after a `brk` (R424). -/
def Group.debugStop (G : Group) (c : Ctx) : Group :=
  if c.mask = 0 then { G with hnd := G.hnd.map fun H => { H with ready := false, pc := c.pc + 4, hints := Hints.clear } }
  else G.updLanes (lanesOf c.mask) fun _ t => { t with st := .debug, pc := c.pc + 4, hints := Hints.clear }

/-- `brk` (R424): class 9, or, with a debugger attached, the path stops and is reported. -/
def execBrk (w : BitVec 1) (n : BitVec 16) (s0 : State) : Result :=
  issue (infoNone w).bare
    (fun c s =>
      if s.debugger then
        ({ s with debugLog := s.debugLog ++ [(c.g, c.pc)] }.updGroup c.g fun G => G.debugStop c).draw 1
      else (s.raise c.g c.h ⟨c.mask, c.pc + 4, c.first, c.pc + 4, causeWord 9 0 n.toNat, false⟩).draw 1) s0

/-- `tret` (R427): its threads wait for the rest of the handler path; the last ends the handler. The handler of a matrix-stream
fault has no threads, and ends at once (R396). -/
def execTret (w : BitVec 1) (s0 : State) : Result :=
  issue { (infoNone w).bare with handler := true }
    (fun c s =>
      if c.mask = 0 then (s.endSeqHandler c.g true).draw 1
      else
        ((s.updGroup c.g fun G => G.updLanes (lanesOf c.mask) fun _ t => { t with st := .tretWait }).handlerCheck c.g).draw 1) s0

/-- `trep` (R426): one record for each thread, the last standing; illegal in the handler of a matrix-stream fault (R396). -/
def execTrep (w : BitVec 1) (d : BitVec 7) (a : BitVec 7) (s0 : State) : Result :=
  issue { (infoV2 w d a).bare with handler := true }
    (fun c s =>
      if c.mask = 0 then s.trapAt c 1 0
      else
        (s.updGroup c.g fun G =>
          { G with hnd := G.hnd.map fun H =>
              { H with repl := (lanesOf c.mask).foldl (fun r l => SMap.put r l (d.toNat, c.rv l a.toNat)) H.repl } }).retire c) s0

/-- The trap that the handler path of a group serves. -/
def Group.served (G : Group) : TrapEntry := match G.hnd with | some H => H.trap | none => ⟨0, 0, 0, 0, 0, false⟩

/-- `tmask` (R425). -/
def execTmask (w : BitVec 1) (d : BitVec 10) (s0 : State) : Result :=
  issue { (infoS1 w d 1 1).bare with handler := true } (fun c s => s.putS c d.toNat [c.G.served.mask]) s0

/-- `tcause` (R393, R425). -/
def execTcause (w : BitVec 1) (d : BitVec 10) (s0 : State) : Result :=
  issue { (infoS1 w d 2 2).bare with handler := true }
    (fun c s => s.putS c d.toNat [c.G.served.cause, c.G.served.fpc]) s0

/-! ## Segments -/

/-- A segment whose V is 0 holds LAST = 0 (R233). -/
def segNorm (x : QWord) : QWord := if segV x then x else segMake (segBase x) 0 false

/-- `segset` (R232, R428): privileged; a value that fails its check traps with the record detail. -/
def execSegset (w : BitVec 1) (p : BitVec 3) (a : BitVec 10) (s0 : State) : Result :=
  issue { (infoS1 w a 4 4).bare with priv := true }
    (fun c s =>
      let x := c.rs4 a.toNat
      if segOk p.toNat x then (s.updGroup c.g fun G => { G with seg := G.seg.put p.toNat (segNorm x) }).retire c
      else s.trapAt c 1 6) s0

/-- The four words of a 128-bit register, low first (R230). -/
def words4 (x : QWord) : List Word := (List.range 4).map fun i => x.extractLsb' (32 * i) 32

/-- `segget` (R428): in the handler path the code space reads the handler segment (R389). -/
def execSegget (w : BitVec 1) (p : BitVec 3) (d : BitVec 10) (s0 : State) : Result :=
  issue (infoS1 w d 4 4).bare
    (fun c s => s.putS c d.toNat (words4 (if p = 4 then c.G.code c.h else c.G.segment p.toNat))) s0

/-! ## Code -/

/-- An invalidation of a function's lines in a core's instruction cache (R429, R512): those on their way with them. The words that groups and
sequencers have fetched stay with them, and a loop buffer serves each group until that leaves its range. -/
def State.invalidateCode (s : State) (core vf : Nat) : State :=
  s.updCore core fun c =>
    { c with
      icache := c.icache.filter fun x => x.vf != vf
      cfills := c.cfills.filter fun x => x.vf != vf
      cbad := c.cbad.filter fun x => x.1 != vf
      parts := c.parts.map fun (p, P) => (p, { P with loop := P.loop.map fun b =>
        if b.vf = vf then { b with inv := true, gone := [] } else b }) }

/-- `icinv` (R429). -/
def execIcinv (w : BitVec 1) (s0 : State) : Result :=
  issue (infoNone w).bare (fun c s => (s.invalidateCode c.G.core c.G.vf).retire c) s0

/-- `isync` (R429, R512): the partition's loop buffer and the group's fetched words are discarded. -/
def execIsync (w : BitVec 1) (s0 : State) : Result :=
  issue (infoNone w).bare
    (fun c s =>
      ((s.updPart c.G.core c.G.part fun p => { p with loop := none }).updGroup c.g fun G => { G with pre := [] }).retire c) s0

/-! ## Shootdowns (R409) -/

/-- Does a cached entry map a page of a range, or stand on the way to one (R409)? The range is `n` pages from `page`, the whole
space for 0. -/
def TlbEntry.meets (e : TlbEntry) (vf page n : Nat) : Bool :=
  e.vf == vf && (n == 0 || (e.tag * pageSize e.lev < (page + n) * 4096 && page * 4096 < (e.tag + 1) * pageSize e.lev))

/-- Does a range hold a virtual address? -/
def inPages (page n va : Nat) : Bool := n == 0 || (page ≤ va / 4096 && va / 4096 < page + n)

/-- No cache holds an entry of the range. -/
def State.dropTlb (s : State) (vf page n : Nat) : State :=
  { s with
    cores := s.cores.map fun (k, c) => (k, { c with tlb := c.tlb.filter fun e => !(e.meets vf page n) })
    dies := s.dies.map fun (k, d) => (k, { d with tlb := d.tlb.filter fun e => !(e.meets vf page n) }) }

/-- The reading of a condition is given up: no translation of it is kept (R409, R420), and what is still to come of it does not count. -/
def WCond.unread (x : WCond) : WCond := x.updPoll fun _ p => { Poll.init p.cls p.budget with ser := p.ser + 1, sent := p.sent }

/-- The readings of a blocked path are given up. -/
def Block.unread (b : Block) (p : WCond → Bool) : Block :=
  { b with cond := match b.cond with
    | .wait sd cs al t e => .wait sd (cs.map fun x => if p x then x.unread else x) al t e
    | x => x }

/-- Does a condition read a word in a range? -/
def WCond.inPages (x : WCond) (page n : Nat) : Bool :=
  match x with | .mem (some ls) _ _ _ => (globVas ls).any (Machine.inPages page n) | _ => false

/-- A shootdown begins: no further access translates through an old entry, and a word that a path waits for is translated again before its
next reading. -/
def State.shoot (s : State) (vf page n : Nat) : State :=
  let s := (s.dropTlb vf page n).mapGroups fun G =>
    if G.vf = vf then { G with blk := G.blk.map fun b => b.unread fun x => x.inPages page n } else G
  { s with shoots := s.shoots ++ [(⟨s.uid, vf, page, n, false, [], 0⟩ : Shoot)] }.bump

/-- Has an access that translated before a shootdown yet to be performed (R409)? -/
def Shoot.waitsFor (x : Shoot) (G : Group) (a : Acc) : Bool :=
  G.vf == x.vf && a.id < x.id && !(a.perf && a.wait == 0) &&
  a.lanes.any fun l => l.locs.any fun p => match p with | .glob va _ => inPages x.page x.n va | _ => false

/-- Does a list of places lie in a range in part? -/
def placesIn (ps : List (Nat × List Loc)) (page n : Nat) : Bool := ps.any fun (_, ls) => (globVas ls).any (inPages page n)

/-- Are an engine's accesses ones through translations: those to rings, queues and by the host go by physical addresses? -/
def Eng.translates : Eng → Bool
  | .ring _ _ => false
  | .queue _ => false
  | .host _ _ => false
  | _ => true

/-- Has an engine's transaction that translated before a shootdown yet to be performed (R409)? -/
def Shoot.waitsTxn (x : Shoot) (y : Txn) : Bool :=
  y.vf == x.vf && y.id < x.id && y.who.translates && placesIn (y.rd ++ y.wr) x.page x.n && !y.complete && !(y.wr.isEmpty && y.due.isEmpty)

/-- Has a fetch of code that translated before a shootdown yet to be performed (R409)? -/
def Shoot.waitsCode (x : Shoot) (f : CodeFill) : Bool := f.vf == x.vf && f.id < x.id && inPages x.page x.n (f.vsec * 64)

/-- Has something that translated before a shootdown yet to be performed (R409)? -/
def State.shootWaits (s : State) (x : Shoot) : Bool :=
  s.groups.any (fun (_, G) => G.acc.any fun a => x.waitsFor G a) || s.txns.any (fun (_, y) => x.waitsTxn y) ||
  s.cores.any fun (_, c) => c.cfills.any x.waitsCode

/-- The lines of the range, on every core, are written back and invalidated; a fill that is outstanding is superseded, and a
prefetch that waits for a line is given up. -/
def State.shootLines (s : State) (x : Shoot) : State :=
  let hit (vf vline : Nat) : Bool := vf == x.vf && inPages x.page x.n (vline * 256)
  s.cores.foldl (fun s (k, c) =>
    let s := c.l1.foldl (fun s L =>
      if hit L.vf L.vline then (if c.lineBusy L then s.backLine k L else s.evict k L) else s) s
    s.updCore k fun c => { c.invalidate fun f _ v => hit f (v / 4) with prefq := c.prefq.filter fun w => !(hit w.vf (w.vsec / 4)) }) s

/-- The write-backs of a function that are on their way. -/
def State.backsOf (s : State) (vf : Nat) : List Nat :=
  let mine (r : Req) : Option Nat := match r.src with | .back _ _ => if r.vf = vf then some r.id else none | _ => none
  s.wire.filterMap mine ++ s.dones.filterMap (fun d => mine d.req) ++
  s.dies.flatMap fun (_, D) =>
    D.units.flatMap (fun (_, U) => U.inq.filterMap mine) ++
    D.chans.flatMap fun (_, C) => C.q.filterMap fun q => match q with | .req r => mine r | .entry _ => none

/-- The paths in `tlbinv` on a shootdown go on; in a team that stops for pre-emption they do so at its restore (R419, R430). -/
def State.shootDone (s : State) (id : Nat) : State :=
  s.groups.foldl (fun s (g, G) =>
    match G.blk.find? fun b => b.cond == .tlbinv id with
    | none => s
    | some b =>
      if s.stopping G.team then
        s.updGroup g fun G => { G with blk := G.blk.map fun k => if k.id = b.id then { k with met := some 0 } else k }
      else s.unblock g b) s

/-- SHOOTDOWN_COMPLETE: shootdown `n` takes its next step (R409). Once the accesses that translated before it have been performed,
the lines of its range are written back and invalidated; once the write-backs have completed and the tick has reached their
completion times, it completes. -/
def execShootdownComplete (n : Nat) (s : State) : Result :=
  eventOf "SHOOTDOWN_COMPLETE"
    ((s.shoots.find? (·.id == n)).bind fun x =>
      if x.begun then
        (if x.out = [] ∧ x.until_ ≤ s.now then
          some ((({ s with shoots := s.shoots.filter (·.id != n) }).dropTlb x.vf x.page x.n).shootDone n)
        else none)
      else if s.shootWaits x then none
      else
        let s := (s.dropTlb x.vf x.page x.n).shootLines x
        let out := s.backsOf x.vf
        some { s with shoots := s.shoots.map fun y => if y.id = n then { y with begun := true, out := out } else y })

/-- `tlbinv` (R430): the descriptor is checked, the shootdown begins, and the path waits for its end. A function is configured
when it is enabled (log 18). -/
def execTlbinv (w : BitVec 1) (a : BitVec 10) (s0 : State) : Result :=
  issue { (infoS1 w a 4 4).bare.block with priv := true }
    (fun c s =>
      let r := (c.rsn a.toNat 4).map (·.toNat)
      let x0 := r.getD 0 0
      let x1 := r.getD 1 0
      let n := r.getD 2 0
      let f := r.getD 3 0
      let page := (x1 % 65536 * 2 ^ 32 + x0) / 4096
      if x0 % 4096 ≠ 0 ∨ x1 / 65536 ≠ 0 ∨ f / 64 ≠ 0 ∨ !(s.vf f).en ∨ page + n > 2 ^ 36 then s.trapAt c 1 6
      else (s.shoot f page n).blockPath c (.tlbinv s.uid)) s0

/-- The team that a function, a team index and a launch identifier name (R431). -/
def State.teamNamed (s : State) (f x lid : Nat) : Option (Nat × Team) :=
  List.find? (fun (y : Nat × Team) => y.2.vf == f && y.2.x == x &&
    (match s.launch? y.2.launch with | some L => L.r.lid == lid | none => false)) s.teams

/-- `ctxsw` (R431): pre-emption of the team that the descriptor names is requested. -/
def execCtxsw (w : BitVec 1) (a : BitVec 10) (s0 : State) : Result :=
  issue { (infoS1 w a 4 4).bare with priv := true }
    (fun c s =>
      let r := (c.rsn a.toNat 4).map (·.toNat)
      let f := r.getD 2 0
      if f / 64 ≠ 0 ∨ r.getD 3 0 ≠ 0 ∨ !(s.vf f).en then s.trapAt c 1 6
      else
        (match s.teamNamed f (r.getD 1 0) (r.getD 0 0) with
         | some (t, _) => s.preempt t
         | none => s).retire c) s0

/-! ## Counters and clocks -/

/-- A counter (R432); a selector that names none reads 0. -/
def State.counter (s : State) (core sel : Nat) : Nat :=
  let c := s.core core
  let d := s.die (dieOf core)
  if sel ≤ 17 then c.missed.get sel 0
  else if sel = 18 then d.missD
  else if sel = 19 then d.missA
  else if sel = 20 then d.missQ
  else if 32 ≤ sel ∧ sel ≤ 159 then
    let u := d.units.get ((sel - 32) / 4) Unit.init
    if sel % 4 = 0 then u.alloc else if sel % 4 = 1 then u.join else if sel % 4 = 2 then u.close else u.full
  else if sel = 160 then d.corr
  else if sel = 161 then d.parity
  else if sel = 162 then c.secc
  else 0

/-- `pctr` (R432): the counter is sampled when the result is written; selectors 32 to 161 read 0 in user mode. -/
def execPctr (w : BitVec 1) (d : BitVec 10) (n : BitVec 10) (s0 : State) : Result :=
  issue { (infoS1 w d 1 1).bare with var := true }
    (fun c s =>
      let id := s.uid
      let sel := if 32 ≤ n.toNat ∧ n.toNat ≤ 161 ∧ !(s.privileged c) then 1023 else n.toNat
      ((s.updGroup c.g fun G =>
        { G.openWindow id c.mask (.s d.toNat 1) with
          pend := G.pend ++ [⟨id, c.mask, c.first, .s d.toNat 1, none, some sel⟩] }).bump).retire c) s0

/-- The values with which a pending result is written: its own, or the sample of a counter (R432). -/
def State.resultOf (s : State) (G : Group) (p : Pend) : Option (List LaneVal) :=
  match p.ctr with
  | some sel => some [⟨0, [BitVec.ofNat 32 (s.counter G.core sel)], 0, false⟩]
  | none => p.vals

/-- RESULT_WRITEBACK: the result of instruction `id` of group `g` is written (R20, R26, R32). -/
def execResultWriteback (g id : Nat) (s : State) : Result :=
  eventOf "RESULT_WRITEBACK"
    ((s.group? g).bind fun G => (G.pend.find? (·.id == id)).bind fun p => (s.resultOf G p).map fun vs =>
      (s.updGroup g fun G => G.land s.fresh p vs).draw 1)

/-- `clock` (R433). -/
def execClock (w : BitVec 1) (d : BitVec 10) (s0 : State) : Result :=
  issue (infoS1 w d 2 2).bare (fun c s => s.putS c d.toNat [BitVec.ofNat 32 s.now, BitVec.ofNat 32 (s.now / 2 ^ 32)]) s0

/-- `cycles` (R433). -/
def execCycles (w : BitVec 1) (d : BitVec 10) (s0 : State) : Result :=
  issue (infoS1 w d 2 2).bare
    (fun c s =>
      let n := (s.die (dieOf c.G.core)).cyc / 1000
      s.putS c d.toNat [BitVec.ofNat 32 n, BitVec.ofNat 32 (n / 2 ^ 32)]) s0

/-! ## Hint words -/

/-- The path moves past a hint word; its recorded hints are changed (R28). -/
def State.hintPast (s : State) (c : Ctx) (f : Hints → Hints) : State :=
  (s.updGroup c.g fun G =>
    if c.mask = 0 then { G with hnd := G.hnd.map fun H => { H with pc := H.pc + 4, hints := f H.hints } }
    else G.updLanes (lanesOf c.mask) fun _ t => { t with pc := t.pc + 4, hints := f t.hints }).draw 1

/-- The issue of a hint word (R20, R30): with W it waits as any word does. In the matrix stream it is a fault of the stream
(R58 step 2). -/
def issueHint (w : Bool) (k : Ctx → State → State) (s : State) : Result :=
  match s.cur with
  | .none => .fault .noIssuer
  | .seq t =>
    match s.team? t with
    | some T => if T.seqLive then .next (s.seqFault t 2 0) else .fault .noIssuer
    | none => .fault .noIssuer
  | .path _ _ _ _ =>
    match s.context? with
    | none => .fault .noIssuer
    | some c =>
      .next (if w then
          (if c.G.waits c.mask then s
           else if c.G.late c.mask then s.deliverAll c
           else k c.waited (s.waited c))
        else k c s)

/-- `imm` (R28, R29). -/
def execImm (w : BitVec 1) (i : BitVec 24) (s0 : State) : Result :=
  issueHint (flag1 w) (fun c s => s.hintPast c fun h => { h with imm := some (c.pc, i) }) s0

/-- `immhi` (R28, R29). -/
def execImmhi (w : BitVec 1) (h : BitVec 8) (s0 : State) : Result :=
  issueHint (flag1 w) (fun c s => s.hintPast c fun x => { x with immhi := some (c.pc, h.setWidth 24) }) s0

/-- The payload of a mod hint from its fields (R73). -/
def modPayload (l c : BitVec 1) (f : BitVec 7) (p : BitVec 3) (r : BitVec 2) (y : BitVec 1) (o : BitVec 2) (s : BitVec 4) : BitVec 24 :=
  BitVec.ofNat 24 (l.toNat * 2 ^ 20 + c.toNat * 2 ^ 19 + f.toNat * 2 ^ 12 + p.toNat * 2 ^ 9 + r.toNat * 2 ^ 7 + y.toNat * 2 ^ 6 +
    o.toNat * 2 ^ 4 + s.toNat)

/-- `mod` (R28, R29, R73). -/
def execModh (w : BitVec 1) (l c : BitVec 1) (f : BitVec 7) (p : BitVec 3) (r : BitVec 2) (y : BitVec 1) (o : BitVec 2) (q : BitVec 4)
    (s0 : State) : Result :=
  issueHint (flag1 w) (fun k s => s.hintPast k fun x => { x with modh := some (k.pc, modPayload l c f p r y o q) }) s0

/-- The larger of two live sets (R417). -/
def liveMax (a : Option (Nat × Nat × Bool × Bool)) (b : Nat × Nat × Bool × Bool) : Option (Nat × Nat × Bool × Bool) :=
  match a with
  | none => some b
  | some (v, s, p, j) => some (max v b.1, max s b.2.1, p || b.2.2.1, j || b.2.2.2)

/-- A path stops at a safe hint, the next word being its PC, with its live set (R417, R419). The recorded hints are no part of
the saved context (R420, log 60). -/
def Group.stopAt (G : Group) (c : Ctx) (live : Nat × Nat × Bool × Bool) : Group :=
  let G := { G with live := liveMax G.live live }
  if c.mask = 0 then { G with hnd := G.hnd.map fun H => { H with pc := c.pc + 4, halt := true } }
  else G.updLanes (lanesOf c.mask) fun _ t => { t with st := .stopped, pc := c.pc + 4 }

/-- A trap at a hint word itself (R29, R58 step 2). -/
def State.hintTrap (s : State) (c : Ctx) : State :=
  (s.raise c.g c.h ⟨c.mask, c.pc, c.pc, c.pc + 4, causeWord 1 3 0, false⟩).draw 1

/-- `safe` (R29, R30, R417): it waits as W = 1 does, and stops its path when pre-emption has been requested. -/
def execSafe (_w : BitVec 1) (j : BitVec 1) (p : BitVec 1) (n : BitVec 10) (v : BitVec 7) (s0 : State) : Result :=
  issueHint true
    (fun c s =>
      if v ≠ 127 ∧ v.toNat > c.G.held then s.hintTrap c
      else if s.stopping c.G.team then
        (s.updGroup c.g fun G => G.stopAt c (v.toNat, n.toNat, flag1 p, flag1 j)).draw 1
      else s.hintPast c id) s0

/-- The sequencer goes on to its next word (R345). -/
def State.seqNext (s : State) (t : Nat) : State :=
  s.updTeam t fun T => { T with seq := { T.seq with mpc := T.seq.mpc + 4 } }

/-- `nop` (R28, R29, R59): the one hint of both streams. It fills the slot of its kind, with the payload zero. In the matrix stream bit 31 must be zero (R70). -/
def execNop (w : BitVec 1) (s0 : State) : Result :=
  match s0.cur with
  | .seq t =>
    match s0.team? t with
    | some T =>
      if T.seqLive then (if w = 0 then .next (s0.seqNext t) else .next (s0.seqFault t 3 0)) else .fault .noIssuer
    | none => .fault .noIssuer
  | _ => issueHint (flag1 w) (fun c s => s.hintPast c fun h => { h with nop := some (c.pc, 0) }) s0

end Sys2Proof.Machine
end

