-- ==== Sys2Proof/Machine/Preempt.lean ====
section
/-! DEFINITION. Pre-emption: the request, the time-out, the save and the restore of a team (R397, R415, R417 to R422), and the answers
to fault records (R414). -/

namespace Sys2Proof.Machine

/-! ## Answers to fault records (R414, R415) -/

/-- Does a party wait for the answer to another record (R411: each faulting page has its own)? -/
def State.waitsMore (s : State) (p : Parked) : Bool := s.faults.any fun x => x.2 == p

/-- The threads of a group that wait for the answer to some record. -/
def State.lanesParked (s : State) (g : Nat) : Word :=
  s.faults.foldl (fun m x => match x.2 with | .lanes h k => if h = g then m ||| k else m | _ => m) 0

/-- Threads that wait on a fault record go on once they wait on no other, or are killed (R223, R414). A path without lanes is the handler path
of a matrix-stream fault (R396). -/
def State.answerLanes (s : State) (g : Nat) (m : Word) (kill : Bool) : State :=
  match s.group? g with
  | none => s
  | some G =>
    if m = 0 then
      (if kill then s.endSeqHandler g false
       else if s.waitsMore (.lanes g 0) then s
       else s.updGroup g fun G => { G with hnd := G.hnd.map fun H => { H with ready := true } })
    else
      let ls := (lanesOf m).filter fun l => (G.lane l).st == .faulted
      if kill then s.kill g (maskOf ls)
      else s.updGroup g fun G => G.updLanes (ls.filter fun l => !(s.lanesParked g).getLsbD l) fun _ t => { t with st := .ready }

/-- The launch of a team fails by an answer (R414, R449). -/
def State.answerFails (s : State) (t : Nat) : State :=
  match s.team? t with | some T => s.failLaunch T.launch 3 | none => s

/-- A party that waits for no further answer goes on (R414). -/
def State.resume (s : State) (p : Parked) : State :=
  if s.waitsMore p then s
  else
    match p with
    | .copy core id => s.updCopy core id fun y => { y with fid := none }
    | .seq t => s.updSeq t fun q => { q with fid := none }
    | .cmd die id => s.updXCmd die id fun y => { y with fid := none }
    | .start t => s.updTeam t fun T => { T with fid := none }
    | .obj o => s.updColl o fun c => { c with fid := none }
    | .assay d o => s.updAssay d o fun a => { a with fid := none }
    | _ => s

/-- The effect of an answer on the party that waits for it: 0 retry, 1 kill, 2 fail (R414). A kill of a party that is no thread acts
as fail. A submission queue whose read is not retried goes on past the record (log 33). -/
def State.answerParty (s : State) (p : Parked) (act : Nat) : State :=
  match p with
  | .lanes g m =>
    if act = 2 then (match s.group? g with | some G => s.answerFails G.team | none => s) else s.answerLanes g m (act == 1)
  | .copy core id =>
    match s.copyCmd? core id with
    | none => s
    | some x => if act = 0 then s.resume p else s.answerFails x.tuid
  | .seq t => if act = 0 then s.resume p else s.answerFails t
  | .cmd die id =>
    match s.xcmd? die id with
    | none => s
    | some x => if act = 0 then s.resume p else s.failLaunch x.launch 3
  | .start t => if act = 0 then s.resume p else s.answerFails t
  | .subq v q =>
    s.updSubQ v q fun x => { x with fid := none, head := if act = 0 then x.head else x.head + 1 }
  | .obj o =>
    let c := s.coll o
    if c.fid.isNone then s
    else if act = 0 then s.resume p
    else (s.updColl o fun c => { c with fid := none, jobs := [] }).failLaunch c.launch 3
  | .assay d o =>
    let a := s.assay d o
    if a.fid.isNone then s
    else if act = 0 then s.resume p
    else (s.updAssay d o fun a => { a with fid := none, jobs := [] }).failLaunch a.launch 3
  | .trap => s

/-- The team to whose context an answer belongs: that of parked threads, of a sequencer, of a start (R415). -/
def State.partyTeam (s : State) (p : Parked) : Option Nat :=
  match p with
  | .lanes g _ => (s.group? g).map (·.team)
  | .seq t => some t
  | .start t => some t
  | _ => none

/-- The key of a fault identifier of a function. -/
def fidKey (vf fid : Nat) : Nat := vf * 2 ^ 32 + fid

/-- Is a team being saved, or saved (R415)? -/
def State.saving (s : State) (t : Nat) : Bool :=
  match s.team? t with | some T => T.pre == .flushing || T.pre == .saved | none => false

/-- An answer of the host (R414): ACTION 3, a FID that is unknown or answered, and an answer to a trap record are ignored; an answer for
a team that is being saved, or is saved, is recorded (R415). -/
def State.answerFault (s : State) (vf fid act : Nat) : State :=
  match s.faults.find? (fidKey vf fid) with
  | none => s
  | some p =>
    if act = 3 ∨ p = .trap then s
    else
      match s.partyTeam p with
      | none => { s with faults := s.faults.del (fidKey vf fid) }.answerParty p act
      | some t =>
        if s.saving t then s.updTeam t fun T => if T.answers.any (fun x => x.1 == fid) then T else { T with answers := T.answers ++ [(fid, act)] }
        else { s with faults := s.faults.del (fidKey vf fid) }.answerParty p act

/-! ## The request and its time-out (R419, R397) -/

/-- PREEMPTION_REQUEST: the host asks for the pre-emption of team `t` (R419). -/
def execPreemptionRequest (t : Nat) (s : State) : Result :=
  eventOf "PREEMPTION_REQUEST"
    ((s.team? t).bind fun T => if T.pre = .none then some (s.preempt t) else none)

/-- The pre-emption time-out of a function in ticks (R419). -/
def Vf.timeout (v : Vf) : Nat := if v.pto = 0 then 100000 else v.pto

/-- The Ready threads of a group, by path: handler or not, PC, and mask. -/
def Group.readyPaths (G : Group) : List (Bool × Word × Word) :=
  (List.range 32).foldl (fun (ps : List (Bool × Word × Word)) l =>
    let t := G.lane l
    if t.st ≠ .ready then ps
    else if ps.any (fun p => p.1 == t.hnd && p.2.1 == t.pc) then
      ps.map fun p => if p.1 == t.hnd && p.2.1 == t.pc then (p.1, p.2.1, p.2.2 ||| laneBit l) else p
    else ps ++ [(t.hnd, t.pc, laneBit l)]) []

/-- The threads of a group that have reached no safe point are parked with class 8, at the first hint recorded for their next
instruction, the whole allotment live (R397). A handler path without lanes stops where it is (log 34). -/
def State.parkLate (s : State) (g : Nat) : State :=
  match s.group? g with
  | none => s
  | some G =>
    if G.ended then s
    else
      let s := s.updGroup g fun G => { G with
        hnd := G.hnd.map fun H => if H.trap.seq && H.ready then { H with halt := true } else H
        live := some (127, 1023, true, true) }
      G.readyPaths.foldl (fun s (h, pc, m) =>
        (G.hintClasses 32 (lanesOf m)).foldl (fun s k =>
          let first := (G.pathHints k).first pc
          s.raise g h ⟨k, first, first, first, causeWord 8 0 0, false⟩) s) s

/-- Has a group a thread that may still issue? One that its convoy holds is at a safe point (R418). -/
def Group.running (G : Group) : Bool :=
  !G.ended && !G.cvm.held && (!G.readyPaths.isEmpty || (match G.hnd with | some H => H.trap.seq && H.ready && !H.halt | none => false))

/-- PREEMPTION_TIMEOUT: the time-out of team `t`'s pre-emption expires with threads at no safe point (R397). -/
def execPreemptionTimeout (t : Nat) (s : State) : Result :=
  eventOf "PREEMPTION_TIMEOUT"
    ((s.team? t).bind fun T =>
      match T.pre with
      | .asked k =>
        if k + (s.vf T.vf).timeout ≤ s.now ∧ T.groups.any (fun g => match s.group? g with | some G => G.running | none => false) then
          some (T.groups.foldl State.parkLate s)
        else none
      | _ => none)

/-! ## The save (R417, R418, R420) -/

/-- Is a blocked path one that pre-emption lets stand (R418)? The actions of a fence and a peer access are waited for (R419, log 9). -/
def Block.safe (b : Block) : Bool :=
  match b.cond with | .fence _ _ => false | .peer _ _ => false | _ => true

/-- Is a group stopped, with its accesses performed (R419), and no join of it outstanding, which the marshal answers first (R303)? -/
def Group.stoppedNow (G : Group) : Bool :=
  G.ended || (!G.running && G.joinDesc.isNone && G.blk.all Block.safe && G.acc.all fun a => a.perf && a.wait == 0)

/-- Is a sequencer stopped: in front of a `marv` or `mwait`, in an `mwait`, in a fault, or not there (R358)? One in `mtag` goes on. -/
def Seq.halted (q : Seq) (stop : Bool) : Bool :=
  q.run != 1 || stop || q.sflt || q.fid.isSome || (match q.wait with | some (true, _) => true | _ => false)

/-- The groups of a team. -/
def State.groupsOf (s : State) (T : Team) : List (Nat × Group) := T.groups.filterMap fun g => (s.group? g).map fun G => (g, G)

/-- May the save of a team begin: its groups and its sequencer are stopped, and its copies complete (R419)? -/
def State.saveReady (s : State) (t : Nat) (T : Team) : Bool :=
  (s.groupsOf T).all (fun x => x.2.stoppedNow) && T.seq.halted T.seqStop &&
  !((s.core T.core).copies.any fun x => x.tuid == t)

/-- Has the release of the save ended (R279, R420)? -/
def State.saveReleased (s : State) (T : Team) : Bool :=
  (s.groupsOf T).all (fun x => !(s.backsOut x.1)) && (s.core T.core).hzc ≤ s.now

/-- A thread is at a safe point at which the full allotment is live (R418). -/
def Thread.allLive (t : Thread) : Bool :=
  match t.st with
  | .join _ _ => true
  | .trapped => true
  | .faulted => true
  | .blocked _ => true
  | .tretWait => true
  | .debug => true
  | _ => false

/-- The registers of a group that its save does not keep are free values (R417). -/
def Group.trimmed (G : Group) (n : Nat) : Group :=
  let full := (List.range 32).any fun l => (G.lane l).allLive
  match if full then none else G.live with
  | none => G
  | some (v, k, preds, joins) =>
    { G with
      lanes := G.lanes.map fun (l, t) =>
        (l, { t with
          v := if v = 127 then t.v
               else (List.range (G.held - v)).foldl (fun m i => SMap.put m (v + i) (Config.freeWord (n + 128 * l + v + i))) t.v
          p := if preds then t.p else (Config.freeWord (n + 4096 + l)).setWidth 8 })
      s := if k = 1023 then G.s
           else (List.range (1024 - k)).foldl (fun m i => SMap.put m (k + i) (Config.freeWord (n + 4128 + k + i))) G.s
      j := if joins then G.j else (List.range 8).map fun i => (i, Config.freeWord (n + 5152 + i))
      arr := if joins then G.arr else (List.range 8).map fun i => (i, Config.freeWord (n + 5160 + i)) }

/-- A group of a team that is saved gives its slot and its blocks back; what it holds of registers is kept (R188, R420). -/
def State.saveGroup (s : State) (g : Nat) : State :=
  match s.group? g with
  | none => s
  | some G =>
    if G.ended then s
    else
      let s := (s.updGroup g fun G => { G with svHeld := G.cvm.held }).detach g 4
      let s := s.updPart G.core G.part fun p => { p with pool := p.pool + G.ext, rbq := p.rbq.filter (·.1 != g) }
      (s.updGroup g fun G => { G.trimmed s.fresh with cur := none, run := 0, skip := false, pre := [], blk := G.blk.map fun b => b.unread fun _ => true }).draw 5168

/-- The cells of a range of an array, from its start. -/
def cellsOf (m : List Host.Cell) (b n : Nat) : List Host.Cell :=
  (m.filter fun x => b ≤ x.1 && x.1 < b + n).map fun x => (x.1 - b, x.2)

/-- The context of a team is saved, and its core is free of it (R420, R421). -/
def State.saveTeam (s : State) (t : Nat) (T : Team) : State :=
  let c := s.core T.core
  let s := T.groups.foldl State.saveGroup s
  let s := s.updTeam t fun T =>
    { T with
      pre := .saved
      seq := { T.seq with buf := [] }
      svSpad := cellsOf c.spad T.spadB T.spadN
      svObuf := cellsOf c.obuf T.obufB T.obufN
      svTags := c.tags &&& tagRange T
      svTerr := c.terr &&& tagRange T
      svTime := (List.range T.tagN).map fun i => (T.tagB + i, c.tagTime.get (T.tagB + i) 0) }
  let s := s.updCore T.core fun c =>
    { c with tagCnt := (List.range T.tagN).foldl (fun m i => SMap.put m (T.tagB + i) 0) c.tagCnt }
  let s := s.dropTxns (.start t)
  s.updLaunch T.launch fun L => { L with saved := L.saved ++ [t], since := s.now, noBack := false }

/-- CONTEXT_SAVE: the save of team `t` takes its next step (R420): the release at device scope begins once all of it has stopped, and
the context is saved once the release has ended. -/
def execContextSave (t : Nat) (s : State) : Result :=
  eventOf "CONTEXT_SAVE"
    ((s.team? t).bind fun T =>
      match T.pre with
      | .asked _ =>
        if s.saveReady t T then
          let s := (s.groupsOf T).foldl (fun s x => if x.2.cvm.held then s.stopReady x.1 else s) s
          some (((s.groupsOf T).foldl (fun s x => s.flushGroup x.1 x.2) s).updTeam t fun T => { T with pre := .flushing })
        else none
      | .flushing => if s.saveReleased T then some (s.saveTeam t T) else none
      | _ => none)

/-! ## The restore (R422) -/

/-- A place in a team's scratchpad range, moved with the range. -/
def Loc.moved (oldC oldB n newC newB : Nat) : Loc → Loc
  | .spad c a => if c = oldC ∧ oldB ≤ a ∧ a < oldB + n then .spad newC (a - oldB + newB) else .spad c a
  | x => x

/-- A segment whose base moves with its range (R233). -/
def segMoved (x : QWord) (old new_ : Nat) : QWord := segMake (segBase x - old + new_) (segLast x) (segV x)

/-- The conditions of a `wait` with their places moved. -/
def WCond.moved (f : Loc → Loc) : WCond → WCond
  | .mem ls c k p => .mem (ls.map fun l => l.map f) c k p
  | x => x

/-- A blocked path as it stands after a restore: its places have moved, and what it waits for is looked at again (R422). -/
def Block.restored (b : Block) (f : Loc → Loc) : Block :=
  match b.cond with
  | .wait sd cs al t e => { b with cond := .wait sd (cs.map (·.moved f)) al t e, met := none, comp := 0, terr := false }
  | .barw _ _ => { b with met := none }
  | .tag _ _ => { b with met := none, comp := 0, terr := false }
  | _ => b

/-- A group is restored (R422): its place and its segments are those of the new core, its stopped paths are Ready again. -/
def Group.restored (G : Group) (T : Team) (f : Fit) (slot : Nat) : Group :=
  { G with
    core := f.core
    part := (f.part0 + G.idx) % 16
    slot := slot
    seg := G.seg.map fun (k, x) =>
      (k, if k = 1 then segMoved x T.spadB f.spad else if k = 3 ∧ T.obufN ≠ 0 then segMoved x T.obufB f.obuf else x)
    lanes := G.lanes.map fun (l, t) => (l, if t.st = .stopped then { t with st := .ready, hints := Hints.clear } else t)
    hnd := G.hnd.map fun H => { H with halt := false }
    blk := G.blk.map fun b => b.restored (Loc.moved T.core T.spadB T.spadN f.core f.spad)
    live := none }

/-- The words that a restored path waits for are read again (R197, R422). -/
def State.repollBlock (s : State) (g : Nat) (b : Block) : State :=
  match b.cond with
  | .wait _ cs _ _ _ => (cs.zipIdx).foldl (fun s (x, k) =>
      match s.block? g b.id with
      | some (G, c) => s.repoll g G c k x
      | none => s) s
  | _ => s

/-- What a restored group does first: a request for blocks goes to the back of the queue (R220), a `tlbinv` whose shootdown has
ended and a `cvjoin` that has been answered go on, and the words of a `wait` are read. -/
def State.wakeGroup (s : State) (g : Nat) : State :=
  match s.group? g with
  | none => s
  | some G =>
    G.blk.foldl (fun s b =>
      match b.cond with
      | .rbacq n => s.updPart G.core G.part fun p => { p with rbq := p.rbq ++ [(g, n)] }
      | .tlbinv _ => if b.met.isSome then s.unblock g b else s
      | .cvjoin => if b.met.isSome then s.unblock g b else s
      | .wait _ _ _ _ _ => s.repollBlock g b
      | _ => s) s

/-- The number of `dro.corr` commands outstanding on a team's tag. -/
def State.corrsOn (s : State) (t tag : Nat) : Nat :=
  (s.colls.flatMap fun (_, c) => c.corrs.filter fun x => x.tuid == t && x.tag == tag).length +
  (s.dies.flatMap fun (_, D) => D.xcmds.filter fun x => x.tuid == t && x.func == 15 && db x.desc 0 8 6 == tag).length

/-- The commands of a team that wait at the Drover answer to the core that the team is restored on. -/
def State.moveCmds (s : State) (t c : Nat) : State :=
  let corr (x : Corr) : Corr := if x.tuid = t then { x with core := c } else x
  let cmd (x : XCmd) : XCmd := if x.tuid = t then { x with core := c } else x
  let coll (x : Nat × Coll) : Nat × Coll := (x.1, { x.2 with corrs := x.2.corrs.map corr })
  let die (x : Nat × Die) : Nat × Die := (x.1, { x.2 with xcmds := x.2.xcmds.map cmd })
  { s with
    colls := List.map coll s.colls
    dies := List.map die s.dies }

/-- A saved team is restored where it fits (R422). -/
def State.restoreTeam (s : State) (t : Nat) (f : Fit) : State :=
  match s.team? t with
  | none => s
  | some T =>
    let s := T.groups.foldl (fun s g => s.updGroup g fun G => { G with core := 336 }) s
    let s := s.updTeam t fun T => { T with core := f.core, pre := .none }
    let s := T.groups.foldl (fun s g =>
      match s.group? g with
      | none => s
      | some G =>
        if G.ended then s
        else
          let p := (f.part0 + G.idx) % 16
          let k := s.freeSlot f.core p
          (s.updPart f.core p fun x => { x with pool := x.pool - G.ext }).updGroup g fun G => G.restored T f k) s
    let put (base : Nat) (cs m : List Host.Cell) : List Host.Cell := cs.foldl (fun m x => SMap.set m (base + x.1) x.2 0) m
    let clear (b n : Nat) (m : List Host.Cell) : List Host.Cell := m.filter fun x => x.1 < b || b + n ≤ x.1
    let rng := tagRange T
    let cnt (m : SMap Nat) : SMap Nat := (List.range T.tagN).foldl (fun m i => SMap.put m (T.tagB + i) (s.corrsOn t (T.tagB + i))) m
    let s := s.updCore f.core fun c =>
      { c with
        spad := put f.spad T.svSpad (clear f.spad T.spadN c.spad)
        obuf := put f.obuf T.svObuf (clear f.obuf T.obufN c.obuf)
        obOld := c.obOld.filter fun x => x.1 < f.obuf || f.obuf + T.obufN ≤ x.1
        tags := (c.tags &&& ~~~rng) ||| T.svTags
        terr := (c.terr &&& ~~~rng) ||| T.svTerr
        tagCnt := cnt c.tagCnt
        tagTime := T.svTime.foldl (fun m x => SMap.put m x.1 x.2) c.tagTime }
    let s := s.moveCmds t f.core
    let s := (s.updTeam t fun T =>
      { T with
        order := s.uid, room := false
        part0 := f.part0, spadB := f.spad, obufB := f.obuf, seqStop := false
        svSpad := [], svObuf := [], svTags := 0, svTerr := 0, svTime := [], answers := [] }).bump
    let s := T.groups.foldl State.wakeGroup (s.invalidateAll f.core)
    (T.answers.foldl (fun s (fid, act) => s.answerFault T.vf fid act) s).wake

/-- TEAM_RESTORE: saved team `t`, with its cluster, is restored as the next unplaced team of its launch (R190, R422). -/
def execTeamRestore (t : Nat) (s : State) : Result :=
  eventOf "TEAM_RESTORE"
    (match s.decide with
     | some (.restore serial ts) =>
       if ts.head?.map (·.1) = some t then
         let s := ts.foldl (fun s (u, f) => s.restoreTeam u f) s
         some (s.updLaunch serial fun L =>
           { L with saved := L.saved.filter fun u => !(ts.any fun x => x.1 == u), since := s.now, noBack := false })
       else none
     | _ => none)

end Sys2Proof.Machine
end

