-- ==== Sys2Proof/Machine/Host.lean ====
section
/-! DEFINITION. What host nodes do through Neard: the configuration window (R445 to R449, R469, R507), answers to fault records (R414),
shootdowns (R409), attestation (R505) and reads and writes of device memory (R511); and peer accesses that reach this device (R443,
R444). -/

namespace Sys2Proof.Machine

/-- Neard serves the configuration window to owner endpoints only; a write from any other is dropped (R445). -/
def State.served (s : State) (ep : Nat) (t : State) : Result := .next (if s.owner ep then t else s)

/-- An address with the low bits of its alignment dropped (log 35). -/
def aligned (x n : Nat) : Nat := x / n * n

/-! ## The function register (R445, R446) -/

/-- The function register as it is read (R445). -/
def Vf.bits (v : Vf) : Nat :=
  fieldAt v.hcb 208 + fieldAt v.hcl 176 + fieldAt v.hent 144 + fieldAt v.pwb 96 + fieldAt v.pwn 88 + fieldAt (v.root / 4096) 48 +
  fieldAt v.pto 16 + fieldAt v.key 10 + fieldAt v.asid 2 + fieldAt v.priv.toNat 1 + v.en.toNat

/-- The fields of the function register that a write always changes (R445). -/
def Vf.load (v : Vf) (x : Nat) : Vf :=
  { v with
    hcb := rbits x 208 48, hcl := rbits x 176 32, hent := aligned (rbits x 144 32) 4, pwb := aligned (rbits x 96 48) 16
    pwn := rbits x 88 8, pto := rbits x 16 32, priv := rbits x 1 1 == 1 }

/-- The fields that only a write while EN = 0 changes (R446). -/
def Vf.loadKey (v : Vf) (x : Nat) : Vf :=
  { v with root := rbits x 48 40 * 4096, key := rbits x 10 6, asid := rbits x 2 8 }

/-- Is a write that sets EN one that is ignored (R446)? -/
def State.enableBad (s : State) (vf x : Nat) : Bool :=
  rbits x 10 6 == 0 || (List.range 64).any fun u =>
    u != vf && (s.vf u).en && ((s.vf u).key == rbits x 10 6 || (s.vf u).asid == rbits x 2 8)

/-- The oldest record of a ring is written at once, before its function's keys are gone (log 36). -/
def State.drainOne (s : State) (vf : Nat) (cq : Bool) : Option State :=
  (((s.vf vf).ring cq).next cq).map fun ws =>
    ((sectorsOf (ws.map (·.1))).foldl (fun s p => let w := sectorStore ws p; (s.engineWrite (s.key vf) p w.1 w.2).1) s).ringOn vf cq

/-- The records that a function's rings can take are written; the fuel is their number. -/
def State.drainRings (vf : Nat) : Nat → State → State
  | 0, s => s
  | n + 1, s =>
    match s.drainOne vf true with
    | some t => State.drainRings vf n t
    | none => match s.drainOne vf false with | some t => State.drainRings vf n t | none => s

/-- Is an engine a ring or a submission queue of a function? -/
def Eng.ofRings (vf : Nat) : Eng → Bool
  | .ring v _ => v == vf
  | .subq v _ => v == vf
  | _ => false

/-- Clearing EN: every launch of the function fails and its teams are gone; its keys are destroyed (R446, R504). The records that the
rings can take are written before (log 36), and the reads of its submission queues are given up. -/
def State.disable (s : State) (vf : Nat) : State :=
  let s := s.launches.foldl (fun (s : State) (x : Nat × Launch) => if x.2.vf = vf then s.failOne x.1 5 else s) s
  let s := State.drainRings vf ((s.vf vf).cq.held.length + (s.vf vf).fq.held.length) s
  { s.updVf vf fun v => { v with en := false } with txns := s.txns.filter fun x => !(x.2.who.ofRings vf) }

/-- A write of a function's register (R445, R446): while EN = 1, ROOT, KEY and ASID stay; a write that sets EN draws fresh keys (R504), or
is ignored; one that clears EN disables the function. -/
def State.writeVf (s : State) (vf x : Nat) : State :=
  let on := x % 2 == 1
  if (s.vf vf).en then
    let s := s.updVf vf fun v => v.load x
    if on then s else s.disable vf
  else if on then
    (if s.enableBad vf x then s
     else { s.updVf vf fun v => { (v.load x).loadKey x with en := true, gen := s.gens } with gens := s.gens + 1 })
  else s.updVf vf fun v => (v.load x).loadKey x

/-- FUNCTION_ENABLE: a write of `v` to the register of function `vf` with EN = 1 (R446). -/
def execFunctionEnable (ep vf v : Nat) (s : State) : Result :=
  s.served ep (if vf < 64 then s.writeVf vf (v / 2 * 2 + 1) else s)

/-- FUNCTION_DISABLE: a write of `v` to the register of function `vf` with EN = 0 (R446). -/
def execFunctionDisable (ep vf v : Nat) (s : State) : Result :=
  s.served ep (if vf < 64 then s.writeVf vf (v / 2 * 2) else s)

/-! ## The other registers of the window -/

/-- A write of a fault-queue register or of CQ (R413, R449): the producer index is read-only. -/
def Ring.load (r : Ring) (x al : Nat) : Ring :=
  { r with
    base := aligned (rbits x 80 48) al
    l := rbits x 76 4
    en := rbits x 64 1 == 1
    c := BitVec.ofNat 32 (rbits x 32 32) }

/-- A write of a whole submission-queue register (R447): SQERR is cleared by writing one, SQH is read-only, SQT is the doorbell. -/
def SubQ.load (q : SubQ) (x : Nat) : SubQ :=
  { q with
    base := aligned (rbits x 80 48) 256
    l := rbits x 76 4
    err := q.err && rbits x 65 1 == 0
    en := rbits x 64 1 == 1 }.doorbell (BitVec.ofNat 32 x)

/-- CONFIG_REGISTER_WRITE: a write of `v` to register `r` of the window: 0 the function register with EN as it is, 1 the fault queue
(R413), 2 CQ, 3 CQN (R449), 4 to 7 submission queues 0 to 3 (R447), 8 the device id (R442). -/
def execConfigRegisterWrite (ep vf r v : Nat) (s : State) : Result :=
  s.served ep
    (if vf ≥ 64 then s
     else if r = 0 then s.writeVf vf (v / 2 * 2 + (s.vf vf).en.toNat)
     else if r = 1 then s.updVf vf fun x => { x with fq := x.fq.load v 4096 }
     else if r = 2 then s.updVf vf fun x => { x with cq := x.cq.load v 4096 }
     else if r = 3 then s.updVf vf fun x => { x with cqn := v % 2 ^ 60 }
     else if r < 8 then s.updSubQ vf (r - 4) fun q => q.load v
     else if r = 8 then { s with devId := v % 4096 }
     else s)

/-- FAULT_RESPONSE_WRITE: the host writes the response register of function `vf` (R414). -/
def execFaultResponseWrite (ep vf v : Nat) (s : State) : Result :=
  s.served ep
    (if vf < 64 then
      (s.updVf vf fun x => { x with resp := BitVec.ofNat 64 (v % 2 ^ 34) }).answerFault vf (v % 2 ^ 32) (v / 2 ^ 32 % 4)
     else s)

/-- HOST_SHOOTDOWN: the host shoots down `n` pages of function `vf` from `page`, or, with n = 0, its whole space (R409). -/
def execHostShootdown (ep vf page n : Nat) (s : State) : Result := s.served ep (if vf < 64 then s.shoot vf page n else s)

/-- A queue record as the host writes it (R322): the pointers have 31 bits, and FREE is NSLOT − (TAIL − DONE). -/
def QRec.load (x own : Nat) : QRec :=
  let q : QRec :=
    { QRec.init with
      mirror := aligned (rbits x 208 48) 4, base := aligned (rbits x 160 48) 4096
      en := rbits x 155 1 == 1, cls := rbits x 153 2, lns := rbits x 149 4, lsz := rbits x 145 4
      done := rbits x 96 31, head := rbits x 64 31, pub := rbits x 32 31, tail := rbits x 0 31
      own := BitVec.ofNat 8 (rbits own 7 1 * 128 + rbits own 0 6) }
  { q with free := q.nslot - qDist q.done q.tail }

/-- QUEUE_CONFIG_WRITE: the host writes the record and the QOWN byte of queue `q` (R446). While the queue is enabled only a write that
clears EN acts, and it clears EN alone (log 37). EPUB and EDONE are cleared. -/
def execQueueConfigWrite (ep q v own : Nat) (s : State) : Result :=
  let r := (s.die (q / 256)).queue q
  s.served ep
    (if q ≥ 1024 then s
     else if r.en ∧ rbits v 155 1 = 1 then s
     else
       let r' := if r.en then { r with en := false } else QRec.load v own
       s.updDie (q / 256) fun D => { D with queues := D.queues.put (q % 256) r' })

/-- STAGING_AREA_SIZE_WRITE: ASZ of die `d`, from 0 to 4 GiB in multiples of 2 MiB, while no assay object of the die is open (R469). -/
def execStagingAreaSizeWrite (ep d v : Nat) (s : State) : Result :=
  s.served ep
    (if d < 4 ∧ v ≤ 2 ^ 32 ∧ v % 2 ^ 21 = 0 ∧ (List.range 16).all (fun o => (s.assay d o).ast &&& 1 == 0) then
      s.updDie d fun D => { D with asz := v }
     else s)

/-- POWER_LIMIT_WRITE: the limit in watts, from 1,600 to 2,400 (R507). -/
def execPowerLimitWrite (ep v : Nat) (s : State) : Result :=
  s.served ep (if 1600 ≤ v ∧ v ≤ 2400 then { s with power := v } else s)

/-! ## Attestation (R505) -/

/-- The number of enabled cores. -/
def State.upCores (s : State) : Nat := ((List.range 336).filter fun c => (s.core c).up).length

/-- The report over a nonce (R505): NONCE, DEVID, SVN, MEAS0, MEAS1, CORES, TICK. -/
def State.report (s : State) (nonce : Nat) : List Byte :=
  let regs := (List.range 64).flatMap fun v => leBytes 32 (s.vf v).bits
  leBytes 32 nonce ++ leBytes 2 s.devId ++ leBytes 2 s.image.ver ++ leBytes 48 (Config.sha384 s.image.bytes) ++
  leBytes 48 (Config.sha384 regs) ++ leBytes 2 s.upCores ++ leBytes 8 s.now

/-- ATTESTATION_REQUEST: an owner asks for a report on nonce `v`; it is sent with both signatures (R505). -/
def execAttestationRequest (ep v : Nat) (s : State) : Result :=
  let r := s.report (v % 2 ^ 256)
  s.served ep { s with reports := s.reports ++ [(r, Config.ed25519Sign r, Config.mlDsaSign r)] }

/-! ## Host accesses (R511) -/

/-- An access of the host has been answered: a read reports its sector, or that this failed its check. -/
def State.hostDone (s : State) (vf sec t : Nat) (x : Txn) : Option State :=
  if x.complete then some (s.endTxn t)
  else if x.ready then
    let bs := if x.bad = [] then (List.range 64).map (secByte (x.got.get sec 0)) else []
    some { s.endTxn t with hostReads := s.hostReads ++ [(vf, sec * 64, bs, x.bad != [])] }
  else none

/-- An access of the host leaves, as a request of class 1 without a deadline (log 64). -/
def State.hostSend (s : State) (vf w sec v : Nat) : State :=
  if w = 0 then (s.beginTxn (.host vf sec) vf 1 0 [(0, [.glob 0 (sec * 64)])] []).1
  else s.engStore (.host vf sec) vf 1 0 ((List.range 64).map fun i => (.glob 0 (sec * 64 + i), secByte (BitVec.ofNat 512 v) i))

/-- HOST_MEMORY_ACCESS: an owner reads (w = 0) or writes whole sector `sec` of device memory under the key slot of function `vf` (R511); or,
where such an access is under way, it has been answered. A sector beyond the end of memory is not there. -/
def execHostMemoryAccess (ep vf w sec v : Nat) (s : State) : Result :=
  if !(s.owner ep) ∨ vf ≥ 64 ∨ sec * 64 ≥ memEnd then .next s
  else
    eventOf "HOST_MEMORY_ACCESS"
      (match s.txnOf (.host vf sec) with
       | some (t, x) => s.hostDone vf sec t x
       | none => some (s.hostSend vf w sec v))

/-! ## Peer accesses at their target (R443, R444) -/

/-- What a peer access needs of its page. -/
def PeerReq.want (r : PeerReq) : Want := if r.op = 0 then .read else if r.op = 1 then .write else .atomic

/-- An answer to a peer access. -/
def PeerReq.answer (r : PeerReq) (bs : List Byte) (c : Nat) (bad : Bool) (f : Option (Nat × Nat)) : PeerAns :=
  ⟨r.id, r.guid, r.acc, r.off, r.parts, bs, c, bad, f, false⟩

/-- An answer goes to the device that asked (R443). -/
def State.sendAnswer (s : State) (dev : Nat) (x : PeerAns) : State :=
  if dev = s.devId then s.peerAnswer x else { s with ansOut := s.ansOut ++ [x] }

/-- The places of the bytes of a peer access in its sector, once that is translated. -/
def PeerReq.places (r : PeerReq) (psec : Nat) : List Loc :=
  r.parts.map fun b => .glob (r.vsec * 64 + b.at_) (psec * 64 + b.at_)

/-- The requests of a peer access at its target (R256, R443): they carry its class and the stamp with which it left its requester. -/
def State.peerBegin (s : State) (r : PeerReq) (psec : Nat) : State :=
  let ls := r.places psec
  if r.op = 0 then
    let b := s.beginTxn .peer r.rvf r.cls r.stamp [(0, ls)] []
    { b.1 with peerRun := b.1.peerRun ++ [(b.2, r)] }
  else
    let b := s.beginTxn .peer r.rvf r.cls r.stamp [] [(0, ls)]
    let s := { b.1 with peerRun := b.1.peerRun ++ [(b.2, r)] }
    if r.op = 1 then s.writeTxn b.2 (ls.zip r.data)
    else
      match s.txns.find? b.2 with
      | some x =>
        (s.updTxn b.2 fun x => { x with sent := true, out := 1 }).sendEng b.2 x
          [(psec, .atomic (r.op - 2) r.wide ((r.parts.head?.map (·.at_)).getD 0) r.data r.cmp)]
      | none => s

/-- A peer access reaches this device, and is translated in the address space of function RVF (R443, R444). A function that is not enabled
refuses it; a fault of its page is the answer. -/
def State.peerServe (s : State) (r : PeerReq) : State :=
  if !((s.vf r.rvf).en) then s.sendAnswer r.from_ (r.answer [] s.now true none)
  else
    let t := s.translate (s.die 0).tlb r.rvf (r.vsec * 64) r.want (s.fresh + 1)
    let s := (s.learnDie 0 t).draw 2
    match t with
    | .fault cause lev _ => s.sendAnswer r.from_ (r.answer [] s.now false (some (cause, lev)))
    | .ok pa _ => s.peerBegin r (pa / 64)

/-- The bytes that a peer access answers with: those read, or the old value of an atomic; none where the check failed. -/
def PeerReq.result (r : PeerReq) (x : Txn) : List Byte :=
  if r.op = 1 ∨ x.bad ≠ [] then []
  else r.parts.map fun b => secByte ((x.got.head?.map (·.2)).getD 0) b.at_

/-- A peer access that has been performed is answered at once, and a store or an atomic is acknowledged once the tick has reached its completion
time (R279, R443); a check that failed refuses it (R444). -/
def State.peerDone (s : State) (t : Nat) (x : Txn) (r : PeerReq) : State :=
  let s := { s.endTxn t with peerRun := s.peerRun.filter fun y => y.1 != t }
  let bad := x.bad != [] || x.werr
  let a := r.answer (r.result x) (if r.op = 0 then s.now else x.comp) bad none
  let s := if r.op = 0 ∨ bad then s else { s with peerAcks := s.peerAcks ++ [(r.from_, { a with ack := true })] }
  s.sendAnswer r.from_ a

/-- The next step of a peer access that is being performed here: its answer, once memory has served it. -/
def State.peerStep (s : State) (y : Nat × PeerReq) : Option State :=
  match s.txns.find? y.1 with
  | some x => if (if y.2.op = 0 then x.ready else x.complete) then some (s.peerDone y.1 x y.2) else none
  | none => none

/-- PEER_ACCESS_ARRIVAL: the peer access at place `n` of those on their way reaches this device, after the earlier ones to its sector from
its sender, and is translated and sent to memory; or the access at a place behind those, which is being performed here, is answered (R443,
R444). -/
def execPeerAccessArrival (n : Nat) (s : State) : Result :=
  eventOf "PEER_ACCESS_ARRIVAL"
    (match s.peerIn[n]? with
     | some r =>
       if (s.peerIn.take n).any fun x => x.from_ == r.from_ && x.rvf == r.rvf && x.vsec == r.vsec then none
       else some (State.peerServe { s with peerIn := s.peerIn.eraseIdx n } r)
     | none => (s.peerRun[n - s.peerIn.length]?).bind s.peerStep)

/-- The acknowledgement at a place of those that wait leaves once the tick has reached its completion time (R279). -/
def State.peerAckNext (s : State) (n : Nat) : State :=
  match s.peerAcks[n]? with
  | some (dev, a) => if a.c ≤ s.now then { s with peerAcks := s.peerAcks.eraseIdx n }.sendAnswer dev a else s
  | none => s

end Sys2Proof.Machine
end

