-- ==== Sys2Proof/Machine/Service.lean ====
section
/-! DEFINITION. Bring-up and recovery (R501 to R504, R510), power (R506, R507), soft errors (R401), repair and replay (R402, R403, R440,
R441, R508, R509). -/

namespace Sys2Proof.Machine

/-! ## Boot (R501 to R503) -/

/-- Does an image pass step 3 of the boot, with its security version at or above the floor (R501, R503)? -/
def State.verifies (s : State) (i : Image) : Bool := i.ed && i.ml && Nat.ble s.floor i.ver

/-- From step 3 on: the accepted image runs and may raise the floor; otherwise the device is in recovery (R501 to R503). -/
def State.bootFrom (s : State) : State :=
  if s.verifies s.image then
    { s with boot := .up, floor := max s.floor s.image.floor, hazard := s.image.hazard }
  else { s with boot := .recovery, hazard := false }

/-- A die after a device reset: the repairs stay. -/
def Die.afterReset (D : Die) : Die := { Die.init with spares := D.spares, phys := D.phys }
/-- A core after a device reset: one that is disabled stays so. -/
def Core.afterReset (c : Core) : Core := { Core.init with up := c.up }
/-- A port after a device reset is brought up (R501). -/
def Port.afterReset (p : Port) : Port := { p with up := true }

/-- DEVICE_RESET (R501, R510): everything is at its reset value but what a reset does not touch: device memory with the side bits of its
sectors, the flash and the fuses, the repairs made, and what lies outside the device. Clocks go on (log 38). -/
def execDeviceReset (s : State) : Result :=
  .next ({ State.reset with
    now := s.now
    agenda := s.agenda
    fresh := s.fresh
    uid := s.uid
    boots := s.boots + 1
    image := s.image
    floor := s.floor
    mem := s.mem
    side := s.side
    hostMem := s.hostMem
    dies := List.map (fun (x : Nat × Die) => (x.1, x.2.afterReset)) s.dies
    cores := List.map (fun (x : Nat × Core) => (x.1, x.2.afterReset)) s.cores
    ports := List.map (fun (x : Nat × Port) => (x.1, x.2.afterReset)) s.ports
    unreach := s.unreach
    gens := s.gens
    rows := s.rows
    spared := s.spared
    debugLog := s.debugLog
    droOut := s.droOut
    chunkOut := s.chunkOut
    asyOut := s.asyOut
    chunkAnsOut := s.chunkAnsOut
    asyAnsOut := s.asyAnsOut
    rateOut := s.rateOut
    peerOut := s.peerOut
    ansOut := s.ansOut
    notices := s.notices
    reports := s.reports
    hostReads := s.hostReads }.bootFrom)

/-- RECOVERY_IMAGE_LOAD: in recovery a new image comes over port 0: its bytes as a number, which signatures verify (bit 0 Ed25519, bit 1
ML-DSA-65), its security version, the floor it raises to, its owner endpoint, and whether it turns the hazard check on. It replaces the
stored image only if it passes step 3, and the boot goes on (R502, R503). -/
def execRecoveryImageLoad (img sigs ver floor ep hz : Nat) (s : State) : Result :=
  eventOf "RECOVERY_IMAGE_LOAD"
    (if s.boot = .recovery then
      let i : Image :=
        { bytes := leBytes (Nat.log2 img / 8 + 1) img, ed := sigs % 2 == 1, ml := sigs / 2 % 2 == 1, ver := ver % 2 ^ 16
          floor := floor % 2 ^ 16, owners := [ep % 4096], hazard := hz % 2 == 1 }
      some (if s.verifies i then { s with image := i }.bootFrom else s)
     else none)

/-- MODULE_REPLACEMENT: the host clears EN of every function and takes the 20 ports out of service (R509). -/
def execModuleReplacement (ep : Nat) (s : State) : Result :=
  s.served ep
    ((List.range 20).foldl (fun s p => s.updPort p fun P => { P with up := false })
      ((List.range 64).foldl (fun s v => if (s.vf v).en then s.disable v else s) s))

/-! ## Power (R506, R507) -/

/-- A clock stretched to a rate: no further than 1.2 GHz (R506). -/
def stretch (now to_ : Nat) : Nat := max 1200 (min now to_)

/-- SUPPLY_SAG: the supply of die `d` sags, and it stretches its core clock to `v` MHz (R506). -/
def execSupplySag (d v : Nat) (s : State) : Result :=
  eventOf "SUPPLY_SAG" (if d < 4 then some (s.updDie d fun D => { D with mhz := stretch D.mhz v }) else none)

/-- SUPPLY_RECOVERY: the supply of die `d` recovers, and its clock takes a step to `v` MHz, up to 1.9 GHz (R506). -/
def execSupplyRecovery (d v : Nat) (s : State) : Result :=
  eventOf "SUPPLY_RECOVERY" (if d < 4 then some (s.updDie d fun D => { D with mhz := min 1900 (max D.mhz v) }) else none)

/-- MODULE_POWER_EXCESS: a sustained excess stretches all dies to `v` MHz (R507). -/
def execModulePowerExcess (v : Nat) (s : State) : Result :=
  .next ((List.range 4).foldl (fun s d => s.updDie d fun D => { D with mhz := stretch D.mhz v }) s)

/-! ## Repair (R403, R508) -/

/-- Is an engine the copy engine of a core? -/
def Eng.onCore (c : Nat) : Eng → Bool
  | .copy k _ => k == c
  | _ => false

/-- A core is retired (R403, R508): the launches of its teams fail; a spare core of the die stands under its number from now on, or,
once there is none, the number stays disabled. What its caches held is lost (log 39). -/
def State.retire_ (s : State) (c : Nat) : State :=
  let s := (s.teamsOn c []).foldl (fun s x => s.loseTeam x.1) s
  let s := { s with txns := s.txns.filter fun x => !(x.2.who.onCore c) }
  match (s.die (dieOf c)).spares with
  | p :: ps =>
    (s.updDie (dieOf c) fun D => { D with spares := ps, phys := D.phys.put (c % 84) p }).updCore c fun _ => Core.init
  | [] => s.updCore c fun _ => { Core.init with up := false }

/-- CORE_RETIREMENT: logical core `c` fails its self-check (R403, R508). -/
def execCoreRetirement (c : Nat) (s : State) : Result :=
  eventOf "CORE_RETIREMENT" (if c < 336 ∧ (s.core c).up then some (s.retire_ c) else none)

/-- HBM_ROW_REMAP: row `r` of die `d` has had 16 corrections within 2^30 ticks, and a spare row takes its place; no value changes
(R508). -/
def execHbmRowRemap (d r : Nat) (s : State) : Result :=
  let k := d * 2 ^ 32 + r
  let ts := s.rowCorr.get k []
  eventOf "HBM_ROW_REMAP"
    (if ts.length ≥ 16 ∧ ts.headD 0 - ts.getLastD 0 ≤ 2 ^ 30 then
      some { s with rows := s.rows ++ [k], rowCorr := s.rowCorr.del k }
     else none)

/-- HBM_CHANNEL_SPARING: the spare channel of stack `st` takes the place of channel `ch`; the requests queued are served in their order
(R402, R508). -/
def execHbmChannelSparing (st ch : Nat) (s : State) : Result :=
  eventOf "HBM_CHANNEL_SPARING"
    (if st < 8 ∧ ch < 32 ∧ (s.spared.find? st).isNone then some { s with spared := s.spared.put st ch } else none)

/-- LINK_LANE_FAILURE: a lane of port `p` fails: the spare takes its place, or the port runs on 4 lanes (R440). -/
def execLinkLaneFailure (p : Nat) (s : State) : Result :=
  eventOf "LINK_LANE_FAILURE"
    (if p < 20 then some (s.updPort p fun P => if P.spare then { P with spare := false } else { P with lanes := 4 }) else none)

/-- FLIT_CRC_ERROR: a flit of port `p`, or of one of the six die links behind the ports in the numbering, is resent from the retry buffer, and
delivered once (R439, R440): nothing that the model holds changes. -/
def execFlitCrcError (p : Nat) (s : State) : Result := eventOf "FLIT_CRC_ERROR" (if p < 26 then some s else none)

/-- The requests to other devices that a plane carried and that have no answer are sent again on the planes that are left (R441). -/
def State.resend (s : State) (p : Nat) : State :=
  if s.planes.isEmpty then s
  else
    let far (r : PeerReq) : Bool := r.plane == p && r.dev != s.devId
    let again (r : PeerReq) : PeerReq := { r with plane := s.planeOf r.dev r.vsec }
    { s with
      peerOut := s.peerOut ++ (s.peerSent.filter far).map again
      peerSent := s.peerSent.map fun (r : PeerReq) => if far r then again r else r }

/-- PLANE_OUT_OF_SERVICE: plane `p` leaves service; unacknowledged flits are resent on the others before new ones (R441, log 67). -/
def execPlaneOutOfService (p : Nat) (s : State) : Result :=
  eventOf "PLANE_OUT_OF_SERVICE" (if p < 20 then some ((s.updPort p fun P => { P with up := false }).resend p) else none)

/-- PART_FAILURE: a Spout unit, a copy engine, a Drover or an Assayer fails or is spared, and goes on from its own records: its entries, or
the last chunk that completed, which are what the state holds (R402). No value changes. -/
def execPartFailure (_n : Nat) (s : State) : Result := .next s

/-! ## Soft errors (R401) -/

/-- Where a thread stands, for a trap in front of its next instruction: the address of that, and that of the first hint of it (R31). -/
def Group.standsAt (G : Group) (t : Thread) : Word × Word :=
  match t.st with
  | .blocked id => match G.blk.find? (·.id == id) with | some b => (b.pc, b.first) | none => (t.pc, t.pc)
  | .join _ pc => (pc, pc)
  | _ => (t.pc, t.hints.first t.pc)

/-- A thread leaves what it is blocked in, or the join that it is parked at. -/
def Group.pullLane (G : Group) (l : Nat) : Group :=
  { G with
    blk := G.blk.filterMap fun b => if b.mask = laneBit l then none else some { b with mask := b.mask &&& ~~~(laneBit l) }
    arr := match (G.lane l).st with | .join n _ => G.arr.put n (G.arr.get n 0 &&& ~~~(laneBit l)) | _ => G.arr }

/-- A request for register blocks whose path is gone is dropped. -/
def State.dropRequest (s : State) (g : Nat) : State :=
  match s.group? g with
  | some G =>
    if G.rbReq ∧ !(G.blk.any (·.forBlocks)) then
      (s.updPart G.core G.part fun p => { p with rbq := p.rbq.filter (·.1 != g) }).updGroup g fun G => { G with rbReq := false }
    else s
  | none => s

/-- A double error in a lane's registers (R401): the lane, whatever it waits for, traps in front of its next instruction. -/
def State.laneError (s : State) (g l : Nat) : Option State :=
  (s.group? g).bind fun G =>
    let t := G.lane l
    if l < 32 ∧ t.st ≠ .exited ∧ !G.ended ∧ !(s.isSaved G.team) then
      let f := G.standsAt t
      let s := (s.updGroup g fun G => G.pullLane l).dropRequest g
      some (s.raise g t.hnd ⟨laneBit l, f.2, f.2, f.1 + 4, causeWord 6 24 0, false⟩)
    else none

/-- ARRAY_ECC_ERROR on core `c` (R401, R508): k = 0 a single-bit error, corrected and counted; 1 a double error in sector `b` of the L1 line
at place `a`, which is read again if it is clean; 2 in the instruction-cache word at place `a`, likewise; 3 in the registers of lane `b` of
group `a`; 4 in state that team `a` shares: the team is lost and the core retired. An error in a dirty sector counts as one in shared
state (log 40). -/
def execArrayEccError (c k a b : Nat) (s : State) : Result :=
  eventOf "ARRAY_ECC_ERROR"
    (if c ≥ 336 then none
     else if k = 0 then some (s.updCore c fun C => { C with secc := satInc C.secc })
     else if k = 1 then
       ((s.core c).l1[a]?).bind fun L =>
         if b ≥ 4 then none
         else if (L.sec b).dm = 0 then
           some (s.updCore c fun C => C.updLine L.vf L.asid L.vline fun M => M.updSec b fun x => { x with v := false })
         else some (s.retire_ c)
     else if k = 2 then
       (if a < (s.core c).icache.length then some (s.updCore c fun C => { C with icache := C.icache.eraseIdx a }) else none)
     else if k = 3 then (match s.group? a with | some G => if G.core = c then s.laneError a b else none | none => none)
     else if k = 4 then
       (match s.team? a with | some T => if T.core = c ∧ T.pre ≠ .saved then some ((s.loseTeam a).retire_ c) else none | none => none)
     else none)

end Sys2Proof.Machine
end

