-- ==== Sys2Proof/Machine/Fetch.lean ====
section
/-! DEFINITION. Fetching a word (R20, R21, R389, R429, R512), the words that are no instruction (R58), and the fetches that fail (R21, R400,
R411). -/

namespace Sys2Proof.Machine

/-! ## Reading code -/

/-- The word of a sector at an address (R55). -/
def codeWord (d : BitVec 512) (va : Nat) : Nat := (d.extractLsb' (va % 64 / 4 * 32) 32).toNat

/-- The sector of code that an instruction cache holds for a virtual address (R429). -/
def Core.codeLine (c : Core) (vf asid va : Nat) : Option IcLine :=
  c.icache.find? fun x => x.vf == vf && x.asid == asid && x.vsec == va / 64

/-- What a core knows of the code at a virtual address: its word, that the sector failed its check, that its page faults, that it is on its way,
or the translation with which it is sent for. -/
inductive CodeAt where
  | word (w : Nat)
  | bad
  | page (cause lev : Nat) (t : Trans)
  | comes
  | ask (pa : Nat) (t : Trans)
  deriving DecidableEq, Repr

/-- Looking for the code at a virtual address through the instruction cache of a core (R404, R429). -/
def State.codeAt (s : State) (core vf va : Nat) : CodeAt :=
  let c := s.core core
  let asid := (s.vf vf).asid
  match c.codeLine vf asid va with
  | some x => .word (codeWord x.data va)
  | none =>
    if c.cbad.contains (vf, asid, va / 64) then .bad
    else if c.cfills.any fun x => x.vf == vf && x.asid == asid && x.vsec == va / 64 then .comes
    else
      match s.translate c.tlb vf va .fetch s.fresh with
      | .fault cause lev k => .page cause lev (.fault cause lev k)
      | .ok pa k => .ask pa (.ok pa k)

/-- A sector of code is sent for, with the service class of its launch and no deadline (R181). -/
def State.askCode (s : State) (core vf va svc pa : Nat) (t : Trans) : State :=
  let id := s.uid
  (((s.learn core t).draw 1).bump.updCore core fun c => { c with cfills := c.cfills ++ [⟨id, vf, (s.vf vf).asid, va / 64⟩] }).send
    ⟨0, .code core id, .read none, pa / 64, vf, s.key vf, svc, 0, core, 0⟩

/-- The service class of a team's own requests (R181). -/
def State.svcOf (s : State) (t : Nat) : Nat := match (s.team? t).bind s.recOf with | some r => r.svc | none => 1

/-- The outcome of a fetch: a word, an address at or beyond the limit (R21), a fetch that fails, or a word that has not come yet. -/
inductive Fetched where
  | word (w : Nat)
  | bounds
  | fail
  | miss
  deriving DecidableEq, Repr

/-- A fetch through the instruction cache: what is not there is sent for (R429). -/
def State.fetchAt (s : State) (core vf va svc : Nat) : Fetched × State :=
  match s.codeAt core vf va with
  | .word w => (.word w, s)
  | .bad => (.fail, s)
  | .page _ _ _ => (.fail, s)
  | .comes => (.miss, s)
  | .ask pa t => (.miss, s.askCode core vf va svc pa t)

/-! ## The thread stream -/

/-- Is an address in the range of a loop buffer of a function (R512)? -/
def LoopBuf.covers (b : LoopBuf) (vf asid va : Nat) : Bool := b.vf == vf && b.asid == asid && b.lo ≤ va && va ≤ b.hi

/-- The word that the loop buffer of a path's partition holds for it, unless an `icinv` has taken effect and the group has left the range since
(R512). -/
def State.loopWord (s : State) (c : Ctx) (va : Nat) : Option Word :=
  match ((s.core c.G.core).part c.G.part).loop with
  | some b => if b.covers c.G.vf (s.vf c.G.vf).asid va && !(b.inv && b.gone.contains c.g) then b.ws.find? va else none
  | none => none

/-- A group fetches a word outside the loop buffer's range: after an `icinv` it takes no more words from it (R512). -/
def State.leaveLoop (s : State) (c : Ctx) (va : Nat) : State :=
  s.updPart c.G.core c.G.part fun p =>
    { p with loop := p.loop.map fun b =>
        if !(b.covers c.G.vf (s.vf c.G.vf).asid va) ∧ b.inv ∧ !(b.gone.contains c.g) then { b with gone := c.g :: b.gone } else b }

/-- The loop buffer captures a word that comes through the instruction cache, if it lies in its range and is not held (R512). -/
def State.capture (s : State) (c : Ctx) (va w : Nat) : State :=
  s.updPart c.G.core c.G.part fun p =>
    { p with loop := p.loop.map fun b =>
        if b.covers c.G.vf (s.vf c.G.vf).asid va ∧ (b.ws.find? va).isNone then { b with ws := b.ws.put va (BitVec.ofNat 32 w) } else b }

/-- The fetch of a path's next word (R20, R21): from the loop buffer of its partition, then a word that the group has fetched ahead, which is
used up, then through the instruction cache (R429, R512). -/
def State.fetch (s : State) (c : Ctx) : Fetched × State :=
  let x := c.G.code c.h
  if !(segIn x c.pc.toNat) then (.bounds, s)
  else
    let va := segBase x + c.pc.toNat
    match s.loopWord c va with
    | some w => (.word w.toNat, s)
    | none =>
      match c.G.pre.find? va with
      | some w => (.word w.toNat, (s.updGroup c.g fun G => { G with pre := G.pre.del va }).leaveLoop c va)
      | none =>
        match s.fetchAt c.G.core c.G.vf va (s.svcOf c.G.team) with
        | (.word w, t) => (.word w, (t.capture c va w).leaveLoop c va)
        | r => r

/-- A group fetches a word ahead of its use, through the instruction cache (R429). -/
def State.wordAhead (s : State) (g va : Nat) : State :=
  match s.group? g with
  | none => s
  | some G =>
    let x := G.code false
    if va % 4 ≠ 0 ∨ va < segBase x ∨ !(segIn x (va - segBase x)) ∨ G.ended then s
    else
      match s.fetchAt G.core G.vf va (s.svcOf G.team) with
      | (.word w, t) => t.updGroup g fun G => { G with pre := G.pre.put va (BitVec.ofNat 32 w) }
      | r => r.2

/-! ## The matrix stream -/

/-- Where a team's next matrix word lies (R344): none beyond the stream. -/
def State.seqVa (s : State) (T : Team) : Option Nat :=
  (s.recOf T).bind fun r => if T.seq.mpc.toNat < 4 * r.mslen then some (r.codeb + r.msoff + T.seq.mpc.toNat) else none

/-- The fetch of a sequencer's next word: one that it has fetched ahead, which is used up, or through the instruction cache (R429). -/
def State.seqFetch (s : State) (t : Nat) (T : Team) : Fetched × State :=
  match s.seqVa T with
  | none => (.bounds, s)
  | some va =>
    match T.seq.buf.find? va with
    | some w => (.word w.toNat, s.updSeq t fun q => { q with buf := q.buf.del va })
    | none => s.fetchAt T.core T.vf va (s.svcOf t)

/-- A sequencer fetches a word of its stream ahead of its use (R429). -/
def State.seqAhead (s : State) (t va : Nat) : State :=
  match s.team? t with
  | none => s
  | some T =>
    match s.recOf T with
    | none => s
    | some r =>
      if va % 4 ≠ 0 ∨ va < r.codeb + r.msoff ∨ r.codeb + r.msoff + 4 * r.mslen ≤ va ∨ T.seq.run ≠ 1 then s
      else
        match s.fetchAt T.core T.vf va r.svc with
        | (.word w, u) => u.updSeq t fun q => { q with buf := q.buf.put va (BitVec.ofNat 32 w) }
        | x => x.2

/-! ## From a word to an instruction -/

/-- What a fetch gives to execute: the decoded instruction, or the row that stands for what went wrong. -/
noncomputable def Fetched.instr : Fetched → Instr
  | .word w => match decode w with | some i => i | none => .reservedEncoding w
  | .bounds => .fetchBounds
  | .fail => .codeFetchFault
  | .miss => .codeFetchFault

/-- FETCH_BOUNDS: the issuer's fetch lies at or beyond the limit of the code segment, or beyond the matrix stream (R21, R58 step 1,
R344). -/
def execFetchBounds (s : State) : Result :=
  match s.cur with
  | .seq t =>
    match s.team? t with
    | some T => if T.seqLive then eventOf "FETCH_BOUNDS" (if s.seqVa T = none then some (s.seqFault t 1 0) else none) else .fault .noIssuer
    | none => .fault .noIssuer
  | _ =>
    match s.context? with
    | some c => eventOf "FETCH_BOUNDS" (if segIn (c.G.code c.h) c.pc.toNat then none else some (s.eachHints c fun d s => s.trapAt d 1 1))
    | none => .fault .noIssuer

/-- A sector of code that failed its check is sent for again at the next fetch. -/
def State.dropBad (s : State) (core vf va : Nat) : State :=
  s.updCore core fun c => { c with cbad := c.cbad.filter (· != (vf, (s.vf vf).asid, va / 64)) }

/-- CODE_FETCH_FAULT: the issuer's fetch fails: a page fault parks its threads, or the sequencer, in front of the word and its
hints (R21, R411); a failed check is a precise trap of class 6 at the fetch address, or a fault of the stream (R400). -/
def execCodeFetchFault (s : State) : Result :=
  match s.cur with
  | .seq t =>
    match s.team? t with
    | some T =>
      if T.seqLive then
        eventOf "CODE_FETCH_FAULT" ((s.seqVa T).bind fun va =>
          match s.codeAt T.core T.vf va with
          | .page cause lev x => some (((s.learn T.core x).seqPark t T va cause lev 3).draw 1)
          | .bad => some ((s.dropBad T.core T.vf va).seqFault t 20 0)
          | _ => none)
      else .fault .noIssuer
    | none => .fault .noIssuer
  | _ =>
    match s.context? with
    | none => .fault .noIssuer
    | some c =>
      let x := c.G.code c.h
      let va := segBase x + c.pc.toNat
      eventOf "CODE_FETCH_FAULT"
        (if !(segIn x c.pc.toNat) then none
         else
           match s.codeAt c.G.core c.G.vf va with
           | .page cause lev t => some ((((s.learn c.G.core t).groupFault c.g c.G c.mask c.first va cause lev 3).eachHints c
               fun d s => s.parkLanes d d.mask).draw 1)
           | .bad => some ((s.dropBad c.G.core c.G.vf va).eachHints c
               fun d s => s.raise d.g d.h ⟨d.mask, d.first, d.pc, d.pc + 4, causeWord 6 21 0, false⟩)
           | _ => none)

/-- A word that is no instruction, in a thread stream (R29, R58): of class MX the stream detail; a hint of kind 1, 2 or 4 is recorded, and its
payload is judged at the instruction; any other hint traps at its own address; the rest has the reserved-encoding detail. -/
def State.reservedPath (s : State) (c : Ctx) (v : Nat) : State :=
  let cls := bitsAt v 27 4
  let k := bitsAt v 24 3
  let pay : BitVec 24 := BitVec.ofNat 24 v
  if cls = 15 then
    (if k = 1 then s.hintPast c fun h => { h with immhi := some (c.pc, pay) }
     else if k = 2 then s.hintPast c fun h => { h with modh := some (c.pc, pay) }
     else if k = 4 then s.hintPast c fun h => { h with nop := some (c.pc, pay) }
     else s.hintTrap c)
  else if cls = 13 then s.trapAt c 1 2
  else s.trapAt c 1 3

/-- The detail of a word that is no instruction in a matrix stream (R58): stream for a word of another class or a hint of kind 0 to 3,
else reserved encoding. -/
def reservedDetail (v : Nat) : Nat :=
  let cls := bitsAt v 27 4
  if cls = 13 ∨ (cls = 15 ∧ 4 ≤ bitsAt v 24 3) then 3 else 2

/-- RESERVED_ENCODING: the issuer meets word `v`, which decodes to no instruction (R58). With W it waits first, as any word does (R20). -/
def execReservedEncoding (v : Nat) (s : State) : Result :=
  match s.cur with
  | .seq t =>
    match s.team? t with
    | some T => if T.seqLive then .next (s.seqFault t (reservedDetail v) 0) else .fault .noIssuer
    | none => .fault .noIssuer
  | _ => issueHint (bitsAt v 31 1 == 1) (fun c s => s.eachHints c fun d s => s.reservedPath d v) s

end Sys2Proof.Machine
end

