-- ==== Sys2Proof/Machine/Float.lean ====
section
/-! DEFINITION. FP32 arithmetic and BF16 pairs (R132 to R140). -/

namespace Sys2Proof.Machine

/-- An FP32 function of the rounding direction, the old destination and two operands. -/
abbrev FltFn := Rnd → Word → Word → Word → Word × Word

/-- A VR form whose rounding comes from a mod hint (R136). -/
def fltVR (f : FltFn) (w : BitVec 1) (d a b : BitVec 7) (s0 : State) : Result :=
  issue ((infoVR w d a b).allow modRND)
    (fun c s => s.putV c d.toNat fun l => f c.hints.rnd (c.rv l d.toNat) (c.rv l a.toNat) (c.rv l b.toNat)) s0

/-- A VS form whose rounding comes from a mod hint (R136). -/
def fltVS (f : FltFn) (w : BitVec 1) (d a u : BitVec 7) (s0 : State) : Result :=
  issue ((infoVS w d a u).allow modRND)
    (fun c s => s.putV c d.toNat fun l => f c.hints.rnd (c.rv l d.toNat) (c.rv l a.toNat) (c.rs u.toNat)) s0

/-- The function of `fadd` (R134, R135). -/
def faddFn : FltFn := fun r _ a b => f32Map (fAdd fp32 r) a b

/-- `fadd` with a thread register (R134). -/
def execFaddVr (w : BitVec 1) (d : BitVec 7) (a : BitVec 7) (b : BitVec 7) (s0 : State) : Result :=
  fltVR faddFn w d a b s0

/-- `fadd` with a uniform register (R134). -/
def execFaddVs (w : BitVec 1) (d : BitVec 7) (a : BitVec 7) (s : BitVec 7) (s0 : State) : Result :=
  fltVS faddFn w d a s s0

/-- The function of `fsub` (R134, R135). -/
def fsubFn : FltFn := fun r _ a b => f32Map (fSub fp32 r) a b

/-- `fsub` with a thread register (R134). -/
def execFsubVr (w : BitVec 1) (d : BitVec 7) (a : BitVec 7) (b : BitVec 7) (s0 : State) : Result :=
  fltVR fsubFn w d a b s0

/-- `fsub` with a uniform register (R134). -/
def execFsubVs (w : BitVec 1) (d : BitVec 7) (a : BitVec 7) (s : BitVec 7) (s0 : State) : Result :=
  fltVS fsubFn w d a s s0

/-- The function of `fmul` (R134, R135). -/
def fmulFn : FltFn := fun r _ a b => f32Map (fMul fp32 r) a b

/-- `fmul` with a thread register (R134). -/
def execFmulVr (w : BitVec 1) (d : BitVec 7) (a : BitVec 7) (b : BitVec 7) (s0 : State) : Result :=
  fltVR fmulFn w d a b s0

/-- `fmul` with a uniform register (R134). -/
def execFmulVs (w : BitVec 1) (d : BitVec 7) (a : BitVec 7) (s : BitVec 7) (s0 : State) : Result :=
  fltVS fmulFn w d a s s0

/-- The function of `ffma` (R134, R135). -/
def ffmaFn : FltFn := fun r d a b => f32Map (fun x y => fFma fp32 r x y d.toNat) a b

/-- `ffma` with a thread register (R135). -/
def execFfmaVr (w : BitVec 1) (d : BitVec 7) (a : BitVec 7) (b : BitVec 7) (s0 : State) : Result :=
  fltVR ffmaFn w d a b s0

/-- `ffma` with a uniform register (R135). -/
def execFfmaVs (w : BitVec 1) (d : BitVec 7) (a : BitVec 7) (s : BitVec 7) (s0 : State) : Result :=
  fltVS ffmaFn w d a s s0

/-- The function of `fmin` (R88). -/
def fminFn : AluFn := fun _ a b => f32Map (fMinMax fp32 false) a b

/-- `fmin` with a thread register (R88). -/
def execFminVr (w : BitVec 1) (d : BitVec 7) (a : BitVec 7) (b : BitVec 7) (s0 : State) : Result :=
  aluVR fminFn w d a b s0

/-- `fmin` with a uniform register (R88). -/
def execFminVs (w : BitVec 1) (d : BitVec 7) (a : BitVec 7) (s : BitVec 7) (s0 : State) : Result :=
  aluVS fminFn w d a s s0

/-- The function of `fmax` (R88). -/
def fmaxFn : AluFn := fun _ a b => f32Map (fMinMax fp32 true) a b

/-- `fmax` with a thread register (R88). -/
def execFmaxVr (w : BitVec 1) (d : BitVec 7) (a : BitVec 7) (b : BitVec 7) (s0 : State) : Result :=
  aluVR fmaxFn w d a b s0

/-- `fmax` with a uniform register (R88). -/
def execFmaxVs (w : BitVec 1) (d : BitVec 7) (a : BitVec 7) (s : BitVec 7) (s0 : State) : Result :=
  aluVS fmaxFn w d a s s0

/-- `fabs` (R134). -/
def execFabs (w : BitVec 1) (d : BitVec 7) (a : BitVec 7) (s0 : State) : Result :=
  aluV1 (fun a => a &&& 0x7FFFFFFF) w d a s0

/-- `fneg` (R134). -/
def execFneg (w : BitVec 1) (d : BitVec 7) (a : BitVec 7) (s0 : State) : Result :=
  aluV1 (fun a => a ^^^ 0x80000000) w d a s0

/-- The function of `hadd2` (R138). -/
def hadd2Fn : AluFn := fun _ a b => bf2Map (fAdd bf16 .rn) a b

/-- `hadd2` with a thread register (R138). -/
def execHadd2Vr (w : BitVec 1) (d : BitVec 7) (a : BitVec 7) (b : BitVec 7) (s0 : State) : Result :=
  aluVR hadd2Fn w d a b s0

/-- `hadd2` with a uniform register (R138). -/
def execHadd2Vs (w : BitVec 1) (d : BitVec 7) (a : BitVec 7) (s : BitVec 7) (s0 : State) : Result :=
  aluVS hadd2Fn w d a s s0

/-- The function of `hsub2` (R138). -/
def hsub2Fn : AluFn := fun _ a b => bf2Map (fSub bf16 .rn) a b

/-- `hsub2` with a thread register (R138). -/
def execHsub2Vr (w : BitVec 1) (d : BitVec 7) (a : BitVec 7) (b : BitVec 7) (s0 : State) : Result :=
  aluVR hsub2Fn w d a b s0

/-- `hsub2` with a uniform register (R138). -/
def execHsub2Vs (w : BitVec 1) (d : BitVec 7) (a : BitVec 7) (s : BitVec 7) (s0 : State) : Result :=
  aluVS hsub2Fn w d a s s0

/-- The function of `hmul2` (R138). -/
def hmul2Fn : AluFn := fun _ a b => bf2Map (fMul bf16 .rn) a b

/-- `hmul2` with a thread register (R138). -/
def execHmul2Vr (w : BitVec 1) (d : BitVec 7) (a : BitVec 7) (b : BitVec 7) (s0 : State) : Result :=
  aluVR hmul2Fn w d a b s0

/-- `hmul2` with a uniform register (R138). -/
def execHmul2Vs (w : BitVec 1) (d : BitVec 7) (a : BitVec 7) (s : BitVec 7) (s0 : State) : Result :=
  aluVS hmul2Fn w d a s s0

/-- `hfma2`: each element's a × b + c rounded once, c the old destination's element (R90, R139). -/
def hfma2Word (d a b : Word) : Word × Word :=
  let lo := fFma bf16 .rn (bfLo a) (bfLo b) (bfLo d)
  let hi := fFma bf16 .rn (bfHi a) (bfHi b) (bfHi d)
  (pair16 lo.1 hi.1, lo.2 ||| hi.2)

/-- `hdot2`: the exact sum of both products and the FP32 destination, rounded once (R92). -/
def hdot2Word (d a b : Word) : Word × Word :=
  let r := fDot2 (bfLo a) (bfHi a) (bfLo b) (bfHi b) d.toNat
  (BitVec.ofNat 32 r.1, r.2)

/-- The function of `hfma2` (R138). -/
def hfma2Fn : AluFn := hfma2Word

/-- `hfma2` with a thread register (R138). -/
def execHfma2Vr (w : BitVec 1) (d : BitVec 7) (a : BitVec 7) (b : BitVec 7) (s0 : State) : Result :=
  aluVR hfma2Fn w d a b s0

/-- `hfma2` with a uniform register (R138). -/
def execHfma2Vs (w : BitVec 1) (d : BitVec 7) (a : BitVec 7) (s : BitVec 7) (s0 : State) : Result :=
  aluVS hfma2Fn w d a s s0

/-- The function of `hdot2` (R138). -/
def hdot2Fn : AluFn := hdot2Word

/-- `hdot2` with a thread register (R92). -/
def execHdot2Vr (w : BitVec 1) (d : BitVec 7) (a : BitVec 7) (b : BitVec 7) (s0 : State) : Result :=
  aluVR hdot2Fn w d a b s0

/-- `hdot2` with a uniform register (R92). -/
def execHdot2Vs (w : BitVec 1) (d : BitVec 7) (a : BitVec 7) (s : BitVec 7) (s0 : State) : Result :=
  aluVS hdot2Fn w d a s s0

/-- The function of `hmax2` (R138). -/
def hmax2Fn : AluFn := fun _ a b => bf2Map (fMinMax bf16 true) a b

/-- `hmax2` with a thread register (R138). -/
def execHmax2Vr (w : BitVec 1) (d : BitVec 7) (a : BitVec 7) (b : BitVec 7) (s0 : State) : Result :=
  aluVR hmax2Fn w d a b s0

/-- `hmax2` with a uniform register (R138). -/
def execHmax2Vs (w : BitVec 1) (d : BitVec 7) (a : BitVec 7) (s : BitVec 7) (s0 : State) : Result :=
  aluVS hmax2Fn w d a s s0

/-- The function of `hmin2` (R138). -/
def hmin2Fn : AluFn := fun _ a b => bf2Map (fMinMax bf16 false) a b

/-- `hmin2` with a thread register (R138). -/
def execHmin2Vr (w : BitVec 1) (d : BitVec 7) (a : BitVec 7) (b : BitVec 7) (s0 : State) : Result :=
  aluVR hmin2Fn w d a b s0

/-- `hmin2` with a uniform register (R138). -/
def execHmin2Vs (w : BitVec 1) (d : BitVec 7) (a : BitVec 7) (s : BitVec 7) (s0 : State) : Result :=
  aluVS hmin2Fn w d a s s0

end Sys2Proof.Machine
end

