-- ==== Sys2Proof/Machine/Lanes.lean ====
section
/-! DEFINITION. Cross-lane instructions, class XL (R202 to R211). -/

namespace Sys2Proof.Machine

/-- A thread register of a source lane: 0 where the lane is outside the path (R202). -/
def Ctx.from (c : Ctx) (l r : Nat) : Word := if l < 32 ∧ c.mask.getLsbD l then c.rv l r else 0

/-- A lane-moving form: each active lane takes the register of its source lane (R203). -/
def laneMove (i : Info) (d a : BitVec 7) (src : Ctx → Nat → Nat) (s0 : State) : Result :=
  issue i (fun c s => s.putV c d.toNat fun l => (c.from (src c l) a.toNat, 0)) s0

/-- `shfl` (R203). -/
def execShfl (w : BitVec 1) (d a x : BitVec 7) (s0 : State) : Result :=
  laneMove (infoVR w d a x) d a (fun c l => (c.rv l x.toNat).toNat % 32) s0

/-- `shfli` (R203). -/
def execShfli (w : BitVec 1) (d a : BitVec 7) (n : BitVec 5) (s0 : State) : Result :=
  laneMove (infoV2 w d a) d a (fun _ l => l ^^^ n.toNat) s0

/-- `bcst` (R203). -/
def execBcst (w : BitVec 1) (d a : BitVec 7) (n : BitVec 5) (s0 : State) : Result :=
  laneMove (infoV2 w d a) d a (fun _ _ => n.toNat) s0

/-- What a slide asks of its issue: FILL is legal with fill 11 alone, and it names a uniform register (R74, R75). -/
def infoSlide (w : BitVec 1) (d a : BitVec 7) (l : BitVec 2) : Info :=
  if l = 3 then { (infoV2 w d a).allow modFILL with fill := true } else infoV2 w d a

/-- `slup`: from lane L − n; lanes below n take the fill (R203, R204). -/
def execSlup (w : BitVec 1) (d a : BitVec 7) (n : BitVec 5) (l : BitVec 2) (s0 : State) : Result :=
  issue (infoSlide w d a l)
    (fun c s => s.putV c d.toNat fun i =>
      (if n.toNat ≤ i then c.from (i - n.toNat) a.toNat
       else match l.toNat with
         | 0 => 0
         | 1 => c.from 0 a.toNat
         | 2 => c.from (i + 32 - n.toNat) a.toNat
         | _ => c.rs c.hints.fill, 0)) s0

/-- `sldn`: from lane L + n; lanes from 32 − n take the fill (R203, R204). -/
def execSldn (w : BitVec 1) (d a : BitVec 7) (n : BitVec 5) (l : BitVec 2) (s0 : State) : Result :=
  issue (infoSlide w d a l)
    (fun c s => s.putV c d.toNat fun i =>
      (if i + n.toNat < 32 then c.from (i + n.toNat) a.toNat
       else match l.toNat with
         | 0 => 0
         | 1 => c.from 31 a.toNat
         | 2 => c.from (i + n.toNat - 32) a.toNat
         | _ => c.rs c.hints.fill, 0)) s0

/-- `ballot` (R205). -/
def execBallot (w : BitVec 1) (u : BitVec 7) (p : BitVec 3) (s0 : State) : Result :=
  issue { w := flag1 w, regs := [.s u.toNat 1 1] }
    (fun c s => s.putS c u.toNat [maskOf ((lanesOf c.mask).filter fun l => c.pred l p.toNat)]) s0

/-- `vany` (R205). -/
def execVany (w : BitVec 1) (q p : BitVec 3) (s0 : State) : Result :=
  issue (infoNone w) (fun c s => s.putQ c q.toNat ((lanesOf c.mask).any fun l => c.pred l p.toNat)) s0

/-- `vall` (R205). -/
def execVall (w : BitVec 1) (q p : BitVec 3) (s0 : State) : Result :=
  issue (infoNone w) (fun c s => s.putQ c q.toNat ((lanesOf c.mask).all fun l => c.pred l p.toNat)) s0

/-- The operand values of the active lanes, lowest lane first. -/
def Ctx.active (c : Ctx) (r : Nat) : List Word := (lanesOf c.mask).map fun l => c.rv l r

/-- A reduction or scan: of variable latency; the function sees the value of each active lane (R206). -/
def reduce (w : BitVec 1) (d a : BitVec 7) (f : Ctx → Nat → Word) (s0 : State) : Result :=
  issue (infoV2 w d a).late (fun c s => s.startV c d.toNat fun l => (f c l, 0)) s0

/-- A sum modulo 2^32 (R206). -/
def sumWords (xs : List Word) : Word := xs.foldl (fun a b => a + b) 0

/-- `radd` (R206). -/
def execRadd (w : BitVec 1) (d a : BitVec 7) (s0 : State) : Result :=
  reduce w d a (fun c _ => sumWords (c.active a.toNat)) s0

/-- `rmax` (R206). -/
def execRmax (w : BitVec 1) (d a : BitVec 7) (s0 : State) : Result :=
  reduce w d a (fun c _ => (c.active a.toNat).foldl maxWord 0x80000000) s0

/-- `rmin` (R206). -/
def execRmin (w : BitVec 1) (d a : BitVec 7) (s0 : State) : Result :=
  reduce w d a (fun c _ => (c.active a.toNat).foldl minWord 0x7FFFFFFF) s0

/-- `scan`: the sum over active lanes up to L (R206). -/
def execScan (w : BitVec 1) (d a : BitVec 7) (s0 : State) : Result :=
  reduce w d a (fun c l => sumWords (((lanesOf c.mask).filter (· ≤ l)).map fun t => c.rv t a.toNat)) s0

/-- `scanx`: the sum over active lanes below L (R206). -/
def execScanx (w : BitVec 1) (d a : BitVec 7) (s0 : State) : Result :=
  reduce w d a (fun c l => sumWords (((lanesOf c.mask).filter (· < l)).map fun t => c.rv t a.toNat)) s0

/-- One node of the tree of `rfadd`: an absent child passes the other one on, unrounded (R207). -/
def faddNode (x y : Option Word) : Option Word × Word :=
  match x, y with
  | none, none => (none, 0)
  | some a, none => (some a, 0)
  | none, some b => (some b, 0)
  | some a, some b => let r := f32Map (fAdd fp32 .rn) a b; (some r.1, r.2)

/-- One level of the tree of `rfadd`, with the flags that it raises (R207). -/
def faddLevel : List (Option Word) → List (Option Word) × Word
  | x :: y :: xs => let n := faddNode x y; let r := faddLevel xs; (n.1 :: r.1, n.2 ||| r.2)
  | _ => ([], 0)

/-- The levels of the tree of `rfadd` (R207). -/
def faddTree : Nat → List (Option Word) × Word → List (Option Word) × Word
  | 0, r => r
  | k + 1, (xs, f) => let r := faddLevel xs; faddTree k (r.1, f ||| r.2)

/-- The sum of `rfadd` and its flags: IV also where an active operand is a signalling NaN (R207). -/
def rfaddOf (xs : List (Option Word)) : Word × Word :=
  let r := faddTree 5 (xs, 0)
  let v : Word := (r.1.headD none).getD 0
  let sig : Bool := xs.any fun x => match x with | some y => (fp32.decode y.toNat).sig | none => false
  (if (fp32.decode v.toNat).isNan then 0x7FC00000 else v, r.2 ||| (if sig then flagIV else 0))

/-- `rfadd` (R207): the flags go to every active thread. -/
def execRfadd (w : BitVec 1) (d a : BitVec 7) (s0 : State) : Result :=
  issue (infoV2 w d a).late
    (fun c s =>
      let r := rfaddOf ((List.range 32).map fun l => if c.mask.getLsbD l then some (c.rv l a.toNat) else none)
      s.startV c d.toNat fun _ => r) s0

/-- `match` (R205). -/
def execMatchv (w : BitVec 1) (d a : BitVec 7) (s0 : State) : Result :=
  issue (infoV2 w d a)
    (fun c s => s.putV c d.toNat fun l =>
      (maskOf ((lanesOf c.mask).filter fun t => c.rv t a.toNat == c.rv l a.toNat), 0)) s0

/-- A predicate form: each active lane's predicates give the new one (R205). -/
def predForm (w : BitVec 1) (d : BitVec 3) (f : Ctx → Nat → Bool) (s0 : State) : Result :=
  issue (infoNone w) (fun c s => s.putP c d.toNat fun l => (f c l, 0)) s0

/-- `pand` (R205). -/
def execPand (w : BitVec 1) (d a b : BitVec 3) (s0 : State) : Result :=
  predForm w d (fun c l => c.pred l a.toNat && c.pred l b.toNat) s0

/-- `por` (R205). -/
def execPor (w : BitVec 1) (d a b : BitVec 3) (s0 : State) : Result :=
  predForm w d (fun c l => c.pred l a.toNat || c.pred l b.toNat) s0

/-- `pxor` (R205). -/
def execPxor (w : BitVec 1) (d a b : BitVec 3) (s0 : State) : Result :=
  predForm w d (fun c l => c.pred l a.toNat != c.pred l b.toNat) s0

/-- `pnot` (R205). -/
def execPnot (w : BitVec 1) (d a : BitVec 3) (s0 : State) : Result :=
  predForm w d (fun c l => !c.pred l a.toNat) s0

/-- `ptov` (R205). -/
def execPtov (w : BitVec 1) (d : BitVec 7) (p : BitVec 3) (s0 : State) : Result :=
  issue (infoV1 w d) (fun c s => s.putV c d.toNat fun l => (if c.pred l p.toNat then 1 else 0, 0)) s0

/-- `vtop` (R205). -/
def execVtop (w : BitVec 1) (p : BitVec 3) (a : BitVec 7) (s0 : State) : Result :=
  issue (infoV1 w a) (fun c s => s.putP c p.toNat fun l => (c.rv l a.toNat != 0, 0)) s0

/-- `pebpk`: each half of the lanes is a block of its own (R209). -/
def execPebpk (w : BitVec 1) (d a : BitVec 7) (f : BitVec 2) (s0 : State) : Result :=
  issue (infoV2 w d a)
    (fun c s =>
      let half (h : Nat) := pebPack f.toNat ((List.range 16).map fun j =>
        if c.mask.getLsbD (16 * h + j) then some (c.rv (16 * h + j) a.toNat) else none)
      s.putV c d.toNat fun l =>
        let b := half (l / 16)
        let x := b.2.getD (l % 16) ⟨0, 0, 0, false⟩
        (pebField f.toNat b.1 x, if x.sat then flagSAT else 0)) s0

/-- `pebup` (R209). -/
def execPebup (w : BitVec 1) (d a : BitVec 7) (f : BitVec 2) (s0 : State) : Result :=
  issue (infoV2 w d a) (fun c s => s.putV c d.toNat fun l => (pebUnfield f.toNat (c.rv l a.toNat), 0)) s0

/-- `mvlk` (R210). -/
def execMvlk (w : BitVec 1) (d : BitVec 7) (s0 : State) : Result :=
  issue (infoV1 w d) (fun c s => s.putV c d.toNat fun l => ((c.G.lane l).lk, 0)) s0

/-- `ldlk`: bits 1:0 are cleared (R210). -/
def execLdlk (w : BitVec 1) (a : BitVec 7) (s0 : State) : Result :=
  issue (infoV1 w a)
    (fun c s => (s.updGroup c.g fun G =>
      G.updLanes (lanesOf c.mask) fun l t => { t with lk := c.rv l a.toNat &&& ~~~3 }).retire c) s0

end Sys2Proof.Machine
end

