-- ==== Sys2Proof/Machine/Packed.lean ====
section
/-! DEFINITION. Packed INT16 (R141 to R143). -/

namespace Sys2Proof.Machine

/-- The function of `padd2s` (R141). -/
def padd2sFn : AluFn := fun _ a b => elementwise (fun x y => x + y) a b

/-- `padd2s` with a thread register (R141). -/
def execPadd2sVr (w : BitVec 1) (d : BitVec 7) (a : BitVec 7) (b : BitVec 7) (s0 : State) : Result :=
  aluVR padd2sFn w d a b s0

/-- `padd2s` with a uniform register (R141). -/
def execPadd2sVs (w : BitVec 1) (d : BitVec 7) (a : BitVec 7) (s : BitVec 7) (s0 : State) : Result :=
  aluVS padd2sFn w d a s s0

/-- The function of `psub2s` (R141). -/
def psub2sFn : AluFn := fun _ a b => elementwise (fun x y => x - y) a b

/-- `psub2s` with a thread register (R141). -/
def execPsub2sVr (w : BitVec 1) (d : BitVec 7) (a : BitVec 7) (b : BitVec 7) (s0 : State) : Result :=
  aluVR psub2sFn w d a b s0

/-- `psub2s` with a uniform register (R141). -/
def execPsub2sVs (w : BitVec 1) (d : BitVec 7) (a : BitVec 7) (s : BitVec 7) (s0 : State) : Result :=
  aluVS psub2sFn w d a s s0

/-- The function of `pmul2` (R141). -/
def pmul2Fn : AluFn := fun _ a b => elementwise (fun x y => x * y) a b

/-- `pmul2` with a thread register (R141). -/
def execPmul2Vr (w : BitVec 1) (d : BitVec 7) (a : BitVec 7) (b : BitVec 7) (s0 : State) : Result :=
  aluVR pmul2Fn w d a b s0

/-- `pmul2` with a uniform register (R141). -/
def execPmul2Vs (w : BitVec 1) (d : BitVec 7) (a : BitVec 7) (s : BitVec 7) (s0 : State) : Result :=
  aluVS pmul2Fn w d a s s0

/-- The function of `pmac2` (R141). -/
def pmac2Fn : AluFn := pmac2Word

/-- `pmac2` with a thread register (R141). -/
def execPmac2Vr (w : BitVec 1) (d : BitVec 7) (a : BitVec 7) (b : BitVec 7) (s0 : State) : Result :=
  aluVR pmac2Fn w d a b s0

/-- `pmac2` with a uniform register (R141). -/
def execPmac2Vs (w : BitVec 1) (d : BitVec 7) (a : BitVec 7) (s : BitVec 7) (s0 : State) : Result :=
  aluVS pmac2Fn w d a s s0

/-- The function of `pmax2` (R141). -/
def pmax2Fn : AluFn := fun _ a b => elementwise max a b

/-- `pmax2` with a thread register (R141). -/
def execPmax2Vr (w : BitVec 1) (d : BitVec 7) (a : BitVec 7) (b : BitVec 7) (s0 : State) : Result :=
  aluVR pmax2Fn w d a b s0

/-- `pmax2` with a uniform register (R141). -/
def execPmax2Vs (w : BitVec 1) (d : BitVec 7) (a : BitVec 7) (s : BitVec 7) (s0 : State) : Result :=
  aluVS pmax2Fn w d a s s0

/-- The function of `pmin2` (R141). -/
def pmin2Fn : AluFn := fun _ a b => elementwise min a b

/-- `pmin2` with a thread register (R141). -/
def execPmin2Vr (w : BitVec 1) (d : BitVec 7) (a : BitVec 7) (b : BitVec 7) (s0 : State) : Result :=
  aluVR pmin2Fn w d a b s0

/-- `pmin2` with a uniform register (R141). -/
def execPmin2Vs (w : BitVec 1) (d : BitVec 7) (a : BitVec 7) (s : BitVec 7) (s0 : State) : Result :=
  aluVS pmin2Fn w d a s s0

/-- The function of `psrar2` (R141). -/
def psrar2Fn : AluFn := fun _ a b => psrar2Word a b

/-- `psrar2` with a thread register (R142). -/
def execPsrar2Vr (w : BitVec 1) (d : BitVec 7) (a : BitVec 7) (b : BitVec 7) (s0 : State) : Result :=
  aluVR psrar2Fn w d a b s0

/-- `psrar2` with a uniform register (R142). -/
def execPsrar2Vs (w : BitVec 1) (d : BitVec 7) (a : BitVec 7) (s : BitVec 7) (s0 : State) : Result :=
  aluVS psrar2Fn w d a s s0

/-- The function of `pack2s` (R141). -/
def pack2sFn : AluFn := fun _ a b => pack2sWord a b

/-- `pack2s` with a thread register (R141). -/
def execPack2sVr (w : BitVec 1) (d : BitVec 7) (a : BitVec 7) (b : BitVec 7) (s0 : State) : Result :=
  aluVR pack2sFn w d a b s0

/-- `pack2s` with a uniform register (R141). -/
def execPack2sVs (w : BitVec 1) (d : BitVec 7) (a : BitVec 7) (s : BitVec 7) (s0 : State) : Result :=
  aluVS pack2sFn w d a s s0

/-- `unpklo` (R141). -/
def execUnpklo (w : BitVec 1) (d : BitVec 7) (a : BitVec 7) (s0 : State) : Result :=
  aluV1 (fun a => BitVec.ofInt 32 (elem a 0)) w d a s0

/-- `unpkhi` (R141). -/
def execUnpkhi (w : BitVec 1) (d : BitVec 7) (a : BitVec 7) (s0 : State) : Result :=
  aluV1 (fun a => BitVec.ofInt 32 (elem a 1)) w d a s0

end Sys2Proof.Machine
end

