-- ==== Sys2Proof/Machine/Uniform.lean ====
section
/-! DEFINITION. Uniform instructions, classes SR and SI, but for `sld` and `sst` (R109 to R113, R120). -/

namespace Sys2Proof.Machine

/-- An SR function: the destination is the first source (R109, R110). -/
def uniSR (f : Word → Word → Word) (w : BitVec 1) (d a : BitVec 10) (s0 : State) : Result :=
  issue (infoS2 w d a) (fun c s => s.putS c d.toNat [f (c.rs d.toNat) (c.rs a.toNat)]) s0

/-- `sadd` (R110). -/
def execSadd (w : BitVec 1) (d a : BitVec 10) (s0 : State) : Result := uniSR (fun x y => x + y) w d a s0

/-- `ssub` (R110). -/
def execSsub (w : BitVec 1) (d a : BitVec 10) (s0 : State) : Result := uniSR (fun x y => x - y) w d a s0

/-- `smul` (R110). -/
def execSmul (w : BitVec 1) (d a : BitVec 10) (s0 : State) : Result := uniSR (fun x y => x * y) w d a s0

/-- `sand` (R110). -/
def execSand (w : BitVec 1) (d a : BitVec 10) (s0 : State) : Result := uniSR (fun x y => x &&& y) w d a s0

/-- `sor` (R110). -/
def execSor (w : BitVec 1) (d a : BitVec 10) (s0 : State) : Result := uniSR (fun x y => x ||| y) w d a s0

/-- `sxor` (R110). -/
def execSxor (w : BitVec 1) (d a : BitVec 10) (s0 : State) : Result := uniSR (fun x y => x ^^^ y) w d a s0

/-- `sshl` (R110). -/
def execSshl (w : BitVec 1) (d a : BitVec 10) (s0 : State) : Result := uniSR (shlWord) w d a s0

/-- `sshr` (R110). -/
def execSshr (w : BitVec 1) (d a : BitVec 10) (s0 : State) : Result := uniSR (shrWord) w d a s0

/-- `ssra` (R110). -/
def execSsra (w : BitVec 1) (d a : BitVec 10) (s0 : State) : Result := uniSR (sraWord) w d a s0

/-- `smin` (R110). -/
def execSmin (w : BitVec 1) (d a : BitVec 10) (s0 : State) : Result := uniSR (minWord) w d a s0

/-- `smax` (R110). -/
def execSmax (w : BitVec 1) (d a : BitVec 10) (s0 : State) : Result := uniSR (maxWord) w d a s0

/-- `sminu` (R110). -/
def execSminu (w : BitVec 1) (d a : BitVec 10) (s0 : State) : Result := uniSR (minuWord) w d a s0

/-- `smaxu` (R110). -/
def execSmaxu (w : BitVec 1) (d a : BitVec 10) (s0 : State) : Result := uniSR (maxuWord) w d a s0

/-- `smov` (R110). -/
def execSmov (w : BitVec 1) (d a : BitVec 10) (s0 : State) : Result := uniSR (fun _ y => y) w d a s0

/-- The two words of a 64-bit value, low first (R77). -/
def words2 (x : DWord) : List Word := [x.setWidth 32, x.extractLsb' 32 32]

/-- `sadd64` (R110). -/
def execSadd64 (w : BitVec 1) (d a : BitVec 10) (s0 : State) : Result :=
  issue (infoS2 w d a 2) (fun c s => s.putS c d.toNat (words2 (c.rs2 d.toNat + c.rs2 a.toNat))) s0

/-- `ssub64` (R110). -/
def execSsub64 (w : BitVec 1) (d a : BitVec 10) (s0 : State) : Result :=
  issue (infoS2 w d a 2) (fun c s => s.putS c d.toNat (words2 (c.rs2 d.toNat - c.rs2 a.toNat))) s0

/-- The team status word TMS (R349): SFLT, SSTATE (0 none, 1 running, 2 blocked, 3 ended), and the sticky flags. -/
def Seq.tms (q : Seq) : Word :=
  BitVec.ofNat 32 (fieldAt q.sflt.toNat 8 + fieldAt (if q.run = 1 ∧ q.wait.isSome then 2 else q.run) 6 + fieldAt q.msat.toNat 3 +
    fieldAt q.bmx.toNat 2 + fieldAt q.munf.toNat 1 + q.movf.toNat)

/-- The OR of TSR over the active threads (R18, R111). -/
def Ctx.tsrs (c : Ctx) : Word := (lanesOf c.mask).foldl (fun x l => x ||| (c.G.lane l).tsr) 0

/-- The system values of `sget` (R111). A path without lanes has no lowest thread: a free value (R396, log 23). -/
def State.sysValue (s : State) (c : Ctx) (n : Nat) : Nat :=
  let T := s.team? c.G.team
  let R := T.bind s.recOf
  let x := match T with | some T => T.x | none => 0
  let gx := match R with | some r => r.gx | none => 1
  let gy := match R with | some r => r.gy | none => 1
  match n with
  | 0 => if c.mask = 0 then (Config.freeWord c.n).toNat % 32 else c.low
  | 1 => c.G.idx
  | 2 => x % gx
  | 3 => x / gx % gy
  | 4 => x / gx / gy
  | 5 => gx
  | 6 => gy
  | 7 => match R with | some r => r.gz | none => 1
  | 8 => match T with | some T => T.rank | none => 0
  | 9 => match R with | some r => r.clw + r.clh * 256 | none => 0x0101
  | 10 => c.G.core
  | 11 => dieOf c.G.core
  | 12 => s.devId
  | 13 => c.mask.toNat
  | 14 => s.now % 2 ^ 32
  | 15 => s.now / 2 ^ 32
  | 16 => c.tsrs.toNat
  | 17 => match T with | some T => T.seq.tms.toNat | none => 0
  | 18 => match T with | some T => T.tagB + T.tagN * 64 | none => 0
  | _ => 0

/-- `sget` (R110, R111); a mod hint with CLR clears the TSR of the active threads after the read of value 16 (R18, R75). -/
def execSget (w : BitVec 1) (d : BitVec 10) (n : BitVec 10) (s0 : State) : Result :=
  let i := infoS1 w d 1 1
  issue (if n = 16 then i.allow modCLR else i)
    (fun c s =>
      let x := BitVec.ofNat 32 (s.sysValue c n.toNat)
      let s := if c.hints.clr then s.updGroup c.g fun G => G.updLanes (lanesOf c.mask) fun _ t => { t with tsr := 0 } else s
      s.putS c d.toNat [x]) s0

/-- `sfromv`: the value of the lowest active thread (R110); a path without lanes has none: a free value (R396, log 23). -/
def execSfromv (w : BitVec 1) (d : BitVec 10) (a : BitVec 7) (s0 : State) : Result :=
  issue { w := flag1 w, regs := [.s d.toNat 1 1, .v a.toNat 1 1] } 
    (fun c s => s.putS c d.toNat [if c.mask = 0 then Config.freeWord c.n else c.rv c.low a.toNat]) s0

/-- `stov` (R110). -/
def execStov (w : BitVec 1) (d : BitVec 7) (a : BitVec 10) (s0 : State) : Result :=
  issue { w := flag1 w, regs := [.v d.toNat 1 1, .s a.toNat 1 1] }
    (fun c s => s.putV c d.toNat fun _ => (c.rs a.toNat, 0)) s0

/-- An SI function with an immediate that hints may widen: the destination is the first source (R63, R112). `sgn` tells how the
field is extended. -/
def uniSI (sgn : Bool) (f : Word → Word → Word) (w : BitVec 1) (d : BitVec 10) (i : BitVec 12) (s0 : State) : Result :=
  issue { infoS1 w d 1 1 with imm := true, immhi := true }
    (fun c s => s.putS c d.toNat
      [f (c.rs d.toNat) (c.hints.immOr (if sgn then i.signExtend 32 else i.setWidth 32))]) s0

/-- `sli` (R112). -/
def execSli (w : BitVec 1) (d : BitVec 10) (i : BitVec 12) (s0 : State) : Result := uniSI true (fun _ y => y) w d i s0

/-- `saddi` (R112). -/
def execSaddi (w : BitVec 1) (d : BitVec 10) (i : BitVec 12) (s0 : State) : Result := uniSI true (fun x y => x + y) w d i s0

/-- `sandi` (R112). -/
def execSandi (w : BitVec 1) (d : BitVec 10) (i : BitVec 12) (s0 : State) : Result := uniSI false (fun x y => x &&& y) w d i s0

/-- `sori` (R112). -/
def execSori (w : BitVec 1) (d : BitVec 10) (i : BitVec 12) (s0 : State) : Result := uniSI false (fun x y => x ||| y) w d i s0

/-- `sxori` (R112). -/
def execSxori (w : BitVec 1) (d : BitVec 10) (i : BitVec 12) (s0 : State) : Result := uniSI false (fun x y => x ^^^ y) w d i s0

/-- `smuli` (R112). -/
def execSmuli (w : BitVec 1) (d : BitVec 10) (i : BitVec 12) (s0 : State) : Result := uniSI true (fun x y => x * y) w d i s0

/-- `sshli` (R112). -/
def execSshli (w : BitVec 1) (d : BitVec 10) (n : BitVec 5) (s0 : State) : Result :=
  issue (infoS1 w d 1 1) (fun c s => s.putS c d.toNat [shlWord (c.rs d.toNat) (n.setWidth 32)]) s0

/-- `sshri` (R112). -/
def execSshri (w : BitVec 1) (d : BitVec 10) (n : BitVec 5) (s0 : State) : Result :=
  issue (infoS1 w d 1 1) (fun c s => s.putS c d.toNat [shrWord (c.rs d.toNat) (n.setWidth 32)]) s0

/-- `ssrai` (R112). -/
def execSsrai (w : BitVec 1) (d : BitVec 10) (n : BitVec 5) (s0 : State) : Result :=
  issue (infoS1 w d 1 1) (fun c s => s.putS c d.toNat [sraWord (c.rs d.toNat) (n.setWidth 32)]) s0

/-- `bbind`: a record with a reserved value traps with the record detail, and the old one stays (R112, R120). -/
def execBbind (w : BitVec 1) (d : BitVec 10) (b : BitVec 4) (s0 : State) : Result :=
  issue (infoS1 w d 4 4)
    (fun c s =>
      let r := c.rs4 d.toNat
      if recOk r then (s.updGroup c.g fun G => { G with b := G.b.put b.toNat r }).retire c else s.trapAt c 1 6) s0

end Sys2Proof.Machine
end

