-- ==== Sys2Proof/Machine/Dispatch.lean ====
section
/-! DEFINITION. Dispatch: one arm for each row of the opcode table, each a direct call of its meaning. -/

namespace Sys2Proof.Machine

/-- The meaning of an instruction or an event in a state. -/
def exec (i : Instr) (s : State) : Host.Outcome State Fault Refusal :=
  match i with
  | .addVr w d a b => Sys2Proof.Machine.execAddVr w d a b s
  | .addVs w d a u => Sys2Proof.Machine.execAddVs w d a u s
  | .addVi w d a x => Sys2Proof.Machine.execAddVi w d a x s
  | .subVr w d a b => Sys2Proof.Machine.execSubVr w d a b s
  | .subVs w d a u => Sys2Proof.Machine.execSubVs w d a u s
  | .subVi w d a x => Sys2Proof.Machine.execSubVi w d a x s
  | .mulVr w d a b => Sys2Proof.Machine.execMulVr w d a b s
  | .mulVs w d a u => Sys2Proof.Machine.execMulVs w d a u s
  | .mulVi w d a x => Sys2Proof.Machine.execMulVi w d a x s
  | .mulhiVr w d a b => Sys2Proof.Machine.execMulhiVr w d a b s
  | .mulhiVs w d a u => Sys2Proof.Machine.execMulhiVs w d a u s
  | .mulhiVi w d a x => Sys2Proof.Machine.execMulhiVi w d a x s
  | .mulhuVr w d a b => Sys2Proof.Machine.execMulhuVr w d a b s
  | .mulhuVs w d a u => Sys2Proof.Machine.execMulhuVs w d a u s
  | .mulhuVi w d a x => Sys2Proof.Machine.execMulhuVi w d a x s
  | .madVr w d a b => Sys2Proof.Machine.execMadVr w d a b s
  | .madVs w d a u => Sys2Proof.Machine.execMadVs w d a u s
  | .madVi w d a x => Sys2Proof.Machine.execMadVi w d a x s
  | .andVr w d a b => Sys2Proof.Machine.execAndVr w d a b s
  | .andVs w d a u => Sys2Proof.Machine.execAndVs w d a u s
  | .andVi w d a x => Sys2Proof.Machine.execAndVi w d a x s
  | .orVr w d a b => Sys2Proof.Machine.execOrVr w d a b s
  | .orVs w d a u => Sys2Proof.Machine.execOrVs w d a u s
  | .orVi w d a x => Sys2Proof.Machine.execOrVi w d a x s
  | .xorVr w d a b => Sys2Proof.Machine.execXorVr w d a b s
  | .xorVs w d a u => Sys2Proof.Machine.execXorVs w d a u s
  | .xorVi w d a x => Sys2Proof.Machine.execXorVi w d a x s
  | .andnVr w d a b => Sys2Proof.Machine.execAndnVr w d a b s
  | .andnVs w d a u => Sys2Proof.Machine.execAndnVs w d a u s
  | .andnVi w d a x => Sys2Proof.Machine.execAndnVi w d a x s
  | .shlVr w d a b => Sys2Proof.Machine.execShlVr w d a b s
  | .shlVs w d a u => Sys2Proof.Machine.execShlVs w d a u s
  | .shlVi w d a x => Sys2Proof.Machine.execShlVi w d a x s
  | .shrVr w d a b => Sys2Proof.Machine.execShrVr w d a b s
  | .shrVs w d a u => Sys2Proof.Machine.execShrVs w d a u s
  | .shrVi w d a x => Sys2Proof.Machine.execShrVi w d a x s
  | .sraVr w d a b => Sys2Proof.Machine.execSraVr w d a b s
  | .sraVs w d a u => Sys2Proof.Machine.execSraVs w d a u s
  | .sraVi w d a x => Sys2Proof.Machine.execSraVi w d a x s
  | .srarVr w d a b => Sys2Proof.Machine.execSrarVr w d a b s
  | .srarVs w d a u => Sys2Proof.Machine.execSrarVs w d a u s
  | .srarVi w d a x => Sys2Proof.Machine.execSrarVi w d a x s
  | .minVr w d a b => Sys2Proof.Machine.execMinVr w d a b s
  | .minVs w d a u => Sys2Proof.Machine.execMinVs w d a u s
  | .minVi w d a x => Sys2Proof.Machine.execMinVi w d a x s
  | .maxVr w d a b => Sys2Proof.Machine.execMaxVr w d a b s
  | .maxVs w d a u => Sys2Proof.Machine.execMaxVs w d a u s
  | .maxVi w d a x => Sys2Proof.Machine.execMaxVi w d a x s
  | .minuVr w d a b => Sys2Proof.Machine.execMinuVr w d a b s
  | .minuVs w d a u => Sys2Proof.Machine.execMinuVs w d a u s
  | .minuVi w d a x => Sys2Proof.Machine.execMinuVi w d a x s
  | .maxuVr w d a b => Sys2Proof.Machine.execMaxuVr w d a b s
  | .maxuVs w d a u => Sys2Proof.Machine.execMaxuVs w d a u s
  | .maxuVi w d a x => Sys2Proof.Machine.execMaxuVi w d a x s
  | .addsVr w d a b => Sys2Proof.Machine.execAddsVr w d a b s
  | .addsVs w d a u => Sys2Proof.Machine.execAddsVs w d a u s
  | .addsVi w d a x => Sys2Proof.Machine.execAddsVi w d a x s
  | .subsVr w d a b => Sys2Proof.Machine.execSubsVr w d a b s
  | .subsVs w d a u => Sys2Proof.Machine.execSubsVs w d a u s
  | .subsVi w d a x => Sys2Proof.Machine.execSubsVi w d a x s
  | .bfxVr w d a b => Sys2Proof.Machine.execBfxVr w d a b s
  | .bfxVs w d a u => Sys2Proof.Machine.execBfxVs w d a u s
  | .bfxVi w d a x => Sys2Proof.Machine.execBfxVi w d a x s
  | .bfiVr w d a b => Sys2Proof.Machine.execBfiVr w d a b s
  | .bfiVs w d a u => Sys2Proof.Machine.execBfiVs w d a u s
  | .bfiVi w d a x => Sys2Proof.Machine.execBfiVi w d a x s
  | .popc w d a => Sys2Proof.Machine.execPopc w d a s
  | .clz w d a => Sys2Proof.Machine.execClz w d a s
  | .movVr w d b => Sys2Proof.Machine.execMovVr w d b s
  | .movVs w d u => Sys2Proof.Machine.execMovVs w d u s
  | .movVi w d x => Sys2Proof.Machine.execMovVi w d x s
  | .selVr w d a b => Sys2Proof.Machine.execSelVr w d a b s
  | .selVs w d a u => Sys2Proof.Machine.execSelVs w d a u s
  | .selVi w d a x => Sys2Proof.Machine.execSelVi w d a x s
  | .add64Vr w d a b => Sys2Proof.Machine.execAdd64Vr w d a b s
  | .add64Vs w d a u => Sys2Proof.Machine.execAdd64Vs w d a u s
  | .sub64Vr w d a b => Sys2Proof.Machine.execSub64Vr w d a b s
  | .sub64Vs w d a u => Sys2Proof.Machine.execSub64Vs w d a u s
  | .shl64Vr w d a b => Sys2Proof.Machine.execShl64Vr w d a b s
  | .shl64Vs w d a u => Sys2Proof.Machine.execShl64Vs w d a u s
  | .shl64Vi w d a x => Sys2Proof.Machine.execShl64Vi w d a x s
  | .shr64Vr w d a b => Sys2Proof.Machine.execShr64Vr w d a b s
  | .shr64Vs w d a u => Sys2Proof.Machine.execShr64Vs w d a u s
  | .shr64Vi w d a x => Sys2Proof.Machine.execShr64Vi w d a x s
  | .faddVr w d a b => Sys2Proof.Machine.execFaddVr w d a b s
  | .faddVs w d a u => Sys2Proof.Machine.execFaddVs w d a u s
  | .fsubVr w d a b => Sys2Proof.Machine.execFsubVr w d a b s
  | .fsubVs w d a u => Sys2Proof.Machine.execFsubVs w d a u s
  | .fmulVr w d a b => Sys2Proof.Machine.execFmulVr w d a b s
  | .fmulVs w d a u => Sys2Proof.Machine.execFmulVs w d a u s
  | .ffmaVr w d a b => Sys2Proof.Machine.execFfmaVr w d a b s
  | .ffmaVs w d a u => Sys2Proof.Machine.execFfmaVs w d a u s
  | .fminVr w d a b => Sys2Proof.Machine.execFminVr w d a b s
  | .fminVs w d a u => Sys2Proof.Machine.execFminVs w d a u s
  | .fmaxVr w d a b => Sys2Proof.Machine.execFmaxVr w d a b s
  | .fmaxVs w d a u => Sys2Proof.Machine.execFmaxVs w d a u s
  | .fabs w d a => Sys2Proof.Machine.execFabs w d a s
  | .fneg w d a => Sys2Proof.Machine.execFneg w d a s
  | .hadd2Vr w d a b => Sys2Proof.Machine.execHadd2Vr w d a b s
  | .hadd2Vs w d a u => Sys2Proof.Machine.execHadd2Vs w d a u s
  | .hsub2Vr w d a b => Sys2Proof.Machine.execHsub2Vr w d a b s
  | .hsub2Vs w d a u => Sys2Proof.Machine.execHsub2Vs w d a u s
  | .hmul2Vr w d a b => Sys2Proof.Machine.execHmul2Vr w d a b s
  | .hmul2Vs w d a u => Sys2Proof.Machine.execHmul2Vs w d a u s
  | .hfma2Vr w d a b => Sys2Proof.Machine.execHfma2Vr w d a b s
  | .hfma2Vs w d a u => Sys2Proof.Machine.execHfma2Vs w d a u s
  | .hdot2Vr w d a b => Sys2Proof.Machine.execHdot2Vr w d a b s
  | .hdot2Vs w d a u => Sys2Proof.Machine.execHdot2Vs w d a u s
  | .hmax2Vr w d a b => Sys2Proof.Machine.execHmax2Vr w d a b s
  | .hmax2Vs w d a u => Sys2Proof.Machine.execHmax2Vs w d a u s
  | .hmin2Vr w d a b => Sys2Proof.Machine.execHmin2Vr w d a b s
  | .hmin2Vs w d a u => Sys2Proof.Machine.execHmin2Vs w d a u s
  | .padd2sVr w d a b => Sys2Proof.Machine.execPadd2sVr w d a b s
  | .padd2sVs w d a u => Sys2Proof.Machine.execPadd2sVs w d a u s
  | .psub2sVr w d a b => Sys2Proof.Machine.execPsub2sVr w d a b s
  | .psub2sVs w d a u => Sys2Proof.Machine.execPsub2sVs w d a u s
  | .pmul2Vr w d a b => Sys2Proof.Machine.execPmul2Vr w d a b s
  | .pmul2Vs w d a u => Sys2Proof.Machine.execPmul2Vs w d a u s
  | .pmac2Vr w d a b => Sys2Proof.Machine.execPmac2Vr w d a b s
  | .pmac2Vs w d a u => Sys2Proof.Machine.execPmac2Vs w d a u s
  | .pmax2Vr w d a b => Sys2Proof.Machine.execPmax2Vr w d a b s
  | .pmax2Vs w d a u => Sys2Proof.Machine.execPmax2Vs w d a u s
  | .pmin2Vr w d a b => Sys2Proof.Machine.execPmin2Vr w d a b s
  | .pmin2Vs w d a u => Sys2Proof.Machine.execPmin2Vs w d a u s
  | .psrar2Vr w d a b => Sys2Proof.Machine.execPsrar2Vr w d a b s
  | .psrar2Vs w d a u => Sys2Proof.Machine.execPsrar2Vs w d a u s
  | .pack2sVr w d a b => Sys2Proof.Machine.execPack2sVr w d a b s
  | .pack2sVs w d a u => Sys2Proof.Machine.execPack2sVs w d a u s
  | .unpklo w d a => Sys2Proof.Machine.execUnpklo w d a s
  | .unpkhi w d a => Sys2Proof.Machine.execUnpkhi w d a s
  | .cmpVv w c p t a b => Sys2Proof.Machine.execCmpVv w c p t a b s
  | .cmpVs w c p t a u => Sys2Proof.Machine.execCmpVs w c p t a u s
  | .cmpVi w c p t a x => Sys2Proof.Machine.execCmpVi w c p t a x s
  | .scmp w c q t a b => Sys2Proof.Machine.execScmp w c q t a b s
  | .sadd w d a => Sys2Proof.Machine.execSadd w d a s
  | .ssub w d a => Sys2Proof.Machine.execSsub w d a s
  | .smul w d a => Sys2Proof.Machine.execSmul w d a s
  | .sand w d a => Sys2Proof.Machine.execSand w d a s
  | .sor w d a => Sys2Proof.Machine.execSor w d a s
  | .sxor w d a => Sys2Proof.Machine.execSxor w d a s
  | .sshl w d a => Sys2Proof.Machine.execSshl w d a s
  | .sshr w d a => Sys2Proof.Machine.execSshr w d a s
  | .ssra w d a => Sys2Proof.Machine.execSsra w d a s
  | .smin w d a => Sys2Proof.Machine.execSmin w d a s
  | .smax w d a => Sys2Proof.Machine.execSmax w d a s
  | .sminu w d a => Sys2Proof.Machine.execSminu w d a s
  | .smaxu w d a => Sys2Proof.Machine.execSmaxu w d a s
  | .smov w d a => Sys2Proof.Machine.execSmov w d a s
  | .sadd64 w d a => Sys2Proof.Machine.execSadd64 w d a s
  | .ssub64 w d a => Sys2Proof.Machine.execSsub64 w d a s
  | .sget w d n => Sys2Proof.Machine.execSget w d n s
  | .sfromv w d a => Sys2Proof.Machine.execSfromv w d a s
  | .stov w d a => Sys2Proof.Machine.execStov w d a s
  | .sli w d x => Sys2Proof.Machine.execSli w d x s
  | .saddi w d x => Sys2Proof.Machine.execSaddi w d x s
  | .sandi w d x => Sys2Proof.Machine.execSandi w d x s
  | .sori w d x => Sys2Proof.Machine.execSori w d x s
  | .sxori w d x => Sys2Proof.Machine.execSxori w d x s
  | .sshli w d c => Sys2Proof.Machine.execSshli w d c s
  | .sshri w d c => Sys2Proof.Machine.execSshri w d c s
  | .ssrai w d c => Sys2Proof.Machine.execSsrai w d c s
  | .smuli w d x => Sys2Proof.Machine.execSmuli w d x s
  | .sld w d b x => Sys2Proof.Machine.execSld w d b x s
  | .sst w d b x => Sys2Proof.Machine.execSst w d b x s
  | .bbind w d b => Sys2Proof.Machine.execBbind w d b s
  | .br w o => Sys2Proof.Machine.execBr w o s
  | .bp w p o => Sys2Proof.Machine.execBp w p o s
  | .bnp w p o => Sys2Proof.Machine.execBnp w p o s
  | .bq w q o => Sys2Proof.Machine.execBq w q o s
  | .bnq w q o => Sys2Proof.Machine.execBnq w q o s
  | .call w o => Sys2Proof.Machine.execCall w o s
  | .ret w => Sys2Proof.Machine.execRet w s
  | .cvtfi w d a u r => Sys2Proof.Machine.execCvtfi w d a u r s
  | .cvtfu w d a u r => Sys2Proof.Machine.execCvtfu w d a u r s
  | .cvtif w d a r => Sys2Proof.Machine.execCvtif w d a r s
  | .cvtuf w d a r => Sys2Proof.Machine.execCvtuf w d a r s
  | .cvtbf w d a c => Sys2Proof.Machine.execCvtbf w d a c s
  | .cvtfbl w d a => Sys2Proof.Machine.execCvtfbl w d a s
  | .cvtfbh w d a => Sys2Proof.Machine.execCvtfbh w d a s
  | .cvthf w d a h => Sys2Proof.Machine.execCvthf w d a h s
  | .cvtfhl w d a u r => Sys2Proof.Machine.execCvtfhl w d a u r s
  | .cvtfhh w d a u r => Sys2Proof.Machine.execCvtfhh w d a u r s
  | .rcp w d a => Sys2Proof.Machine.execRcp w d a s
  | .rsqrt w d a => Sys2Proof.Machine.execRsqrt w d a s
  | .sqrt w d a => Sys2Proof.Machine.execSqrt w d a s
  | .exp2 w d a => Sys2Proof.Machine.execExp2 w d a s
  | .log2 w d a => Sys2Proof.Machine.execLog2 w d a s
  | .sinpi w d a => Sys2Proof.Machine.execSinpi w d a s
  | .cospi w d a => Sys2Proof.Machine.execCospi w d a s
  | .tanh w d a => Sys2Proof.Machine.execTanh w d a s
  | .frnd w d a r => Sys2Proof.Machine.execFrnd w d a r s
  | .shfl w d a x => Sys2Proof.Machine.execShfl w d a x s
  | .shfli w d a n => Sys2Proof.Machine.execShfli w d a n s
  | .slup w d a n l => Sys2Proof.Machine.execSlup w d a n l s
  | .sldn w d a n l => Sys2Proof.Machine.execSldn w d a n l s
  | .bcst w d a n => Sys2Proof.Machine.execBcst w d a n s
  | .ballot w u p => Sys2Proof.Machine.execBallot w u p s
  | .vany w q p => Sys2Proof.Machine.execVany w q p s
  | .vall w q p => Sys2Proof.Machine.execVall w q p s
  | .radd w d a => Sys2Proof.Machine.execRadd w d a s
  | .rfadd w d a => Sys2Proof.Machine.execRfadd w d a s
  | .rmax w d a => Sys2Proof.Machine.execRmax w d a s
  | .rmin w d a => Sys2Proof.Machine.execRmin w d a s
  | .scan w d a => Sys2Proof.Machine.execScan w d a s
  | .scanx w d a => Sys2Proof.Machine.execScanx w d a s
  | .matchv w d a => Sys2Proof.Machine.execMatchv w d a s
  | .pand w d a b => Sys2Proof.Machine.execPand w d a b s
  | .por w d a b => Sys2Proof.Machine.execPor w d a b s
  | .pxor w d a b => Sys2Proof.Machine.execPxor w d a b s
  | .pnot w d a => Sys2Proof.Machine.execPnot w d a s
  | .ptov w d p => Sys2Proof.Machine.execPtov w d p s
  | .vtop w p a => Sys2Proof.Machine.execVtop w p a s
  | .pebpk w d a f => Sys2Proof.Machine.execPebpk w d a f s
  | .pebup w d a f => Sys2Proof.Machine.execPebup w d a f s
  | .mvlk w d => Sys2Proof.Machine.execMvlk w d s
  | .ldlk w a => Sys2Proof.Machine.execLdlk w a s
  | .ldb w d x b c r e n => Sys2Proof.Machine.execLdb w d x b c r e n s
  | .ldbs w d x b c r e n => Sys2Proof.Machine.execLdbs w d x b c r e n s
  | .ldh w d x b c r e n => Sys2Proof.Machine.execLdh w d x b c r e n s
  | .ldhs w d x b c r e n => Sys2Proof.Machine.execLdhs w d x b c r e n s
  | .ldw w d x b c r e n => Sys2Proof.Machine.execLdw w d x b c r e n s
  | .ldd w d x b c r e n => Sys2Proof.Machine.execLdd w d x b c r e n s
  | .ldq w d x b c r e n => Sys2Proof.Machine.execLdq w d x b c r e n s
  | .stb w d x b e n => Sys2Proof.Machine.execStb w d x b e n s
  | .sth w d x b e n => Sys2Proof.Machine.execSth w d x b e n s
  | .stw w d x b e n => Sys2Proof.Machine.execStw w d x b e n s
  | .std w d x b e n => Sys2Proof.Machine.execStd w d x b e n s
  | .stq w d x b e n => Sys2Proof.Machine.execStq w d x b e n s
  | .pref w x b r e n => Sys2Proof.Machine.execPref w x b r e n s
  | .aadd w b d x v => Sys2Proof.Machine.execAadd w b d x v s
  | .amin w b d x v => Sys2Proof.Machine.execAmin w b d x v s
  | .amax w b d x v => Sys2Proof.Machine.execAmax w b d x v s
  | .aminu w b d x v => Sys2Proof.Machine.execAminu w b d x v s
  | .amaxu w b d x v => Sys2Proof.Machine.execAmaxu w b d x v s
  | .aand w b d x v => Sys2Proof.Machine.execAand w b d x v s
  | .aor w b d x v => Sys2Proof.Machine.execAor w b d x v s
  | .axor w b d x v => Sys2Proof.Machine.execAxor w b d x v s
  | .axchg w b d x v => Sys2Proof.Machine.execAxchg w b d x v s
  | .acas w b d x v => Sys2Proof.Machine.execAcas w b d x v s
  | .afadd w b d x v => Sys2Proof.Machine.execAfadd w b d x v s
  | .amaxpk w b d x v => Sys2Proof.Machine.execAmaxpk w b d x v s
  | .ahadd2 w b d x v => Sys2Proof.Machine.execAhadd2 w b d x v s
  | .jset w j u => Sys2Proof.Machine.execJset w j u s
  | .jsetAct w j => Sys2Proof.Machine.execJsetAct w j s
  | .jadd w j u => Sys2Proof.Machine.execJadd w j u s
  | .jaddAct w j => Sys2Proof.Machine.execJaddAct w j s
  | .jclr w j u => Sys2Proof.Machine.execJclr w j u s
  | .jclrAct w j => Sys2Proof.Machine.execJclrAct w j s
  | .join w j => Sys2Proof.Machine.execJoin w j s
  | .wait w d b c a => Sys2Proof.Machine.execWait w d b c a s
  | .bara w b u => Sys2Proof.Machine.execBara w b u s
  | .barw w b u => Sys2Proof.Machine.execBarw w b u s
  | .barx w b u => Sys2Proof.Machine.execBarx w b u s
  | .tgwa w u => Sys2Proof.Machine.execTgwa w u s
  | .tgwl w u => Sys2Proof.Machine.execTgwl w u s
  | .tgff w d u => Sys2Proof.Machine.execTgff w d u s
  | .tgclr w u => Sys2Proof.Machine.execTgclr w u s
  | .rbacq w n => Sys2Proof.Machine.execRbacq w n s
  | .rbrel w => Sys2Proof.Machine.execRbrel w s
  | .cvjoin w u => Sys2Proof.Machine.execCvjoin w u s
  | .cvleave w => Sys2Proof.Machine.execCvleave w s
  | .cvget w d => Sys2Proof.Machine.execCvget w d s
  | .fence w p k => Sys2Proof.Machine.execFence w p k s
  | .exit w => Sys2Proof.Machine.execExit w s
  | .yield w => Sys2Proof.Machine.execYield w s
  | .jri w u => Sys2Proof.Machine.execJri w u s
  | .cpy w a => Sys2Proof.Machine.execCpy w a s
  | .cpyg w a => Sys2Proof.Machine.execCpyg w a s
  | .cpys w a => Sys2Proof.Machine.execCpys w a s
  | .cpyf w a => Sys2Proof.Machine.execCpyf w a s
  | .orsv w a o => Sys2Proof.Machine.execOrsv w a o s
  | .orel w o => Sys2Proof.Machine.execOrel w o s
  | .qclaim w a d => Sys2Proof.Machine.execQclaim w a d s
  | .qpub w a => Sys2Proof.Machine.execQpub w a s
  | .qtake w a d => Sys2Proof.Machine.execQtake w a d s
  | .qdone w a => Sys2Proof.Machine.execQdone w a s
  | .qstat w a d => Sys2Proof.Machine.execQstat w a d s
  | .droOpen w a => Sys2Proof.Machine.execDroOpen w a s
  | .droOpenStatus w a d => Sys2Proof.Machine.execDroOpenStatus w a d s
  | .droSend w a => Sys2Proof.Machine.execDroSend w a s
  | .droSendStatus w a d => Sys2Proof.Machine.execDroSendStatus w a d s
  | .droClose w a => Sys2Proof.Machine.execDroClose w a s
  | .droCloseStatus w a d => Sys2Proof.Machine.execDroCloseStatus w a d s
  | .droMfst w a d => Sys2Proof.Machine.execDroMfst w a d s
  | .droCorr w a => Sys2Proof.Machine.execDroCorr w a s
  | .asyOpen w a => Sys2Proof.Machine.execAsyOpen w a s
  | .asyOpenStatus w a d => Sys2Proof.Machine.execAsyOpenStatus w a d s
  | .asyPut w a => Sys2Proof.Machine.execAsyPut w a s
  | .asyPutStatus w a d => Sys2Proof.Machine.execAsyPutStatus w a d s
  | .asySeal w a => Sys2Proof.Machine.execAsySeal w a s
  | .asySealStatus w a d => Sys2Proof.Machine.execAsySealStatus w a d s
  | .asyStat w a d => Sys2Proof.Machine.execAsyStat w a d s
  | .mld o h m => Sys2Proof.Machine.execMld o h m s
  | .mmul a o m v => Sys2Proof.Machine.execMmul a o m v s
  | .mmulsm a o m v => Sys2Proof.Machine.execMmulsm a o m v s
  | .mclr a => Sys2Proof.Machine.execMclr a s
  | .mbmap o e => Sys2Proof.Machine.execMbmap o e s
  | .mgrp a o m => Sys2Proof.Machine.execMgrp a o m s
  | .mret a t p m b => Sys2Proof.Machine.execMret a t p m b s
  | .mretColl a t p m => Sys2Proof.Machine.execMretColl a t p m s
  | .marv b => Sys2Proof.Machine.execMarv b s
  | .mwait b => Sys2Proof.Machine.execMwait b s
  | .mset m x => Sys2Proof.Machine.execMset m x s
  | .madd m x => Sys2Proof.Machine.execMadd m x s
  | .mbnz m o => Sys2Proof.Machine.execMbnz m o s
  | .mtag t => Sys2Proof.Machine.execMtag t s
  | .mend => Sys2Proof.Machine.execMend s
  | .trap w n => Sys2Proof.Machine.execTrap w n s
  | .tret w => Sys2Proof.Machine.execTret w s
  | .trep w d a => Sys2Proof.Machine.execTrep w d a s
  | .tmask w d => Sys2Proof.Machine.execTmask w d s
  | .tcause w d => Sys2Proof.Machine.execTcause w d s
  | .segset w p u => Sys2Proof.Machine.execSegset w p u s
  | .segget w p u => Sys2Proof.Machine.execSegget w p u s
  | .icinv w => Sys2Proof.Machine.execIcinv w s
  | .isync w => Sys2Proof.Machine.execIsync w s
  | .tlbinv w u => Sys2Proof.Machine.execTlbinv w u s
  | .pctr w d n => Sys2Proof.Machine.execPctr w d n s
  | .clock w d => Sys2Proof.Machine.execClock w d s
  | .cycles w d => Sys2Proof.Machine.execCycles w d s
  | .brk w n => Sys2Proof.Machine.execBrk w n s
  | .ctxsw w u => Sys2Proof.Machine.execCtxsw w u s
  | .imm w x => Sys2Proof.Machine.execImm w x s
  | .immhi w h => Sys2Proof.Machine.execImmhi w h s
  | .modh w l c f p r y o u => Sys2Proof.Machine.execModh w l c f p r y o u s
  | .safe w j p n v => Sys2Proof.Machine.execSafe w j p n v s
  | .nop w => Sys2Proof.Machine.execNop w s
  | .resultWriteback g id => Sys2Proof.Machine.execResultWriteback g id s
  | .handlerEntry g => Sys2Proof.Machine.execHandlerEntry g s
  | .waitConditionMet g id => Sys2Proof.Machine.execWaitConditionMet g id s
  | .waitTimeout g id => Sys2Proof.Machine.execWaitTimeout g id s
  | .waitPoll g id k => Sys2Proof.Machine.execWaitPoll g id k s
  | .barrierWaitRelease g id => Sys2Proof.Machine.execBarrierWaitRelease g id s
  | .tagWaitRelease g id => Sys2Proof.Machine.execTagWaitRelease g id s
  | .registerBlockGrant c p => Sys2Proof.Machine.execRegisterBlockGrant c p s
  | .cvjoinRequest g => Sys2Proof.Machine.execCvjoinRequest g s
  | .cvjoinAnswer g => Sys2Proof.Machine.execCvjoinAnswer g s
  | .convoyStepReport g => Sys2Proof.Machine.execConvoyStepReport g s
  | .convoyHoldReport g => Sys2Proof.Machine.execConvoyHoldReport g s
  | .convoyMinUpdate g => Sys2Proof.Machine.execConvoyMinUpdate g s
  | .stragglerTimerExpiry cv => Sys2Proof.Machine.execStragglerTimerExpiry cv s
  | .convoyLeaveReport g => Sys2Proof.Machine.execConvoyLeaveReport g s
  | .spoutRequestArrival r => Sys2Proof.Machine.execSpoutRequestArrival r s
  | .grant ch => Sys2Proof.Machine.execGrant ch s
  | .spoutReplyMulticast e => Sys2Proof.Machine.execSpoutReplyMulticast e s
  | .l1FillArrival f => Sys2Proof.Machine.execL1FillArrival f s
  | .flush c line k => Sys2Proof.Machine.execFlush c line k s
  | .writeArrival ch => Sys2Proof.Machine.execWriteArrival ch s
  | .writeCompletionReturn r => Sys2Proof.Machine.execWriteCompletionReturn r s
  | .atom ch => Sys2Proof.Machine.execAtom ch s
  | .fenceActionsEnd g id => Sys2Proof.Machine.execFenceActionsEnd g id s
  | .peerAccessArrival n => Sys2Proof.Machine.execPeerAccessArrival n s
  | .copyChunkRetire c id => Sys2Proof.Machine.execCopyChunkRetire c id s
  | .queueCommandServe d => Sys2Proof.Machine.execQueueCommandServe d s
  | .sequencerWaitRelease t => Sys2Proof.Machine.execSequencerWaitRelease t s
  | .sqDoorbellWrite ep vf q v => Sys2Proof.Machine.execSqDoorbellWrite ep vf q v s
  | .launchAccept => Sys2Proof.Machine.execLaunchAccept s
  | .teamPlacement => Sys2Proof.Machine.execTeamPlacement s
  | .backfillTimeout l => Sys2Proof.Machine.execBackfillTimeout l s
  | .launchDeadline l => Sys2Proof.Machine.execLaunchDeadline l s
  | .preemptionRequest t => Sys2Proof.Machine.execPreemptionRequest t s
  | .preemptionTimeout t => Sys2Proof.Machine.execPreemptionTimeout t s
  | .contextSave t => Sys2Proof.Machine.execContextSave t s
  | .teamRestore t => Sys2Proof.Machine.execTeamRestore t s
  | .completionRecordWrite vf => Sys2Proof.Machine.execCompletionRecordWrite vf s
  | .faultRecordWrite vf => Sys2Proof.Machine.execFaultRecordWrite vf s
  | .faultResponseWrite ep vf v => Sys2Proof.Machine.execFaultResponseWrite ep vf v s
  | .hostShootdown ep vf page n => Sys2Proof.Machine.execHostShootdown ep vf page n s
  | .shootdownComplete n => Sys2Proof.Machine.execShootdownComplete n s
  | .functionEnable ep vf v => Sys2Proof.Machine.execFunctionEnable ep vf v s
  | .functionDisable ep vf v => Sys2Proof.Machine.execFunctionDisable ep vf v s
  | .queueConfigWrite ep q v own => Sys2Proof.Machine.execQueueConfigWrite ep q v own s
  | .stagingAreaSizeWrite ep d v => Sys2Proof.Machine.execStagingAreaSizeWrite ep d v s
  | .powerLimitWrite ep v => Sys2Proof.Machine.execPowerLimitWrite ep v s
  | .attestationRequest ep v => Sys2Proof.Machine.execAttestationRequest ep v s
  | .configRegisterWrite ep vf r v => Sys2Proof.Machine.execConfigRegisterWrite ep vf r v s
  | .moduleReplacement ep => Sys2Proof.Machine.execModuleReplacement ep s
  | .deviceReset => Sys2Proof.Machine.execDeviceReset s
  | .recoveryImageLoad img sigs ver floor ep hz => Sys2Proof.Machine.execRecoveryImageLoad img sigs ver floor ep hz s
  | .supplySag d v => Sys2Proof.Machine.execSupplySag d v s
  | .supplyRecovery d v => Sys2Proof.Machine.execSupplyRecovery d v s
  | .modulePowerExcess v => Sys2Proof.Machine.execModulePowerExcess v s
  | .arrayEccError c k a b => Sys2Proof.Machine.execArrayEccError c k a b s
  | .coreRetirement c => Sys2Proof.Machine.execCoreRetirement c s
  | .hbmRowRemap d r => Sys2Proof.Machine.execHbmRowRemap d r s
  | .hbmChannelSparing st ch => Sys2Proof.Machine.execHbmChannelSparing st ch s
  | .linkLaneFailure p => Sys2Proof.Machine.execLinkLaneFailure p s
  | .flitCrcError p => Sys2Proof.Machine.execFlitCrcError p s
  | .planeOutOfService p => Sys2Proof.Machine.execPlaneOutOfService p s
  | .droChunkArrival n => Sys2Proof.Machine.execDroChunkArrival n s
  | .droPartialArrival n => Sys2Proof.Machine.execDroPartialArrival n s
  | .droNodeDeadline o p => Sys2Proof.Machine.execDroNodeDeadline o p s
  | .droResultArrival n => Sys2Proof.Machine.execDroResultArrival n s
  | .droCorrectionArrival n => Sys2Proof.Machine.execDroCorrectionArrival n s
  | .droCorrectionWindowClose o p => Sys2Proof.Machine.execDroCorrectionWindowClose o p s
  | .droVerdictArrival n => Sys2Proof.Machine.execDroVerdictArrival n s
  | .droCorrTimeout o n => Sys2Proof.Machine.execDroCorrTimeout o n s
  | .linkRateExchange d => Sys2Proof.Machine.execLinkRateExchange d s
  | .asyBeginMarker n => Sys2Proof.Machine.execAsyBeginMarker n s
  | .asyDataPacket n => Sys2Proof.Machine.execAsyDataPacket n s
  | .asyEndMarker n => Sys2Proof.Machine.execAsyEndMarker n s
  | .asyDeadline d o => Sys2Proof.Machine.execAsyDeadline d o s
  | .asyCorrectionWindowClose d o => Sys2Proof.Machine.execAsyCorrectionWindowClose d o s
  | .reservedEncoding v => Sys2Proof.Machine.execReservedEncoding v s
  | .fetchBounds => Sys2Proof.Machine.execFetchBounds s
  | .codeFetchFault => Sys2Proof.Machine.execCodeFetchFault s
  | .hostMemoryAccess ep vf w sec v => Sys2Proof.Machine.execHostMemoryAccess ep vf w sec v s
  | .partFailure n => Sys2Proof.Machine.execPartFailure n s

end Sys2Proof.Machine
end

