-- ==== Sys2Proof/Machine/Plan.lean ====
section
/-! DEFINITION. Which party moves next, and one step (R158, R191, R192, R222, R274, R390): the issue of a partition, the next word of a
sequencer, the passing of ticks, what comes from outside, and the schedule (log 1). The meaning of an instruction is a parameter here. -/

namespace Sys2Proof.Machine

/-! ## The path that a group issues (R158, R390) -/

/-- Placing a path among others by its PC. -/
def pathInsert (x : Bool × Word × Word) (l : List (Bool × Word × Word)) : List (Bool × Word × Word) :=
  l.takeWhile (fun y => y.2.1.ult x.2.1) ++ [x] ++ l.dropWhile (fun y => y.2.1.ult x.2.1)

/-- The paths of a group in the order in which they are considered (R158, R390): the handler path first; then the current path, until it
has issued 64 instructions; then from the lowest PC above the old current one, wrapping to the lowest. -/
def Group.order (G : Group) : List (Bool × Word × Word) :=
  let ps := G.readyPaths.foldl (fun l x => pathInsert x l) []
  let hs := ps.filter (·.1)
  let seqH : List (Bool × Word × Word) := match G.hnd with
    | some H => if H.trap.seq && H.ready && !H.halt then [(true, H.pc, (0 : Word))] else []
    | none => []
  let ns := ps.filter fun x => !x.1
  let turn : List (Bool × Word × Word) := match G.cur with
    | none => ns
    | some p =>
      let above := ns.filter fun x => p.ult x.2.1
      let below := ns.filter fun x => !(p.ult x.2.1)
      if G.run < 64 then (ns.filter fun x => x.2.1 == p) ++ above ++ (below.filter fun x => x.2.1 != p) else above ++ below
  seqH ++ hs ++ turn

/-- The current path of a group after it has issued a word of a path (R158, R222): the threads of that path, the lower PC of a divergence; where
they have all left Ready, or the path has issued 64 instructions in a row or yielded, the next one above it. A hint word is none of the 64
(R24). A sole path that has issued 64 goes on, and gives way as soon as another can issue (log 69). -/
def Group.issued (G : Group) (old : Group) (h : Bool) (pc m : Word) (hint : Bool) : Group :=
  if h then G
  else
    let pcs := ((lanesOf m).filter fun l => (G.lane l).st == .ready && !(G.lane l).hnd).map fun l => (G.lane l).pc
    let n := (if old.cur = some pc then old.run else 0) + (if hint then 0 else 1)
    match pcs with
    | [] => { G with cur := some pc, run := 64 }
    | p :: ps =>
      if ps.all (· == p) then { G with cur := some p, run := if G.skip then 64 else n }
      else { G with cur := some (ps.foldl (fun a b => if b.ult a then b else a) p), run := 0 }

/-- A path is current in the turn of a group, though its word does not issue yet (R158): the paths before it wait. -/
def Group.turnTo (G : Group) (h : Bool) (pc : Word) : Group := if h || G.cur == some pc then G else { G with cur := some pc, run := 0 }

/-- Has a group issued nothing: its path is still there as it was, and no place of free values has been used since (R20, R191)? -/
def stalled (s t : State) (g : Nat) (h : Bool) (pc m : Word) : Bool :=
  match t.group? g with
  | some G => t.fresh == s.fresh && G.pathLive h pc m
  | none => false

/-- The instructions that wait for the results of their threads as W = 1 does (R26). -/
def waitsFirst : Instr → Bool
  | .join _ _ => true
  | .wait _ _ _ _ _ => true
  | .barw _ _ _ => true
  | .barx _ _ _ => true
  | .tgwa _ _ => true
  | .tgwl _ _ => true
  | .rbacq _ _ => true
  | .exit _ => true
  | .cvjoin _ _ => true
  | .tlbinv _ _ => true
  | .safe _ _ _ _ _ => true
  | _ => false

/-- Does a word wait for the results of its path (R20, R26, R30)? -/
noncomputable def wordWaits (w : Nat) : Bool := bitsAt w 31 1 == 1 || (match decode w with | some i => waitsFirst i | none => false)

/-- Is a word a hint (R28)? -/
def isHint (w : Nat) : Bool := bitsAt w 27 4 == 15

/-- May a word issue for two groups in one slot: one of class VR, VI, CV, VC with kind 00 or 10, or MEM (R165)? -/
def pairable (w : Nat) : Bool :=
  let k := bitsAt w 27 4
  k == 0 || k == 2 || k == 7 || k == 9 || (k == 3 && (bitsAt w 17 2 == 0 || bitsAt w 17 2 == 2))

/-- What a cycle has issued of a group: the word, with the group as it stood, its path and hints. -/
structure Issued where
  G     : Group
  pc    : Word
  mask  : Word
  hints : Hints
  word  : Option Nat
  deriving DecidableEq, Repr

/-- The payloads of some recorded hints. -/
def Hints.payloads (h : Hints) : List (Option (BitVec 24)) := [h.imm, h.immhi, h.modh, h.nop].map fun x => x.map (·.2)

/-- May a second group share the slot of a first (R165)? -/
def State.pairs (s : State) (a b : Issued) : Bool :=
  (match s.team? a.G.team, s.team? b.G.team with | some T, some U => T.launch == U.launch | _, _ => false) &&
  a.pc == b.pc && a.mask &&& b.mask == 0 && a.mask != 0 && b.mask != 0 && a.hints.payloads == b.hints.payloads &&
  a.word == b.word && (match a.word with | some w => pairable w | none => false)

/-- What comes of trying a path: it issues, it waits on W, or it does not issue for another reason; a word may have been sent for, or a hold
have begun, meanwhile. -/
inductive Tried where
  | done (x : Issued) (t : State)
  | waits
  | stays (t : State)

/-- One path of a group tries to issue its next word (R20, R191, R264). -/
noncomputable def State.tryPath (run : Instr → State → Result) (s : State) (g : Nat) (h : Bool) (pc m : Word) : Tried :=
  let s1 := { s with cur := .path g h pc m }
  match s1.context? with
  | none => .stays s
  | some c =>
    let f := s1.fetch c
    match f.1 with
    | .miss => .stays { f.2 with cur := .none }
    | _ =>
      match run f.1.instr f.2 with
      | .next t =>
        if stalled f.2 t g h pc m then
          match f.1 with
          | .word w =>
            if wordWaits w && c.G.waits m then .waits
            else .stays (if (match t.group? g with | some G => G.cvm.held | none => false) then s.holdGroup g c.G else s)
          | _ => .stays s
        else
          let w : Option Nat := match f.1 with | .word w => some w | _ => none
          let hint : Bool := match w with | some x => isHint x | none => false
          .done ⟨c.G, pc, m, c.hints, w⟩ { t.updGroup g fun G => G.issued c.G h pc m hint with cur := .none }
      | _ => .stays s

/-- A group tries to issue: its current path is the first in the order that does not wait on W (R158); where that does not issue, the group is
not eligible (R191). -/
noncomputable def State.tryPaths (run : Instr → State → Result) (s : State) (g : Nat) : List (Bool × Word × Word) → Tried
  | [] => .stays s
  | (h, pc, m) :: rest =>
    match s.tryPath run g h pc m with
    | .waits => State.tryPaths run s g rest
    | .stays t => .stays (t.updGroup g fun G => G.turnTo h pc)
    | x => x

/-- Is a group one that may issue (R191): resident, not held by its convoy, and not in the cycle that it has given up (R222)? -/
def State.mayIssue (s : State) (G : Group) : Bool := s.resident G && !G.cvm.held && !G.skip && (s.core G.core).up

/-- The groups of a partition by slot, starting after the slot that issued last (R192). -/
def State.slotOrder (s : State) (c p : Nat) : List (Nat × Group) :=
  let gs := s.groups.filter fun (_, G) => G.core == c && G.part == p && s.mayIssue G
  let from_ := match ((s.core c).part p).last with | some k => k + 1 | none => 0
  (List.range 8).flatMap fun i => gs.filter fun (x : Nat × Group) => x.2.slot == (from_ + i) % 8

/-- The groups of a partition that had yielded before a cycle are eligible again after it (R222). -/
def State.unskip (s t : State) (c p : Nat) : State :=
  { t with groups := List.map (fun (x : Nat × Group) =>
      let was := match s.group? x.1 with | some G => G.skip | none => false
      (x.1, if x.2.core == c && x.2.part == p && was then { x.2 with skip := false } else x.2)) t.groups }

/-- The first eligible group of a list issues: with its slot, what it has issued, and the groups behind it (R192). -/
noncomputable def State.firstOf (run : Instr → State → Result) (s : State) :
    List (Nat × Group) → State × Option (Nat × Issued × List (Nat × Group))
  | [] => (s, none)
  | (g, G) :: rest =>
    match s.tryPaths run g G.order with
    | .done x t => (t, some (G.slot, x, rest))
    | .stays t => State.firstOf run t rest
    | .waits => State.firstOf run s rest

/-- A second group shares the slot of the first: the first eligible one behind it, where R165 lets it (R165, R166). -/
noncomputable def State.partner (run : Instr → State → Result) (s t : State) (x : Issued) (rest : List (Nat × Group)) : Option (Nat × State) :=
  match t.firstOf run rest with
  | (u, some (k, y, _)) => if s.pairs x y then some (k, u) else none
  | _ => none

/-- One cycle of a partition (R192): the first group that can issues one word, with a second group beside it where `pair` asks for it and
R165 lets it; a group that has yielded is eligible again afterwards. The slot that issued last is that of the partner (log 70). -/
noncomputable def State.cycle (run : Instr → State → Result) (c p : Nat) (pair : Bool) (s : State) : State :=
  match s.firstOf run (s.slotOrder c p) with
  | (t, none) => s.unskip t c p
  | (t, some (k, x, rest)) =>
    match if pair then s.partner run t x rest else none with
    | some (j, u) => (s.unskip u c p).updPart c p fun P => { P with last := some j }
    | none => (s.unskip t c p).updPart c p fun P => { P with last := some k }

/-- The next word of a team's sequencer, if it can take it (R345). -/
noncomputable def State.sequence (run : Instr → State → Result) (t : Nat) (s : State) : State :=
  match s.team? t with
  | none => s
  | some T =>
    if T.seqLive ∧ T.pre ≠ .saved ∧ (s.core T.core).up then
      let f := { s with cur := .seq t }.seqFetch t T
      match f.1 with
      | .miss => { f.2 with cur := .none }
      | _ =>
        match run f.1.instr f.2 with
        | .next u => { u with cur := .none }
        | _ => s
    else s

/-! ## Ticks and the world outside -/

/-- The tick by which a blocked path has to be looked at: it goes on within 64 ticks of its satisfaction (R200), and the word of a kind 2
condition is read every 256 ticks (R196). -/
def Block.by_ (b : Block) : List Nat :=
  match b.met with
  | some _ =>
    match b.cond with
    | .wait _ _ _ _ _ => [max b.at_ b.comp + 64]
    | .tag _ _ => [max b.at_ b.comp + 64]
    | .barw _ _ => [b.at_ + 64]
    | .barx _ => [b.at_ + 64]
    | _ => []
  | none =>
    match b.cond with
    | .wait _ cs _ _ _ => cs.filterMap fun x =>
        match x with
        | .mem (some ls) _ _ p => if globVas ls = [] then none else some (p.sent + 256)
        | _ => none
    | _ => []

/-- The ticks by which something has to happen that the manual gives a bound for: copies of a reply (R254), reports and new values of min
(R264), blocked paths (R196, R200), and the straggler timers, whose expiry is the end of its tick (R265). -/
def State.bounds (s : State) : List Nat :=
  s.copies.filterMap (·.by_) ++ s.cvMsgs.filterMap (·.by_) ++
  (s.groups.flatMap fun (_, G) => if s.stopping G.team then [] else G.blk.flatMap Block.by_) ++
  s.dies.flatMap fun (_, D) => D.convoys.filterMap fun (_, v) => v.timer.map (· + 1)

/-- The number of ticks, of some, that can pass before the earliest of the bounds. -/
def State.ticksFree (s : State) (n : Nat) : Nat := s.bounds.foldl (fun n b => min n (b - s.now)) n

/-- Ticks pass, as many as the bounds let (R4, R5, log 1): the cores' cycles go on at their die's clock, and status bits whose writes have
completed are set (R465, R477). -/
def State.pass (s : State) (m : Nat) : State :=
  let n := s.ticksFree m
  let s := { s with now := s.now + n }
  let s := (List.range 4).foldl (fun s d => s.updDie d fun D => { D with cyc := D.cyc + n * D.mhz }) s
  let s := s.colls.foldl (fun s x => if x.2.due.isEmpty then s else s.droDue x.1) s
  s.dies.foldl (fun s x => x.2.assays.foldl (fun s y => if y.2.due.isEmpty then s else s.asyDue x.1 y.1) s) s

/-- Threads that a `brk` has stopped at a PC go on (R424). -/
def State.letGo (s : State) (g : Nat) (pc : Word) : State :=
  s.updGroup g fun G =>
    { G with
      lanes := G.lanes.map fun (l, t) => (l, if t.st = .debug ∧ t.pc = pc then { t with st := .ready } else t)
      hnd := G.hnd.map fun H =>
        if H.trap.seq && !H.ready && H.pc == pc && !(G.blk.any (·.hseq)) && !(s.faults.any fun x => x.2 == .lanes g 0) then
          { H with ready := true } else H }

/-- What comes from outside, and what a part does of its own accord. -/
def State.outside (s : State) : Outside → State
  | .peerReq r => { s with peerIn := s.peerIn ++ [r] }
  | .peerAns a => s.peerAnswer a
  | .dro p => s.droReceive p
  | .chunk c => if c.obj < 256 then { s with chunks := s.chunks ++ [c] } else s
  | .chunkAns t ok => match s.team? t with | some T => if T.seq.chunks = 1 then s.chunkAnswer t ok else s | none => s
  | .asy p => s.asyReceive p
  | .asyAns cmd code => s.asyAnswer cmd code
  | .rates dev die vs => s.takeRates dev die vs
  | .flaw sec err perr merr => s.flip sec err perr merr
  | .staging d o i => s.updAssay d o fun a => { a with slots := a.slots.upd i fun x => { x with bad := true } }
  | .hostNode a v => { s with hostMem := match v with | some x => s.hostMem.put a x | none => s.hostMem.del a }
  | .debugger on => { s with debugger := on }
  | .release_ g pc => s.letGo g pc
  | .image i => { s with image := i }
  | .reach d ok => { s with unreach := if ok then s.unreach.filter (· != d) else d :: s.unreach.filter (· != d) }

/-- A translation is cached ahead of its use, by a core or by a die's engines (R408). -/
def State.learnAhead (s : State) (die : Bool) (n vf va : Nat) : State :=
  let t := s.walk vf va .read s.fresh
  (if die then s.learnDie n t else s.learn n t).draw 1

/-- A sector of code is sent for ahead of its use (R429). -/
def State.codeAhead (s : State) (core vf va : Nat) : State := (s.fetchAt core vf va 1).2

/-! ## What may be due -/

/-- The places of a list. -/
def places {α : Type} (l : List α) : List Nat := List.range l.length

/-- The events of a group that may be due. -/
noncomputable def State.groupEvents (s : State) (g : Nat) (G : Group) : List Instr :=
  (G.pend.map fun p => .resultWriteback g p.id) ++
  (if G.trapQ.isEmpty then [] else [.handlerEntry g]) ++
  (G.blk.flatMap fun b =>
    match b.cond with
    | .wait _ cs _ _ _ =>
      [.waitConditionMet g b.id, .waitTimeout g b.id] ++
      ((cs.zipIdx).filterMap fun (x, k) => if x.poll.sent + 256 ≤ s.now then some (.waitPoll g b.id k) else none)
    | .barw _ _ => [.barrierWaitRelease g b.id]
    | .barx _ => [.barrierWaitRelease g b.id]
    | .tag _ _ => [.tagWaitRelease g b.id]
    | _ => []) ++
  (G.acc.filterMap fun a =>
    match a.kind with
    | .release _ => some (.fenceActionsEnd g a.id)
    | .acquire _ => some (.fenceActionsEnd g a.id)
    | _ => none)

/-- The event of a message between a group and a marshal. -/
noncomputable def CvMsg.event : CvMsg → Instr
  | .joinReq g => .cvjoinRequest g
  | .answer g _ _ => .cvjoinAnswer g
  | .step g _ => .convoyStepReport g
  | .hold g _ => .convoyHoldReport g
  | .min_ g _ _ => .convoyMinUpdate g
  | .leave g _ => .convoyLeaveReport g
  | .out g _ _ => .convoyMinUpdate g

/-- The events of a core that may be due. -/
noncomputable def Core.events (c : Nat) (K : Core) : List Instr :=
  (K.parts.filterMap fun (p, P) => if P.rbq.isEmpty then none else some (.registerBlockGrant c p)) ++
  (K.copies.map fun x => .copyChunkRetire c x.id)

/-- The events of a die that may be due. -/
noncomputable def Die.events (d : Nat) (D : Die) : List Instr :=
  (D.convoys.filterMap fun (k, v) => v.timer.map fun _ => .stragglerTimerExpiry (d * 256 + k)) ++
  (if D.qcmds.isEmpty then [] else [.queueCommandServe d]) ++
  (D.units.flatMap fun (_, U) => U.entries.filterMap fun e => e.data.map fun _ => .spoutReplyMulticast e.id) ++
  (D.chans.flatMap fun (n, C) =>
    if C.q.isEmpty then [] else [.grant (d * 64 + n), .writeArrival (d * 64 + n), .atom (d * 64 + n)]) ++
  [.linkRateExchange d] ++
  (D.assays.flatMap fun (o, _) => [.asyDeadline d o, .asyCorrectionWindowClose d o])

/-- The events of a collective object that may be due. -/
noncomputable def Coll.events (o : Nat) (c : Coll) : List Instr :=
  ((places c.plan).flatMap fun p => [.droNodeDeadline o p, .droCorrectionWindowClose o p]) ++
  (c.corrs.map fun x => .droCorrTimeout o x.id)

/-- The events that may be due, but for those that only the world outside brings about. A flush is none of them: a core makes one when it
chooses (R243, R274). -/
noncomputable def State.events (s : State) : List Instr :=
  (s.groups.flatMap fun (g, G) => s.groupEvents g G) ++
  (s.cvMsgs.map fun m => m.msg.event) ++
  (s.wire.map fun r => .spoutRequestArrival r.id) ++
  (s.copies.map fun k => .l1FillArrival k.id) ++
  (s.dones.map fun d => .writeCompletionReturn d.id) ++
  (s.cores.flatMap fun (c, K) => K.events c) ++
  (s.dies.flatMap fun (d, D) => D.events d) ++
  (s.teams.flatMap fun (t, _) => [.sequencerWaitRelease t, .preemptionTimeout t, .contextSave t, .teamRestore t]) ++
  (s.shoots.map fun x => .shootdownComplete x.id) ++
  ((List.range (s.peerIn.length + s.peerRun.length)).map fun n => .peerAccessArrival n) ++
  (s.txns.filterMap fun (_, x) => match x.who with | .host v sec => some (.hostMemoryAccess (s.image.owners.headD 0) v 0 sec 0) | _ => none) ++
  (s.colls.flatMap fun (o, c) => c.events o) ++
  ((places s.chunks).map fun n => .droChunkArrival n) ++
  ((places s.droIn).flatMap fun n => [.droPartialArrival n, .droResultArrival n, .droCorrectionArrival n, .droVerdictArrival n]) ++
  ((places s.asyIn).flatMap fun n => [.asyBeginMarker n, .asyDataPacket n, .asyEndMarker n]) ++
  (s.launches.flatMap fun (l, _) => [.launchDeadline l, .backfillTimeout l]) ++
  (s.vfs.flatMap fun (v, _) => [.completionRecordWrite v, .faultRecordWrite v]) ++
  (s.rowCorr.map fun (k, _) => .hbmRowRemap (k / 2 ^ 32) (k % 2 ^ 32)) ++
  [.launchAccept, .teamPlacement]

/-! ## The schedule and the step -/

/-- Is an outcome a next state? -/
def isNext : Result → Bool
  | .next _ => true
  | _ => false

/-- The choices that the model makes where none are given (log 1): the first event that is due; if there is none, a step of every access, every copy,
every command, every object's writes, a cycle of every partition with a group, the next word of every sequencer, and a tick. -/
noncomputable def State.round (run : Instr → State → Result) (s : State) : List Choice :=
  match s.events.find? fun i => isNext (run i s) with
  | some i => [.ev i]
  | none =>
    (s.groups.flatMap fun (g, G) => G.acc.map fun a => .perform g a.id) ++
    (s.cores.flatMap fun (c, K) => K.copies.map fun x => .copy c x.id) ++
    ((places s.peerAcks).map .peerAck) ++
    (s.dies.flatMap fun (d, D) => D.xcmds.map fun x => .command d x.id) ++
    (s.colls.filterMap fun (o, c) => if c.jobs.isEmpty then none else some (.writes false 0 o)) ++
    (s.dies.flatMap fun (d, D) => D.assays.filterMap fun (o, a) => if a.jobs.isEmpty then none else some (.writes true d o)) ++
    ((distinct [] (s.groups.map fun (_, G) => G.core * 16 + G.part)).map fun k => .issue (k / 16) (k % 16) true) ++
    (s.teams.map fun (t, _) => .seq t) ++
    [.tick 1]

/-- One choice is carried out. -/
noncomputable def State.choose (run : Instr → State → Result) (c : Choice) (s : State) : Result :=
  match c with
  | .ev i => run i s
  | .issue core part pair => .next (s.cycle run core part pair)
  | .seq t => .next (s.sequence run t)
  | .perform g id => .next (s.perform g id)
  | .part g id lane byte => .next (s.performPart g id lane byte)
  | .copy core id => .next (s.copyStep core id)
  | .command d id => .next (s.command d id)
  | .writes asy d o => .next (s.writes asy d o)
  | .tick n => .next (s.pass n)
  | .peerAck n => .next (s.peerAckNext n)
  | .prefetch die n vf va => .next (s.learnAhead die n vf va)
  | .codeAhead core vf va => .next (s.codeAhead core vf va)
  | .wordAhead g va => .next (s.wordAhead g va)
  | .seqAhead t va => .next (s.seqAhead t va)
  | .outside o => .next (s.outside o)

/-- One step: the oldest choice of the schedule is carried out; an empty schedule is filled first. -/
noncomputable def State.stepWith (run : Instr → State → Result) (s0 : State) : Result :=
  let s := { s0 with cur := .none }
  match s.agenda with
  | c :: rest => State.choose run c { s with agenda := rest }
  | [] =>
    match s.round run with
    | c :: rest => State.choose run c { s with agenda := rest }
    | [] => .next (s.pass 1)

/-! ## Placing one word (log 42) -/

/-- The launch of a single team of one group whose code is one sector at virtual address 0x10000, its stream that same sector. -/
def oneLaunch (mx : Bool) : LaunchRec :=
  { lid := 1, prio := 0, svc := 0, ndep := 0, resx := false, deps := [], budget := 0, gx := 1, gy := 1, gz := 1, teamg := 0
    clw := 1, clh := 1, tagn := 0, ns := 0, rgen := 0, rcpy := 0, repi := 0, xgen := 0, xcpy := 0, xepi := 0, spadsz := 0, obufsz := 0
    codeb := 0x10000, codel := 64, entry := 0, msoff := 0, mslen := if mx then 16 else 0, preb := 0, recb := 0, rmask := 0
    obj := 0, tmask := 0, ctype := 0, ch0 := 0, ddev := 0, ddv := false }

/-- The team of that launch: it has started, with its sequencer running where the word is of the matrix stream. -/
def oneTeam (mx : Bool) (l g : Nat) : Team :=
  { launch := l, x := 0, vf := 0, core := 0, groups := [g], spadB := 0, spadN := 256, obufB := 0, obufN := 0, tagB := 0, tagN := 0
    part0 := 0, cluster := 0, rank := 0, resv := [], drt := 0
    seq := { Seq.init with run := if mx then 1 else 0 }, recs0 := none, pre := .none, seqStop := false, started := true, fid := none
    order := 0, room := false, svSpad := [], svObuf := [], svTags := 0, svTerr := 0, svTime := [], answers := [] }

/-- Bytes of device memory written as a function's loader writes them: the sector has its key (R510). -/
def State.load_ (s : State) (key pa : Nat) (bs : List Byte) : State :=
  { s with mem := memPuts s.mem pa bs, side := s.side.put (pa / 64) (Side.clean key) }

/-- The device with one team of one group, all lanes Ready at a code segment that begins with a word: function 0 enabled, a table that
maps the first GiB onto itself, and the schedule's next choice the issue of that group, or the next word of its sequencer. -/
def State.placeWord (s : State) (w : Nat) : State :=
  let mx := w / 2 ^ 27 % 16 == 13
  let key := s.gens
  let l := s.uid
  let t := s.uid + 1
  let g := s.uid + 2
  let L : Launch :=
    { vf := 0, r := oneLaunch mx, st := .running, dl := none, late := false, next := 1, saved := [], since := s.now, noBack := false
      ended := 0, wait := [], ran := some s.now }
  let T := oneTeam mx l g
  let G : Group := (newGroup 0 0 0 t 0 0).begin_ L.r T 0 [] []
  let s := (s.updVf 0 fun v => { v with root := 0x1000, key := 1, en := true, gen := key }).updCore 0 fun c =>
    { c with
      up := true
      icache := [⟨0, (s.vf 0).asid, 0x10000 / 64, secOf (wordBytes w ++ List.replicate (64 - (wordBytes w).length) 0)⟩]
      cfills := []
      tlb := []
      parts := c.parts.put 0 Part.init }
  let s := { s with
    boot := .up
    cur := .none
    gens := key + 1
    uid := s.uid + 3
    launches := [(l, L)]
    teams := [(t, T)]
    groups := [(g, G)]
    agenda := [if mx then .seq t else .issue 0 0 false] }.startBars T (if mx then 2 else 1)
  ((s.load_ key 0x1000 (leBytes 8 0x2001)).load_ key 0x2000 (leBytes 8 15)).load_ key 0x10000 (wordBytes w)

end Sys2Proof.Machine
end

