-- ==== Sys2Proof/Machine/Step.lean ====
section
/-! DEFINITION. One step of the machine, and the placing of an instruction where the next step fetches it. -/

namespace Sys2Proof.Machine

/-- One step of the device (log 1). -/
noncomputable def step (s : State) : Host.Outcome State Fault Refusal := s.stepWith exec

/-- A state in which the next step fetches and runs the instruction whose bits are `w` (log 42). -/
def State.withFetchWord (s : State) (_nbits w : Nat) : State := s.placeWord w

end Sys2Proof.Machine
end

