-- ==== Sys2Proof/Safety.lean ====
section
/-! DEFINITION. The words in which statements about the machine are made: what a safe state is, when an instruction issues, and
what it leaves behind, for the shapes that most instructions share. -/

namespace Sys2Proof.Machine

/-! ## Safe states and safe steps -/

/-- The canonical form of a byte memory: addresses strictly rising, and no entry that an unlisted byte reads as (log 8). -/
def Memory.wf (m : List Host.Cell) : Bool := SMap.wf m && m.all fun x => x.2 != 0

/-- What every step keeps: device memory is in its canonical form. -/
def State.Inv (s : State) : Prop := Memory.wf s.mem = true

/-- A step is safe when it ends in a next state. -/
def State.SafeStep (s : State) : Prop := ∃ t, step s = .next t

/-! ## When an instruction issues (R20, R24, R26, R33, R58) -/

/-- A path as an instruction that waits sees it: its windows are closed (R25). -/
def Ctx.ready (c : Ctx) (i : Info) : Ctx :=
  let c := if i.w then c.waited else c
  if i.blocking then c.waited else c

/-- The state in which that instruction takes its effect. -/
def State.ready (s : State) (i : Info) (c : Ctx) : State :=
  let s' := if i.w then s.waited c else s
  if i.blocking then s'.waited (if i.w then c.waited else c) else s'

/-- A path is there, and an instruction that asks for `i` takes its effect on it now: its threads have recorded the same hints (where they
have not, each class of them issues so, `SplitPaths`); where it waits, no result of its threads is out
and no error has come late (R20, R26, R33); every check of R58 passes (`Info.check`); a result of variable latency has room (R20).
`c` is the path and `t` the state as the effect finds them. -/
def Issues (i : Info) (s : State) (c : Ctx) (t : State) : Prop :=
  ∃ c0, s.context? = some c0 ∧ c0.alike = true ∧
    (i.w = true ∨ i.blocking = true → c0.G.waits c0.mask = false ∧ c0.G.late c0.mask = false) ∧
    i.check (if i.w then c0.waited else c0) (if i.w then s.waited c0 else s) = none ∧
    (i.var = true → c0.G.full c0.mask = false) ∧
    c = c0.ready i ∧ t = s.ready i c0

/-- A path is there, and a hint word takes its effect on it now: with W it has waited (R20, R28, R30). -/
def IssuesWord (w : Bool) (s : State) (c : Ctx) (t : State) : Prop :=
  ∃ c0, s.context? = some c0 ∧ (w = true → c0.G.waits c0.mask = false ∧ c0.G.late c0.mask = false) ∧
    c = (if w then c0.waited else c0) ∧ t = (if w then s.waited c0 else s)

/-- A team's sequencer is there to take the word `i` (R345). -/
def Sequences (s : State) (n : Nat) (T : Team) : Prop :=
  s.cur = .seq n ∧ s.team? n = some T ∧ T.seqLive = true

/-- Lane `l` is a lane of the path. -/
def Ctx.has (c : Ctx) (l : Nat) : Bool := c.mask.getLsbD l

/-! ## What an instruction leaves behind -/

/-- A thread that has gone on to an address, its hints gone (R20, R28). -/
def Thread.at_ (t : Thread) (pc : Word) : Thread := { t with pc := pc, hints := Hints.clear }

/-- The handler of a group once its path without lanes (R396) has gone on to an address; any other path leaves it alone. -/
def Ctx.handlerAt (c : Ctx) (pc : Word → Word) : Option Handler :=
  if c.mask = 0 then c.G.hnd.map fun H => { H with pc := pc H.pc, hints := Hints.clear } else c.G.hnd

/-- A window but for the marks that later writes leave in it (R25). -/
def Window.bare (w : Window) : Window := { w with hit := [] }

/-- May the result of an open window stand over a write to a thread register (R25)? -/
def Ctx.keepsV (c : Ctx) (l r : Nat) : Bool := windowKeeps c.G.wins true (laneBit l) l r c.n

/-- May the result of an open window stand over a write to a uniform register (R25)? -/
def Ctx.keepsS (c : Ctx) (r : Nat) : Bool := windowKeeps c.G.wins false c.mask 0 r c.n

/-- The machine is as it was but for one group and the free values that are used up. -/
def OneGroup (c : Ctx) (s t : State) (G : Group) : Prop :=
  t = { s with
    groups := SMap.put s.groups c.g G
    fresh := s.fresh + 1 }

/-- Each lane of the path has become what `f` says, and every other lane is as it was. -/
def Lanes (c : Ctx) (G : Group) (f : Nat → Thread → Thread) : Prop :=
  ∀ l, G.lane l = if c.has l then f l (c.G.lane l) else c.G.lane l

/-- Register `d` of each lane of the path takes the word that `f` gives it, the flags with it are set in TSR, and the path goes on;
nothing else in the machine changes (R20, R28, R32, R96). Over a result that was written in an open window the old value may stand
(R25). -/
def WritesV (c : Ctx) (s : State) (d : Nat) (f : Nat → Word × Word) (r : Result) : Prop :=
  ∃ t G, r = .next t ∧ OneGroup c s t G ∧
    G = { c.G with
      lanes := G.lanes
      wins := G.wins
      hnd := c.handlerAt (· + 4) } ∧
    G.wins.map Window.bare = c.G.wins.map Window.bare ∧
    Lanes c G (fun l x => { x.at_ (x.pc + 4) with
      v := (G.lane l).v
      tsr := x.tsr ||| (f l).2 }) ∧
    ∀ l, c.has l = true → ∀ k, (G.lane l).v.get k 0 =
      if k = d ∧ c.keepsV l d = false then (f l).1 else (c.G.lane l).v.get k 0

/-- A pair of registers from `d` takes a 64-bit value in each lane of the path, low word first (R77), and the path goes on. -/
def WritesV2 (c : Ctx) (s : State) (d : Nat) (f : Nat → DWord) (r : Result) : Prop :=
  ∃ t G, r = .next t ∧ OneGroup c s t G ∧
    G = { c.G with
      lanes := G.lanes
      wins := G.wins
      hnd := c.handlerAt (· + 4) } ∧
    G.wins.map Window.bare = c.G.wins.map Window.bare ∧
    Lanes c G (fun l x => { x.at_ (x.pc + 4) with v := (G.lane l).v }) ∧
    ∀ l, c.has l = true → ∀ k, (G.lane l).v.get k 0 =
      if k = d ∧ c.keepsV l d = false then (f l).setWidth 32
      else if k = d + 1 ∧ c.keepsV l (d + 1) = false then (f l).extractLsb' 32 32
      else (c.G.lane l).v.get k 0

/-- Uniform registers from `d` take the words of a list, and the path goes on (R109). -/
def WritesS (c : Ctx) (s : State) (d : Nat) (xs : List Word) (r : Result) : Prop :=
  ∃ t G, r = .next t ∧ OneGroup c s t G ∧
    G = { c.G with
      lanes := G.lanes
      s := G.s
      wins := G.wins
      hnd := c.handlerAt (· + 4) } ∧
    G.wins.map Window.bare = c.G.wins.map Window.bare ∧
    Lanes c G (fun _ x => x.at_ (x.pc + 4)) ∧
    ∀ k, G.s.get k 0 = if d ≤ k ∧ k < d + xs.length ∧ c.keepsS k = false then xs.getD (k - d) 0 else c.G.s.get k 0

/-- A predicate of each lane of the path takes a value, its flags are set in TSR, and the path goes on (R105, R107). -/
def WritesP (c : Ctx) (s : State) (p : Nat) (f : Nat → Bool × Word) (r : Result) : Prop :=
  ∃ t G, r = .next t ∧ OneGroup c s t G ∧
    G = { c.G with
      lanes := G.lanes
      hnd := c.handlerAt (· + 4) } ∧
    Lanes c G (fun l x => { x.at_ (x.pc + 4) with
      p := setBit8 x.p p (f l).1
      tsr := x.tsr ||| (f l).2 })

/-- A uniform predicate takes a value, the flags are set in the TSR of every lane of the path, and the path goes on (R107). -/
def WritesQ (c : Ctx) (s : State) (q : Nat) (x : Bool) (fl : Word) (r : Result) : Prop :=
  ∃ t G, r = .next t ∧ OneGroup c s t G ∧
    G = { c.G with
      lanes := G.lanes
      q := setBit8 c.G.q q x
      hnd := c.handlerAt (· + 4) } ∧
    Lanes c G (fun _ y => { y.at_ (y.pc + 4) with tsr := y.tsr ||| fl })

/-- The lanes of the path go to addresses of their own, and nothing else changes (R114). -/
def GoesTo (c : Ctx) (s : State) (f : Nat → Thread → Word) (r : Result) : Prop :=
  ∃ t G, r = .next t ∧ OneGroup c s t G ∧
    G = { c.G with
      lanes := G.lanes
      hnd := c.handlerAt fun pc => f 0 { Thread.init with pc := pc } } ∧
    Lanes c G (fun l x => x.at_ (f l x))

/-- Each lane of the path has become what `f` says, the path goes on, and nothing else changes. -/
def Lanewise (c : Ctx) (s : State) (f : Nat → Thread → Thread) (r : Result) : Prop :=
  ∃ t G, r = .next t ∧ OneGroup c s t G ∧
    G = { c.G with
      lanes := G.lanes
      hnd := c.handlerAt (· + 4) } ∧
    Lanes c G f

/-- The path has moved past a hint word, and its recorded hints have become what `f` says (R28). -/
def Hinted (c : Ctx) (s : State) (f : Hints → Hints) (r : Result) : Prop :=
  ∃ t G, r = .next t ∧ OneGroup c s t G ∧
    G = { c.G with
      lanes := G.lanes
      hnd := if c.mask = 0 then c.G.hnd.map fun H => { H with
        pc := H.pc + 4
        hints := f H.hints } else c.G.hnd } ∧
    Lanes c G fun _ x => { x with
      pc := x.pc + 4
      hints := f x.hints }

/-- The group's own registers become those of `G'`, whose lanes and handler are still those of before, and the path goes on. -/
def Changes (c : Ctx) (s : State) (G' : Group) (r : Result) : Prop :=
  ∃ t G, r = .next t ∧ OneGroup c s t G ∧
    G = { G' with
      lanes := G.lanes
      hnd := c.handlerAt (· + 4) } ∧
    Lanes c G (fun _ x => x.at_ (x.pc + 4))

/-- A result of variable latency is out (R20, R24): it stands last among the pending results, with its values where they are known or
with the counter that it samples; its window is open (R25), and the path goes on; no register has changed yet. -/
def StartsAs (c : Ctx) (s : State) (d : Dst) (vals : Option (List LaneVal)) (ctr : Option Nat) (r : Result) : Prop :=
  ∃ t G w, r = .next t ∧
    t = { s with
      groups := SMap.put s.groups c.g G
      uid := s.uid + 1
      fresh := s.fresh + 1 } ∧
    G = { c.G with
      lanes := G.lanes
      pend := c.G.pend ++ [⟨s.uid, c.mask, c.first, d, vals, ctr⟩]
      wins := w :: c.G.wins
      hnd := c.handlerAt (· + 4) } ∧
    w.id = s.uid ∧ w.mask = c.mask ∧ w.dst = d ∧ w.written = false ∧ w.hit = [] ∧
    Lanes c G (fun _ x => x.at_ (x.pc + 4))

/-- The same with values that are known at issue. -/
def Starts (c : Ctx) (s : State) (d : Dst) (vals : List LaneVal) (r : Result) : Prop := StartsAs c s d (some vals) none r

/-- A result in one thread register for each lane of the path (R24). -/
def StartsV (c : Ctx) (s : State) (d : Nat) (f : Nat → Word × Word) (r : Result) : Prop :=
  Starts c s (.v d 1) ((lanesOf c.mask).map fun l => ⟨l, [(f l).1], (f l).2, false⟩) r

/-! ## Blocked paths -/

/-- A blocked path but for whether it is satisfied (R196). -/
def Block.bare (b : Block) : Block := { b with
  met := none
  at_ := 0
  comp := 0
  terr := false }

/-- What an evaluation instant that satisfies a blocked path leaves in it (R196, R284, R320): the word, the tick, the largest completion time
that it reports, and whether it saw a tag with TERR set. -/
structure Hit where
  word : Word
  comp : Nat := 0
  terr : Bool := false

/-- A blocked path that has just been blocked at tick `now`: an instant of that tick has satisfied it, or none has. -/
def Block.fresh (b : Block) (now : Nat) : Option Hit → Block
  | none => { b with
      met := none
      at_ := now
      comp := 0
      terr := false }
  | some h => { b with
      met := some h.word
      at_ := now
      comp := h.comp
      terr := h.terr }

/-- A group of which nothing has changed but whether its blocked paths are satisfied: an evaluation instant has passed (R196). -/
def Looked (G H : Group) : Prop :=
  H = { G with blk := H.blk } ∧ H.blk.map Block.bare = G.blk.map Block.bare

/-- The path has stopped at its instruction and waits for `k` (R156): its lanes are Blocked, their hints gone, and the block stands last
among the group's; `met` tells whether it is satisfied already. Nothing else has changed, but that an evaluation instant may have
passed (R196). -/
def Blocks (c : Ctx) (s : State) (k : Cond) (met : Option Hit) (r : Result) : Prop :=
  ∃ t G bs b, r = .next t ∧
    t = { s with
      groups := t.groups
      uid := s.uid + 1
      fresh := s.fresh + 1 } ∧
    t.group? c.g = some G ∧
    (∀ g H, g ≠ c.g → s.group? g = some H → ∃ H', t.group? g = some H' ∧ Looked H H') ∧
    G = { c.G with
      lanes := G.lanes
      blk := bs ++ [b]
      hnd := if c.mask = 0 then c.G.hnd.map fun H => { H with
        ready := false
        hints := Hints.clear } else c.G.hnd } ∧
    bs.map Block.bare = c.G.blk.map Block.bare ∧
    b = Block.fresh ⟨s.uid, c.mask, c.pc, c.first, k, none, s.now, 0, false, c.mask == 0⟩ s.now met ∧
    Lanes c G fun _ x => { x with
      st := .blocked s.uid
      hints := Hints.clear }

/-- Evaluation instants have passed (R196): nothing has changed but whether blocked paths are satisfied. -/
def Woken (s u : State) : Prop :=
  u = { s with groups := u.groups } ∧ ∀ g G, s.group? g = some G → ∃ H, u.group? g = some H ∧ Looked G H

/-- A path has arrived with a count at a barrier of team `t` (R199): PEND falls by the count, or, where it would come to 0 or below,
PHASE inverts and PEND is EXP again; whether blocked paths are satisfied may have changed, and nothing else, but that a completion settles
what the matrix unit may see of the team's operand range (R348). -/
def Arrives (s u : State) (t b n : Nat) : Prop :=
  u = { s with
    groups := u.groups
    cores := u.cores } ∧
  (∀ g G, s.group? g = some G → ∃ H, u.group? g = some H ∧ Looked G H) ∧
  ∀ T, s.team? t = some T →
    let B := s.bar T b
    u.cores = if n = 0 then s.cores
      else if B.pend ≤ n then ((s.setBar T b ⟨B.exp, !B.phase, B.exp⟩).settleObuf T).cores
      else (s.setBar T b { B with pend := B.pend - n }).cores

/-- A message from a marshal to a group, sent now: the tick by which it arrives, if there is one, and the dies between which it goes
(R264, R439). -/
def State.mailTo (s : State) (g cv : Nat) (within : Option Nat) (m : CvMsg) : CvMail where
  msg := m
  by_ := within.map (s.now + ·)
  src := cv / 256
  dst := match s.group? g with | some G => dieOf G.core | none => cv / 256

/-- A message from a group to a marshal, sent now. -/
def State.mailFrom (s : State) (G : Group) (cv : Nat) (within : Option Nat) (m : CvMsg) : CvMail where
  msg := m
  by_ := within.map (s.now + ·)
  src := dieOf G.core
  dst := cv / 256

/-- A convoy has become `v`, its min having been `old` (R263 to R266): it is gone where no member and no empty slot is left; where its min
has risen the new one is on its way to every attached member, none that the hold test lets go counts as held, and the timer runs only
if another is held; waits on it have been looked at. -/
def Settles (s : State) (cv : Nat) (old : Option Nat) (v : Convoy) (u : State) : Prop :=
  match v.min? with
  | none => Woken (s.updDie (cv / 256) fun D => { D with convoys := D.convoys.del (cv % 256) }) u
  | some m =>
    if old.getD m < m then
      let w : Convoy := { v with
        timer := none
        mem := v.mem.map fun x => if x.pos < m + v.slip then { x with held := false } else x }
      let w := if w.anyHeld m then w.arm s.now else w
      Woken { s.putConvoy cv w with cvMsgs := s.cvMsgs ++ (w.mem.filter (·.att)).map fun x => s.mailTo x.guid cv (some 128) (.min_ x.guid cv m) } u
    else Woken (s.putConvoy cv v) u

/-- A thread that has arrived at rejoin mask `n` goes on past its `join` (R161). -/
def Thread.passes (t : Thread) (n : Nat) : Thread :=
  match t.st with
  | .join k pc => if k = n then { t with
      st := .ready
      pc := pc + 4 } else t
  | _ => t

/-- Have all the threads that a rejoin mask names arrived (R161)? -/
def rejoined (m a : Word) : Bool := m &&& ~~~a == 0 && a != 0

/-- Rejoin mask `n` has become `m`, with the arrivals `a`; where all have arrived they go on (R161, R163), and so does the path. -/
def Rejoins (c : Ctx) (s : State) (n : Nat) (m a : Word) (r : Result) : Prop :=
  ∃ t G, r = .next t ∧ OneGroup c s t G ∧
    G = { c.G with
      lanes := G.lanes
      hnd := c.handlerAt (· + 4)
      j := SMap.put c.G.j n m
      arr := if rejoined m a then SMap.put c.G.arr n 0 else c.G.arr } ∧
    ∀ l, G.lane l = if c.has l then (c.G.lane l).at_ ((c.G.lane l).pc + 4)
      else if rejoined m a ∧ a.getLsbD l then (c.G.lane l).passes n else c.G.lane l

/-- Threads of the path are parked on a trap that waits for the handler (R385, R386, R388); nothing else has changed. -/
def Parks (c : Ctx) (s : State) (e : TrapEntry) (n : Nat) (r : Result) : Prop :=
  ∃ t G, r = .next t ∧
    t = { s with
      groups := SMap.put s.groups c.g G
      fresh := s.fresh + n } ∧
    G = { c.G with
      lanes := G.lanes
      trapQ := c.G.trapQ ++ [e] } ∧
    ∀ l, G.lane l = if e.mask.getLsbD l then { c.G.lane l with
      st := .trapped
      pc := e.pc
      hints := Hints.clear } else c.G.lane l

/-- The blocked path `b` of group `g`, which is `G`, goes on (R156): behind its instruction, or, with `again`, at its instruction and its
hints once more; the lanes of a store that were out of bounds are flagged (R123); nothing else changes. -/
def Resumes (g : Nat) (s : State) (G : Group) (b : Block) (again : Bool) (r : Result) : Prop :=
  let pc := if again then b.first else b.pc + 4
  ∃ t H, r = .next t ∧
    t = { s with groups := SMap.put s.groups g H } ∧
    H = { G with
      lanes := H.lanes
      blk := G.blk.filter (·.id != b.id)
      hnd := if b.hseq then G.hnd.map fun K => { K with
        ready := true
        pc := pc } else G.hnd } ∧
    ∀ l, H.lane l =
      let x := if b.cond.oob.getLsbD l = true then (G.lane l).flag flagOOB else G.lane l
      if b.hseq = false ∧ b.mask.getLsbD l = true ∧ (G.lane l).st = .blocked b.id then { x with
        st := .ready
        pc := pc } else x

/-- A result of a blocked path is out with word `m` and flags `fl` for a uniform register (R24, R26, R196): the group, and the state with it. -/
def Group.returned (G : Group) (s : State) (b : Block) (sd : Nat) (m fl : Word) : Group :=
  G.start s.uid b.mask b.first (.s sd 1) (some [⟨0, [m], fl, false⟩])
/-- The state with it. -/
def State.returned (s : State) (g : Nat) (G : Group) (b : Block) (sd : Nat) (m fl : Word) : State :=
  { s with
    groups := SMap.put s.groups g (G.returned s b sd m fl)
    uid := s.uid + 1 }

/-- The word of condition `k` of the blocked path `b` of group `g` is sent for in the sectors `secs` (R195, R196, R248): each gets a request
of the wait's class; the condition keeps the sectors and the tick; beside it only what walks leave has changed. -/
def PollSent (g : Nat) (s : State) (G : Group) (b : Block) (k : Nat) (p : Poll) (secs : List Nat) (r : Result) : Prop :=
  ∃ t H, r = .next t ∧
    t = { s with
      groups := SMap.put s.groups g H
      cores := t.cores
      dies := t.dies
      side := t.side
      rowCorr := t.rowCorr
      wire := t.wire
      uid := t.uid
      fresh := t.fresh } ∧
    H = { G with blk := if secs = [] then G.blk else G.blk.map fun x =>
      if x.id = b.id then x.updPoll k fun _ p => { p with
        sent := s.now
        secs := secs } else x } ∧
    ∀ q ∈ secs, ∃ x ∈ t.wire, x.src = .wait g b.id k p.ser ∧ x.kind = .wait ∧ x.psec = q ∧ x.vf = G.vf ∧ x.cls = p.cls

/-- Group `G` has entered the handler for the trap `e`, the traps `rest` still waiting (R388, R389): the frame of each of its threads is
saved, with S1016 to S1023, Q, B14 and B15; they stand Ready in the handler path at the function's handler entry. -/
def HandlerStarts (s : State) (G : Group) (e : TrapEntry) (rest : List TrapEntry) (H : Group) : Prop :=
  H = { G with
    lanes := H.lanes
    wins := H.wins
    trapQ := rest
    hnd := some {
      trap := e
      lanes := (lanesOf e.mask).map fun l => {
        lane := l
        v := (List.range 8).map fun i => (G.lane l).v.get i 0
        p := (G.lane l).p
        lk := (G.lane l).lk
        tsr := (G.lane l).tsr
        pc := (G.lane l).pc }
      s := (List.range 8).map fun i => G.s.get (1016 + i) 0
      q := G.q
      b14 := G.b.get 14 0
      b15 := G.b.get 15 0
      repl := []
      code := segMake (s.vf G.vf).hcb ((s.vf G.vf).hcl - 1) true
      pc := BitVec.ofNat 32 (s.vf G.vf).hent
      hints := Hints.clear
      ready := true
      halt := false } } ∧
  ∀ l, H.lane l = if e.mask.getLsbD l = true then { G.lane l with
    st := .ready
    hnd := true
    pc := BitVec.ofNat 32 (s.vf G.vf).hent
    hints := Hints.clear } else G.lane l

/-- The trap of a late error of threads parked on the trap `e` (R33, R400): it is delivered at the wait that the entry makes, in front of
what they are parked at. -/
def TrapEntry.late (e : TrapEntry) (x : LateErr) : TrapEntry := ⟨x.mask, e.pc, x.fpc, e.pc, causeWord 6 x.detail 0, false⟩

/-- The threads of the blocked path `b` are parked in front of their instruction on a trap at a wait, whose skip PC is the parked PC (R33,
R320, R391, R400). -/
def ParksBlocked (g : Nat) (s : State) (G : Group) (b : Block) (cls detail : Nat) (r : Result) : Prop :=
  ∃ t H, r = .next t ∧
    t = { s with groups := SMap.put s.groups g H } ∧
    H = { G with
      lanes := H.lanes
      blk := G.blk.filter (·.id != b.id)
      trapQ := G.trapQ ++ [⟨b.mask, b.first, b.first, b.first, causeWord cls detail 0, false⟩] } ∧
    ∀ l, H.lane l = if b.mask.getLsbD l = true then { G.lane l with
      st := .trapped
      pc := b.first
      hints := Hints.clear } else G.lane l

/-- A blocked path of group `g` by its identifier, of a group whose function has a handler, and which is no handler path. -/
def State.Blocked (s : State) (g id : Nat) (G : Group) (b : Block) : Prop :=
  s.group? g = some G ∧ G.blk.find? (·.id == id) = some b

/-- Has the group of a blocked path a handler to take its trap, the path being no handler path (R386, R392)? -/
def State.Trappable (s : State) (G : Group) (b : Block) : Prop :=
  (s.vf G.vf).hcl ≠ 0 ∧ b.hseq = false ∧ ∀ l, b.mask.getLsbD l = true → (G.lane l).hnd = false

/-- The answer to a peer access goes back to its asker (R444). -/
def State.peerReplied (s : State) (r : PeerReq) (a : PeerAns) : State :=
  if r.from_ = s.devId then s.peerAnswer a else { s with ansOut := s.ansOut ++ [a] }

/-! ## The matrix stream (R345, R349) -/

/-- The sequencer of team `n`, which is `T`, has executed its word and goes on to the next one; its unit is as `f` says, and nothing
else has changed (R345). -/
def SeqGoes (n : Nat) (s : State) (T : Team) (f : Seq → Seq) (r : Result) : Prop :=
  ∃ t, r = .next t ∧ t = { s with
    teams := SMap.put s.teams n { T with
      seq := { f T.seq with mpc := T.seq.mpc + 4 } } }

/-- The sequencer of team `n` has stopped in front of its word with a fault of detail `d` (R349, R396): SFLT is set, and the trap
waits in group `g`, the lowest-numbered one of the team that has not ended. -/
def SeqFaults (n : Nat) (s : State) (T : Team) (g : Nat) (G : Group) (d info : Nat) (r : Result) : Prop :=
  ∃ t, r = .next t ∧ t = { s with
    teams := SMap.put s.teams n { T with
      seq := { T.seq with
        sflt := true
        wait := none } }
    groups := SMap.put s.groups g { G with
      trapQ := G.trapQ ++ [⟨0, 0, T.seq.mpc, 0, causeWord 7 d info, true⟩] } }

/-- Group `g` is the lowest-numbered one of a team that has not ended, and its function has a handler. -/
def State.Handles (s : State) (T : Team) (g : Nat) (G : Group) : Prop :=
  s.firstGroup T = some g ∧ s.group? g = some G ∧ (s.vf G.vf).hcl ≠ 0

/-! ## The end of a handler (R390, R427) -/

/-- Has every thread of the handler path executed `tret` or `exit` (R427)? -/
def Handler.finished (H : Handler) (G : Group) : Bool :=
  !H.trap.seq && H.lanes.all fun f => decide ((G.lane f.lane).st = .tretWait ∨ (G.lane f.lane).st = .exited)

/-- A thread `x` that has come back from the handler as `y`: P and LK are those of the frame `f`, TSR is the OR of both, V0 to V7 are
the frame's, the replacement of `trep` stands over them and makes the thread go on behind the failing instruction (R390, R426, R427). -/
def Restores (H : Handler) (f : LaneFrame) (x y : Thread) : Prop :=
  let old := fun k => if k < f.v.length then f.v.getD k 0 else x.v.get k 0
  y = { x with
    v := y.v
    p := f.p
    lk := f.lk
    tsr := x.tsr ||| f.tsr
    pc := match H.repl.find? f.lane with | some _ => H.trap.skip | none => f.pc
    st := .ready
    hnd := false
    hints := Hints.clear } ∧
  ∀ k, y.v.get k 0 = match H.repl.find? f.lane with | some (r, z) => if k = r then z else old k | none => old k

/-- A handler has ended (R427): S1016 to S1023, Q, B14 and B15 are those of its frame, no handler is there, and the threads that have
executed `tret` have come back; one for which another trap waits stays parked for it (R388). -/
def HandlerEnds (H : Handler) (G0 G : Group) : Prop :=
  G = { G0 with
    lanes := G.lanes
    s := G.s
    q := H.q
    b := (G0.b.put 14 H.b14).put 15 H.b15
    hnd := none } ∧
  (∀ k, G.s.get k 0 = if 1016 ≤ k ∧ k < 1016 + H.s.length then H.s.getD (k - 1016) 0 else G0.s.get k 0) ∧
  ∀ l, match H.lanes.find? (·.lane == l) with
    | some f => if (G0.lane l).st = .tretWait then
        ∃ y, Restores H f (G0.lane l) y ∧
          G.lane l = if G0.trapQ.any fun e => e.mask.getLsbD l then { y with st := .trapped } else y
      else G.lane l = G0.lane l
    | none => G.lane l = G0.lane l

/-- Threads of a mask have exited (R162, R223): they have left every rejoin mask, and threads that wait at a `join` whose mask has
now arrived in full go on. -/
def Exits (m : Word) (G0 G : Group) : Prop :=
  G = { G0 with
    lanes := G.lanes
    j := G.j
    arr := G.arr } ∧
  (∀ n, G.j.get n 0 = G0.j.get n 0 &&& ~~~m) ∧
  ∀ l, G.lane l =
    if m.getLsbD l then { G0.lane l with
      st := .exited
      hnd := false }
    else match (G0.lane l).st with
      | .join n _ =>
        let a := G0.arr.get n 0 &&& ~~~m
        if n < 8 ∧ rejoined (G0.j.get n 0 &&& ~~~m) a = true ∧ a.getLsbD l = true then (G0.lane l).passes n else G0.lane l
      | _ => G0.lane l

/-! ## The access order (R274, R275) -/

/-- A path with entries added to the access order. -/
def Ctx.adds (c : Ctx) (as : List Acc) : Ctx := { c with G := { c.G with acc := c.G.acc ++ as } }
/-- The state with them. -/
def State.adds (s : State) (c : Ctx) (as : List Acc) : State :=
  { s with
    groups := SMap.put s.groups c.g (c.adds as).G
    uid := s.uid + as.length }

/-- An entry of a kind stands last in the group's access order, and the path goes on; nothing else has changed. -/
def Enters (c : Ctx) (s : State) (k : AccKind) (acq : Nat) (r : Result) : Prop :=
  ∃ t G, r = .next t ∧
    t = { s with
      groups := SMap.put s.groups c.g G
      uid := s.uid + 1
      fresh := s.fresh + 1 } ∧
    G = { c.G with
      lanes := G.lanes
      acc := c.G.acc ++ [{ fenceAcc s.uid c k with acq := acq }]
      hnd := c.handlerAt (· + 4) } ∧
    Lanes c G fun _ x => x.at_ (x.pc + 4)

/-- A path that has started a result of variable latency whose value is not known yet (R24). -/
def Ctx.starts (c : Ctx) (s : State) (d : Dst) : Ctx := { c with G := c.G.start s.uid c.mask c.first d none }
/-- The state with it. -/
def State.starts (s : State) (c : Ctx) (d : Dst) : State := (s.updGroup c.g fun G => G.start s.uid c.mask c.first d none).bump

/-- What a command of an instruction leaves (R483, R484): it stands in the access order, and its result, if it has one, is out. -/
def XSends (func : Nat) (i : Info) (sa n : Nat) (check : State → Ctx → List Word → Option (Nat × Nat)) (rcd : List Word → Nat)
    (dst : List Word → Option Dst) (s t : State) (c : Ctx) (r : Result) : Prop :=
  let d := c.rsn sa n
  let rec_ := c.G.bufRec (rcd d)
  s.xHeld = false → Issues i s c t → t.xOut c.G.core < 64 → check t c d = none →
    match dst d with
    | none =>
      let u := if func = 15 then t.tagTake c.G.core ((d.getD 0 0).toNat / 256 % 64) else t
      Enters c u (.cmd (.x (xCmdOf t c func d rec_ none))) 0 r
    | some x => func ≠ 15 →
      Enters (c.starts t x) (t.starts c x) (.cmd (.x (xCmdOf (t.starts c x) (c.starts t x) func d rec_ (some t.uid)))) 0 r

/-- What an instruction asks of memory: the kind of access, the record, the width, the index of each lane, whether it is a uniform
access, the scopes of its acquire and of its release, the destination, the bytes that it brings, and whether it is a C load (R263). -/
structure Asked where
  kind    : AccKind
  record  : QWord
  width   : Nat
  want    : Want
  idx     : List (Nat × Int)
  sext    : Bool := false
  uniform : Bool := false
  acq     : Nat := 0
  rel     : Nat := 0
  dst     : Option Dst := none
  data    : Nat → List Byte := fun _ => []
  cmp     : Nat → List Byte := fun _ => []
  cload   : Bool := false

/-- From indices to bytes (R122). -/
def Asked.plan (q : Asked) (c : Ctx) (s : State) : Plan := s.plan c.G.core c.G q.record q.width q.want q.idx

/-- Every lane of an access goes on: no page of it faults, and no lane is out of bounds under a policy that traps (R123, R411). -/
def Plan.goes (p : Plan) (r : QWord) : Prop := p.faults = [] ∧ (recOob r ≠ 1 ∨ p.oob = [])

/-- Does an access reach the peer window? -/
def Plan.peer (p : Plan) : Bool := p.good.any fun x => x.2.any fun l => match l with | .peer _ => true | _ => false

/-- A group of a convoy that has counted a step at the C load at `pc` (R263): its position is one more, and each of its threads that the load
has left behind is given the step. -/
def Group.stepped (G : Group) (mask pc : Word) : Group :=
  { G with
    cvm := { G.cvm with pos := G.cvm.pos + 1 }
    lanes := G.lanes.map fun (l, t) => (l, if t.left (mask.getLsbD l) pc then { t with cstep := some pc } else t) }

/-- Is a lane out of bounds? A uniform access has one index for all. -/
def Plan.outside (p : Plan) (uniform : Bool) (l : Nat) : Bool := if uniform then p.oob != [] else p.oob.contains l

/-- The lanes of a store that are out of bounds, flagged once the store has its effect; a load's flag comes with its result (R26, R123). -/
def Asked.flagged (q : Asked) (c : Ctx) (p : Plan) : Word :=
  if q.dst.isSome ∨ p.oob = [] then 0 else if q.uniform then c.mask else maskOf p.oob

/-- An access stands in the group's access order (R275), behind its release if it has one (R279); its result, if it has one, is pending
(R20, R24), zero with OOB for lanes out of bounds (R123); the path goes on, or, with a release at die scope or wider, waits for that
(R400, log 11). No register, no memory and no other group has changed; translations may have been cached (R408), and what the walks read of
the page tables may have been corrected and counted (R399). A thread that makes a C load owes no convoy step any more (R263). -/
def Sends (c : Ctx) (s : State) (q : Asked) (r : Result) : Prop :=
  let p := q.plan c s
  ∃ t G rid pid bid, r = .next t ∧ s.uid ≤ rid ∧ s.uid ≤ pid ∧
    t = { s with
      groups := SMap.put s.groups c.g G
      cores := t.cores
      dies := t.dies
      side := t.side
      rowCorr := t.rowCorr
      fresh := t.fresh
      uid := t.uid } ∧
    (∀ k, t.core k = { s.core k with tlb := (t.core k).tlb }) ∧
    (∀ d, t.die d = { s.die d with
      corr := (t.die d).corr
      parity := (t.die d).parity }) ∧
    G = { c.G with
      lanes := G.lanes
      hnd := if q.rel < 6 then c.handlerAt (· + 4)
        else if c.mask = 0 then c.G.hnd.map fun H => { H with
          ready := false
          hints := Hints.clear } else c.G.hnd
      acc := G.acc
      pend := c.G.pend ++ (q.dst.map fun d => (⟨pid, c.mask, c.first, d,
        if p.good = [] then some (p.oob.map fun l => ⟨l, List.replicate (max 1 (q.width / 4)) 0, flagOOB, false⟩) else none, none⟩ : Pend)).toList
      wins := G.wins
      blk := c.G.blk ++ (if q.rel < 6 then [] else [⟨bid, c.mask, c.pc, c.first, .fence rid (q.flagged c p), none, s.now, 0, false, c.mask == 0⟩]) } ∧
    (match q.dst with
     | none => G.wins = c.G.wins
     | some d => ∃ w, G.wins = w :: c.G.wins ∧ w.id = pid ∧ w.mask = c.mask ∧ w.dst = d ∧ w.written = false ∧ w.hit = []) ∧
    Lanes c G (fun l x => { (if q.rel < 6 then x.at_ (x.pc + 4) else { x with
        st := .blocked bid
        hints := Hints.clear }) with
      tsr := if q.rel < 6 ∧ q.dst = none ∧ p.outside q.uniform l = true then x.tsr ||| flagOOB else x.tsr
      cstep := if q.cload = true then none else x.cstep }) ∧
    (p.good ≠ [] → ∃ a, a ∈ G.acc ∧ a.kind = q.kind ∧ a.mask = c.mask ∧ a.width = q.width ∧ a.sext = q.sext ∧ a.acq = q.acq ∧
      a.uniform = q.uniform ∧ a.cload = q.cload ∧ a.perf = false ∧ a.begun = false ∧ a.pend = (q.dst.map fun _ => pid) ∧ a.pc = c.first ∧
      a.lanes = p.good.map (fun x => ⟨x.1, x.2, q.data x.1, q.cmp x.1, [], false, false, false, !(alignedAt q.width x.2), false, []⟩) ++
        p.oob.map fun l => ⟨l, [], [], [], [], true, false, true, false, true, []⟩) ∧
    (q.rel ≠ 0 → fenceAcc rid c (.release q.rel) ∈ G.acc) ∧
    (∀ b, b ∈ G.acc → b ∈ c.G.acc ∨ s.uid ≤ b.id) ∧
    (∀ b, b ∈ c.G.acc → (b.perf && b.wait == 0 && !b.acqOpen s.now) = false → b ∈ G.acc)

end Sys2Proof.Machine
end

