-- ==== Sys2Proof/Certificates/Slice0/Obligations.lean ====
section
/-! DEFINITION. The statements for the provers. `Issues` says when an instruction of a thread stream takes its effect; `WritesV` and the
words beside it say what it leaves, and that nothing else changes (Sys2Proof/Safety.lean). -/

open Sys2Proof Sys2Proof.Machine

/-- The integer thread ALU with a thread register as third operand (R98 to R101): each active lane's destination takes the result, SAT is set by a clamp alone, and nothing else changes. -/
def Obligations.IntegerVrResults : Prop :=
  ∀ (s t : State) (c : Ctx) (w : BitVec 1) (d a b : BitVec 7),
    Issues (infoVR w d a b) s c t →
    let D := fun l => c.rv l d.toNat
    let A := fun l => c.rv l a.toNat
    let B := fun l => c.rv l b.toNat
    (WritesV c t d.toNat (fun l => (A l + B l, 0)) (exec (.addVr w d a b) s)) ∧
    (WritesV c t d.toNat (fun l => (A l - B l, 0)) (exec (.subVr w d a b) s)) ∧
    (WritesV c t d.toNat (fun l => (A l * B l, 0)) (exec (.mulVr w d a b) s)) ∧
    (WritesV c t d.toNat (fun l => (BitVec.ofInt 32 ((A l).toInt * (B l).toInt / 2 ^ 32), 0)) (exec (.mulhiVr w d a b) s)) ∧
    (WritesV c t d.toNat (fun l => (BitVec.ofNat 32 ((A l).toNat * (B l).toNat / 2 ^ 32), 0)) (exec (.mulhuVr w d a b) s)) ∧
    (WritesV c t d.toNat (fun l => (A l * B l + D l, 0)) (exec (.madVr w d a b) s)) ∧
    (WritesV c t d.toNat (fun l => (A l &&& B l, 0)) (exec (.andVr w d a b) s)) ∧
    (WritesV c t d.toNat (fun l => (A l ||| B l, 0)) (exec (.orVr w d a b) s)) ∧
    (WritesV c t d.toNat (fun l => (A l ^^^ B l, 0)) (exec (.xorVr w d a b) s)) ∧
    (WritesV c t d.toNat (fun l => (A l &&& ~~~B l, 0)) (exec (.andnVr w d a b) s)) ∧
    (WritesV c t d.toNat (fun l => (A l <<< ((B l).toNat % 32), 0)) (exec (.shlVr w d a b) s)) ∧
    (WritesV c t d.toNat (fun l => (A l >>> ((B l).toNat % 32), 0)) (exec (.shrVr w d a b) s)) ∧
    (WritesV c t d.toNat (fun l => ((A l).sshiftRight ((B l).toNat % 32), 0)) (exec (.sraVr w d a b) s)) ∧
    (WritesV c t d.toNat (fun l => (srarWord (A l) (B l), 0)) (exec (.srarVr w d a b) s)) ∧
    (WritesV c t d.toNat (fun l => (if (A l).slt (B l) then A l else B l, 0)) (exec (.minVr w d a b) s)) ∧
    (WritesV c t d.toNat (fun l => (if (A l).slt (B l) then B l else A l, 0)) (exec (.maxVr w d a b) s)) ∧
    (WritesV c t d.toNat (fun l => (if (A l).ult (B l) then A l else B l, 0)) (exec (.minuVr w d a b) s)) ∧
    (WritesV c t d.toNat (fun l => (if (A l).ult (B l) then B l else A l, 0)) (exec (.maxuVr w d a b) s)) ∧
    (WritesV c t d.toNat (fun l => clamp32 ((A l).toInt + (B l).toInt)) (exec (.addsVr w d a b) s)) ∧
    (WritesV c t d.toNat (fun l => clamp32 ((A l).toInt - (B l).toInt)) (exec (.subsVr w d a b) s)) ∧
    (WritesV c t d.toNat (fun l => (bfxWord (A l) (B l), 0)) (exec (.bfxVr w d a b) s)) ∧
    (WritesV c t d.toNat (fun l => (bfiWord (D l) (A l) (B l), 0)) (exec (.bfiVr w d a b) s))

/-- The same with a uniform register s0–s127 as third operand (R15, R98 to R101). -/
def Obligations.IntegerVsResults : Prop :=
  ∀ (s t : State) (c : Ctx) (w : BitVec 1) (d a b : BitVec 7),
    Issues (infoVS w d a b) s c t →
    let D := fun l => c.rv l d.toNat
    let A := fun l => c.rv l a.toNat
    let B := fun _ : Nat => c.rs b.toNat
    (WritesV c t d.toNat (fun l => (A l + B l, 0)) (exec (.addVs w d a b) s)) ∧
    (WritesV c t d.toNat (fun l => (A l - B l, 0)) (exec (.subVs w d a b) s)) ∧
    (WritesV c t d.toNat (fun l => (A l * B l, 0)) (exec (.mulVs w d a b) s)) ∧
    (WritesV c t d.toNat (fun l => (BitVec.ofInt 32 ((A l).toInt * (B l).toInt / 2 ^ 32), 0)) (exec (.mulhiVs w d a b) s)) ∧
    (WritesV c t d.toNat (fun l => (BitVec.ofNat 32 ((A l).toNat * (B l).toNat / 2 ^ 32), 0)) (exec (.mulhuVs w d a b) s)) ∧
    (WritesV c t d.toNat (fun l => (A l * B l + D l, 0)) (exec (.madVs w d a b) s)) ∧
    (WritesV c t d.toNat (fun l => (A l &&& B l, 0)) (exec (.andVs w d a b) s)) ∧
    (WritesV c t d.toNat (fun l => (A l ||| B l, 0)) (exec (.orVs w d a b) s)) ∧
    (WritesV c t d.toNat (fun l => (A l ^^^ B l, 0)) (exec (.xorVs w d a b) s)) ∧
    (WritesV c t d.toNat (fun l => (A l &&& ~~~B l, 0)) (exec (.andnVs w d a b) s)) ∧
    (WritesV c t d.toNat (fun l => (A l <<< ((B l).toNat % 32), 0)) (exec (.shlVs w d a b) s)) ∧
    (WritesV c t d.toNat (fun l => (A l >>> ((B l).toNat % 32), 0)) (exec (.shrVs w d a b) s)) ∧
    (WritesV c t d.toNat (fun l => ((A l).sshiftRight ((B l).toNat % 32), 0)) (exec (.sraVs w d a b) s)) ∧
    (WritesV c t d.toNat (fun l => (srarWord (A l) (B l), 0)) (exec (.srarVs w d a b) s)) ∧
    (WritesV c t d.toNat (fun l => (if (A l).slt (B l) then A l else B l, 0)) (exec (.minVs w d a b) s)) ∧
    (WritesV c t d.toNat (fun l => (if (A l).slt (B l) then B l else A l, 0)) (exec (.maxVs w d a b) s)) ∧
    (WritesV c t d.toNat (fun l => (if (A l).ult (B l) then A l else B l, 0)) (exec (.minuVs w d a b) s)) ∧
    (WritesV c t d.toNat (fun l => (if (A l).ult (B l) then B l else A l, 0)) (exec (.maxuVs w d a b) s)) ∧
    (WritesV c t d.toNat (fun l => clamp32 ((A l).toInt + (B l).toInt)) (exec (.addsVs w d a b) s)) ∧
    (WritesV c t d.toNat (fun l => clamp32 ((A l).toInt - (B l).toInt)) (exec (.subsVs w d a b) s)) ∧
    (WritesV c t d.toNat (fun l => (bfxWord (A l) (B l), 0)) (exec (.bfxVs w d a b) s)) ∧
    (WritesV c t d.toNat (fun l => (bfiWord (D l) (A l) (B l), 0)) (exec (.bfiVs w d a b) s))

/-- The same with imm7, sign-extended, or with the value that imm and immhi hints widen it to (R29, R40, R98 to R101). -/
def Obligations.IntegerViResults : Prop :=
  ∀ (s t : State) (c : Ctx) (w : BitVec 1) (d a x : BitVec 7),
    Issues (infoVI w d a) s c t →
    let D := fun l => c.rv l d.toNat
    let A := fun l => c.rv l a.toNat
    let B := fun _ : Nat => c.hints.value.getD (x.signExtend 32)
    (WritesV c t d.toNat (fun l => (A l + B l, 0)) (exec (.addVi w d a x) s)) ∧
    (WritesV c t d.toNat (fun l => (A l - B l, 0)) (exec (.subVi w d a x) s)) ∧
    (WritesV c t d.toNat (fun l => (A l * B l, 0)) (exec (.mulVi w d a x) s)) ∧
    (WritesV c t d.toNat (fun l => (BitVec.ofInt 32 ((A l).toInt * (B l).toInt / 2 ^ 32), 0)) (exec (.mulhiVi w d a x) s)) ∧
    (WritesV c t d.toNat (fun l => (BitVec.ofNat 32 ((A l).toNat * (B l).toNat / 2 ^ 32), 0)) (exec (.mulhuVi w d a x) s)) ∧
    (WritesV c t d.toNat (fun l => (A l * B l + D l, 0)) (exec (.madVi w d a x) s)) ∧
    (WritesV c t d.toNat (fun l => (A l &&& B l, 0)) (exec (.andVi w d a x) s)) ∧
    (WritesV c t d.toNat (fun l => (A l ||| B l, 0)) (exec (.orVi w d a x) s)) ∧
    (WritesV c t d.toNat (fun l => (A l ^^^ B l, 0)) (exec (.xorVi w d a x) s)) ∧
    (WritesV c t d.toNat (fun l => (A l &&& ~~~B l, 0)) (exec (.andnVi w d a x) s)) ∧
    (WritesV c t d.toNat (fun l => (A l <<< ((B l).toNat % 32), 0)) (exec (.shlVi w d a x) s)) ∧
    (WritesV c t d.toNat (fun l => (A l >>> ((B l).toNat % 32), 0)) (exec (.shrVi w d a x) s)) ∧
    (WritesV c t d.toNat (fun l => ((A l).sshiftRight ((B l).toNat % 32), 0)) (exec (.sraVi w d a x) s)) ∧
    (WritesV c t d.toNat (fun l => (srarWord (A l) (B l), 0)) (exec (.srarVi w d a x) s)) ∧
    (WritesV c t d.toNat (fun l => (if (A l).slt (B l) then A l else B l, 0)) (exec (.minVi w d a x) s)) ∧
    (WritesV c t d.toNat (fun l => (if (A l).slt (B l) then B l else A l, 0)) (exec (.maxVi w d a x) s)) ∧
    (WritesV c t d.toNat (fun l => (if (A l).ult (B l) then A l else B l, 0)) (exec (.minuVi w d a x) s)) ∧
    (WritesV c t d.toNat (fun l => (if (A l).ult (B l) then B l else A l, 0)) (exec (.maxuVi w d a x) s)) ∧
    (WritesV c t d.toNat (fun l => clamp32 ((A l).toInt + (B l).toInt)) (exec (.addsVi w d a x) s)) ∧
    (WritesV c t d.toNat (fun l => clamp32 ((A l).toInt - (B l).toInt)) (exec (.subsVi w d a x) s)) ∧
    (WritesV c t d.toNat (fun l => (bfxWord (A l) (B l), 0)) (exec (.bfxVi w d a x) s)) ∧
    (WritesV c t d.toNat (fun l => (bfiWord (D l) (A l) (B l), 0)) (exec (.bfiVi w d a x) s))

/-- `popc`, `clz`, `mov` and `sel` (R60, R99, R102): the destination of each active lane takes the count, the operand, or the operand that the selected predicate names. -/
def Obligations.MovesAndSelects : Prop :=
  ∀ (s t : State) (c : Ctx) (w : BitVec 1) (d a b : BitVec 7),
    (Issues (infoV2 w d a) s c t → WritesV c t d.toNat (fun l => (BitVec.ofNat 32 ((List.range 32).filter fun k => (c.rv l a.toNat).getLsbD k).length, 0)) (exec (.popc w d a) s)) ∧
    (Issues (infoV2 w d a) s c t → WritesV c t d.toNat (fun l => (clzWord (c.rv l a.toNat), 0)) (exec (.clz w d a) s)) ∧
    (Issues (infoV2 w d b) s c t → WritesV c t d.toNat (fun l => (c.rv l b.toNat, 0)) (exec (.movVr w d b) s)) ∧
    (Issues { w := flag1 w, regs := [.v d.toNat 1 1, .s b.toNat 1 1] } s c t → WritesV c t d.toNat (fun _ => (c.rs b.toNat, 0)) (exec (.movVs w d b) s)) ∧
    (Issues { infoV1 w d with imm := true, immhi := true } s c t → WritesV c t d.toNat (fun _ => (c.hints.value.getD (b.signExtend 32), 0)) (exec (.movVi w d b) s)) ∧
    (Issues ((infoVR w d a b).allow modPSEL) s c t → WritesV c t d.toNat (fun l => (if c.pred l c.hints.psel then c.rv l a.toNat else c.rv l b.toNat, 0)) (exec (.selVr w d a b) s)) ∧
    (Issues ((infoVS w d a b).allow modPSEL) s c t → WritesV c t d.toNat (fun l => (if c.pred l c.hints.psel then c.rv l a.toNat else c.rs b.toNat, 0)) (exec (.selVs w d a b) s)) ∧
    (Issues ((infoVI w d a).allow modPSEL) s c t → WritesV c t d.toNat (fun l => (if c.pred l c.hints.psel then c.rv l a.toNat else c.hints.value.getD (b.signExtend 32), 0)) (exec (.selVi w d a b) s))

/-- 64-bit addition, subtraction and shifts on register pairs, low word first (R77, R103). -/
def Obligations.SixtyFourBitResults : Prop :=
  ∀ (s t : State) (c : Ctx) (w : BitVec 1) (d a b : BitVec 7),
    (Issues (infoVR w d a b 2) s c t → WritesV2 c t d.toNat (fun l => c.rv2 l a.toNat + c.rv2 l b.toNat) (exec (.add64Vr w d a b) s)) ∧
    (Issues (infoVS w d a b 2) s c t → WritesV2 c t d.toNat (fun l => c.rv2 l a.toNat + c.rs2 b.toNat) (exec (.add64Vs w d a b) s)) ∧
    (Issues (infoVR w d a b 2) s c t → WritesV2 c t d.toNat (fun l => c.rv2 l a.toNat - c.rv2 l b.toNat) (exec (.sub64Vr w d a b) s)) ∧
    (Issues (infoVS w d a b 2) s c t → WritesV2 c t d.toNat (fun l => c.rv2 l a.toNat - c.rs2 b.toNat) (exec (.sub64Vs w d a b) s)) ∧
    (Issues { w := flag1 w, regs := [.v d.toNat 2 2, .v a.toNat 2 2, .v b.toNat 1 1] } s c t → WritesV2 c t d.toNat (fun l => c.rv2 l a.toNat <<< ((c.rv l b.toNat).toNat % 64)) (exec (.shl64Vr w d a b) s)) ∧
    (Issues { w := flag1 w, regs := [.v d.toNat 2 2, .v a.toNat 2 2, .s b.toNat 1 1] } s c t → WritesV2 c t d.toNat (fun l => c.rv2 l a.toNat <<< ((c.rs b.toNat).toNat % 64)) (exec (.shl64Vs w d a b) s)) ∧
    (Issues { w := flag1 w, imm := true, immhi := true, regs := [.v d.toNat 2 2, .v a.toNat 2 2] } s c t → WritesV2 c t d.toNat (fun l => c.rv2 l a.toNat <<< ((c.hints.value.getD (b.signExtend 32)).toNat % 64)) (exec (.shl64Vi w d a b) s)) ∧
    (Issues { w := flag1 w, regs := [.v d.toNat 2 2, .v a.toNat 2 2, .v b.toNat 1 1] } s c t → WritesV2 c t d.toNat (fun l => c.rv2 l a.toNat >>> ((c.rv l b.toNat).toNat % 64)) (exec (.shr64Vr w d a b) s)) ∧
    (Issues { w := flag1 w, regs := [.v d.toNat 2 2, .v a.toNat 2 2, .s b.toNat 1 1] } s c t → WritesV2 c t d.toNat (fun l => c.rv2 l a.toNat >>> ((c.rs b.toNat).toNat % 64)) (exec (.shr64Vs w d a b) s)) ∧
    (Issues { w := flag1 w, imm := true, immhi := true, regs := [.v d.toNat 2 2, .v a.toNat 2 2] } s c t → WritesV2 c t d.toNat (fun l => c.rv2 l a.toNat >>> ((c.hints.value.getD (b.signExtend 32)).toNat % 64)) (exec (.shr64Vi w d a b) s))

/-- FP32 arithmetic (R88, R132 to R136): the exact result rounded once in the direction of the mod hint, with its flags ORed into TSR. -/
def Obligations.Fp32Results : Prop :=
  ∀ (s t : State) (c : Ctx) (w : BitVec 1) (d a b : BitVec 7),
    (Issues ((infoVR w d a b).allow modRND) s c t → WritesV c t d.toNat (fun l => f32Map (fAdd fp32 c.hints.rnd) (c.rv l a.toNat) (c.rv l b.toNat)) (exec (.faddVr w d a b) s)) ∧
    (Issues ((infoVS w d a b).allow modRND) s c t → WritesV c t d.toNat (fun l => f32Map (fAdd fp32 c.hints.rnd) (c.rv l a.toNat) (c.rs b.toNat)) (exec (.faddVs w d a b) s)) ∧
    (Issues ((infoVR w d a b).allow modRND) s c t → WritesV c t d.toNat (fun l => f32Map (fSub fp32 c.hints.rnd) (c.rv l a.toNat) (c.rv l b.toNat)) (exec (.fsubVr w d a b) s)) ∧
    (Issues ((infoVS w d a b).allow modRND) s c t → WritesV c t d.toNat (fun l => f32Map (fSub fp32 c.hints.rnd) (c.rv l a.toNat) (c.rs b.toNat)) (exec (.fsubVs w d a b) s)) ∧
    (Issues ((infoVR w d a b).allow modRND) s c t → WritesV c t d.toNat (fun l => f32Map (fMul fp32 c.hints.rnd) (c.rv l a.toNat) (c.rv l b.toNat)) (exec (.fmulVr w d a b) s)) ∧
    (Issues ((infoVS w d a b).allow modRND) s c t → WritesV c t d.toNat (fun l => f32Map (fMul fp32 c.hints.rnd) (c.rv l a.toNat) (c.rs b.toNat)) (exec (.fmulVs w d a b) s)) ∧
    (Issues ((infoVR w d a b).allow modRND) s c t → WritesV c t d.toNat (fun l => f32Map (fun x y => fFma fp32 c.hints.rnd x y (c.rv l d.toNat).toNat) (c.rv l a.toNat) (c.rv l b.toNat)) (exec (.ffmaVr w d a b) s)) ∧
    (Issues ((infoVS w d a b).allow modRND) s c t → WritesV c t d.toNat (fun l => f32Map (fun x y => fFma fp32 c.hints.rnd x y (c.rv l d.toNat).toNat) (c.rv l a.toNat) (c.rs b.toNat)) (exec (.ffmaVs w d a b) s)) ∧
    (Issues (infoVR w d a b) s c t → WritesV c t d.toNat (fun l => f32Map (fMinMax fp32 false) (c.rv l a.toNat) (c.rv l b.toNat)) (exec (.fminVr w d a b) s)) ∧
    (Issues (infoVS w d a b) s c t → WritesV c t d.toNat (fun l => f32Map (fMinMax fp32 false) (c.rv l a.toNat) (c.rs b.toNat)) (exec (.fminVs w d a b) s)) ∧
    (Issues (infoVR w d a b) s c t → WritesV c t d.toNat (fun l => f32Map (fMinMax fp32 true) (c.rv l a.toNat) (c.rv l b.toNat)) (exec (.fmaxVr w d a b) s)) ∧
    (Issues (infoVS w d a b) s c t → WritesV c t d.toNat (fun l => f32Map (fMinMax fp32 true) (c.rv l a.toNat) (c.rs b.toNat)) (exec (.fmaxVs w d a b) s)) ∧
    (Issues (infoV2 w d a) s c t → WritesV c t d.toNat (fun l => (c.rv l a.toNat &&& 0x7FFFFFFF, 0)) (exec (.fabs w d a) s)) ∧
    (Issues (infoV2 w d a) s c t → WritesV c t d.toNat (fun l => (c.rv l a.toNat ^^^ 0x80000000, 0)) (exec (.fneg w d a) s))

/-- BF16 pairs (R90 to R92, R138, R139): each element rounded once, the flags of both in TSR; `hdot2` accumulates in FP32. Packed INT16 (R95, R141, R142): elements clamped to 16 bits with SAT; `pmac2` adds both products exactly and clamps once. -/
def Obligations.PackedPairResults : Prop :=
  (∀ (s t : State) (c : Ctx) (w : BitVec 1) (d a b : BitVec 7),
     (Issues (infoVR w d a b) s c t → WritesV c t d.toNat (fun l => bf2Map (fAdd bf16 .rn) (c.rv l a.toNat) (c.rv l b.toNat)) (exec (.hadd2Vr w d a b) s)) ∧
     (Issues (infoVS w d a b) s c t → WritesV c t d.toNat (fun l => bf2Map (fAdd bf16 .rn) (c.rv l a.toNat) (c.rs b.toNat)) (exec (.hadd2Vs w d a b) s)) ∧
     (Issues (infoVR w d a b) s c t → WritesV c t d.toNat (fun l => bf2Map (fSub bf16 .rn) (c.rv l a.toNat) (c.rv l b.toNat)) (exec (.hsub2Vr w d a b) s)) ∧
     (Issues (infoVS w d a b) s c t → WritesV c t d.toNat (fun l => bf2Map (fSub bf16 .rn) (c.rv l a.toNat) (c.rs b.toNat)) (exec (.hsub2Vs w d a b) s)) ∧
     (Issues (infoVR w d a b) s c t → WritesV c t d.toNat (fun l => bf2Map (fMul bf16 .rn) (c.rv l a.toNat) (c.rv l b.toNat)) (exec (.hmul2Vr w d a b) s)) ∧
     (Issues (infoVS w d a b) s c t → WritesV c t d.toNat (fun l => bf2Map (fMul bf16 .rn) (c.rv l a.toNat) (c.rs b.toNat)) (exec (.hmul2Vs w d a b) s)) ∧
     (Issues (infoVR w d a b) s c t → WritesV c t d.toNat (fun l => hfma2Word (c.rv l d.toNat) (c.rv l a.toNat) (c.rv l b.toNat)) (exec (.hfma2Vr w d a b) s)) ∧
     (Issues (infoVS w d a b) s c t → WritesV c t d.toNat (fun l => hfma2Word (c.rv l d.toNat) (c.rv l a.toNat) (c.rs b.toNat)) (exec (.hfma2Vs w d a b) s)) ∧
     (Issues (infoVR w d a b) s c t → WritesV c t d.toNat (fun l => hdot2Word (c.rv l d.toNat) (c.rv l a.toNat) (c.rv l b.toNat)) (exec (.hdot2Vr w d a b) s)) ∧
     (Issues (infoVS w d a b) s c t → WritesV c t d.toNat (fun l => hdot2Word (c.rv l d.toNat) (c.rv l a.toNat) (c.rs b.toNat)) (exec (.hdot2Vs w d a b) s)) ∧
     (Issues (infoVR w d a b) s c t → WritesV c t d.toNat (fun l => bf2Map (fMinMax bf16 true) (c.rv l a.toNat) (c.rv l b.toNat)) (exec (.hmax2Vr w d a b) s)) ∧
     (Issues (infoVS w d a b) s c t → WritesV c t d.toNat (fun l => bf2Map (fMinMax bf16 true) (c.rv l a.toNat) (c.rs b.toNat)) (exec (.hmax2Vs w d a b) s)) ∧
     (Issues (infoVR w d a b) s c t → WritesV c t d.toNat (fun l => bf2Map (fMinMax bf16 false) (c.rv l a.toNat) (c.rv l b.toNat)) (exec (.hmin2Vr w d a b) s)) ∧
     (Issues (infoVS w d a b) s c t → WritesV c t d.toNat (fun l => bf2Map (fMinMax bf16 false) (c.rv l a.toNat) (c.rs b.toNat)) (exec (.hmin2Vs w d a b) s))) ∧
  (∀ (s t : State) (c : Ctx) (w : BitVec 1) (d a b : BitVec 7),
     (Issues (infoVR w d a b) s c t → WritesV c t d.toNat (fun l => elementwise (fun x y => x + y) (c.rv l a.toNat) (c.rv l b.toNat)) (exec (.padd2sVr w d a b) s)) ∧
     (Issues (infoVS w d a b) s c t → WritesV c t d.toNat (fun l => elementwise (fun x y => x + y) (c.rv l a.toNat) (c.rs b.toNat)) (exec (.padd2sVs w d a b) s)) ∧
     (Issues (infoVR w d a b) s c t → WritesV c t d.toNat (fun l => elementwise (fun x y => x - y) (c.rv l a.toNat) (c.rv l b.toNat)) (exec (.psub2sVr w d a b) s)) ∧
     (Issues (infoVS w d a b) s c t → WritesV c t d.toNat (fun l => elementwise (fun x y => x - y) (c.rv l a.toNat) (c.rs b.toNat)) (exec (.psub2sVs w d a b) s)) ∧
     (Issues (infoVR w d a b) s c t → WritesV c t d.toNat (fun l => elementwise (fun x y => x * y) (c.rv l a.toNat) (c.rv l b.toNat)) (exec (.pmul2Vr w d a b) s)) ∧
     (Issues (infoVS w d a b) s c t → WritesV c t d.toNat (fun l => elementwise (fun x y => x * y) (c.rv l a.toNat) (c.rs b.toNat)) (exec (.pmul2Vs w d a b) s)) ∧
     (Issues (infoVR w d a b) s c t → WritesV c t d.toNat (fun l => clamp32 ((c.rv l d.toNat).toInt + elem (c.rv l a.toNat) 0 * elem (c.rv l b.toNat) 0 + elem (c.rv l a.toNat) 1 * elem (c.rv l b.toNat) 1)) (exec (.pmac2Vr w d a b) s)) ∧
     (Issues (infoVS w d a b) s c t → WritesV c t d.toNat (fun l => clamp32 ((c.rv l d.toNat).toInt + elem (c.rv l a.toNat) 0 * elem (c.rs b.toNat) 0 + elem (c.rv l a.toNat) 1 * elem (c.rs b.toNat) 1)) (exec (.pmac2Vs w d a b) s)) ∧
     (Issues (infoVR w d a b) s c t → WritesV c t d.toNat (fun l => elementwise max (c.rv l a.toNat) (c.rv l b.toNat)) (exec (.pmax2Vr w d a b) s)) ∧
     (Issues (infoVS w d a b) s c t → WritesV c t d.toNat (fun l => elementwise max (c.rv l a.toNat) (c.rs b.toNat)) (exec (.pmax2Vs w d a b) s)) ∧
     (Issues (infoVR w d a b) s c t → WritesV c t d.toNat (fun l => elementwise min (c.rv l a.toNat) (c.rv l b.toNat)) (exec (.pmin2Vr w d a b) s)) ∧
     (Issues (infoVS w d a b) s c t → WritesV c t d.toNat (fun l => elementwise min (c.rv l a.toNat) (c.rs b.toNat)) (exec (.pmin2Vs w d a b) s)) ∧
     (Issues (infoVR w d a b) s c t → WritesV c t d.toNat (fun l => packPair (clamp16 (roundShift (elem (c.rv l a.toNat) 0) ((c.rv l b.toNat).toNat % 16))) (clamp16 (roundShift (elem (c.rv l a.toNat) 1) ((c.rv l b.toNat).toNat % 16)))) (exec (.psrar2Vr w d a b) s)) ∧
     (Issues (infoVS w d a b) s c t → WritesV c t d.toNat (fun l => packPair (clamp16 (roundShift (elem (c.rv l a.toNat) 0) ((c.rs b.toNat).toNat % 16))) (clamp16 (roundShift (elem (c.rv l a.toNat) 1) ((c.rs b.toNat).toNat % 16)))) (exec (.psrar2Vs w d a b) s)) ∧
     (Issues (infoVR w d a b) s c t → WritesV c t d.toNat (fun l => packPair (clamp16 (c.rv l a.toNat).toInt) (clamp16 (c.rv l b.toNat).toInt)) (exec (.pack2sVr w d a b) s)) ∧
     (Issues (infoVS w d a b) s c t → WritesV c t d.toNat (fun l => packPair (clamp16 (c.rv l a.toNat).toInt) (clamp16 (c.rs b.toNat).toInt)) (exec (.pack2sVs w d a b) s)) ∧
     (Issues (infoV2 w d a) s c t → WritesV c t d.toNat (fun l => (BitVec.ofInt 32 (elem (c.rv l a.toNat) 0), 0)) (exec (.unpklo w d a) s)) ∧
     (Issues (infoV2 w d a) s c t → WritesV c t d.toNat (fun l => (BitVec.ofInt 32 (elem (c.rv l a.toNat) 1), 0)) (exec (.unpkhi w d a) s)))

/-- The conversions (R93, R94, R144 to R147): one rounding in the direction that the word gives; FP16 results replace one half of the destination. -/
def Obligations.ConversionResults : Prop :=
  ∀ (s t : State) (c : Ctx) (w : BitVec 1) (d a b : BitVec 7) (u : BitVec 1) (r : BitVec 2),
    (Issues (infoV2 w d a) s c t → WritesV c t d.toNat (fun l => fToInt true (flag1 u) (Rnd.ofCode r.toNat) (c.rv l a.toNat).toNat) (exec (.cvtfi w d a u r) s)) ∧
    (Issues (infoV2 w d a) s c t → WritesV c t d.toNat (fun l => fToInt false (flag1 u) (Rnd.ofCode r.toNat) (c.rv l a.toNat).toNat) (exec (.cvtfu w d a u r) s)) ∧
    (Issues (infoV2 w d a) s c t → WritesV c t d.toNat (fun l => wordOf (intToF (Rnd.ofCode r.toNat) (c.rv l a.toNat).toInt)) (exec (.cvtif w d a r) s)) ∧
    (Issues (infoV2 w d a) s c t → WritesV c t d.toNat (fun l => wordOf (intToF (Rnd.ofCode r.toNat) (c.rv l a.toNat).toNat)) (exec (.cvtuf w d a r) s)) ∧
    (Issues (infoVR w d a b) s c t → WritesV c t d.toNat (fun l => toBf2 (c.rv l a.toNat) (c.rv l b.toNat)) (exec (.cvtbf w d a b) s)) ∧
    (Issues (infoV2 w d a) s c t → WritesV c t d.toNat (fun l => wordOf (fConv bf16 fp32 .rn (bfLo (c.rv l a.toNat)))) (exec (.cvtfbl w d a) s)) ∧
    (Issues (infoV2 w d a) s c t → WritesV c t d.toNat (fun l => wordOf (fConv bf16 fp32 .rn (bfHi (c.rv l a.toNat)))) (exec (.cvtfbh w d a) s)) ∧
    (Issues (infoV2 w d a) s c t → WritesV c t d.toNat (fun l => wordOf (fConv fp16 fp32 .rn (if flag1 u then bfHi (c.rv l a.toNat) else bfLo (c.rv l a.toNat)))) (exec (.cvthf w d a u) s)) ∧
    (Issues (infoV2 w d a) s c t → WritesV c t d.toNat (fun l => toHalf false (Rnd.ofCode r.toNat) (flag1 u) (c.rv l d.toNat) (c.rv l a.toNat)) (exec (.cvtfhl w d a u r) s)) ∧
    (Issues (infoV2 w d a) s c t → WritesV c t d.toNat (fun l => toHalf true (Rnd.ofCode r.toNat) (flag1 u) (c.rv l d.toNat) (c.rv l a.toNat)) (exec (.cvtfhh w d a u r) s))

/-- The transcendental functions, `frnd`, and the reductions and scans over the active lanes are of variable latency (R24, R149 to R152, R206, R207): the result is pending, no register has changed, and the path goes on. -/
def Obligations.LongLatencyStarts : Prop :=
  (∀ (s t : State) (c : Ctx) (w : BitVec 1) (d a : BitVec 7) (r : BitVec 2),
     (Issues (infoV2 w d a).late s c t → StartsV c t d.toNat (fun l => wordOf (fRcp (c.rv l a.toNat))) (exec (.rcp w d a) s)) ∧
     (Issues (infoV2 w d a).late s c t → StartsV c t d.toNat (fun l => wordOf (fRsqrt (c.rv l a.toNat))) (exec (.rsqrt w d a) s)) ∧
     (Issues (infoV2 w d a).late s c t → StartsV c t d.toNat (fun l => wordOf (fSqrt fp32 (c.rv l a.toNat).toNat)) (exec (.sqrt w d a) s)) ∧
     (Issues (infoV2 w d a).late s c t → StartsV c t d.toNat (fun l => wordOf (fExp2 (c.rv l a.toNat))) (exec (.exp2 w d a) s)) ∧
     (Issues (infoV2 w d a).late s c t → StartsV c t d.toNat (fun l => wordOf (fLog2 (c.rv l a.toNat))) (exec (.log2 w d a) s)) ∧
     (Issues (infoV2 w d a).late s c t → StartsV c t d.toNat (fun l => wordOf (fSinPi (c.rv l a.toNat))) (exec (.sinpi w d a) s)) ∧
     (Issues (infoV2 w d a).late s c t → StartsV c t d.toNat (fun l => wordOf (fCosPi (c.rv l a.toNat))) (exec (.cospi w d a) s)) ∧
     (Issues (infoV2 w d a).late s c t → StartsV c t d.toNat (fun l => wordOf (fTanh (c.rv l a.toNat))) (exec (.tanh w d a) s)) ∧
     (Issues (infoV2 w d a).late s c t → StartsV c t d.toNat (fun l => wordOf (fRoundInt (Rnd.ofCode r.toNat) (c.rv l a.toNat).toNat)) (exec (.frnd w d a r) s))) ∧
  (∀ (s t : State) (c : Ctx) (w : BitVec 1) (d a : BitVec 7),
     (Issues (infoV2 w d a).late s c t → StartsV c t d.toNat (fun _ => (((lanesOf c.mask).map fun k => c.rv k a.toNat).foldl (fun x y => x + y) 0, 0)) (exec (.radd w d a) s)) ∧
     (Issues (infoV2 w d a).late s c t → StartsV c t d.toNat (fun _ => (((lanesOf c.mask).map fun k => c.rv k a.toNat).foldl maxWord 0x80000000, 0)) (exec (.rmax w d a) s)) ∧
     (Issues (infoV2 w d a).late s c t → StartsV c t d.toNat (fun _ => (((lanesOf c.mask).map fun k => c.rv k a.toNat).foldl minWord 0x7FFFFFFF, 0)) (exec (.rmin w d a) s)) ∧
     (Issues (infoV2 w d a).late s c t → StartsV c t d.toNat (fun l => ((((lanesOf c.mask).filter (· ≤ l)).map fun k => c.rv k a.toNat).foldl (fun x y => x + y) 0, 0)) (exec (.scan w d a) s)) ∧
     (Issues (infoV2 w d a).late s c t → StartsV c t d.toNat (fun l => ((((lanesOf c.mask).filter (· < l)).map fun k => c.rv k a.toNat).foldl (fun x y => x + y) 0, 0)) (exec (.scanx w d a) s)) ∧
     (Issues (infoV2 w d a).late s c t → StartsV c t d.toNat (fun _ => rfaddOf ((List.range 32).map fun l => if c.has l then some (c.rv l a.toNat) else none)) (exec (.rfadd w d a) s)))

/-- The compares (R105 to R107): a predicate of each active lane, or one uniform predicate; only f32 sets a flag. -/
def Obligations.CompareResults : Prop :=
  ∀ (s t : State) (c : Ctx) (w : BitVec 1) (o : BitVec 5) (p k : BitVec 3) (a b : BitVec 7),
    (Issues { w := flag1 w, regs := [.v a.toNat (cmpRegs k.toNat) (cmpRegs k.toNat), .v b.toNat (cmpRegs k.toNat) (cmpRegs k.toNat)] } s c t → WritesP c t p.toNat (fun l => cmpTest o.toNat k.toNat (c.cmpV k.toNat l a.toNat) (c.cmpV k.toNat l b.toNat)) (exec (.cmpVv w o p k a b) s)) ∧
    (Issues { w := flag1 w, regs := [.v a.toNat (cmpRegs k.toNat) (cmpRegs k.toNat), .s b.toNat 1 1] } s c t → WritesP c t p.toNat (fun l => cmpTest o.toNat k.toNat (c.cmpV k.toNat l a.toNat) (cmpExtend k.toNat (c.rs b.toNat))) (exec (.cmpVs w o p k a b) s)) ∧
    (Issues { w := flag1 w, imm := true, immhi := true, regs := [.v a.toNat (cmpRegs k.toNat) (cmpRegs k.toNat)] } s c t → WritesP c t p.toNat (fun l => cmpTest o.toNat k.toNat (c.cmpV k.toNat l a.toNat) (cmpImm k.toNat c.hints b)) (exec (.cmpVi w o p k a b) s)) ∧
    (Issues { w := flag1 w, regs := [.s a.toNat (cmpRegs k.toNat) (cmpRegs k.toNat), .s b.toNat (cmpRegs k.toNat) (cmpRegs k.toNat)] } s c t → WritesQ c t p.toNat (cmpTest o.toNat k.toNat (c.cmpS k.toNat a.toNat) (c.cmpS k.toNat b.toNat)).1 (cmpTest o.toNat k.toNat (c.cmpS k.toNat a.toNat) (c.cmpS k.toNat b.toNat)).2 (exec (.scmp w o p k a b) s))

/-- The lane-moving forms (R202 to R204): each active lane takes the register of its source lane, 0 where that lane is outside the path, and the fill where a slide runs out of lanes. -/
def Obligations.LaneMoveResults : Prop :=
  ∀ (s t : State) (c : Ctx) (w : BitVec 1) (d a b : BitVec 7) (n : BitVec 5) (f : BitVec 2),
    (Issues (infoVR w d a b) s c t → WritesV c t d.toNat (fun l => (if (c.rv l b.toNat).toNat % 32 < 32 ∧ c.has ((c.rv l b.toNat).toNat % 32) then c.rv ((c.rv l b.toNat).toNat % 32) a.toNat else 0, 0)) (exec (.shfl w d a b) s)) ∧
    (Issues (infoV2 w d a) s c t → WritesV c t d.toNat (fun l => (if l ^^^ n.toNat < 32 ∧ c.has (l ^^^ n.toNat) then c.rv (l ^^^ n.toNat) a.toNat else 0, 0)) (exec (.shfli w d a n) s)) ∧
    (Issues (infoV2 w d a) s c t → WritesV c t d.toNat (fun _ => (if n.toNat < 32 ∧ c.has (n.toNat) then c.rv (n.toNat) a.toNat else 0, 0)) (exec (.bcst w d a n) s)) ∧
    (Issues (infoSlide w d a f) s c t → WritesV c t d.toNat (fun l => (if n.toNat ≤ l then c.from (l - n.toNat) a.toNat else if f = 0 then 0 else if f = 1 then c.from 0 a.toNat else if f = 2 then c.from (l + 32 - n.toNat) a.toNat else c.rs c.hints.fill, 0)) (exec (.slup w d a n f) s)) ∧
    (Issues (infoSlide w d a f) s c t → WritesV c t d.toNat (fun l => (if l + n.toNat < 32 then c.from (l + n.toNat) a.toNat else if f = 0 then 0 else if f = 1 then c.from 31 a.toNat else if f = 2 then c.from (l + n.toNat - 32) a.toNat else c.rs c.hints.fill, 0)) (exec (.sldn w d a n f) s))

/-- Votes, predicate logic, and the moves between predicates and registers (R205). -/
def Obligations.VoteAndPredicateResults : Prop :=
  ∀ (s t : State) (c : Ctx) (w : BitVec 1) (p q r : BitVec 3) (u a : BitVec 7),
    (Issues { w := flag1 w, regs := [.s u.toNat 1 1] } s c t → WritesS c t u.toNat [maskOf ((lanesOf c.mask).filter fun l => c.pred l p.toNat)] (exec (.ballot w u p) s)) ∧
    (Issues (infoNone w) s c t → WritesQ c t q.toNat ((lanesOf c.mask).any fun l => c.pred l p.toNat) 0 (exec (.vany w q p) s)) ∧
    (Issues (infoNone w) s c t → WritesQ c t q.toNat ((lanesOf c.mask).all fun l => c.pred l p.toNat) 0 (exec (.vall w q p) s)) ∧
    (Issues (infoNone w) s c t → WritesP c t r.toNat (fun l => (c.pred l p.toNat && c.pred l q.toNat, 0)) (exec (.pand w r p q) s)) ∧
    (Issues (infoNone w) s c t → WritesP c t r.toNat (fun l => (c.pred l p.toNat || c.pred l q.toNat, 0)) (exec (.por w r p q) s)) ∧
    (Issues (infoNone w) s c t → WritesP c t r.toNat (fun l => (c.pred l p.toNat != c.pred l q.toNat, 0)) (exec (.pxor w r p q) s)) ∧
    (Issues (infoNone w) s c t → WritesP c t r.toNat (fun l => (!c.pred l p.toNat, 0)) (exec (.pnot w r p) s)) ∧
    (Issues (infoV1 w u) s c t → WritesV c t u.toNat (fun l => (if c.pred l p.toNat then 1 else 0, 0)) (exec (.ptov w u p) s)) ∧
    (Issues (infoV1 w u) s c t → WritesP c t p.toNat (fun l => (c.rv l u.toNat != 0, 0)) (exec (.vtop w p u) s)) ∧
    (Issues (infoV2 w u a) s c t → WritesV c t u.toNat (fun l => (maskOf ((lanesOf c.mask).filter fun k => c.rv k a.toNat == c.rv l a.toNat), 0)) (exec (.matchv w u a) s))

/-- `pebpk` and `pebup` convert FP32 values to the fields of a paired-exponent block and back (R208, R209); `mvlk` and `ldlk` move LK (R210). -/
def Obligations.BlockFormatAndLinkResults : Prop :=
  ∀ (s t : State) (c : Ctx) (w : BitVec 1) (d a : BitVec 7) (f : BitVec 2),
    (Issues (infoV2 w d a) s c t → WritesV c t d.toNat (fun l => (pebField f.toNat (pebPack f.toNat ((List.range 16).map fun j => if c.has (16 * (l / 16) + j) then some (c.rv (16 * (l / 16) + j) a.toNat) else none)).1 ((pebPack f.toNat ((List.range 16).map fun j => if c.has (16 * (l / 16) + j) then some (c.rv (16 * (l / 16) + j) a.toNat) else none)).2.getD (l % 16) ⟨0, 0, 0, false⟩), if ((pebPack f.toNat ((List.range 16).map fun j => if c.has (16 * (l / 16) + j) then some (c.rv (16 * (l / 16) + j) a.toNat) else none)).2.getD (l % 16) ⟨0, 0, 0, false⟩).sat then flagSAT else 0)) (exec (.pebpk w d a f) s)) ∧
    (Issues (infoV2 w d a) s c t → WritesV c t d.toNat (fun l => (pebUnfield f.toNat (c.rv l a.toNat), 0)) (exec (.pebup w d a f) s)) ∧
    (Issues (infoV1 w d) s c t → WritesV c t d.toNat (fun l => ((c.G.lane l).lk, 0)) (exec (.mvlk w d) s)) ∧
    (Issues (infoV1 w a) s c t → Lanewise c t (fun l x => { x.at_ (x.pc + 4) with lk := c.rv l a.toNat &&& ~~~3 }) (exec (.ldlk w a) s))

/-- The uniform register forms (R109, R110): the destination is the first source, and the form runs once for the path; the uniform immediate forms, whose 12-bit field is sign-extended for `sli`, `saddi` and `smuli` and zero-extended for the logic forms unless a hint widens it (R63, R112), and the 64-bit uniform forms (R110). -/
def Obligations.UniformResults : Prop :=
  (∀ (s t : State) (c : Ctx) (w : BitVec 1) (d a : BitVec 10),
     Issues (infoS2 w d a) s c t →
     let X := c.rs d.toNat
     let Y := c.rs a.toNat
     (WritesS c t d.toNat [X + Y] (exec (.sadd w d a) s)) ∧
     (WritesS c t d.toNat [X - Y] (exec (.ssub w d a) s)) ∧
     (WritesS c t d.toNat [X * Y] (exec (.smul w d a) s)) ∧
     (WritesS c t d.toNat [X &&& Y] (exec (.sand w d a) s)) ∧
     (WritesS c t d.toNat [X ||| Y] (exec (.sor w d a) s)) ∧
     (WritesS c t d.toNat [X ^^^ Y] (exec (.sxor w d a) s)) ∧
     (WritesS c t d.toNat [X <<< (Y.toNat % 32)] (exec (.sshl w d a) s)) ∧
     (WritesS c t d.toNat [X >>> (Y.toNat % 32)] (exec (.sshr w d a) s)) ∧
     (WritesS c t d.toNat [X.sshiftRight (Y.toNat % 32)] (exec (.ssra w d a) s)) ∧
     (WritesS c t d.toNat [if X.slt Y then X else Y] (exec (.smin w d a) s)) ∧
     (WritesS c t d.toNat [if X.slt Y then Y else X] (exec (.smax w d a) s)) ∧
     (WritesS c t d.toNat [if X.ult Y then X else Y] (exec (.sminu w d a) s)) ∧
     (WritesS c t d.toNat [if X.ult Y then Y else X] (exec (.smaxu w d a) s)) ∧
     (WritesS c t d.toNat [Y] (exec (.smov w d a) s))) ∧
  (∀ (s t : State) (c : Ctx) (w : BitVec 1) (d a : BitVec 10) (x : BitVec 12) (k : BitVec 5),
     (Issues { infoS1 w d 1 1 with imm := true, immhi := true } s c t → WritesS c t d.toNat [(c.hints.value.getD (x.signExtend 32))] (exec (.sli w d x) s)) ∧
     (Issues { infoS1 w d 1 1 with imm := true, immhi := true } s c t → WritesS c t d.toNat [c.rs d.toNat + (c.hints.value.getD (x.signExtend 32))] (exec (.saddi w d x) s)) ∧
     (Issues { infoS1 w d 1 1 with imm := true, immhi := true } s c t → WritesS c t d.toNat [c.rs d.toNat &&& (c.hints.value.getD (x.setWidth 32))] (exec (.sandi w d x) s)) ∧
     (Issues { infoS1 w d 1 1 with imm := true, immhi := true } s c t → WritesS c t d.toNat [c.rs d.toNat ||| (c.hints.value.getD (x.setWidth 32))] (exec (.sori w d x) s)) ∧
     (Issues { infoS1 w d 1 1 with imm := true, immhi := true } s c t → WritesS c t d.toNat [c.rs d.toNat ^^^ (c.hints.value.getD (x.setWidth 32))] (exec (.sxori w d x) s)) ∧
     (Issues { infoS1 w d 1 1 with imm := true, immhi := true } s c t → WritesS c t d.toNat [c.rs d.toNat * (c.hints.value.getD (x.signExtend 32))] (exec (.smuli w d x) s)) ∧
     (Issues (infoS1 w d 1 1) s c t → WritesS c t d.toNat [c.rs d.toNat <<< (k.toNat % 32)] (exec (.sshli w d k) s)) ∧
     (Issues (infoS1 w d 1 1) s c t → WritesS c t d.toNat [c.rs d.toNat >>> (k.toNat % 32)] (exec (.sshri w d k) s)) ∧
     (Issues (infoS1 w d 1 1) s c t → WritesS c t d.toNat [(c.rs d.toNat).sshiftRight (k.toNat % 32)] (exec (.ssrai w d k) s)) ∧
     (Issues (infoS2 w d a 2) s c t → WritesS c t d.toNat [(c.rs2 d.toNat + c.rs2 a.toNat).setWidth 32, (c.rs2 d.toNat + c.rs2 a.toNat).extractLsb' 32 32] (exec (.sadd64 w d a) s)) ∧
     (Issues (infoS2 w d a 2) s c t → WritesS c t d.toNat [(c.rs2 d.toNat - c.rs2 a.toNat).setWidth 32, (c.rs2 d.toNat - c.rs2 a.toNat).extractLsb' 32 32] (exec (.ssub64 w d a) s)))

/-- `sget`, `sfromv`, `stov`, `segget`, `tmask`, `tcause`, `clock` and `cycles` (R18, R75, R110, R111, R425, R428, R433): what each reads; a mod hint with CLR clears the TSR of the active threads after the read of it. -/
def Obligations.SystemReadResults : Prop :=
  ∀ (s t : State) (c : Ctx) (w : BitVec 1) (d n : BitVec 10) (a : BitVec 7) (p : BitVec 3),
    (n.toNat ≠ 16 → Issues (infoS1 w d 1 1) s c t → WritesS c t d.toNat [BitVec.ofNat 32 (t.sysValue c n.toNat)] (exec (.sget w d n) s)) ∧
    (Issues ((infoS1 w d 1 1).allow modCLR) s c t → c.hints.clr = false → WritesS c t d.toNat [c.tsrs] (exec (.sget w d 16) s)) ∧
    (Issues ((infoS1 w d 1 1).allow modCLR) s c t → c.hints.clr = true → ∃ u G, exec (.sget w d 16) s = .next u ∧ OneGroup c t u G ∧ (∀ l, c.has l = true → (G.lane l).tsr = 0 ∧ (G.lane l).pc = c.pc + 4 ∧ (G.lane l).v = (c.G.lane l).v) ∧ (∀ k, G.s.get k 0 = if k = d.toNat ∧ c.keepsS k = false then c.tsrs else c.G.s.get k 0)) ∧
    (Issues { w := flag1 w, regs := [.s d.toNat 1 1, .v a.toNat 1 1] } s c t → c.mask ≠ 0 → WritesS c t d.toNat [c.rv c.low a.toNat] (exec (.sfromv w d a) s)) ∧
    (Issues { w := flag1 w, regs := [.v a.toNat 1 1, .s d.toNat 1 1] } s c t → WritesV c t a.toNat (fun _ => (c.rs d.toNat, 0)) (exec (.stov w a d) s)) ∧
    (Issues (infoS1 w d 4 4).bare s c t → WritesS c t d.toNat ((List.range 4).map fun k => (if p = 4 then c.G.code c.h else c.G.segment p.toNat).extractLsb' (32 * k) 32) (exec (.segget w p d) s)) ∧
    (Issues { (infoS1 w d 1 1).bare with handler := true } s c t → WritesS c t d.toNat [c.G.served.mask] (exec (.tmask w d) s)) ∧
    (Issues { (infoS1 w d 2 2).bare with handler := true } s c t → WritesS c t d.toNat [c.G.served.cause, c.G.served.fpc] (exec (.tcause w d) s)) ∧
    (Issues (infoS1 w d 2 2).bare s c t → WritesS c t d.toNat [BitVec.ofNat 32 t.now, BitVec.ofNat 32 (t.now / 2 ^ 32)] (exec (.clock w d) s)) ∧
    (Issues (infoS1 w d 2 2).bare s c t → WritesS c t d.toNat [BitVec.ofNat 32 ((t.die (dieOf c.G.core)).cyc / 1000), BitVec.ofNat 32 ((t.die (dieOf c.G.core)).cyc / 1000 / 2 ^ 32)] (exec (.cycles w d) s))

/-- `bbind` and `segset` write a buffer record and a segment register that pass their checks; with a reserved value they trap with the record detail and the old one stays (R112, R120, R232, R428). -/
def Obligations.RecordAndSegmentWrites : Prop :=
  ∀ (s t : State) (c : Ctx) (w : BitVec 1) (d : BitVec 10) (x : BitVec 4) (p : BitVec 3),
    (Issues (infoS1 w d 4 4) s c t → recOk (c.rs4 d.toNat) = true → Changes c t { c.G with b := c.G.b.put x.toNat (c.rs4 d.toNat) } (exec (.bbind w d x) s)) ∧
    (Issues (infoS1 w d 4 4) s c t → recOk (c.rs4 d.toNat) = false → exec (.bbind w d x) s = .next (t.trapAt c 1 6)) ∧
    (Issues { (infoS1 w d 4 4).bare with priv := true } s c t → segOk p.toNat (c.rs4 d.toNat) = true → Changes c t { c.G with seg := c.G.seg.put p.toNat (segNorm (c.rs4 d.toNat)) } (exec (.segset w p d) s)) ∧
    (Issues { (infoS1 w d 4 4).bare with priv := true } s c t → segOk p.toNat (c.rs4 d.toNat) = false → exec (.segset w p d) s = .next (t.trapAt c 1 6))

/-- Branches and calls (R114, R115): a thread that takes the branch goes to PC + 4 × off21, the others to the next word; `call` saves the address of the next word in LK, `ret` goes to LK with bits 1:0 cleared, and `jri` to a uniform register, whose low bits must be 0. -/
def Obligations.BranchTargets : Prop :=
  ∀ (s t : State) (c : Ctx) (w : BitVec 1) (p : BitVec 3) (o : BitVec 21) (a : BitVec 10),
    (Issues (infoNone w).bare s c t → GoesTo c (if (if c.mask = 0 then c.pred 0 p.toNat else (lanesOf c.mask).any fun l => c.pred l p.toNat) = true then t.noteLoop c (c.pc + (o.signExtend 32) <<< 2) else t) (fun l x => if c.pred l p.toNat then c.pc + (o.signExtend 32) <<< 2 else x.pc + 4) (exec (.bp w p o) s)) ∧
    (Issues (infoNone w).bare s c t → GoesTo c (if (if c.mask = 0 then !c.pred 0 p.toNat else (lanesOf c.mask).any fun l => !c.pred l p.toNat) = true then t.noteLoop c (c.pc + (o.signExtend 32) <<< 2) else t) (fun l x => if !c.pred l p.toNat then c.pc + (o.signExtend 32) <<< 2 else x.pc + 4) (exec (.bnp w p o) s)) ∧
    (Issues (infoNone w).bare s c t → GoesTo c (if (if c.mask = 0 then c.G.q.getLsbD p.toNat else (lanesOf c.mask).any fun _ => c.G.q.getLsbD p.toNat) = true then t.noteLoop c (c.pc + (o.signExtend 32) <<< 2) else t) (fun _ x => if c.G.q.getLsbD p.toNat then c.pc + (o.signExtend 32) <<< 2 else x.pc + 4) (exec (.bq w p o) s)) ∧
    (Issues (infoNone w).bare s c t → GoesTo c (if (if c.mask = 0 then !c.G.q.getLsbD p.toNat else (lanesOf c.mask).any fun _ => !c.G.q.getLsbD p.toNat) = true then t.noteLoop c (c.pc + (o.signExtend 32) <<< 2) else t) (fun _ x => if !c.G.q.getLsbD p.toNat then c.pc + (o.signExtend 32) <<< 2 else x.pc + 4) (exec (.bnq w p o) s)) ∧
    (Issues (infoNone w).bare s c t → GoesTo c (t.noteLoop c (c.pc + (o.signExtend 32) <<< 2)) (fun _ _ => c.pc + (o.signExtend 32) <<< 2) (exec (.br w o) s)) ∧
    (Issues (infoNone w).bare s c t → ∃ u G, exec (.call w o) s = .next u ∧ OneGroup c (t.noteLoop c (c.pc + (o.signExtend 32) <<< 2)) u G ∧ G = { c.G with lanes := G.lanes, hnd := c.handlerAt fun _ => c.pc + (o.signExtend 32) <<< 2 } ∧ Lanes c G fun _ x => { x.at_ (c.pc + (o.signExtend 32) <<< 2) with lk := c.pc + 4 }) ∧
    (Issues (infoNone w).bare s c t → c.mask ≠ 0 → GoesTo c t (fun _ x => x.lk &&& ~~~3) (exec (.ret w) s)) ∧
    (Issues (infoS1 w a 1 1).bare s c t → c.rs a.toNat &&& 3 = 0 → GoesTo c t (fun _ _ => c.rs a.toNat) (exec (.jri w a) s)) ∧
    (Issues (infoS1 w a 1 1).bare s c t → c.rs a.toNat &&& 3 ≠ 0 → exec (.jri w a) s = .next (t.trapAt c 1 1)) ∧
    (decode 0x5A80A000 = some (.jri 0 20))

/-- The hint words (R28 to R30, R417): each records its payload with its address and moves the path past itself; `safe` stops its path once pre-emption has been requested, and traps where its register count is above the held range. -/
def Obligations.HintWords : Prop :=
  ∀ (s t : State) (c : Ctx) (w : BitVec 1) (i : BitVec 24) (x : BitVec 8) (l k : BitVec 1) (f : BitVec 7) (p : BitVec 3) (r : BitVec 2) (y : BitVec 1) (o : BitVec 2) (q : BitVec 4) (j e : BitVec 1) (n : BitVec 10) (v : BitVec 7),
    (IssuesWord (flag1 w) s c t → Hinted c t (fun h => { h with imm := some (c.pc, i) }) (exec (.imm w i) s)) ∧
    (IssuesWord (flag1 w) s c t → Hinted c t (fun h => { h with immhi := some (c.pc, x.setWidth 24) }) (exec (.immhi w x) s)) ∧
    (IssuesWord (flag1 w) s c t → Hinted c t (fun h => { h with modh := some (c.pc, modPayload l k f p r y o q) }) (exec (.modh w l k f p r y o q) s)) ∧
    (IssuesWord (flag1 w) s c t → Hinted c t (fun h => { h with nop := some (c.pc, 0) }) (exec (.nop w) s)) ∧
    (IssuesWord true s c t → (v = 127 ∨ v.toNat ≤ c.G.held) → t.stopping c.G.team = false → Hinted c t id (exec (.safe w j e n v) s)) ∧
    (IssuesWord true s c t → c.mask ≠ 0 → (v = 127 ∨ v.toNat ≤ c.G.held) → t.stopping c.G.team = true → ∃ u G, exec (.safe w j e n v) s = .next u ∧ OneGroup c t u G ∧ Lanes c G fun _ x => { x with st := .stopped, pc := c.pc + 4 }) ∧
    (IssuesWord true s c t → ¬(v = 127 ∨ v.toNat ≤ c.G.held) → exec (.safe w j e n v) s = .next (t.hintTrap c))

/-- The loads of a thread (R122, R124, R275, R288, R290): the access of every active lane stands in the order, its destination is pending, and the path goes on. Here no lane faults or traps, no byte lies in the peer window, and the group is not attached where the load has C. -/
def Obligations.ThreadLoads : Prop :=
  ∀ (s t : State) (c : Ctx) (w : BitVec 1) (d i : BitVec 7) (b : BitVec 4) (cf ro ef na : BitVec 1),
    (let q : Asked := { kind := .load, record := c.G.bufRec b.toNat, width := 1, want := .read, idx := c.indices i.toNat, sext := false, acq := ordScope c (c.G.bufRec b.toNat) [1], dst := some (.v d.toNat 1), cload := flag1 cf }
     Issues { w := flag1 w, var := true, imm := true, mods := modSCP ||| modORD ||| modLC3, ords := [0, 1], regs := [.v d.toNat 1 1, .v i.toNat 1 1] } s c t → ¬(cf = 1 ∧ c.G.cvm.state = 1) → (q.plan c t).goes q.record → (q.plan c t).peer = false →
       Sends c t q (exec (.ldb w d i b cf ro ef na) s)) ∧
    (let q : Asked := { kind := .load, record := c.G.bufRec b.toNat, width := 1, want := .read, idx := c.indices i.toNat, sext := true, acq := ordScope c (c.G.bufRec b.toNat) [1], dst := some (.v d.toNat 1), cload := flag1 cf }
     Issues { w := flag1 w, var := true, imm := true, mods := modSCP ||| modORD ||| modLC3, ords := [0, 1], regs := [.v d.toNat 1 1, .v i.toNat 1 1] } s c t → ¬(cf = 1 ∧ c.G.cvm.state = 1) → (q.plan c t).goes q.record → (q.plan c t).peer = false →
       Sends c t q (exec (.ldbs w d i b cf ro ef na) s)) ∧
    (let q : Asked := { kind := .load, record := c.G.bufRec b.toNat, width := 2, want := .read, idx := c.indices i.toNat, sext := false, acq := ordScope c (c.G.bufRec b.toNat) [1], dst := some (.v d.toNat 1), cload := flag1 cf }
     Issues { w := flag1 w, var := true, imm := true, mods := modSCP ||| modORD ||| modLC3, ords := [0, 1], regs := [.v d.toNat 1 1, .v i.toNat 1 1] } s c t → ¬(cf = 1 ∧ c.G.cvm.state = 1) → (q.plan c t).goes q.record → (q.plan c t).peer = false →
       Sends c t q (exec (.ldh w d i b cf ro ef na) s)) ∧
    (let q : Asked := { kind := .load, record := c.G.bufRec b.toNat, width := 2, want := .read, idx := c.indices i.toNat, sext := true, acq := ordScope c (c.G.bufRec b.toNat) [1], dst := some (.v d.toNat 1), cload := flag1 cf }
     Issues { w := flag1 w, var := true, imm := true, mods := modSCP ||| modORD ||| modLC3, ords := [0, 1], regs := [.v d.toNat 1 1, .v i.toNat 1 1] } s c t → ¬(cf = 1 ∧ c.G.cvm.state = 1) → (q.plan c t).goes q.record → (q.plan c t).peer = false →
       Sends c t q (exec (.ldhs w d i b cf ro ef na) s)) ∧
    (let q : Asked := { kind := .load, record := c.G.bufRec b.toNat, width := 4, want := .read, idx := c.indices i.toNat, sext := false, acq := ordScope c (c.G.bufRec b.toNat) [1], dst := some (.v d.toNat 1), cload := flag1 cf }
     Issues { w := flag1 w, var := true, imm := true, mods := modSCP ||| modORD ||| modLC3, ords := [0, 1], regs := [.v d.toNat 1 1, .v i.toNat 1 1] } s c t → ¬(cf = 1 ∧ c.G.cvm.state = 1) → (q.plan c t).goes q.record → (q.plan c t).peer = false →
       Sends c t q (exec (.ldw w d i b cf ro ef na) s)) ∧
    (let q : Asked := { kind := .load, record := c.G.bufRec b.toNat, width := 8, want := .read, idx := c.indices i.toNat, sext := false, acq := ordScope c (c.G.bufRec b.toNat) [1], dst := some (.v d.toNat 2), cload := flag1 cf }
     Issues { w := flag1 w, var := true, imm := true, mods := modSCP ||| modORD ||| modLC3, ords := [0, 1], regs := [.v d.toNat 2 2, .v i.toNat 1 1] } s c t → ¬(cf = 1 ∧ c.G.cvm.state = 1) → (q.plan c t).goes q.record → (q.plan c t).peer = false →
       Sends c t q (exec (.ldd w d i b cf ro ef na) s)) ∧
    (let q : Asked := { kind := .load, record := c.G.bufRec b.toNat, width := 16, want := .read, idx := c.indices i.toNat, sext := false, acq := ordScope c (c.G.bufRec b.toNat) [1], dst := some (.v d.toNat 4), cload := flag1 cf }
     Issues { w := flag1 w, var := true, imm := true, mods := modSCP ||| modORD ||| modLC3, ords := [0, 1], regs := [.v d.toNat 4 4, .v i.toNat 1 1] } s c t → ¬(cf = 1 ∧ c.G.cvm.state = 1) → (q.plan c t).goes q.record → (q.plan c t).peer = false →
       Sends c t q (exec (.ldq w d i b cf ro ef na) s))

/-- The C loads of an attached group (R263, R264): one whose group is not held goes out, and counts a step of its position, which it reports within 128 ticks, if some thread of its path has not been given the step already: the threads that are left behind at the load, because they faulted, trapped or had other recorded hints, are given it. One whose group must be held waits in front of the load, and reports the hold. -/
def Obligations.ConvoyLoads : Prop :=
  ∀ (s t : State) (c : Ctx) (w : BitVec 1) (d i : BitVec 7) (b : BitVec 4) (ro ef na : BitVec 1),
    (let q : Asked := { kind := .load, record := c.G.bufRec b.toNat, width := 1, want := .read, idx := c.indices i.toNat, sext := false, acq := ordScope c (c.G.bufRec b.toNat) [1], dst := some (.v d.toNat 1), cload := true }
     Issues { w := flag1 w, var := true, imm := true, mods := modSCP ||| modORD ||| modLC3, ords := [0, 1], regs := [.v d.toNat 1 1, .v i.toNat 1 1] } s c t → c.G.cvm.state = 1 → t.holds c.G = false → (q.plan c t).goes q.record → (q.plan c t).peer = false →
       ((∃ l, c.has l = true ∧ (c.G.lane l).cstep ≠ some c.pc) →
         ∃ u, Sends c t q (.next u) ∧ exec (.ldb w d i b 1 ro ef na) s = .next { u.updGroup c.g (fun G => G.stepped c.mask c.pc) with cvMsgs := u.cvMsgs ++ [u.mailFrom c.G c.G.cvm.id (some 128) (.step c.g c.G.cvm.id)] }) ∧
       ((∀ l, c.has l = true → (c.G.lane l).cstep = some c.pc) → Sends c t q (exec (.ldb w d i b 1 ro ef na) s))) ∧
    (let q : Asked := { kind := .load, record := c.G.bufRec b.toNat, width := 1, want := .read, idx := c.indices i.toNat, sext := true, acq := ordScope c (c.G.bufRec b.toNat) [1], dst := some (.v d.toNat 1), cload := true }
     Issues { w := flag1 w, var := true, imm := true, mods := modSCP ||| modORD ||| modLC3, ords := [0, 1], regs := [.v d.toNat 1 1, .v i.toNat 1 1] } s c t → c.G.cvm.state = 1 → t.holds c.G = false → (q.plan c t).goes q.record → (q.plan c t).peer = false →
       ((∃ l, c.has l = true ∧ (c.G.lane l).cstep ≠ some c.pc) →
         ∃ u, Sends c t q (.next u) ∧ exec (.ldbs w d i b 1 ro ef na) s = .next { u.updGroup c.g (fun G => G.stepped c.mask c.pc) with cvMsgs := u.cvMsgs ++ [u.mailFrom c.G c.G.cvm.id (some 128) (.step c.g c.G.cvm.id)] }) ∧
       ((∀ l, c.has l = true → (c.G.lane l).cstep = some c.pc) → Sends c t q (exec (.ldbs w d i b 1 ro ef na) s))) ∧
    (let q : Asked := { kind := .load, record := c.G.bufRec b.toNat, width := 2, want := .read, idx := c.indices i.toNat, sext := false, acq := ordScope c (c.G.bufRec b.toNat) [1], dst := some (.v d.toNat 1), cload := true }
     Issues { w := flag1 w, var := true, imm := true, mods := modSCP ||| modORD ||| modLC3, ords := [0, 1], regs := [.v d.toNat 1 1, .v i.toNat 1 1] } s c t → c.G.cvm.state = 1 → t.holds c.G = false → (q.plan c t).goes q.record → (q.plan c t).peer = false →
       ((∃ l, c.has l = true ∧ (c.G.lane l).cstep ≠ some c.pc) →
         ∃ u, Sends c t q (.next u) ∧ exec (.ldh w d i b 1 ro ef na) s = .next { u.updGroup c.g (fun G => G.stepped c.mask c.pc) with cvMsgs := u.cvMsgs ++ [u.mailFrom c.G c.G.cvm.id (some 128) (.step c.g c.G.cvm.id)] }) ∧
       ((∀ l, c.has l = true → (c.G.lane l).cstep = some c.pc) → Sends c t q (exec (.ldh w d i b 1 ro ef na) s))) ∧
    (let q : Asked := { kind := .load, record := c.G.bufRec b.toNat, width := 2, want := .read, idx := c.indices i.toNat, sext := true, acq := ordScope c (c.G.bufRec b.toNat) [1], dst := some (.v d.toNat 1), cload := true }
     Issues { w := flag1 w, var := true, imm := true, mods := modSCP ||| modORD ||| modLC3, ords := [0, 1], regs := [.v d.toNat 1 1, .v i.toNat 1 1] } s c t → c.G.cvm.state = 1 → t.holds c.G = false → (q.plan c t).goes q.record → (q.plan c t).peer = false →
       ((∃ l, c.has l = true ∧ (c.G.lane l).cstep ≠ some c.pc) →
         ∃ u, Sends c t q (.next u) ∧ exec (.ldhs w d i b 1 ro ef na) s = .next { u.updGroup c.g (fun G => G.stepped c.mask c.pc) with cvMsgs := u.cvMsgs ++ [u.mailFrom c.G c.G.cvm.id (some 128) (.step c.g c.G.cvm.id)] }) ∧
       ((∀ l, c.has l = true → (c.G.lane l).cstep = some c.pc) → Sends c t q (exec (.ldhs w d i b 1 ro ef na) s))) ∧
    (let q : Asked := { kind := .load, record := c.G.bufRec b.toNat, width := 4, want := .read, idx := c.indices i.toNat, sext := false, acq := ordScope c (c.G.bufRec b.toNat) [1], dst := some (.v d.toNat 1), cload := true }
     Issues { w := flag1 w, var := true, imm := true, mods := modSCP ||| modORD ||| modLC3, ords := [0, 1], regs := [.v d.toNat 1 1, .v i.toNat 1 1] } s c t → c.G.cvm.state = 1 → t.holds c.G = false → (q.plan c t).goes q.record → (q.plan c t).peer = false →
       ((∃ l, c.has l = true ∧ (c.G.lane l).cstep ≠ some c.pc) →
         ∃ u, Sends c t q (.next u) ∧ exec (.ldw w d i b 1 ro ef na) s = .next { u.updGroup c.g (fun G => G.stepped c.mask c.pc) with cvMsgs := u.cvMsgs ++ [u.mailFrom c.G c.G.cvm.id (some 128) (.step c.g c.G.cvm.id)] }) ∧
       ((∀ l, c.has l = true → (c.G.lane l).cstep = some c.pc) → Sends c t q (exec (.ldw w d i b 1 ro ef na) s))) ∧
    (let q : Asked := { kind := .load, record := c.G.bufRec b.toNat, width := 8, want := .read, idx := c.indices i.toNat, sext := false, acq := ordScope c (c.G.bufRec b.toNat) [1], dst := some (.v d.toNat 2), cload := true }
     Issues { w := flag1 w, var := true, imm := true, mods := modSCP ||| modORD ||| modLC3, ords := [0, 1], regs := [.v d.toNat 2 2, .v i.toNat 1 1] } s c t → c.G.cvm.state = 1 → t.holds c.G = false → (q.plan c t).goes q.record → (q.plan c t).peer = false →
       ((∃ l, c.has l = true ∧ (c.G.lane l).cstep ≠ some c.pc) →
         ∃ u, Sends c t q (.next u) ∧ exec (.ldd w d i b 1 ro ef na) s = .next { u.updGroup c.g (fun G => G.stepped c.mask c.pc) with cvMsgs := u.cvMsgs ++ [u.mailFrom c.G c.G.cvm.id (some 128) (.step c.g c.G.cvm.id)] }) ∧
       ((∀ l, c.has l = true → (c.G.lane l).cstep = some c.pc) → Sends c t q (exec (.ldd w d i b 1 ro ef na) s))) ∧
    (let q : Asked := { kind := .load, record := c.G.bufRec b.toNat, width := 16, want := .read, idx := c.indices i.toNat, sext := false, acq := ordScope c (c.G.bufRec b.toNat) [1], dst := some (.v d.toNat 4), cload := true }
     Issues { w := flag1 w, var := true, imm := true, mods := modSCP ||| modORD ||| modLC3, ords := [0, 1], regs := [.v d.toNat 4 4, .v i.toNat 1 1] } s c t → c.G.cvm.state = 1 → t.holds c.G = false → (q.plan c t).goes q.record → (q.plan c t).peer = false →
       ((∃ l, c.has l = true ∧ (c.G.lane l).cstep ≠ some c.pc) →
         ∃ u, Sends c t q (.next u) ∧ exec (.ldq w d i b 1 ro ef na) s = .next { u.updGroup c.g (fun G => G.stepped c.mask c.pc) with cvMsgs := u.cvMsgs ++ [u.mailFrom c.G c.G.cvm.id (some 128) (.step c.g c.G.cvm.id)] }) ∧
       ((∀ l, c.has l = true → (c.G.lane l).cstep = some c.pc) → Sends c t q (exec (.ldq w d i b 1 ro ef na) s))) ∧
    (Issues { w := flag1 w, var := true, imm := true, mods := modSCP ||| modORD ||| modLC3, ords := [0, 1], regs := [.v d.toNat 1 1, .v i.toNat 1 1] } s c t → c.G.cvm.state = 1 → t.holds c.G = true → c.G.cvm.held = false → t.stopping c.G.team = false →
       exec (.ldb w d i b 1 ro ef na) s = .next { t.updGroup c.g (fun G => { G with cvm := { G.cvm with held := true } }) with cvMsgs := t.cvMsgs ++ [t.mailFrom c.G c.G.cvm.id none (.hold c.g c.G.cvm.id)] }) ∧
    (Issues { w := flag1 w, var := true, imm := true, mods := modSCP ||| modORD ||| modLC3, ords := [0, 1], regs := [.v d.toNat 1 1, .v i.toNat 1 1] } s c t → c.G.cvm.state = 1 → t.holds c.G = true → c.G.cvm.held = false → t.stopping c.G.team = false →
       exec (.ldbs w d i b 1 ro ef na) s = .next { t.updGroup c.g (fun G => { G with cvm := { G.cvm with held := true } }) with cvMsgs := t.cvMsgs ++ [t.mailFrom c.G c.G.cvm.id none (.hold c.g c.G.cvm.id)] }) ∧
    (Issues { w := flag1 w, var := true, imm := true, mods := modSCP ||| modORD ||| modLC3, ords := [0, 1], regs := [.v d.toNat 1 1, .v i.toNat 1 1] } s c t → c.G.cvm.state = 1 → t.holds c.G = true → c.G.cvm.held = false → t.stopping c.G.team = false →
       exec (.ldh w d i b 1 ro ef na) s = .next { t.updGroup c.g (fun G => { G with cvm := { G.cvm with held := true } }) with cvMsgs := t.cvMsgs ++ [t.mailFrom c.G c.G.cvm.id none (.hold c.g c.G.cvm.id)] }) ∧
    (Issues { w := flag1 w, var := true, imm := true, mods := modSCP ||| modORD ||| modLC3, ords := [0, 1], regs := [.v d.toNat 1 1, .v i.toNat 1 1] } s c t → c.G.cvm.state = 1 → t.holds c.G = true → c.G.cvm.held = false → t.stopping c.G.team = false →
       exec (.ldhs w d i b 1 ro ef na) s = .next { t.updGroup c.g (fun G => { G with cvm := { G.cvm with held := true } }) with cvMsgs := t.cvMsgs ++ [t.mailFrom c.G c.G.cvm.id none (.hold c.g c.G.cvm.id)] }) ∧
    (Issues { w := flag1 w, var := true, imm := true, mods := modSCP ||| modORD ||| modLC3, ords := [0, 1], regs := [.v d.toNat 1 1, .v i.toNat 1 1] } s c t → c.G.cvm.state = 1 → t.holds c.G = true → c.G.cvm.held = false → t.stopping c.G.team = false →
       exec (.ldw w d i b 1 ro ef na) s = .next { t.updGroup c.g (fun G => { G with cvm := { G.cvm with held := true } }) with cvMsgs := t.cvMsgs ++ [t.mailFrom c.G c.G.cvm.id none (.hold c.g c.G.cvm.id)] }) ∧
    (Issues { w := flag1 w, var := true, imm := true, mods := modSCP ||| modORD ||| modLC3, ords := [0, 1], regs := [.v d.toNat 2 2, .v i.toNat 1 1] } s c t → c.G.cvm.state = 1 → t.holds c.G = true → c.G.cvm.held = false → t.stopping c.G.team = false →
       exec (.ldd w d i b 1 ro ef na) s = .next { t.updGroup c.g (fun G => { G with cvm := { G.cvm with held := true } }) with cvMsgs := t.cvMsgs ++ [t.mailFrom c.G c.G.cvm.id none (.hold c.g c.G.cvm.id)] }) ∧
    (Issues { w := flag1 w, var := true, imm := true, mods := modSCP ||| modORD ||| modLC3, ords := [0, 1], regs := [.v d.toNat 4 4, .v i.toNat 1 1] } s c t → c.G.cvm.state = 1 → t.holds c.G = true → c.G.cvm.held = false → t.stopping c.G.team = false →
       exec (.ldq w d i b 1 ro ef na) s = .next { t.updGroup c.g (fun G => { G with cvm := { G.cvm with held := true } }) with cvMsgs := t.cvMsgs ++ [t.mailFrom c.G c.G.cvm.id none (.hold c.g c.G.cvm.id)] })

/-- The stores of a thread (R122, R124, R275, R279, R288): the store of every active lane, with its bytes, stands in the order behind its release, and the path goes on, or waits for the release; memory does not change yet. Here no lane faults or traps, and no byte lies in the peer window. -/
def Obligations.ThreadStores : Prop :=
  ∀ (s t : State) (c : Ctx) (w : BitVec 1) (d i : BitVec 7) (b : BitVec 4) (ef na : BitVec 1),
    (let q : Asked := { kind := .store, record := c.G.bufRec b.toNat, width := 1, want := .write, idx := c.indices i.toNat, rel := ordScope c (c.G.bufRec b.toNat) [2], data := c.storeData 1 d.toNat }
     Issues { w := flag1 w, imm := true, mods := modSCP ||| modORD, ords := [0, 2], regs := [.v d.toNat 1 1, .v i.toNat 1 1] } s c t → (q.plan c t).goes q.record → (q.plan c t).peer = false →
       Sends c t q (exec (.stb w d i b ef na) s)) ∧
    (let q : Asked := { kind := .store, record := c.G.bufRec b.toNat, width := 2, want := .write, idx := c.indices i.toNat, rel := ordScope c (c.G.bufRec b.toNat) [2], data := c.storeData 2 d.toNat }
     Issues { w := flag1 w, imm := true, mods := modSCP ||| modORD, ords := [0, 2], regs := [.v d.toNat 1 1, .v i.toNat 1 1] } s c t → (q.plan c t).goes q.record → (q.plan c t).peer = false →
       Sends c t q (exec (.sth w d i b ef na) s)) ∧
    (let q : Asked := { kind := .store, record := c.G.bufRec b.toNat, width := 4, want := .write, idx := c.indices i.toNat, rel := ordScope c (c.G.bufRec b.toNat) [2], data := c.storeData 4 d.toNat }
     Issues { w := flag1 w, imm := true, mods := modSCP ||| modORD, ords := [0, 2], regs := [.v d.toNat 1 1, .v i.toNat 1 1] } s c t → (q.plan c t).goes q.record → (q.plan c t).peer = false →
       Sends c t q (exec (.stw w d i b ef na) s)) ∧
    (let q : Asked := { kind := .store, record := c.G.bufRec b.toNat, width := 8, want := .write, idx := c.indices i.toNat, rel := ordScope c (c.G.bufRec b.toNat) [2], data := c.storeData 8 d.toNat }
     Issues { w := flag1 w, imm := true, mods := modSCP ||| modORD, ords := [0, 2], regs := [.v d.toNat 2 2, .v i.toNat 1 1] } s c t → (q.plan c t).goes q.record → (q.plan c t).peer = false →
       Sends c t q (exec (.std w d i b ef na) s)) ∧
    (let q : Asked := { kind := .store, record := c.G.bufRec b.toNat, width := 16, want := .write, idx := c.indices i.toNat, rel := ordScope c (c.G.bufRec b.toNat) [2], data := c.storeData 16 d.toNat }
     Issues { w := flag1 w, imm := true, mods := modSCP ||| modORD, ords := [0, 2], regs := [.v d.toNat 4 4, .v i.toNat 1 1] } s c t → (q.plan c t).goes q.record → (q.plan c t).peer = false →
       Sends c t q (exec (.stq w d i b ef na) s))

/-- The atomics (R294 to R298): the operation of every active lane, of 32 or 64 bits, stands in the order with its operands, its old value is pending, and the path goes on, or waits for its release. Here no lane faults or traps, and no byte lies in the peer window or the operand buffer. -/
def Obligations.AtomicsGoOut : Prop :=
  ∀ (s t : State) (c : Ctx) (w : BitVec 1) (b : BitVec 2) (d i v : BitVec 7),
    let n := if c.hints.wide then 2 else 1
    let I : List (Nat × Int) := (lanesOf c.mask).map fun l => (l, (c.rv l i.toNat).toInt)
    (let q : Asked := { kind := .atomic 0 c.hints.wide, record := c.G.bufRec b.toNat, width := 4 * n, want := .atomic, idx := I, acq := ordScope c (c.G.bufRec b.toNat) [1, 3], rel := ordScope c (c.G.bufRec b.toNat) [2, 3], dst := some (.v d.toNat n), data := (fun l => c.atomWord c.hints.wide l v.toNat), cmp := (fun _ => []) }
     Issues { w := flag1 w, var := true, mods := modSCP ||| modORD ||| modWID, ords := [0, 1, 2, 3], regs := [.v d.toNat n n, .v i.toNat 1 1, .v v.toNat (n) (n)] } s c t → recSpace q.record ≠ 3 → (q.plan c t).goes q.record → (q.plan c t).peer = false →
       Sends c t q (exec (.aadd w b d i v) s)) ∧
    (let q : Asked := { kind := .atomic 1 c.hints.wide, record := c.G.bufRec b.toNat, width := 4 * n, want := .atomic, idx := I, acq := ordScope c (c.G.bufRec b.toNat) [1, 3], rel := ordScope c (c.G.bufRec b.toNat) [2, 3], dst := some (.v d.toNat n), data := (fun l => c.atomWord c.hints.wide l v.toNat), cmp := (fun _ => []) }
     Issues { w := flag1 w, var := true, mods := modSCP ||| modORD ||| modWID, ords := [0, 1, 2, 3], regs := [.v d.toNat n n, .v i.toNat 1 1, .v v.toNat (n) (n)] } s c t → recSpace q.record ≠ 3 → (q.plan c t).goes q.record → (q.plan c t).peer = false →
       Sends c t q (exec (.amin w b d i v) s)) ∧
    (let q : Asked := { kind := .atomic 2 c.hints.wide, record := c.G.bufRec b.toNat, width := 4 * n, want := .atomic, idx := I, acq := ordScope c (c.G.bufRec b.toNat) [1, 3], rel := ordScope c (c.G.bufRec b.toNat) [2, 3], dst := some (.v d.toNat n), data := (fun l => c.atomWord c.hints.wide l v.toNat), cmp := (fun _ => []) }
     Issues { w := flag1 w, var := true, mods := modSCP ||| modORD ||| modWID, ords := [0, 1, 2, 3], regs := [.v d.toNat n n, .v i.toNat 1 1, .v v.toNat (n) (n)] } s c t → recSpace q.record ≠ 3 → (q.plan c t).goes q.record → (q.plan c t).peer = false →
       Sends c t q (exec (.amax w b d i v) s)) ∧
    (let q : Asked := { kind := .atomic 3 c.hints.wide, record := c.G.bufRec b.toNat, width := 4 * n, want := .atomic, idx := I, acq := ordScope c (c.G.bufRec b.toNat) [1, 3], rel := ordScope c (c.G.bufRec b.toNat) [2, 3], dst := some (.v d.toNat n), data := (fun l => c.atomWord c.hints.wide l v.toNat), cmp := (fun _ => []) }
     Issues { w := flag1 w, var := true, mods := modSCP ||| modORD ||| modWID, ords := [0, 1, 2, 3], regs := [.v d.toNat n n, .v i.toNat 1 1, .v v.toNat (n) (n)] } s c t → recSpace q.record ≠ 3 → (q.plan c t).goes q.record → (q.plan c t).peer = false →
       Sends c t q (exec (.aminu w b d i v) s)) ∧
    (let q : Asked := { kind := .atomic 4 c.hints.wide, record := c.G.bufRec b.toNat, width := 4 * n, want := .atomic, idx := I, acq := ordScope c (c.G.bufRec b.toNat) [1, 3], rel := ordScope c (c.G.bufRec b.toNat) [2, 3], dst := some (.v d.toNat n), data := (fun l => c.atomWord c.hints.wide l v.toNat), cmp := (fun _ => []) }
     Issues { w := flag1 w, var := true, mods := modSCP ||| modORD ||| modWID, ords := [0, 1, 2, 3], regs := [.v d.toNat n n, .v i.toNat 1 1, .v v.toNat (n) (n)] } s c t → recSpace q.record ≠ 3 → (q.plan c t).goes q.record → (q.plan c t).peer = false →
       Sends c t q (exec (.amaxu w b d i v) s)) ∧
    (let q : Asked := { kind := .atomic 5 c.hints.wide, record := c.G.bufRec b.toNat, width := 4 * n, want := .atomic, idx := I, acq := ordScope c (c.G.bufRec b.toNat) [1, 3], rel := ordScope c (c.G.bufRec b.toNat) [2, 3], dst := some (.v d.toNat n), data := (fun l => c.atomWord c.hints.wide l v.toNat), cmp := (fun _ => []) }
     Issues { w := flag1 w, var := true, mods := modSCP ||| modORD ||| modWID, ords := [0, 1, 2, 3], regs := [.v d.toNat n n, .v i.toNat 1 1, .v v.toNat (n) (n)] } s c t → recSpace q.record ≠ 3 → (q.plan c t).goes q.record → (q.plan c t).peer = false →
       Sends c t q (exec (.aand w b d i v) s)) ∧
    (let q : Asked := { kind := .atomic 6 c.hints.wide, record := c.G.bufRec b.toNat, width := 4 * n, want := .atomic, idx := I, acq := ordScope c (c.G.bufRec b.toNat) [1, 3], rel := ordScope c (c.G.bufRec b.toNat) [2, 3], dst := some (.v d.toNat n), data := (fun l => c.atomWord c.hints.wide l v.toNat), cmp := (fun _ => []) }
     Issues { w := flag1 w, var := true, mods := modSCP ||| modORD ||| modWID, ords := [0, 1, 2, 3], regs := [.v d.toNat n n, .v i.toNat 1 1, .v v.toNat (n) (n)] } s c t → recSpace q.record ≠ 3 → (q.plan c t).goes q.record → (q.plan c t).peer = false →
       Sends c t q (exec (.aor w b d i v) s)) ∧
    (let q : Asked := { kind := .atomic 7 c.hints.wide, record := c.G.bufRec b.toNat, width := 4 * n, want := .atomic, idx := I, acq := ordScope c (c.G.bufRec b.toNat) [1, 3], rel := ordScope c (c.G.bufRec b.toNat) [2, 3], dst := some (.v d.toNat n), data := (fun l => c.atomWord c.hints.wide l v.toNat), cmp := (fun _ => []) }
     Issues { w := flag1 w, var := true, mods := modSCP ||| modORD ||| modWID, ords := [0, 1, 2, 3], regs := [.v d.toNat n n, .v i.toNat 1 1, .v v.toNat (n) (n)] } s c t → recSpace q.record ≠ 3 → (q.plan c t).goes q.record → (q.plan c t).peer = false →
       Sends c t q (exec (.axor w b d i v) s)) ∧
    (let q : Asked := { kind := .atomic 8 c.hints.wide, record := c.G.bufRec b.toNat, width := 4 * n, want := .atomic, idx := I, acq := ordScope c (c.G.bufRec b.toNat) [1, 3], rel := ordScope c (c.G.bufRec b.toNat) [2, 3], dst := some (.v d.toNat n), data := (fun l => c.atomWord c.hints.wide l v.toNat), cmp := (fun _ => []) }
     Issues { w := flag1 w, var := true, mods := modSCP ||| modORD ||| modWID, ords := [0, 1, 2, 3], regs := [.v d.toNat n n, .v i.toNat 1 1, .v v.toNat (n) (n)] } s c t → recSpace q.record ≠ 3 → (q.plan c t).goes q.record → (q.plan c t).peer = false →
       Sends c t q (exec (.axchg w b d i v) s)) ∧
    (let q : Asked := { kind := .atomic 9 c.hints.wide, record := c.G.bufRec b.toNat, width := 4 * n, want := .atomic, idx := I, acq := ordScope c (c.G.bufRec b.toNat) [1, 3], rel := ordScope c (c.G.bufRec b.toNat) [2, 3], dst := some (.v d.toNat n), data := (fun l => c.atomWord c.hints.wide l (v.toNat + n)), cmp := (fun l => c.atomWord c.hints.wide l v.toNat) }
     Issues { w := flag1 w, var := true, mods := modSCP ||| modORD ||| modWID, ords := [0, 1, 2, 3], regs := [.v d.toNat n n, .v i.toNat 1 1, .v v.toNat (2 * n) (2 * n)] } s c t → recSpace q.record ≠ 3 → (q.plan c t).goes q.record → (q.plan c t).peer = false →
       Sends c t q (exec (.acas w b d i v) s)) ∧
    (let q : Asked := { kind := .atomic 10 c.hints.wide, record := c.G.bufRec b.toNat, width := 4 * n, want := .atomic, idx := I, acq := ordScope c (c.G.bufRec b.toNat) [1, 3], rel := ordScope c (c.G.bufRec b.toNat) [2, 3], dst := some (.v d.toNat n), data := (fun l => c.atomWord c.hints.wide l v.toNat), cmp := (fun _ => []) }
     Issues { w := flag1 w, var := true, mods := modSCP ||| modORD ||| 0, ords := [0, 1, 2, 3], regs := [.v d.toNat n n, .v i.toNat 1 1, .v v.toNat (n) (n)] } s c t → recSpace q.record ≠ 3 → (q.plan c t).goes q.record → (q.plan c t).peer = false →
       Sends c t q (exec (.afadd w b d i v) s)) ∧
    (let q : Asked := { kind := .atomic 11 c.hints.wide, record := c.G.bufRec b.toNat, width := 4 * n, want := .atomic, idx := I, acq := ordScope c (c.G.bufRec b.toNat) [1, 3], rel := ordScope c (c.G.bufRec b.toNat) [2, 3], dst := some (.v d.toNat n), data := (fun l => c.atomWord c.hints.wide l v.toNat), cmp := (fun _ => []) }
     Issues { w := flag1 w, var := true, mods := modSCP ||| modORD ||| 0, ords := [0, 1, 2, 3], regs := [.v d.toNat n n, .v i.toNat 1 1, .v v.toNat (n) (n)] } s c t → recSpace q.record ≠ 3 → (q.plan c t).goes q.record → (q.plan c t).peer = false →
       Sends c t q (exec (.amaxpk w b d i v) s)) ∧
    (let q : Asked := { kind := .atomic 12 c.hints.wide, record := c.G.bufRec b.toNat, width := 4 * n, want := .atomic, idx := I, acq := ordScope c (c.G.bufRec b.toNat) [1, 3], rel := ordScope c (c.G.bufRec b.toNat) [2, 3], dst := some (.v d.toNat n), data := (fun l => c.atomWord c.hints.wide l v.toNat), cmp := (fun _ => []) }
     Issues { w := flag1 w, var := true, mods := modSCP ||| modORD ||| 0, ords := [0, 1, 2, 3], regs := [.v d.toNat n n, .v i.toNat 1 1, .v v.toNat (n) (n)] } s c t → recSpace q.record ≠ 3 → (q.plan c t).goes q.record → (q.plan c t).peer = false →
       Sends c t q (exec (.ahadd2 w b d i v) s))

/-- `sld` and `sst` (R130, R293): one access for the whole path, of four bytes, at the index that the word or its imm hint gives. -/
def Obligations.UniformAccesses : Prop :=
  ∀ (s t : State) (c : Ctx) (w : BitVec 1) (d : BitVec 10) (b : BitVec 4) (x : BitVec 8),
    (let q : Asked := { kind := .load, record := c.G.bufRec b.toNat, width := 4, want := .read, idx := c.uniIndex x, uniform := true, dst := some (.s d.toNat 1) }
     Issues { w := flag1 w, var := true, imm := true, regs := [.s d.toNat 1 1] } s c t → (q.plan c t).goes q.record → (q.plan c t).peer = false →
       Sends c t q (exec (.sld w d b x) s)) ∧
    (let q : Asked := { kind := .store, record := c.G.bufRec b.toNat, width := 4, want := .write, idx := c.uniIndex x, uniform := true, data := fun _ => leBytes 4 (c.rs d.toNat).toNat }
     Issues { w := flag1 w, imm := true, regs := [.s d.toNat 1 1] } s c t → (q.plan c t).goes q.record → (q.plan c t).peer = false →
       Sends c t q (exec (.sst w d b x) s))

/-- Rejoin masks (R161, R163, R212, R213): a mask takes the word, the union or the difference, less the threads that have exited; `join` parks the threads of its path that the mask names, and the others pass; once all that the mask names have arrived they go on past their joins. -/
def Obligations.RejoinMasks : Prop :=
  ∀ (s t : State) (c : Ctx) (w : BitVec 1) (j : BitVec 3) (a : BitVec 10),
    (Issues (infoS1 w a 1 1).bare s c t → Rejoins c t j.toNat ((c.rs a.toNat) &&& c.G.liveMask) (c.G.arr.get j.toNat 0) (exec (.jset w j a) s)) ∧
    (Issues (infoS1 w a 1 1).bare s c t → Rejoins c t j.toNat ((c.G.j.get j.toNat 0 ||| c.rs a.toNat) &&& c.G.liveMask) (c.G.arr.get j.toNat 0) (exec (.jadd w j a) s)) ∧
    (Issues (infoS1 w a 1 1).bare s c t → Rejoins c t j.toNat ((c.G.j.get j.toNat 0 &&& ~~~(c.rs a.toNat)) &&& c.G.liveMask) (c.G.arr.get j.toNat 0) (exec (.jclr w j a) s)) ∧
    (Issues (infoNone w).bare s c t → Rejoins c t j.toNat ((c.mask) &&& c.G.liveMask) (c.G.arr.get j.toNat 0) (exec (.jsetAct w j) s)) ∧
    (Issues (infoNone w).bare s c t → Rejoins c t j.toNat ((c.G.j.get j.toNat 0 ||| c.mask) &&& c.G.liveMask) (c.G.arr.get j.toNat 0) (exec (.jaddAct w j) s)) ∧
    (Issues (infoNone w).bare s c t → Rejoins c t j.toNat ((c.G.j.get j.toNat 0 &&& ~~~c.mask) &&& c.G.liveMask) (c.G.arr.get j.toNat 0) (exec (.jclrAct w j) s)) ∧
    (Issues (infoNone w).bare.block s c t →
       let m := c.G.j.get j.toNat 0
       let A := c.G.arr.get j.toNat 0 ||| (c.mask &&& m)
       ∃ u G, exec (.join w j) s = .next u ∧ OneGroup c t u G ∧
         G = { c.G with
           lanes := G.lanes
           hnd := c.handlerAt (· + 4)
           arr := SMap.put c.G.arr j.toNat (if rejoined m A then 0 else A) } ∧
         ∀ l, G.lane l = if c.has l then
             (if m.getLsbD l = true ∧ rejoined m A = false then { (c.G.lane l).at_ c.pc with st := .join j.toNat c.pc } else (c.G.lane l).at_ (c.pc + 4))
           else if rejoined m A ∧ A.getLsbD l then (c.G.lane l).passes j.toNat else c.G.lane l)

/-- What blocks its path (R156, R194 to R197, R214 to R220, R260, R300, R301, R303, R430): `barw`, `barx`, `tgwa`, `tgwl`, `rbacq`, `cvjoin`, `fence`, `tlbinv` and `wait`, where their operands pass their checks: each path stops at its instruction until its condition is met, and what it asks of another party is on its way. -/
def Obligations.BlockingInstructions : Prop :=
  ∀ (s t : State) (c : Ctx) (w : BitVec 1) (b : BitVec 5) (a d : BitVec 10) (n : BitVec 3) (p : BitVec 4) (k n2 : BitVec 2) (e : BitVec 7) (al : BitVec 1),
    (Issues (infoS1 w a 1 1).bare.block s c t → Blocks c t (.barw b.toNat ((c.rs a.toNat).getLsbD 0)) (match t.team? c.G.team with | some T => if (t.bar T b.toNat).phase = (c.rs a.toNat).getLsbD 0 then some ⟨0, 0, false⟩ else none | none => none) (exec (.barw w b a) s)) ∧
    (Issues (infoS1 w a 1 1).bare.block s c t → (c.rs a.toNat).toNat < 65536 → c.G.quiet c.mask t.now = true → ∃ u v, Blocks c t (.barx b.toNat) none (.next u) ∧ Arrives u v c.G.team b.toNat (c.rs a.toNat).toNat ∧ exec (.barx w b a) s = .next v) ∧
    (Issues (infoTag w a).block s c t → t.tagsOk c.G (c.rs2 a.toNat) = true → c.rs2 a.toNat ≠ 0 → Blocks c t (.tag (c.rs2 a.toNat) false) (if (t.core c.G.core).tags &&& c.rs2 a.toNat ≠ 0 then some ⟨0, tagTimes (t.core c.G.core) ((t.core c.G.core).tags &&& c.rs2 a.toNat), (t.core c.G.core).tags &&& c.rs2 a.toNat &&& (t.core c.G.core).terr != 0⟩ else none) (exec (.tgwa w a) s)) ∧
    (Issues (infoTag w a).block s c t → t.tagsOk c.G (c.rs2 a.toNat) = true → Blocks c t (.tag (c.rs2 a.toNat) true) (if (t.core c.G.core).tags &&& c.rs2 a.toNat = c.rs2 a.toNat then some ⟨0, tagTimes (t.core c.G.core) ((t.core c.G.core).tags &&& c.rs2 a.toNat), (t.core c.G.core).tags &&& c.rs2 a.toNat &&& (t.core c.G.core).terr != 0⟩ else none) (exec (.tgwl w a) s)) ∧
    (Issues (infoNone w).bare.block s c t → c.G.ext = 0 → c.G.rbReq = false → n.toNat ≤ (match (t.team? c.G.team).bind t.recOf with | some r => r.budgetOf c.G.idx | none => 0) →
       let C : Ctx := { c with G := { c.G with rbReq := true } }
       Blocks C ((t.updGroup c.g fun _ => C.G).updPart c.G.core c.G.part fun p => { p with rbq := p.rbq ++ [(c.g, n.toNat)] }) (.rbacq n.toNat) none (exec (.rbacq w n) s)) ∧
    (Issues (infoS1 w a 4 4).bare.block s c t → c.G.cvm.state ≠ 1 → c.G.joinDesc = none →
       let C : Ctx := { c with G := { c.G with joinDesc := some (c.rsn a.toNat 4) } }
       ∀ D, cvDesc (c.rsn a.toNat 4) = some D →
       Blocks C { t.updGroup c.g (fun _ => C.G) with cvMsgs := t.cvMsgs ++ [t.mailFrom c.G (256 * marshalDie D.1) none (.joinReq c.g)] } .cvjoin none (exec (.cvjoin w a) s)) ∧
    (Issues (infoNone w).bare s c t → Blocks (c.adds [fenceAcc t.uid c (.release p.toNat)]) (t.adds c [fenceAcc t.uid c (.release p.toNat)]) (.fence t.uid 0) none (exec (.fence w p 2) s)) ∧
    (Issues (infoNone w).bare s c t → Blocks (c.adds [fenceAcc t.uid c (.acquire p.toNat)]) (t.adds c [fenceAcc t.uid c (.acquire p.toNat)]) (.fence t.uid 0) none (exec (.fence w p 1) s)) ∧
    (k ≠ 1 → k ≠ 2 → Issues (infoNone w).bare s c t →
       let as := [fenceAcc t.uid c (.release p.toNat), fenceAcc (t.uid + 1) c (.acquire p.toNat)]
       Blocks (c.adds as) (t.adds c as) (.fence (t.uid + 1) 0) none (exec (.fence w p k) s)) ∧
    (Issues { (infoS1 w a 4 4).bare.block with priv := true } s c t →
       let x := fun i => (c.rs (a.toNat + i)).toNat
       let page := (x 1 * 2 ^ 32 + x 0) / 4096
       x 0 % 4096 = 0 → x 1 < 65536 → x 3 < 64 → (t.vf (x 3)).en = true → page + x 2 ≤ 2 ^ 36 →
       let C : Ctx := { c with G := if c.G.vf = x 3 then { c.G with blk := c.G.blk.map fun k => k.unread fun y => y.inPages page (x 2) } else c.G }
       Blocks C (t.shoot (x 3) page (x 2)) (.tlbinv t.uid) none (exec (.tlbinv w a) s)) ∧
    (Issues { w := flag1 w, var := true, blocking := true, noHint := true, regs := [.s d.toNat 1 1, .s (8 * e.toNat) (2 * (n2.toNat + 1)) 1] } s c t →
       let ab := (List.range (n2.toNat + 1)).map fun k => (c.rs (8 * e.toNat + 2 * k), c.rs (8 * e.toNat + 2 * k + 1))
       ∀ ks, (ab.map fun x => t.condOf c.G x.1 x.2).mapM id = some ks →
       let p := (ab.zip ks).foldl (fun p x => Placed.add p c x.1.1 x.2) ⟨t, [], [], false⟩
       p.stop = false →
       ∃ u, Blocks c p.st (.wait d.toNat p.cs (flag1 al) (c.rs d.toNat).toNat (t.now + (c.rs d.toNat).toNat)) none (.next u) ∧
         exec (.wait w d e n2 al) s = .next (((p.cs.zip p.secs).zipIdx).foldl (fun u y => u.sendPoll c.g c.G p.st.uid y.2 y.1.1.poll y.1.2) u).wake)

/-- What completes at once among the synchronization and system instructions (R168, R199, R216 to R222, R267, R270, R304, R305, R318, R429, R431, R432, R512): `bara`, `tgclr`, `tgff`, `rbrel`, `yield`, `cvleave`, `cvget`, `pctr`, `icinv`, `isync` and `ctxsw`, where their operands pass their checks. -/
def Obligations.SynchronizationResults : Prop :=
  ∀ (s t : State) (c : Ctx) (w : BitVec 1) (b : BitVec 5) (a d : BitVec 10),
    (Issues (infoS1 w a 1 1).bare s c t → (c.rs a.toNat).toNat < 65536 → c.G.quiet c.mask t.now = true → ∃ u G, Arrives t u c.G.team b.toNat (c.rs a.toNat).toNat ∧ u.group? c.g = some G ∧ Changes { c with G := G } u G (exec (.bara w b a) s)) ∧
    (Issues (infoTag w a) s c t → t.tagsOk c.G (c.rs2 a.toNat) = true → Changes c (t.updCore c.G.core fun k => { k with tags := k.tags &&& ~~~(c.rs2 a.toNat), terr := k.terr &&& ~~~(c.rs2 a.toNat) }) c.G (exec (.tgclr w a) s)) ∧
    (Issues { w := flag1 w, var := true, noHint := true, regs := [.s d.toNat 1 1, .s a.toNat 2 2] } s c t → t.tagsOk c.G (c.rs2 a.toNat) = true → Starts c t (.s d.toNat 1) [⟨0, [lowestTag ((t.core c.G.core).tags &&& c.rs2 a.toNat)], 0, false⟩] (exec (.tgff w d a) s)) ∧
    (Issues (infoNone w).bare s c t → (c.G.pend.any fun p => match p.dst with | .v b n => decide (b + n > 32) | .s _ _ => false) = false →
       let C : Ctx := { c with G := { c.G with
         ext := 0
         lanes := c.G.lanes.map fun x => (x.1, { x.2 with v := x.2.v.filter (·.1 < 32) }) } }
       Changes C ((t.updPart c.G.core c.G.part fun p => { p with pool := p.pool + c.G.ext }).updGroup c.g fun _ => C.G) C.G (exec (.rbrel w) s)) ∧
    (Issues (infoNone w).bare s c t → Changes c t { c.G with run := 64, skip := true } (exec (.yield w) s)) ∧
    (Issues (infoNone w).bare s c t →
       (c.G.cvm.state = 1 → let C : Group := { c.G with
            cvm := { c.G.cvm with
              state := 2
              cause := 3
              held := false }
            cvAt := t.now }
          ∃ u G, Woken { t.updGroup c.g (fun _ => C) with cvMsgs := t.cvMsgs ++ [t.mailFrom c.G c.G.cvm.id (some 128) (.leave c.g c.G.cvm.id)] } u ∧ u.group? c.g = some G ∧ Looked C G ∧ Changes { c with G := G } u G (exec (.cvleave w) s)) ∧
       (c.G.cvm.state = 2 → c.G.cvAt = t.now → c.G.cvm.cause < 3 → let C : Group := { c.G with cvm := { c.G.cvm with cause := 3 } }
          ∃ u G, Woken (t.updGroup c.g (fun _ => C)) u ∧ u.group? c.g = some G ∧ Looked C G ∧ Changes { c with G := G } u G (exec (.cvleave w) s)) ∧
       (c.G.cvm.state ≠ 1 → (c.G.cvm.state = 2 → c.G.cvAt = t.now → 3 ≤ c.G.cvm.cause) →
          ∃ u G, Woken t u ∧ u.group? c.g = some G ∧ Looked c.G G ∧ Changes { c with G := G } u G (exec (.cvleave w) s))) ∧
    (Issues (infoS1 w d 2 1).bare.late s c t → Starts c t (.s d.toNat 2) [⟨0, [BitVec.ofNat 32 (c.G.cvm.pos % 65536 * 65536 + c.G.cvm.id * 64 + c.G.cvm.index), BitVec.ofNat 32 (c.G.cvm.rcode * 128 + c.G.cvm.rej.toNat * 64 + c.G.cvm.cause * 4 + c.G.cvm.state)], 0, false⟩] (exec (.cvget w d) s)) ∧
    (Issues { (infoS1 w d 1 1).bare with var := true } s c t → StartsAs c t (.s d.toNat 1) none (some (if 32 ≤ a.toNat ∧ a.toNat ≤ 161 ∧ t.privileged c = false then 1023 else a.toNat)) (exec (.pctr w d a) s)) ∧
    (Issues (infoNone w).bare s c t → ∃ u, u = { t with cores := u.cores } ∧
         (∀ x, x ∈ (u.core c.G.core).icache ↔ x ∈ (t.core c.G.core).icache ∧ x.vf ≠ c.G.vf) ∧
         (∀ x, x ∈ (u.core c.G.core).cfills ↔ x ∈ (t.core c.G.core).cfills ∧ x.vf ≠ c.G.vf) ∧
         (∀ p, ((u.core c.G.core).part p).loop = ((t.core c.G.core).part p).loop.map fun b => if b.vf = c.G.vf then { b with
           inv := true
           gone := [] } else b) ∧
         Changes c u c.G (exec (.icinv w) s)) ∧
    (Issues (infoNone w).bare s c t → Changes c (t.updPart c.G.core c.G.part fun p => { p with loop := none }) { c.G with pre := [] } (exec (.isync w) s)) ∧
    (Issues { (infoS1 w a 4 4).bare with priv := true } s c t →
       let x := fun i => (c.rs (a.toNat + i)).toNat
       x 2 < 64 → x 3 = 0 → (t.vf (x 2)).en = true →
       t.teamNamed (x 2) (x 1) (x 0) = none →
       Changes c t c.G (exec (.ctxsw w a) s)) ∧
    (Issues { (infoS1 w a 4 4).bare with priv := true } s c t →
       let x := fun i => (c.rs (a.toNat + i)).toNat
       x 2 < 64 → x 3 = 0 → (t.vf (x 2)).en = true →
       ∀ k T, t.teamNamed (x 2) (x 1) (x 0) = some (k, T) → t.team? k = some T →
       ∃ u U, exec (.ctxsw w a) s = .next u ∧ u.team? k = some U ∧ U = { T with pre := if T.pre = .none then .asked t.now else T.pre })

/-- Commands of the copy engine and of hardware queues, and the reservations of the operand buffer (R314, R319, R325, R342, R371, R374 to R377): where the checks of its descriptor pass, a command takes its place in the access order and the path goes on; `qpub` and `qdone` hold their path as a fence does. -/
def Obligations.CopyAndQueueCommands : Prop :=
  ∀ (s t : State) (c : Ctx) (w : BitVec 1) (a d : BitVec 10) (r : BitVec 3) (q n : Nat),
    (s.copyHeld = false → Issues (infoS1 w a 4 4).bare s c t → (t.core c.G.core).xcnt < 32 →
       let x := copyOf t c 0 (c.rsn a.toNat 4)
       t.copyCheck c.G (c.rsn a.toNat 4) x = none →
       Enters c ((t.updCore c.G.core fun k => { k with xcnt := k.xcnt + 1 }).tagTake c.G.core x.tag) (.cmd (.copy x)) 0 (exec (.cpy w a) s)) ∧
    (s.copyHeld = false → Issues (infoS1 w a 4 4).bare s c t → (t.core c.G.core).xcnt < 32 →
       let x := copyOf t c 1 (c.rsn a.toNat 4)
       t.copyCheck c.G (c.rsn a.toNat 4) x = none →
       Enters c ((t.updCore c.G.core fun k => { k with xcnt := k.xcnt + 1 }).tagTake c.G.core x.tag) (.cmd (.copy x)) 0 (exec (.cpyg w a) s)) ∧
    (s.copyHeld = false → Issues (infoS1 w a 4 4).bare s c t → (t.core c.G.core).xcnt < 32 →
       let x := copyOf t c 2 (c.rsn a.toNat 4)
       t.copyCheck c.G (c.rsn a.toNat 4) x = none →
       Enters c ((t.updCore c.G.core fun k => { k with xcnt := k.xcnt + 1 }).tagTake c.G.core x.tag) (.cmd (.copy x)) 0 (exec (.cpys w a) s)) ∧
    (s.copyHeld = false → Issues (infoS1 w a 4 4).bare s c t → (t.core c.G.core).xcnt < 32 →
       let x := copyOf t c 3 (c.rsn a.toNat 4)
       t.copyCheck c.G (c.rsn a.toNat 4) x = none →
       Enters c ((t.updCore c.G.core fun k => { k with xcnt := k.xcnt + 1 }).tagTake c.G.core x.tag) (.cmd (.copy x)) 0 (exec (.cpyf w a) s)) ∧
    (Issues { w := flag1 w, var := true, noHint := true, regs := [.s a.toNat 1 1, .s d.toNat 1 1] } s c t → queueDesc false (c.rs a.toNat) = some (q, n) →
       Enters (c.starts t (.s d.toNat 1)) (t.starts c (.s d.toNat 1)) (.cmd (.queue ⟨6, q / 256, c.G.core, c.G.part, c.g, c.G.vf, q, n, 0, some t.uid⟩)) 0 (exec (.qclaim w a d) s)) ∧
    (Issues { w := flag1 w, var := true, noHint := true, regs := [.s a.toNat 1 1, .s d.toNat 1 1] } s c t → queueDesc false (c.rs a.toNat) = some (q, n) →
       Enters (c.starts t (.s d.toNat 1)) (t.starts c (.s d.toNat 1)) (.cmd (.queue ⟨8, q / 256, c.G.core, c.G.part, c.g, c.G.vf, q, n, 0, some t.uid⟩)) 1 (exec (.qtake w a d) s)) ∧
    (Issues { w := flag1 w, var := true, noHint := true, regs := [.s a.toNat 1 1, .s d.toNat 1 1] } s c t → queueDesc true (c.rs a.toNat) = some (q, n) →
       Enters (c.starts t (.s d.toNat 1)) (t.starts c (.s d.toNat 1)) (.cmd (.queue ⟨10, q / 256, c.G.core, c.G.part, c.g, c.G.vf, q, n, 0, some t.uid⟩)) 0 (exec (.qstat w a d) s)) ∧
    (Issues { w := flag1 w, noHint := true, regs := [.s a.toNat 2 1] } s c t → queueDesc false (c.rs a.toNat) = some (q, n) → (c.rs (a.toNat + 1)).toNat < 2 ^ 31 →
       let as := [fenceAcc t.uid c (.release 7), fenceAcc (t.uid + 1) c (.cmd (.queue ⟨7, q / 256, c.G.core, c.G.part, c.g, c.G.vf, q, n, (c.rs (a.toNat + 1)).toNat, none⟩))]
       Blocks (c.adds as) (t.adds c as) (.fence t.uid 0) none (exec (.qpub w a) s)) ∧
    (Issues { w := flag1 w, noHint := true, regs := [.s a.toNat 2 1] } s c t → queueDesc false (c.rs a.toNat) = some (q, n) → (c.rs (a.toNat + 1)).toNat < 2 ^ 31 →
       let as := [fenceAcc t.uid c (.release 7), fenceAcc (t.uid + 1) c (.cmd (.queue ⟨9, q / 256, c.G.core, c.G.part, c.g, c.G.vf, q, n, (c.rs (a.toNat + 1)).toNat, none⟩))]
       Blocks (c.adds as) (t.adds c as) (.fence t.uid 0) none (exec (.qdone w a) s)) ∧
    (Issues (infoS1 w a 4 4).bare s c t → rsvOk (c.rs4 a.toNat) (match t.team? c.G.team with | some T => T.obufN | none => 0) = true →
       Changes c (t.updTeam c.G.team fun T => { T with resv := T.resv.put r.toNat (c.rs4 a.toNat ||| rsvVbit) }) c.G (exec (.orsv w a r) s)) ∧
    (Issues (infoNone w).bare s c t →
       Changes c (t.updTeam c.G.team fun T => { T with resv := T.resv.put r.toNat (T.resv.get r.toNat 0 &&& ~~~rsvVbit) }) c.G (exec (.orel w r) s))

/-- Commands to the Drover and the Assayer (R483, R484, R486 to R500): with fewer than 64 outstanding on the core and a descriptor that passes its checks, a command takes its place in the access order, a form with a result has it pending, and `dro.corr` counts on its tag. -/
def Obligations.EngineCommands : Prop :=
  ∀ (s t : State) (c : Ctx) (w : BitVec 1) (a d : BitVec 10),
    (XSends 11 (infoX w a 9 4) a.toNat 9 droOpenCheck (fun d => db d 0 16 4) (fun _ => none) s t c (exec (.droOpen w a) s)) ∧
    (XSends 11 (infoXd w a 9 4 d 1 1) a.toNat 9 droOpenCheck (fun d => db d 0 16 4) (fun _ => some (.s d.toNat 1)) s t c (exec (.droOpenStatus w a d) s)) ∧
    (XSends 12 (infoX w a 4 4) a.toNat 4 droSendCheck (fun d => db d 0 8 4) (fun _ => none) s t c (exec (.droSend w a) s)) ∧
    (XSends 12 (infoXd w a 4 4 d 1 1) a.toNat 4 droSendCheck (fun d => db d 0 8 4) (fun _ => some (.s d.toNat 1)) s t c (exec (.droSendStatus w a d) s)) ∧
    (XSends 13 (infoX w a 1 1) a.toNat 1 droObjCheck noRec (fun _ => none) s t c (exec (.droClose w a) s)) ∧
    (XSends 13 (infoXd w a 1 1 d 1 1) a.toNat 1 droObjCheck noRec (fun _ => some (.s d.toNat 1)) s t c (exec (.droCloseStatus w a d) s)) ∧
    (XSends 14 (infoXd w a 1 1 d 32 32) a.toNat 1 droObjCheck noRec (fun _ => some (.s d.toNat 32)) s t c (exec (.droMfst w a d) s)) ∧
    (XSends 15 (infoX w a 2 2) a.toNat 2 droCorrCheck noRec (fun _ => none) s t c (exec (.droCorr w a) s)) ∧
    (XSends 16 (infoX w a 10 4) a.toNat 10 asyOpenCheck (fun d => db d 0 20 4) (fun _ => none) s t c (exec (.asyOpen w a) s)) ∧
    (XSends 16 (infoXd w a 10 4 d 1 1) a.toNat 10 asyOpenCheck (fun d => db d 0 20 4) (fun _ => some (.s d.toNat 1)) s t c (exec (.asyOpenStatus w a d) s)) ∧
    (XSends 17 (infoX w a 7 8) a.toNat 7 asyPutCheck (fun d => db d 0 20 4) (fun _ => none) s t c (exec (.asyPut w a) s)) ∧
    (XSends 17 (infoXd w a 7 8 d 1 1) a.toNat 7 asyPutCheck (fun d => db d 0 20 4) (fun _ => some (.s d.toNat 1)) s t c (exec (.asyPutStatus w a d) s)) ∧
    (XSends 18 (infoX w a 6 8) a.toNat 6 asySealCheck noRec (fun _ => none) s t c (exec (.asySeal w a) s)) ∧
    (XSends 18 (infoXd w a 6 8 d 1 1) a.toNat 6 asySealCheck noRec (fun _ => some (.s d.toNat 1)) s t c (exec (.asySealStatus w a d) s)) ∧
    (XSends 19 (infoXd w a 1 1 d 1 1) a.toNat 1 (asyStatCheck d.toNat) noRec (fun x => some (.s d.toNat (asyStatLen x))) s t c (exec (.asyStat w a d) s))

/-- Traps that programs ask for, and the end of threads (R162, R223, R385, R386, R391, R396, R400, R424): `trap` and `brk` park their threads behind the instruction; with a debugger attached `brk` stops them; `exit` ends its threads, the handler that has no thread left, and with its last thread the group. -/
def Obligations.ThreadsTrapAndExit : Prop :=
  ∀ (s t : State) (c : Ctx) (w : BitVec 1) (n : BitVec 16),
    (Issues (infoNone w).bare s c t → c.h = false → (t.vf c.G.vf).hcl ≠ 0 → Parks c t ⟨c.mask, c.pc + 4, c.first, c.pc + 4, causeWord 5 0 n.toNat, false⟩ 1 (exec (.trap w n) s)) ∧
    (Issues (infoNone w).bare s c t → t.debugger = false → c.h = false → (t.vf c.G.vf).hcl ≠ 0 → Parks c t ⟨c.mask, c.pc + 4, c.first, c.pc + 4, causeWord 9 0 n.toNat, false⟩ 1 (exec (.brk w n) s)) ∧
    (Issues (infoNone w).bare s c t → t.debugger = true → c.mask ≠ 0 →
       ∃ u G, exec (.brk w n) s = .next u ∧
         u = { t with
           groups := SMap.put t.groups c.g G
           debugLog := t.debugLog ++ [(c.g, c.pc)]
           fresh := t.fresh + 1 } ∧
         G = { c.G with lanes := G.lanes } ∧
         Lanes c G fun _ x => { x with
           st := .debug
           pc := c.pc + 4
           hints := Hints.clear }) ∧
    (Issues (infoNone w).bare.block s c t → c.G.werr = false → c.mask ≠ 0 → c.G.liveMask &&& ~~~c.mask ≠ 0 →
       (∀ H G, c.G.hnd = some H → Exits c.mask c.G G → H.finished G = false) →
       ∃ u G, exec (.exit w) s = .next u ∧ OneGroup c t u G ∧ Exits c.mask c.G G) ∧
    (Issues (infoNone w).bare.block s c t → c.G.werr = false → c.mask ≠ 0 → c.G.liveMask &&& ~~~c.mask ≠ 0 →
       ∀ H, c.G.hnd = some H → (∀ G, Exits c.mask c.G G → H.finished G = true) →
       ∃ u A G, exec (.exit w) s = .next u ∧ OneGroup c t u G ∧ Exits c.mask c.G A ∧ HandlerEnds H A G) ∧
    (Issues (infoNone w).bare.block s c t → c.G.werr = false → c.mask ≠ 0 → c.G.liveMask &&& ~~~c.mask = 0 → ∀ T, t.team? c.G.team = some T →
       (∃ g H, g ∈ T.groups ∧ g ≠ c.g ∧ t.group? g = some H ∧ H.ended = false) → (∀ g H, g ∈ T.groups → t.group? g = some H → (t.vf H.vf).hcl ≠ 0) →
       ∃ u G, exec (.exit w) s = .next u ∧ u.group? c.g = some G ∧ G.liveMask = 0 ∧ G.ended = true ∧ G.ext = 0 ∧ G.cvm.state ≠ 1 ∧
         ∀ e, c.G.traps.find? (·.seq) = some e → ∃ g H, g ∈ T.groups ∧ u.group? g = some H ∧ e ∈ H.trapQ) ∧
    (Issues (infoNone w).bare.block s c t → c.G.werr = false → c.mask = 0 → ∀ H, c.G.hnd = some H →
       ∃ u G, exec (.exit w) s = .next u ∧ OneGroup c t u G ∧ HandlerEnds H c.G G) ∧
    (Issues (infoNone w).bare.block s c t → c.G.werr = true → c.h = false → (t.vf c.G.vf).hcl ≠ 0 →
       let C : Ctx := { c with G := { c.G with werr := false } }
       Parks C (t.updGroup c.g fun _ => C.G) ⟨c.mask, c.first, c.first, c.first, causeWord 6 23 0, false⟩ 0 (exec (.exit w) s))

/-- Leaving the trap handler (R390, R391, R396, R426, R427): `tret` makes its threads wait for the rest of the handler path, and the last ends the handler, whose frame comes back; after a fault of the matrix stream the sequencer goes on; `trep` records the value that replaces a register of each thread. -/
def Obligations.HandlerReturns : Prop :=
  ∀ (s t : State) (c : Ctx) (w : BitVec 1) (d a : BitVec 7),
    (Issues { (infoNone w).bare with handler := true } s c t → c.mask ≠ 0 → ∀ H, c.G.hnd = some H →
       (∀ G, G = { c.G with lanes := G.lanes } → (Lanes c G fun _ x => { x with st := .tretWait }) → H.finished G = false) →
       ∃ u G, exec (.tret w) s = .next u ∧ OneGroup c t u G ∧ G = { c.G with lanes := G.lanes } ∧ Lanes c G fun _ x => { x with st := .tretWait }) ∧
    (Issues { (infoNone w).bare with handler := true } s c t → c.mask ≠ 0 → ∀ H, c.G.hnd = some H →
       (∀ G, G = { c.G with lanes := G.lanes } → (Lanes c G fun _ x => { x with st := .tretWait }) → H.finished G = true) →
       ∃ u A G, exec (.tret w) s = .next u ∧ OneGroup c t u G ∧ A = { c.G with lanes := A.lanes } ∧ (Lanes c A fun _ x => { x with st := .tretWait }) ∧ HandlerEnds H A G) ∧
    (Issues { (infoNone w).bare with handler := true } s c t → c.mask = 0 → ∀ H T, c.G.hnd = some H → t.team? c.G.team = some T →
       ∃ u G, exec (.tret w) s = .next u ∧ HandlerEnds H c.G G ∧
         u = { t with
           groups := SMap.put t.groups c.g G
           teams := SMap.put t.teams c.G.team { T with seq := { T.seq with sflt := false } }
           fresh := t.fresh + 1 }) ∧
    (Issues { (infoV2 w d a).bare with handler := true } s c t → c.mask ≠ 0 → ∀ H, c.G.hnd = some H →
       ∃ u G, exec (.trep w d a) s = .next u ∧ OneGroup c t u G ∧
         G = { c.G with
           lanes := G.lanes
           hnd := G.hnd } ∧
         (∃ K, G.hnd = some K ∧ K = { H with repl := K.repl } ∧
           ∀ l, SMap.find? K.repl l = if c.has l then some (d.toNat, c.rv l a.toNat) else SMap.find? H.repl l) ∧
         Lanes c G fun _ x => x.at_ (x.pc + 4))

/-- A prefetch (R124, R126, R292): whatever it requests, and whatever corrections its walks count, no register, no byte of memory and no other group changes, no lane traps, and the path goes on. -/
def Obligations.PrefetchChangesNothingElse : Prop :=
  ∀ (s t : State) (c : Ctx) (w : BitVec 1) (i : BitVec 7) (b : BitVec 4) (r e n : BitVec 1),
    Issues { w := flag1 w, imm := true, mods := modLC3, regs := [.v i.toNat 1 1] } s c t →
    ∃ v G, exec (.pref w i b r e n) s = .next v ∧
      v = { t with
        groups := SMap.put t.groups c.g G
        cores := v.cores
        dies := v.dies
        side := v.side
        rowCorr := v.rowCorr
        wire := v.wire
        uid := v.uid
        fresh := v.fresh } ∧
      (∀ d, v.die d = { t.die d with
        corr := (v.die d).corr
        parity := (v.die d).parity }) ∧
      G = { c.G with
        lanes := G.lanes
        hnd := c.handlerAt (· + 4) } ∧
      Lanes c G fun _ x => x.at_ (x.pc + 4)

/-- The words of the matrix stream that work on stream registers, barriers and tags, and its end (R59, R284, R345 to R347, R368 to R370): each executes where the sequencer is live, and goes on to the next word, or stands in its wait. -/
def Obligations.SequencerWords : Prop :=
  ∀ (s : State) (n : Nat) (T : Team) (m b : BitVec 5) (i : BitVec 16) (g : BitVec 6),
    (Sequences s n T → SeqGoes n s T (fun q => { q with m := q.m.put m.toNat (i.signExtend 32) }) (exec (.mset m i) s)) ∧
    (Sequences s n T → SeqGoes n s T (fun q => { q with m := q.m.put m.toNat (q.m.get m.toNat 0 + i.signExtend 32) }) (exec (.madd m i) s)) ∧
    (Sequences s n T → exec (.mbnz m i) s = .next { s with
         teams := SMap.put s.teams n { T with seq := { T.seq with mpc := if T.seq.m.get m.toNat 0 = 0 then T.seq.mpc + 4 else T.seq.mpc + (i.signExtend 32) <<< 2 } } }) ∧
    (Sequences s n T → T.seq.serr = false → s.mretBusy n = false → s.groupsEnded T = false → SeqGoes n s T (fun q => { q with run := 3 }) (exec .mend s)) ∧
    (Sequences s n T → T.seq.serr = false → s.mretBusy n = false → s.groupsEnded T = true → SMap.wf s.teams = true → ∃ u, exec .mend s = .next u ∧ u.team? n = none) ∧
    (Sequences s n T → s.stopping n = false → s.mretBusy n = false → T.seq.serr = false → T.seq.comp ≤ s.now → ∃ u U, Arrives s u n b.toNat 1 ∧ u.team? n = some U ∧ SeqGoes n u U id (exec (.marv b) s)) ∧
    (Sequences s n T → s.stopping n = false → (s.bar T b.toNat).phase = T.seq.xp.getLsbD b.toNat → SeqGoes n s T (fun q => { q with
         xp := q.xp ^^^ laneBit b.toNat
         wait := none }) (exec (.mwait b) s)) ∧
    (Sequences s n T → s.stopping n = false → (s.bar T b.toNat).phase ≠ T.seq.xp.getLsbD b.toNat → exec (.mwait b) s = .next { s with
         teams := SMap.put s.teams n { T with seq := { T.seq with wait := some (true, b.toNat) } } }) ∧
    (Sequences s n T → T.tagB ≤ g.toNat → g.toNat < T.tagB + T.tagN → (s.core T.core).tags.getLsbD g.toNat = true → (s.core T.core).tagTime.get g.toNat 0 ≤ s.now → (s.core T.core).terr.getLsbD g.toNat = false →
       SeqGoes n (s.settleObuf T) T (fun q => { q with wait := none }) (exec (.mtag g) s)) ∧
    (Sequences s n T → T.tagB ≤ g.toNat → g.toNat < T.tagB + T.tagN → ((s.core T.core).tags.getLsbD g.toNat = false ∨ s.now < (s.core T.core).tagTime.get g.toNat 0) →
       exec (.mtag g) s = .next { s with
         teams := SMap.put s.teams n { T with seq := { T.seq with wait := some (false, g.toNat) } } }) ∧
    (Sequences s n T → SeqGoes n s T id (exec (.nop 0) s))

/-- Where words of the matrix stream fault (R58, R70, R343, R349, R359, R361 to R363, R366, R367, R369, R396): the sequencer stops in front of the word with SFLT set, the word has no effect, and the trap waits in the lowest-numbered group that has not ended. -/
def Obligations.MatrixStreamFaults : Prop :=
  ∀ (s : State) (n g : Nat) (T : Team) (G : Group) (a o : BitVec 3) (m : BitVec 5) (sh f p : BitVec 2) (v w : BitVec 1) (b : BitVec 4) (tg : BitVec 6),
    (Sequences s n T → s.Handles T g G → rsvUsable (T.rsv o.toNat) (T.seq.reg m.toNat).toNat (shapeCols sh.toNat) (shapeK sh.toNat) = false → SeqFaults n s T g G 11 0 (exec (.mld o sh m) s)) ∧
    (Sequences s n T → s.Handles T g G → (∀ k, T.seq.shape = some k → a.toNat + shapeN k > 8) → SeqFaults n s T g G 13 0 (exec (.mmul a o m v) s)) ∧
    (Sequences s n T → s.Handles T g G → (∀ k, T.seq.shape = some k → a.toNat + shapeN k ≤ 8 ∧ rsvUsable (T.rsv o.toNat) (T.seq.reg m.toNat).toNat 64 (shapeK k) = true ∧ rsvFmt (T.rsv o.toNat) ≠ T.seq.fmt) → T.seq.shape ≠ none → SeqFaults n s T g G 14 0 (exec (.mmul a o m v) s)) ∧
    (Sequences s n T → s.Handles T g G → T.seq.shape ≠ some 0 → SeqFaults n s T g G 13 0 (exec (.mgrp a o m) s)) ∧
    (Sequences s n T → s.Handles T g G → T.seq.shape ≠ some 2 → SeqFaults n s T g G 13 0 (exec (.mmulsm a o m v) s)) ∧
    (Sequences s n T → s.Handles T g G → m.toNat > 28 → SeqFaults n s T g G 12 0 (exec (.mret a f p m b) s)) ∧
    (Sequences s n T → s.Handles T g G → (tg.toNat < T.tagB ∨ T.tagB + T.tagN ≤ tg.toNat) → SeqFaults n s T g G 19 0 (exec (.mtag tg) s)) ∧
    (Sequences s n T → s.Handles T g G → SeqFaults n s T g G 3 0 (exec (.nop 1) s)) ∧
    (Sequences s n T → s.Handles T g G → SeqFaults n s T g G 2 0 (exec (.yield w) s))

/-- The words that load, multiply and clear (R339, R343, R350 to R355, R361 to R366): where the checks of a word pass, the unit changes as its rule says, and nothing else but, for `mmulsm`, the operand buffer; a softmax step leaves the new maximum of each row in RMAX and its four tiles in one chain. -/
def Obligations.MatrixWords : Prop :=
  ∀ (s : State) (n : Nat) (T : Team) (a o : BitVec 3) (m : BitVec 5) (sh : BitVec 2) (v : BitVec 1),
    (Sequences s n T → rsvUsable (T.rsv o.toNat) (T.seq.reg m.toNat).toNat (shapeCols sh.toNat) (shapeK sh.toNat) = true →
       SeqGoes n (s.draw 1) T (fun q => { q with
         shape := some sh.toNat
         fmt := rsvFmt (T.rsv o.toNat)
         macros := (List.range (shapeCols sh.toNat)).flatMap fun k => (List.range (shapeK sh.toNat / 16)).map fun i => (k * 32 + i, s.rsvBlock T (T.rsv o.toNat) ((T.seq.reg m.toNat).toNat + k) i) }) (exec (.mld o sh m) s)) ∧
    (Sequences s n T → ∀ k, T.seq.shape = some k → a.toNat + shapeN k ≤ 8 →
       let x := T.rsv o.toNat
       let r := (T.seq.reg m.toNat).toNat
       rsvUsable x r 64 (shapeK k) = true → rsvFmt x = T.seq.fmt → T.bmOk o.toNat x r 64 (shapeK k) = true →
       SeqGoes n (s.draw 1) T (fun q =>
         let q := (q.product ((List.range 64).map fun i => (i, s.rsvRow T x (r + i) (shapeK k))) a.toNat 0 (shapeCols k) (flag1 v)).unchain a.toNat (shapeN k)
         { q with bmx := q.bmx || s.bmFound T o.toNat x r 64 (shapeK k) }) (exec (.mmul a o m v) s)) ∧
    (Sequences s n T → SeqGoes n s T (fun q => { q with
         tiles := q.tiles.filter fun x => x.1 / 8192 != a.toNat
         rmax := q.rmax.filter fun x => x.1 / 64 != a.toNat
         rsum := q.rsum.filter fun x => x.1 / 64 != a.toNat
         chain := q.chain.del a.toNat }) (exec (.mclr a) s)) ∧
    (Sequences s n T → SeqGoes n s T (fun q => { q with bitmap := if v = 1 then some o.toNat else none }) (exec (.mbmap o v) s)) ∧
    (Sequences s n T → T.seq.shape = some 2 → (a = 0 ∨ a = 4) → (T.seq.reg m.toNat).toNat < 8 → ((T.seq.reg m.toNat).toNat < a.toNat ∨ a.toNat + 3 < (T.seq.reg m.toNat).toNat) →
       (flag1 v = true ∨ ∀ i, i < 4 → SMap.find? T.seq.chain (a.toNat + i) = some a.toNat) →
       let x := T.rsv o.toNat
       rsvUsable x 0 64 128 = true → rsvFmt x = T.seq.fmt → T.bmOk o.toNat x 0 64 128 = true →
       ∃ u U, exec (.mmulsm a o m v) s = .next u ∧ u.team? n = some U ∧
         u = { s with
           teams := SMap.put s.teams n U
           cores := u.cores
           fresh := s.fresh + 1 } ∧
         (∀ k, u.core k = if k = T.core then { s.core k with
           obuf := (u.core k).obuf
           obOld := (u.core k).obOld } else s.core k) ∧
         U = { T with seq := { T.seq with
           mpc := T.seq.mpc + 4
           tiles := U.seq.tiles
           rmax := U.seq.rmax
           rsum := U.seq.rsum
           chain := U.seq.chain
           bmx := U.seq.bmx
           msat := U.seq.msat
           movf := U.seq.movf
           munf := U.seq.munf } } ∧
         (∀ i, i < 4 → SMap.find? U.seq.chain (a.toNat + i) = some a.toNat) ∧
         ∀ i, i < 64 → U.seq.rmax.get (a.toNat * 64 + i) 0 = BitVec.ofNat 32 (softRow
           (if flag1 v = true then negInf else (T.seq.rmax.get (a.toNat * 64 + i) 0xFF800000).toNat)
           ((List.range 128).map fun k => T.seq.tile (tileKey (T.seq.reg m.toNat).toNat i k))).1) ∧
    (Sequences s n T → T.seq.shape = some 0 →
       let x := T.rsv o.toNat
       let mk := (T.seq.reg m.toNat).toNat
       let G := mk / 2 ^ 24
       let off := fun g => (s.rsvByte T x (mk % 2 ^ 20 + 2 * g)).toNat + 256 * (s.rsvByte T x (mk % 2 ^ 20 + 2 * g + 1)).toNat
       1 ≤ G → G ≤ 8 → mk / 2 ^ 20 % 16 = 0 → mk % 2 ^ 20 + 2 * (G + 1) ≤ rsvLen x →
       (∀ g, g ≤ G → (g > 0 → off (g - 1) ≤ off g) ∧ (off g = 0 ∨ rowInside x (off g - 1) 64 = true) ∧ off g ≤ off 0 + 64) →
       rsvUsable x (off 0) (off G - off 0) 64 = true → rsvFmt x = T.seq.fmt →
       SeqGoes n (s.draw 1) T (fun q =>
         let q := ((List.range G).foldl (fun q g => q.product ((List.range (off (g + 1) - off g)).map fun i => (off g + i - off 0, s.rsvRow T x (off g + i) 64)) a.toNat (128 * g) 128 false) q).unchain a.toNat 1
         { q with bmx := q.bmx || s.bmFound T o.toNat x (off 0) (off G - off 0) 64 }) (exec (.mgrp a o m) s))

/-- The epilogue of a tile (R283, R354, R356, R357, R367, R454): where its checks pass and no page of it faults, `mret` sends the stores of the converted tile and of its side bytes as an engine does, and the tile is retired, the unit's completion time and write error being those of stores that are done; `mret coll` sends the tile's chunk to its object, waits for the answer, and retires the tile once the object has taken it. -/
def Obligations.EpilogueWords : Prop :=
  ∀ (s : State) (n : Nat) (T : Team) (a : BitVec 3) (f p : BitVec 2) (m : BitVec 5) (b : BitVec 4),
    (Sequences s n T → m.toNat ≤ 28 →
       let G := s.seqGroup n T
       let r := G.bufRec b.toNat
       let r' := G.bufRec (b.toNat + 1)
       let reg := fun i => (T.seq.reg (m.toNat + i)).toNat
       let e := T.seq.epilogue a.toNat f.toNat p.toNat (reg 0) (reg 1) (reg 2) (reg 3)
       let p0 := s.plan T.core G r (if f = 0 then 4 else if f = 1 then 2 else 1) .write (numbered e.main)
       let p1 := p0.st.plan T.core G r' 1 .write (numbered e.side)
       mretRecs f.toNat r r' = true → (recOob r = 1 → p0.oob = []) → (recOob r' = 1 → p1.oob = []) → p0.faults = [] → p1.faults = [] →
       ∃ U, let u := (p1.st.mretSend n T r (placed p0.good e.main)).mretSend n T r' (placed p1.good e.side)
         u.team? n = some U ∧
         U = { T with seq := { T.seq with
           comp := U.seq.comp
           serr := U.seq.serr } } ∧
         SeqGoes n u U (fun q => q.retire a.toNat e) (exec (.mret a f p m b) s)) ∧
    (Sequences s n T → T.seq.chunks = 0 → m.toNat ≤ 28 → ∀ r, s.recOf T = some r → r.tmask.testBit a.toNat = true → f.toNat = r.ctype →
       let e := T.seq.epilogue a.toNat f.toNat 0 (T.seq.reg m.toNat).toNat 0 0 0
       let c : Chunk := ⟨s.devId, T.drt.toNat / 2 ^ 10 % 2 ^ 12, dieOf T.core, T.drt.toNat % 256, T.vf, r.chunkOf T.x a.toNat, f.toNat, e.vals, some n, none⟩
       exec (.mretColl a f p m) s = .next { s with
         chunks := if c.dev = s.devId then s.chunks ++ [c] else s.chunks
         chunkOut := if c.dev = s.devId then s.chunkOut else s.chunkOut ++ [c]
         teams := SMap.put s.teams n { T with seq := { T.seq with chunks := 1 } } }) ∧
    (Sequences s n T → T.seq.chunks = 2 → m.toNat ≤ 28 → ∀ r, s.recOf T = some r → r.tmask.testBit a.toNat = true → f.toNat = r.ctype →
       SeqGoes n s T (fun q => { q.retire a.toNat (T.seq.epilogue a.toNat f.toNat 0 (T.seq.reg m.toNat).toNat 0 0 0) with chunks := 0 }) (exec (.mretColl a f p m) s))

/-- How what is blocked goes on (R168, R196, R216, R219, R220, R284, R320, R346, R347, R400): a `wait` returns the mask of its conditions, or 0 at its time-out, or traps on a word that fails its check and on a tag with its error bit; barrier and tag waits, the grant of register blocks, and the waits of a sequencer. -/
def Obligations.WaitsEnd : Prop :=
  ∀ (s : State) (g id : Nat) (G : Group) (b : Block) (sd : Nat) (cs : List WCond) (al : Bool) (t e : Nat),
    (s.Blocked g id G b → b.cond = .wait sd cs al t e → s.stopping G.team = false → waitBad cs = false → ∀ m, b.met = some m → b.at_ < s.now → b.comp ≤ s.now → b.terr = false →
       Resumes g (s.returned g G b sd m (waitFlags cs)) (G.returned s b sd m (waitFlags cs)) b false (exec (.waitConditionMet g id) s)) ∧
    (s.Blocked g id G b → b.cond = .wait sd cs al t e → s.stopping G.team = false → waitBad cs = true → s.Trappable G b → ParksBlocked g s G b 6 21 (exec (.waitConditionMet g id) s)) ∧
    (s.Blocked g id G b → b.cond = .wait sd cs al t e → s.stopping G.team = false → waitBad cs = false → ∀ m, b.met = some m → b.at_ < s.now → b.comp ≤ s.now → b.terr = true → s.Trappable G b →
       ParksBlocked g s G b 6 22 (exec (.waitConditionMet g id) s)) ∧
    (s.Blocked g id G b → b.cond = .wait sd cs al t e → s.stopping G.team = false → t ≠ 0 → e < s.now → b.met = none → waitBad cs = false →
       Resumes g (s.returned g G b sd 0 (waitFlags cs)) (G.returned s b sd 0 (waitFlags cs)) b false (exec (.waitTimeout g id) s)) ∧
    (s.Blocked g id G b → b.cond = .wait sd cs al t e → s.stopping G.team = false → b.met = none → ∀ k ls x y p, cs[k]? = some (.mem (some ls) x y p) → globVas ls ≠ [] →
       s.pollBad G ls = [] →
       PollSent g s G b k p (s.pollSecs G ls) (exec (.waitPoll g id k) s)) ∧
    (s.Blocked g id G b → ((∃ n p, b.cond = .barw n p) ∨ ∃ n, b.cond = .barx n) → b.met ≠ none → s.stopping G.team = false → Resumes g s G b false (exec (.barrierWaitRelease g id) s)) ∧
    (s.Blocked g id G b → ∀ m, b.cond = .tag m al → b.met ≠ none → s.stopping G.team = false → b.comp ≤ s.now → b.terr = false →
       Resumes g s G b false (exec (.tagWaitRelease g id) s)) ∧
    (s.Blocked g id G b → ∀ m, b.cond = .tag m al → b.met ≠ none → s.stopping G.team = false → b.comp ≤ s.now → b.terr = true → s.Trappable G b →
       ParksBlocked g s G b 6 22 (exec (.tagWaitRelease g id) s)) ∧
    (∀ c p n rest, ((s.core c).part p).rbq = (g, n) :: rest → n + s.owedOn c p g ≤ ((s.core c).part p).pool → s.group? g = some G →
       G.blk.find? (·.forBlocks) = some b →
       let H := G.freshBlocks n s.fresh
       let u : State := { s.updPart c p fun x => { x with
           pool := x.pool - n
           rbq := rest } with
         groups := SMap.put s.groups g H
         fresh := s.fresh + 3072 }
       Resumes g u H b false (exec (.registerBlockGrant c p) s) ∧ H.ext = n ∧ H.rbReq = false ∧ ∀ l k, k < 32 → (H.lane l).v.get k 0 = (G.lane l).v.get k 0) ∧
    (∀ T, s.team? t = some T → s.stopping t = false → T.seq.run = 1 → T.seq.sflt = false → ∀ n, T.seq.wait = some (true, n) → (s.bar T n).phase = T.seq.xp.getLsbD n →
       SeqGoes t s T (fun q => { q with
         xp := q.xp ^^^ laneBit n
         wait := none }) (exec (.sequencerWaitRelease t) s)) ∧
    (∀ T, s.team? t = some T → T.seq.run = 1 → T.seq.sflt = false → ∀ n, T.seq.wait = some (false, n) → (s.core T.core).tags.getLsbD n = true → (s.core T.core).tagTime.get n 0 ≤ s.now → (s.core T.core).terr.getLsbD n = false →
       SeqGoes t (s.settleObuf T) T (fun q => { q with wait := none }) (exec (.sequencerWaitRelease t) s))

/-- A result is written back (R20, R25, R26, R32, R33): the registers of each lane that has no error take its words, but for those that another instruction has written since, where the old value may stand; the flags of the lane are set with them; lanes with an error get it at their next wait; the result is no longer pending. -/
def Obligations.ResultsAreWritten : Prop :=
  ∀ (s : State) (g id : Nat) (G : Group) (p : Pend) (vs : List LaneVal),
    s.group? g = some G → G.pend.find? (·.id == id) = some p → s.resultOf G p = some vs →
    let w := G.wins.find? (·.id == p.id)
    let keeps := fun l r => match w with | some w => w.hit.contains (l * 1024 + r) && Config.pick s.fresh (l * 1024 + r) | none => false
    ∃ u H, exec (.resultWriteback g id) s = .next u ∧
      u = { s with
        groups := SMap.put s.groups g H
        fresh := s.fresh + 1 } ∧
      H = { G with
        lanes := H.lanes
        s := H.s
        pend := G.pend.filter (·.id != p.id)
        wins := H.wins
        errs := H.errs } ∧
      (∀ d n, p.dst = .v d n → (vs.map (·.lane)).Nodup →
        H.s = G.s ∧
        (∀ l, match vs.find? (fun x => x.lane == l && !x.err) with
          | some x => H.lane l = { G.lane l with
              v := (H.lane l).v
              tsr := (G.lane l).tsr ||| x.flags } ∧
            ∀ k, (H.lane l).v.get k 0 = if d ≤ k ∧ k < d + x.words.length ∧ keeps l k = false then x.words.getD (k - d) 0 else (G.lane l).v.get k 0
          | none => H.lane l = G.lane l)) ∧
      ∀ d n x, p.dst = .s d n → vs = [x] → x.err = false →
        (∀ l, H.lane l = if p.mask.getLsbD l = true then { G.lane l with tsr := (G.lane l).tsr ||| x.flags } else G.lane l) ∧
        H.errs = G.errs ∧
        ∀ k, H.s.get k 0 = if d ≤ k ∧ k < d + x.words.length ∧ keeps x.lane k = false then x.words.getD (k - d) 0 else G.s.get k 0

/-- Entry to the trap handler (R33, R388, R389, R400): once no handler is there and its threads have no result out, the oldest trap enters with those of its threads that still wait for it; a late error of one of them enters first, and the trap waits behind it; nothing else changes. -/
def Obligations.HandlerEntry : Prop :=
  ∀ (s : State) (g : Nat) (G : Group) (e : TrapEntry) (rest : List TrapEntry),
    s.group? g = some G → G.trapQ = e :: rest → G.hnd = none → (s.vf G.vf).hcl ≠ 0 → G.ended = false → s.stopping G.team = false →
    (e.mask ≠ 0 → G.waits e.mask = false) →
    let E : TrapEntry := { e with mask := e.mask &&& G.lanesWith fun t => t.st == .trapped }
    let errs := splitErrs E.mask G.errs
    (e.mask ≠ 0 → E.mask ≠ 0) →
    ∃ u H, exec (.handlerEntry g) s = .next u ∧ u = { s with groups := SMap.put s.groups g H } ∧
      (E.mask = 0 → HandlerStarts s G E rest H) ∧
      (E.mask ≠ 0 → errs.2 = [] → HandlerStarts s { G with errs := errs.1 } E rest H) ∧
      ∀ x xs, E.mask ≠ 0 → errs.2 = x :: xs → HandlerStarts s { G with errs := errs.1 } (E.late x) (xs.map E.late ++ E :: rest) H

/-- What the marshals of convoys do (R261 to R267, R303, R304): a join opens a convoy, joins one or is refused with its code; the answer lets the joining path go on; steps, holds and leaves are counted, a risen min goes to the members, and the straggler timer closes the convoy or detaches the member that is behind. -/
def Obligations.ConvoyMessages : Prop :=
  ∀ (s t : State) (g x i e n mn : Nat) (G : Group) (d : List Word) (key : DWord) (slip tout : Nat) (cv : Cvm),
    (s.nextMsg g true = some (.joinReq x, t) → s.group? g = some G → G.joinDesc = some d → cvDesc d = some (key, slip, n, tout) → (∀ k, t.convoyFor d = some k → t.onTime k = true) →
       (t.die (marshalDie key)).convoyOf key = none → ∀ k, (t.die (marshalDie key)).convoys.freeFrom 256 0 = some k → k < 256 →
       exec (.cvjoinRequest g) s = .next { t.putConvoy (256 * marshalDie key + k) ⟨key, slip, n, tout, [⟨g, 0, true, false⟩], false, none⟩ with
         cvMsgs := t.cvMsgs ++ [t.mailTo g (256 * marshalDie key) none (.answer g (cvAccept (256 * marshalDie key + k) 0) 0)] }) ∧
    (s.nextMsg g true = some (.joinReq x, t) → s.group? g = some G → G.joinDesc = some d → cvDesc d = some (key, slip, n, tout) → (∀ k, t.convoyFor d = some k → t.onTime k = true) →
       (t.die (marshalDie key)).convoyOf key = none → (t.die (marshalDie key)).convoys.freeFrom 256 0 = none →
       exec (.cvjoinRequest g) s = .next { t with cvMsgs := t.cvMsgs ++ [t.mailTo g (256 * marshalDie key) none (.answer g { G.cvm with
         rej := true
         rcode := 1 } G.minp)] }) ∧
    (s.nextMsg g true = some (.joinReq x, t) → s.group? g = some G → G.joinDesc = some d → cvDesc d = some (key, slip, n, tout) → (∀ k, t.convoyFor d = some k → t.onTime k = true) →
       ∀ k v, (t.die (marshalDie key)).convoyOf key = some (k, v) → v.mem.any (·.guid == g) = true →
       exec (.cvjoinRequest g) s = .next { t with cvMsgs := t.cvMsgs ++ [t.mailTo g (256 * marshalDie key) none (.answer g { G.cvm with
         rej := true
         rcode := 5 } G.minp)] }) ∧
    (s.nextMsg g true = some (.joinReq x, t) → s.group? g = some G → G.joinDesc = some d → cvDesc d = some (key, slip, n, tout) → (∀ k, t.convoyFor d = some k → t.onTime k = true) →
       ∀ k v, (t.die (marshalDie key)).convoyOf key = some (k, v) → v.mem.any (·.guid == g) = false → v.closed = true →
       exec (.cvjoinRequest g) s = .next { t with cvMsgs := t.cvMsgs ++ [t.mailTo g (256 * marshalDie key) none (.answer g { G.cvm with
         rej := true
         rcode := 4 } G.minp)] }) ∧
    (s.nextMsg g true = some (.joinReq x, t) → s.group? g = some G → G.joinDesc = some d → cvDesc d = some (key, slip, n, tout) → (∀ k, t.convoyFor d = some k → t.onTime k = true) →
       ∀ k v, (t.die (marshalDie key)).convoyOf key = some (k, v) → v.mem.any (·.guid == g) = false → v.closed = false → (v.slip ≠ slip ∨ v.count ≠ n ∨ v.tout ≠ tout) →
       exec (.cvjoinRequest g) s = .next { t with cvMsgs := t.cvMsgs ++ [t.mailTo g (256 * marshalDie key) none (.answer g { G.cvm with
         rej := true
         rcode := 3 } G.minp)] }) ∧
    (s.nextMsg g true = some (.joinReq x, t) → s.group? g = some G → G.joinDesc = some d → cvDesc d = some (key, slip, n, tout) → (∀ k, t.convoyFor d = some k → t.onTime k = true) →
       ∀ k v, (t.die (marshalDie key)).convoyOf key = some (k, v) → v.mem.any (·.guid == g) = false → v.closed = false → v.slip = slip → v.count = n → v.tout = tout → n ≤ v.mem.length →
       exec (.cvjoinRequest g) s = .next { t with cvMsgs := t.cvMsgs ++ [t.mailTo g (256 * marshalDie key) none (.answer g { G.cvm with
         rej := true
         rcode := 2 } G.minp)] }) ∧
    (s.nextMsg g true = some (.joinReq x, t) → s.group? g = some G → G.joinDesc = some d → cvDesc d = some (key, slip, n, tout) → (∀ k, t.convoyFor d = some k → t.onTime k = true) →
       ∀ k v, (t.die (marshalDie key)).convoyOf key = some (k, v) → v.mem.any (·.guid == g) = false → v.closed = false → v.slip = slip → v.count = n → v.tout = tout → v.mem.length < n →
       exec (.cvjoinRequest g) s = .next { t.putConvoy (256 * marshalDie key + k) { v with mem := v.mem ++ [⟨g, 0, true, false⟩] } with
         cvMsgs := t.cvMsgs ++ [t.mailTo g (256 * marshalDie key) none (.answer g (cvAccept (256 * marshalDie key + k) v.mem.length) (v.min?.getD 0))] }) ∧
    (s.nextMsg g false = some (.answer x cv mn, t) → s.group? g = some G →
       let H := { G with
         cvm := cv
         minp := mn
         joinDesc := none }
       let u : State := { t with groups := SMap.put t.groups g H }
       (G.blk.find? (·.cond == .cvjoin) = none → ∃ w, Woken u w ∧ exec (.cvjoinAnswer g) s = .next w) ∧
       ∀ b, G.blk.find? (·.cond == .cvjoin) = some b →
         (s.stopping G.team = false → ∃ v w, Resumes g u H b false (.next v) ∧ Woken v w ∧ exec (.cvjoinAnswer g) s = .next w) ∧
         (s.stopping G.team = true → ∃ w, Woken { t with groups := SMap.put t.groups g { H with blk := G.blk.map fun k => if k.id = b.id then { k with met := some 0 } else k } } w ∧ exec (.cvjoinAnswer g) s = .next w)) ∧
    (s.nextMsg g true = some (.step x i, t) → t.onTime i = true → ∀ v, t.convoy? i = some v → ∃ u, Settles t i v.min? (v.updMember g fun x => { x with
         pos := x.pos + 1
         held := false }) u ∧ exec (.convoyStepReport g) s = .next u) ∧
    (s.nextMsg g true = some (.leave x i, t) → t.onTime i = true → ∀ v, t.convoy? i = some v → ∃ u, Settles t i v.min? (v.updMember g fun x => { x with
         att := false
         held := false }) u ∧ exec (.convoyLeaveReport g) s = .next u) ∧
    (s.nextMsg g true = some (.hold x i, t) → t.onTime i = true → ∀ v, t.convoy? i = some v → (v.mem.any fun x => x.guid == g && x.att) = true →
       let w := v.updMember g fun x => { x with held := true }
       exec (.convoyHoldReport g) s = .next (t.putConvoy i (if v.timer = none ∧ v.tout ≠ 0 then { w with timer := some (t.now + v.tout) } else w))) ∧
    (s.nextMsg g false = some (.min_ x i n, t) → s.group? g = some G → G.cvm.state = 1 → G.cvm.id = i →
       let H := { G with minp := max G.minp n }
       exec (.convoyMinUpdate g) s = .next { t with groups := SMap.put t.groups g { H with cvm := { G.cvm with held := G.cvm.held && t.holds H } } }) ∧
    (s.nextMsg g false = some (.out x i e, t) → s.group? g = some G →
       ∃ w, Woken { t with groups := SMap.put t.groups g (if G.cvm.state = 1 ∧ G.cvm.id = i then { G with
         cvm := { G.cvm with
           state := 2
           cause := 1
           held := false }
         cvAt := e } else G) } w ∧ exec (.convoyMinUpdate g) s = .next w) ∧
    (∀ cv v e, s.convoy? cv = some v → v.timer = some e → e < s.now → v.empty = true →
       ∃ u, Settles s cv v.min? { v with
         timer := none
         closed := true
         count := v.mem.length } u ∧ exec (.stragglerTimerExpiry cv) s = .next (u.rearm cv e)) ∧
    (∀ cv v e y, s.convoy? cv = some v → v.timer = some e → e < s.now → v.empty = false → v.straggler = some y →
       ∃ u, Settles { s with cvMsgs := s.cvMsgs ++ [s.mailTo y.guid cv none (.out y.guid cv e)] } cv v.min? ({ v with timer := none }.updMember y.guid fun z => { z with
         att := false
         held := false }) u ∧ exec (.stragglerTimerExpiry cv) s = .next (u.rearm cv e))

/-- The memory system (R237 to R259, R273 to R283, R399, R400, R510): a Spout unit queues, joins or allocates a read; a grant fixes the data and raises the horizon; a masked write changes exactly its bytes of a sector that passes its check, an atomic exactly its word; replies and completions go back, fills reach the L1, dirty sectors are written back, and the actions of a fence end. -/
def Obligations.MemorySystemEvents : Prop :=
  ∀ (s : State) (n p : Nat) (q : Req),
    (s.wire.find? (·.id == n) = some q → s.wireNext q = true →
       let d := homeDie q.psec
       let u := homeUnit q.psec
       let U := s.unit d u
       let t : State := { s with wire := s.wire.filter (·.id != n) }
       ((512 ≤ U.entries.length → exec (.spoutRequestArrival n) s = .next (t.updUnit d u fun U => { U with
         inq := U.inq ++ [q]
         full := satInc U.full })) ∧
       (U.entries.length < 512 → U.inq ≠ [] → exec (.spoutRequestArrival n) s = .next (t.updUnit d u fun U => { U with inq := U.inq ++ [q] })) ∧
       (U.entries.length < 512 → U.inq = [] → ∀ k, q.kind = .read k →
         ((U.entries.any fun e => e.open_ && e.psec == q.psec && e.key == q.key) = true →
           exec (.spoutRequestArrival n) s = .next (t.updUnit d u fun U => { U with
             entries := U.entries.map fun e => if e.open_ = true ∧ e.psec = q.psec ∧ e.key = q.key then { e with
               reqs := e.reqs ++ [q]
               open_ := decide (e.reqs.length + 1 < 64) } else e
             join := satInc U.join })) ∧
         ((U.entries.any fun e => e.open_ && e.psec == q.psec && e.key == q.key) = false →
           exec (.spoutRequestArrival n) s = .next ((t.bump.updUnit d u fun U => { U with
             entries := U.entries ++ [⟨s.uid, q.psec, q.key, s.now, [q], true, none⟩]
             alloc := satInc U.alloc }).updChan (s.chanOf q.psec) fun c => { c with q := c.q ++ [.entry s.uid] }))) ∧
       (U.entries.length < 512 → U.inq = [] → q.kind = .wait → exec (.spoutRequestArrival n) s = .next (t.updChan (s.chanOf q.psec) fun c => { c with q := c.q ++ [.req q] })) ∧
       (U.entries.length < 512 → U.inq = [] → q.kind ≠ .wait → (∀ k, q.kind ≠ .read k) →
         exec (.spoutRequestArrival n) s = .next ((t.updUnit d u fun U => U.closeSec q.psec).updChan (s.chanOf q.psec) fun c => { c with q := c.q ++ [.req q] })))) ∧
    (∀ v c x e, s.nextAt n = some (v, c) → v.what = .entry x → (∃ d u, s.entry? x = some (d, u, e)) →
       ∃ t, exec (.grant n) s = .next t ∧ t.mem = s.mem ∧
         t = (((s.takeAt n v c).checked e.key e.psec).raiseHorizon e.psec (e.reqs.foldl (fun m r => max m (expiryOf s.now r)) 0)).updEntry x fun e' => { e' with
           open_ := false
           data := some ((s.answerOf e.key e.psec).1, (s.check e.key e.psec).isNone, s.now) }) ∧
    (∀ k e d, s.check k e = some d → s.answerOf k e = (d.data, false)) ∧
    (∀ e m, (s.raiseHorizon e m).horizon e = max (s.horizon e) m) ∧
    (∀ v c r, s.nextAt n = some (v, c) → v.what = .req r → r.kind = .wait →
       let t := (s.takeAt n v c).checked r.key r.psec
       exec (.grant n) s = .next { t with
         copies := t.copies ++ [⟨r.id, r, 0, (s.answerOf r.key r.psec).1, (s.check r.key r.psec).isNone, t.uid, none⟩]
         uid := t.uid + 1 }) ∧
    (∀ v c r, s.nextAt n = some (v, c) → v.what = .req r → ∀ m x, r.kind = .write m x → Memory.wf s.mem = true → r.psec * 64 < memEnd → m = BitVec.allOnes 64 →
       ∃ t, exec (.writeArrival n) s = .next t ∧ t.dones = s.dones ++ [⟨r.id, r, s.completion r.psec, [], false⟩] ∧ t.sideOf r.psec = Side.clean r.key ∧
         ∀ a, t.byteAt (.glob 0 a) = if r.psec * 64 ≤ a ∧ a < r.psec * 64 + 64 then secByte x (a - r.psec * 64) else s.byteAt (.glob 0 a)) ∧
    (∀ v c r, s.nextAt n = some (v, c) → v.what = .req r → ∀ m x d, r.kind = .write m x → Memory.wf s.mem = true → r.psec * 64 < memEnd → m ≠ BitVec.allOnes 64 → s.check r.key r.psec = some d →
       ∃ t, exec (.writeArrival n) s = .next t ∧ t.dones = s.dones ++ [⟨r.id, r, s.completion r.psec, [], false⟩] ∧ t.sideOf r.psec = Side.clean r.key ∧
         ∀ a, t.byteAt (.glob 0 a) = if r.psec * 64 ≤ a ∧ a < r.psec * 64 + 64 then
             (if m.getLsbD (a - r.psec * 64) = true then secByte x (a - r.psec * 64) else secByte d.data (a - r.psec * 64))
           else s.byteAt (.glob 0 a)) ∧
    (∀ v c r, s.nextAt n = some (v, c) → v.what = .req r → ∀ m x, r.kind = .write m x → (memEnd ≤ r.psec * 64 ∨ (m ≠ BitVec.allOnes 64 ∧ s.check r.key r.psec = none)) →
       ∃ t, exec (.writeArrival n) s = .next t ∧ t.dones = s.dones ++ [⟨r.id, r, s.completion r.psec, [], true⟩] ∧ t.mem = s.mem ∧ t.side = s.side) ∧
    (∀ v c r, s.nextAt n = some (v, c) → v.what = .req r → ∀ op w a x y d, r.kind = .atomic op w a x y → Memory.wf s.mem = true → s.check r.key r.psec = some d →
       let k := if w then 8 else 4
       let old := (List.range k).map fun i => secByte d.data (a + i)
       let new := leBytes k (atomNew op w (leNat old) (leNat x) (leNat y)).1
       ∃ t, exec (.atom n) s = .next t ∧ t.dones = s.dones ++ [⟨r.id, r, s.completion r.psec, old, false⟩] ∧
         ∀ b, t.byteAt (.glob 0 b) = if r.psec * 64 ≤ b ∧ b < r.psec * 64 + 64 ∧ ¬(op = 9 ∧ leNat old ≠ leNat y) then
             (if a ≤ b - r.psec * 64 ∧ b - r.psec * 64 < a + k then new.getD (b - r.psec * 64 - a) 0 else secByte d.data (b - r.psec * 64))
           else s.byteAt (.glob 0 b)) ∧
    (∀ v c r, s.nextAt n = some (v, c) → v.what = .req r → ∀ op w a x y, r.kind = .atomic op w a x y → s.check r.key r.psec = none →
       ∃ t, exec (.atom n) s = .next t ∧ t.dones = s.dones ++ [⟨r.id, r, s.completion r.psec, [], true⟩] ∧ t.mem = s.mem ∧ t.side = s.side) ∧
    (∀ d u x w b t, s.entry? n = some (d, u, x) → x.data = some (w, b, t) →
       ∃ v, exec (.spoutReplyMulticast n) s = .next v ∧ v.mem = s.mem ∧ v.copies = s.copies ++ x.reqs.map fun (r : Req) => (⟨r.id, r, n, w, b, expiryOf t r, none⟩ : Copy)) ∧
    (∀ d u x w b t, s.entry? n = some (d, u, x) → x.data = some (w, b, t) → (s.unit d u).inq = [] →
       exec (.spoutReplyMulticast n) s = .next (({ s with copies := s.copies ++ x.reqs.map fun (r : Req) => (⟨r.id, r, n, w, b, expiryOf t r, none⟩ : Copy) } : State).updUnit d u fun U => { U with entries := U.entries.filter (·.id != n) })) ∧
    (∀ k, s.copies.find? (·.id == n) = some k → s.copyNext k = true →
       let t := ({ s with copies := s.copies.filter (·.id != n) } : State).firstCopy k
       ∀ core id, k.req.src = .fill core id →
       let u := t.judge k.req
       ((u.core core).fills.find? (·.id == id) = none → exec (.l1FillArrival n) s = .next u) ∧
       ∀ F, (u.core core).fills.find? (·.id == id) = some F →
         let x := F.merge ((u.core core).secAt F.vf F.asid F.vsec) k
         let v := u.updCore core fun c => { c with fills := c.fills.filter (·.id != id) }
         let w := if F.sup = true ∨ F.noAlloc = true ∨ k.bad = true then v else v.updCore core fun c => c.updSecAt F.vf F.asid F.vsec fun _ => x
         (F.noAlloc = false → exec (.l1FillArrival n) s = .next ((F.waiters.foldl (fun s y => s.wakeLoad x F.vsec k.bad y.1 y.2) w).retryPrefetch core)) ∧
         (F.noAlloc = true → ∀ y ys, F.waiters = y :: ys → exec (.l1FillArrival n) s = .next ((w.wakeLoad { x with exp := u.now + 1 } F.vsec k.bad y.1 y.2).retryPrefetch core))) ∧
    (∀ k, s.copies.find? (·.id == n) = some k → s.copyNext k = true →
       let t := ({ s with copies := s.copies.filter (·.id != n) } : State).firstCopy k
       (∀ core id, k.req.src = .code core id → exec (.l1FillArrival n) s = .next (t.codeArrives k core id)) ∧
       (∀ x, k.req.src = .eng x → exec (.l1FillArrival n) s = .next (t.engReply k x)) ∧
       ∀ g b i j, k.req.src = .wait g b i j → ∃ v, Woken (t.waitArrives k g b i j) v ∧ exec (.l1FillArrival n) s = .next v) ∧
    (∀ k L, k < 4 → (s.core n).l1[p]? = some L → (L.sec k).dm ≠ 0 →
       exec (.flush n p k) s = .next (({ s with
         wire := s.wire ++ [⟨s.uid, .back n (L.sec k).gset, .write (L.sec k).dm (L.sec k).data, L.pline * 4 + k, L.vf, s.key L.vf, 1, 0, n, 0⟩]
         uid := s.uid + 1 } : State).updCore n fun c => (c.updLine L.vf L.asid L.vline fun L => L.updSec k fun x => { x with
           dm := 0
           gset := [] }).keepBytes L.vf L.asid (L.vline * 4 + k) (L.sec k).dm)) ∧
    (∀ d, s.dones.find? (·.id == n) = some d → s.doneNext d = true → exec (.writeCompletionReturn n) s = .next (({ s with dones := s.dones.filter (·.id != n) } : State).completes d)) ∧
    (∀ d core gs, d.req.src = .back core gs → d.bad = false → s.shoots = [] →
       s.completes d = (s.judge d.req).updCore d.req.core fun c => { c with hzc := max c.hzc d.c }) ∧
    (∀ G a, s.group? n = some G → G.ended = false → G.acc.find? (·.id == p) = some a → ∀ sc, a.kind = .release sc → (accBefore G.acc p).all (fun b => !b.isRelease) = true → s.released n G a sc = true → ¬(G.werr = true ∧ 6 ≤ sc) →
       let H := { G with acc := G.acc.filter (·.id != p) }
       let u : State := { s with groups := SMap.put s.groups n H }
       (G.blk.find? (·.fences p) = none → exec (.fenceActionsEnd n p) s = .next u) ∧
       ∀ b, G.blk.find? (·.fences p) = some b → Resumes n u H b false (exec (.fenceActionsEnd n p) s)) ∧
    (∀ G a, s.group? n = some G → G.ended = false → G.acc.find? (·.id == p) = some a → ∀ sc b, a.kind = .release sc → (accBefore G.acc p).all (fun b => !b.isRelease) = true → s.released n G a sc = true → G.werr = true → 6 ≤ sc →
       G.blk.find? (fun b => overlaps b.mask a.mask) = some b → s.Trappable G b →
       let H := { G with werr := false }.takeBack b.mask a.id
       ParksBlocked n { s with groups := SMap.put s.groups n H } H b 6 23 (exec (.fenceActionsEnd n p) s)) ∧
    (∀ G a, s.group? n = some G → G.ended = false → G.acc.find? (·.id == p) = some a → ∀ sc, a.kind = .acquire sc → a.due (accBefore G.acc p) s.now = true →
       let v := if sc ≥ 6 then s.invalidateAll G.core else s
       let H := { G with acc := G.acc.filter (·.id != p) }
       let u : State := { v with groups := SMap.put v.groups n H }
       (G.blk.find? (·.fences p) = none → exec (.fenceActionsEnd n p) s = .next u) ∧
       ∀ b, G.blk.find? (·.fences p) = some b → Resumes n u H b false (exec (.fenceActionsEnd n p) s))

/-- Steps of the engines (R315, R320, R322 to R324, R378, R409, R443, R444): a copy command that moves nothing completes, and a chunk whose writes have all been performed retires in order; the queue unit serves its oldest command; a shootdown begins, writes back and ends; a peer access is translated at this device, sent to memory and answered, a store or an atomic with an acknowledgement to follow. -/
def Obligations.EngineStepEvents : Prop :=
  ∀ (s : State) (c n a m : Nat) (x : CopyCmd) (q : QCmd) (rest : List QCmd) (y : Shoot) (r : PeerReq),
    (s.copyCmd? c n = some x → x.chunks = [] → x.total ≤ x.pos →
       exec (.copyChunkRetire c n) s = .next (s.copyDone c { x with comp := max x.comp s.now })) ∧
    (∀ k ks v, s.copyCmd? c n = some x → x.chunks = k :: ks → s.txns.find? k.txn = some v → v.complete = true →
       let z : CopyCmd := { x with
         chunks := ks
         done := x.done + k.run.length
         comp := max x.comp v.comp
         err := x.err || v.werr
         pos := if v.werr then x.total else x.pos }
       (ks = [] ∧ z.total ≤ z.pos → exec (.copyChunkRetire c n) s = .next ((s.endTxn k.txn).copyDone c z)) ∧
       (¬(ks = [] ∧ z.total ≤ z.pos) → exec (.copyChunkRetire c n) s = .next ((s.endTxn k.txn).updCopy c x.id fun _ => z))) ∧
    ((s.die c).qcmds = q :: rest → ((s.die c).queue q.q).ownedBy q.vf = false →
       exec (.queueCommandServe c) s = .next ((s.updDie c fun D => { D with qcmds := rest }).queueAnswer q (if q.kind = 10 then 0 else 2 ^ 31))) ∧
    ((s.die c).qcmds = q :: rest → ((s.die c).queue q.q).ownedBy q.vf = true → q.kind = 6 → ((s.die c).queue q.q).en = true → q.n ≤ ((s.die c).queue q.q).free →
       exec (.queueCommandServe c) s = .next (((s.updDie c fun D => { D with qcmds := rest }).updDie c fun D => { D with queues := D.queues.put (q.q % 256) { (s.die c).queue q.q with
         tail := (((s.die c).queue q.q).tail + q.n) % 2 ^ 31
         free := ((s.die c).queue q.q).free - q.n } }).queueAnswer q ((s.die c).queue q.q).tail)) ∧
    ((s.die c).qcmds = q :: rest → ((s.die c).queue q.q).ownedBy q.vf = true → q.kind = 6 → ((s.die c).queue q.q).en = false ∨ ((s.die c).queue q.q).free < q.n →
       exec (.queueCommandServe c) s = .next (((s.updDie c fun D => { D with qcmds := rest }).updDie c fun D => { D with queues := D.queues.put (q.q % 256) ((s.die c).queue q.q) }).queueAnswer q (2 ^ 31 + ((s.die c).queue q.q).free))) ∧
    ((s.die c).qcmds = q :: rest → ((s.die c).queue q.q).ownedBy q.vf = true → q.kind = 8 → ((s.die c).queue q.q).en = true → q.n ≤ qDist ((s.die c).queue q.q).head ((s.die c).queue q.q).pub →
       exec (.queueCommandServe c) s = .next (((s.updDie c fun D => { D with qcmds := rest }).updDie c fun D => { D with queues := D.queues.put (q.q % 256) { (s.die c).queue q.q with head := (((s.die c).queue q.q).head + q.n) % 2 ^ 31 } }).queueAnswer q ((s.die c).queue q.q).head)) ∧
    ((s.die c).qcmds = q :: rest → ((s.die c).queue q.q).ownedBy q.vf = true → q.kind = 8 → ((s.die c).queue q.q).en = false ∨ qDist ((s.die c).queue q.q).head ((s.die c).queue q.q).pub < q.n →
       exec (.queueCommandServe c) s = .next (((s.updDie c fun D => { D with qcmds := rest }).updDie c fun D => { D with queues := D.queues.put (q.q % 256) ((s.die c).queue q.q) }).queueAnswer q (2 ^ 31 + qDist ((s.die c).queue q.q).head ((s.die c).queue q.q).pub))) ∧
    ((s.die c).qcmds = q :: rest → ((s.die c).queue q.q).ownedBy q.vf = true → q.kind = 7 → qInside ((s.die c).queue q.q).pub ((s.die c).queue q.q).tail q.k q.n ((s.die c).queue q.q).pubs = false →
       exec (.queueCommandServe c) s = .next (((s.updDie c fun D => { D with qcmds := rest }).updDie c fun D => { D with queues := D.queues.put (q.q % 256) { (s.die c).queue q.q with epub := true } }).queueAnswer q 0)) ∧
    ((s.die c).qcmds = q :: rest → ((s.die c).queue q.q).ownedBy q.vf = true → q.kind = 7 → qInside ((s.die c).queue q.q).pub ((s.die c).queue q.q).tail q.k q.n ((s.die c).queue q.q).pubs = true → ((s.die c).queue q.q).mirror = 0 →
       exec (.queueCommandServe c) s = .next (((s.updDie c fun D => { D with qcmds := rest }).updDie c fun D => { D with queues := D.queues.put (q.q % 256) { (s.die c).queue q.q with
         pub := (qAdvance ((s.die c).queue q.q).nslot ((s.die c).queue q.q).pub (((s.die c).queue q.q).pubs ++ qSlots q.k q.n)).1
         pubs := (qAdvance ((s.die c).queue q.q).nslot ((s.die c).queue q.q).pub (((s.die c).queue q.q).pubs ++ qSlots q.k q.n)).2 } }).queueAnswer q 0)) ∧
    ((s.die c).qcmds = q :: rest → ((s.die c).queue q.q).ownedBy q.vf = true → q.kind = 9 → qInside ((s.die c).queue q.q).done ((s.die c).queue q.q).head q.k q.n ((s.die c).queue q.q).dones = false →
       exec (.queueCommandServe c) s = .next (((s.updDie c fun D => { D with qcmds := rest }).updDie c fun D => { D with queues := D.queues.put (q.q % 256) { (s.die c).queue q.q with edone := true } }).queueAnswer q 0)) ∧
    ((s.die c).qcmds = q :: rest → ((s.die c).queue q.q).ownedBy q.vf = true → q.kind = 9 → qInside ((s.die c).queue q.q).done ((s.die c).queue q.q).head q.k q.n ((s.die c).queue q.q).dones = true →
       exec (.queueCommandServe c) s = .next (((s.updDie c fun D => { D with qcmds := rest }).updDie c fun D => { D with queues := D.queues.put (q.q % 256) { (s.die c).queue q.q with
         done := (qAdvance ((s.die c).queue q.q).nslot ((s.die c).queue q.q).done (((s.die c).queue q.q).dones ++ qSlots q.k q.n)).1
         dones := (qAdvance ((s.die c).queue q.q).nslot ((s.die c).queue q.q).done (((s.die c).queue q.q).dones ++ qSlots q.k q.n)).2
         free := ((s.die c).queue q.q).free + qDist ((s.die c).queue q.q).done (qAdvance ((s.die c).queue q.q).nslot ((s.die c).queue q.q).done (((s.die c).queue q.q).dones ++ qSlots q.k q.n)).1 } }).queueAnswer q 0)) ∧
    ((s.die c).qcmds = q :: rest → ((s.die c).queue q.q).ownedBy q.vf = true → q.kind = 10 →
       exec (.queueCommandServe c) s = .next (((s.updDie c fun D => { D with qcmds := rest }).updDie c fun D => { D with queues := D.queues.put (q.q % 256) ((s.die c).queue q.q) }).queueAnswer q (((s.die c).queue q.q).free + ((s.die c).queue q.q).en.toNat * 2 ^ 17 + ((s.die c).queue q.q).epub.toNat * 2 ^ 18 + ((s.die c).queue q.q).edone.toNat * 2 ^ 19))) ∧
    (s.owner n = true → c < 64 → exec (.hostShootdown n c a m) s = .next (s.shoot c a m)) ∧
    ((s.shoot c a m).shoots = s.shoots ++ [⟨s.uid, c, a, m, false, [], 0⟩]) ∧
    ((s.owner n = false ∨ 64 ≤ c) → exec (.hostShootdown n c a m) s = .next s) ∧
    (s.shoots.find? (·.id == n) = some y → y.begun = true → y.out = [] → y.until_ ≤ s.now →
       exec (.shootdownComplete n) s = .next ((({ s with shoots := s.shoots.filter (·.id != n) } : State).dropTlb y.vf y.page y.n).shootDone n)) ∧
    (s.shoots.find? (·.id == n) = some y → y.begun = false → s.shootWaits y = false →
       let u := (s.dropTlb y.vf y.page y.n).shootLines y
       exec (.shootdownComplete n) s = .next { u with shoots := u.shoots.map fun z => if z.id = n then { z with
         begun := true
         out := u.backsOf y.vf } else z }) ∧
    (s.peerIn[n]? = some r → (s.peerIn.take n).any (fun x => x.from_ == r.from_ && x.rvf == r.rvf && x.vsec == r.vsec) = false →
       let w : State := { s with peerIn := s.peerIn.eraseIdx n }
       (s.vf r.rvf).en = false →
       exec (.peerAccessArrival n) s = .next (w.sendAnswer r.from_ (r.answer [] s.now true none))) ∧
    (s.peerIn[n]? = some r → (s.peerIn.take n).any (fun x => x.from_ == r.from_ && x.rvf == r.rvf && x.vsec == r.vsec) = false →
       let w : State := { s with peerIn := s.peerIn.eraseIdx n }
       (s.vf r.rvf).en = true →
       let p := w.translate (w.die 0).tlb r.rvf (r.vsec * 64) r.want (s.fresh + 1)
       let u := (w.learnDie 0 p).draw 2
       ∀ f lev x, p = .fault f lev x → exec (.peerAccessArrival n) s = .next (u.sendAnswer r.from_ (r.answer [] u.now false (some (f, lev))))) ∧
    (s.peerIn[n]? = some r → (s.peerIn.take n).any (fun x => x.from_ == r.from_ && x.rvf == r.rvf && x.vsec == r.vsec) = false →
       let w : State := { s with peerIn := s.peerIn.eraseIdx n }
       (s.vf r.rvf).en = true →
       let p := w.translate (w.die 0).tlb r.rvf (r.vsec * 64) r.want (s.fresh + 1)
       let u := (w.learnDie 0 p).draw 2
       ∀ a e, p = .ok a e → r.op = 0 →
       let ls := r.places (a / 64)
       let b := u.beginTxn .peer r.rvf r.cls r.stamp [(0, ls)] []
       exec (.peerAccessArrival n) s = .next { b.1 with peerRun := b.1.peerRun ++ [(b.2, r)] }) ∧
    (s.peerIn[n]? = some r → (s.peerIn.take n).any (fun x => x.from_ == r.from_ && x.rvf == r.rvf && x.vsec == r.vsec) = false →
       let w : State := { s with peerIn := s.peerIn.eraseIdx n }
       (s.vf r.rvf).en = true →
       let p := w.translate (w.die 0).tlb r.rvf (r.vsec * 64) r.want (s.fresh + 1)
       let u := (w.learnDie 0 p).draw 2
       ∀ a e, p = .ok a e → r.op = 1 →
       let ls := r.places (a / 64)
       let b := u.beginTxn .peer r.rvf r.cls r.stamp [] [(0, ls)]
       let v : State := { b.1 with peerRun := b.1.peerRun ++ [(b.2, r)] }
       exec (.peerAccessArrival n) s = .next (v.writeTxn b.2 (ls.zip r.data))) ∧
    (s.peerIn[n]? = some r → (s.peerIn.take n).any (fun x => x.from_ == r.from_ && x.rvf == r.rvf && x.vsec == r.vsec) = false →
       let w : State := { s with peerIn := s.peerIn.eraseIdx n }
       (s.vf r.rvf).en = true →
       let p := w.translate (w.die 0).tlb r.rvf (r.vsec * 64) r.want (s.fresh + 1)
       let u := (w.learnDie 0 p).draw 2
       ∀ a e, p = .ok a e → 2 ≤ r.op →
       let ls := r.places (a / 64)
       let b := u.beginTxn .peer r.rvf r.cls r.stamp [] [(0, ls)]
       let v : State := { b.1 with peerRun := b.1.peerRun ++ [(b.2, r)] }
       ∀ x, v.txns.find? b.2 = some x → exec (.peerAccessArrival n) s = .next ((v.updTxn b.2 fun x => { x with
         sent := true
         out := 1 }).sendEng b.2 x [(a / 64, .atomic (r.op - 2) r.wide ((r.parts.head?.map (·.at_)).getD 0) r.data r.cmp)])) ∧
    (∀ i v, s.peerIn.length ≤ n → s.peerRun[n - s.peerIn.length]? = some (i, r) → s.txns.find? i = some v → (if r.op = 0 then v.ready else v.complete) = true →
       exec (.peerAccessArrival n) s = .next (s.peerDone i v r)) ∧
    (∀ i v, let D : State := { s.endTxn i with peerRun := s.peerRun.filter fun y => y.1 != i }
       (r.op = 0 → v.bad = [] → v.werr = false → s.peerDone i v r = D.sendAnswer r.from_ (r.answer (r.parts.map fun b => secByte ((v.got.head?.map (·.2)).getD 0) b.at_) s.now false none)) ∧
       (r.op ≠ 0 → v.bad = [] → v.werr = false → s.peerDone i v r = ({ D with peerAcks := D.peerAcks ++ [(r.from_, { r.answer (r.result v) v.comp false none with ack := true })] } : State).sendAnswer r.from_ (r.answer (r.result v) v.comp false none)) ∧
       ((v.bad ≠ [] ∨ v.werr = true) → s.peerDone i v r = D.sendAnswer r.from_ (r.answer (r.result v) (if r.op = 0 then s.now else v.comp) true none)))

/-- Launches (R174 to R190, R233, R447, R448): a doorbell; the next record is read, and accepted with its state and its deadline, or rejected; the distributor sends the launch reads of a team, starts the teams of a placement together, whose groups begin with every thread Ready at the entry, places, or makes room, and then decides nothing until the room is there; the limit on backfill; a deadline. -/
def Obligations.LaunchEvents : Prop :=
  ∀ (s : State) (e v q n : Nat),
    (s.owner e = true → v < 64 → q < 4 →
       exec (.sqDoorbellWrite e v q n) s = .next (s.updSubQ v q fun x => { x with
         tail := BitVec.ofNat 32 n
         err := x.err || decide (2 ^ (x.l + 2) < (BitVec.ofNat 32 n - x.head).toNat) })) ∧
    (s.owner e = false → exec (.sqDoorbellWrite e v q n) s = .next s) ∧
    (s.recordRead = none → s.nextSq = some (v, q) →
       let p := s.recordPlan v q
       (p.faults = [] → exec .launchAccept s = .next (p.st.beginTxn (.subq v q) v 1 0 p.good []).1) ∧
       (p.faults ≠ [] → exec .launchAccept s = .next (p.faults.foldl (fun s f => s.stopQueue v q f) p.st))) ∧
    (∀ t x, s.recordRead = some (t, x, v, q) → x.ready = true → (s.vf v).en = true → ((s.vf v).subq q).ready = true →
       let bs := x.rd.map fun y => s.txnBytes x y.2
       let u := ({ s.endTxn t with lastSq := v * 4 + q } : State).updSubQ v q fun x => { x with head := x.head + 1 }
       bs.any Option.isNone = true → exec .launchAccept s = .next (u.holdDone v 0 3 7 false)) ∧
    (∀ t x, s.recordRead = some (t, x, v, q) → x.ready = true → (s.vf v).en = true → ((s.vf v).subq q).ready = true →
       let bs := x.rd.map fun y => s.txnBytes x y.2
       let u := ({ s.endTxn t with lastSq := v * 4 + q } : State).updSubQ v q fun x => { x with head := x.head + 1 }
       bs.any Option.isNone = false →
       let m := recordNat bs
       let r := recordOf m
       let inUse := fun lid => u.launches.any fun y => y.2.vf == v && y.2.r.lid == lid && y.2.live
       (recordOk m = false ∨ inUse r.lid = true) → exec .launchAccept s = .next (u.holdDone v r.lid 3 0 false)) ∧
    (∀ t x, s.recordRead = some (t, x, v, q) → x.ready = true → (s.vf v).en = true → ((s.vf v).subq q).ready = true →
       let bs := x.rd.map fun y => s.txnBytes x y.2
       let u := ({ s.endTxn t with lastSq := v * 4 + q } : State).updSubQ v q fun x => { x with head := x.head + 1 }
       bs.any Option.isNone = false →
       let m := recordNat bs
       let r := recordOf m
       let inUse := fun lid => u.launches.any fun y => y.2.vf == v && y.2.r.lid == lid && y.2.live
       recordOk m = true → inUse r.lid = false → ∃ M, M.vf = v ∧ M.r = r ∧ M.next = 0 ∧ M.late = false ∧
         M.st = (if (r.deps.take r.ndep).any inUse then .waiting else .eligible) ∧ M.dl = (if r.budget = 0 then none else some (u.now + r.budget)) ∧
         exec .launchAccept s = .next { u with
           launches := SMap.put u.launches u.uid M
           uid := u.uid + 1 }) ∧
    (∀ t x, s.recordRead = some (t, x, v, q) → x.ready = true → ((s.vf v).en = false ∨ ((s.vf v).subq q).ready = false) → exec .launchAccept s = .next (s.endTxn t)) ∧
    (∀ t T M, s.unread = some (t, T) → s.launch? T.launch = some M → exec .teamPlacement s = .next (s.readStart t T M)) ∧
    (∀ ts, s.unread = none → s.startable = some ts → exec .teamPlacement s = .next (ts.foldl (fun s x => s.startOne x.1) s)) ∧
    (∀ ts, s.startable = some ts → ∃ t T, (t, T) ∈ s.teams ∧ ts = s.together t T ∧ ∀ x ∈ ts, x.2.starting = true ∧ (s.startRead x.1).isSome = true) ∧
    (∀ t T M k x bs, s.team? t = some T → s.startRead t = some (k, x) → s.launch? T.launch = some M → s.txnBytes x (x.rd.flatMap (·.2)) = some bs →
       let pre := (List.range M.r.ns).map fun i => BitVec.ofNat 32 (leNat ((bs.drop (4 * i)).take 4))
       let recs : SMap QWord := (((List.range 16).filter fun n => M.r.rmask.testBit n).zipIdx).map fun (n, i) => (n, BitVec.ofNat 128 (leNat ((bs.drop (4 * M.r.ns + 16 * i)).take 16)))
       (s.startOne t).team? t = some { T with
           started := true
           seq := if M.r.mslen = 0 then T.seq else { T.seq with run := 1 } } ∧
         ∀ g G, s.group? g = some G → (s.startOne t).group? g = some (if g ∈ T.groups then G.begin_ M.r T (s.vf T.vf).pwn pre recs else G)) ∧
    (∀ t T M k x, s.team? t = some T → s.startRead t = some (k, x) → s.launch? T.launch = some M → s.txnBytes x (x.rd.flatMap (·.2)) = none → s.startOne t = s.failLaunch T.launch 7) ∧
    (s.unread = none → s.startable = none → ∀ l fits, s.decide = some (.place l fits) → exec .teamPlacement s = .next (s.placeNext l fits)) ∧
    (s.unread = none → s.startable = none → ∀ ts, s.decide = some (.preempt ts) → exec .teamPlacement s = .next (s.makeRoom ts)) ∧
    (s.makingRoom = true → s.decide = none) ∧
    (∀ M, s.launch? n = some M → M.unplaced = true → M.noBack = false → M.since + 1000000 < s.now →
       exec (.backfillTimeout n) s = .next { s with launches := SMap.put s.launches n { M with noBack := true } }) ∧
    (∀ M d, s.launch? n = some M → M.st = .running → M.late = false → M.dl = some d → ∀ r, M.ran = some r → r ≤ d → d ≤ s.now →
       exec (.launchDeadline n) s = .next { s with launches := SMap.put s.launches n { M with late := true } })

/-- Pre-emption and records (R397, R412 to R415, R419 to R422, R449): a request, the time-out that parks, the release and the save of a context, the restore; the write of a completion record or of a fault record leaves, and once it has completed the producer index advances; an answer to a fault record lets threads go on that wait for no other, kills them, fails their launch, is kept for a team that is saved, or is ignored. -/
def Obligations.PreemptionAndRecords : Prop :=
  ∀ (s : State) (e v n : Nat),
    (∀ T, s.team? n = some T → T.pre = .none → ∃ u, exec (.preemptionRequest n) s = .next u ∧ u.team? n = some { T with pre := .asked s.now }) ∧
    (∀ T k, s.team? n = some T → T.pre = .asked k → k + (if (s.vf T.vf).pto = 0 then 100000 else (s.vf T.vf).pto) ≤ s.now →
       (T.groups.any fun g => match s.group? g with | some G => G.running | none => false) = true →
       exec (.preemptionTimeout n) s = .next (T.groups.foldl State.parkLate s)) ∧
    (∀ T k, s.team? n = some T → T.pre = .asked k → s.saveReady n T = true →
       let u := (s.groupsOf T).foldl (fun s x => if x.2.cvm.held then s.stopReady x.1 else s) s
       exec (.contextSave n) s = .next (((u.groupsOf T).foldl (fun s x => s.flushGroup x.1 x.2) u).updTeam n fun T => { T with pre := .flushing })) ∧
    (∀ T, s.team? n = some T → T.pre = .flushing → s.saveReleased T = true →
       exec (.contextSave n) s = .next (s.saveTeam n T)) ∧
    (∀ l ts f, s.decide = some (.restore l ts) → ts.head? = some (n, f) →
       let u := ts.foldl (fun s x => s.restoreTeam x.1 x.2) s
       exec (.teamRestore n) s = .next (u.updLaunch l fun L => { L with
         saved := L.saved.filter fun k => !(ts.any fun x => x.1 == k)
         since := u.now
         noBack := false })) ∧
    (∀ x rest, s.txnOf (.ring v true) = none → (s.vf v).cq.held = x :: rest → (s.vf v).cq.room = true →
       let c := (s.vf v).cq
       let pa := c.base + 16 * (c.p.toNat % c.size)
       exec (.completionRecordWrite v) s = .next (s.engStore (.ring v true) v 1 0 ((leBytes 16 x.toNat).zipIdx.map fun (b, i) => (.glob 0 (pa + i), b)))) ∧
    (∀ x rest, s.txnOf (.ring v false) = none → (s.vf v).fq.held = x :: rest → (s.vf v).fq.room = true →
       let c := (s.vf v).fq
       let pa := c.base + 64 * (c.p.toNat % c.size)
       exec (.faultRecordWrite v) s = .next (s.engStore (.ring v false) v 1 0 ((leBytes 64 x.toNat).zipIdx.map fun (b, i) => (.glob 0 (pa + i), b)))) ∧
    (∀ t x, s.txnOf (.ring v true) = some (t, x) → x.complete = true →
       let u := (s.endTxn t).updVf v fun y => { y with cq := { y.cq with
         held := y.cq.held.drop 1
         p := y.cq.p + 1 } }
       exec (.completionRecordWrite v) s = .next (if (u.vf v).cqn = 0 then u
         else { u with notices := u.notices ++ [((u.vf v).cqn / 2 ^ 48 % 2 ^ 12, (u.vf v).cqn % 2 ^ 48, (u.vf v).cq.p)] })) ∧
    (∀ t x, s.txnOf (.ring v false) = some (t, x) → x.complete = true →
       exec (.faultRecordWrite v) s = .next ((s.endTxn t).updVf v fun y => { y with fq := { y.fq with
         held := y.fq.held.drop 1
         p := y.fq.p + 1 } })) ∧
    (s.owner e = true → v < 64 →
       let u := s.updVf v fun x => { x with resp := BitVec.ofNat 64 (n % 2 ^ 34) }
       s.faults.find? (v * 2 ^ 32 + n % 2 ^ 32) = none → exec (.faultResponseWrite e v n) s = .next u) ∧
    (s.owner e = true → v < 64 →
       let u := s.updVf v fun x => { x with resp := BitVec.ofNat 64 (n % 2 ^ 34) }
       ∀ p, s.faults.find? (v * 2 ^ 32 + n % 2 ^ 32) = some p → (n / 2 ^ 32 % 4 = 3 ∨ p = .trap) → exec (.faultResponseWrite e v n) s = .next u) ∧
    (s.owner e = true → v < 64 →
       let u := s.updVf v fun x => { x with resp := BitVec.ofNat 64 (n % 2 ^ 34) }
       ∀ g m G, s.faults.find? (v * 2 ^ 32 + n % 2 ^ 32) = some (.lanes g m) → s.group? g = some G → m ≠ 0 → s.saving G.team = false →
       let w : State := { u with faults := s.faults.del (v * 2 ^ 32 + n % 2 ^ 32) }
       (n / 2 ^ 32 % 4 = 0 → ∃ t H, exec (.faultResponseWrite e v n) s = .next t ∧ t = { w with groups := SMap.put s.groups g H } ∧ H = { G with lanes := H.lanes } ∧
         ∀ l, H.lane l = if (m.getLsbD l = true ∧ (G.lane l).st = .faulted) ∧ (w.lanesParked g).getLsbD l = false then { G.lane l with st := .ready } else G.lane l) ∧
       (n / 2 ^ 32 % 4 = 1 → exec (.faultResponseWrite e v n) s = .next (w.kill g (maskOf ((lanesOf m).filter fun l => (G.lane l).st == .faulted)))) ∧
       (n / 2 ^ 32 % 4 = 2 → ∀ T, s.team? G.team = some T → exec (.faultResponseWrite e v n) s = .next (w.failLaunch T.launch 3))) ∧
    (s.owner e = true → v < 64 →
       let u := s.updVf v fun x => { x with resp := BitVec.ofNat 64 (n % 2 ^ 34) }
       ∀ p t, s.faults.find? (v * 2 ^ 32 + n % 2 ^ 32) = some p → p ≠ .trap → n / 2 ^ 32 % 4 ≠ 3 → s.partyTeam p = some t → s.saving t = true →
       exec (.faultResponseWrite e v n) s = .next (u.updTeam t fun T => if T.answers.any (fun x => x.1 == n % 2 ^ 32) then T else { T with answers := T.answers ++ [(n % 2 ^ 32, n / 2 ^ 32 % 4)] }))

/-- What an owner writes and reads through Neard (R322, R413, R442, R445 to R449, R469, R504, R505, R507, R511): enabling a function draws fresh keys or is ignored, disabling ends it, and the registers of the window take their fields; an attestation report is sent; an access to a sector, under the function's keys, leaves for memory and ends with its answer. Nothing of this is done for another endpoint. -/
def Obligations.HostRegisterEvents : Prop :=
  ∀ (s : State) (e v n p q : Nat),
    (s.owner e = true → v < 64 →
       let x := n / 2 * 2 + 1
       (s.vf v).en = false → s.enableBad v x = false → exec (.functionEnable e v n) s = .next { s.updVf v fun y => { (y.load x).loadKey x with
         en := true
         gen := s.gens } with gens := s.gens + 1 }) ∧
    (s.owner e = true → v < 64 →
       let x := n / 2 * 2 + 1
       (s.vf v).en = false → s.enableBad v x = true → exec (.functionEnable e v n) s = .next s) ∧
    (s.owner e = true → v < 64 →
       let x := n / 2 * 2 + 1
       (s.vf v).en = true → exec (.functionEnable e v n) s = .next (s.updVf v fun y => y.load x)) ∧
    (s.owner e = true → v < 64 →
       let x := n / 2 * 2
       (s.vf v).en = true → exec (.functionDisable e v n) s = .next ((s.updVf v fun y => y.load x).disable v)) ∧
    (s.owner e = true → v < 64 →
       let x := n / 2 * 2
       (s.vf v).en = false → exec (.functionDisable e v n) s = .next (s.updVf v fun y => (y.load x).loadKey x)) ∧
    (s.owner e = true → v < 64 → exec (.configRegisterWrite e v 0 n) s = .next (if (s.vf v).en = true then s.updVf v fun y => y.load (n / 2 * 2 + 1) else s.updVf v fun y => (y.load (n / 2 * 2)).loadKey (n / 2 * 2))) ∧
    (s.owner e = true → v < 64 → exec (.configRegisterWrite e v 1 n) s = .next (s.updVf v fun y => { y with fq := { y.fq with
         base := n / 2 ^ 80 % 2 ^ 48 / 4096 * 4096
         l := n / 2 ^ 76 % 16
         en := n / 2 ^ 64 % 2 == 1
         c := BitVec.ofNat 32 (n / 2 ^ 32 % 2 ^ 32) } })) ∧
    (s.owner e = true → v < 64 → exec (.configRegisterWrite e v 2 n) s = .next (s.updVf v fun y => { y with cq := { y.cq with
         base := n / 2 ^ 80 % 2 ^ 48 / 4096 * 4096
         l := n / 2 ^ 76 % 16
         en := n / 2 ^ 64 % 2 == 1
         c := BitVec.ofNat 32 (n / 2 ^ 32 % 2 ^ 32) } })) ∧
    (s.owner e = true → v < 64 → exec (.configRegisterWrite e v 3 n) s = .next (s.updVf v fun y => { y with cqn := n % 2 ^ 60 })) ∧
    (s.owner e = true → v < 64 → ∀ q, q < 4 → exec (.configRegisterWrite e v (4 + q) n) s = .next (s.updSubQ v q fun y => y.load n)) ∧
    (s.owner e = true → v < 64 → exec (.configRegisterWrite e v 8 n) s = .next ({ s with devId := n % 4096 })) ∧
    (s.owner e = true → v < 1024 →
       let r := (s.die (v / 256)).queue v
       r.en = false → exec (.queueConfigWrite e v n p) s = .next (s.updDie (v / 256) fun D => { D with queues := D.queues.put (v % 256) (QRec.load n p) })) ∧
    (s.owner e = true → v < 1024 →
       let r := (s.die (v / 256)).queue v
       r.en = true → n / 2 ^ 155 % 2 = 0 → exec (.queueConfigWrite e v n p) s = .next (s.updDie (v / 256) fun D => { D with queues := D.queues.put (v % 256) { r with en := false } })) ∧
    (s.owner e = true → v < 1024 →
       let r := (s.die (v / 256)).queue v
       r.en = true → n / 2 ^ 155 % 2 = 1 → exec (.queueConfigWrite e v n p) s = .next s) ∧
    (s.owner e = true → v < 4 → n ≤ 2 ^ 32 → n % 2 ^ 21 = 0 → (∀ o, o < 16 → (s.assay v o).ast &&& 1 = 0) → exec (.stagingAreaSizeWrite e v n) s = .next (s.updDie v fun D => { D with asz := n })) ∧
    (s.owner e = true → 1600 ≤ n → n ≤ 2400 → exec (.powerLimitWrite e n) s = .next { s with power := n }) ∧
    (s.owner e = true → let r := s.report (n % 2 ^ 256)
       exec (.attestationRequest e n) s = .next { s with reports := s.reports ++ [(r, Config.ed25519Sign r, Config.mlDsaSign r)] }) ∧
    (s.report (n % 2 ^ 256) = leBytes 32 (n % 2 ^ 256) ++ leBytes 2 s.devId ++ leBytes 2 s.image.ver ++ leBytes 48 (Config.sha384 s.image.bytes) ++
       leBytes 48 (Config.sha384 ((List.range 64).flatMap fun k => leBytes 32 (s.vf k).bits)) ++ leBytes 2 s.upCores ++ leBytes 8 s.now) ∧
    (s.owner e = true → v < 64 → p * 64 < memEnd → s.txnOf (.host v p) = none → exec (.hostMemoryAccess e v 0 p n) s = .next (s.beginTxn (.host v p) v 1 0 [(0, [.glob 0 (p * 64)])] []).1) ∧
    (s.owner e = true → v < 64 → p * 64 < memEnd → s.txnOf (.host v p) = none → ∀ w, w ≠ 0 → exec (.hostMemoryAccess e v w p n) s = .next (s.engStore (.host v p) v 1 0 ((List.range 64).map fun i => (.glob 0 (p * 64 + i), secByte (BitVec.ofNat 512 n) i)))) ∧
    (s.owner e = true → v < 64 → p * 64 < memEnd → ∀ w k x, s.txnOf (.host v p) = some (k, x) → (x.complete = true → exec (.hostMemoryAccess e v w p n) s = .next (s.endTxn k)) ∧
       (x.complete = false → x.ready = true → exec (.hostMemoryAccess e v w p n) s = .next { s.endTxn k with hostReads := s.hostReads ++ [(v, p * 64, (if x.bad = [] then (List.range 64).map (secByte (x.got.get p 0)) else []), x.bad != [])] })) ∧
    (s.owner e = false → exec (.functionEnable e v n) s = .next s ∧
       exec (.functionDisable e v n) s = .next s ∧
       exec (.configRegisterWrite e v p n) s = .next s ∧
       exec (.queueConfigWrite e v n p) s = .next s ∧
       exec (.stagingAreaSizeWrite e v n) s = .next s ∧
       exec (.powerLimitWrite e n) s = .next s ∧
       exec (.attestationRequest e n) s = .next s ∧
       exec (.hostMemoryAccess e v p n q) s = .next s ∧
       exec (.faultResponseWrite e v n) s = .next s ∧
       exec (.hostShootdown e v n p) s = .next s ∧
       exec (.moduleReplacement e) s = .next s)

/-- Bring-up, power and repair (R401 to R403, R440, R441, R501 to R503, R506 to R510): a device reset leaves memory, fuses and repairs; a recovery image is taken only if it verifies; clocks stretch and recover within 1.2 and 1.9 GHz; an array error is corrected, refetched, traps its lane or loses its team; a core is retired to a spare; rows, channels and lanes are replaced without a change of any value, and what a lost plane carried is sent again. -/
def Obligations.ServiceEvents : Prop :=
  ∀ (s : State) (e n v f g z : Nat),
    (s.owner e = true → exec (.moduleReplacement e) s = .next ((List.range 20).foldl (fun s p => s.updPort p fun P => { P with up := false })
       ((List.range 64).foldl (fun s v => if (s.vf v).en then s.disable v else s) s))) ∧
    (∃ t, exec .deviceReset s = .next t ∧ t.mem = s.mem ∧ t.side = s.side ∧ t.now = s.now ∧ t.image = s.image ∧ t.floor = (if s.verifies s.image then max s.floor s.image.floor else s.floor) ∧
       t.boot = (if s.verifies s.image then .up else .recovery) ∧ t.gens = s.gens ∧ t.boots = s.boots + 1 ∧ t.groups = [] ∧ t.teams = [] ∧ t.launches = [] ∧ t.vfs = [] ∧ t.colls = [] ∧ t.power = 2400 ∧
       (∀ c, (t.core c).up = (s.core c).up ∧ (t.core c).l1 = [] ∧ (t.core c).tags = BitVec.allOnes 64 ∧ (t.core c).terr = 0) ∧
       ∀ d, (t.die d).queues = [] ∧ (t.die d).convoys = [] ∧ (t.die d).assays = [] ∧ (t.die d).spares = (s.die d).spares ∧ (t.die d).phys = (s.die d).phys) ∧
    (s.boot = .recovery →
       let i : Image := {
         bytes := leBytes (Nat.log2 n / 8 + 1) n
         ed := g % 2 == 1
         ml := g / 2 % 2 == 1
         ver := v % 2 ^ 16
         floor := f % 2 ^ 16
         owners := [e % 4096]
         hazard := z % 2 == 1 }
       (i.ed && i.ml && decide (s.floor ≤ i.ver)) = true → exec (.recoveryImageLoad n g v f e z) s = .next { s with
         image := i
         boot := .up
         floor := max s.floor i.floor
         hazard := i.hazard }) ∧
    (s.boot = .recovery → (decide (g % 2 = 1) && decide (g / 2 % 2 = 1) && decide (s.floor ≤ v % 2 ^ 16)) = false → exec (.recoveryImageLoad n g v f e z) s = .next s) ∧
    (n < 4 → exec (.supplySag n v) s = .next (s.updDie n fun D => { D with mhz := max 1200 (min D.mhz v) })) ∧
    (n < 4 → exec (.supplyRecovery n v) s = .next (s.updDie n fun D => { D with mhz := min 1900 (max D.mhz v) })) ∧
    (∃ t, exec (.modulePowerExcess v) s = .next t ∧ ∀ d, t.die d = if d < 4 then { s.die d with mhz := max 1200 (min (s.die d).mhz v) } else s.die d) ∧
    (n < 336 → exec (.arrayEccError n 0 v f) s = .next (s.updCore n fun C => { C with secc := satInc C.secc })) ∧
    (n < 336 → ∀ L, (s.core n).l1[v]? = some L → f < 4 → (L.sec f).dm = 0 →
       exec (.arrayEccError n 1 v f) s = .next (s.updCore n fun C => C.updLine L.vf L.asid L.vline fun M => M.updSec f fun x => { x with v := false })) ∧
    (n < 336 → ∀ L, (s.core n).l1[v]? = some L → f < 4 → (L.sec f).dm ≠ 0 → exec (.arrayEccError n 1 v f) s = .next (s.retire_ n)) ∧
    (n < 336 → v < (s.core n).icache.length → exec (.arrayEccError n 2 v f) s = .next (s.updCore n fun C => { C with icache := C.icache.eraseIdx v })) ∧
    (n < 336 → ∀ G, s.group? v = some G → G.core = n → G.ended = false → f < 32 → (G.lane f).st ≠ .exited → s.isSaved G.team = false →
       let k := G.standsAt (G.lane f)
       exec (.arrayEccError n 3 v f) s = .next (((s.updGroup v fun G => G.pullLane f).dropRequest v).raise v (G.lane f).hnd ⟨laneBit f, k.2, k.2, k.1 + 4, causeWord 6 24 0, false⟩)) ∧
    (n < 336 → ∀ G, s.group? v = some G → G.core = n → G.ended = false → f < 32 → (G.lane f).st ≠ .exited → s.isSaved G.team = false →
       let k := G.standsAt (G.lane f)
       G.rbReq = false → (G.lane f).hnd = false → (s.vf G.vf).hcl ≠ 0 →
       ∃ H, exec (.arrayEccError n 3 v f) s = .next { s with groups := SMap.put s.groups v H } ∧ H = { G.pullLane f with
         lanes := H.lanes
         trapQ := G.trapQ ++ [⟨laneBit f, k.2, k.2, k.1 + 4, causeWord 6 24 0, false⟩] } ∧
         ∀ l, H.lane l = if (laneBit f).getLsbD l = true then { G.lane l with
           st := .trapped
           pc := k.2
           hints := Hints.clear } else G.lane l) ∧
    (n < 336 → ∀ T, s.team? v = some T → T.core = n → T.pre ≠ .saved → exec (.arrayEccError n 4 v f) s = .next ((s.loseTeam v).retire_ n)) ∧
    (n < 336 → (s.core n).up = true →
       let w := (s.teamsOn n []).foldl (fun s x => s.loseTeam x.1) s
       let u : State := { w with txns := w.txns.filter fun x => !(x.2.who.onCore n) }
       ∀ p ps, (u.die (n / 84)).spares = p :: ps → exec (.coreRetirement n) s = .next ((u.updDie (n / 84) fun D => { D with
         spares := ps
         phys := D.phys.put (n % 84) p }).updCore n fun _ => Core.init)) ∧
    (n < 336 → (s.core n).up = true →
       let w := (s.teamsOn n []).foldl (fun s x => s.loseTeam x.1) s
       let u : State := { w with txns := w.txns.filter fun x => !(x.2.who.onCore n) }
       (u.die (n / 84)).spares = [] → exec (.coreRetirement n) s = .next (u.updCore n fun _ => { Core.init with up := false })) ∧
    (16 ≤ (s.rowCorr.get (n * 2 ^ 32 + v) []).length → (s.rowCorr.get (n * 2 ^ 32 + v) []).headD 0 - (s.rowCorr.get (n * 2 ^ 32 + v) []).getLastD 0 ≤ 2 ^ 30 →
       exec (.hbmRowRemap n v) s = .next { s with
         rows := s.rows ++ [n * 2 ^ 32 + v]
         rowCorr := s.rowCorr.del (n * 2 ^ 32 + v) }) ∧
    (n < 8 → v < 32 → s.spared.find? n = none → exec (.hbmChannelSparing n v) s = .next { s with spared := s.spared.put n v }) ∧
    (n < 20 → exec (.linkLaneFailure n) s = .next (s.updPort n fun P => if P.spare then { P with spare := false } else { P with lanes := 4 })) ∧
    (n < 26 → exec (.flitCrcError n) s = .next s) ∧
    (n < 20 → exec (.planeOutOfService n) s = .next ((s.updPort n fun P => { P with up := false }).resend n)) ∧
    (s.planes ≠ [] → s.resend n = { s with
         peerOut := s.peerOut ++ (s.peerSent.filter fun r => r.plane == n && r.dev != s.devId).map fun r => { r with plane := s.planeOf r.dev r.vsec }
         peerSent := s.peerSent.map fun r => if (r.plane == n && r.dev != s.devId) = true then { r with plane := s.planeOf r.dev r.vsec } else r }) ∧
    (exec (.partFailure n) s = .next s)

/-- The Drover's events (R455, R457, R460 to R463, R466, R492, R513): a chunk enters the contribution or is discarded with ERR; a partial on time is kept, a late one goes up as a correction; at its deadline a node sends what it holds, and the root its result, +0 where nothing came; corrections add to the result or are dropped; the root's verdict sets CTMO where the manifest is incomplete. -/
def Obligations.DroverEvents : Prop :=
  ∀ (s : State) (n o p : Nat) (x : DroPkt) (k : Chunk),
    (s.chunks[n]? = some k → s.chunkNext n k = true →
       let u := { s with chunks := s.chunks.eraseIdx n }
       ((s.coll k.obj).isOpen && k.idx < (s.coll k.obj).nch && !((s.coll k.obj).chunks.contains k.idx) && k.type == (s.coll k.obj).type) = false →
       exec (.droChunkArrival n) s = .next ((u.droBits k.obj dstERR).chunkReply k (s.coll k.obj).isOpen false)) ∧
    (s.chunks[n]? = some k → s.chunkNext n k = true →
       let u := { s with chunks := s.chunks.eraseIdx n }
       (s.coll k.obj).isOpen = true → k.idx < (s.coll k.obj).nch → k.idx ∉ (s.coll k.obj).chunks → k.type = (s.coll k.obj).type →
       let w := u.updColl k.obj fun c => { c with
         chunks := c.chunks ++ [k.idx]
         contrib := (k.vals.zipIdx).foldl (fun m (v, i) => SMap.put m (8192 * (if (s.coll k.obj).op = 2 then (s.coll k.obj).rank * (s.coll k.obj).nch + k.idx else k.idx) + i) (c.entered v)) c.contrib }
       ((s.coll k.obj).chunks.length + 1 ≠ (s.coll k.obj).nch → exec (.droChunkArrival n) s = .next (w.chunkReply k true true)) ∧
       ((s.coll k.obj).chunks.length + 1 = (s.coll k.obj).nch → exec (.droChunkArrival n) s = .next (((List.range (s.coll k.obj).plan.length).foldl (fun s p => s.droOwn k.obj p)
         (w.updColl k.obj fun c => { c with ctick := some s.now })).chunkReply k true true))) ∧
    (s.droPkt? n [0] = some x →
       let u := { s with droIn := s.droIn.eraseIdx n }
       (s.coll x.obj).isOpen = false ∨ x.rnd ≠ (s.coll x.obj).rnd ∨ (s.coll x.obj).plan.length ≤ x.path → exec (.droPartialArrival n) s = .next (u.droBits x.obj dstDROP)) ∧
    (s.droPkt? n [1, 2] = some x →
       let u := { s with droIn := s.droIn.eraseIdx n }
       (s.coll x.obj).isOpen = false ∨ x.rnd ≠ (s.coll x.obj).rnd ∨ (s.coll x.obj).plan.length ≤ x.path → exec (.droResultArrival n) s = .next (u.droBits x.obj dstDROP)) ∧
    (s.droPkt? n [6] = some x →
       let u := { s with droIn := s.droIn.eraseIdx n }
       (s.coll x.obj).isOpen = false ∨ x.rnd ≠ (s.coll x.obj).rnd ∨ (s.coll x.obj).plan.length ≤ x.path → exec (.droVerdictArrival n) s = .next (u.droBits x.obj dstDROP)) ∧
    (s.droPkt? n [3, 4, 5] = some x →
       let u := { s with droIn := s.droIn.eraseIdx n }
       (s.coll x.obj).isOpen = false ∨ x.rnd ≠ (s.coll x.obj).rnd ∨ (s.coll x.obj).plan.length ≤ x.path → exec (.droCorrectionArrival n) s = .next (u.droBits x.obj dstDROP)) ∧
    (s.droPkt? n [0] = some x →
       let u := { s with droIn := s.droIn.eraseIdx n }
       (s.coll x.obj).isOpen = true → x.rnd = (s.coll x.obj).rnd → x.path < (s.coll x.obj).plan.length → (x.tick : Int) < (s.coll x.obj).deadline x.path → ((s.coll x.obj).path x.path).fwd = false →
       exec (.droPartialArrival n) s = .next ((u.updColl x.obj fun c => c.updPath x.path fun y => { y with got := y.got ++ [x] }).droTry x.obj x.path)) ∧
    (s.droPkt? n [0] = some x →
       let u := { s with droIn := s.droIn.eraseIdx n }
       (s.coll x.obj).isOpen = true → x.rnd = (s.coll x.obj).rnd → x.path < (s.coll x.obj).plan.length → (s.coll x.obj).deadline x.path ≤ x.tick ∨ ((s.coll x.obj).path x.path).fwd = true → ∀ e, (s.coll x.obj).plan[x.path]? = some e → e.parent ≠ 0x3FF →
       exec (.droPartialArrival n) s = .next ((u.droMiss x.obj).droEmit x.obj x.path 3 e.parent x.man false [] x.vals)) ∧
    (s.droPkt? n [0] = some x →
       let u := { s with droIn := s.droIn.eraseIdx n }
       (s.coll x.obj).isOpen = true → x.rnd = (s.coll x.obj).rnd → x.path < (s.coll x.obj).plan.length → (s.coll x.obj).deadline x.path ≤ x.tick ∨ ((s.coll x.obj).path x.path).fwd = true → ∀ e, (s.coll x.obj).plan[x.path]? = some e → e.parent = 0x3FF → exec (.droPartialArrival n) s = .next (u.droApply x.obj x)) ∧
    (s.droPkt? n [3, 4, 5] = some x →
       let u := { s with droIn := s.droIn.eraseIdx n }
       (s.coll x.obj).isOpen = true → x.rnd = (s.coll x.obj).rnd → x.path < (s.coll x.obj).plan.length → x.kind = 3 → ∀ e, (s.coll x.obj).plan[x.path]? = some e → e.parent ≠ 0x3FF →
       exec (.droCorrectionArrival n) s = .next ((u.droMiss x.obj).droEmit x.obj x.path 3 e.parent x.man false [] x.vals)) ∧
    (s.droPkt? n [3, 4, 5] = some x →
       let u := { s with droIn := s.droIn.eraseIdx n }
       (s.coll x.obj).isOpen = true → x.rnd = (s.coll x.obj).rnd → x.path < (s.coll x.obj).plan.length → x.kind = 3 → ∀ e, (s.coll x.obj).plan[x.path]? = some e → e.parent = 0x3FF → exec (.droCorrectionArrival n) s = .next (u.droApply x.obj x)) ∧
    (s.droPkt? n [3, 4, 5] = some x →
       let u := { s with droIn := s.droIn.eraseIdx n }
       (s.coll x.obj).isOpen = true → x.rnd = (s.coll x.obj).rnd → x.path < (s.coll x.obj).plan.length → x.kind ≠ 3 → ((s.coll x.obj).path x.path).have_ = true → exec (.droCorrectionArrival n) s = .next ((u.droCorrected x.obj x.path x.vals x.man (x.kind == 4) none []).droRelay x.obj x)) ∧
    ((s.coll o).cto = 0 ∨ (s.coll o).dl + (s.coll o).cto < x.tick → s.droApply o x = s.droBits o dstDROP) ∧
    ((s.coll o).cto ≠ 0 → x.tick ≤ (s.coll o).dl + (s.coll o).cto → ((s.coll o).path x.path).have_ = true → (s.coll o).op ≠ 1 →
       let old : SMap Word := x.vals.map fun (k, _) => (k, (s.coll o).result.get k 0)
       let new : SMap Word := (mergeVals (s.coll o).op old x.vals).map fun (k, v) => (k, (s.coll o).rounded v)
       let man := ((s.coll o).path x.path).man ||| x.man
       let log := if (s.coll o).log = 0 then none else some ((s.coll o).log + 144 * (s.coll o).logk, droLogBytes s.now x.path (s.coll o).rnd x.man)
       s.droApply o x = (((s.droMiss o).updColl o fun c => { c with logk := if c.log = 0 then c.logk else c.logk + 1 }).droCorrected o x.path new man true log []).droEmit o x.path 4 1024 man false [] new) ∧
    (s.droPkt? n [1, 2] = some x →
       let u := { s with droIn := s.droIn.eraseIdx n }
       (s.coll x.obj).isOpen = true → x.rnd = (s.coll x.obj).rnd → x.path < (s.coll x.obj).plan.length → ((s.coll x.obj).path x.path).have_ = false → exec (.droResultArrival n) s = .next ((u.droResult x.obj x.path x.vals x.man (x.kind == 1) []).droRelay x.obj x)) ∧
    (s.droPkt? n [1, 2] = some x →
       let u := { s with droIn := s.droIn.eraseIdx n }
       (s.coll x.obj).isOpen = true → x.rnd = (s.coll x.obj).rnd → x.path < (s.coll x.obj).plan.length → ((s.coll x.obj).path x.path).have_ = true → exec (.droResultArrival n) s = .next u) ∧
    (s.droPkt? n [6] = some x →
       let u := { s with droIn := s.droIn.eraseIdx n }
       (s.coll x.obj).isOpen = true → x.rnd = (s.coll x.obj).rnd → x.path < (s.coll x.obj).plan.length → let v := (u.updColl x.obj fun c => c.updPath x.path fun y => { y with closed := true }).droRelay x.obj x
       exec (.droVerdictArrival n) s = .next (if x.full then v else v.droBits x.obj dstCTMO)) ∧
    ((s.coll o).isOpen = true → ((s.coll o).path p).fwd = false → (s.coll o).deadline p ≤ s.now →
       (s.droIn.any fun x => x.kind == 0 && x.obj == o && x.path == p && x.rnd == (s.coll o).rnd && decide ((x.tick : Int) < (s.coll o).deadline p)) = false →
       ∀ e, (s.coll o).plan[p]? = some e →
       let own := (s.coll o).ownOnTime p
       let u := s.updColl o fun c => c.updPath p fun y => { y with fwd := true, own := y.own || own }
       e.parent ≠ 0x3FF → exec (.droNodeDeadline o p) s = .next ((match (s.coll o).partialOf p own with
         | some v => u.droEmit o p 0 e.parent v.2 false [] v.1
         | none => u).droSent o)) ∧
    ((s.coll o).isOpen = true → ((s.coll o).path p).fwd = false → (s.coll o).deadline p ≤ s.now →
       (s.droIn.any fun x => x.kind == 0 && x.obj == o && x.path == p && x.rnd == (s.coll o).rnd && decide ((x.tick : Int) < (s.coll o).deadline p)) = false →
       ∀ e, (s.coll o).plan[p]? = some e →
       let own := (s.coll o).ownOnTime p
       let u := s.updColl o fun c => c.updPath p fun y => { y with fwd := true, own := y.own || own }
       e.parent = 0x3FF → (s.coll o).op ≠ 1 → ((s.coll o).path p).cq = [] →
       let v := ((s.coll o).partialOf p own).getD ([], 0)
       let r := (s.coll o).resultOf p v.1
       exec (.droNodeDeadline o p) s = .next ((((u.droResult o p r v.2 true []).droEmit o p 1 1024 v.2 false [] r).updColl o fun c => c.updPath p fun y => { y with cq := [] }).droSent o)) ∧
    (∀ e, (s.coll o).plan[p]? = some e → e.parent = 0x3FF → (s.coll o).isOpen = true → (s.coll o).dl + (s.coll o).cto ≤ s.now →
       ((s.coll o).path p).have_ = true → ((s.coll o).path p).closed = false →
       (s.droIn.any fun x => (x.kind == 0 || x.kind == 3) && x.obj == o && x.path == p && x.rnd == (s.coll o).rnd && decide (x.tick < (s.coll o).window)) = false →
       ((s.coll o).jobs.any fun j => j.path == p) = false → ((s.coll o).op ≠ 1 ∨ (s.coll o).comp ≤ s.now) →
       let full := ((s.coll o).path p).man == (s.coll o).full
       let u := (s.updColl o fun c => c.updPath p fun y => { y with closed := true }).droEmit o p 6 1024 ((s.coll o).path p).man full [] []
       exec (.droCorrectionWindowClose o p) s = .next (if full then u else u.droBits o dstCTMO)) ∧
    (∀ y t, (s.coll o).corrs.find? (fun (z : Corr) => z.id == n) = some y → y.tEnd = some t → t ≤ s.now → exec (.droCorrTimeout o n) s = .next (s.corrDone o y s.now)) ∧
    (n < 4 → (s.die n).rateAt + 65536 ≤ s.now →
       ∃ f : Nat → Nat, (∀ k, 1 ≤ f k ∧ f k ≤ 255 ∧ (s.linkIdle k = true → f k = min 255 (max 1 (s.linkRate n k / 8)))) ∧
         let rs := (List.range 8).map f
         let u := (s.takeRates s.devId n rs).updDie n fun D => { D with rateAt := s.now }
         exec (.linkRateExchange n) s = .next (({ u with rateOut := u.rateOut ++ [(n, rs)] } : State).draw 8))

/-- The Assayer's events (R469 to R478, R481): a packet passes the tests of its object, key, id, serial and window or is discarded; a slot is staged, rejected, sealed, and commits scaled by no more than 1, in ascending id before the deadline, at once after it; at the deadline idle slots are absent and the total is written; when the window closes, slots still staging are rejected. -/
def Obligations.AssayerEvents : Prop :=
  ∀ (s : State) (n d o i : Nat) (late : Bool) (x : AsyPkt) (a : Assay),
    (s.asyPkt? n 0 = some x →
       let u := { s with asyIn := s.asyIn.eraseIdx n }
       let y := s.assay x.die x.obj
       y.isOpen = false → exec (.asyBeginMarker n) s = .next (u.asyReply x 1)) ∧
    (s.asyPkt? n 0 = some x →
       let u := { s with asyIn := s.asyIn.eraseIdx n }
       let y := s.assay x.die x.obj
       y.isOpen = true → x.key ≠ y.akey ∨ y.c ≤ x.id → exec (.asyBeginMarker n) s = .next ((u.asyBits x.die x.obj astERR).asyReply x 4)) ∧
    (s.asyPkt? n 0 = some x →
       let u := { s with asyIn := s.asyIn.eraseIdx n }
       let y := s.assay x.die x.obj
       y.isOpen = true → x.key = y.akey → x.id < y.c → x.ser ≠ y.rnd % 65536 ∨ y.shut = true → exec (.asyBeginMarker n) s = .next ((u.asyBits x.die x.obj astDROP).asyReply x 4)) ∧
    (s.asyPkt? n 0 = some x →
       let u := { s with asyIn := s.asyIn.eraseIdx n }
       let y := s.assay x.die x.obj
       y.isOpen = true → x.key = y.akey → x.id < y.c → x.ser = y.rnd % 65536 → y.shut = false → y.smear = false → exec (.asyBeginMarker n) s = .next ((u.updAssay x.die x.obj fun _ => (y.accept x).1).wake.asyReply x (if (y.accept x).2 then 4 else 0))) ∧
    (s.asyPkt? n 1 = some x →
       let u := { s with asyIn := s.asyIn.eraseIdx n }
       let y := s.assay x.die x.obj
       y.isOpen = false → exec (.asyDataPacket n) s = .next (u.asyReply x 1)) ∧
    (s.asyPkt? n 1 = some x →
       let u := { s with asyIn := s.asyIn.eraseIdx n }
       let y := s.assay x.die x.obj
       y.isOpen = true → x.key ≠ y.akey ∨ y.c ≤ x.id → exec (.asyDataPacket n) s = .next ((u.asyBits x.die x.obj astERR).asyReply x 4)) ∧
    (s.asyPkt? n 1 = some x →
       let u := { s with asyIn := s.asyIn.eraseIdx n }
       let y := s.assay x.die x.obj
       y.isOpen = true → x.key = y.akey → x.id < y.c → x.ser ≠ y.rnd % 65536 ∨ y.shut = true → exec (.asyDataPacket n) s = .next ((u.asyBits x.die x.obj astDROP).asyReply x 4)) ∧
    (s.asyPkt? n 1 = some x →
       let u := { s with asyIn := s.asyIn.eraseIdx n }
       let y := s.assay x.die x.obj
       y.isOpen = true → x.key = y.akey → x.id < y.c → x.ser = y.rnd % 65536 → y.shut = false → y.smear = false → exec (.asyDataPacket n) s = .next ((u.updAssay x.die x.obj fun _ => (y.accept x).1).wake.asyReply x (if (y.accept x).2 then 4 else 0))) ∧
    (s.asyPkt? n 2 = some x →
       let u := { s with asyIn := s.asyIn.eraseIdx n }
       let y := s.assay x.die x.obj
       y.isOpen = false → exec (.asyEndMarker n) s = .next (u.asyReply x 1)) ∧
    (s.asyPkt? n 2 = some x →
       let u := { s with asyIn := s.asyIn.eraseIdx n }
       let y := s.assay x.die x.obj
       y.isOpen = true → x.key ≠ y.akey ∨ y.c ≤ x.id → exec (.asyEndMarker n) s = .next (((if y.dl ≤ x.tick then u.updDie x.die fun D => { D with missA := satInc D.missA } else u).asyBits x.die x.obj astERR).asyReply x 4)) ∧
    (s.asyPkt? n 2 = some x →
       let u := { s with asyIn := s.asyIn.eraseIdx n }
       let y := s.assay x.die x.obj
       y.isOpen = true → x.key = y.akey → x.id < y.c → x.ser ≠ y.rnd % 65536 ∨ y.shut = true → exec (.asyEndMarker n) s = .next (((if y.dl ≤ x.tick then u.updDie x.die fun D => { D with missA := satInc D.missA } else u).asyBits x.die x.obj astDROP).asyReply x 4)) ∧
    (s.asyPkt? n 2 = some x →
       let u := { s with asyIn := s.asyIn.eraseIdx n }
       let y := s.assay x.die x.obj
       y.isOpen = true → x.key = y.akey → x.id < y.c → x.ser = y.rnd % 65536 → y.shut = false → y.smear = false → exec (.asyEndMarker n) s = .next (((if y.dl ≤ x.tick then u.updDie x.die fun D => { D with missA := satInc D.missA } else u).updAssay x.die x.obj fun _ => (y.accept x).1).wake.asyReply x (if (y.accept x).2 then 4 else 0))) ∧
    (x.kind = 0 → a.accept x = if (a.slot x.id).st = 0 then (a.updSlot x.id fun q => { q with
         st := 1
         want := x.n
         ser := x.ser }, false) else (a.mark astDROP, true)) ∧
    (x.kind = 1 → (a.slot x.id).st ≠ 1 → a.accept x = (a.mark astERR, true)) ∧
    (x.kind = 1 → (a.slot x.id).st = 1 → (a.ne < x.first + x.vals.length ∨ ∃ i, i < x.vals.length ∧ (SMap.find? (a.slot x.id).vals (x.first + i)).isSome = true) → a.accept x = (a.reject x.id 1, true)) ∧
    (x.kind = 1 → (a.slot x.id).st = 1 → x.first + x.vals.length ≤ a.ne → (∀ i, i < x.vals.length → SMap.find? (a.slot x.id).vals (x.first + i) = none) → a.accept x = (a.updSlot x.id fun q => { q with
         cnt := q.cnt + x.vals.length
         vals := (x.vals.zipIdx).foldl (fun m (v, i) => SMap.put m (x.first + i) v) q.vals }, false)) ∧
    (x.kind = 2 → (a.slot x.id).st ≠ 1 → a.accept x = (a.mark astDROP, true)) ∧
    (x.kind = 2 → (a.slot x.id).st = 1 → x.n ≠ (a.slot x.id).want ∨ (a.slot x.id).want ≠ a.ne ∨ (a.slot x.id).cnt ≠ a.ne → a.accept x = (a.reject x.id 1, true)) ∧
    (x.kind = 2 → (a.slot x.id).st = 1 → x.n = a.ne → (a.slot x.id).want = a.ne → (a.slot x.id).cnt = a.ne → (a.slot x.id).bad = true → a.accept x = (a.reject x.id 4, true)) ∧
    (x.kind = 2 → (a.slot x.id).st = 1 → x.n = a.ne → (a.slot x.id).want = a.ne → (a.slot x.id).cnt = a.ne → (a.slot x.id).bad = false →
       let nsq := asyNorm a.ne (a.slot x.id).vals
       let b := a.updSlot x.id fun q => { q with nsq := BitVec.ofNat 32 nsq }
       nsq / 2 ^ 23 % 256 = 255 → a.accept x = (b.reject x.id 3, true)) ∧
    (x.kind = 2 → (a.slot x.id).st = 1 → x.n = a.ne → (a.slot x.id).want = a.ne → (a.slot x.id).cnt = a.ne → (a.slot x.id).bad = false →
       let nsq := asyNorm a.ne (a.slot x.id).vals
       let b := a.updSlot x.id fun q => { q with nsq := BitVec.ofNat 32 nsq }
       let c := b.updSlot x.id fun q => { q with st := 2 }
       nsq / 2 ^ 23 % 256 ≠ 255 → (x.tick < a.dl → a.accept x = (c.advance, false)) ∧ (a.dl ≤ x.tick → a.accept x = (c.correct x.tick x.id, false))) ∧
    (let q := a.slot i
       let sc := if q.nsq.toNat % 2 ^ 31 = 0 then 0x3F800000 else min 0x3F800000 (fDiv fp32 .rn a.alim.toNat (fSqrt fp32 q.nsq.toNat).1).1
       let b := a.commit i late
       b.amf = a.amf ||| ((1 : DWord) <<< i) ∧ b.ast = a.ast ||| (if sc < 0x3F800000 then astCLIP else 0) ∧
       (∀ j, j ≠ i → b.slot j = a.slot j) ∧ (b.slot i = { q with
         st := 3
         scale := BitVec.ofNat 32 sc
         late := late
         vals := [] }) ∧
       ∀ j, b.total.get j 0 = if j < a.ne then BitVec.ofNat 32 (fAdd fp32 .rn (a.total.get j 0).toNat (fMul fp32 .rn sc (q.vals.get j 0).toNat).1).1 else a.total.get j 0) ∧
    (∀ m, m < i → i < a.c → (a.slot m).st = 0 ∨ ((a.slot m).st = 1 ∧ a.isDue = false) → a.drain.slot i = a.slot i) ∧
    (let y := s.assay d o;
       y.isOpen = true → y.isDue = false → y.dl ≤ s.now → s.asyWaits d o y.dl = false → y.smear = false →
       ∃ b : Assay, exec (.asyDeadline d o) s = .next (s.updAssay d o fun _ => if b.drain.wrote then b.drain else b.drain.result false none (astDONE ||| (if b.drain.full then 0 else astPART))).wake ∧
         b = { y with
           ast := y.ast ||| astDUE
           slots := b.slots } ∧ ∀ i, b.slot i = if i < y.c ∧ (y.slot i).st = 0 then { y.slot i with st := 4 } else y.slot i) ∧
    (let y := s.assay d o;
       y.isOpen = true → y.isDue = true → y.shut = false → y.dl + y.cto ≤ s.now → s.asyWaits d o (y.dl + y.cto) = false →
       ∃ b : Assay, exec (.asyCorrectionWindowClose d o) s = .next (s.updAssay d o fun _ => b).wake ∧
         b = { y with
           ast := y.ast ||| (if (List.range y.c).any (fun i => (y.slot i).st == 1) then astREJ else 0) ||| (if y.full then 0 else astCTMO)
           slots := b.slots
           shut := true } ∧ ∀ i, b.slot i = if i < y.c ∧ (y.slot i).st = 1 then { y.slot i with
             st := 5
             why := 2
             vals := [] } else y.slot i)

/-- Words that are no instruction and fetches that fail (R21, R29, R58, R344, R349, R389, R400, R411): the class and detail of the trap, or of the fault of the stream, in front of the word and its hints; a hint of kind 1, 2 or 4 is recorded whatever its payload; threads whose recorded hints differ are parked each at its own first hint; a page fault parks the path, or the sequencer, and files its record. -/
def Obligations.FetchFaults : Prop :=
  ∀ (s t : State) (c : Ctx) (v n g : Nat) (T : Team) (G : Group),
    (IssuesWord (bitsAt v 31 1 == 1) s c t → c.alike = true → bitsAt v 27 4 = 13 → c.h = false → (t.vf c.G.vf).hcl ≠ 0 → Parks c t ⟨c.mask, c.first, c.first, c.pc + 4, causeWord 1 2 0, false⟩ 0 (exec (.reservedEncoding v) s)) ∧
    (IssuesWord (bitsAt v 31 1 == 1) s c t → c.alike = true → bitsAt v 27 4 ≠ 13 → bitsAt v 27 4 ≠ 15 → c.h = false → (t.vf c.G.vf).hcl ≠ 0 → Parks c t ⟨c.mask, c.first, c.first, c.pc + 4, causeWord 1 3 0, false⟩ 0 (exec (.reservedEncoding v) s)) ∧
    (IssuesWord (bitsAt v 31 1 == 1) s c t → c.alike = true → bitsAt v 27 4 = 15 → bitsAt v 24 3 = 1 → Hinted c t (fun h => { h with immhi := some (c.pc, BitVec.ofNat 24 v) }) (exec (.reservedEncoding v) s)) ∧
    (IssuesWord (bitsAt v 31 1 == 1) s c t → c.alike = true → bitsAt v 27 4 = 15 → bitsAt v 24 3 = 2 → Hinted c t (fun h => { h with modh := some (c.pc, BitVec.ofNat 24 v) }) (exec (.reservedEncoding v) s)) ∧
    (IssuesWord (bitsAt v 31 1 == 1) s c t → c.alike = true → bitsAt v 27 4 = 15 → bitsAt v 24 3 = 4 → Hinted c t (fun h => { h with nop := some (c.pc, BitVec.ofNat 24 v) }) (exec (.reservedEncoding v) s)) ∧
    (IssuesWord (bitsAt v 31 1 == 1) s c t → c.alike = true → bitsAt v 27 4 = 15 → bitsAt v 24 3 ≠ 1 → bitsAt v 24 3 ≠ 2 → bitsAt v 24 3 ≠ 4 → exec (.reservedEncoding v) s = .next (t.hintTrap c)) ∧
    (IssuesWord (bitsAt v 31 1 == 1) s c t → c.alike = false → exec (.reservedEncoding v) s = .next (c.eachClass (fun d u => u.reservedPath d v) t)) ∧
    (s.context? = some c → c.alike = true → segIn (c.G.code c.h) c.pc.toNat = false → c.h = false → (s.vf c.G.vf).hcl ≠ 0 → Parks c s ⟨c.mask, c.first, c.first, c.pc + 4, causeWord 1 1 0, false⟩ 0 (exec .fetchBounds s)) ∧
    (s.context? = some c → c.alike = false → segIn (c.G.code c.h) c.pc.toNat = false → exec .fetchBounds s = .next (c.eachClass (fun d u => u.trapAt d 1 1) s)) ∧
    (s.context? = some c → c.alike = true → let va := segBase (c.G.code c.h) + c.pc.toNat
       segIn (c.G.code c.h) c.pc.toNat = true → s.codeAt c.G.core c.G.vf va = .bad → c.h = false → (s.vf c.G.vf).hcl ≠ 0 → Parks c (s.dropBad c.G.core c.G.vf va) ⟨c.mask, c.first, c.pc, c.pc + 4, causeWord 6 21 0, false⟩ 0 (exec .codeFetchFault s)) ∧
    (s.context? = some c → c.alike = false → let va := segBase (c.G.code c.h) + c.pc.toNat
       segIn (c.G.code c.h) c.pc.toNat = true → s.codeAt c.G.core c.G.vf va = .bad → exec .codeFetchFault s = .next (c.eachClass (fun d u => u.raise d.g d.h ⟨d.mask, d.first, d.pc, d.pc + 4, causeWord 6 21 0, false⟩) (s.dropBad c.G.core c.G.vf va))) ∧
    (s.context? = some c → c.alike = true → let va := segBase (c.G.code c.h) + c.pc.toNat
       c.mask ≠ 0 → segIn (c.G.code c.h) c.pc.toNat = true → ∀ k b x, s.codeAt c.G.core c.G.vf va = .page k b x →
       let w := (s.learn c.G.core x).groupFault c.g c.G c.mask c.first va k b 3
       exec .codeFetchFault s = .next ((w.updGroup c.g fun G =>
         G.updLanes (lanesOf c.mask) fun _ x => { x with
           st := .faulted
           pc := c.first
           hints := Hints.clear }).draw 1)) ∧
    (s.context? = some c → c.alike = false → let va := segBase (c.G.code c.h) + c.pc.toNat
       segIn (c.G.code c.h) c.pc.toNat = true → ∀ k b x, s.codeAt c.G.core c.G.vf va = .page k b x →
       let w := (s.learn c.G.core x).groupFault c.g c.G c.mask c.first va k b 3
       exec .codeFetchFault s = .next ((c.eachClass (fun d u => u.parkLanes d d.mask) w).draw 1)) ∧
    (Sequences s n T → s.Handles T g G → bitsAt v 27 4 = 13 ∨ (bitsAt v 27 4 = 15 ∧ 4 ≤ bitsAt v 24 3) → SeqFaults n s T g G 3 0 (exec (.reservedEncoding v) s)) ∧
    (Sequences s n T → s.Handles T g G → bitsAt v 27 4 ≠ 13 → (bitsAt v 27 4 = 15 → bitsAt v 24 3 < 4) → SeqFaults n s T g G 2 0 (exec (.reservedEncoding v) s)) ∧
    (Sequences s n T → s.Handles T g G → s.seqVa T = none → SeqFaults n s T g G 1 0 (exec .fetchBounds s)) ∧
    (Sequences s n T → s.Handles T g G → ∀ va, s.seqVa T = some va → s.codeAt T.core T.vf va = .bad → SeqFaults n (s.dropBad T.core T.vf va) T g G 20 0 (exec .codeFetchFault s)) ∧
    (Sequences s n T → s.Handles T g G → ∀ va k b x, s.seqVa T = some va → s.codeAt T.core T.vf va = .page k b x → exec .codeFetchFault s = .next (((s.learn T.core x).seqPark n T va k b 3).draw 1))

/-- What every instruction of a thread stream goes through before its effect (R20, R23, R26, R27, R33, R58, R386, R388, R392, R423): with W it waits for earlier results and takes late errors; the checks come in their order, and the first that fails parks the path on its trap; with no handler, or within the handler, the launch fails. -/
def Obligations.ChecksAndWaits : Prop :=
  ∀ (i : Info) (k : Ctx → State → State) (s : State) (c : Ctx),
    (s.context? = some c → c.alike = true → i.w = true → c.G.waits c.mask = true → issue i k s = .next s) ∧
    (s.context? = some c → c.alike = true → i.w = true → c.G.waits c.mask = false → c.G.late c.mask = true → issue i k s = .next (s.deliver c)) ∧
    (s.context? = some c → c.alike = true → let d := if i.w then c.waited else c
       let t := if i.w then s.waited c else s
       (i.w = true → c.G.waits c.mask = false ∧ c.G.late c.mask = false) → ∀ a b, i.check d t = some (a, b) → c.h = false → (s.vf c.G.vf).hcl ≠ 0 → Parks d t ⟨c.mask, c.first, c.first, c.pc + 4, causeWord a b 0, false⟩ 0 (issue i k s)) ∧
    (s.context? = some c → c.alike = true → let d := if i.w then c.waited else c
       let t := if i.w then s.waited c else s
       (i.w = true → c.G.waits c.mask = false ∧ c.G.late c.mask = false) → ∀ a b T, i.check d t = some (a, b) → c.h = false → (s.vf c.G.vf).hcl = 0 → s.team? c.G.team = some T →
       ∃ u, Parks d t ⟨c.mask, c.first, c.first, c.pc + 4, causeWord a b 0, false⟩ 0 (.next u) ∧ issue i k s = .next ((u.trapRecord c.G.vf (u.lidOf d.G) c.G.core c.G.part c.G.slot 0 c.mask c.first (causeWord a b 0)).failLaunch T.launch 4)) ∧
    (s.context? = some c → c.alike = true → let d := if i.w then c.waited else c
       let t := if i.w then s.waited c else s
       (i.w = true → c.G.waits c.mask = false ∧ c.G.late c.mask = false) → ∀ a b T, i.check d t = some (a, b) → c.h = true → s.team? c.G.team = some T →
       ∃ u, Parks d t ⟨c.mask, c.first, c.first, c.pc + 4, causeWord a b 0, false⟩ 0 (.next u) ∧ issue i k s = .next ((u.trapRecord c.G.vf (u.lidOf d.G) c.G.core c.G.part c.G.slot 0 c.mask c.first (causeWord a b 0)).failLaunch T.launch 6)) ∧
    (s.context? = some c → c.alike = true → let d := if i.w then c.waited else c
       let t := if i.w then s.waited c else s
       (i.w = true → c.G.waits c.mask = false ∧ c.G.late c.mask = false) → i.check d t = none → i.blocking = false → i.var = true → c.G.full c.mask = true → issue i k s = .next t) ∧
    (s.context? = some c → c.alike = true → let d := if i.w then c.waited else c
       let t := if i.w then s.waited c else s
       (i.w = true → c.G.waits c.mask = false ∧ c.G.late c.mask = false) → i.check d t = none → i.w = false → i.blocking = true → c.G.waits c.mask = true → issue i k s = .next s) ∧
    (s.context? = some c → c.alike = true → let d := if i.w then c.waited else c
       let t := if i.w then s.waited c else s
       (i.w = true → c.G.waits c.mask = false ∧ c.G.late c.mask = false) → i.check d t = none → i.w = false → i.blocking = true → c.G.waits c.mask = false → c.G.late c.mask = true → issue i k s = .next (s.deliver c)) ∧
    (i.handler = true → c.h = false → i.check c s = some (1, 4)) ∧
    (i.handler = false → i.priv = true → (s.vf c.G.vf).priv = false ∨ c.h = true → i.check c s = some (2, 0)) ∧
    (i.handler = false → (i.priv = true → (s.vf c.G.vf).priv = true ∧ c.h = false) → i.hintBad c.hints = true → i.check c s = some (1, 0)) ∧
    (i.handler = false → (i.priv = true → (s.vf c.G.vf).priv = true ∧ c.h = false) → i.hintBad c.hints = false → (i.regs.any fun u => !(u.ok c.G.held)) = true → i.check c s = some (3, 0)) ∧
    (i.handler = false → (i.priv = true → (s.vf c.G.vf).priv = true ∧ c.h = false) → i.hintBad c.hints = false → (i.regs.any fun u => !(u.ok c.G.held)) = false → s.hazard = true → i.blocking = false → (c.G.wins.any fun w => overlaps w.mask c.mask && (i.uses c.hints).any fun u => u.meets w.dst) = true → i.check c s = some (1, 5))

/-- Threads of equal PC are one path whatever hints they have recorded (R28, R157, R385; log 41): the path waits as one, one check that fails fails all of it, and otherwise each class of threads with equal hints takes the instruction with its own, the class of the lowest lane first. The classes cover the path, and each is a path as the other statements speak of one. -/
def Obligations.SplitPaths : Prop :=
  ∀ (i : Info) (k : Ctx → State → State) (s : State) (c : Ctx),
    (s.context? = some c → c.alike = false → i.held c = true → issue i k s = .next s) ∧
    (s.context? = some c → c.alike = false → i.held c = false → (i.w || i.blocking) = true → c.G.late c.mask = true → issue i k s = .next (c.eachClass (fun d u => u.deliver d) s)) ∧
    (s.context? = some c → c.alike = false → i.held c = false → ((i.w || i.blocking) && c.G.late c.mask) = false → ∀ a b, c.checkAny (fun _ => i) s = some (a, b) → issue i k s = .next (c.eachClass (fun d u => u.trapAt d a b) s)) ∧
    (s.context? = some c → c.alike = false → i.held c = false → ((i.w || i.blocking) && c.G.late c.mask) = false → c.checkAny (fun _ => i) s = none → issue i k s = .next (c.eachClass (fun d u => issueOne i k d u) s)) ∧
    (s.context? = some c → ∀ m d, m ∈ c.G.hintClasses 32 (lanesOf c.mask) → c.class_ s m = some d → d.alike = true ∧ d.mask = m ∧ d.g = c.g ∧ d.G = c.G ∧ d.h = c.h ∧ d.pc = c.pc ∧ ({ s with cur := .path c.g c.h c.pc m } : State).context? = some d) ∧
    (∀ u m d, c.class_ u m = some d → ({ u with cur := .path c.g c.h c.pc m } : State).context? = some d) ∧
    (∀ l, (c.mask.getLsbD l = true ↔ ∃ m ∈ c.G.hintClasses 32 (lanesOf c.mask), m.getLsbD l = true))

/-- Encoding and decoding agree (R55 to R73): the word of every well-formed instruction decodes to it, with every operand at every value that its encoding admits. -/
def Obligations.DecodeOfEncode : Prop :=
  ∀ i : Instr, i.wf = true → decode (encode i) = some i

/-- A word that decodes is the word of the instruction that it decodes to, and that instruction is well formed (R55 to R73): no bit of a word is ignored, and no two words are one instruction. -/
def Obligations.EncodeOfDecode : Prop :=
  ∀ (x : Nat) (i : Instr), x < 2 ^ 32 → decode x = some i → i.wf = true ∧ encode i = x

/-- The worked words of the chapter on encodings, and a word each of the classes that it shows none of (R55 to R73); a `jri` with a nonzero reserved bit, and a hint of a reserved kind, are no instruction. -/
def Obligations.SampleWordsDecode : Prop :=
  decode 0x00004103 = some (.addVr 0 1 2 3) ∧
  decode 0x0C424111 = some (.fmulVs 0 9 2 17) ∧
  decode 0x1000417F = some (.addVi 0 1 2 127) ∧
  decode 0x194E4209 = some (.scmp 0 5 1 1 4 9) ∧
  decode 0x20096018 = some (.sadd 0 300 12) ∧
  decode 0x2A408205 = some (.sld 0 8 2 5) ∧
  decode 0x35000010 = some (.call 0 16) ∧
  decode 0x40218281 = some (.shfli 0 6 5 1) ∧
  decode 0x4061C30B = some (.sldn 0 7 6 2 3) ∧
  decode 0x4AC40231 = some (.stq 0 8 2 3 0 1) ∧
  decode 0x50218108 = some (.aadd 0 1 6 2 8) ∧
  decode 0x58803023 = some (.wait 0 6 2 1 1) ∧
  decode 0x5A2D0000 = some (.fence 0 6 2) ∧
  decode 0x60C16051 = some (.qclaim 0 44 40) ∧
  decode 0x68289000 = some (.mmul 2 1 4 0) ∧
  decode 0x70000007 = some (.trap 0 7) ∧
  decode 0x7A000010 = some (.modh 0 0 0 0 0 0 0 1 0) ∧
  decode 0xFC000000 = some (.nop 1) ∧
  decode 0x5A80A001 = none ∧
  decode 0x7F000000 = none

/-- Every step keeps device memory in its canonical form, from every state that has it: addresses strictly rise, and no byte is listed that reads as an unlisted one (log 8). -/
def Obligations.MemoryFormKeptByEveryStep : Prop :=
  ∀ s t : State, s.Inv → step s = .next t → t.Inv

/-- Device memory changes only where a request reaches its channel and where a function is disabled (R243, R277, R282, R446, R449, R509): an instruction of a thread or matrix stream leaves every byte of it as it was, and so does every event but these five: the arrival of a write, an atomic, and the three host writes that clear EN, which write the records that the function's rings still hold (log 36). -/
def Obligations.OnlyStoresChangeMemory : Prop :=
  ∀ (i : Instr) (s t : State), exec i s = .next t →
    (∀ a, t.byteAt (.glob 0 a) = s.byteAt (.glob 0 a)) ∨
    (∃ n, i = .writeArrival n) ∨ (∃ n, i = .atom n) ∨ (∃ e v x, i = .functionDisable e v x) ∨
    (∃ e v r x, i = .configRegisterWrite e v r x) ∨ (∃ e, i = .moduleReplacement e)

/-- The state after reset (R5, R10, R273, R318, R322, R412, R413, R445, R447, R449, R464, R469, R479, R507): memory in its canonical form; tags without commands, queues, function registers, rings, collective and assay objects all zero; no staging area; the horizon zero; the power limit 2,400 W; nothing resident, nothing on its way. That nothing is listed in memory is the model's choice (log 8), and so is the tick 0. -/
def Obligations.ResetState : Prop :=
  State.reset.Inv ∧ State.reset.boot = .up ∧ State.reset.power = 2400 ∧
  State.reset.groups = [] ∧ State.reset.teams = [] ∧ State.reset.launches = [] ∧ State.reset.wire = [] ∧ State.reset.copies = [] ∧
  State.reset.dones = [] ∧ State.reset.txns = [] ∧ State.reset.cvMsgs = [] ∧ State.reset.faults = [] ∧ State.reset.shoots = [] ∧
  (∀ c, (State.reset.core c).tags = BitVec.allOnes 64 ∧ (State.reset.core c).terr = 0 ∧ (State.reset.core c).l1 = [] ∧
    (State.reset.core c).icache = [] ∧ (State.reset.core c).copies = []) ∧
  (∀ d q, let Q := (State.reset.die d).queue q
    Q.mirror = 0 ∧ Q.base = 0 ∧ Q.edone = false ∧ Q.epub = false ∧ Q.en = false ∧ Q.cls = 0 ∧ Q.lns = 0 ∧ Q.lsz = 0 ∧ Q.free = 0 ∧
    Q.done = 0 ∧ Q.head = 0 ∧ Q.pub = 0 ∧ Q.tail = 0) ∧
  (∀ d, (State.reset.die d).asz = 0 ∧ (∀ n, (State.reset.die d).hor.get n 0 = 0) ∧ (State.reset.die d).mhz = 1900) ∧
  (∀ v, let V := State.reset.vf v
    V.hcb = 0 ∧ V.hcl = 0 ∧ V.hent = 0 ∧ V.pwb = 0 ∧ V.pwn = 0 ∧ V.root = 0 ∧ V.pto = 0 ∧ V.key = 0 ∧ V.asid = 0 ∧ V.priv = false ∧
    V.en = false ∧ V.fq.base = 0 ∧ V.fq.l = 0 ∧ V.fq.en = false ∧ V.fq.c = 0 ∧ V.fq.p = 0 ∧ V.cq.base = 0 ∧ V.cq.en = false ∧ V.cqn = 0 ∧
    V.fid = 1 ∧ ∀ q, (V.subq q).base = 0 ∧ (V.subq q).l = 0 ∧ (V.subq q).err = false ∧ (V.subq q).en = false ∧ (V.subq q).head = 0 ∧
      (V.subq q).tail = 0) ∧
  (∀ o, (State.reset.coll o).dst = 0 ∧ (State.reset.coll o).owner = 64) ∧
  (∀ d o, (State.reset.assay d o).ast = 0)

/-- A step runs the decoded instruction (R20, R21, R55, R158, R165, R192, R345, R429, R512, log 1). Where the schedule's next choice is a cycle of a partition whose first group's first path has the word of a well-formed instruction at its PC, the step is `exec` of that instruction on the path, and the group, the slot and the yield marks are kept up; where the choice is to pair and R165 lets the next group share the slot, its path runs the word too, and its slot is the last (log 70); the same for a sequencer. A path's word is that of the loop buffer, then one fetched ahead, then that of the instruction cache; a line that is not there is sent for. -/
def Obligations.StepRunsDecodedWord : Prop :=
  (∀ (s t : State) (k p g : Nat) (G : Group) (h : Bool) (pc m : Word) (more : List (Bool × Word × Word)) (gs : List (Nat × Group))
     (rest : List Choice) (c : Ctx) (w : Nat) (i : Instr) (pair : Bool),
    s.agenda = .issue k p pair :: rest →
    let u := { s with
      cur := .none
      agenda := rest }
    u.slotOrder k p = (g, G) :: gs → G.order = (h, pc, m) :: more →
    let v := { u with cur := .path g h pc m }
    v.context? = some c → (v.fetch c).1 = .word w → decode w = some i → exec i (v.fetch c).2 = .next t →
    stalled (v.fetch c).2 t g h pc m = false →
    let t1 := { t.updGroup g (fun x => x.issued c.G h pc m (isHint w)) with cur := .none }
    let x : Issued := ⟨c.G, pc, m, c.hints, some w⟩
    (pair = false ∨ u.partner exec t1 x gs = none →
      step s = .next ((u.unskip t1 k p).updPart k p fun P => { P with last := some G.slot })) ∧
    ∀ (g2 : Nat) (G2 : Group) (h2 : Bool) (pc2 m2 : Word) (more2 : List (Bool × Word × Word)) (gs2 : List (Nat × Group)) (c2 : Ctx) (t2 : State),
      pair = true → gs = (g2, G2) :: gs2 → G2.order = (h2, pc2, m2) :: more2 →
      let v2 := { t1 with cur := .path g2 h2 pc2 m2 }
      v2.context? = some c2 → (v2.fetch c2).1 = .word w → exec i (v2.fetch c2).2 = .next t2 →
      stalled (v2.fetch c2).2 t2 g2 h2 pc2 m2 = false → u.pairs x ⟨c2.G, pc2, m2, c2.hints, some w⟩ = true →
      let t3 := { t2.updGroup g2 (fun x => x.issued c2.G h2 pc2 m2 (isHint w)) with cur := .none }
      step s = .next ((u.unskip t3 k p).updPart k p fun P => { P with last := some G2.slot })) ∧
  (∀ (s t : State) (n : Nat) (T : Team) (rest : List Choice) (w : Nat) (i : Instr),
    s.agenda = .seq n :: rest → s.team? n = some T → T.seqLive = true → T.pre ≠ .saved → (s.core T.core).up = true →
    let v := { s with
      cur := .seq n
      agenda := rest }
    (v.seqFetch n T).1 = .word w → decode w = some i → exec i (v.seqFetch n T).2 = .next t → step s = .next { t with cur := .none }) ∧
  (∀ (s : State) (c : Ctx), segIn (c.G.code c.h) c.pc.toNat = false → (s.fetch c).1 = .bounds) ∧
  (∀ (s : State) (c : Ctx), segIn (c.G.code c.h) c.pc.toNat = true →
    let va := segBase (c.G.code c.h) + c.pc.toNat
    (∀ w, s.loopWord c va = some w → (s.fetch c).1 = .word w.toNat) ∧
    (s.loopWord c va = none →
      (∀ w, c.G.pre.find? va = some w → (s.fetch c).1 = .word w.toNat) ∧
      (c.G.pre.find? va = none → ∀ l, (s.core c.G.core).codeLine c.G.vf (s.vf c.G.vf).asid va = some l →
        (s.fetch c).1 = .word (codeWord l.data va)) ∧
      (c.G.pre.find? va = none → ∀ pa t, s.codeAt c.G.core c.G.vf va = .ask pa t →
        s.fetch c = (.miss, s.askCode c.G.core c.G.vf va (s.svcOf c.G.team) pa t)))) ∧
  (∀ (s : State) (n : Nat) (T : Team) (va : Nat), s.seqVa T = some va →
    (∀ w, T.seq.buf.find? va = some w → (s.seqFetch n T).1 = .word w.toNat) ∧
    (T.seq.buf.find? va = none → ∀ l, (s.core T.core).codeLine T.vf (s.vf T.vf).asid va = some l →
      (s.seqFetch n T).1 = .word (codeWord l.data va)) ∧
    (T.seq.buf.find? va = none → ∀ pa t, s.codeAt T.core T.vf va = .ask pa t →
      s.seqFetch n T = (.miss, s.askCode T.core T.vf va (s.svcOf n) pa t)))

/-- A schedule with nothing on it never stops the machine: the model's own schedule (log 1) always finds a next state. -/
def Obligations.ScheduleNeverStops : Prop :=
  ∀ s : State, s.agenda = [] → s.SafeStep

/-- A command of a queue that is not assigned to the issuing function (R378): it is served as by a queue with EN = 0 and every field zero. `qclaim` and `qtake` give 0x8000_0000, `qstat` gives 0; `qpub` and `qdone` change nothing and set no bit in any queue; no group has a new trap. -/
def Obligations.ForeignQueuesActDisabled : Prop :=
  ∀ (s : State) (d : Nat) (c : QCmd) (rest : List QCmd), (s.die d).qcmds = c :: rest → ((s.die d).queue c.q).ownedBy c.vf = false →
    (∃ t, exec (.queueCommandServe d) s = .next t ∧
      (c.kind = 6 ∨ c.kind = 8 → t = (s.updDie d fun D => { D with qcmds := rest }).queueAnswer c 0x80000000 ∧
        (QRec.init.serve c).2.1 = 0x80000000) ∧
      (c.kind = 10 → t = (s.updDie d fun D => { D with qcmds := rest }).queueAnswer c 0 ∧ (QRec.init.serve c).2.1 = 0) ∧
      (c.kind = 7 ∨ c.kind = 9 → c.pend = none → t = s.updDie d fun D => { D with qcmds := rest }) ∧
      (∀ k q, (t.die k).queue q = (s.die k).queue q) ∧
      ∀ g G, s.group? g = some G → ∃ H, t.group? g = some H ∧ H.trapQ = G.trapQ)

/-- The fill register of a slide without a mod hint is s0, and a mod hint whose FILL is 0 is as none (R75). -/
def Obligations.FillWithoutHint : Prop :=
  ∀ (s t : State) (c : Ctx) (w : BitVec 1) (d a : BitVec 7) (n : BitVec 5), Issues (infoSlide w d a 3) s c t →
    c.hints.modh = none ∨ (∃ pc x, c.hints.modh = some (pc, x) ∧ x.extractLsb' 12 7 = 0) →
    WritesV c t d.toNat (fun l => (if n.toNat ≤ l then c.from (l - n.toNat) a.toNat else c.rs 0, 0)) (exec (.slup w d a n 3) s) ∧
    WritesV c t d.toNat (fun l => (if l + n.toNat < 32 then c.from (l + n.toNat) a.toNat else c.rs 0, 0)) (exec (.sldn w d a n 3) s)
end

