-- ==== Sys2Proof/Laws/Map.lean ====
section
/-! SUPPORT. Sparse maps: reading after a write, writing twice, and that writing keeps the canonical order. -/

namespace Sys2Proof.Machine

variable {α : Type}

@[simp] theorem SMap.find?_nil (i : Nat) : SMap.find? ([] : SMap α) i = none := rfl

/-- A read at the key that was written gives what was written. -/
@[simp] theorem SMap.find?_put_self (m : SMap α) (i : Nat) (x : α) : SMap.find? (SMap.put m i x) i = some x := by
  induction m with
  | nil => simp [SMap.put, SMap.find?]
  | cons p m ih =>
    obtain ⟨k, v⟩ := p
    simp only [SMap.put]
    split
    · simp [SMap.find?]
    · split
      · simp [SMap.find?]
      · rename_i h1 h2
        simp only [SMap.find?, if_neg h2, if_neg h1, ih]

/-- A write leaves every other key alone. -/
theorem SMap.find?_put_ne (m : SMap α) {i j : Nat} (x : α) (h : j ≠ i) : SMap.find? (SMap.put m i x) j = SMap.find? m j := by
  induction m with
  | nil => simp only [SMap.put, SMap.find?, if_neg h]; split <;> rfl
  | cons p m ih =>
    obtain ⟨k, v⟩ := p
    simp only [SMap.put]
    split
    · rename_i h1
      simp only [SMap.find?, if_neg h]
      split
      · rename_i h2
        have : j ≠ k := by omega
        have h3 : j < k := by omega
        simp [this, h3]
      · rfl
    · split
      · rename_i h1 h2
        subst h2
        simp [SMap.find?, h]
      · simp only [SMap.find?, ih]

/-- The same with a value for the keys that are absent. -/
@[simp] theorem SMap.get_put_self (m : SMap α) (i : Nat) (x d : α) : SMap.get (SMap.put m i x) i d = x := by
  simp [SMap.get]

theorem SMap.get_put_ne (m : SMap α) {i j : Nat} (x d : α) (h : j ≠ i) : SMap.get (SMap.put m i x) j d = SMap.get m j d := by
  simp [SMap.get, SMap.find?_put_ne m x h]

theorem SMap.get_put (m : SMap α) (i j : Nat) (x d : α) :
    SMap.get (SMap.put m i x) j d = if j = i then x else SMap.get m j d := by
  split
  · rename_i h; subst h; simp
  · rename_i h; exact SMap.get_put_ne m x d h

/-- The later of two writes at one key stands. -/
@[simp] theorem SMap.put_put (m : SMap α) (i : Nat) (x y : α) : SMap.put (SMap.put m i x) i y = SMap.put m i y := by
  induction m with
  | nil => simp [SMap.put]
  | cons p m ih =>
    obtain ⟨k, v⟩ := p
    simp only [SMap.put]
    split
    · simp [SMap.put]
    · split
      · simp [SMap.put]
      · rename_i h1 h2
        simp only [SMap.put, if_neg h1, if_neg h2, ih]

/-- Writing what stands at a key already changes nothing. -/
theorem SMap.put_find (m : SMap α) (i : Nat) (x : α) (h : SMap.find? m i = some x) : SMap.put m i x = m := by
  induction m with
  | nil => simp at h
  | cons p m ih =>
    obtain ⟨k, v⟩ := p
    simp only [SMap.find?] at h
    simp only [SMap.put]
    split at h
    · rename_i h1; cases h; subst h1; simp
    · split at h
      · simp at h
      · rename_i h1 h2
        simp [h1, h2, ih h]

/-- Changing an entry that is there. -/
theorem SMap.upd_some (m : SMap α) (i : Nat) (f : α → α) (x : α) (h : SMap.find? m i = some x) :
    SMap.upd m i f = SMap.put m i (f x) := by
  simp [SMap.upd, h]

theorem SMap.upd_none (m : SMap α) (i : Nat) (f : α → α) (h : SMap.find? m i = none) : SMap.upd m i f = m := by
  simp [SMap.upd, h]

@[simp] theorem SMap.find?_upd_self (m : SMap α) (i : Nat) (f : α → α) :
    SMap.find? (SMap.upd m i f) i = (SMap.find? m i).map f := by
  cases h : SMap.find? m i with
  | none => simp [SMap.upd, h]
  | some x => simp [SMap.upd, h]

theorem SMap.find?_upd_ne (m : SMap α) {i j : Nat} (f : α → α) (h : j ≠ i) :
    SMap.find? (SMap.upd m i f) j = SMap.find? m j := by
  cases hx : SMap.find? m i with
  | none => simp [SMap.upd, hx]
  | some x => simp only [SMap.upd, hx]; exact SMap.find?_put_ne m (f x) h

/-- Two changes of one entry are one. -/
theorem SMap.upd_upd (m : SMap α) (i : Nat) (f g : α → α) : SMap.upd (SMap.upd m i f) i g = SMap.upd m i fun x => g (f x) := by
  cases h : SMap.find? m i with
  | none => simp [SMap.upd, h]
  | some x => simp [SMap.upd, h]

/-! ## The canonical order -/

theorem SMap.wfFrom_weaken (m : SMap α) (b : Option Nat) (h : SMap.wfFrom b m = true) : SMap.wfFrom none m = true := by
  cases m with
  | nil => rfl
  | cons p m =>
    obtain ⟨k, v⟩ := p
    simp only [SMap.wfFrom, Bool.and_eq_true] at h ⊢
    exact ⟨trivial, h.2⟩

theorem SMap.wfFrom_lower (m : SMap α) (a b : Nat) (hab : a ≤ b) (h : SMap.wfFrom (some b) m = true) :
    SMap.wfFrom (some a) m = true := by
  cases m with
  | nil => rfl
  | cons p m =>
    obtain ⟨k, v⟩ := p
    simp only [SMap.wfFrom, Bool.and_eq_true, decide_eq_true_eq] at h ⊢
    exact ⟨by omega, h.2⟩

theorem SMap.wfFrom_cons (b : Option Nat) (k : Nat) (v : α) (m : SMap α) :
    SMap.wfFrom b ((k, v) :: m) = true ↔ (∀ j, b = some j → j < k) ∧ SMap.wfFrom (some k) m = true := by
  cases b with
  | none => simp [SMap.wfFrom]
  | some j => simp [SMap.wfFrom]

theorem SMap.wfFrom_put (m : SMap α) (b : Option Nat) (i : Nat) (x : α) (h : SMap.wfFrom b m = true)
    (hb : ∀ j, b = some j → j < i) : SMap.wfFrom b (SMap.put m i x) = true := by
  induction m generalizing b with
  | nil => exact (SMap.wfFrom_cons b i x []).2 ⟨hb, rfl⟩
  | cons p m ih =>
    obtain ⟨k, v⟩ := p
    rw [SMap.wfFrom_cons] at h
    simp only [SMap.put]
    split
    · rename_i hik
      rw [SMap.wfFrom_cons, SMap.wfFrom_cons]
      exact ⟨hb, by intro j hj; cases hj; exact hik, h.2⟩
    · split
      · rename_i h1 h2
        subst h2
        rw [SMap.wfFrom_cons]
        exact ⟨hb, h.2⟩
      · rename_i h1 h2
        rw [SMap.wfFrom_cons]
        exact ⟨h.1, ih (some k) h.2 (by intro j hj; cases hj; omega)⟩

/-- A write keeps the canonical order. -/
theorem SMap.wf_put (m : SMap α) (i : Nat) (x : α) (h : SMap.wf m = true) : SMap.wf (SMap.put m i x) = true :=
  SMap.wfFrom_put m none i x h (by intro j hj; cases hj)

theorem SMap.wfFrom_del (m : SMap α) (b : Option Nat) (i : Nat) (h : SMap.wfFrom b m = true) :
    SMap.wfFrom b (SMap.del m i) = true := by
  induction m generalizing b with
  | nil => rfl
  | cons p m ih =>
    obtain ⟨k, v⟩ := p
    have h0 := h
    simp only [SMap.wfFrom, Bool.and_eq_true] at h
    simp only [SMap.del]
    split
    · cases b with
      | none => exact SMap.wfFrom_weaken m _ h.2
      | some j =>
        have := h.1
        simp only [decide_eq_true_eq] at this
        exact SMap.wfFrom_lower m j k (by omega) h.2
    · split
      · exact h0
      · simp only [SMap.wfFrom, Bool.and_eq_true]
        exact ⟨h.1, ih (some k) h.2⟩

/-- A removal keeps it. -/
theorem SMap.wf_del (m : SMap α) (i : Nat) (h : SMap.wf m = true) : SMap.wf (SMap.del m i) = true :=
  SMap.wfFrom_del m none i h

theorem SMap.mem_put (m : SMap α) (i : Nat) (x : α) (p : Nat × α) (h : p ∈ SMap.put m i x) : p = (i, x) ∨ p ∈ m := by
  induction m with
  | nil => simp [SMap.put] at h; exact .inl h
  | cons q m ih =>
    obtain ⟨k, v⟩ := q
    simp only [SMap.put] at h
    split at h
    · simp only [List.mem_cons] at h ⊢; tauto
    · split at h
      · simp only [List.mem_cons] at h ⊢; tauto
      · simp only [List.mem_cons] at h ⊢
        rcases h with h | h
        · exact .inr (.inl h)
        · rcases ih h with h | h <;> tauto

theorem SMap.mem_del (m : SMap α) (i : Nat) (p : Nat × α) (h : p ∈ SMap.del m i) : p ∈ m := by
  induction m with
  | nil => simp [SMap.del] at h
  | cons q m ih =>
    obtain ⟨k, v⟩ := q
    simp only [SMap.del] at h
    split at h
    · exact List.mem_cons_of_mem _ h
    · split at h
      · exact h
      · simp only [List.mem_cons] at h ⊢
        exact h.imp id ih

theorem SMap.find?_of_lower (m : SMap α) (b i : Nat) (h : SMap.wfFrom (some b) m = true) (hi : i ≤ b) : SMap.find? m i = none := by
  cases m with
  | nil => rfl
  | cons p m =>
    obtain ⟨k, v⟩ := p
    simp only [SMap.wfFrom, Bool.and_eq_true, decide_eq_true_eq] at h
    have h1 : i ≠ k := by omega
    have h2 : i < k := by omega
    simp [SMap.find?, h1, h2]

theorem SMap.find?_del_self_from (m : SMap α) (b : Option Nat) (i : Nat) (h : SMap.wfFrom b m = true) :
    SMap.find? (SMap.del m i) i = none := by
  induction m generalizing b with
  | nil => rfl
  | cons p m ih =>
    obtain ⟨k, v⟩ := p
    simp only [SMap.wfFrom, Bool.and_eq_true] at h
    simp only [SMap.del]
    split
    · rename_i h1; exact SMap.find?_of_lower m k i h.2 (by omega)
    · split
      · rename_i h1 h2; simp [SMap.find?, h1, h2]
      · rename_i h1 h2; simp only [SMap.find?, if_neg h1, if_neg h2]; exact ih (some k) h.2

/-- After a removal the key is absent, in a map of canonical order. -/
theorem SMap.find?_del_self (m : SMap α) (i : Nat) (h : SMap.wf m = true) : SMap.find? (SMap.del m i) i = none :=
  SMap.find?_del_self_from m none i h

theorem SMap.find?_del_ne_from (m : SMap α) (b : Option Nat) {i j : Nat} (h : SMap.wfFrom b m = true) (hj : j ≠ i) :
    SMap.find? (SMap.del m i) j = SMap.find? m j := by
  induction m generalizing b with
  | nil => rfl
  | cons p m ih =>
    obtain ⟨k, v⟩ := p
    simp only [SMap.wfFrom, Bool.and_eq_true] at h
    simp only [SMap.del]
    split
    · rename_i h1
      subst h1
      simp only [SMap.find?, if_neg hj]
      split
      · rename_i h2; exact SMap.find?_of_lower m i j h.2 (by omega)
      · rfl
    · split
      · rfl
      · simp only [SMap.find?, ih (some k) h.2]

/-- A removal leaves every other key alone. -/
theorem SMap.find?_del_ne (m : SMap α) {i j : Nat} (h : SMap.wf m = true) (hj : j ≠ i) :
    SMap.find? (SMap.del m i) j = SMap.find? m j :=
  SMap.find?_del_ne_from m none h hj

/-- A write over a default keeps the order. -/
theorem SMap.wf_set [DecidableEq α] (m : SMap α) (i : Nat) (x d : α) (h : SMap.wf m = true) : SMap.wf (SMap.set m i x d) = true := by
  unfold SMap.set
  split
  · exact SMap.wf_del m i h
  · exact SMap.wf_put m i x h

/-- A read after a write over a default, in a map of canonical order. -/
theorem SMap.get_set [DecidableEq α] (m : SMap α) (i j : Nat) (x d : α) (h : SMap.wf m = true) :
    SMap.get (SMap.set m i x d) j d = if j = i then x else SMap.get m j d := by
  unfold SMap.set
  by_cases hx : x = d
  · simp only [if_pos hx]
    by_cases hj : j = i
    · subst hj; simp [SMap.get, SMap.find?_del_self m j h, hx]
    · simp [SMap.get, SMap.find?_del_ne m h hj, hj]
  · simp only [if_neg hx]; exact SMap.get_put m i j x d

end Sys2Proof.Machine
end

