-- ==== Sys2Proof/Laws/State.lean ====
section
/-! SUPPORT. What each update of the state leaves in each field: one lemma for each field and update, all by `rfl`. -/

namespace Sys2Proof.Machine

/-! ## `updGroup` -/

@[simp] theorem State.updGroup_now (s : State) (g : Nat) (f : Group → Group) : (s.updGroup g f).now = s.now := rfl
@[simp] theorem State.updGroup_agenda (s : State) (g : Nat) (f : Group → Group) : (s.updGroup g f).agenda = s.agenda := rfl
@[simp] theorem State.updGroup_cur (s : State) (g : Nat) (f : Group → Group) : (s.updGroup g f).cur = s.cur := rfl
@[simp] theorem State.updGroup_fresh (s : State) (g : Nat) (f : Group → Group) : (s.updGroup g f).fresh = s.fresh := rfl
@[simp] theorem State.updGroup_uid (s : State) (g : Nat) (f : Group → Group) : (s.updGroup g f).uid = s.uid := rfl
@[simp] theorem State.updGroup_boots (s : State) (g : Nat) (f : Group → Group) : (s.updGroup g f).boots = s.boots := rfl
@[simp] theorem State.updGroup_boot (s : State) (g : Nat) (f : Group → Group) : (s.updGroup g f).boot = s.boot := rfl
@[simp] theorem State.updGroup_image (s : State) (g : Nat) (f : Group → Group) : (s.updGroup g f).image = s.image := rfl
@[simp] theorem State.updGroup_floor (s : State) (g : Nat) (f : Group → Group) : (s.updGroup g f).floor = s.floor := rfl
@[simp] theorem State.updGroup_devId (s : State) (g : Nat) (f : Group → Group) : (s.updGroup g f).devId = s.devId := rfl
@[simp] theorem State.updGroup_hazard (s : State) (g : Nat) (f : Group → Group) : (s.updGroup g f).hazard = s.hazard := rfl
@[simp] theorem State.updGroup_debugger (s : State) (g : Nat) (f : Group → Group) : (s.updGroup g f).debugger = s.debugger := rfl
@[simp] theorem State.updGroup_debugLog (s : State) (g : Nat) (f : Group → Group) : (s.updGroup g f).debugLog = s.debugLog := rfl
@[simp] theorem State.updGroup_mem (s : State) (g : Nat) (f : Group → Group) : (s.updGroup g f).mem = s.mem := rfl
@[simp] theorem State.updGroup_side (s : State) (g : Nat) (f : Group → Group) : (s.updGroup g f).side = s.side := rfl
@[simp] theorem State.updGroup_hostMem (s : State) (g : Nat) (f : Group → Group) : (s.updGroup g f).hostMem = s.hostMem := rfl
@[simp] theorem State.updGroup_dies (s : State) (g : Nat) (f : Group → Group) : (s.updGroup g f).dies = s.dies := rfl
@[simp] theorem State.updGroup_cores (s : State) (g : Nat) (f : Group → Group) : (s.updGroup g f).cores = s.cores := rfl
@[simp] theorem State.updGroup_groups (s : State) (g : Nat) (f : Group → Group) : (s.updGroup g f).groups = SMap.upd s.groups g f := rfl
@[simp] theorem State.updGroup_past (s : State) (g : Nat) (f : Group → Group) : (s.updGroup g f).past = s.past := rfl
@[simp] theorem State.updGroup_teams (s : State) (g : Nat) (f : Group → Group) : (s.updGroup g f).teams = s.teams := rfl
@[simp] theorem State.updGroup_launches (s : State) (g : Nat) (f : Group → Group) : (s.updGroup g f).launches = s.launches := rfl
@[simp] theorem State.updGroup_vfs (s : State) (g : Nat) (f : Group → Group) : (s.updGroup g f).vfs = s.vfs := rfl
@[simp] theorem State.updGroup_wire (s : State) (g : Nat) (f : Group → Group) : (s.updGroup g f).wire = s.wire := rfl
@[simp] theorem State.updGroup_copies (s : State) (g : Nat) (f : Group → Group) : (s.updGroup g f).copies = s.copies := rfl
@[simp] theorem State.updGroup_dones (s : State) (g : Nat) (f : Group → Group) : (s.updGroup g f).dones = s.dones := rfl
@[simp] theorem State.updGroup_cvMsgs (s : State) (g : Nat) (f : Group → Group) : (s.updGroup g f).cvMsgs = s.cvMsgs := rfl
@[simp] theorem State.updGroup_txns (s : State) (g : Nat) (f : Group → Group) : (s.updGroup g f).txns = s.txns := rfl
@[simp] theorem State.updGroup_faults (s : State) (g : Nat) (f : Group → Group) : (s.updGroup g f).faults = s.faults := rfl
@[simp] theorem State.updGroup_shoots (s : State) (g : Nat) (f : Group → Group) : (s.updGroup g f).shoots = s.shoots := rfl
@[simp] theorem State.updGroup_colls (s : State) (g : Nat) (f : Group → Group) : (s.updGroup g f).colls = s.colls := rfl
@[simp] theorem State.updGroup_chunks (s : State) (g : Nat) (f : Group → Group) : (s.updGroup g f).chunks = s.chunks := rfl
@[simp] theorem State.updGroup_droIn (s : State) (g : Nat) (f : Group → Group) : (s.updGroup g f).droIn = s.droIn := rfl
@[simp] theorem State.updGroup_asyIn (s : State) (g : Nat) (f : Group → Group) : (s.updGroup g f).asyIn = s.asyIn := rfl
@[simp] theorem State.updGroup_peerIn (s : State) (g : Nat) (f : Group → Group) : (s.updGroup g f).peerIn = s.peerIn := rfl
@[simp] theorem State.updGroup_droOut (s : State) (g : Nat) (f : Group → Group) : (s.updGroup g f).droOut = s.droOut := rfl
@[simp] theorem State.updGroup_chunkOut (s : State) (g : Nat) (f : Group → Group) : (s.updGroup g f).chunkOut = s.chunkOut := rfl
@[simp] theorem State.updGroup_asyOut (s : State) (g : Nat) (f : Group → Group) : (s.updGroup g f).asyOut = s.asyOut := rfl
@[simp] theorem State.updGroup_chunkAnsOut (s : State) (g : Nat) (f : Group → Group) : (s.updGroup g f).chunkAnsOut = s.chunkAnsOut := rfl
@[simp] theorem State.updGroup_asyAnsOut (s : State) (g : Nat) (f : Group → Group) : (s.updGroup g f).asyAnsOut = s.asyAnsOut := rfl
@[simp] theorem State.updGroup_rateOut (s : State) (g : Nat) (f : Group → Group) : (s.updGroup g f).rateOut = s.rateOut := rfl
@[simp] theorem State.updGroup_peerRun (s : State) (g : Nat) (f : Group → Group) : (s.updGroup g f).peerRun = s.peerRun := rfl
@[simp] theorem State.updGroup_peerAcks (s : State) (g : Nat) (f : Group → Group) : (s.updGroup g f).peerAcks = s.peerAcks := rfl
@[simp] theorem State.updGroup_peerSent (s : State) (g : Nat) (f : Group → Group) : (s.updGroup g f).peerSent = s.peerSent := rfl
@[simp] theorem State.updGroup_peerOut (s : State) (g : Nat) (f : Group → Group) : (s.updGroup g f).peerOut = s.peerOut := rfl
@[simp] theorem State.updGroup_ansOut (s : State) (g : Nat) (f : Group → Group) : (s.updGroup g f).ansOut = s.ansOut := rfl
@[simp] theorem State.updGroup_notices (s : State) (g : Nat) (f : Group → Group) : (s.updGroup g f).notices = s.notices := rfl
@[simp] theorem State.updGroup_reports (s : State) (g : Nat) (f : Group → Group) : (s.updGroup g f).reports = s.reports := rfl
@[simp] theorem State.updGroup_hostReads (s : State) (g : Nat) (f : Group → Group) : (s.updGroup g f).hostReads = s.hostReads := rfl
@[simp] theorem State.updGroup_ports (s : State) (g : Nat) (f : Group → Group) : (s.updGroup g f).ports = s.ports := rfl
@[simp] theorem State.updGroup_unreach (s : State) (g : Nat) (f : Group → Group) : (s.updGroup g f).unreach = s.unreach := rfl
@[simp] theorem State.updGroup_power (s : State) (g : Nat) (f : Group → Group) : (s.updGroup g f).power = s.power := rfl
@[simp] theorem State.updGroup_lastSq (s : State) (g : Nat) (f : Group → Group) : (s.updGroup g f).lastSq = s.lastSq := rfl
@[simp] theorem State.updGroup_gens (s : State) (g : Nat) (f : Group → Group) : (s.updGroup g f).gens = s.gens := rfl
@[simp] theorem State.updGroup_rowCorr (s : State) (g : Nat) (f : Group → Group) : (s.updGroup g f).rowCorr = s.rowCorr := rfl
@[simp] theorem State.updGroup_rows (s : State) (g : Nat) (f : Group → Group) : (s.updGroup g f).rows = s.rows := rfl
@[simp] theorem State.updGroup_spared (s : State) (g : Nat) (f : Group → Group) : (s.updGroup g f).spared = s.spared := rfl

/-! ## `mapGroups` -/

@[simp] theorem State.mapGroups_now (s : State) (f : Group → Group) : (s.mapGroups f).now = s.now := rfl
@[simp] theorem State.mapGroups_agenda (s : State) (f : Group → Group) : (s.mapGroups f).agenda = s.agenda := rfl
@[simp] theorem State.mapGroups_cur (s : State) (f : Group → Group) : (s.mapGroups f).cur = s.cur := rfl
@[simp] theorem State.mapGroups_fresh (s : State) (f : Group → Group) : (s.mapGroups f).fresh = s.fresh := rfl
@[simp] theorem State.mapGroups_uid (s : State) (f : Group → Group) : (s.mapGroups f).uid = s.uid := rfl
@[simp] theorem State.mapGroups_boots (s : State) (f : Group → Group) : (s.mapGroups f).boots = s.boots := rfl
@[simp] theorem State.mapGroups_boot (s : State) (f : Group → Group) : (s.mapGroups f).boot = s.boot := rfl
@[simp] theorem State.mapGroups_image (s : State) (f : Group → Group) : (s.mapGroups f).image = s.image := rfl
@[simp] theorem State.mapGroups_floor (s : State) (f : Group → Group) : (s.mapGroups f).floor = s.floor := rfl
@[simp] theorem State.mapGroups_devId (s : State) (f : Group → Group) : (s.mapGroups f).devId = s.devId := rfl
@[simp] theorem State.mapGroups_hazard (s : State) (f : Group → Group) : (s.mapGroups f).hazard = s.hazard := rfl
@[simp] theorem State.mapGroups_debugger (s : State) (f : Group → Group) : (s.mapGroups f).debugger = s.debugger := rfl
@[simp] theorem State.mapGroups_debugLog (s : State) (f : Group → Group) : (s.mapGroups f).debugLog = s.debugLog := rfl
@[simp] theorem State.mapGroups_mem (s : State) (f : Group → Group) : (s.mapGroups f).mem = s.mem := rfl
@[simp] theorem State.mapGroups_side (s : State) (f : Group → Group) : (s.mapGroups f).side = s.side := rfl
@[simp] theorem State.mapGroups_hostMem (s : State) (f : Group → Group) : (s.mapGroups f).hostMem = s.hostMem := rfl
@[simp] theorem State.mapGroups_dies (s : State) (f : Group → Group) : (s.mapGroups f).dies = s.dies := rfl
@[simp] theorem State.mapGroups_cores (s : State) (f : Group → Group) : (s.mapGroups f).cores = s.cores := rfl
@[simp] theorem State.mapGroups_past (s : State) (f : Group → Group) : (s.mapGroups f).past = s.past := rfl
@[simp] theorem State.mapGroups_teams (s : State) (f : Group → Group) : (s.mapGroups f).teams = s.teams := rfl
@[simp] theorem State.mapGroups_launches (s : State) (f : Group → Group) : (s.mapGroups f).launches = s.launches := rfl
@[simp] theorem State.mapGroups_vfs (s : State) (f : Group → Group) : (s.mapGroups f).vfs = s.vfs := rfl
@[simp] theorem State.mapGroups_wire (s : State) (f : Group → Group) : (s.mapGroups f).wire = s.wire := rfl
@[simp] theorem State.mapGroups_copies (s : State) (f : Group → Group) : (s.mapGroups f).copies = s.copies := rfl
@[simp] theorem State.mapGroups_dones (s : State) (f : Group → Group) : (s.mapGroups f).dones = s.dones := rfl
@[simp] theorem State.mapGroups_cvMsgs (s : State) (f : Group → Group) : (s.mapGroups f).cvMsgs = s.cvMsgs := rfl
@[simp] theorem State.mapGroups_txns (s : State) (f : Group → Group) : (s.mapGroups f).txns = s.txns := rfl
@[simp] theorem State.mapGroups_faults (s : State) (f : Group → Group) : (s.mapGroups f).faults = s.faults := rfl
@[simp] theorem State.mapGroups_shoots (s : State) (f : Group → Group) : (s.mapGroups f).shoots = s.shoots := rfl
@[simp] theorem State.mapGroups_colls (s : State) (f : Group → Group) : (s.mapGroups f).colls = s.colls := rfl
@[simp] theorem State.mapGroups_chunks (s : State) (f : Group → Group) : (s.mapGroups f).chunks = s.chunks := rfl
@[simp] theorem State.mapGroups_droIn (s : State) (f : Group → Group) : (s.mapGroups f).droIn = s.droIn := rfl
@[simp] theorem State.mapGroups_asyIn (s : State) (f : Group → Group) : (s.mapGroups f).asyIn = s.asyIn := rfl
@[simp] theorem State.mapGroups_peerIn (s : State) (f : Group → Group) : (s.mapGroups f).peerIn = s.peerIn := rfl
@[simp] theorem State.mapGroups_droOut (s : State) (f : Group → Group) : (s.mapGroups f).droOut = s.droOut := rfl
@[simp] theorem State.mapGroups_chunkOut (s : State) (f : Group → Group) : (s.mapGroups f).chunkOut = s.chunkOut := rfl
@[simp] theorem State.mapGroups_asyOut (s : State) (f : Group → Group) : (s.mapGroups f).asyOut = s.asyOut := rfl
@[simp] theorem State.mapGroups_chunkAnsOut (s : State) (f : Group → Group) : (s.mapGroups f).chunkAnsOut = s.chunkAnsOut := rfl
@[simp] theorem State.mapGroups_asyAnsOut (s : State) (f : Group → Group) : (s.mapGroups f).asyAnsOut = s.asyAnsOut := rfl
@[simp] theorem State.mapGroups_rateOut (s : State) (f : Group → Group) : (s.mapGroups f).rateOut = s.rateOut := rfl
@[simp] theorem State.mapGroups_peerRun (s : State) (f : Group → Group) : (s.mapGroups f).peerRun = s.peerRun := rfl
@[simp] theorem State.mapGroups_peerAcks (s : State) (f : Group → Group) : (s.mapGroups f).peerAcks = s.peerAcks := rfl
@[simp] theorem State.mapGroups_peerSent (s : State) (f : Group → Group) : (s.mapGroups f).peerSent = s.peerSent := rfl
@[simp] theorem State.mapGroups_peerOut (s : State) (f : Group → Group) : (s.mapGroups f).peerOut = s.peerOut := rfl
@[simp] theorem State.mapGroups_ansOut (s : State) (f : Group → Group) : (s.mapGroups f).ansOut = s.ansOut := rfl
@[simp] theorem State.mapGroups_notices (s : State) (f : Group → Group) : (s.mapGroups f).notices = s.notices := rfl
@[simp] theorem State.mapGroups_reports (s : State) (f : Group → Group) : (s.mapGroups f).reports = s.reports := rfl
@[simp] theorem State.mapGroups_hostReads (s : State) (f : Group → Group) : (s.mapGroups f).hostReads = s.hostReads := rfl
@[simp] theorem State.mapGroups_ports (s : State) (f : Group → Group) : (s.mapGroups f).ports = s.ports := rfl
@[simp] theorem State.mapGroups_unreach (s : State) (f : Group → Group) : (s.mapGroups f).unreach = s.unreach := rfl
@[simp] theorem State.mapGroups_power (s : State) (f : Group → Group) : (s.mapGroups f).power = s.power := rfl
@[simp] theorem State.mapGroups_lastSq (s : State) (f : Group → Group) : (s.mapGroups f).lastSq = s.lastSq := rfl
@[simp] theorem State.mapGroups_gens (s : State) (f : Group → Group) : (s.mapGroups f).gens = s.gens := rfl
@[simp] theorem State.mapGroups_rowCorr (s : State) (f : Group → Group) : (s.mapGroups f).rowCorr = s.rowCorr := rfl
@[simp] theorem State.mapGroups_rows (s : State) (f : Group → Group) : (s.mapGroups f).rows = s.rows := rfl
@[simp] theorem State.mapGroups_spared (s : State) (f : Group → Group) : (s.mapGroups f).spared = s.spared := rfl

/-! ## `updTeam` -/

@[simp] theorem State.updTeam_now (s : State) (t : Nat) (f : Team → Team) : (s.updTeam t f).now = s.now := rfl
@[simp] theorem State.updTeam_agenda (s : State) (t : Nat) (f : Team → Team) : (s.updTeam t f).agenda = s.agenda := rfl
@[simp] theorem State.updTeam_cur (s : State) (t : Nat) (f : Team → Team) : (s.updTeam t f).cur = s.cur := rfl
@[simp] theorem State.updTeam_fresh (s : State) (t : Nat) (f : Team → Team) : (s.updTeam t f).fresh = s.fresh := rfl
@[simp] theorem State.updTeam_uid (s : State) (t : Nat) (f : Team → Team) : (s.updTeam t f).uid = s.uid := rfl
@[simp] theorem State.updTeam_boots (s : State) (t : Nat) (f : Team → Team) : (s.updTeam t f).boots = s.boots := rfl
@[simp] theorem State.updTeam_boot (s : State) (t : Nat) (f : Team → Team) : (s.updTeam t f).boot = s.boot := rfl
@[simp] theorem State.updTeam_image (s : State) (t : Nat) (f : Team → Team) : (s.updTeam t f).image = s.image := rfl
@[simp] theorem State.updTeam_floor (s : State) (t : Nat) (f : Team → Team) : (s.updTeam t f).floor = s.floor := rfl
@[simp] theorem State.updTeam_devId (s : State) (t : Nat) (f : Team → Team) : (s.updTeam t f).devId = s.devId := rfl
@[simp] theorem State.updTeam_hazard (s : State) (t : Nat) (f : Team → Team) : (s.updTeam t f).hazard = s.hazard := rfl
@[simp] theorem State.updTeam_debugger (s : State) (t : Nat) (f : Team → Team) : (s.updTeam t f).debugger = s.debugger := rfl
@[simp] theorem State.updTeam_debugLog (s : State) (t : Nat) (f : Team → Team) : (s.updTeam t f).debugLog = s.debugLog := rfl
@[simp] theorem State.updTeam_mem (s : State) (t : Nat) (f : Team → Team) : (s.updTeam t f).mem = s.mem := rfl
@[simp] theorem State.updTeam_side (s : State) (t : Nat) (f : Team → Team) : (s.updTeam t f).side = s.side := rfl
@[simp] theorem State.updTeam_hostMem (s : State) (t : Nat) (f : Team → Team) : (s.updTeam t f).hostMem = s.hostMem := rfl
@[simp] theorem State.updTeam_dies (s : State) (t : Nat) (f : Team → Team) : (s.updTeam t f).dies = s.dies := rfl
@[simp] theorem State.updTeam_cores (s : State) (t : Nat) (f : Team → Team) : (s.updTeam t f).cores = s.cores := rfl
@[simp] theorem State.updTeam_groups (s : State) (t : Nat) (f : Team → Team) : (s.updTeam t f).groups = s.groups := rfl
@[simp] theorem State.updTeam_past (s : State) (t : Nat) (f : Team → Team) : (s.updTeam t f).past = s.past := rfl
@[simp] theorem State.updTeam_teams (s : State) (t : Nat) (f : Team → Team) : (s.updTeam t f).teams = SMap.upd s.teams t f := rfl
@[simp] theorem State.updTeam_launches (s : State) (t : Nat) (f : Team → Team) : (s.updTeam t f).launches = s.launches := rfl
@[simp] theorem State.updTeam_vfs (s : State) (t : Nat) (f : Team → Team) : (s.updTeam t f).vfs = s.vfs := rfl
@[simp] theorem State.updTeam_wire (s : State) (t : Nat) (f : Team → Team) : (s.updTeam t f).wire = s.wire := rfl
@[simp] theorem State.updTeam_copies (s : State) (t : Nat) (f : Team → Team) : (s.updTeam t f).copies = s.copies := rfl
@[simp] theorem State.updTeam_dones (s : State) (t : Nat) (f : Team → Team) : (s.updTeam t f).dones = s.dones := rfl
@[simp] theorem State.updTeam_cvMsgs (s : State) (t : Nat) (f : Team → Team) : (s.updTeam t f).cvMsgs = s.cvMsgs := rfl
@[simp] theorem State.updTeam_txns (s : State) (t : Nat) (f : Team → Team) : (s.updTeam t f).txns = s.txns := rfl
@[simp] theorem State.updTeam_faults (s : State) (t : Nat) (f : Team → Team) : (s.updTeam t f).faults = s.faults := rfl
@[simp] theorem State.updTeam_shoots (s : State) (t : Nat) (f : Team → Team) : (s.updTeam t f).shoots = s.shoots := rfl
@[simp] theorem State.updTeam_colls (s : State) (t : Nat) (f : Team → Team) : (s.updTeam t f).colls = s.colls := rfl
@[simp] theorem State.updTeam_chunks (s : State) (t : Nat) (f : Team → Team) : (s.updTeam t f).chunks = s.chunks := rfl
@[simp] theorem State.updTeam_droIn (s : State) (t : Nat) (f : Team → Team) : (s.updTeam t f).droIn = s.droIn := rfl
@[simp] theorem State.updTeam_asyIn (s : State) (t : Nat) (f : Team → Team) : (s.updTeam t f).asyIn = s.asyIn := rfl
@[simp] theorem State.updTeam_peerIn (s : State) (t : Nat) (f : Team → Team) : (s.updTeam t f).peerIn = s.peerIn := rfl
@[simp] theorem State.updTeam_droOut (s : State) (t : Nat) (f : Team → Team) : (s.updTeam t f).droOut = s.droOut := rfl
@[simp] theorem State.updTeam_chunkOut (s : State) (t : Nat) (f : Team → Team) : (s.updTeam t f).chunkOut = s.chunkOut := rfl
@[simp] theorem State.updTeam_asyOut (s : State) (t : Nat) (f : Team → Team) : (s.updTeam t f).asyOut = s.asyOut := rfl
@[simp] theorem State.updTeam_chunkAnsOut (s : State) (t : Nat) (f : Team → Team) : (s.updTeam t f).chunkAnsOut = s.chunkAnsOut := rfl
@[simp] theorem State.updTeam_asyAnsOut (s : State) (t : Nat) (f : Team → Team) : (s.updTeam t f).asyAnsOut = s.asyAnsOut := rfl
@[simp] theorem State.updTeam_rateOut (s : State) (t : Nat) (f : Team → Team) : (s.updTeam t f).rateOut = s.rateOut := rfl
@[simp] theorem State.updTeam_peerRun (s : State) (t : Nat) (f : Team → Team) : (s.updTeam t f).peerRun = s.peerRun := rfl
@[simp] theorem State.updTeam_peerAcks (s : State) (t : Nat) (f : Team → Team) : (s.updTeam t f).peerAcks = s.peerAcks := rfl
@[simp] theorem State.updTeam_peerSent (s : State) (t : Nat) (f : Team → Team) : (s.updTeam t f).peerSent = s.peerSent := rfl
@[simp] theorem State.updTeam_peerOut (s : State) (t : Nat) (f : Team → Team) : (s.updTeam t f).peerOut = s.peerOut := rfl
@[simp] theorem State.updTeam_ansOut (s : State) (t : Nat) (f : Team → Team) : (s.updTeam t f).ansOut = s.ansOut := rfl
@[simp] theorem State.updTeam_notices (s : State) (t : Nat) (f : Team → Team) : (s.updTeam t f).notices = s.notices := rfl
@[simp] theorem State.updTeam_reports (s : State) (t : Nat) (f : Team → Team) : (s.updTeam t f).reports = s.reports := rfl
@[simp] theorem State.updTeam_hostReads (s : State) (t : Nat) (f : Team → Team) : (s.updTeam t f).hostReads = s.hostReads := rfl
@[simp] theorem State.updTeam_ports (s : State) (t : Nat) (f : Team → Team) : (s.updTeam t f).ports = s.ports := rfl
@[simp] theorem State.updTeam_unreach (s : State) (t : Nat) (f : Team → Team) : (s.updTeam t f).unreach = s.unreach := rfl
@[simp] theorem State.updTeam_power (s : State) (t : Nat) (f : Team → Team) : (s.updTeam t f).power = s.power := rfl
@[simp] theorem State.updTeam_lastSq (s : State) (t : Nat) (f : Team → Team) : (s.updTeam t f).lastSq = s.lastSq := rfl
@[simp] theorem State.updTeam_gens (s : State) (t : Nat) (f : Team → Team) : (s.updTeam t f).gens = s.gens := rfl
@[simp] theorem State.updTeam_rowCorr (s : State) (t : Nat) (f : Team → Team) : (s.updTeam t f).rowCorr = s.rowCorr := rfl
@[simp] theorem State.updTeam_rows (s : State) (t : Nat) (f : Team → Team) : (s.updTeam t f).rows = s.rows := rfl
@[simp] theorem State.updTeam_spared (s : State) (t : Nat) (f : Team → Team) : (s.updTeam t f).spared = s.spared := rfl

/-! ## `updCore` -/

@[simp] theorem State.updCore_now (s : State) (c : Nat) (f : Core → Core) : (s.updCore c f).now = s.now := rfl
@[simp] theorem State.updCore_agenda (s : State) (c : Nat) (f : Core → Core) : (s.updCore c f).agenda = s.agenda := rfl
@[simp] theorem State.updCore_cur (s : State) (c : Nat) (f : Core → Core) : (s.updCore c f).cur = s.cur := rfl
@[simp] theorem State.updCore_fresh (s : State) (c : Nat) (f : Core → Core) : (s.updCore c f).fresh = s.fresh := rfl
@[simp] theorem State.updCore_uid (s : State) (c : Nat) (f : Core → Core) : (s.updCore c f).uid = s.uid := rfl
@[simp] theorem State.updCore_boots (s : State) (c : Nat) (f : Core → Core) : (s.updCore c f).boots = s.boots := rfl
@[simp] theorem State.updCore_boot (s : State) (c : Nat) (f : Core → Core) : (s.updCore c f).boot = s.boot := rfl
@[simp] theorem State.updCore_image (s : State) (c : Nat) (f : Core → Core) : (s.updCore c f).image = s.image := rfl
@[simp] theorem State.updCore_floor (s : State) (c : Nat) (f : Core → Core) : (s.updCore c f).floor = s.floor := rfl
@[simp] theorem State.updCore_devId (s : State) (c : Nat) (f : Core → Core) : (s.updCore c f).devId = s.devId := rfl
@[simp] theorem State.updCore_hazard (s : State) (c : Nat) (f : Core → Core) : (s.updCore c f).hazard = s.hazard := rfl
@[simp] theorem State.updCore_debugger (s : State) (c : Nat) (f : Core → Core) : (s.updCore c f).debugger = s.debugger := rfl
@[simp] theorem State.updCore_debugLog (s : State) (c : Nat) (f : Core → Core) : (s.updCore c f).debugLog = s.debugLog := rfl
@[simp] theorem State.updCore_mem (s : State) (c : Nat) (f : Core → Core) : (s.updCore c f).mem = s.mem := rfl
@[simp] theorem State.updCore_side (s : State) (c : Nat) (f : Core → Core) : (s.updCore c f).side = s.side := rfl
@[simp] theorem State.updCore_hostMem (s : State) (c : Nat) (f : Core → Core) : (s.updCore c f).hostMem = s.hostMem := rfl
@[simp] theorem State.updCore_dies (s : State) (c : Nat) (f : Core → Core) : (s.updCore c f).dies = s.dies := rfl
@[simp] theorem State.updCore_cores (s : State) (c : Nat) (f : Core → Core) : (s.updCore c f).cores = SMap.put s.cores c (f (s.core c)) := rfl
@[simp] theorem State.updCore_groups (s : State) (c : Nat) (f : Core → Core) : (s.updCore c f).groups = s.groups := rfl
@[simp] theorem State.updCore_past (s : State) (c : Nat) (f : Core → Core) : (s.updCore c f).past = s.past := rfl
@[simp] theorem State.updCore_teams (s : State) (c : Nat) (f : Core → Core) : (s.updCore c f).teams = s.teams := rfl
@[simp] theorem State.updCore_launches (s : State) (c : Nat) (f : Core → Core) : (s.updCore c f).launches = s.launches := rfl
@[simp] theorem State.updCore_vfs (s : State) (c : Nat) (f : Core → Core) : (s.updCore c f).vfs = s.vfs := rfl
@[simp] theorem State.updCore_wire (s : State) (c : Nat) (f : Core → Core) : (s.updCore c f).wire = s.wire := rfl
@[simp] theorem State.updCore_copies (s : State) (c : Nat) (f : Core → Core) : (s.updCore c f).copies = s.copies := rfl
@[simp] theorem State.updCore_dones (s : State) (c : Nat) (f : Core → Core) : (s.updCore c f).dones = s.dones := rfl
@[simp] theorem State.updCore_cvMsgs (s : State) (c : Nat) (f : Core → Core) : (s.updCore c f).cvMsgs = s.cvMsgs := rfl
@[simp] theorem State.updCore_txns (s : State) (c : Nat) (f : Core → Core) : (s.updCore c f).txns = s.txns := rfl
@[simp] theorem State.updCore_faults (s : State) (c : Nat) (f : Core → Core) : (s.updCore c f).faults = s.faults := rfl
@[simp] theorem State.updCore_shoots (s : State) (c : Nat) (f : Core → Core) : (s.updCore c f).shoots = s.shoots := rfl
@[simp] theorem State.updCore_colls (s : State) (c : Nat) (f : Core → Core) : (s.updCore c f).colls = s.colls := rfl
@[simp] theorem State.updCore_chunks (s : State) (c : Nat) (f : Core → Core) : (s.updCore c f).chunks = s.chunks := rfl
@[simp] theorem State.updCore_droIn (s : State) (c : Nat) (f : Core → Core) : (s.updCore c f).droIn = s.droIn := rfl
@[simp] theorem State.updCore_asyIn (s : State) (c : Nat) (f : Core → Core) : (s.updCore c f).asyIn = s.asyIn := rfl
@[simp] theorem State.updCore_peerIn (s : State) (c : Nat) (f : Core → Core) : (s.updCore c f).peerIn = s.peerIn := rfl
@[simp] theorem State.updCore_droOut (s : State) (c : Nat) (f : Core → Core) : (s.updCore c f).droOut = s.droOut := rfl
@[simp] theorem State.updCore_chunkOut (s : State) (c : Nat) (f : Core → Core) : (s.updCore c f).chunkOut = s.chunkOut := rfl
@[simp] theorem State.updCore_asyOut (s : State) (c : Nat) (f : Core → Core) : (s.updCore c f).asyOut = s.asyOut := rfl
@[simp] theorem State.updCore_chunkAnsOut (s : State) (c : Nat) (f : Core → Core) : (s.updCore c f).chunkAnsOut = s.chunkAnsOut := rfl
@[simp] theorem State.updCore_asyAnsOut (s : State) (c : Nat) (f : Core → Core) : (s.updCore c f).asyAnsOut = s.asyAnsOut := rfl
@[simp] theorem State.updCore_rateOut (s : State) (c : Nat) (f : Core → Core) : (s.updCore c f).rateOut = s.rateOut := rfl
@[simp] theorem State.updCore_peerRun (s : State) (c : Nat) (f : Core → Core) : (s.updCore c f).peerRun = s.peerRun := rfl
@[simp] theorem State.updCore_peerAcks (s : State) (c : Nat) (f : Core → Core) : (s.updCore c f).peerAcks = s.peerAcks := rfl
@[simp] theorem State.updCore_peerSent (s : State) (c : Nat) (f : Core → Core) : (s.updCore c f).peerSent = s.peerSent := rfl
@[simp] theorem State.updCore_peerOut (s : State) (c : Nat) (f : Core → Core) : (s.updCore c f).peerOut = s.peerOut := rfl
@[simp] theorem State.updCore_ansOut (s : State) (c : Nat) (f : Core → Core) : (s.updCore c f).ansOut = s.ansOut := rfl
@[simp] theorem State.updCore_notices (s : State) (c : Nat) (f : Core → Core) : (s.updCore c f).notices = s.notices := rfl
@[simp] theorem State.updCore_reports (s : State) (c : Nat) (f : Core → Core) : (s.updCore c f).reports = s.reports := rfl
@[simp] theorem State.updCore_hostReads (s : State) (c : Nat) (f : Core → Core) : (s.updCore c f).hostReads = s.hostReads := rfl
@[simp] theorem State.updCore_ports (s : State) (c : Nat) (f : Core → Core) : (s.updCore c f).ports = s.ports := rfl
@[simp] theorem State.updCore_unreach (s : State) (c : Nat) (f : Core → Core) : (s.updCore c f).unreach = s.unreach := rfl
@[simp] theorem State.updCore_power (s : State) (c : Nat) (f : Core → Core) : (s.updCore c f).power = s.power := rfl
@[simp] theorem State.updCore_lastSq (s : State) (c : Nat) (f : Core → Core) : (s.updCore c f).lastSq = s.lastSq := rfl
@[simp] theorem State.updCore_gens (s : State) (c : Nat) (f : Core → Core) : (s.updCore c f).gens = s.gens := rfl
@[simp] theorem State.updCore_rowCorr (s : State) (c : Nat) (f : Core → Core) : (s.updCore c f).rowCorr = s.rowCorr := rfl
@[simp] theorem State.updCore_rows (s : State) (c : Nat) (f : Core → Core) : (s.updCore c f).rows = s.rows := rfl
@[simp] theorem State.updCore_spared (s : State) (c : Nat) (f : Core → Core) : (s.updCore c f).spared = s.spared := rfl

/-! ## `updPart` -/

@[simp] theorem State.updPart_now (s : State) (c p : Nat) (f : Part → Part) : (s.updPart c p f).now = s.now := rfl
@[simp] theorem State.updPart_agenda (s : State) (c p : Nat) (f : Part → Part) : (s.updPart c p f).agenda = s.agenda := rfl
@[simp] theorem State.updPart_cur (s : State) (c p : Nat) (f : Part → Part) : (s.updPart c p f).cur = s.cur := rfl
@[simp] theorem State.updPart_fresh (s : State) (c p : Nat) (f : Part → Part) : (s.updPart c p f).fresh = s.fresh := rfl
@[simp] theorem State.updPart_uid (s : State) (c p : Nat) (f : Part → Part) : (s.updPart c p f).uid = s.uid := rfl
@[simp] theorem State.updPart_boots (s : State) (c p : Nat) (f : Part → Part) : (s.updPart c p f).boots = s.boots := rfl
@[simp] theorem State.updPart_boot (s : State) (c p : Nat) (f : Part → Part) : (s.updPart c p f).boot = s.boot := rfl
@[simp] theorem State.updPart_image (s : State) (c p : Nat) (f : Part → Part) : (s.updPart c p f).image = s.image := rfl
@[simp] theorem State.updPart_floor (s : State) (c p : Nat) (f : Part → Part) : (s.updPart c p f).floor = s.floor := rfl
@[simp] theorem State.updPart_devId (s : State) (c p : Nat) (f : Part → Part) : (s.updPart c p f).devId = s.devId := rfl
@[simp] theorem State.updPart_hazard (s : State) (c p : Nat) (f : Part → Part) : (s.updPart c p f).hazard = s.hazard := rfl
@[simp] theorem State.updPart_debugger (s : State) (c p : Nat) (f : Part → Part) : (s.updPart c p f).debugger = s.debugger := rfl
@[simp] theorem State.updPart_debugLog (s : State) (c p : Nat) (f : Part → Part) : (s.updPart c p f).debugLog = s.debugLog := rfl
@[simp] theorem State.updPart_mem (s : State) (c p : Nat) (f : Part → Part) : (s.updPart c p f).mem = s.mem := rfl
@[simp] theorem State.updPart_side (s : State) (c p : Nat) (f : Part → Part) : (s.updPart c p f).side = s.side := rfl
@[simp] theorem State.updPart_hostMem (s : State) (c p : Nat) (f : Part → Part) : (s.updPart c p f).hostMem = s.hostMem := rfl
@[simp] theorem State.updPart_dies (s : State) (c p : Nat) (f : Part → Part) : (s.updPart c p f).dies = s.dies := rfl
@[simp] theorem State.updPart_groups (s : State) (c p : Nat) (f : Part → Part) : (s.updPart c p f).groups = s.groups := rfl
@[simp] theorem State.updPart_past (s : State) (c p : Nat) (f : Part → Part) : (s.updPart c p f).past = s.past := rfl
@[simp] theorem State.updPart_teams (s : State) (c p : Nat) (f : Part → Part) : (s.updPart c p f).teams = s.teams := rfl
@[simp] theorem State.updPart_launches (s : State) (c p : Nat) (f : Part → Part) : (s.updPart c p f).launches = s.launches := rfl
@[simp] theorem State.updPart_vfs (s : State) (c p : Nat) (f : Part → Part) : (s.updPart c p f).vfs = s.vfs := rfl
@[simp] theorem State.updPart_wire (s : State) (c p : Nat) (f : Part → Part) : (s.updPart c p f).wire = s.wire := rfl
@[simp] theorem State.updPart_copies (s : State) (c p : Nat) (f : Part → Part) : (s.updPart c p f).copies = s.copies := rfl
@[simp] theorem State.updPart_dones (s : State) (c p : Nat) (f : Part → Part) : (s.updPart c p f).dones = s.dones := rfl
@[simp] theorem State.updPart_cvMsgs (s : State) (c p : Nat) (f : Part → Part) : (s.updPart c p f).cvMsgs = s.cvMsgs := rfl
@[simp] theorem State.updPart_txns (s : State) (c p : Nat) (f : Part → Part) : (s.updPart c p f).txns = s.txns := rfl
@[simp] theorem State.updPart_faults (s : State) (c p : Nat) (f : Part → Part) : (s.updPart c p f).faults = s.faults := rfl
@[simp] theorem State.updPart_shoots (s : State) (c p : Nat) (f : Part → Part) : (s.updPart c p f).shoots = s.shoots := rfl
@[simp] theorem State.updPart_colls (s : State) (c p : Nat) (f : Part → Part) : (s.updPart c p f).colls = s.colls := rfl
@[simp] theorem State.updPart_chunks (s : State) (c p : Nat) (f : Part → Part) : (s.updPart c p f).chunks = s.chunks := rfl
@[simp] theorem State.updPart_droIn (s : State) (c p : Nat) (f : Part → Part) : (s.updPart c p f).droIn = s.droIn := rfl
@[simp] theorem State.updPart_asyIn (s : State) (c p : Nat) (f : Part → Part) : (s.updPart c p f).asyIn = s.asyIn := rfl
@[simp] theorem State.updPart_peerIn (s : State) (c p : Nat) (f : Part → Part) : (s.updPart c p f).peerIn = s.peerIn := rfl
@[simp] theorem State.updPart_droOut (s : State) (c p : Nat) (f : Part → Part) : (s.updPart c p f).droOut = s.droOut := rfl
@[simp] theorem State.updPart_chunkOut (s : State) (c p : Nat) (f : Part → Part) : (s.updPart c p f).chunkOut = s.chunkOut := rfl
@[simp] theorem State.updPart_asyOut (s : State) (c p : Nat) (f : Part → Part) : (s.updPart c p f).asyOut = s.asyOut := rfl
@[simp] theorem State.updPart_chunkAnsOut (s : State) (c p : Nat) (f : Part → Part) : (s.updPart c p f).chunkAnsOut = s.chunkAnsOut := rfl
@[simp] theorem State.updPart_asyAnsOut (s : State) (c p : Nat) (f : Part → Part) : (s.updPart c p f).asyAnsOut = s.asyAnsOut := rfl
@[simp] theorem State.updPart_rateOut (s : State) (c p : Nat) (f : Part → Part) : (s.updPart c p f).rateOut = s.rateOut := rfl
@[simp] theorem State.updPart_peerRun (s : State) (c p : Nat) (f : Part → Part) : (s.updPart c p f).peerRun = s.peerRun := rfl
@[simp] theorem State.updPart_peerAcks (s : State) (c p : Nat) (f : Part → Part) : (s.updPart c p f).peerAcks = s.peerAcks := rfl
@[simp] theorem State.updPart_peerSent (s : State) (c p : Nat) (f : Part → Part) : (s.updPart c p f).peerSent = s.peerSent := rfl
@[simp] theorem State.updPart_peerOut (s : State) (c p : Nat) (f : Part → Part) : (s.updPart c p f).peerOut = s.peerOut := rfl
@[simp] theorem State.updPart_ansOut (s : State) (c p : Nat) (f : Part → Part) : (s.updPart c p f).ansOut = s.ansOut := rfl
@[simp] theorem State.updPart_notices (s : State) (c p : Nat) (f : Part → Part) : (s.updPart c p f).notices = s.notices := rfl
@[simp] theorem State.updPart_reports (s : State) (c p : Nat) (f : Part → Part) : (s.updPart c p f).reports = s.reports := rfl
@[simp] theorem State.updPart_hostReads (s : State) (c p : Nat) (f : Part → Part) : (s.updPart c p f).hostReads = s.hostReads := rfl
@[simp] theorem State.updPart_ports (s : State) (c p : Nat) (f : Part → Part) : (s.updPart c p f).ports = s.ports := rfl
@[simp] theorem State.updPart_unreach (s : State) (c p : Nat) (f : Part → Part) : (s.updPart c p f).unreach = s.unreach := rfl
@[simp] theorem State.updPart_power (s : State) (c p : Nat) (f : Part → Part) : (s.updPart c p f).power = s.power := rfl
@[simp] theorem State.updPart_lastSq (s : State) (c p : Nat) (f : Part → Part) : (s.updPart c p f).lastSq = s.lastSq := rfl
@[simp] theorem State.updPart_gens (s : State) (c p : Nat) (f : Part → Part) : (s.updPart c p f).gens = s.gens := rfl
@[simp] theorem State.updPart_rowCorr (s : State) (c p : Nat) (f : Part → Part) : (s.updPart c p f).rowCorr = s.rowCorr := rfl
@[simp] theorem State.updPart_rows (s : State) (c p : Nat) (f : Part → Part) : (s.updPart c p f).rows = s.rows := rfl
@[simp] theorem State.updPart_spared (s : State) (c p : Nat) (f : Part → Part) : (s.updPart c p f).spared = s.spared := rfl

/-! ## `updDie` -/

@[simp] theorem State.updDie_now (s : State) (d : Nat) (f : Die → Die) : (s.updDie d f).now = s.now := rfl
@[simp] theorem State.updDie_agenda (s : State) (d : Nat) (f : Die → Die) : (s.updDie d f).agenda = s.agenda := rfl
@[simp] theorem State.updDie_cur (s : State) (d : Nat) (f : Die → Die) : (s.updDie d f).cur = s.cur := rfl
@[simp] theorem State.updDie_fresh (s : State) (d : Nat) (f : Die → Die) : (s.updDie d f).fresh = s.fresh := rfl
@[simp] theorem State.updDie_uid (s : State) (d : Nat) (f : Die → Die) : (s.updDie d f).uid = s.uid := rfl
@[simp] theorem State.updDie_boots (s : State) (d : Nat) (f : Die → Die) : (s.updDie d f).boots = s.boots := rfl
@[simp] theorem State.updDie_boot (s : State) (d : Nat) (f : Die → Die) : (s.updDie d f).boot = s.boot := rfl
@[simp] theorem State.updDie_image (s : State) (d : Nat) (f : Die → Die) : (s.updDie d f).image = s.image := rfl
@[simp] theorem State.updDie_floor (s : State) (d : Nat) (f : Die → Die) : (s.updDie d f).floor = s.floor := rfl
@[simp] theorem State.updDie_devId (s : State) (d : Nat) (f : Die → Die) : (s.updDie d f).devId = s.devId := rfl
@[simp] theorem State.updDie_hazard (s : State) (d : Nat) (f : Die → Die) : (s.updDie d f).hazard = s.hazard := rfl
@[simp] theorem State.updDie_debugger (s : State) (d : Nat) (f : Die → Die) : (s.updDie d f).debugger = s.debugger := rfl
@[simp] theorem State.updDie_debugLog (s : State) (d : Nat) (f : Die → Die) : (s.updDie d f).debugLog = s.debugLog := rfl
@[simp] theorem State.updDie_mem (s : State) (d : Nat) (f : Die → Die) : (s.updDie d f).mem = s.mem := rfl
@[simp] theorem State.updDie_side (s : State) (d : Nat) (f : Die → Die) : (s.updDie d f).side = s.side := rfl
@[simp] theorem State.updDie_hostMem (s : State) (d : Nat) (f : Die → Die) : (s.updDie d f).hostMem = s.hostMem := rfl
@[simp] theorem State.updDie_dies (s : State) (d : Nat) (f : Die → Die) : (s.updDie d f).dies = SMap.put s.dies d (f (s.die d)) := rfl
@[simp] theorem State.updDie_cores (s : State) (d : Nat) (f : Die → Die) : (s.updDie d f).cores = s.cores := rfl
@[simp] theorem State.updDie_groups (s : State) (d : Nat) (f : Die → Die) : (s.updDie d f).groups = s.groups := rfl
@[simp] theorem State.updDie_past (s : State) (d : Nat) (f : Die → Die) : (s.updDie d f).past = s.past := rfl
@[simp] theorem State.updDie_teams (s : State) (d : Nat) (f : Die → Die) : (s.updDie d f).teams = s.teams := rfl
@[simp] theorem State.updDie_launches (s : State) (d : Nat) (f : Die → Die) : (s.updDie d f).launches = s.launches := rfl
@[simp] theorem State.updDie_vfs (s : State) (d : Nat) (f : Die → Die) : (s.updDie d f).vfs = s.vfs := rfl
@[simp] theorem State.updDie_wire (s : State) (d : Nat) (f : Die → Die) : (s.updDie d f).wire = s.wire := rfl
@[simp] theorem State.updDie_copies (s : State) (d : Nat) (f : Die → Die) : (s.updDie d f).copies = s.copies := rfl
@[simp] theorem State.updDie_dones (s : State) (d : Nat) (f : Die → Die) : (s.updDie d f).dones = s.dones := rfl
@[simp] theorem State.updDie_cvMsgs (s : State) (d : Nat) (f : Die → Die) : (s.updDie d f).cvMsgs = s.cvMsgs := rfl
@[simp] theorem State.updDie_txns (s : State) (d : Nat) (f : Die → Die) : (s.updDie d f).txns = s.txns := rfl
@[simp] theorem State.updDie_faults (s : State) (d : Nat) (f : Die → Die) : (s.updDie d f).faults = s.faults := rfl
@[simp] theorem State.updDie_shoots (s : State) (d : Nat) (f : Die → Die) : (s.updDie d f).shoots = s.shoots := rfl
@[simp] theorem State.updDie_colls (s : State) (d : Nat) (f : Die → Die) : (s.updDie d f).colls = s.colls := rfl
@[simp] theorem State.updDie_chunks (s : State) (d : Nat) (f : Die → Die) : (s.updDie d f).chunks = s.chunks := rfl
@[simp] theorem State.updDie_droIn (s : State) (d : Nat) (f : Die → Die) : (s.updDie d f).droIn = s.droIn := rfl
@[simp] theorem State.updDie_asyIn (s : State) (d : Nat) (f : Die → Die) : (s.updDie d f).asyIn = s.asyIn := rfl
@[simp] theorem State.updDie_peerIn (s : State) (d : Nat) (f : Die → Die) : (s.updDie d f).peerIn = s.peerIn := rfl
@[simp] theorem State.updDie_droOut (s : State) (d : Nat) (f : Die → Die) : (s.updDie d f).droOut = s.droOut := rfl
@[simp] theorem State.updDie_chunkOut (s : State) (d : Nat) (f : Die → Die) : (s.updDie d f).chunkOut = s.chunkOut := rfl
@[simp] theorem State.updDie_asyOut (s : State) (d : Nat) (f : Die → Die) : (s.updDie d f).asyOut = s.asyOut := rfl
@[simp] theorem State.updDie_chunkAnsOut (s : State) (d : Nat) (f : Die → Die) : (s.updDie d f).chunkAnsOut = s.chunkAnsOut := rfl
@[simp] theorem State.updDie_asyAnsOut (s : State) (d : Nat) (f : Die → Die) : (s.updDie d f).asyAnsOut = s.asyAnsOut := rfl
@[simp] theorem State.updDie_rateOut (s : State) (d : Nat) (f : Die → Die) : (s.updDie d f).rateOut = s.rateOut := rfl
@[simp] theorem State.updDie_peerRun (s : State) (d : Nat) (f : Die → Die) : (s.updDie d f).peerRun = s.peerRun := rfl
@[simp] theorem State.updDie_peerAcks (s : State) (d : Nat) (f : Die → Die) : (s.updDie d f).peerAcks = s.peerAcks := rfl
@[simp] theorem State.updDie_peerSent (s : State) (d : Nat) (f : Die → Die) : (s.updDie d f).peerSent = s.peerSent := rfl
@[simp] theorem State.updDie_peerOut (s : State) (d : Nat) (f : Die → Die) : (s.updDie d f).peerOut = s.peerOut := rfl
@[simp] theorem State.updDie_ansOut (s : State) (d : Nat) (f : Die → Die) : (s.updDie d f).ansOut = s.ansOut := rfl
@[simp] theorem State.updDie_notices (s : State) (d : Nat) (f : Die → Die) : (s.updDie d f).notices = s.notices := rfl
@[simp] theorem State.updDie_reports (s : State) (d : Nat) (f : Die → Die) : (s.updDie d f).reports = s.reports := rfl
@[simp] theorem State.updDie_hostReads (s : State) (d : Nat) (f : Die → Die) : (s.updDie d f).hostReads = s.hostReads := rfl
@[simp] theorem State.updDie_ports (s : State) (d : Nat) (f : Die → Die) : (s.updDie d f).ports = s.ports := rfl
@[simp] theorem State.updDie_unreach (s : State) (d : Nat) (f : Die → Die) : (s.updDie d f).unreach = s.unreach := rfl
@[simp] theorem State.updDie_power (s : State) (d : Nat) (f : Die → Die) : (s.updDie d f).power = s.power := rfl
@[simp] theorem State.updDie_lastSq (s : State) (d : Nat) (f : Die → Die) : (s.updDie d f).lastSq = s.lastSq := rfl
@[simp] theorem State.updDie_gens (s : State) (d : Nat) (f : Die → Die) : (s.updDie d f).gens = s.gens := rfl
@[simp] theorem State.updDie_rowCorr (s : State) (d : Nat) (f : Die → Die) : (s.updDie d f).rowCorr = s.rowCorr := rfl
@[simp] theorem State.updDie_rows (s : State) (d : Nat) (f : Die → Die) : (s.updDie d f).rows = s.rows := rfl
@[simp] theorem State.updDie_spared (s : State) (d : Nat) (f : Die → Die) : (s.updDie d f).spared = s.spared := rfl

/-! ## `updAssay` -/

@[simp] theorem State.updAssay_now (s : State) (d o : Nat) (f : Assay → Assay) : (s.updAssay d o f).now = s.now := rfl
@[simp] theorem State.updAssay_agenda (s : State) (d o : Nat) (f : Assay → Assay) : (s.updAssay d o f).agenda = s.agenda := rfl
@[simp] theorem State.updAssay_cur (s : State) (d o : Nat) (f : Assay → Assay) : (s.updAssay d o f).cur = s.cur := rfl
@[simp] theorem State.updAssay_fresh (s : State) (d o : Nat) (f : Assay → Assay) : (s.updAssay d o f).fresh = s.fresh := rfl
@[simp] theorem State.updAssay_uid (s : State) (d o : Nat) (f : Assay → Assay) : (s.updAssay d o f).uid = s.uid := rfl
@[simp] theorem State.updAssay_boots (s : State) (d o : Nat) (f : Assay → Assay) : (s.updAssay d o f).boots = s.boots := rfl
@[simp] theorem State.updAssay_boot (s : State) (d o : Nat) (f : Assay → Assay) : (s.updAssay d o f).boot = s.boot := rfl
@[simp] theorem State.updAssay_image (s : State) (d o : Nat) (f : Assay → Assay) : (s.updAssay d o f).image = s.image := rfl
@[simp] theorem State.updAssay_floor (s : State) (d o : Nat) (f : Assay → Assay) : (s.updAssay d o f).floor = s.floor := rfl
@[simp] theorem State.updAssay_devId (s : State) (d o : Nat) (f : Assay → Assay) : (s.updAssay d o f).devId = s.devId := rfl
@[simp] theorem State.updAssay_hazard (s : State) (d o : Nat) (f : Assay → Assay) : (s.updAssay d o f).hazard = s.hazard := rfl
@[simp] theorem State.updAssay_debugger (s : State) (d o : Nat) (f : Assay → Assay) : (s.updAssay d o f).debugger = s.debugger := rfl
@[simp] theorem State.updAssay_debugLog (s : State) (d o : Nat) (f : Assay → Assay) : (s.updAssay d o f).debugLog = s.debugLog := rfl
@[simp] theorem State.updAssay_mem (s : State) (d o : Nat) (f : Assay → Assay) : (s.updAssay d o f).mem = s.mem := rfl
@[simp] theorem State.updAssay_side (s : State) (d o : Nat) (f : Assay → Assay) : (s.updAssay d o f).side = s.side := rfl
@[simp] theorem State.updAssay_hostMem (s : State) (d o : Nat) (f : Assay → Assay) : (s.updAssay d o f).hostMem = s.hostMem := rfl
@[simp] theorem State.updAssay_cores (s : State) (d o : Nat) (f : Assay → Assay) : (s.updAssay d o f).cores = s.cores := rfl
@[simp] theorem State.updAssay_groups (s : State) (d o : Nat) (f : Assay → Assay) : (s.updAssay d o f).groups = s.groups := rfl
@[simp] theorem State.updAssay_past (s : State) (d o : Nat) (f : Assay → Assay) : (s.updAssay d o f).past = s.past := rfl
@[simp] theorem State.updAssay_teams (s : State) (d o : Nat) (f : Assay → Assay) : (s.updAssay d o f).teams = s.teams := rfl
@[simp] theorem State.updAssay_launches (s : State) (d o : Nat) (f : Assay → Assay) : (s.updAssay d o f).launches = s.launches := rfl
@[simp] theorem State.updAssay_vfs (s : State) (d o : Nat) (f : Assay → Assay) : (s.updAssay d o f).vfs = s.vfs := rfl
@[simp] theorem State.updAssay_wire (s : State) (d o : Nat) (f : Assay → Assay) : (s.updAssay d o f).wire = s.wire := rfl
@[simp] theorem State.updAssay_copies (s : State) (d o : Nat) (f : Assay → Assay) : (s.updAssay d o f).copies = s.copies := rfl
@[simp] theorem State.updAssay_dones (s : State) (d o : Nat) (f : Assay → Assay) : (s.updAssay d o f).dones = s.dones := rfl
@[simp] theorem State.updAssay_cvMsgs (s : State) (d o : Nat) (f : Assay → Assay) : (s.updAssay d o f).cvMsgs = s.cvMsgs := rfl
@[simp] theorem State.updAssay_txns (s : State) (d o : Nat) (f : Assay → Assay) : (s.updAssay d o f).txns = s.txns := rfl
@[simp] theorem State.updAssay_faults (s : State) (d o : Nat) (f : Assay → Assay) : (s.updAssay d o f).faults = s.faults := rfl
@[simp] theorem State.updAssay_shoots (s : State) (d o : Nat) (f : Assay → Assay) : (s.updAssay d o f).shoots = s.shoots := rfl
@[simp] theorem State.updAssay_colls (s : State) (d o : Nat) (f : Assay → Assay) : (s.updAssay d o f).colls = s.colls := rfl
@[simp] theorem State.updAssay_chunks (s : State) (d o : Nat) (f : Assay → Assay) : (s.updAssay d o f).chunks = s.chunks := rfl
@[simp] theorem State.updAssay_droIn (s : State) (d o : Nat) (f : Assay → Assay) : (s.updAssay d o f).droIn = s.droIn := rfl
@[simp] theorem State.updAssay_asyIn (s : State) (d o : Nat) (f : Assay → Assay) : (s.updAssay d o f).asyIn = s.asyIn := rfl
@[simp] theorem State.updAssay_peerIn (s : State) (d o : Nat) (f : Assay → Assay) : (s.updAssay d o f).peerIn = s.peerIn := rfl
@[simp] theorem State.updAssay_droOut (s : State) (d o : Nat) (f : Assay → Assay) : (s.updAssay d o f).droOut = s.droOut := rfl
@[simp] theorem State.updAssay_chunkOut (s : State) (d o : Nat) (f : Assay → Assay) : (s.updAssay d o f).chunkOut = s.chunkOut := rfl
@[simp] theorem State.updAssay_asyOut (s : State) (d o : Nat) (f : Assay → Assay) : (s.updAssay d o f).asyOut = s.asyOut := rfl
@[simp] theorem State.updAssay_chunkAnsOut (s : State) (d o : Nat) (f : Assay → Assay) : (s.updAssay d o f).chunkAnsOut = s.chunkAnsOut := rfl
@[simp] theorem State.updAssay_asyAnsOut (s : State) (d o : Nat) (f : Assay → Assay) : (s.updAssay d o f).asyAnsOut = s.asyAnsOut := rfl
@[simp] theorem State.updAssay_rateOut (s : State) (d o : Nat) (f : Assay → Assay) : (s.updAssay d o f).rateOut = s.rateOut := rfl
@[simp] theorem State.updAssay_peerRun (s : State) (d o : Nat) (f : Assay → Assay) : (s.updAssay d o f).peerRun = s.peerRun := rfl
@[simp] theorem State.updAssay_peerAcks (s : State) (d o : Nat) (f : Assay → Assay) : (s.updAssay d o f).peerAcks = s.peerAcks := rfl
@[simp] theorem State.updAssay_peerSent (s : State) (d o : Nat) (f : Assay → Assay) : (s.updAssay d o f).peerSent = s.peerSent := rfl
@[simp] theorem State.updAssay_peerOut (s : State) (d o : Nat) (f : Assay → Assay) : (s.updAssay d o f).peerOut = s.peerOut := rfl
@[simp] theorem State.updAssay_ansOut (s : State) (d o : Nat) (f : Assay → Assay) : (s.updAssay d o f).ansOut = s.ansOut := rfl
@[simp] theorem State.updAssay_notices (s : State) (d o : Nat) (f : Assay → Assay) : (s.updAssay d o f).notices = s.notices := rfl
@[simp] theorem State.updAssay_reports (s : State) (d o : Nat) (f : Assay → Assay) : (s.updAssay d o f).reports = s.reports := rfl
@[simp] theorem State.updAssay_hostReads (s : State) (d o : Nat) (f : Assay → Assay) : (s.updAssay d o f).hostReads = s.hostReads := rfl
@[simp] theorem State.updAssay_ports (s : State) (d o : Nat) (f : Assay → Assay) : (s.updAssay d o f).ports = s.ports := rfl
@[simp] theorem State.updAssay_unreach (s : State) (d o : Nat) (f : Assay → Assay) : (s.updAssay d o f).unreach = s.unreach := rfl
@[simp] theorem State.updAssay_power (s : State) (d o : Nat) (f : Assay → Assay) : (s.updAssay d o f).power = s.power := rfl
@[simp] theorem State.updAssay_lastSq (s : State) (d o : Nat) (f : Assay → Assay) : (s.updAssay d o f).lastSq = s.lastSq := rfl
@[simp] theorem State.updAssay_gens (s : State) (d o : Nat) (f : Assay → Assay) : (s.updAssay d o f).gens = s.gens := rfl
@[simp] theorem State.updAssay_rowCorr (s : State) (d o : Nat) (f : Assay → Assay) : (s.updAssay d o f).rowCorr = s.rowCorr := rfl
@[simp] theorem State.updAssay_rows (s : State) (d o : Nat) (f : Assay → Assay) : (s.updAssay d o f).rows = s.rows := rfl
@[simp] theorem State.updAssay_spared (s : State) (d o : Nat) (f : Assay → Assay) : (s.updAssay d o f).spared = s.spared := rfl

/-! ## `updVf` -/

@[simp] theorem State.updVf_now (s : State) (v : Nat) (f : Vf → Vf) : (s.updVf v f).now = s.now := rfl
@[simp] theorem State.updVf_agenda (s : State) (v : Nat) (f : Vf → Vf) : (s.updVf v f).agenda = s.agenda := rfl
@[simp] theorem State.updVf_cur (s : State) (v : Nat) (f : Vf → Vf) : (s.updVf v f).cur = s.cur := rfl
@[simp] theorem State.updVf_fresh (s : State) (v : Nat) (f : Vf → Vf) : (s.updVf v f).fresh = s.fresh := rfl
@[simp] theorem State.updVf_uid (s : State) (v : Nat) (f : Vf → Vf) : (s.updVf v f).uid = s.uid := rfl
@[simp] theorem State.updVf_boots (s : State) (v : Nat) (f : Vf → Vf) : (s.updVf v f).boots = s.boots := rfl
@[simp] theorem State.updVf_boot (s : State) (v : Nat) (f : Vf → Vf) : (s.updVf v f).boot = s.boot := rfl
@[simp] theorem State.updVf_image (s : State) (v : Nat) (f : Vf → Vf) : (s.updVf v f).image = s.image := rfl
@[simp] theorem State.updVf_floor (s : State) (v : Nat) (f : Vf → Vf) : (s.updVf v f).floor = s.floor := rfl
@[simp] theorem State.updVf_devId (s : State) (v : Nat) (f : Vf → Vf) : (s.updVf v f).devId = s.devId := rfl
@[simp] theorem State.updVf_hazard (s : State) (v : Nat) (f : Vf → Vf) : (s.updVf v f).hazard = s.hazard := rfl
@[simp] theorem State.updVf_debugger (s : State) (v : Nat) (f : Vf → Vf) : (s.updVf v f).debugger = s.debugger := rfl
@[simp] theorem State.updVf_debugLog (s : State) (v : Nat) (f : Vf → Vf) : (s.updVf v f).debugLog = s.debugLog := rfl
@[simp] theorem State.updVf_mem (s : State) (v : Nat) (f : Vf → Vf) : (s.updVf v f).mem = s.mem := rfl
@[simp] theorem State.updVf_side (s : State) (v : Nat) (f : Vf → Vf) : (s.updVf v f).side = s.side := rfl
@[simp] theorem State.updVf_hostMem (s : State) (v : Nat) (f : Vf → Vf) : (s.updVf v f).hostMem = s.hostMem := rfl
@[simp] theorem State.updVf_dies (s : State) (v : Nat) (f : Vf → Vf) : (s.updVf v f).dies = s.dies := rfl
@[simp] theorem State.updVf_cores (s : State) (v : Nat) (f : Vf → Vf) : (s.updVf v f).cores = s.cores := rfl
@[simp] theorem State.updVf_groups (s : State) (v : Nat) (f : Vf → Vf) : (s.updVf v f).groups = s.groups := rfl
@[simp] theorem State.updVf_past (s : State) (v : Nat) (f : Vf → Vf) : (s.updVf v f).past = s.past := rfl
@[simp] theorem State.updVf_teams (s : State) (v : Nat) (f : Vf → Vf) : (s.updVf v f).teams = s.teams := rfl
@[simp] theorem State.updVf_launches (s : State) (v : Nat) (f : Vf → Vf) : (s.updVf v f).launches = s.launches := rfl
@[simp] theorem State.updVf_vfs (s : State) (v : Nat) (f : Vf → Vf) : (s.updVf v f).vfs = SMap.put s.vfs v (f (s.vf v)) := rfl
@[simp] theorem State.updVf_wire (s : State) (v : Nat) (f : Vf → Vf) : (s.updVf v f).wire = s.wire := rfl
@[simp] theorem State.updVf_copies (s : State) (v : Nat) (f : Vf → Vf) : (s.updVf v f).copies = s.copies := rfl
@[simp] theorem State.updVf_dones (s : State) (v : Nat) (f : Vf → Vf) : (s.updVf v f).dones = s.dones := rfl
@[simp] theorem State.updVf_cvMsgs (s : State) (v : Nat) (f : Vf → Vf) : (s.updVf v f).cvMsgs = s.cvMsgs := rfl
@[simp] theorem State.updVf_txns (s : State) (v : Nat) (f : Vf → Vf) : (s.updVf v f).txns = s.txns := rfl
@[simp] theorem State.updVf_faults (s : State) (v : Nat) (f : Vf → Vf) : (s.updVf v f).faults = s.faults := rfl
@[simp] theorem State.updVf_shoots (s : State) (v : Nat) (f : Vf → Vf) : (s.updVf v f).shoots = s.shoots := rfl
@[simp] theorem State.updVf_colls (s : State) (v : Nat) (f : Vf → Vf) : (s.updVf v f).colls = s.colls := rfl
@[simp] theorem State.updVf_chunks (s : State) (v : Nat) (f : Vf → Vf) : (s.updVf v f).chunks = s.chunks := rfl
@[simp] theorem State.updVf_droIn (s : State) (v : Nat) (f : Vf → Vf) : (s.updVf v f).droIn = s.droIn := rfl
@[simp] theorem State.updVf_asyIn (s : State) (v : Nat) (f : Vf → Vf) : (s.updVf v f).asyIn = s.asyIn := rfl
@[simp] theorem State.updVf_peerIn (s : State) (v : Nat) (f : Vf → Vf) : (s.updVf v f).peerIn = s.peerIn := rfl
@[simp] theorem State.updVf_droOut (s : State) (v : Nat) (f : Vf → Vf) : (s.updVf v f).droOut = s.droOut := rfl
@[simp] theorem State.updVf_chunkOut (s : State) (v : Nat) (f : Vf → Vf) : (s.updVf v f).chunkOut = s.chunkOut := rfl
@[simp] theorem State.updVf_asyOut (s : State) (v : Nat) (f : Vf → Vf) : (s.updVf v f).asyOut = s.asyOut := rfl
@[simp] theorem State.updVf_chunkAnsOut (s : State) (v : Nat) (f : Vf → Vf) : (s.updVf v f).chunkAnsOut = s.chunkAnsOut := rfl
@[simp] theorem State.updVf_asyAnsOut (s : State) (v : Nat) (f : Vf → Vf) : (s.updVf v f).asyAnsOut = s.asyAnsOut := rfl
@[simp] theorem State.updVf_rateOut (s : State) (v : Nat) (f : Vf → Vf) : (s.updVf v f).rateOut = s.rateOut := rfl
@[simp] theorem State.updVf_peerRun (s : State) (v : Nat) (f : Vf → Vf) : (s.updVf v f).peerRun = s.peerRun := rfl
@[simp] theorem State.updVf_peerAcks (s : State) (v : Nat) (f : Vf → Vf) : (s.updVf v f).peerAcks = s.peerAcks := rfl
@[simp] theorem State.updVf_peerSent (s : State) (v : Nat) (f : Vf → Vf) : (s.updVf v f).peerSent = s.peerSent := rfl
@[simp] theorem State.updVf_peerOut (s : State) (v : Nat) (f : Vf → Vf) : (s.updVf v f).peerOut = s.peerOut := rfl
@[simp] theorem State.updVf_ansOut (s : State) (v : Nat) (f : Vf → Vf) : (s.updVf v f).ansOut = s.ansOut := rfl
@[simp] theorem State.updVf_notices (s : State) (v : Nat) (f : Vf → Vf) : (s.updVf v f).notices = s.notices := rfl
@[simp] theorem State.updVf_reports (s : State) (v : Nat) (f : Vf → Vf) : (s.updVf v f).reports = s.reports := rfl
@[simp] theorem State.updVf_hostReads (s : State) (v : Nat) (f : Vf → Vf) : (s.updVf v f).hostReads = s.hostReads := rfl
@[simp] theorem State.updVf_ports (s : State) (v : Nat) (f : Vf → Vf) : (s.updVf v f).ports = s.ports := rfl
@[simp] theorem State.updVf_unreach (s : State) (v : Nat) (f : Vf → Vf) : (s.updVf v f).unreach = s.unreach := rfl
@[simp] theorem State.updVf_power (s : State) (v : Nat) (f : Vf → Vf) : (s.updVf v f).power = s.power := rfl
@[simp] theorem State.updVf_lastSq (s : State) (v : Nat) (f : Vf → Vf) : (s.updVf v f).lastSq = s.lastSq := rfl
@[simp] theorem State.updVf_gens (s : State) (v : Nat) (f : Vf → Vf) : (s.updVf v f).gens = s.gens := rfl
@[simp] theorem State.updVf_rowCorr (s : State) (v : Nat) (f : Vf → Vf) : (s.updVf v f).rowCorr = s.rowCorr := rfl
@[simp] theorem State.updVf_rows (s : State) (v : Nat) (f : Vf → Vf) : (s.updVf v f).rows = s.rows := rfl
@[simp] theorem State.updVf_spared (s : State) (v : Nat) (f : Vf → Vf) : (s.updVf v f).spared = s.spared := rfl

/-! ## `updLaunch` -/

@[simp] theorem State.updLaunch_now (s : State) (l : Nat) (f : Launch → Launch) : (s.updLaunch l f).now = s.now := rfl
@[simp] theorem State.updLaunch_agenda (s : State) (l : Nat) (f : Launch → Launch) : (s.updLaunch l f).agenda = s.agenda := rfl
@[simp] theorem State.updLaunch_cur (s : State) (l : Nat) (f : Launch → Launch) : (s.updLaunch l f).cur = s.cur := rfl
@[simp] theorem State.updLaunch_fresh (s : State) (l : Nat) (f : Launch → Launch) : (s.updLaunch l f).fresh = s.fresh := rfl
@[simp] theorem State.updLaunch_uid (s : State) (l : Nat) (f : Launch → Launch) : (s.updLaunch l f).uid = s.uid := rfl
@[simp] theorem State.updLaunch_boots (s : State) (l : Nat) (f : Launch → Launch) : (s.updLaunch l f).boots = s.boots := rfl
@[simp] theorem State.updLaunch_boot (s : State) (l : Nat) (f : Launch → Launch) : (s.updLaunch l f).boot = s.boot := rfl
@[simp] theorem State.updLaunch_image (s : State) (l : Nat) (f : Launch → Launch) : (s.updLaunch l f).image = s.image := rfl
@[simp] theorem State.updLaunch_floor (s : State) (l : Nat) (f : Launch → Launch) : (s.updLaunch l f).floor = s.floor := rfl
@[simp] theorem State.updLaunch_devId (s : State) (l : Nat) (f : Launch → Launch) : (s.updLaunch l f).devId = s.devId := rfl
@[simp] theorem State.updLaunch_hazard (s : State) (l : Nat) (f : Launch → Launch) : (s.updLaunch l f).hazard = s.hazard := rfl
@[simp] theorem State.updLaunch_debugger (s : State) (l : Nat) (f : Launch → Launch) : (s.updLaunch l f).debugger = s.debugger := rfl
@[simp] theorem State.updLaunch_debugLog (s : State) (l : Nat) (f : Launch → Launch) : (s.updLaunch l f).debugLog = s.debugLog := rfl
@[simp] theorem State.updLaunch_mem (s : State) (l : Nat) (f : Launch → Launch) : (s.updLaunch l f).mem = s.mem := rfl
@[simp] theorem State.updLaunch_side (s : State) (l : Nat) (f : Launch → Launch) : (s.updLaunch l f).side = s.side := rfl
@[simp] theorem State.updLaunch_hostMem (s : State) (l : Nat) (f : Launch → Launch) : (s.updLaunch l f).hostMem = s.hostMem := rfl
@[simp] theorem State.updLaunch_dies (s : State) (l : Nat) (f : Launch → Launch) : (s.updLaunch l f).dies = s.dies := rfl
@[simp] theorem State.updLaunch_cores (s : State) (l : Nat) (f : Launch → Launch) : (s.updLaunch l f).cores = s.cores := rfl
@[simp] theorem State.updLaunch_groups (s : State) (l : Nat) (f : Launch → Launch) : (s.updLaunch l f).groups = s.groups := rfl
@[simp] theorem State.updLaunch_past (s : State) (l : Nat) (f : Launch → Launch) : (s.updLaunch l f).past = s.past := rfl
@[simp] theorem State.updLaunch_teams (s : State) (l : Nat) (f : Launch → Launch) : (s.updLaunch l f).teams = s.teams := rfl
@[simp] theorem State.updLaunch_launches (s : State) (l : Nat) (f : Launch → Launch) : (s.updLaunch l f).launches = SMap.upd s.launches l f := rfl
@[simp] theorem State.updLaunch_vfs (s : State) (l : Nat) (f : Launch → Launch) : (s.updLaunch l f).vfs = s.vfs := rfl
@[simp] theorem State.updLaunch_wire (s : State) (l : Nat) (f : Launch → Launch) : (s.updLaunch l f).wire = s.wire := rfl
@[simp] theorem State.updLaunch_copies (s : State) (l : Nat) (f : Launch → Launch) : (s.updLaunch l f).copies = s.copies := rfl
@[simp] theorem State.updLaunch_dones (s : State) (l : Nat) (f : Launch → Launch) : (s.updLaunch l f).dones = s.dones := rfl
@[simp] theorem State.updLaunch_cvMsgs (s : State) (l : Nat) (f : Launch → Launch) : (s.updLaunch l f).cvMsgs = s.cvMsgs := rfl
@[simp] theorem State.updLaunch_txns (s : State) (l : Nat) (f : Launch → Launch) : (s.updLaunch l f).txns = s.txns := rfl
@[simp] theorem State.updLaunch_faults (s : State) (l : Nat) (f : Launch → Launch) : (s.updLaunch l f).faults = s.faults := rfl
@[simp] theorem State.updLaunch_shoots (s : State) (l : Nat) (f : Launch → Launch) : (s.updLaunch l f).shoots = s.shoots := rfl
@[simp] theorem State.updLaunch_colls (s : State) (l : Nat) (f : Launch → Launch) : (s.updLaunch l f).colls = s.colls := rfl
@[simp] theorem State.updLaunch_chunks (s : State) (l : Nat) (f : Launch → Launch) : (s.updLaunch l f).chunks = s.chunks := rfl
@[simp] theorem State.updLaunch_droIn (s : State) (l : Nat) (f : Launch → Launch) : (s.updLaunch l f).droIn = s.droIn := rfl
@[simp] theorem State.updLaunch_asyIn (s : State) (l : Nat) (f : Launch → Launch) : (s.updLaunch l f).asyIn = s.asyIn := rfl
@[simp] theorem State.updLaunch_peerIn (s : State) (l : Nat) (f : Launch → Launch) : (s.updLaunch l f).peerIn = s.peerIn := rfl
@[simp] theorem State.updLaunch_droOut (s : State) (l : Nat) (f : Launch → Launch) : (s.updLaunch l f).droOut = s.droOut := rfl
@[simp] theorem State.updLaunch_chunkOut (s : State) (l : Nat) (f : Launch → Launch) : (s.updLaunch l f).chunkOut = s.chunkOut := rfl
@[simp] theorem State.updLaunch_asyOut (s : State) (l : Nat) (f : Launch → Launch) : (s.updLaunch l f).asyOut = s.asyOut := rfl
@[simp] theorem State.updLaunch_chunkAnsOut (s : State) (l : Nat) (f : Launch → Launch) : (s.updLaunch l f).chunkAnsOut = s.chunkAnsOut := rfl
@[simp] theorem State.updLaunch_asyAnsOut (s : State) (l : Nat) (f : Launch → Launch) : (s.updLaunch l f).asyAnsOut = s.asyAnsOut := rfl
@[simp] theorem State.updLaunch_rateOut (s : State) (l : Nat) (f : Launch → Launch) : (s.updLaunch l f).rateOut = s.rateOut := rfl
@[simp] theorem State.updLaunch_peerRun (s : State) (l : Nat) (f : Launch → Launch) : (s.updLaunch l f).peerRun = s.peerRun := rfl
@[simp] theorem State.updLaunch_peerAcks (s : State) (l : Nat) (f : Launch → Launch) : (s.updLaunch l f).peerAcks = s.peerAcks := rfl
@[simp] theorem State.updLaunch_peerSent (s : State) (l : Nat) (f : Launch → Launch) : (s.updLaunch l f).peerSent = s.peerSent := rfl
@[simp] theorem State.updLaunch_peerOut (s : State) (l : Nat) (f : Launch → Launch) : (s.updLaunch l f).peerOut = s.peerOut := rfl
@[simp] theorem State.updLaunch_ansOut (s : State) (l : Nat) (f : Launch → Launch) : (s.updLaunch l f).ansOut = s.ansOut := rfl
@[simp] theorem State.updLaunch_notices (s : State) (l : Nat) (f : Launch → Launch) : (s.updLaunch l f).notices = s.notices := rfl
@[simp] theorem State.updLaunch_reports (s : State) (l : Nat) (f : Launch → Launch) : (s.updLaunch l f).reports = s.reports := rfl
@[simp] theorem State.updLaunch_hostReads (s : State) (l : Nat) (f : Launch → Launch) : (s.updLaunch l f).hostReads = s.hostReads := rfl
@[simp] theorem State.updLaunch_ports (s : State) (l : Nat) (f : Launch → Launch) : (s.updLaunch l f).ports = s.ports := rfl
@[simp] theorem State.updLaunch_unreach (s : State) (l : Nat) (f : Launch → Launch) : (s.updLaunch l f).unreach = s.unreach := rfl
@[simp] theorem State.updLaunch_power (s : State) (l : Nat) (f : Launch → Launch) : (s.updLaunch l f).power = s.power := rfl
@[simp] theorem State.updLaunch_lastSq (s : State) (l : Nat) (f : Launch → Launch) : (s.updLaunch l f).lastSq = s.lastSq := rfl
@[simp] theorem State.updLaunch_gens (s : State) (l : Nat) (f : Launch → Launch) : (s.updLaunch l f).gens = s.gens := rfl
@[simp] theorem State.updLaunch_rowCorr (s : State) (l : Nat) (f : Launch → Launch) : (s.updLaunch l f).rowCorr = s.rowCorr := rfl
@[simp] theorem State.updLaunch_rows (s : State) (l : Nat) (f : Launch → Launch) : (s.updLaunch l f).rows = s.rows := rfl
@[simp] theorem State.updLaunch_spared (s : State) (l : Nat) (f : Launch → Launch) : (s.updLaunch l f).spared = s.spared := rfl

/-! ## `updColl` -/

@[simp] theorem State.updColl_now (s : State) (o : Nat) (f : Coll → Coll) : (s.updColl o f).now = s.now := rfl
@[simp] theorem State.updColl_agenda (s : State) (o : Nat) (f : Coll → Coll) : (s.updColl o f).agenda = s.agenda := rfl
@[simp] theorem State.updColl_cur (s : State) (o : Nat) (f : Coll → Coll) : (s.updColl o f).cur = s.cur := rfl
@[simp] theorem State.updColl_fresh (s : State) (o : Nat) (f : Coll → Coll) : (s.updColl o f).fresh = s.fresh := rfl
@[simp] theorem State.updColl_uid (s : State) (o : Nat) (f : Coll → Coll) : (s.updColl o f).uid = s.uid := rfl
@[simp] theorem State.updColl_boots (s : State) (o : Nat) (f : Coll → Coll) : (s.updColl o f).boots = s.boots := rfl
@[simp] theorem State.updColl_boot (s : State) (o : Nat) (f : Coll → Coll) : (s.updColl o f).boot = s.boot := rfl
@[simp] theorem State.updColl_image (s : State) (o : Nat) (f : Coll → Coll) : (s.updColl o f).image = s.image := rfl
@[simp] theorem State.updColl_floor (s : State) (o : Nat) (f : Coll → Coll) : (s.updColl o f).floor = s.floor := rfl
@[simp] theorem State.updColl_devId (s : State) (o : Nat) (f : Coll → Coll) : (s.updColl o f).devId = s.devId := rfl
@[simp] theorem State.updColl_hazard (s : State) (o : Nat) (f : Coll → Coll) : (s.updColl o f).hazard = s.hazard := rfl
@[simp] theorem State.updColl_debugger (s : State) (o : Nat) (f : Coll → Coll) : (s.updColl o f).debugger = s.debugger := rfl
@[simp] theorem State.updColl_debugLog (s : State) (o : Nat) (f : Coll → Coll) : (s.updColl o f).debugLog = s.debugLog := rfl
@[simp] theorem State.updColl_mem (s : State) (o : Nat) (f : Coll → Coll) : (s.updColl o f).mem = s.mem := rfl
@[simp] theorem State.updColl_side (s : State) (o : Nat) (f : Coll → Coll) : (s.updColl o f).side = s.side := rfl
@[simp] theorem State.updColl_hostMem (s : State) (o : Nat) (f : Coll → Coll) : (s.updColl o f).hostMem = s.hostMem := rfl
@[simp] theorem State.updColl_dies (s : State) (o : Nat) (f : Coll → Coll) : (s.updColl o f).dies = s.dies := rfl
@[simp] theorem State.updColl_cores (s : State) (o : Nat) (f : Coll → Coll) : (s.updColl o f).cores = s.cores := rfl
@[simp] theorem State.updColl_groups (s : State) (o : Nat) (f : Coll → Coll) : (s.updColl o f).groups = s.groups := rfl
@[simp] theorem State.updColl_past (s : State) (o : Nat) (f : Coll → Coll) : (s.updColl o f).past = s.past := rfl
@[simp] theorem State.updColl_teams (s : State) (o : Nat) (f : Coll → Coll) : (s.updColl o f).teams = s.teams := rfl
@[simp] theorem State.updColl_launches (s : State) (o : Nat) (f : Coll → Coll) : (s.updColl o f).launches = s.launches := rfl
@[simp] theorem State.updColl_vfs (s : State) (o : Nat) (f : Coll → Coll) : (s.updColl o f).vfs = s.vfs := rfl
@[simp] theorem State.updColl_wire (s : State) (o : Nat) (f : Coll → Coll) : (s.updColl o f).wire = s.wire := rfl
@[simp] theorem State.updColl_copies (s : State) (o : Nat) (f : Coll → Coll) : (s.updColl o f).copies = s.copies := rfl
@[simp] theorem State.updColl_dones (s : State) (o : Nat) (f : Coll → Coll) : (s.updColl o f).dones = s.dones := rfl
@[simp] theorem State.updColl_cvMsgs (s : State) (o : Nat) (f : Coll → Coll) : (s.updColl o f).cvMsgs = s.cvMsgs := rfl
@[simp] theorem State.updColl_txns (s : State) (o : Nat) (f : Coll → Coll) : (s.updColl o f).txns = s.txns := rfl
@[simp] theorem State.updColl_faults (s : State) (o : Nat) (f : Coll → Coll) : (s.updColl o f).faults = s.faults := rfl
@[simp] theorem State.updColl_shoots (s : State) (o : Nat) (f : Coll → Coll) : (s.updColl o f).shoots = s.shoots := rfl
@[simp] theorem State.updColl_colls (s : State) (o : Nat) (f : Coll → Coll) : (s.updColl o f).colls = SMap.put s.colls o (f (s.coll o)) := rfl
@[simp] theorem State.updColl_chunks (s : State) (o : Nat) (f : Coll → Coll) : (s.updColl o f).chunks = s.chunks := rfl
@[simp] theorem State.updColl_droIn (s : State) (o : Nat) (f : Coll → Coll) : (s.updColl o f).droIn = s.droIn := rfl
@[simp] theorem State.updColl_asyIn (s : State) (o : Nat) (f : Coll → Coll) : (s.updColl o f).asyIn = s.asyIn := rfl
@[simp] theorem State.updColl_peerIn (s : State) (o : Nat) (f : Coll → Coll) : (s.updColl o f).peerIn = s.peerIn := rfl
@[simp] theorem State.updColl_droOut (s : State) (o : Nat) (f : Coll → Coll) : (s.updColl o f).droOut = s.droOut := rfl
@[simp] theorem State.updColl_chunkOut (s : State) (o : Nat) (f : Coll → Coll) : (s.updColl o f).chunkOut = s.chunkOut := rfl
@[simp] theorem State.updColl_asyOut (s : State) (o : Nat) (f : Coll → Coll) : (s.updColl o f).asyOut = s.asyOut := rfl
@[simp] theorem State.updColl_chunkAnsOut (s : State) (o : Nat) (f : Coll → Coll) : (s.updColl o f).chunkAnsOut = s.chunkAnsOut := rfl
@[simp] theorem State.updColl_asyAnsOut (s : State) (o : Nat) (f : Coll → Coll) : (s.updColl o f).asyAnsOut = s.asyAnsOut := rfl
@[simp] theorem State.updColl_rateOut (s : State) (o : Nat) (f : Coll → Coll) : (s.updColl o f).rateOut = s.rateOut := rfl
@[simp] theorem State.updColl_peerRun (s : State) (o : Nat) (f : Coll → Coll) : (s.updColl o f).peerRun = s.peerRun := rfl
@[simp] theorem State.updColl_peerAcks (s : State) (o : Nat) (f : Coll → Coll) : (s.updColl o f).peerAcks = s.peerAcks := rfl
@[simp] theorem State.updColl_peerSent (s : State) (o : Nat) (f : Coll → Coll) : (s.updColl o f).peerSent = s.peerSent := rfl
@[simp] theorem State.updColl_peerOut (s : State) (o : Nat) (f : Coll → Coll) : (s.updColl o f).peerOut = s.peerOut := rfl
@[simp] theorem State.updColl_ansOut (s : State) (o : Nat) (f : Coll → Coll) : (s.updColl o f).ansOut = s.ansOut := rfl
@[simp] theorem State.updColl_notices (s : State) (o : Nat) (f : Coll → Coll) : (s.updColl o f).notices = s.notices := rfl
@[simp] theorem State.updColl_reports (s : State) (o : Nat) (f : Coll → Coll) : (s.updColl o f).reports = s.reports := rfl
@[simp] theorem State.updColl_hostReads (s : State) (o : Nat) (f : Coll → Coll) : (s.updColl o f).hostReads = s.hostReads := rfl
@[simp] theorem State.updColl_ports (s : State) (o : Nat) (f : Coll → Coll) : (s.updColl o f).ports = s.ports := rfl
@[simp] theorem State.updColl_unreach (s : State) (o : Nat) (f : Coll → Coll) : (s.updColl o f).unreach = s.unreach := rfl
@[simp] theorem State.updColl_power (s : State) (o : Nat) (f : Coll → Coll) : (s.updColl o f).power = s.power := rfl
@[simp] theorem State.updColl_lastSq (s : State) (o : Nat) (f : Coll → Coll) : (s.updColl o f).lastSq = s.lastSq := rfl
@[simp] theorem State.updColl_gens (s : State) (o : Nat) (f : Coll → Coll) : (s.updColl o f).gens = s.gens := rfl
@[simp] theorem State.updColl_rowCorr (s : State) (o : Nat) (f : Coll → Coll) : (s.updColl o f).rowCorr = s.rowCorr := rfl
@[simp] theorem State.updColl_rows (s : State) (o : Nat) (f : Coll → Coll) : (s.updColl o f).rows = s.rows := rfl
@[simp] theorem State.updColl_spared (s : State) (o : Nat) (f : Coll → Coll) : (s.updColl o f).spared = s.spared := rfl

/-! ## `updPort` -/

@[simp] theorem State.updPort_now (s : State) (p : Nat) (f : Port → Port) : (s.updPort p f).now = s.now := rfl
@[simp] theorem State.updPort_agenda (s : State) (p : Nat) (f : Port → Port) : (s.updPort p f).agenda = s.agenda := rfl
@[simp] theorem State.updPort_cur (s : State) (p : Nat) (f : Port → Port) : (s.updPort p f).cur = s.cur := rfl
@[simp] theorem State.updPort_fresh (s : State) (p : Nat) (f : Port → Port) : (s.updPort p f).fresh = s.fresh := rfl
@[simp] theorem State.updPort_uid (s : State) (p : Nat) (f : Port → Port) : (s.updPort p f).uid = s.uid := rfl
@[simp] theorem State.updPort_boots (s : State) (p : Nat) (f : Port → Port) : (s.updPort p f).boots = s.boots := rfl
@[simp] theorem State.updPort_boot (s : State) (p : Nat) (f : Port → Port) : (s.updPort p f).boot = s.boot := rfl
@[simp] theorem State.updPort_image (s : State) (p : Nat) (f : Port → Port) : (s.updPort p f).image = s.image := rfl
@[simp] theorem State.updPort_floor (s : State) (p : Nat) (f : Port → Port) : (s.updPort p f).floor = s.floor := rfl
@[simp] theorem State.updPort_devId (s : State) (p : Nat) (f : Port → Port) : (s.updPort p f).devId = s.devId := rfl
@[simp] theorem State.updPort_hazard (s : State) (p : Nat) (f : Port → Port) : (s.updPort p f).hazard = s.hazard := rfl
@[simp] theorem State.updPort_debugger (s : State) (p : Nat) (f : Port → Port) : (s.updPort p f).debugger = s.debugger := rfl
@[simp] theorem State.updPort_debugLog (s : State) (p : Nat) (f : Port → Port) : (s.updPort p f).debugLog = s.debugLog := rfl
@[simp] theorem State.updPort_mem (s : State) (p : Nat) (f : Port → Port) : (s.updPort p f).mem = s.mem := rfl
@[simp] theorem State.updPort_side (s : State) (p : Nat) (f : Port → Port) : (s.updPort p f).side = s.side := rfl
@[simp] theorem State.updPort_hostMem (s : State) (p : Nat) (f : Port → Port) : (s.updPort p f).hostMem = s.hostMem := rfl
@[simp] theorem State.updPort_dies (s : State) (p : Nat) (f : Port → Port) : (s.updPort p f).dies = s.dies := rfl
@[simp] theorem State.updPort_cores (s : State) (p : Nat) (f : Port → Port) : (s.updPort p f).cores = s.cores := rfl
@[simp] theorem State.updPort_groups (s : State) (p : Nat) (f : Port → Port) : (s.updPort p f).groups = s.groups := rfl
@[simp] theorem State.updPort_past (s : State) (p : Nat) (f : Port → Port) : (s.updPort p f).past = s.past := rfl
@[simp] theorem State.updPort_teams (s : State) (p : Nat) (f : Port → Port) : (s.updPort p f).teams = s.teams := rfl
@[simp] theorem State.updPort_launches (s : State) (p : Nat) (f : Port → Port) : (s.updPort p f).launches = s.launches := rfl
@[simp] theorem State.updPort_vfs (s : State) (p : Nat) (f : Port → Port) : (s.updPort p f).vfs = s.vfs := rfl
@[simp] theorem State.updPort_wire (s : State) (p : Nat) (f : Port → Port) : (s.updPort p f).wire = s.wire := rfl
@[simp] theorem State.updPort_copies (s : State) (p : Nat) (f : Port → Port) : (s.updPort p f).copies = s.copies := rfl
@[simp] theorem State.updPort_dones (s : State) (p : Nat) (f : Port → Port) : (s.updPort p f).dones = s.dones := rfl
@[simp] theorem State.updPort_cvMsgs (s : State) (p : Nat) (f : Port → Port) : (s.updPort p f).cvMsgs = s.cvMsgs := rfl
@[simp] theorem State.updPort_txns (s : State) (p : Nat) (f : Port → Port) : (s.updPort p f).txns = s.txns := rfl
@[simp] theorem State.updPort_faults (s : State) (p : Nat) (f : Port → Port) : (s.updPort p f).faults = s.faults := rfl
@[simp] theorem State.updPort_shoots (s : State) (p : Nat) (f : Port → Port) : (s.updPort p f).shoots = s.shoots := rfl
@[simp] theorem State.updPort_colls (s : State) (p : Nat) (f : Port → Port) : (s.updPort p f).colls = s.colls := rfl
@[simp] theorem State.updPort_chunks (s : State) (p : Nat) (f : Port → Port) : (s.updPort p f).chunks = s.chunks := rfl
@[simp] theorem State.updPort_droIn (s : State) (p : Nat) (f : Port → Port) : (s.updPort p f).droIn = s.droIn := rfl
@[simp] theorem State.updPort_asyIn (s : State) (p : Nat) (f : Port → Port) : (s.updPort p f).asyIn = s.asyIn := rfl
@[simp] theorem State.updPort_peerIn (s : State) (p : Nat) (f : Port → Port) : (s.updPort p f).peerIn = s.peerIn := rfl
@[simp] theorem State.updPort_droOut (s : State) (p : Nat) (f : Port → Port) : (s.updPort p f).droOut = s.droOut := rfl
@[simp] theorem State.updPort_chunkOut (s : State) (p : Nat) (f : Port → Port) : (s.updPort p f).chunkOut = s.chunkOut := rfl
@[simp] theorem State.updPort_asyOut (s : State) (p : Nat) (f : Port → Port) : (s.updPort p f).asyOut = s.asyOut := rfl
@[simp] theorem State.updPort_chunkAnsOut (s : State) (p : Nat) (f : Port → Port) : (s.updPort p f).chunkAnsOut = s.chunkAnsOut := rfl
@[simp] theorem State.updPort_asyAnsOut (s : State) (p : Nat) (f : Port → Port) : (s.updPort p f).asyAnsOut = s.asyAnsOut := rfl
@[simp] theorem State.updPort_rateOut (s : State) (p : Nat) (f : Port → Port) : (s.updPort p f).rateOut = s.rateOut := rfl
@[simp] theorem State.updPort_peerRun (s : State) (p : Nat) (f : Port → Port) : (s.updPort p f).peerRun = s.peerRun := rfl
@[simp] theorem State.updPort_peerAcks (s : State) (p : Nat) (f : Port → Port) : (s.updPort p f).peerAcks = s.peerAcks := rfl
@[simp] theorem State.updPort_peerSent (s : State) (p : Nat) (f : Port → Port) : (s.updPort p f).peerSent = s.peerSent := rfl
@[simp] theorem State.updPort_peerOut (s : State) (p : Nat) (f : Port → Port) : (s.updPort p f).peerOut = s.peerOut := rfl
@[simp] theorem State.updPort_ansOut (s : State) (p : Nat) (f : Port → Port) : (s.updPort p f).ansOut = s.ansOut := rfl
@[simp] theorem State.updPort_notices (s : State) (p : Nat) (f : Port → Port) : (s.updPort p f).notices = s.notices := rfl
@[simp] theorem State.updPort_reports (s : State) (p : Nat) (f : Port → Port) : (s.updPort p f).reports = s.reports := rfl
@[simp] theorem State.updPort_hostReads (s : State) (p : Nat) (f : Port → Port) : (s.updPort p f).hostReads = s.hostReads := rfl
@[simp] theorem State.updPort_ports (s : State) (p : Nat) (f : Port → Port) : (s.updPort p f).ports = SMap.put s.ports p (f (s.port p)) := rfl
@[simp] theorem State.updPort_unreach (s : State) (p : Nat) (f : Port → Port) : (s.updPort p f).unreach = s.unreach := rfl
@[simp] theorem State.updPort_power (s : State) (p : Nat) (f : Port → Port) : (s.updPort p f).power = s.power := rfl
@[simp] theorem State.updPort_lastSq (s : State) (p : Nat) (f : Port → Port) : (s.updPort p f).lastSq = s.lastSq := rfl
@[simp] theorem State.updPort_gens (s : State) (p : Nat) (f : Port → Port) : (s.updPort p f).gens = s.gens := rfl
@[simp] theorem State.updPort_rowCorr (s : State) (p : Nat) (f : Port → Port) : (s.updPort p f).rowCorr = s.rowCorr := rfl
@[simp] theorem State.updPort_rows (s : State) (p : Nat) (f : Port → Port) : (s.updPort p f).rows = s.rows := rfl
@[simp] theorem State.updPort_spared (s : State) (p : Nat) (f : Port → Port) : (s.updPort p f).spared = s.spared := rfl

/-! ## `bump` -/

@[simp] theorem State.bump_now (s : State) : (s.bump).now = s.now := rfl
@[simp] theorem State.bump_agenda (s : State) : (s.bump).agenda = s.agenda := rfl
@[simp] theorem State.bump_cur (s : State) : (s.bump).cur = s.cur := rfl
@[simp] theorem State.bump_fresh (s : State) : (s.bump).fresh = s.fresh := rfl
@[simp] theorem State.bump_uid (s : State) : (s.bump).uid = s.uid + 1 := rfl
@[simp] theorem State.bump_boots (s : State) : (s.bump).boots = s.boots := rfl
@[simp] theorem State.bump_boot (s : State) : (s.bump).boot = s.boot := rfl
@[simp] theorem State.bump_image (s : State) : (s.bump).image = s.image := rfl
@[simp] theorem State.bump_floor (s : State) : (s.bump).floor = s.floor := rfl
@[simp] theorem State.bump_devId (s : State) : (s.bump).devId = s.devId := rfl
@[simp] theorem State.bump_hazard (s : State) : (s.bump).hazard = s.hazard := rfl
@[simp] theorem State.bump_debugger (s : State) : (s.bump).debugger = s.debugger := rfl
@[simp] theorem State.bump_debugLog (s : State) : (s.bump).debugLog = s.debugLog := rfl
@[simp] theorem State.bump_mem (s : State) : (s.bump).mem = s.mem := rfl
@[simp] theorem State.bump_side (s : State) : (s.bump).side = s.side := rfl
@[simp] theorem State.bump_hostMem (s : State) : (s.bump).hostMem = s.hostMem := rfl
@[simp] theorem State.bump_dies (s : State) : (s.bump).dies = s.dies := rfl
@[simp] theorem State.bump_cores (s : State) : (s.bump).cores = s.cores := rfl
@[simp] theorem State.bump_groups (s : State) : (s.bump).groups = s.groups := rfl
@[simp] theorem State.bump_past (s : State) : (s.bump).past = s.past := rfl
@[simp] theorem State.bump_teams (s : State) : (s.bump).teams = s.teams := rfl
@[simp] theorem State.bump_launches (s : State) : (s.bump).launches = s.launches := rfl
@[simp] theorem State.bump_vfs (s : State) : (s.bump).vfs = s.vfs := rfl
@[simp] theorem State.bump_wire (s : State) : (s.bump).wire = s.wire := rfl
@[simp] theorem State.bump_copies (s : State) : (s.bump).copies = s.copies := rfl
@[simp] theorem State.bump_dones (s : State) : (s.bump).dones = s.dones := rfl
@[simp] theorem State.bump_cvMsgs (s : State) : (s.bump).cvMsgs = s.cvMsgs := rfl
@[simp] theorem State.bump_txns (s : State) : (s.bump).txns = s.txns := rfl
@[simp] theorem State.bump_faults (s : State) : (s.bump).faults = s.faults := rfl
@[simp] theorem State.bump_shoots (s : State) : (s.bump).shoots = s.shoots := rfl
@[simp] theorem State.bump_colls (s : State) : (s.bump).colls = s.colls := rfl
@[simp] theorem State.bump_chunks (s : State) : (s.bump).chunks = s.chunks := rfl
@[simp] theorem State.bump_droIn (s : State) : (s.bump).droIn = s.droIn := rfl
@[simp] theorem State.bump_asyIn (s : State) : (s.bump).asyIn = s.asyIn := rfl
@[simp] theorem State.bump_peerIn (s : State) : (s.bump).peerIn = s.peerIn := rfl
@[simp] theorem State.bump_droOut (s : State) : (s.bump).droOut = s.droOut := rfl
@[simp] theorem State.bump_chunkOut (s : State) : (s.bump).chunkOut = s.chunkOut := rfl
@[simp] theorem State.bump_asyOut (s : State) : (s.bump).asyOut = s.asyOut := rfl
@[simp] theorem State.bump_chunkAnsOut (s : State) : (s.bump).chunkAnsOut = s.chunkAnsOut := rfl
@[simp] theorem State.bump_asyAnsOut (s : State) : (s.bump).asyAnsOut = s.asyAnsOut := rfl
@[simp] theorem State.bump_rateOut (s : State) : (s.bump).rateOut = s.rateOut := rfl
@[simp] theorem State.bump_peerRun (s : State) : (s.bump).peerRun = s.peerRun := rfl
@[simp] theorem State.bump_peerAcks (s : State) : (s.bump).peerAcks = s.peerAcks := rfl
@[simp] theorem State.bump_peerSent (s : State) : (s.bump).peerSent = s.peerSent := rfl
@[simp] theorem State.bump_peerOut (s : State) : (s.bump).peerOut = s.peerOut := rfl
@[simp] theorem State.bump_ansOut (s : State) : (s.bump).ansOut = s.ansOut := rfl
@[simp] theorem State.bump_notices (s : State) : (s.bump).notices = s.notices := rfl
@[simp] theorem State.bump_reports (s : State) : (s.bump).reports = s.reports := rfl
@[simp] theorem State.bump_hostReads (s : State) : (s.bump).hostReads = s.hostReads := rfl
@[simp] theorem State.bump_ports (s : State) : (s.bump).ports = s.ports := rfl
@[simp] theorem State.bump_unreach (s : State) : (s.bump).unreach = s.unreach := rfl
@[simp] theorem State.bump_power (s : State) : (s.bump).power = s.power := rfl
@[simp] theorem State.bump_lastSq (s : State) : (s.bump).lastSq = s.lastSq := rfl
@[simp] theorem State.bump_gens (s : State) : (s.bump).gens = s.gens := rfl
@[simp] theorem State.bump_rowCorr (s : State) : (s.bump).rowCorr = s.rowCorr := rfl
@[simp] theorem State.bump_rows (s : State) : (s.bump).rows = s.rows := rfl
@[simp] theorem State.bump_spared (s : State) : (s.bump).spared = s.spared := rfl

/-! ## `draw` -/

@[simp] theorem State.draw_now (s : State) (n : Nat) : (s.draw n).now = s.now := rfl
@[simp] theorem State.draw_agenda (s : State) (n : Nat) : (s.draw n).agenda = s.agenda := rfl
@[simp] theorem State.draw_cur (s : State) (n : Nat) : (s.draw n).cur = s.cur := rfl
@[simp] theorem State.draw_fresh (s : State) (n : Nat) : (s.draw n).fresh = s.fresh + n := rfl
@[simp] theorem State.draw_uid (s : State) (n : Nat) : (s.draw n).uid = s.uid := rfl
@[simp] theorem State.draw_boots (s : State) (n : Nat) : (s.draw n).boots = s.boots := rfl
@[simp] theorem State.draw_boot (s : State) (n : Nat) : (s.draw n).boot = s.boot := rfl
@[simp] theorem State.draw_image (s : State) (n : Nat) : (s.draw n).image = s.image := rfl
@[simp] theorem State.draw_floor (s : State) (n : Nat) : (s.draw n).floor = s.floor := rfl
@[simp] theorem State.draw_devId (s : State) (n : Nat) : (s.draw n).devId = s.devId := rfl
@[simp] theorem State.draw_hazard (s : State) (n : Nat) : (s.draw n).hazard = s.hazard := rfl
@[simp] theorem State.draw_debugger (s : State) (n : Nat) : (s.draw n).debugger = s.debugger := rfl
@[simp] theorem State.draw_debugLog (s : State) (n : Nat) : (s.draw n).debugLog = s.debugLog := rfl
@[simp] theorem State.draw_mem (s : State) (n : Nat) : (s.draw n).mem = s.mem := rfl
@[simp] theorem State.draw_side (s : State) (n : Nat) : (s.draw n).side = s.side := rfl
@[simp] theorem State.draw_hostMem (s : State) (n : Nat) : (s.draw n).hostMem = s.hostMem := rfl
@[simp] theorem State.draw_dies (s : State) (n : Nat) : (s.draw n).dies = s.dies := rfl
@[simp] theorem State.draw_cores (s : State) (n : Nat) : (s.draw n).cores = s.cores := rfl
@[simp] theorem State.draw_groups (s : State) (n : Nat) : (s.draw n).groups = s.groups := rfl
@[simp] theorem State.draw_past (s : State) (n : Nat) : (s.draw n).past = s.past := rfl
@[simp] theorem State.draw_teams (s : State) (n : Nat) : (s.draw n).teams = s.teams := rfl
@[simp] theorem State.draw_launches (s : State) (n : Nat) : (s.draw n).launches = s.launches := rfl
@[simp] theorem State.draw_vfs (s : State) (n : Nat) : (s.draw n).vfs = s.vfs := rfl
@[simp] theorem State.draw_wire (s : State) (n : Nat) : (s.draw n).wire = s.wire := rfl
@[simp] theorem State.draw_copies (s : State) (n : Nat) : (s.draw n).copies = s.copies := rfl
@[simp] theorem State.draw_dones (s : State) (n : Nat) : (s.draw n).dones = s.dones := rfl
@[simp] theorem State.draw_cvMsgs (s : State) (n : Nat) : (s.draw n).cvMsgs = s.cvMsgs := rfl
@[simp] theorem State.draw_txns (s : State) (n : Nat) : (s.draw n).txns = s.txns := rfl
@[simp] theorem State.draw_faults (s : State) (n : Nat) : (s.draw n).faults = s.faults := rfl
@[simp] theorem State.draw_shoots (s : State) (n : Nat) : (s.draw n).shoots = s.shoots := rfl
@[simp] theorem State.draw_colls (s : State) (n : Nat) : (s.draw n).colls = s.colls := rfl
@[simp] theorem State.draw_chunks (s : State) (n : Nat) : (s.draw n).chunks = s.chunks := rfl
@[simp] theorem State.draw_droIn (s : State) (n : Nat) : (s.draw n).droIn = s.droIn := rfl
@[simp] theorem State.draw_asyIn (s : State) (n : Nat) : (s.draw n).asyIn = s.asyIn := rfl
@[simp] theorem State.draw_peerIn (s : State) (n : Nat) : (s.draw n).peerIn = s.peerIn := rfl
@[simp] theorem State.draw_droOut (s : State) (n : Nat) : (s.draw n).droOut = s.droOut := rfl
@[simp] theorem State.draw_chunkOut (s : State) (n : Nat) : (s.draw n).chunkOut = s.chunkOut := rfl
@[simp] theorem State.draw_asyOut (s : State) (n : Nat) : (s.draw n).asyOut = s.asyOut := rfl
@[simp] theorem State.draw_chunkAnsOut (s : State) (n : Nat) : (s.draw n).chunkAnsOut = s.chunkAnsOut := rfl
@[simp] theorem State.draw_asyAnsOut (s : State) (n : Nat) : (s.draw n).asyAnsOut = s.asyAnsOut := rfl
@[simp] theorem State.draw_rateOut (s : State) (n : Nat) : (s.draw n).rateOut = s.rateOut := rfl
@[simp] theorem State.draw_peerRun (s : State) (n : Nat) : (s.draw n).peerRun = s.peerRun := rfl
@[simp] theorem State.draw_peerAcks (s : State) (n : Nat) : (s.draw n).peerAcks = s.peerAcks := rfl
@[simp] theorem State.draw_peerSent (s : State) (n : Nat) : (s.draw n).peerSent = s.peerSent := rfl
@[simp] theorem State.draw_peerOut (s : State) (n : Nat) : (s.draw n).peerOut = s.peerOut := rfl
@[simp] theorem State.draw_ansOut (s : State) (n : Nat) : (s.draw n).ansOut = s.ansOut := rfl
@[simp] theorem State.draw_notices (s : State) (n : Nat) : (s.draw n).notices = s.notices := rfl
@[simp] theorem State.draw_reports (s : State) (n : Nat) : (s.draw n).reports = s.reports := rfl
@[simp] theorem State.draw_hostReads (s : State) (n : Nat) : (s.draw n).hostReads = s.hostReads := rfl
@[simp] theorem State.draw_ports (s : State) (n : Nat) : (s.draw n).ports = s.ports := rfl
@[simp] theorem State.draw_unreach (s : State) (n : Nat) : (s.draw n).unreach = s.unreach := rfl
@[simp] theorem State.draw_power (s : State) (n : Nat) : (s.draw n).power = s.power := rfl
@[simp] theorem State.draw_lastSq (s : State) (n : Nat) : (s.draw n).lastSq = s.lastSq := rfl
@[simp] theorem State.draw_gens (s : State) (n : Nat) : (s.draw n).gens = s.gens := rfl
@[simp] theorem State.draw_rowCorr (s : State) (n : Nat) : (s.draw n).rowCorr = s.rowCorr := rfl
@[simp] theorem State.draw_rows (s : State) (n : Nat) : (s.draw n).rows = s.rows := rfl
@[simp] theorem State.draw_spared (s : State) (n : Nat) : (s.draw n).spared = s.spared := rfl

end Sys2Proof.Machine
end

