-- ==== Sys2Proof/Laws/Group.lean ====
section
/-! SUPPORT. The threads of a group under the updates of lanes, and the windows of R25 under writes. -/

namespace Sys2Proof.Machine

/-! ## Lanes of a mask -/

theorem lanesOf_nodup (m : Word) : (lanesOf m).Nodup := List.Nodup.filter _ List.nodup_range

@[simp] theorem mem_lanesOf (m : Word) (l : Nat) : l ∈ lanesOf m ↔ m.getLsbD l = true := by
  simp only [lanesOf, List.mem_filter, List.mem_range]
  constructor
  · exact And.right
  · intro h
    refine ⟨?_, h⟩
    by_contra hl
    rw [BitVec.getLsbD_of_ge m l (by omega)] at h
    cases h

theorem lanesOf_ne_nil {m : Word} (h : m ≠ 0) : lanesOf m ≠ [] := by
  intro he
  apply h
  apply BitVec.eq_of_getLsbD_eq
  intro i _
  have : ¬ (i ∈ lanesOf m) := by simp [he]
  simp only [mem_lanesOf] at this
  simpa using this

theorem getLsbD_zero_word (l : Nat) : (0 : Word).getLsbD l = false := by simp

@[simp] theorem lanesOf_zero : lanesOf 0 = [] := by
  simp [lanesOf]

/-! ## Changing lanes -/

theorem Group.lane_updLane (G : Group) (l k : Nat) (f : Thread → Thread) :
    (G.updLane l f).lane k = if k = l then f (G.lane l) else G.lane k := by
  simp [Group.updLane, Group.lane, SMap.get_put]

theorem Group.updLane_eq (G : Group) (l : Nat) (f : Thread → Thread) :
    G.updLane l f = { G with lanes := (G.updLane l f).lanes } := rfl

/-- A fold of lane updates, each of the lane that it names: what it leaves in a lane. -/
theorem Group.lane_updLanes (ls : List Nat) (hn : ls.Nodup) (G : Group) (f : Nat → Thread → Thread) (k : Nat) :
    (G.updLanes ls f).lane k = if k ∈ ls then f k (G.lane k) else G.lane k := by
  unfold Group.updLanes
  induction ls generalizing G with
  | nil => simp
  | cons l ls ih =>
    rw [List.foldl_cons, ih (List.nodup_cons.1 hn).2, Group.lane_updLane]
    have hl : l ∉ ls := (List.nodup_cons.1 hn).1
    by_cases h1 : k = l
    · subst h1; simp [hl]
    · simp [h1]

theorem Group.updLanes_eq (ls : List Nat) (G : Group) (f : Nat → Thread → Thread) :
    G.updLanes ls f = { G with lanes := (G.updLanes ls f).lanes } := by
  unfold Group.updLanes
  induction ls generalizing G with
  | nil => rfl
  | cons l ls ih => rw [List.foldl_cons, ih]; rfl

/-! ## Windows -/

theorem markWindows_bare (ws : List Window) (t : Bool) (m : Word) (l r : Nat) :
    (markWindows ws t m l r).map Window.bare = ws.map Window.bare := by
  simp only [markWindows, List.map_map]
  apply List.map_congr_left
  intro w _
  simp only [Function.comp]
  split <;> rfl

/-- Whether a written result may stand over a write does not look at the marks. -/
theorem windowKeeps_bare {ws ws' : List Window} (h : ws.map Window.bare = ws'.map Window.bare) (t : Bool) (m : Word)
    (l r n : Nat) : windowKeeps ws t m l r n = windowKeeps ws' t m l r n := by
  have key : ∀ us : List Window, windowKeeps us t m l r n =
      ((us.map Window.bare).any (fun w => w.dst.covers t r && overlaps w.mask m && w.written) && Config.pick n (l * 1024 + r)) := by
    intro us
    simp only [windowKeeps, List.any_map]
    rfl
  rw [key, key, h]

theorem Group.writeV_eq (G : Group) (n l r : Nat) (x : Word) :
    G.writeV n l r x = { G with
      lanes := (G.writeV n l r x).lanes
      wins := (G.writeV n l r x).wins } := by
  unfold Group.writeV
  split
  · rfl
  · rfl

theorem Group.writeV_bare (G : Group) (n l r : Nat) (x : Word) :
    (G.writeV n l r x).wins.map Window.bare = G.wins.map Window.bare := by
  unfold Group.writeV
  split
  · rfl
  · exact markWindows_bare _ _ _ _ _

/-- What a write of a thread register leaves in the lanes (R25). -/
theorem Group.lane_writeV (G : Group) (n l r : Nat) (x : Word) (k : Nat) :
    (G.writeV n l r x).lane k =
      if k = l ∧ windowKeeps G.wins true (laneBit l) l r n = false then
        { G.lane l with v := SMap.put (G.lane l).v r x } else G.lane k := by
  unfold Group.writeV
  by_cases h : windowKeeps G.wins true (laneBit l) l r n = true
  · simp [h]
  · simp only [Bool.not_eq_true] at h
    simp only [h, Bool.false_eq_true, ↓reduceIte, and_true]
    exact Group.lane_updLane G l k fun t => { t with v := SMap.put t.v r x }

theorem Group.writeS_eq (G : Group) (n : Nat) (m : Word) (r : Nat) (x : Word) :
    G.writeS n m r x = { G with
      s := (G.writeS n m r x).s
      wins := (G.writeS n m r x).wins } := by
  unfold Group.writeS
  split
  · rfl
  · rfl

theorem Group.writeS_bare (G : Group) (n : Nat) (m : Word) (r : Nat) (x : Word) :
    (G.writeS n m r x).wins.map Window.bare = G.wins.map Window.bare := by
  unfold Group.writeS
  split
  · rfl
  · exact markWindows_bare _ _ _ _ _

/-- What a write of a uniform register leaves in the uniform registers (R25). -/
theorem Group.s_writeS (G : Group) (n : Nat) (m : Word) (r : Nat) (x : Word) (k : Nat) :
    (G.writeS n m r x).s.get k 0 = if k = r ∧ windowKeeps G.wins false m 0 r n = false then x else G.s.get k 0 := by
  unfold Group.writeS
  by_cases h : windowKeeps G.wins false m 0 r n = true
  · simp [h]
  · simp only [Bool.not_eq_true] at h
    simp [h, SMap.get_put]

/-! ## Going on -/

theorem Group.moveTo_eq (G : Group) (m : Word) (f : Nat → Thread → Word) :
    G.moveTo m f = { G with
      lanes := (G.moveTo m f).lanes
      hnd := (G.moveTo m f).hnd } := by
  unfold Group.moveTo
  split
  · rfl
  · rw [Group.updLanes_eq]

theorem Group.hnd_moveTo (G : Group) (m : Word) (f : Nat → Thread → Word) :
    (G.moveTo m f).hnd = if m = 0 then
      G.hnd.map fun H => { H with
        pc := f 0 { Thread.init with pc := H.pc }
        hints := Hints.clear } else G.hnd := by
  unfold Group.moveTo
  split
  · rfl
  · rw [Group.updLanes_eq]

theorem Group.lane_moveTo (G : Group) (m : Word) (f : Nat → Thread → Word) (k : Nat)
    (h : ∀ l, m.getLsbD l = true → (G.lane l).st = .ready) :
    (G.moveTo m f).lane k = if m.getLsbD k then (G.lane k).at_ (f k (G.lane k)) else G.lane k := by
  unfold Group.moveTo
  split
  · rename_i h0; subst h0; simp [Group.lane]
  · rw [Group.lane_updLanes _ (lanesOf_nodup m)]
    simp only [mem_lanesOf]
    split
    · rename_i hk; simp [h k hk, Thread.at_]
    · rfl

end Sys2Proof.Machine
end

