-- ==== Sys2Proof/Laws/Issue.lean ====
section
/-! SUPPORT. The issue of an instruction, and the operations by which most instructions leave their results: one lemma each, which says
all that the operation does. -/

namespace Sys2Proof.Machine

/-! ## The issuing path -/

/-- What is known of a path that can issue. -/
theorem State.context_spec {s : State} {c : Ctx} (h : s.context? = some c) :
    s.group? c.g = some c.G ∧ c.n = s.fresh ∧ s.cur = .path c.g c.h c.pc c.mask ∧
    c.G.pathLive c.h c.pc c.mask = true ∧ c.hints = c.G.pathHints c.mask ∧ c.first = c.hints.first c.pc := by
  unfold State.context? at h
  split at h
  · rename_i g hh pc mask hcur
    cases hg : s.group? g with
    | none => simp [hg] at h
    | some G =>
      simp only [hg] at h
      split at h
      · rename_i hl
        cases h
        exact ⟨hg, rfl, hcur, hl, rfl, rfl⟩
      · cases h
  · cases h

theorem Group.ready_of_live {G : Group} {h : Bool} {pc m : Word} (hl : G.pathLive h pc m = true) (l : Nat)
    (hm : m.getLsbD l = true) : (G.lane l).st = .ready ∧ (G.lane l).hnd = h ∧ (G.lane l).pc = pc := by
  have h0 : m ≠ 0 := by
    intro h0; subst h0; simp at hm
  simp only [Group.pathLive, if_neg h0, Bool.and_eq_true, List.all_eq_true, mem_lanesOf, Thread.on, beq_iff_eq] at hl
  have := hl.2 l hm
  exact ⟨this.1.1, this.1.2, this.2⟩

theorem overlaps_sub (a m : Word) : overlaps (a &&& ~~~m) m = true → a &&& ~~~m = 0 := by
  intro h
  by_contra h0
  simp only [overlaps, Bool.or_eq_true, bne_iff_ne, ne_eq, Bool.and_eq_true, beq_iff_eq] at h
  rcases h with h | h
  · apply h
    apply BitVec.eq_of_getLsbD_eq
    intro i hi
    simp only [BitVec.getLsbD_and, BitVec.getLsbD_not]
    cases m.getLsbD i <;> simp
  · exact h0 h.1

/-- Closing the windows of a path twice is closing them once (R25). -/
theorem Group.closeWindows_idem (G : Group) (m : Word) : (G.closeWindows m).closeWindows m = G.closeWindows m := by
  have key : ∀ ws : List Window, List.filterMap (fun w : Window =>
        if overlaps w.mask m then (if w.mask &&& ~~~m = 0 then none else some { w with mask := w.mask &&& ~~~m }) else some w)
        (List.filterMap (fun w : Window =>
        if overlaps w.mask m then (if w.mask &&& ~~~m = 0 then none else some { w with mask := w.mask &&& ~~~m }) else some w) ws) =
      List.filterMap (fun w : Window =>
        if overlaps w.mask m then (if w.mask &&& ~~~m = 0 then none else some { w with mask := w.mask &&& ~~~m }) else some w) ws := by
    intro ws
    rw [List.filterMap_filterMap]
    apply List.filterMap_congr
    intro w _
    by_cases h1 : overlaps w.mask m = true
    · by_cases h2 : w.mask &&& ~~~m = 0
      · rw [if_pos h1, if_pos h2]; rfl
      · have h3 : overlaps (w.mask &&& ~~~m) m = false := by
          by_contra h3
          exact h2 (overlaps_sub _ _ (by simpa using h3))
        rw [if_pos h1, if_neg h2]
        simp [h3]
    · simp [h1]
  simp only [Group.closeWindows]
  rw [key]

theorem State.group?_updGroup_self (s : State) (g : Nat) (f : Group → Group) :
    (s.updGroup g f).group? g = (s.group? g).map f := SMap.find?_upd_self _ _ _

theorem State.updGroup_updGroup (s : State) (g : Nat) (f k : Group → Group) :
    (s.updGroup g f).updGroup g k = s.updGroup g fun G => k (f G) := by
  simp [State.updGroup, SMap.upd_upd]

theorem State.updGroup_some {s : State} {g : Nat} {G : Group} (h : s.group? g = some G) (f : Group → Group) :
    s.updGroup g f = { s with groups := SMap.put s.groups g (f G) } := by
  unfold State.updGroup
  rw [SMap.upd_some _ _ _ _ h]

/-- What an instruction that issues finds: its path, with every lane Ready at its address. -/
structure Found (s : State) (c : Ctx) (t : State) : Prop where
  group : t.group? c.g = some c.G
  fresh : t.fresh = s.fresh
  place : c.n = t.fresh
  alive : c.G.ended = false
  ready : ∀ l, c.has l = true → (c.G.lane l).st = .ready ∧ (c.G.lane l).hnd = c.h ∧ (c.G.lane l).pc = c.pc

theorem Found.of_context {s : State} {c : Ctx} (h : s.context? = some c) : Found s c s := by
  obtain ⟨h1, h2, _, h4, _⟩ := State.context_spec h
  exact ⟨h1, rfl, h2, by simp only [Group.pathLive, Bool.and_eq_true, Bool.not_eq_true'] at h4; exact h4.1, fun l hl => Group.ready_of_live h4 l hl⟩

theorem Found.waited {s : State} {c : Ctx} {t : State} (h : Found s c t) : Found s c.waited (t.waited c) := by
  refine ⟨?_, h.fresh, h.place, h.alive, h.ready⟩
  simp only [State.waited, Ctx.waited]
  rw [State.group?_updGroup_self, h.group]; rfl

/-- Waiting does not change the recorded hints. -/
theorem Ctx.ready_hints (c : Ctx) (i : Info) : (c.ready i).hints = c.hints := by
  unfold Ctx.ready
  cases i.w <;> cases i.blocking <;> rfl

/-- An instruction that issues finds its path there. -/
theorem Issues.found {i : Info} {s t : State} {c : Ctx} (h : Issues i s c t) : Found s c t := by
  obtain ⟨c0, h1, _, _, _, _, rfl, rfl⟩ := h
  have hf := Found.of_context h1
  unfold Ctx.ready State.ready
  cases i.w <;> cases i.blocking
  · exact hf
  · exact hf.waited
  · exact hf.waited
  · exact hf.waited.waited

/-- An instruction that issues takes its effect: `issue` is the effect on the path and the state that `Issues` names. -/
theorem Issues.issue {i : Info} {s t : State} {c : Ctx} (h : Issues i s c t) (k : Ctx → State → State) :
    issue i k s = .next (k c t) := by
  obtain ⟨c0, h1, hal, h2, h3, h4, rfl, rfl⟩ := h
  obtain ⟨_, _, hcur, _⟩ := State.context_spec h1
  unfold Machine.issue issueBy
  rw [hcur]
  simp only [h1]
  congr 1
  unfold issueAt
  rw [if_pos hal]
  unfold issueOne issueChecked Ctx.ready State.ready
  cases hw : i.w with
  | false =>
    simp only [hw, Bool.false_eq_true, ↓reduceIte] at h3 ⊢
    simp only [h3]
    cases hb : i.blocking with
    | false =>
      cases hv : i.var with
      | false => simp
      | true => simp [h4 hv]
    | true =>
      have := h2 (.inr hb)
      cases hv : i.var with
      | false => simp [this.1, this.2]
      | true => simp [this.1, this.2, h4 hv]
  | true =>
    have hx := h2 (.inl hw)
    simp only [hw, ↓reduceIte] at h3 ⊢
    simp only [hx.1, hx.2, Bool.false_eq_true, ↓reduceIte, h3]
    have ha : c0.waited.G.waits c0.waited.mask = false := hx.1
    have hb : c0.waited.G.late c0.waited.mask = false := hx.2
    cases hb' : i.blocking with
    | false =>
      cases hv : i.var with
      | false => simp
      | true =>
        have : c0.waited.G.full c0.waited.mask = false := h4 hv
        simp [this]
    | true =>
      cases hv : i.var with
      | false => simp [ha, hb]
      | true =>
        have : c0.waited.G.full c0.waited.mask = false := h4 hv
        simp [ha, hb, this]

/-! ## Going on -/

theorem Ctx.handlerAt_eq (c : Ctx) (f : Nat → Thread → Word) :
    c.handlerAt (fun pc => f 0 { Thread.init with pc := pc }) =
    (if c.mask = 0 then c.G.hnd.map fun H => { H with
        pc := f 0 { Thread.init with pc := H.pc }
        hints := Hints.clear } else c.G.hnd) := rfl

/-- A change of the issuing group that leaves its lanes Ready, and the step to addresses of their own: one group has changed. -/
theorem State.changeGo {s t : State} {c : Ctx} (h : Found s c t) (k : Group → Group) (f : Nat → Thread → Word) :
    ((t.updGroup c.g fun G => (k G).moveTo c.mask f).draw 1) =
      { t with
        groups := SMap.put t.groups c.g ((k c.G).moveTo c.mask f)
        fresh := t.fresh + 1 } := by
  rw [State.updGroup_some h.group]
  rfl

theorem State.goto_spec {s t : State} {c : Ctx} (h : Found s c t) (f : Nat → Thread → Word) :
    GoesTo c t f (.next (t.goto c f)) := by
  refine ⟨_, c.G.moveTo c.mask f, rfl, ?_, ?_, ?_⟩
  · exact State.changeGo h id f
  · rw [Group.moveTo_eq, Group.hnd_moveTo]; rfl
  · intro l
    exact Group.lane_moveTo c.G c.mask f l fun l hl => (h.ready l hl).1

theorem State.retire_upd {s t : State} {c : Ctx} (h : Found s c t) (k : Group → Group) :
    (t.updGroup c.g k).retire c = { t with
      groups := SMap.put t.groups c.g ((k c.G).moveTo c.mask fun _ t => t.pc + 4)
      fresh := t.fresh + 1 } := by
  unfold State.retire
  rw [State.updGroup_updGroup]
  exact State.changeGo h k _

/-- The change of a group by a function that keeps lanes and handler, and going on. -/
theorem State.change_spec {s t : State} {c : Ctx} (h : Found s c t) (k : Group → Group)
    (hl : (k c.G).lanes = c.G.lanes) (hh : (k c.G).hnd = c.G.hnd) :
    Changes c t (k c.G) (.next ((t.updGroup c.g k).retire c)) := by
  have hlane : ∀ l, (k c.G).lane l = c.G.lane l := by intro l; simp [Group.lane, hl]
  refine ⟨_, (k c.G).moveTo c.mask fun _ t => t.pc + 4, rfl, State.retire_upd h k, ?_, ?_⟩
  · rw [Group.moveTo_eq, Group.hnd_moveTo, hh]; rfl
  · intro l
    rw [Group.lane_moveTo _ _ _ _ (fun l hl' => by rw [hlane]; exact (h.ready l hl').1), hlane]
    rfl

theorem State.retire_spec {s t : State} {c : Ctx} (h : Found s c t) : Changes c t c.G (.next (t.retire c)) := by
  have := State.change_spec h id rfl rfl
  have e : t.updGroup c.g id = t := by
    rw [State.updGroup_some h.group]
    show { t with groups := SMap.put t.groups c.g c.G } = t
    rw [SMap.put_find _ _ _ h.group]
  rw [e] at this
  exact this

/-- A change of the path's lanes, each by itself, and the step to addresses of their own. -/
theorem State.moveLanes {s t : State} {c : Ctx} (h : Found s c t) (g : Nat → Thread → Thread) (hg : ∀ l x, (g l x).st = x.st)
    (f : Nat → Thread → Word) :
    ∃ u G, ((t.updGroup c.g fun G => (G.updLanes (lanesOf c.mask) g).moveTo c.mask f).draw 1) = u ∧ OneGroup c t u G ∧
      G = { c.G with
        lanes := G.lanes
        hnd := if c.mask = 0 then c.G.hnd.map fun H => { H with
          pc := f 0 { Thread.init with pc := H.pc }
          hints := Hints.clear } else c.G.hnd } ∧
      Lanes c G fun l x => (g l x).at_ (f l (g l x)) := by
  have hl : ∀ k, (c.G.updLanes (lanesOf c.mask) g).lane k = if c.has k then g k (c.G.lane k) else c.G.lane k := by
    intro k
    rw [Group.lane_updLanes _ (lanesOf_nodup _)]
    simp only [mem_lanesOf]; rfl
  refine ⟨_, (c.G.updLanes (lanesOf c.mask) g).moveTo c.mask f, rfl, State.changeGo h _ f, ?_, ?_⟩
  · rw [Group.moveTo_eq, Group.hnd_moveTo, Group.updLanes_eq]
  · intro l
    have e := Group.lane_moveTo (c.G.updLanes (lanesOf c.mask) g) c.mask f l fun l hl' => by
      rw [hl l]
      have : c.has l = true := hl'
      rw [if_pos this, hg]; exact (h.ready l hl').1
    rw [e, hl l]
    by_cases hc : c.has l = true
    · have hc' : c.mask.getLsbD l = true := hc
      simp only [hc, hc', if_true]
    · have hc' : c.mask.getLsbD l = false := by simpa [Ctx.has] using hc
      simp only [hc, hc', if_false, Bool.false_eq_true]

theorem State.lanewise_spec {s t : State} {c : Ctx} (h : Found s c t) (g : Nat → Thread → Thread)
    (hs : ∀ l x, (g l x).st = x.st) (hp : ∀ l x, (g l x).pc = x.pc) :
    Lanewise c t (fun l x => (g l x).at_ (x.pc + 4))
      (.next ((t.updGroup c.g fun G => G.updLanes (lanesOf c.mask) g).retire c)) := by
  obtain ⟨u, G, e, h1, h2, h3⟩ := State.moveLanes h g hs fun _ x => x.pc + 4
  refine ⟨u, G, ?_, h1, h2, ?_⟩
  · rw [← e]; unfold State.retire; rw [State.updGroup_updGroup]
  · intro l; rw [h3 l]; simp only [hp]

/-- The loop buffers of a core are no part of what an instruction that issues finds (R512). -/
theorem Found.noteLoop {s t : State} {c : Ctx} (h : Found s c t) (b : Bool) (x : Word) :
    Found s c (if b = true then t.noteLoop c x else t) := by
  have h2 : Found s c (t.noteLoop c x) := by
    unfold State.noteLoop
    dsimp only
    split
    · exact ⟨h.group, h.fresh, h.place, h.alive, h.ready⟩
    · exact h
  cases b
  · exact h
  · exact h2

theorem State.noteLoop_updGroup (t : State) (c : Ctx) (x : Word) (g : Nat) (f : Group → Group) :
    (t.updGroup g f).noteLoop c x = (t.noteLoop c x).updGroup g f := by
  unfold State.noteLoop
  dsimp only
  split
  · rfl
  · rfl

/-- The same where what it asks depends on the recorded hints. -/
theorem Issues.issueBy {f : Ctx → Info} {s t : State} {c : Ctx} (h : Issues (f c) s c t) (hf : ∀ d : Ctx, d.hints = c.hints → f d = f c)
    (k : Ctx → State → State) : issueBy f k s = .next (k c t) := by
  have h0 := h.issue k
  obtain ⟨c0, h1, hal, _, _, _, hc, _⟩ := h
  have e : f c0 = f c := hf c0 (by rw [hc, Ctx.ready_hints])
  unfold Machine.issue at h0
  rw [← h0]
  obtain ⟨_, _, hcur, _⟩ := State.context_spec h1
  unfold Machine.issueBy
  rw [hcur]
  simp only [h1]
  unfold issueAt
  rw [if_pos hal, if_pos hal, e]

/-! ## Hint words (R28) -/

theorem IssuesWord.found {w : Bool} {s t : State} {c : Ctx} (h : IssuesWord w s c t) : Found s c t := by
  obtain ⟨c0, h1, _, rfl, rfl⟩ := h
  cases w
  · exact Found.of_context h1
  · exact (Found.of_context h1).waited

theorem IssuesWord.issueHint {w : Bool} {s t : State} {c : Ctx} (h : IssuesWord w s c t) (k : Ctx → State → State) :
    issueHint w k s = .next (k c t) := by
  obtain ⟨c0, h1, h2, rfl, rfl⟩ := h
  obtain ⟨_, _, hcur, _⟩ := State.context_spec h1
  unfold Machine.issueHint
  rw [hcur]
  simp only [h1]
  cases w with
  | false => rfl
  | true => simp [h2 rfl]

theorem State.hintPast_spec {s t : State} {c : Ctx} (h : Found s c t) (f : Hints → Hints) :
    Hinted c t f (.next (t.hintPast c f)) := by
  unfold State.hintPast
  rw [State.updGroup_some h.group]
  refine ⟨_, _, rfl, rfl, ?_, ?_⟩
  · by_cases hm : c.mask = 0
    · simp [hm]
    · simp only [if_neg hm]; rw [Group.updLanes_eq]
  · intro l
    by_cases hm : c.mask = 0
    · simp [hm, Ctx.has, Group.lane]
    · simp only [if_neg hm]
      rw [Group.lane_updLanes _ (lanesOf_nodup _)]
      simp only [mem_lanesOf]; rfl

/-- A hint that the form does not take is not there (R29, R74): where no modifier bit is legal, no field of one is set. -/
theorem Issues.noClr {i : Info} {s t : State} {c : Ctx} (h : Issues i s c t) (hm : i.mods = 0) : c.hints.clr = false := by
  obtain ⟨c0, _, _, _, h3, _, rfl, _⟩ := h
  rw [Ctx.ready_hints]
  have hb : i.hintBad c0.hints = false := by
    by_contra hb
    simp only [Bool.not_eq_false] at hb
    have : ∀ (x : Ctx) (y : State), x.hints = c0.hints → i.check x y ≠ none := by
      intro x y hx
      unfold Info.check
      rw [hx]
      repeat' split
      all_goals simp_all
    exact this _ _ (by split <;> rfl) h3
  unfold Hints.clr Hints.field
  unfold Info.hintBad at hb
  cases hmd : c0.hints.modh with
  | none => simp
  | some x =>
    obtain ⟨a, p⟩ := x
    simp only [hmd, hm, Nat.sub_zero, Bool.or_eq_false_iff] at hb
    have hz := hb.2.1.2
    simp only [bne_eq_false_iff_eq] at hz
    have hz' : p.toNat &&& (2 ^ 24 - 1) = 0 := hz
    rw [Nat.and_two_pow_sub_one_eq_mod, Nat.mod_eq_of_lt p.isLt] at hz'
    simp [hz']

/-! ## Thread registers -/

/-- The writes of a list of lanes (R32). -/
theorem foldV_spec (n d : Nat) (f : Nat → Word × Word) (ls : List Nat) (hn : ls.Nodup) (G : Group) :
    let R := ls.foldl (fun G l => (G.writeV n l d (f l).1).updLane l (·.flag (f l).2)) G
    R = { G with
      lanes := R.lanes
      wins := R.wins } ∧
    R.wins.map Window.bare = G.wins.map Window.bare ∧
    ∀ k, R.lane k = if k ∈ ls then
      { G.lane k with
        v := if windowKeeps G.wins true (laneBit k) k d n then (G.lane k).v else SMap.put (G.lane k).v d (f k).1
        tsr := (G.lane k).tsr ||| (f k).2 } else G.lane k := by
  induction ls generalizing G with
  | nil => exact ⟨rfl, rfl, fun k => by simp⟩
  | cons l ls ih =>
    obtain ⟨h1, h2, h3⟩ := ih (List.nodup_cons.1 hn).2 ((G.writeV n l d (f l).1).updLane l (·.flag (f l).2))
    have hl : l ∉ ls := (List.nodup_cons.1 hn).1
    simp only [List.foldl_cons]
    have hb : ((G.writeV n l d (f l).1).updLane l (·.flag (f l).2)).wins.map Window.bare = G.wins.map Window.bare :=
      Group.writeV_bare G n l d (f l).1
    refine ⟨?_, ?_, ?_⟩
    · rw [h1, Group.updLane_eq, Group.writeV_eq]
    · rw [h2, hb]
    · intro k
      rw [h3 k]
      have hwk := windowKeeps_bare hb true (laneBit k) k d n
      rw [Group.lane_updLane]
      simp only [Group.lane_writeV, hwk, true_and]
      by_cases hk : k = l
      · subst hk
        simp only [hl, ↓reduceIte, List.mem_cons, true_or]
        cases hw : windowKeeps G.wins true (laneBit k) k d n with
        | true => simp [Thread.flag]
        | false => simp [Thread.flag]
      · simp [hk]

theorem State.putV_spec {s t : State} {c : Ctx} (h : Found s c t) (d : Nat) (f : Nat → Word × Word) :
    WritesV c t d f (.next (t.putV c d f)) := by
  obtain ⟨h1, h2, h3⟩ := foldV_spec c.n d f (lanesOf c.mask) (lanesOf_nodup _) c.G
  set R := (lanesOf c.mask).foldl (fun G l => (G.writeV c.n l d (f l).1).updLane l (·.flag (f l).2)) c.G with hR
  have hlane : ∀ k, R.lane k = if c.has k then
      { c.G.lane k with
        v := if windowKeeps c.G.wins true (laneBit k) k d c.n then (c.G.lane k).v else SMap.put (c.G.lane k).v d (f k).1
        tsr := (c.G.lane k).tsr ||| (f k).2 } else c.G.lane k := by
    intro k; rw [h3 k]; simp only [mem_lanesOf]; rfl
  have hst : ∀ l, c.mask.getLsbD l = true → (R.lane l).st = .ready := by
    intro l hl
    have := (h.ready l hl).1
    rw [hlane l]; simp [Ctx.has, hl, this]
  have hmove := fun k => Group.lane_moveTo R c.mask (fun _ t => t.pc + 4) k hst
  refine ⟨_, R.moveTo c.mask fun _ t => t.pc + 4, rfl, ?_, ?_, ?_, ?_, ?_⟩
  · exact State.retire_upd h _
  · rw [Group.moveTo_eq, Group.hnd_moveTo, h1]; rfl
  · rw [Group.moveTo_eq]; exact h2
  · intro l
    have e := hmove l
    rw [hlane l] at e
    by_cases hl : c.mask.getLsbD l = true
    · simp only [Ctx.has, hl, ↓reduceIte] at e ⊢
      rw [e]; rfl
    · simp only [Ctx.has, hl, Bool.false_eq_true, ↓reduceIte] at e ⊢
      exact e
  · intro l hl k
    have hl' : c.mask.getLsbD l = true := hl
    rw [hmove l, hlane l]
    simp only [hl, hl', ↓reduceIte, Thread.at_, Ctx.keepsV]
    by_cases hw : windowKeeps c.G.wins true (laneBit l) l d c.n = true
    · simp [hw]
    · simp only [Bool.not_eq_true] at hw
      simp [hw, SMap.get_put]

/-- The writes of pairs (R77). -/
theorem foldV2_spec (n d : Nat) (f : Nat → DWord) (ls : List Nat) (hn : ls.Nodup) (G : Group) :
    let R := ls.foldl (fun G l => (G.writeV n l d ((f l).setWidth 32)).writeV n l (d + 1) ((f l).extractLsb' 32 32)) G
    R = { G with
      lanes := R.lanes
      wins := R.wins } ∧
    R.wins.map Window.bare = G.wins.map Window.bare ∧
    ∀ k, R.lane k = { G.lane k with v := (R.lane k).v } ∧ (k ∉ ls → R.lane k = G.lane k) ∧
      ∀ r, (R.lane k).v.get r 0 =
        if k ∈ ls ∧ r = d ∧ windowKeeps G.wins true (laneBit k) k d n = false then (f k).setWidth 32
        else if k ∈ ls ∧ r = d + 1 ∧ windowKeeps G.wins true (laneBit k) k (d + 1) n = false then (f k).extractLsb' 32 32
        else (G.lane k).v.get r 0 := by
  induction ls generalizing G with
  | nil => exact ⟨rfl, rfl, fun k => ⟨rfl, fun _ => rfl, fun r => by simp⟩⟩
  | cons l ls ih =>
    set G1 := (G.writeV n l d ((f l).setWidth 32)).writeV n l (d + 1) ((f l).extractLsb' 32 32) with hG1
    obtain ⟨h1, h2, h3⟩ := ih (List.nodup_cons.1 hn).2 G1
    have hl : l ∉ ls := (List.nodup_cons.1 hn).1
    have hb0 := Group.writeV_bare G n l d ((f l).setWidth 32)
    have hb : G1.wins.map Window.bare = G.wins.map Window.bare := by
      rw [hG1, Group.writeV_bare, hb0]
    have hlane : ∀ k, G1.lane k = { G.lane k with v := (G1.lane k).v } ∧ (k ≠ l → G1.lane k = G.lane k) ∧
        ∀ r, (G1.lane k).v.get r 0 =
          if k = l ∧ r = d ∧ windowKeeps G.wins true (laneBit k) k d n = false then (f k).setWidth 32
          else if k = l ∧ r = d + 1 ∧ windowKeeps G.wins true (laneBit k) k (d + 1) n = false then (f k).extractLsb' 32 32
          else (G.lane k).v.get r 0 := by
      intro k
      rw [hG1]
      simp only [Group.lane_writeV, windowKeeps_bare hb0]
      by_cases hk : k = l
      · subst hk
        cases windowKeeps G.wins true (laneBit k) k d n <;> cases windowKeeps G.wins true (laneBit k) k (d + 1) n <;>
          simp [SMap.get_put]
        intro r
        by_cases h5 : r = d
        · subst h5; simp
        · simp [h5]
      · simp [hk]
    simp only [List.foldl_cons, ← hG1]
    refine ⟨?_, ?_, ?_⟩
    · rw [h1, hG1, Group.writeV_eq, Group.writeV_eq]
    · rw [h2, hb]
    · intro k
      obtain ⟨a1, a0, a2⟩ := h3 k
      obtain ⟨b1, b0, b2⟩ := hlane k
      refine ⟨?_, ?_, ?_⟩
      · rw [a1, b1]
      · intro hk
        simp only [List.mem_cons, not_or] at hk
        rw [a0 hk.2, b0 hk.1]
      · intro r
        rw [a2 r, b2 r]
        simp only [windowKeeps_bare hb, List.mem_cons]
        by_cases hk : k = l
        · subst hk; simp [hl]
        · simp [hk]

theorem State.putV2_spec {s t : State} {c : Ctx} (h : Found s c t) (d : Nat) (f : Nat → DWord) :
    WritesV2 c t d f (.next (t.putV2 c d f)) := by
  obtain ⟨h1, h2, h3⟩ := foldV2_spec c.n d f (lanesOf c.mask) (lanesOf_nodup _) c.G
  set R := (lanesOf c.mask).foldl
    (fun G l => (G.writeV c.n l d ((f l).setWidth 32)).writeV c.n l (d + 1) ((f l).extractLsb' 32 32)) c.G with hR
  have hst : ∀ l, c.mask.getLsbD l = true → (R.lane l).st = .ready := by
    intro l hl
    rw [(h3 l).1]; exact (h.ready l hl).1
  have hmove := fun k => Group.lane_moveTo R c.mask (fun _ t => t.pc + 4) k hst
  refine ⟨_, R.moveTo c.mask fun _ t => t.pc + 4, rfl, ?_, ?_, ?_, ?_, ?_⟩
  · exact State.retire_upd h _
  · rw [Group.moveTo_eq, Group.hnd_moveTo, h1]; rfl
  · rw [Group.moveTo_eq]; exact h2
  · intro l
    have e := hmove l
    by_cases hl : c.mask.getLsbD l = true
    · simp only [Ctx.has, hl, ↓reduceIte] at e ⊢
      rw [e, (h3 l).1]; rfl
    · simp only [Ctx.has, hl, Bool.false_eq_true, ↓reduceIte] at e ⊢
      rw [e, (h3 l).2.1 (by simpa using hl)]
  · intro l hl k
    have hl' : c.mask.getLsbD l = true := hl
    rw [hmove l]
    simp only [hl', ↓reduceIte, Thread.at_, Ctx.keepsV]
    rw [(h3 l).2.2 k]
    simp only [mem_lanesOf, hl', true_and]
    rfl

/-! ## Uniform registers and predicates -/

/-- The writes of successive uniform registers. -/
theorem foldS_spec (n : Nat) (m : Word) (r : Nat) (xs : List Word) (k0 : Nat) (G : Group) :
    let R := (xs.zipIdx k0).foldl (fun (G : Group) (x : Word × Nat) => G.writeS n m (r + x.2) x.1) G
    R = { G with
      s := R.s
      wins := R.wins } ∧
    R.wins.map Window.bare = G.wins.map Window.bare ∧
    ∀ k, R.s.get k 0 =
      if r + k0 ≤ k ∧ k < r + k0 + xs.length ∧ windowKeeps G.wins false m 0 k n = false then xs.getD (k - (r + k0)) 0
      else G.s.get k 0 := by
  induction xs generalizing k0 G with
  | nil => exact ⟨rfl, rfl, fun k => by simp; omega⟩
  | cons x xs ih =>
    obtain ⟨h1, h2, h3⟩ := ih (k0 + 1) (G.writeS n m (r + k0) x)
    have hb := Group.writeS_bare G n m (r + k0) x
    simp only [List.zipIdx_cons, List.foldl_cons]
    refine ⟨?_, ?_, ?_⟩
    · rw [h1, Group.writeS_eq]
    · rw [h2, hb]
    · intro k
      rw [h3 k, Group.s_writeS]
      simp only [windowKeeps_bare hb, List.length_cons]
      cases hw : windowKeeps G.wins false m 0 k n with
      | true =>
        simp only [Bool.true_eq_false, and_false, ↓reduceIte]
        by_cases hk : k = r + k0
        · subst hk; simp [hw]
        · simp [hk]
      | false =>
        simp only [and_true]
        by_cases hk : k = r + k0
        · subst hk
          have : ¬(r + (k0 + 1) ≤ r + k0 ∧ r + k0 < r + (k0 + 1) + xs.length) := by omega
          rw [if_neg this, if_pos ⟨rfl, hw⟩, if_pos (by omega)]
          simp
        · have e : (k = r + k0 ∧ windowKeeps G.wins false m 0 (r + k0) n = false) ↔ False := by simp [hk]
          simp only [e, ↓reduceIte]
          by_cases hin : r + (k0 + 1) ≤ k ∧ k < r + (k0 + 1) + xs.length
          · rw [if_pos hin, if_pos (by omega)]
            have : k - (r + k0) = (k - (r + (k0 + 1))) + 1 := by omega
            rw [this, List.getD_cons_succ]
          · rw [if_neg hin, if_neg (by omega)]

theorem State.putS_spec {s t : State} {c : Ctx} (h : Found s c t) (d : Nat) (xs : List Word) :
    WritesS c t d xs (.next (t.putS c d xs)) := by
  obtain ⟨h1, h2, h3⟩ := foldS_spec c.n c.mask d xs 0 c.G
  have hR : c.G.writeSs c.n c.mask d xs =
      (xs.zipIdx 0).foldl (fun (G : Group) (x : Word × Nat) => G.writeS c.n c.mask (d + x.2) x.1) c.G := rfl
  rw [← hR] at h1 h2 h3
  set R := c.G.writeSs c.n c.mask d xs
  have hlane : ∀ k, R.lane k = c.G.lane k := by intro k; rw [h1]; rfl
  have hmove := fun k => Group.lane_moveTo R c.mask (fun _ t => t.pc + 4) k
    (fun l hl => by rw [hlane l]; exact (h.ready l hl).1)
  refine ⟨_, R.moveTo c.mask fun _ t => t.pc + 4, rfl, ?_, ?_, ?_, ?_, ?_⟩
  · exact State.retire_upd h _
  · rw [Group.moveTo_eq, Group.hnd_moveTo, h1]; rfl
  · rw [Group.moveTo_eq]; exact h2
  · intro l; rw [hmove l, hlane l]; rfl
  · intro k
    rw [Group.moveTo_eq]
    have := h3 k
    simp only [Nat.add_zero] at this
    exact this

theorem State.putP_spec {s t : State} {c : Ctx} (h : Found s c t) (p : Nat) (f : Nat → Bool × Word) :
    WritesP c t p f (.next (t.putP c p f)) := by
  set R := c.G.updLanes (lanesOf c.mask) fun l t => { t with
    p := setBit8 t.p p (f l).1
    tsr := t.tsr ||| (f l).2 } with hR
  have hlane : ∀ k, R.lane k = if c.has k then { c.G.lane k with
      p := setBit8 (c.G.lane k).p p (f k).1
      tsr := (c.G.lane k).tsr ||| (f k).2 } else c.G.lane k := by
    intro k; rw [hR, Group.lane_updLanes _ (lanesOf_nodup _)]; simp only [mem_lanesOf]; rfl
  have hmove := fun k => Group.lane_moveTo R c.mask (fun _ t => t.pc + 4) k
    (fun l hl => by rw [hlane l]; simp [Ctx.has, hl, (h.ready l hl).1])
  refine ⟨_, R.moveTo c.mask fun _ t => t.pc + 4, rfl, ?_, ?_, ?_⟩
  · exact State.retire_upd h _
  · rw [Group.moveTo_eq, Group.hnd_moveTo, hR, Group.updLanes_eq]; rfl
  · intro l
    have e := hmove l
    rw [hlane l] at e
    by_cases hl : c.mask.getLsbD l = true
    · simp only [Ctx.has, hl, ↓reduceIte] at e ⊢
      rw [e]; rfl
    · simp only [Ctx.has, hl, Bool.false_eq_true, ↓reduceIte] at e ⊢
      exact e

theorem State.putQ_spec {s t : State} {c : Ctx} (h : Found s c t) (q : Nat) (x : Bool) (fl : Word) :
    WritesQ c t q x fl (.next (t.putQ c q x fl)) := by
  set R : Group := { c.G.flagAll c.mask fl with q := setBit8 c.G.q q x } with hR
  have hlane : ∀ k, R.lane k = if c.has k then { c.G.lane k with tsr := (c.G.lane k).tsr ||| fl } else c.G.lane k := by
    intro k
    have : R.lane k = (c.G.flagAll c.mask fl).lane k := rfl
    rw [this, Group.flagAll, Group.lane_updLanes _ (lanesOf_nodup _)]; simp only [mem_lanesOf]; rfl
  have hmove := fun k => Group.lane_moveTo R c.mask (fun _ t => t.pc + 4) k
    (fun l hl => by rw [hlane l]; simp [Ctx.has, hl, (h.ready l hl).1])
  refine ⟨_, R.moveTo c.mask fun _ t => t.pc + 4, rfl, ?_, ?_, ?_⟩
  · exact State.retire_upd h fun G => { G.flagAll c.mask fl with q := setBit8 G.q q x }
  · rw [Group.moveTo_eq, Group.hnd_moveTo, hR, Group.flagAll, Group.updLanes_eq]; rfl
  · intro l
    have e := hmove l
    rw [hlane l] at e
    by_cases hl : c.mask.getLsbD l = true
    · simp only [Ctx.has, hl, ↓reduceIte] at e ⊢
      rw [e]; rfl
    · simp only [Ctx.has, hl, Bool.false_eq_true, ↓reduceIte] at e ⊢
      exact e

/-! ## Results of variable latency -/

theorem State.startAs_spec {s t : State} {c : Ctx} (h : Found s c t) (d : Dst) (vals : Option (List LaneVal)) (ctr : Option Nat) :
    StartsAs c t d vals ctr (.next (((t.updGroup c.g fun G => { G.openWindow t.uid c.mask d with
      pend := G.pend ++ [⟨t.uid, c.mask, c.first, d, vals, ctr⟩] }).bump).retire c)) := by
  have h' : Found s c t.bump := ⟨h.group, h.fresh, h.place, h.alive, h.ready⟩
  have e : (t.updGroup c.g fun G => { G.openWindow t.uid c.mask d with
      pend := G.pend ++ [⟨t.uid, c.mask, c.first, d, vals, ctr⟩] }).bump =
      t.bump.updGroup c.g fun G => { G.openWindow t.uid c.mask d with
        pend := G.pend ++ [⟨t.uid, c.mask, c.first, d, vals, ctr⟩] } := rfl
  rw [e, State.retire_upd h']
  set R : Group := { c.G.openWindow t.uid c.mask d with pend := c.G.pend ++ [⟨t.uid, c.mask, c.first, d, vals, ctr⟩] } with hR
  have hlane : ∀ k, R.lane k = c.G.lane k := fun _ => rfl
  have hmove := fun k => Group.lane_moveTo R c.mask (fun _ t => t.pc + 4) k
    (fun l hl => by rw [hlane l]; exact (h.ready l hl).1)
  refine ⟨_, R.moveTo c.mask fun _ t => t.pc + 4, R.wins.headD ⟨0, 0, d, [], false, []⟩, rfl, rfl, ?_, rfl, rfl, rfl, rfl, rfl, ?_⟩
  · rw [Group.moveTo_eq, Group.hnd_moveTo, hR]; rfl
  · intro l; rw [hmove l, hlane l]; rfl

theorem State.start_spec {s t : State} {c : Ctx} (h : Found s c t) (d : Dst) (vals : List LaneVal) :
    Starts c t d vals (.next (((t.updGroup c.g fun G => G.start t.uid c.mask c.first d (some vals)).bump).retire c)) :=
  State.startAs_spec h d (some vals) none

theorem State.startV_spec {s t : State} {c : Ctx} (h : Found s c t) (d : Nat) (f : Nat → Word × Word) :
    StartsV c t d f (.next (t.startV c d f)) := State.start_spec h _ _

theorem State.startS_spec {s t : State} {c : Ctx} (h : Found s c t) (d : Nat) (xs : List Word) :
    Starts c t (.s d xs.length) [⟨0, xs, 0, false⟩] (.next (t.startS c d xs)) := State.start_spec h _ _

end Sys2Proof.Machine
end

