-- ==== Sys2Proof/Laws/Access.lean ====
section
/-! SUPPORT. What blocking a path leaves, what an entry of the access order leaves, and what an access leaves: one lemma each. -/

namespace Sys2Proof.Machine

/-! ## Masks -/

theorem getLsbD_laneBit (l k : Nat) : (laneBit l).getLsbD k = (decide (k < 32) && decide (k = l)) := by
  simp only [laneBit, BitVec.getLsbD_shiftLeft]
  by_cases h1 : k < 32 <;> by_cases h2 : k < l <;> by_cases h3 : k = l <;> simp [h1, h2, h3]
  all_goals omega

theorem getLsbD_foldl_maskOf (ls : List Nat) (m : Word) (k : Nat) :
    (ls.foldl (fun m l => m ||| laneBit l) m).getLsbD k = (m.getLsbD k || (decide (k < 32) && ls.contains k)) := by
  induction ls generalizing m with
  | nil => simp
  | cons l ls ih =>
    rw [List.foldl_cons, ih, BitVec.getLsbD_or, getLsbD_laneBit, List.contains_cons]
    cases m.getLsbD k <;> cases decide (k < 32) <;> by_cases h : k = l <;> simp [h]

/-- A lane is in the mask of a list when the list holds it. -/
theorem getLsbD_maskOf (ls : List Nat) (k : Nat) : (maskOf ls).getLsbD k = (decide (k < 32) && ls.contains k) := by
  rw [maskOf, getLsbD_foldl_maskOf]; simp

/-- Two lists of the same lanes have one mask. -/
theorem maskOf_congr {as bs : List Nat} (h : ∀ l, l ∈ as ↔ l ∈ bs) : maskOf as = maskOf bs := by
  apply BitVec.eq_of_getLsbD_eq
  intro i _
  rw [getLsbD_maskOf, getLsbD_maskOf]
  congr 1
  rw [Bool.eq_iff_iff]
  simp [h]

@[simp] theorem maskOf_lanesOf (m : Word) : maskOf (lanesOf m) = m := by
  apply BitVec.eq_of_getLsbD_eq
  intro i hi
  rw [getLsbD_maskOf]
  simp [hi]

theorem getLsbD_lanesWith (G : Group) (p : Thread → Bool) (k : Nat) :
    (G.lanesWith p).getLsbD k = (decide (k < 32) && p (G.lane k)) := by
  rw [Group.lanesWith, getLsbD_maskOf]
  by_cases h : k < 32 <;> simp [h]

/-! ## Groups under maps -/

theorem SMap.find?_map {α β : Type} (m : SMap α) (f : Nat → α → β) (i : Nat) :
    SMap.find? (List.map (fun (x : Nat × α) => (x.1, f x.1 x.2)) m) i = (SMap.find? m i).map (f i) := by
  induction m with
  | nil => rfl
  | cons p m ih =>
    obtain ⟨k, v⟩ := p
    simp only [List.map_cons, SMap.find?]
    split
    · rename_i h; subst h; rfl
    · split
      · rfl
      · exact ih

/-- An evaluation leaves all of a blocked path but whether it is satisfied (R196). -/
@[simp] theorem State.evalBlock_bare (s : State) (g : Nat) (G : Group) (b : Block) : (s.evalBlock g G b).bare = b.bare := by
  unfold State.evalBlock Block.hit Block.bare
  dsimp only
  (repeat' split) <;> rfl

/-- A fresh blocked path that an instant satisfies (R196). -/
theorem Block.hit_fresh {b : Block} (h1 : b.met = none) (h2 : b.comp = 0) (h3 : b.terr = false) (n : Nat) (w : Word) (c : Nat) (e : Bool) :
    b.hit n w c e = Block.fresh b n (some ⟨w, c, e⟩) := by
  unfold Block.hit Block.fresh; rw [h1, h2, h3]; simp

/-- What an evaluation instant leaves of a group (R196). -/
theorem State.group?_wake (s : State) (g : Nat) : s.wake.group? g = (s.group? g).map fun G =>
    if G.blk.isEmpty then G else { G with blk := G.blk.map fun b => s.evalBlock g G b } := by
  unfold State.wake State.group?
  exact SMap.find?_map s.groups (fun k G => if G.blk.isEmpty then G else
    { G with blk := G.blk.map fun b => s.evalBlock k G b }) g

theorem State.wake_eq (s : State) : s.wake = { s with groups := s.wake.groups } := rfl

theorem Looked.refl (G : Group) : Looked G G := ⟨rfl, rfl⟩

theorem Looked.wake (s : State) (g : Nat) (G : Group) : Looked G (if G.blk.isEmpty then G else
    { G with blk := G.blk.map fun b => s.evalBlock g G b }) := by
  split
  · exact Looked.refl G
  · refine ⟨rfl, ?_⟩
    simp [List.map_map, Function.comp_def]

/-! ## Blocking a path (R156) -/

/-- The block that a path gets. -/
def Ctx.block (c : Ctx) (s : State) (k : Cond) : Block := ⟨s.uid, c.mask, c.pc, c.first, k, none, s.now, 0, false, c.mask == 0⟩

/-- The issuing path is blocked: what the state is then. -/
theorem State.blockPath_eq {t : State} {c : Ctx} (hg : t.group? c.g = some c.G)
    (hr : ∀ l, c.has l = true → (c.G.lane l).st = .ready) (k : Cond) :
    ∃ G, t.blockPath c k = { t with
        groups := SMap.put t.groups c.g G
        uid := t.uid + 1
        fresh := t.fresh + 1 } ∧
      G = { c.G with
        lanes := G.lanes
        blk := c.G.blk ++ [c.block t k]
        hnd := if c.mask = 0 then c.G.hnd.map fun H => { H with
          ready := false
          hints := Hints.clear } else c.G.hnd } ∧
      Lanes c G fun _ x => { x with
        st := .blocked t.uid
        hints := Hints.clear } := by
  have hm : c.mask &&& (c.G.lanesWith fun t => t.st == .ready) = c.mask := by
    apply BitVec.eq_of_getLsbD_eq
    intro i hi
    rw [BitVec.getLsbD_and, getLsbD_lanesWith]
    cases hl : c.mask.getLsbD i with
    | false => rfl
    | true => simp [hi, hr i hl]
  unfold State.blockPath Ctx.block
  simp only [hg, hm]
  by_cases h0 : c.mask = 0
  · refine ⟨{ c.G with
      blk := c.G.blk ++ [⟨t.uid, c.mask, c.pc, c.first, k, none, t.now, 0, false, c.mask == 0⟩]
      hnd := c.G.hnd.map fun H => { H with
        ready := false
        hints := Hints.clear } }, ?_, ?_, ?_⟩
    · simp only [if_pos h0]
      rw [State.updGroup_some hg]
      simp [h0, State.bump, State.draw]
    · simp [h0]
    · intro l
      simp [Ctx.has, h0, Group.lane]
  · refine ⟨{ c.G.updLanes (lanesOf c.mask) (fun _ x => { x with
        st := .blocked t.uid
        hints := Hints.clear }) with
      blk := c.G.blk ++ [⟨t.uid, c.mask, c.pc, c.first, k, none, t.now, 0, false, c.mask == 0⟩] }, ?_, ?_, ?_⟩
    · simp only [if_neg h0]
      rw [State.updGroup_some hg]
      have hb : (c.mask == 0) = false := by simpa using h0
      have hk := Group.updLanes_eq (lanesOf c.mask) c.G (fun _ t_1 => { t_1 with
        st := TStat.blocked t.uid
        hints := Hints.clear })
      simp only [hb, State.bump, State.draw]
    · rw [Group.updLanes_eq, if_neg h0]
    · intro l
      show (Group.updLanes _ _ _).lane l = _
      rw [Group.lane_updLanes _ (lanesOf_nodup _)]
      simp only [mem_lanesOf]; rfl

theorem State.blockPath_spec {s t : State} {c : Ctx} (h : Found s c t) (k : Cond) :
    Blocks c t k none (.next (t.blockPath c k)) := by
  obtain ⟨G, h1, h2, h3⟩ := State.blockPath_eq h.group (fun l hl => (h.ready l hl).1) k
  refine ⟨_, G, c.G.blk, _, rfl, ?_, ?_, ?_, ?_, rfl, rfl, h3⟩
  · rw [h1]
  · rw [h1]; exact SMap.find?_put_self _ _ _
  · intro g H hg hH
    refine ⟨H, ?_, Looked.refl H⟩
    rw [h1]
    show SMap.find? (SMap.put t.groups c.g G) g = _
    rw [SMap.find?_put_ne _ _ hg]; exact hH
  · exact h2

/-- The same with an evaluation instant at once (R196): the block is satisfied when its evaluation says so. -/
theorem State.blockWake_spec {s t : State} {c : Ctx} (h : Found s c t) (k : Cond) (met : Option Hit)
    (hm : ∀ (u : State) (G : Group), u.teams = t.teams → u.cores = t.cores → u.now = t.now → G.team = c.G.team → G.core = c.G.core →
      u.evalBlock c.g G (c.block t k) = Block.fresh (c.block t k) t.now met) :
    Blocks c t k met (.next (t.blockPath c k).wake) := by
  obtain ⟨G, h1, h2, h3⟩ := State.blockPath_eq h.group (fun l hl => (h.ready l hl).1) k
  have hbk : G.blk = c.G.blk ++ [c.block t k] := by rw [h2]
  have hte : G.team = c.G.team := by rw [h2]
  have hco : G.core = c.G.core := by rw [h2]
  generalize hL : G.lanes = L at h2
  have hg : (t.blockPath c k).group? c.g = some G := by rw [h1]; exact SMap.find?_put_self _ _ _
  have hmet := hm (t.blockPath c k) G (by rw [h1]) (by rw [h1]) (by rw [h1]) hte hco
  refine ⟨_, { G with blk := G.blk.map fun b => (t.blockPath c k).evalBlock c.g G b },
    c.G.blk.map (fun b => (t.blockPath c k).evalBlock c.g G b),
    Block.fresh (c.block t k) t.now met, rfl, ?_, ?_, ?_, ?_, ?_, rfl, ?_⟩
  · rw [h1]; rfl
  · rw [State.group?_wake, hg]; simp [hbk]
  · intro g H hgn hH
    rw [State.group?_wake]
    have : (t.blockPath c k).group? g = some H := by
      rw [h1]
      show SMap.find? (SMap.put t.groups c.g _) g = _
      rw [SMap.find?_put_ne _ _ hgn]; exact hH
    rw [this]
    exact ⟨_, rfl, Looked.wake _ g H⟩
  · have hb : G.blk.map (fun b => (t.blockPath c k).evalBlock c.g G b) =
        c.G.blk.map (fun b => (t.blockPath c k).evalBlock c.g G b) ++ [Block.fresh (c.block t k) t.now met] := by
      rw [hbk, List.map_append, List.map_cons, List.map_nil, hmet]
    rw [hb]
    generalize c.G.blk.map (fun b => (t.blockPath c k).evalBlock c.g G b) ++ [Block.fresh (c.block t k) t.now met] = bb
    rw [h2]
  · simp [List.map_map, Function.comp_def]
  · exact h3

/-! ## Entries of the access order (R275) -/

theorem Found.starts {s t : State} {c : Ctx} (h : Found s c t) (d : Dst) : Found s (c.starts t d) (t.starts c d) := by
  refine ⟨?_, h.fresh, h.place, h.alive, h.ready⟩
  show (t.updGroup c.g _).group? c.g = _
  rw [State.group?_updGroup_self, h.group]; rfl

theorem Found.same {s t u : State} {c : Ctx} (h : Found s c t) (hg : u.groups = t.groups) (hf : u.fresh = t.fresh) : Found s c u :=
  ⟨by have := h.group; rw [State.group?] at this ⊢; rw [hg]; exact this, hf.trans h.fresh, by rw [hf]; exact h.place, h.alive, h.ready⟩

/-- An entry is added, and the path goes on. -/
theorem State.enter_spec {s t : State} {c : Ctx} (h : Found s c t) (k : AccKind) (acq : Nat) :
    Enters c t k acq (.next (((t.addAcc c.g { fenceAcc t.uid c k with acq := acq }).bump).retire c)) := by
  have h' : Found s c t.bump := h.same rfl rfl
  have e : (t.addAcc c.g { fenceAcc t.uid c k with acq := acq }).bump =
      t.bump.updGroup c.g fun G => { G with acc := G.acc ++ [{ fenceAcc t.uid c k with acq := acq }] } := rfl
  rw [e, State.retire_upd h']
  refine ⟨_, _, rfl, rfl, ?_, ?_⟩
  · rw [Group.moveTo_eq, Group.hnd_moveTo]; rfl
  · intro l
    exact Group.lane_moveTo _ c.mask (fun _ t => t.pc + 4) l fun l hl => (h.ready l hl).1

end Sys2Proof.Machine
end

