-- ==== Sys2Proof/Laws/Memory.lean ====
section
/-! SUPPORT. Device memory and the banks of a core: a write is read back, leaves every other byte alone, and keeps the canonical form
(log 8); what the arrival of a write and one step of an atomic do to memory. -/

namespace Sys2Proof.Machine

/-! ## The canonical form -/

theorem Memory.wf_iff (m : List Host.Cell) : Memory.wf m = true ↔ SMap.wf m = true ∧ ∀ p ∈ m, p.2 ≠ 0 := by
  simp [Memory.wf]

/-- Memory with nothing listed has the form. -/
theorem Memory.wf_nil : Memory.wf [] = true := rfl

/-- A write over the value that unlisted bytes read as keeps the form. -/
theorem Memory.wf_set {m : List Host.Cell} (h : Memory.wf m = true) (a : Nat) (x : Byte) : Memory.wf (SMap.set m a x 0) = true := by
  rw [Memory.wf_iff] at h ⊢
  refine ⟨SMap.wf_set m a x 0 h.1, ?_⟩
  intro p hp
  unfold SMap.set at hp
  by_cases hx : x = 0
  · rw [if_pos hx] at hp
    exact h.2 p (SMap.mem_del m a p hp)
  · rw [if_neg hx] at hp
    rcases SMap.mem_put m a x p hp with rfl | hp
    · exact hx
    · exact h.2 p hp

theorem Memory.wf_memPut {m : List Host.Cell} (h : Memory.wf m = true) (a : Nat) (x : Byte) : Memory.wf (memPut m a x) = true :=
  Memory.wf_set h a x

/-- What a fold of writes keeps. -/
theorem Memory.wf_foldl {α : Type} (f : List Host.Cell → α → List Host.Cell) (hf : ∀ m x, Memory.wf m = true → Memory.wf (f m x) = true)
    (xs : List α) (m : List Host.Cell) (h : Memory.wf m = true) : Memory.wf (xs.foldl f m) = true := by
  induction xs generalizing m with
  | nil => exact h
  | cons x xs ih => exact ih _ (hf m x h)

theorem Memory.wf_memPuts {m : List Host.Cell} (h : Memory.wf m = true) (a : Nat) (xs : List Byte) : Memory.wf (memPuts m a xs) = true :=
  Memory.wf_foldl _ (fun _ _ h => Memory.wf_memPut h _ _) _ m h

/-! ## Reading after a write -/

/-- A write gives its byte to its address, and leaves every other address alone. -/
theorem memPut_get {m : List Host.Cell} (h : Memory.wf m = true) (a b : Nat) (x : Byte) :
    SMap.get (memPut m a x) b 0 = if b = a then x else SMap.get m b 0 :=
  SMap.get_set m a b x 0 ((Memory.wf_iff m).1 h).1

theorem memPuts_get_from (a : Nat) (xs : List Byte) : ∀ (n : Nat) (m : List Host.Cell), Memory.wf m = true → ∀ b,
    SMap.get ((xs.zipIdx n).foldl (fun m (x, i) => memPut m (a + i) x) m) b 0 =
      if a + n ≤ b ∧ b < a + n + xs.length then xs.getD (b - (a + n)) 0 else SMap.get m b 0 := by
  induction xs with
  | nil => intro n m h b; simp only [List.zipIdx_nil, List.foldl_nil, List.length_nil]; rw [if_neg (by omega)]
  | cons x xs ih =>
    intro n m h b
    simp only [List.zipIdx_cons, List.foldl_cons]
    rw [ih (n + 1) _ (Memory.wf_memPut h _ _) b, memPut_get h]
    simp only [List.length_cons]
    by_cases h1 : b = a + n
    · subst h1
      rw [if_neg (by omega), if_pos rfl, if_pos (by omega)]
      simp
    · rw [if_neg h1]
      by_cases h2 : a + (n + 1) ≤ b ∧ b < a + (n + 1) + xs.length
      · rw [if_pos h2, if_pos (by omega)]
        obtain ⟨k, hk⟩ : ∃ k, b - (a + n) = k + 1 := ⟨b - (a + n) - 1, by omega⟩
        rw [hk, show b - (a + (n + 1)) = k by omega]
        simp
      · rw [if_neg h2, if_neg (by omega)]

/-- Successive bytes are read back, and every other address is left alone. -/
theorem memPuts_get {m : List Host.Cell} (h : Memory.wf m = true) (a : Nat) (xs : List Byte) (b : Nat) :
    SMap.get (memPuts m a xs) b 0 = if a ≤ b ∧ b < a + xs.length then xs.getD (b - a) 0 else SMap.get m b 0 :=
  memPuts_get_from a xs 0 m h b

/-! ## The bytes of a sector -/

theorem leNat_byte (bs : List Byte) (i : Nat) : leNat bs / 256 ^ i % 256 = (bs.getD i 0).toNat := by
  induction bs generalizing i with
  | nil => simp [leNat]
  | cons b bs ih =>
    have hb : b.toNat < 256 := b.isLt
    cases i with
    | zero => simp only [leNat, pow_zero, Nat.div_one, List.getD_cons_zero]; omega
    | succ i =>
      simp only [leNat, List.getD_cons_succ]
      rw [pow_succ', ← Nat.div_div_eq_div_mul, show (b.toNat + 256 * leNat bs) / 256 = leNat bs by omega]
      exact ih i

set_option exponentiation.threshold 600 in
/-- A byte of a sector that was made from its bytes. -/
theorem secByte_secOf (bs : List Byte) {i : Nat} (hi : i < 64) : secByte (secOf bs) i = bs.getD i 0 := by
  apply BitVec.eq_of_toNat_eq
  unfold secByte secOf
  rw [BitVec.extractLsb'_toNat, BitVec.toNat_ofNat, Nat.shiftRight_eq_div_pow, ← leNat_byte bs i,
    show (256 : Nat) ^ i = 2 ^ (8 * i) by rw [pow_mul]; norm_num, show (2 : Nat) ^ 512 = 2 ^ (8 * i) * 2 ^ (512 - 8 * i) by
      rw [← pow_add]; congr 1; omega, Nat.mod_mul_right_div_self, show (2 : Nat) ^ (512 - 8 * i) = 2 ^ 8 * 2 ^ (512 - 8 * i - 8) by
      rw [← pow_add]; congr 1; omega, Nat.mod_mul_right_mod]
  norm_num

theorem getD_map_range {α : Type} (f : Nat → α) (n i : Nat) (d : α) (h : i < n) : ((List.range n).map f).getD i d = f i := by
  rw [List.getD_eq_getElem?_getD, List.getElem?_map, List.getElem?_range h]; rfl

/-- A byte of a mixture of sectors. -/
theorem secByte_secMix (m : DWord) (x y : BitVec 512) {i : Nat} (hi : i < 64) :
    secByte (secMix m x y) i = if m.getLsbD i then secByte y i else secByte x i := by
  unfold secMix
  rw [secByte_secOf _ hi, getD_map_range _ _ _ _ hi]

/-- A byte of the sector that stands in memory. -/
theorem State.secByte_sector (s : State) (p : Nat) {i : Nat} (hi : i < 64) : secByte (s.sector p) i = s.byteAt (.glob 0 (p * 64 + i)) := by
  unfold State.sector
  rw [secByte_secOf _ hi, getD_map_range _ _ _ _ hi]

/-- A byte of a sector some of whose bytes are replaced. -/
theorem secByte_secPut (d : BitVec 512) (a : Nat) (bs : List Byte) {i : Nat} (hi : i < 64) :
    secByte (secPut d a bs) i = if a ≤ i ∧ i < a + bs.length then bs.getD (i - a) 0 else secByte d i := by
  unfold secPut
  rw [secByte_secOf _ hi, getD_map_range _ _ _ _ hi]
  by_cases h1 : a ≤ i
  · rw [if_pos h1]
    by_cases h2 : i < a + bs.length
    · rw [if_pos ⟨h1, h2⟩, List.getD_eq_getElem?_getD, List.getD_eq_getElem?_getD, List.getElem?_eq_getElem (by omega)]; rfl
    · rw [if_neg (by omega), List.getD_eq_getElem?_getD, List.getElem?_eq_none (by omega)]; rfl
  · rw [if_neg h1, if_neg (by omega)]

/-! ## The arrival of a write, and one step of an atomic (R277, R282, R399) -/

@[simp] theorem State.checked_mem (s : State) (key psec : Nat) : (s.checked key psec).mem = s.mem := by
  unfold State.checked State.corrected; (repeat' split) <;> rfl

@[simp] theorem State.wake_mem (s : State) : s.wake.mem = s.mem := rfl

theorem foldl_mem_of {α : Type} (f : State → α → State) (h : ∀ s x, (f s x).mem = s.mem) (l : List α) (s : State) : (l.foldl f s).mem = s.mem := by
  induction l generalizing s with
  | nil => rfl
  | cons x xs ih => rw [List.foldl_cons, ih, h]

theorem foldl_side_of {α : Type} (f : State → α → State) (h : ∀ s x, (f s x).side = s.side) (l : List α) (s : State) : (l.foldl f s).side = s.side := by
  induction l generalizing s with
  | nil => rfl
  | cons x xs ih => rw [List.foldl_cons, ih, h]

@[simp] theorem State.watch_mem (s : State) (psec : Nat) : (s.watch psec).mem = s.mem := by
  unfold State.watch; refine foldl_mem_of _ ?_ _ _; intro s x; rfl

@[simp] theorem State.watch_side (s : State) (psec : Nat) : (s.watch psec).side = s.side := by
  unfold State.watch; refine foldl_side_of _ ?_ _ _; intro s x; rfl

theorem State.writeSector_wf {s : State} (h : Memory.wf s.mem = true) (key psec : Nat) (d : BitVec 512) :
    Memory.wf (s.writeSector key psec d).mem = true := Memory.wf_memPuts h _ _

/-- A sector written anew, and every other byte as it was. -/
theorem State.writeSector_byteAt {s : State} (h : Memory.wf s.mem = true) (key psec : Nat) (d : BitVec 512) (b : Nat) :
    (s.writeSector key psec d).byteAt (.glob 0 b) = if psec * 64 ≤ b ∧ b < psec * 64 + 64 then secByte d (b - psec * 64) else s.byteAt (.glob 0 b) := by
  show SMap.get (memPuts s.mem _ _) b 0 = _
  rw [memPuts_get h, List.length_map, List.length_range]
  by_cases hb : psec * 64 ≤ b ∧ b < psec * 64 + 64
  · rw [if_pos hb, if_pos hb, getD_map_range _ _ _ _ (by omega)]
  · rw [if_neg hb, if_neg hb]; rfl

theorem State.byteAt_mem {s u : State} (h : u.mem = s.mem) (b : Nat) : u.byteAt (.glob 0 b) = s.byteAt (.glob 0 b) := by
  show SMap.get u.mem b 0 = SMap.get s.mem b 0; rw [h]

/-- The arrival of a masked write keeps the form. -/
theorem State.storeSector_wf {s : State} (h : Memory.wf s.mem = true) (key psec : Nat) (mask : DWord) (x : BitVec 512) :
    Memory.wf (s.storeSector key psec mask x).1.mem = true := by
  unfold State.storeSector
  split
  · exact h
  · split
    · rw [State.watch_mem]; exact State.writeSector_wf h _ _ _
    · split
      · exact h
      · rw [State.watch_mem]; exact State.writeSector_wf (by simpa using h) _ _ _

/-- One step of an atomic keeps it. -/
theorem State.atomStep_wf {s : State} (h : Memory.wf s.mem = true) (key psec op : Nat) (wide : Bool) (a : Nat) (x y : List Byte) :
    Memory.wf (s.atomStep key psec op wide a x y).1.mem = true := by
  unfold State.atomStep
  dsimp only
  generalize (if wide = true then 8 else 4) = k
  split
  · exact h
  · split
    · simpa using h
    · show Memory.wf (State.watch _ _).mem = true
      rw [State.watch_mem]; exact State.writeSector_wf (by simpa using h) _ _ _

/-- A write of a whole sector changes exactly its bytes, and is under the key of its writer. -/
theorem State.storeSector_whole {s : State} (h : Memory.wf s.mem = true) {key psec : Nat} (x : BitVec 512) (hp : psec * 64 < memEnd) :
    (s.storeSector key psec (BitVec.allOnes 64) x).2 = false ∧
    (s.storeSector key psec (BitVec.allOnes 64) x).1.sideOf psec = Side.clean key ∧
    ∀ b, (s.storeSector key psec (BitVec.allOnes 64) x).1.byteAt (.glob 0 b) =
      if psec * 64 ≤ b ∧ b < psec * 64 + 64 then secByte x (b - psec * 64) else s.byteAt (.glob 0 b) := by
  unfold State.storeSector
  rw [if_neg (by omega), if_pos rfl]
  refine ⟨rfl, ?_, fun b => ?_⟩
  · show SMap.get (State.watch _ _).side _ _ = _
    rw [State.watch_side]; exact SMap.get_put_self _ _ _ _
  · rw [State.byteAt_mem (State.watch_mem _ _) b, State.writeSector_byteAt h]

/-- A masked write of a sector that passes its check changes exactly its bytes; the others are what the read delivered. -/
theorem State.storeSector_spec {s : State} (h : Memory.wf s.mem = true) {key psec : Nat} {mask : DWord} (x : BitVec 512) {d : Delivered}
    (hp : psec * 64 < memEnd) (hm : mask ≠ BitVec.allOnes 64) (hk : s.check key psec = some d) :
    (s.storeSector key psec mask x).2 = false ∧
    (s.storeSector key psec mask x).1.sideOf psec = Side.clean key ∧
    ∀ b, (s.storeSector key psec mask x).1.byteAt (.glob 0 b) =
      if psec * 64 ≤ b ∧ b < psec * 64 + 64 then
        (if mask.getLsbD (b - psec * 64) = true then secByte x (b - psec * 64) else secByte d.data (b - psec * 64))
      else s.byteAt (.glob 0 b) := by
  unfold State.storeSector
  rw [if_neg (by omega), if_neg hm]
  simp only [hk]
  refine ⟨trivial, ?_, fun b => ?_⟩
  · show SMap.get (State.watch _ _).side _ _ = _
    rw [State.watch_side]; exact SMap.get_put_self _ _ _ _
  · rw [State.byteAt_mem (State.watch_mem _ _) b, State.writeSector_byteAt (by simpa using h)]
    by_cases hb : psec * 64 ≤ b ∧ b < psec * 64 + 64
    · rw [if_pos hb, if_pos hb, secByte_secMix _ _ _ (by omega)]
    · rw [if_neg hb, if_neg hb, State.byteAt_mem (State.checked_mem _ _ _) b]

/-- A masked write that is not performed changes nothing. -/
theorem State.storeSector_fail {s : State} {key psec : Nat} {mask : DWord} (x : BitVec 512)
    (hk : memEnd ≤ psec * 64 ∨ mask ≠ BitVec.allOnes 64 ∧ s.check key psec = none) : s.storeSector key psec mask x = (s, true) := by
  unfold State.storeSector
  split
  · rfl
  · rename_i h
    have h2 := hk.resolve_left h
    rw [if_neg h2.1]; simp only [h2.2]

theorem length_leBytes (n x : Nat) : (leBytes n x).length = n := by
  induction n generalizing x with
  | zero => rfl
  | succ n ih => simp [leBytes, ih]

theorem State.length_bytesAt (s : State) (a n : Nat) : (s.bytesAt a n).length = n := by simp [State.bytesAt]

/-- A sector whose stored bits stand as they were written delivers them (R399). -/
theorem State.check_clean {s : State} {key psec : Nat} {d : Delivered} (hk : s.check key psec = some d)
    (he : (s.sideOf psec).err = 0) (hm : (s.sideOf psec).merr = 0) : d.data = s.sector psec := by
  unfold State.check at hk
  generalize s.sideOf psec = x at hk he hm
  by_cases h1 : x.key ≠ key ∨ key = 0 ∨ memEnd ≤ psec * 64
  · rw [if_pos h1] at hk; cases hk
  · rw [if_neg h1, if_pos ⟨he, hm⟩] at hk
    injection hk with hk; rw [← hk]

/-- One step of an atomic answers the old bytes and changes exactly its word, which an `acas` that does not match leaves as it was; the other
bytes of the sector are what the read delivered. -/
theorem State.atomStep_spec {s : State} (h : Memory.wf s.mem = true) {key psec op : Nat} {wide : Bool} {a : Nat} (x y : List Byte) {d : Delivered}
    (hk : s.check key psec = some d) :
    let k := if wide then 8 else 4
    let old := (List.range k).map fun i => secByte d.data (a + i)
    let new := leBytes k (atomNew op wide (leNat old) (leNat x) (leNat y)).1
    (s.atomStep key psec op wide a x y).2 = (old, false) ∧
    ∀ b, (s.atomStep key psec op wide a x y).1.byteAt (.glob 0 b) =
      if psec * 64 ≤ b ∧ b < psec * 64 + 64 ∧ ¬(op = 9 ∧ leNat old ≠ leNat y) then
        (if a ≤ b - psec * 64 ∧ b - psec * 64 < a + k then new.getD (b - psec * 64 - a) 0 else secByte d.data (b - psec * 64))
      else s.byteAt (.glob 0 b) := by
  intro k old new
  unfold State.atomStep
  simp only [hk]
  by_cases hc : op = 9 ∧ leNat old ≠ leNat y
  · have hc' := hc
    change (if op = 9 ∧ leNat old ≠ leNat y then _ else _ : State × List Byte × Bool).2 = _ ∧ ∀ b, (if op = 9 ∧ leNat old ≠ leNat y then _ else _ : State × List Byte × Bool).1.byteAt _ = _
    rw [if_pos hc']
    refine ⟨rfl, fun b => ?_⟩
    rw [if_neg (show ¬(psec * 64 ≤ b ∧ b < psec * 64 + 64 ∧ ¬(op = 9 ∧ leNat old ≠ leNat y)) from fun hx => hx.2.2 hc),
      State.byteAt_mem (State.checked_mem _ _ _) b]
  · change (if op = 9 ∧ leNat old ≠ leNat y then _ else _ : State × List Byte × Bool).2 = _ ∧ ∀ b, (if op = 9 ∧ leNat old ≠ leNat y then _ else _ : State × List Byte × Bool).1.byteAt _ = _
    rw [if_neg hc]
    refine ⟨rfl, fun b => ?_⟩
    rw [State.byteAt_mem (State.watch_mem _ _) b, State.writeSector_byteAt (by simpa using h)]
    by_cases hb : psec * 64 ≤ b ∧ b < psec * 64 + 64
    · rw [if_pos hb, if_pos (show psec * 64 ≤ b ∧ b < psec * 64 + 64 ∧ ¬(op = 9 ∧ leNat old ≠ leNat y) from ⟨hb.1, hb.2, hc⟩), secByte_secPut _ _ _ (by omega), length_leBytes]
    · rw [if_neg hb, if_neg (show ¬(psec * 64 ≤ b ∧ b < psec * 64 + 64 ∧ ¬(op = 9 ∧ leNat old ≠ leNat y)) from fun hx => hb ⟨hx.1, hx.2.1⟩),
        State.byteAt_mem (State.checked_mem _ _ _) b]

/-- One step of an atomic whose word fails its check changes nothing. -/
theorem State.atomStep_fail {s : State} {key psec op : Nat} {wide : Bool} {a : Nat} (x y : List Byte) (hk : s.check key psec = none) :
    s.atomStep key psec op wide a x y = (s, [], true) := by
  unfold State.atomStep
  simp only [hk]

/-- A write to a bank keeps the form of the banks. -/
theorem State.pokeBank_wf {s : State} (h : ∀ c, Memory.wf (s.core c).spad = true ∧ Memory.wf (s.core c).obuf = true) (p : Loc) (x : Byte) (c : Nat) :
    Memory.wf ((s.pokeBank p x).core c).spad = true ∧ Memory.wf ((s.pokeBank p x).core c).obuf = true := by
  unfold State.pokeBank
  split
  · rename_i k a
    by_cases hc : c = k
    · subst hc; simp only [State.core, State.updCore, SMap.get_put_self]; exact ⟨Memory.wf_set (h c).1 _ _, (h c).2⟩
    · simp only [State.core, State.updCore, SMap.get_put_ne _ _ _ hc]; exact h c
  · rename_i k a
    by_cases hc : c = k
    · subst hc; simp only [State.core, State.updCore, SMap.get_put_self]; exact ⟨(h c).1, Memory.wf_set (h c).2 _ _⟩
    · simp only [State.core, State.updCore, SMap.get_put_ne _ _ _ hc]; exact h c
  · exact h c

end Sys2Proof.Machine
end

