-- ==== Sys2Proof/Laws/MemFrame.lean ====
section
/-! SUPPORT. What leaves memory alone: every operation on the state but those that store (`State.storeSector`, `State.atomStep` and what
is made of them). One lemma for each, so that a statement about memory need not look into any of them. -/

namespace Sys2Proof.Machine

@[simp] theorem ite_mem (c : Prop) [Decidable c] (a b : State) : (if c then a else b).mem = if c then a.mem else b.mem := by split <;> rfl
@[simp] theorem foldl_mem {α : Type} (f : State → α → State) (l : List α) (s : State) (h : ∀ s x, (f s x).mem = s.mem) : (l.foldl f s).mem = s.mem := by
  induction l generalizing s with
  | nil => rfl
  | cons x xs ih => rw [List.foldl_cons, ih, h]
theorem foldlPair_mem {α β : Type} (f : State × β → α → State × β) (l : List α) (h : ∀ z x, (f z x).1.mem = z.1.mem) (z : State × β) : (l.foldl f z).1.mem = z.1.mem := by
  induction l generalizing z with
  | nil => rfl
  | cons x xs ih => rw [List.foldl_cons, ih, h]
theorem foldlBind_mem {α : Type} (f : State → α → Option State) (l : List α) (h : ∀ s x t, f s x = some t → t.mem = s.mem) (s u : State) (hu : l.foldl (fun r v => r.bind fun s => f s v) (some s) = some u) : u.mem = s.mem := by
  induction l generalizing s with
  | nil => cases hu; rfl
  | cons x xs ih =>
    rw [List.foldl_cons] at hu
    cases hs : f s x with
    | none =>
      have : ∀ l : List α, l.foldl (fun r v => r.bind fun s => f s v) none = none := by
        intro l; induction l with
        | nil => rfl
        | cons y ys ih => exact ih
      rw [show (some s).bind (fun s => f s x) = none from hs, this] at hu; cases hu
    | some t => rw [show (some s).bind (fun s => f s x) = some t from hs] at hu; rw [ih _ hu, h _ _ _ hs]

@[simp] theorem miss_mem (s : State) (c : Nat) (k : Nat) : (State.miss s c k).mem = s.mem := (rfl)
@[simp] theorem engMiss_mem (s : State) (y1 : Eng) :
    (State.engMiss s y1).mem = s.mem := by
  unfold State.engMiss; (repeat' split) <;> simp
@[simp] theorem holdFault_mem (s : State) (vf : Nat) (r : Nat) : (State.holdFault s vf r).mem = s.mem := (rfl)
@[simp] theorem takeFid_mem (s : State) (vf : Nat) (p : Parked) : (State.takeFid s vf p).1.mem = s.mem := (rfl)
@[simp] theorem trapRecord_mem (s : State) (vf : Nat) (lid : Nat) (core : Nat) (part : Nat) (slot : Nat) (src : Nat) (lmask : Word) (fpc : Word) (cause : Word) :
    (State.trapRecord s vf lid core part slot src lmask fpc cause).mem = s.mem := (rfl)
@[simp] theorem holdDone_mem (s : State) (vf : Nat) (lid : Nat) (code : Nat) (why : Nat) (late : Bool) :
    (State.holdDone s vf lid code why late).mem = s.mem := (rfl)
@[simp] theorem freeBlocks_mem (s : State) (g : Nat) : (State.freeBlocks s g).mem = s.mem := by
  unfold State.freeBlocks; (repeat' split) <;> simp
@[simp] theorem cvSend_mem (s : State) (G : Group) (cv : Nat) (within : Option Nat) (m : CvMsg) :
    (State.cvSend s G cv within m).mem = s.mem := rfl
@[simp] theorem detach_mem (s : State) (g : Nat) (cause : Nat) : (State.detach s g cause).mem = s.mem := by
  unfold State.detach; (repeat' split) <;> simp
@[simp] theorem stopReady_mem (s : State) (g : Nat) : (State.stopReady s g).mem = s.mem := (rfl)
@[simp] theorem askPreempt_mem (s : State) (u : Nat) : (State.askPreempt s u).mem = s.mem := by
  unfold State.askPreempt; dsimp only
  split
  · rfl
  · refine (foldl_mem _ _ _ fun s g => ?_).trans rfl
    split
    · split <;> rfl
    · rfl
@[simp] theorem preempt_mem (s : State) (t : Nat) : (State.preempt s t).mem = s.mem := by
  unfold State.preempt; (repeat' split) <;> simp
@[simp] theorem dropCorrs_mem (s : State) (t : Nat) : (State.dropCorrs s t).mem = s.mem := (rfl)
@[simp] theorem passed_mem (s : State) (g : Nat) : (State.passed s g).mem = s.mem := by
  unfold State.passed; (repeat' split) <;> simp
@[simp] theorem dropTeam_mem (s : State) (t : Nat) : (State.dropTeam s t).mem = s.mem := by
  unfold State.dropTeam; (repeat' split) <;> simp
@[simp] theorem failOne_mem (s : State) (l : Nat) (why : Nat) : (State.failOne s l why).mem = s.mem := by
  unfold State.failOne; (repeat' split) <;> simp
@[simp] theorem failDeps_mem (y0 : Nat) (y1 : State) : (State.failDeps y0 y1).mem = y1.mem := by
  induction y0 generalizing y1 with
  | zero => rfl
  | succ n ih => unfold State.failDeps; dsimp only; split <;> simp [ih]
@[simp] theorem failLaunch_mem (s : State) (l : Nat) (why : Nat) :
    (State.failLaunch s l why).mem = s.mem := by unfold State.failLaunch; simp
@[simp] theorem satisfy_mem (s : State) (l : Nat) : (State.satisfy s l).mem = s.mem := (rfl)
@[simp] theorem endTeam_mem (s : State) (t : Nat) : (State.endTeam s t).mem = s.mem := by
  unfold State.endTeam; dsimp only; (repeat' split) <;> simp
@[simp] theorem checkTeam_mem (s : State) (t : Nat) : (State.checkTeam s t).mem = s.mem := by
  unfold State.checkTeam; (repeat' split) <;> simp
@[simp] theorem loseTeam_mem (s : State) (t : Nat) : (State.loseTeam s t).mem = s.mem := by
  unfold State.loseTeam; (repeat' split) <;> simp
@[simp] theorem setBar_mem (s : State) (T : Team) (b : Nat) (x : Bar) :
    (State.setBar s T b x).mem = s.mem := rfl
@[simp] theorem settleObuf_mem (s : State) (T : Team) :
    (State.settleObuf s T).mem = s.mem := by unfold State.settleObuf; simp
@[simp] theorem arrive_mem (s : State) (t : Nat) (bar : Nat) (c : Nat) :
    (State.arrive s t bar c).mem = s.mem := by
  unfold State.arrive
  split
  · rfl
  · dsimp only
    split
    · rfl
    · split
      · rw [State.wake_mem]; refine (foldl_mem _ _ _ ?_).trans ?_
        · intro s x; simp
        · simp
      · simp
@[simp] theorem tagDone_mem (s : State) (core : Nat) (tag : Nat) (c : Nat) (err : Bool) :
    (State.tagDone s core tag c err).mem = s.mem := (rfl)
@[simp] theorem tagTake_mem (s : State) (core : Nat) (tag : Nat) : (State.tagTake s core tag).mem = s.mem := (rfl)
@[simp] theorem raise_mem (s : State) (g : Nat) (inHandler : Bool) (e : TrapEntry) : (State.raise s g inHandler e).mem = s.mem := by
  unfold State.raise; dsimp only; (repeat' split) <;> simp
@[simp] theorem seqFault_mem (s : State) (t : Nat) (detail : Nat) (info : Nat) : (State.seqFault s t detail info).mem = s.mem := by
  unfold State.seqFault; dsimp only; (repeat' split) <;> simp
@[simp] theorem seqHandOver_mem (s : State) (t : Nat) (e : TrapEntry) :
    (State.seqHandOver s t e).mem = s.mem := by
  unfold State.seqHandOver; (repeat' split) <;> simp
@[simp] theorem checkGroup_mem (s : State) (g : Nat) :
    (State.checkGroup s g).mem = s.mem := by
  unfold State.checkGroup; dsimp only; (repeat' split) <;> simp
@[simp] theorem deliver_mem (s : State) (c : Ctx) : (State.deliver s c).mem = s.mem := by unfold State.deliver; simp
@[simp] theorem trapLanes_mem (s : State) (c : Ctx) (m : Word) (cls : Nat) (detail : Nat) (info : Nat) :
    (State.trapLanes s c m cls detail info).mem = s.mem := by unfold State.trapLanes; simp
@[simp] theorem trapAt_mem (s : State) (c : Ctx) (cls : Nat) (detail : Nat) (info : optParam Nat 0) :
    (State.trapAt s c cls detail info).mem = s.mem := by unfold State.trapAt; simp
@[simp] theorem retire_mem (s : State) (c : Ctx) : (State.retire s c).mem = s.mem := (rfl)
@[simp] theorem goto_mem (s : State) (c : Ctx) (f : Nat → Thread → Word) : (State.goto s c f).mem = s.mem := (rfl)
@[simp] theorem waited_mem (s : State) (c : Ctx) : (State.waited s c).mem = s.mem := (rfl)
theorem eachClass_mem (c : Ctx) (f : Ctx → State → State) (s : State) (h : ∀ d s, (f d s).mem = s.mem) : (c.eachClass f s).mem = s.mem := by
  unfold Ctx.eachClass; refine foldl_mem _ _ _ ?_; intro s x; cases c.class_ s x with
  | none => rfl
  | some d => exact h d s
theorem eachHints_mem (s : State) (c : Ctx) (f : Ctx → State → State) (h : ∀ d s, (f d s).mem = s.mem) : (s.eachHints c f).mem = s.mem := by
  unfold State.eachHints; split
  · exact h _ _
  · exact eachClass_mem _ _ _ h
@[simp] theorem deliverAll_mem (s : State) (c : Ctx) :
    (State.deliverAll s c).mem = s.mem := eachHints_mem _ _ _ fun d s => deliver_mem s d
@[simp] theorem putV_mem (s : State) (c : Ctx) (d : Nat) (f : Nat → Word × Word) : (State.putV s c d f).mem = s.mem := (rfl)
@[simp] theorem putV2_mem (s : State) (c : Ctx) (d : Nat) (f : Nat → DWord) : (State.putV2 s c d f).mem = s.mem := (rfl)
@[simp] theorem putS_mem (s : State) (c : Ctx) (d : Nat) (xs : List Word) : (State.putS s c d xs).mem = s.mem := (rfl)
@[simp] theorem putP_mem (s : State) (c : Ctx) (p : Nat) (f : Nat → Bool × Word) : (State.putP s c p f).mem = s.mem := (rfl)
@[simp] theorem putQ_mem (s : State) (c : Ctx) (q : Nat) (y3 : Bool) (fl : optParam Word 0) : (State.putQ s c q y3 fl).mem = s.mem := (rfl)
@[simp] theorem startV_mem (s : State) (c : Ctx) (d : Nat) (f : Nat → Word × Word) : (State.startV s c d f).mem = s.mem := (rfl)
@[simp] theorem startS_mem (s : State) (c : Ctx) (d : Nat) (xs : List Word) : (State.startS s c d xs).mem = s.mem := (rfl)
@[simp] theorem corrected_mem (s : State) (psec : Nat) : (State.corrected s psec).mem = s.mem := (rfl)
@[simp] theorem flip_mem (s : State) (psec : Nat) (err : BitVec 512) (perr : Word) (merr : Word) :
    (State.flip s psec err perr merr).mem = s.mem := by
  unfold State.flip; (repeat' split) <;> simp
@[simp] theorem walkChecked_mem (s : State) (t : Trans) :
    (State.walkChecked s t).mem = s.mem := by unfold State.walkChecked; simp
@[simp] theorem learn_mem (s : State) (core : Nat) (t : Trans) : (State.learn s core t).mem = s.mem := by
  unfold State.learn; simp
@[simp] theorem learnDie_mem (s : State) (d : Nat) (t : Trans) : (State.learnDie s d t).mem = s.mem := by
  unfold State.learnDie; simp
@[simp] theorem fault_mem (s : State) (f : FaultAt) (p : Parked) : (State.fault s f p).1.mem = s.mem := (rfl)
@[simp] theorem groupFault_mem (s : State) (g : Nat) (G : Group) (mask : Word) (pc : Word) (va : Nat) (cause : Nat) (lev : Nat) (acc : Nat) :
    (State.groupFault s g G mask pc va cause lev acc).mem = s.mem := (rfl)
@[simp] theorem send_mem (s : State) (r : Req) : (State.send s r).mem = s.mem := (rfl)
@[simp] theorem backSec_mem (s : State) (core : Nat) (L : Line) (k : Nat) :
    (State.backSec s core L k).mem = s.mem := by unfold State.backSec; simp
@[simp] theorem backLine_mem (s : State) (core : Nat) (L : Line) : (State.backLine s core L).mem = s.mem := by unfold State.backLine; simp
@[simp] theorem evict_mem (s : State) (core : Nat) (L : Line) : (State.evict s core L).mem = s.mem := by unfold State.evict; simp
theorem allocLine_mem (s : State) (core : Nat) (vf : Nat) (asid : Nat) (vline : Nat) (pline : Nat) : ∀ t', State.allocLine s core vf asid vline pline = some t' → t'.mem = s.mem := by
  unfold State.allocLine; dsimp only; (repeat' split) <;> simp
@[simp] theorem markFirst_mem (s : State) (core : Nat) (vf : Nat) (asid : Nat) (vline : Nat) :
    (State.markFirst s core vf asid vline).mem = s.mem := (rfl)
@[simp] theorem updUnit_mem (s : State) (d : Nat) (u : Nat) (f : Unit → Unit) : (State.updUnit s d u f).mem = s.mem := (rfl)
@[simp] theorem updChan_mem (s : State) (n : Nat) (f : Channel → Channel) : (State.updChan s n f).mem = s.mem := (rfl)
@[simp] theorem handle_mem (s : State) (r : Req) : (State.handle s r).mem = s.mem := by
  unfold State.handle; (repeat' split) <;> simp
@[simp] theorem serveUnit_mem (y0 : Nat) (y1 : Nat) (y2 : Nat) (y3 : State) : (State.serveUnit y0 y1 y2 y3).mem = y3.mem := by
  induction y0 generalizing y3 with
  | zero => rfl
  | succ n ih =>
    unfold State.serveUnit; dsimp only
    split
    · split
      · rfl
      · rw [ih]; simp
    · rfl
@[simp] theorem arriveUnit_mem (s : State) (r : Req) : (State.arriveUnit s r).mem = s.mem := by unfold State.arriveUnit; simp
@[simp] theorem takeAt_mem (s : State) (n : Nat) (v : ChView) (c : Channel) : (State.takeAt s n v c).mem = s.mem := (rfl)
@[simp] theorem raiseHorizon_mem (s : State) (psec : Nat) (e : Nat) : (State.raiseHorizon s psec e).mem = s.mem := (rfl)
@[simp] theorem sendEng_mem (s : State) (t : Nat) (x : Txn) (rs : List (Nat × ReqKind)) :
    (State.sendEng s t x rs).mem = s.mem := by unfold State.sendEng; simp
@[simp] theorem beginTxn_mem (s : State) (who : Eng) (vf : Nat) (cls : Nat) (budget : Nat) (rd : List (Nat × List Loc)) (wr : List (Nat × List Loc)) :
    (State.beginTxn s who vf cls budget rd wr).1.mem = s.mem := by unfold State.beginTxn; simp
@[simp] theorem updTxn_mem (s : State) (t : Nat) (f : Txn → Txn) :
    (State.updTxn s t f).mem = s.mem := rfl
@[simp] theorem endTxn_mem (s : State) (t : Nat) :
    (State.endTxn s t).mem = s.mem := rfl
@[simp] theorem pokeBank_mem (s : State) (p : Loc) (b : Byte) : (State.pokeBank s p b).mem = s.mem := by
  unfold State.pokeBank; (repeat' split) <;> simp
@[simp] theorem pokeOwn_mem (s : State) (p : Loc) (b : Byte) :
    (State.pokeOwn s p b).mem = s.mem := by
  unfold State.pokeOwn; (repeat' split) <;> simp
@[simp] theorem writeTxn_mem (s : State) (t : Nat) (bs : List (Loc × Byte)) :
    (State.writeTxn s t bs).mem = s.mem := by
  unfold State.writeTxn; (repeat' split) <;> simp
@[simp] theorem engJudge_mem (s : State) (r : Req) (x : Txn) :
    (State.engJudge s r x).mem = s.mem := by unfold State.engJudge; simp
@[simp] theorem engReply_mem (s : State) (k : Copy) (t : Nat) :
    (State.engReply s k t).mem = s.mem := by
  unfold State.engReply; (repeat' split) <;> simp
@[simp] theorem engClose_mem (s : State) (t : Nat) :
    (State.engClose s t).mem = s.mem := by
  unfold State.engClose; (repeat' split) <;> simp
@[simp] theorem engDone_mem (s : State) (d : Done) (t : Nat) :
    (State.engDone s d t).mem = s.mem := by
  unfold State.engDone; (repeat' split) <;> simp
@[simp] theorem blockPath_mem (s : State) (c : Ctx) (cond : Cond) : (State.blockPath s c cond).mem = s.mem := (rfl)
@[simp] theorem unblock_mem (s : State) (g : Nat) (b : Block) (again : optParam Bool false) :
    (State.unblock s g b again).mem = s.mem := (rfl)
@[simp] theorem parkLanes_mem (s : State) (c : Ctx) (m : Word) : (State.parkLanes s c m).mem = s.mem := (rfl)
theorem planBy_mem (s : State) (tlb : List TlbEntry) (learn : State → Trans → State) (hl : ∀ s t, (learn s t).mem = s.mem) (G : Group) (r : QWord) (width : Nat) (w : Want) (idx : List (Nat × Int)) :
    (s.planBy tlb learn G r width w idx).st.mem = s.mem := by
  unfold State.planBy; dsimp only [State.draw]
  exact foldl_mem _ _ _ fun s x => hl s x.2
@[simp] theorem plan_mem (s : State) (core : Nat) (G : Group) (r : QWord) (width : Nat) (w : Want) (idx : List (Nat × Int)) :
    (s.plan core G r width w idx).st.mem = s.mem := by
  unfold State.plan; exact planBy_mem _ _ _ (fun s t => learn_mem s core t) _ _ _ _ _
@[simp] theorem stopLanes_mem (s : State) (c : Ctx) (p : Plan) (w : Want) (uniform : Bool) (oobTrap : Bool) :
    (State.stopLanes s c p w uniform oobTrap).mem = s.mem := by unfold State.stopLanes; simp
@[simp] theorem addAcc_mem (s : State) (g : Nat) (a : Acc) : (State.addAcc s g a).mem = s.mem := (rfl)
@[simp] theorem updAcc_mem (s : State) (g : Nat) (id : Nat) (f : Acc → Acc) : (State.updAcc s g id f).mem = s.mem := (rfl)
@[simp] theorem bury_mem (s : State) (g : Nat) : (State.bury s g).mem = s.mem := by
  unfold State.bury; (repeat' split) <;> simp
@[simp] theorem sweep_mem (s : State) (g : Nat) : (State.sweep s g).mem = s.mem := by unfold State.sweep; simp
@[simp] theorem finish_mem (s : State) (g : Nat) (id : Nat) : (State.finish s g id).mem = s.mem := by
  unfold State.finish; (repeat' split) <;> simp
@[simp] theorem bindSector_mem (s : State) (g : Nat) (G : Group) (id : Nat) (ks : List (AccByte × Loc)) (v : Nat × Nat) :
    (State.bindSector s g G id ks v).mem = s.mem := by
  unfold State.bindSector
  split
  · rfl
  · rename_i a ha
    dsimp only
    split
    · split <;> simp
    · split
      · split
        · split <;> simp
        · rw [State.updCore_mem]; split <;> simp
      · split
        · split <;> simp
        · rename_i s' h
          have : s'.mem = s.mem := by
            revert h; split
            · intro h; cases h; split <;> simp
            · intro h; rw [allocLine_mem _ _ _ _ _ _ _ h]; split <;> simp
          (repeat' split) <;> simp [this]
@[simp] theorem bindBytes_mem (s : State) (g : Nat) (G : Group) (a : Acc) (ks : List (AccByte × Loc)) :
    (State.bindBytes s g G a ks).mem = s.mem := by unfold State.bindBytes; simp
theorem postSector_mem (s : State) (g : Nat) (G : Group) (a : Acc) (ks : List (AccByte × Loc)) (v : Nat × Nat) :
    ∀ t', State.postSector s g G a ks v = some t' → t'.mem = s.mem := by
  unfold State.postSector; intro t' h; dsimp only at h
  split at h
  · cases h; simp
  · cases ha : s.allocLine G.core G.vf (s.vf G.vf).asid (v.1 / 4) (v.2 / 4) with
    | none => simp [ha] at h
    | some u =>
      simp [ha] at h; subst h
      have := allocLine_mem _ _ _ _ _ _ _ ha
      split <;> simp [this]
@[simp] theorem snoop_mem (s : State) (core : Nat) (party : Option (Nat × Nat)) (ps : List Loc) :
    (State.snoop s core party ps).mem = s.mem := rfl
theorem postBytes_mem (s : State) (g : Nat) (G : Group) (a : Acc) (ks : List (AccByte × Loc)) :
    ∀ t', State.postBytes s g G a ks = some t' → t'.mem = s.mem := by
  unfold State.postBytes; intro t' h; dsimp only at h
  cases hf : (secsOf ks).foldl (fun r v => r.bind fun s => State.postSector s g G a ks v) (some s) with
  | none => simp [hf] at h
  | some u =>
    simp [hf] at h; subst h
    have hu := foldlBind_mem _ _ (fun s v t h => postSector_mem s g G a ks v t h) _ _ hf
    rw [sweep_mem, updAcc_mem, State.wake_mem, snoop_mem]
    refine (foldl_mem _ _ _ ?_).trans hu
    intro s x; simp
@[simp] theorem writeError_mem (s : State) (vf : Nat) (core : Nat) (g : Nat) : (State.writeError s vf core g).mem = s.mem := by
  unfold State.writeError; (repeat' split) <;> simp
@[simp] theorem parkPeer_mem (s : State) (g : Nat) (a : Acc) (m : Word) : (State.parkPeer s g a m).mem = s.mem := (rfl)
@[simp] theorem peerFaults_mem (s : State) (g : Nat) (G : Group) (a : Acc) : (State.peerFaults s g G a).mem = s.mem := by
  unfold State.peerFaults
  refine foldl_mem _ _ _ fun s p => ?_
  split <;> simp
@[simp] theorem convoyStep_mem (s : State) (g : Nat) (mask : Word) (pc : Word) :
    (State.convoyStep s g mask pc).mem = s.mem := by
  unfold State.convoyStep; (repeat' split) <;> simp
@[simp] theorem countStep_mem (s : State) (g : Nat) (mask : Word) (pc : Word) (done : List Nat) :
    (State.countStep s g mask pc done).mem = s.mem := by
  unfold State.countStep; (repeat' split) <;> simp
@[simp] theorem peerEnd_mem (s : State) (g : Nat) (G : Group) (a : Acc) : (State.peerEnd s g G a).mem = s.mem := by
  unfold State.peerEnd; dsimp only; (repeat' split) <;> simp
@[simp] theorem peerAnswer_mem (s : State) (y1 : PeerAns) : (State.peerAnswer s y1).mem = s.mem := by
  unfold State.peerAnswer; dsimp only; (repeat' split) <;> simp
@[simp] theorem sendPeerReq_mem (s : State) (r : PeerReq) :
    (State.sendPeerReq s r).mem = s.mem := by unfold State.sendPeerReq; simp
@[simp] theorem windowChecked_mem (s : State) (vf : Nat) (a : Acc) :
    (State.windowChecked s vf a).mem = s.mem := by unfold State.windowChecked; simp
@[simp] theorem sendPeer_mem (s : State) (g : Nat) (G : Group) (a : Acc) (op : Nat) (wide : Bool) :
    (State.sendPeer s g G a op wide).mem = s.mem := by unfold State.sendPeer; simp
@[simp] theorem bankAtomic_mem (s : State) (g : Nat) (G : Group) (a : Acc) (op : Nat) (wide : Bool) (x : LaneAcc) :
    (State.bankAtomic s g G a op wide x).mem = s.mem := by unfold State.bankAtomic; simp
@[simp] theorem sendAtomic_mem (s : State) (g : Nat) (G : Group) (a : Acc) (op : Nat) (wide : Bool) (x : LaneAcc) :
    (State.sendAtomic s g G a op wide x).mem = s.mem := by
  unfold State.sendAtomic; dsimp only; (repeat' split) <;> simp
@[simp] theorem performAtomic_mem (s : State) (g : Nat) (G : Group) (a : Acc) (op : Nat) (wide : Bool) (x : LaneAcc) :
    (State.performAtomic s g G a op wide x).mem = s.mem := by
  unfold State.performAtomic; (repeat' split) <;> simp
@[simp] theorem flushGroup_mem (s : State) (g : Nat) (G : Group) : (State.flushGroup s g G).mem = s.mem := by unfold State.flushGroup; simp
@[simp] theorem invalidateAll_mem (s : State) (core : Nat) : (State.invalidateAll s core).mem = s.mem := (rfl)
@[simp] theorem dropAcc_mem (s : State) (g : Nat) (id : Nat) : (State.dropAcc s g id).mem = s.mem := by unfold State.dropAcc; simp
@[simp] theorem sendCmd_mem (s : State) (g : Nat) (G : Group) (a : Acc) (c : EngCmd) : (State.sendCmd s g G a c).mem = s.mem := by
  unfold State.sendCmd; (repeat' split) <;> simp
@[simp] theorem landBytes_mem (s : State) (g : Nat) (a : Acc) (ks : List (AccByte × Loc)) :
    (State.landBytes s g a ks).mem = s.mem := by unfold State.landBytes; simp
@[simp] theorem perform_mem (s : State) (g : Nat) (id : Nat) :
    (State.perform s g id).mem = s.mem := by
  unfold State.perform
  split
  · rfl
  · split
    · rfl
    · rename_i G _ _ a _
      have hp : ∀ ks, ((s.postBytes g G a ks).getD s).mem = s.mem := by
        intro ks; cases h : s.postBytes g G a ks with
        | none => rfl
        | some u => exact postBytes_mem _ _ _ _ _ _ h
      dsimp only; (repeat' split) <;> simp [hp]
@[simp] theorem performPart_mem (s : State) (g : Nat) (id : Nat) (lane : Nat) (byte : Nat) :
    (State.performPart s g id lane byte).mem = s.mem := by
  unfold State.performPart
  split
  · rfl
  · split
    · rfl
    · rename_i G _ _ a _
      have hp : ∀ ks, ((s.postBytes g G a ks).getD s).mem = s.mem := by
        intro ks; cases h : s.postBytes g G a ks with
        | none => rfl
        | some u => exact postBytes_mem _ _ _ _ _ _ h
      dsimp only; (repeat' split) <;> simp [hp]
@[simp] theorem judge_mem (s : State) (r : Req) : (State.judge s r).mem = s.mem := by unfold State.judge; simp
@[simp] theorem wakeLoad_mem (s : State) (x : Sector) (vsec : Nat) (bad : Bool) (g : Nat) (id : Nat) :
    (State.wakeLoad s x vsec bad g id).mem = s.mem := by unfold State.wakeLoad; simp
@[simp] theorem prefetchFill_mem (s : State) (core : Nat) (w : PrefWait) :
    (State.prefetchFill s core w).mem = s.mem := by
  unfold State.prefetchFill; dsimp only
  split
  · split <;> simp
  · split
    · simp
    · rename_i h; have := allocLine_mem _ _ _ _ _ _ _ h; split <;> simp [this]
@[simp] theorem retryPrefetch_mem (s : State) (core : Nat) :
    (State.retryPrefetch s core).mem = s.mem := by unfold State.retryPrefetch; simp
@[simp] theorem fillArrives_mem (s : State) (k : Copy) (core : Nat) (fid : Nat) : (State.fillArrives s k core fid).mem = s.mem := by
  unfold State.fillArrives; dsimp only; (repeat' split) <;> simp
@[simp] theorem completes_mem (s : State) (d : Done) : (State.completes s d).mem = s.mem := by
  unfold State.completes; dsimp only; (repeat' split) <;> simp
@[simp] theorem leave_mem (s : State) (c : Ctx) (peer : Bool) (id : Nat) (rel : Nat) (rid : Nat) (oob : Word) :
    (State.leave s c peer id rel rid oob).mem = s.mem := by unfold State.leave; simp
@[simp] theorem startAccess_mem (s : State) (c : Ctx) (pid : Nat) (mask : Word) (dst : Option Dst) (v : Option (List LaneVal)) (oob : Word) :
    (State.startAccess s c pid mask dst v oob).mem = s.mem := by
  unfold State.startAccess; (repeat' split) <;> simp
@[simp] theorem access_mem (s : State) (c : Ctx) (k : AccKind) (r : QWord) (width : Nat) (sext : Bool) (w : Want) (idx : List (Nat × Int)) (uniform : Bool) (evict : Bool) (noAlloc : Bool) (cload : Bool) (lease : Nat) (acq : Nat) (rel : Nat) (dst : Option Dst) (data : Nat → List Byte) (cmp : Nat → List Byte) :
    (State.access s c k r width sext w idx uniform evict noAlloc cload lease acq rel dst data cmp).mem = s.mem := by unfold State.access; simp
@[simp] theorem updEntry_mem (s : State) (id : Nat) (f : Entry → Entry) : (State.updEntry s id f).mem = s.mem := (rfl)
@[simp] theorem firstCopy_mem (s : State) (k : Copy) :
    (State.firstCopy s k).mem = s.mem := rfl
@[simp] theorem codeArrives_mem (s : State) (k : Copy) (core : Nat) (id : Nat) :
    (State.codeArrives s k core id).mem = s.mem := by
  unfold State.codeArrives; (repeat' split) <;> simp
@[simp] theorem waitArrives_mem (s : State) (k : Copy) (g : Nat) (blk : Nat) (n : Nat) (ser : Nat) :
    (State.waitArrives s k g blk n ser).mem = s.mem := by unfold State.waitArrives; simp
@[simp] theorem trapBlock_mem (s : State) (g : Nat) (G : Group) (b : Block) (cls : Nat) (detail : Nat) :
    (State.trapBlock s g G b cls detail).mem = s.mem := by unfold State.trapBlock; simp
@[simp] theorem endRelease_mem (s : State) (g : Nat) (G : Group) (a : Acc) (scope : Nat) :
    (State.endRelease s g G a scope).mem = s.mem := by
  unfold State.endRelease; dsimp only; (repeat' split) <;> simp
@[simp] theorem handlerCheck_mem (s : State) (g : Nat) : (State.handlerCheck s g).mem = s.mem := by
  unfold State.handlerCheck; (repeat' split) <;> simp
@[simp] theorem endSeqHandler_mem (s : State) (g : Nat) (resume : Bool) : (State.endSeqHandler s g resume).mem = s.mem := by
  unfold State.endSeqHandler; (repeat' split) <;> simp
@[simp] theorem condPlan_mem (s : State) (c : Ctx) (a : Word) :
    (State.condPlan s c a).st.mem = s.mem := by unfold State.condPlan; simp
@[simp] theorem sendPoll_mem (s : State) (g : Nat) (G : Group) (blk : Nat) (k : Nat) (p : Poll) (secs : List Nat) :
    (State.sendPoll s g G blk k p secs).mem = s.mem := by unfold State.sendPoll; simp
@[simp] theorem parkBlock_mem (s : State) (g : Nat) (b : Block) :
    (State.parkBlock s g b).mem = s.mem := rfl
@[simp] theorem repoll_mem (s : State) (g : Nat) (G : Group) (b : Block) (k : Nat) (x : WCond) :
    (State.repoll s g G b k x).mem = s.mem := by
  unfold State.repoll; (repeat' split) <;> simp
@[simp] theorem waitReturns_mem (s : State) (g : Nat) (b : Block) (sd : Nat) (cs : List WCond) (m : Word) :
    (State.waitReturns s g b sd cs m).mem = s.mem := rfl
@[simp] theorem kill_mem (s : State) (g : Nat) (m : Word) : (State.kill s g m).mem = s.mem := by unfold State.kill; simp
@[simp] theorem updCopy_mem (s : State) (core : Nat) (id : Nat) (f : CopyCmd → CopyCmd) : (State.updCopy s core id f).mem = s.mem := (rfl)
@[simp] theorem copyDone_mem (s : State) (core : Nat) (x : CopyCmd) :
    (State.copyDone s core x).mem = s.mem := by
  unfold State.copyDone; (repeat' split) <;> simp
@[simp] theorem copyFault_mem (s : State) (core : Nat) (y2 : CopyCmd) (w : Want) (f : Nat × Nat × Nat × List Nat) :
    (State.copyFault s core y2 w f).mem = s.mem := by
  unfold State.copyFault; simp
@[simp] theorem copyEntry_mem (s : State) (core : Nat) (x : CopyCmd) :
    (State.copyEntry s core x).mem = s.mem := by
  unfold State.copyEntry; dsimp only; (repeat' split) <;> simp
@[simp] theorem copyEntered_mem (s : State) (core : Nat) (x : CopyCmd) (t : Nat) (row : Nat) (y : Txn) :
    (State.copyEntered s core x t row y).mem = s.mem := by
  unfold State.copyEntered; dsimp only; (repeat' split) <;> simp
@[simp] theorem copyStart_mem (s : State) (core : Nat) (x : CopyCmd) (run : List Nat) :
    (State.copyStart s core x run).mem = s.mem := by
  unfold State.copyStart; dsimp only; (repeat' split) <;> simp
@[simp] theorem copyWrite_mem (s : State) (core : Nat) (x : CopyCmd) (k : CopyChunk) (y : Txn) :
    (State.copyWrite s core x k y).mem = s.mem := by unfold State.copyWrite; simp
@[simp] theorem copyStep_mem (s : State) (core : Nat) (id : Nat) :
    (State.copyStep s core id).mem = s.mem := by
  unfold State.copyStep; dsimp only; (repeat' split) <;> simp
@[simp] theorem copyEnd_mem (s : State) (core : Nat) (x : CopyCmd) :
    (State.copyEnd s core x).mem = s.mem := by unfold State.copyEnd; simp
@[simp] theorem answer_mem (s : State) (g : Nat) (pend : Option Nat) (y3 : Word) : (State.answer s g pend y3).mem = s.mem := by
  unfold State.answer; (repeat' split) <;> simp
@[simp] theorem mirror_mem (s : State) (d : Nat) (q : QRec) :
    (State.mirror s d q).mem = s.mem := by
  unfold State.mirror; dsimp only; (repeat' split) <;> simp
@[simp] theorem queueAnswer_mem (s : State) (c : QCmd) (y2 : Nat) :
    (State.queueAnswer s c y2).mem = s.mem := by unfold State.queueAnswer; simp
@[simp] theorem updSeq_mem (s : State) (t : Nat) (f : Seq → Seq) : (State.updSeq s t f).mem = s.mem := (rfl)
@[simp] theorem seqThen_mem (s : State) (t : Nat) (f : Seq → Seq) : (State.seqThen s t f).mem = s.mem := (rfl)
@[simp] theorem rsvPoke_mem (s : State) (T : Team) (y2 : QWord) (off : Nat) (bs : List Byte) :
    (State.rsvPoke s T y2 off bs).mem = s.mem := by unfold State.rsvPoke; simp
@[simp] theorem seqPark_mem (s : State) (t : Nat) (T : Team) (va : Nat) (cause : Nat) (lev : Nat) (acc : Nat) :
    (State.seqPark s t T va cause lev acc).mem = s.mem := by
  unfold State.seqPark; simp
@[simp] theorem mretSend_mem (s : State) (t : Nat) (T : Team) (r : QWord) (ws : List (Loc × Byte)) :
    (State.mretSend s t T r ws).mem = s.mem := by unfold State.mretSend; simp
@[simp] theorem mretStores_mem (s : State) (t : Nat) (T : Team) (a : Nat) (e : Epi) (r : QWord) (r' : QWord) (p0 : Plan) (p1 : Plan) (h : p1.st.mem = s.mem) :
    (State.mretStores s t T a e r r' p0 p1).mem = s.mem := by
  unfold State.mretStores; split
  · simp
  · split
    · simp [h]
    · refine (foldl_mem _ _ _ ?_).trans h; intro s x; simp
@[simp] theorem chunkAnswer_mem (s : State) (t : Nat) (ok : Bool) :
    (State.chunkAnswer s t ok).mem = s.mem := by unfold State.chunkAnswer; simp
@[simp] theorem mwaitDone_mem (s : State) (t : Nat) (b : Nat) : (State.mwaitDone s t b).mem = s.mem := (rfl)
@[simp] theorem mtagDone_mem (s : State) (t : Nat) (core : Nat) (tag : Nat) :
    (State.mtagDone s t core tag).mem = s.mem := by
  unfold State.mtagDone; (repeat' split) <;> simp
@[simp] theorem updXCmd_mem (s : State) (d : Nat) (id : Nat) (f : XCmd → XCmd) : (State.updXCmd s d id f).mem = s.mem := (rfl)
@[simp] theorem answers_mem (s : State) (g : Nat) (pend : Option Nat) (xs : List Word) : (State.answers s g pend xs).mem = s.mem := by
  unfold State.answers; (repeat' split) <;> simp
@[simp] theorem dropTxns_mem (s : State) (e : Eng) :
    (State.dropTxns s e).mem = s.mem := rfl
@[simp] theorem xEnd_mem (s : State) (d : Nat) (y2 : XCmd) (xs : List Word) :
    (State.xEnd s d y2 xs).mem = s.mem := by unfold State.xEnd; simp
@[simp] theorem xStatus_mem (s : State) (d : Nat) (y2 : XCmd) (code : Nat) :
    (State.xStatus s d y2 code).mem = s.mem := by unfold State.xStatus; simp
@[simp] theorem planDie_mem (s : State) (d vf : Nat) (seg r : QWord) (width : Nat) (w : Want) (idx : List (Nat × Int)) :
    (s.planDie d vf seg r width w idx).st.mem = s.mem := by
  unfold State.planDie; exact planBy_mem _ _ _ (fun s t => learnDie_mem s d t) _ _ _ _ _
@[simp] theorem engFault_mem (s : State) (d : Nat) (src : Nat) (launch : Nat) (vf : Nat) (f : Nat × Nat × Nat × List Nat) (acc : Nat) (p : Parked) :
    (State.engFault s d src launch vf f acc p).1.mem = s.mem := by
  unfold State.engFault; simp
@[simp] theorem xPark_mem (s : State) (d : Nat) (x : XCmd) (fs : List (Nat × Nat × Nat × List Nat)) :
    (State.xPark s d x fs).mem = s.mem := by unfold State.xPark; simp
theorem Plan.xRead_mem (p : Plan) (d : Nat) (x : XCmd) (cls budget : Nat) : (p.xRead d x cls budget).mem = p.st.mem := by
  unfold Plan.xRead; split <;> simp
@[simp] theorem xGot_mem (s : State) (d : Nat) (x : XCmd) (t : Nat) :
    (State.xGot s d x t).mem = s.mem := rfl
@[simp] theorem engStore_mem (s : State) (e : Eng) (vf : Nat) (cls : Nat) (budget : Nat) (ws : List (Loc × Byte)) :
    (State.engStore s e vf cls budget ws).mem = s.mem := by unfold State.engStore; simp
theorem jobPlans_mem (s : State) (d vf : Nat) (seg r : QWord) (j : Job) :
    (s.jobPlans d vf seg r j).1.st.mem = s.mem ∧ (s.jobPlans d vf seg r j).2.st.mem = s.mem := by
  unfold State.jobPlans; dsimp only; split
  · exact ⟨planDie_mem _ _ _ _ _ _ _ _, planDie_mem _ _ _ _ _ _ _ _⟩
  · exact ⟨planDie_mem _ _ _ _ _ _ _ _, by rw [planDie_mem, planDie_mem]⟩
@[simp] theorem jobSend_mem (s : State) (e : Eng) (vf : Nat) (r : QWord) (j : Job) (p : Plan) (q : Plan) :
    (State.jobSend s e vf r j p q).mem = s.mem := by unfold State.jobSend; simp
@[simp] theorem corrDone_mem (s : State) (o : Nat) (y2 : Corr) (c : Nat) : (State.corrDone s o y2 c).mem = s.mem := by
  unfold State.corrDone; dsimp only; (repeat' split) <;> simp
@[simp] theorem corrCheck_mem (s : State) (o : Nat) : (State.corrCheck s o).mem = s.mem := by unfold State.corrCheck; simp
@[simp] theorem droBits_mem (s : State) (o : Nat) (b : Word) : (State.droBits s o b).mem = s.mem := by unfold State.droBits; simp
@[simp] theorem droDue_mem (s : State) (o : Nat) : (State.droDue s o).mem = s.mem := by unfold State.droDue; simp
@[simp] theorem droEmit_mem (s : State) (o : Nat) (p : Nat) (kind : Nat) (to_ : Nat) (man : BitVec 1024) (full : Bool) (split : List Nat) (vals : SMap Word) :
    (State.droEmit s o p kind to_ man full split vals).mem = s.mem := (rfl)
@[simp] theorem droRelay_mem (s : State) (o : Nat) (y2 : DroPkt) : (State.droRelay s o y2).mem = s.mem := by
  unfold State.droRelay; dsimp only; (repeat' split) <;> simp
@[simp] theorem droMiss_mem (s : State) (o : Nat) : (State.droMiss s o).mem = s.mem := (rfl)
@[simp] theorem droSent_mem (s : State) (o : Nat) : (State.droSent s o).mem = s.mem := by unfold State.droSent; simp
@[simp] theorem droResult_mem (s : State) (o : Nat) (p : Nat) (elems : SMap Word) (man : BitVec 1024) (write : Bool) (send : List DroPkt) :
    (State.droResult s o p elems man write send).mem = s.mem := (rfl)
@[simp] theorem droCorrected_mem (s : State) (o : Nat) (p : Nat) (elems : SMap Word) (man : BitVec 1024) (write : Bool) (log : Option (Nat × List Byte)) (send : List DroPkt) :
    (State.droCorrected s o p elems man write log send).mem = s.mem := (rfl)
@[simp] theorem droApply_mem (s : State) (o : Nat) (y2 : DroPkt) : (State.droApply s o y2).mem = s.mem := by unfold State.droApply; simp
@[simp] theorem droUp_mem (s : State) (o : Nat) (y2 : DroPkt) : (State.droUp s o y2).mem = s.mem := by
  unfold State.droUp; (repeat' split) <;> simp
@[simp] theorem droForward_mem (s : State) (o : Nat) (p : Nat) : (State.droForward s o p).mem = s.mem := by
  unfold State.droForward; dsimp only; (repeat' split) <;> simp
@[simp] theorem droTry_mem (s : State) (o : Nat) (p : Nat) : (State.droTry s o p).mem = s.mem := by
  unfold State.droTry; dsimp only; (repeat' split) <;> simp
@[simp] theorem droOwn_mem (s : State) (o : Nat) (p : Nat) : (State.droOwn s o p).mem = s.mem := by unfold State.droOwn; simp
@[simp] theorem droSplit_mem (s : State) (o : Nat) (sp : List Nat) : (State.droSplit s o sp).mem = s.mem := by unfold State.droSplit; simp
@[simp] theorem droTake_mem (s : State) (y1 : DroPkt) : (State.droTake s y1).mem = s.mem := by unfold State.droTake; simp
@[simp] theorem droReceive_mem (s : State) (y1 : DroPkt) : (State.droReceive s y1).mem = s.mem := by unfold State.droReceive; simp
@[simp] theorem droRound_mem (s : State) (o : Nat) : (State.droRound s o).mem = s.mem := by unfold State.droRound; simp
@[simp] theorem droHandle_mem (s : State) (n : Nat) (x : DroPkt) (f : State → State) (h : ∀ s, (f s).mem = s.mem) :
    (State.droHandle s n x f).mem = s.mem := by
  unfold State.droHandle; dsimp only; split
  · rw [h]
  · rw [droBits_mem]
@[simp] theorem takeRates_mem (s : State) (dev : Nat) (d : Nat) (rs : List Nat) :
    (State.takeRates s dev d rs).mem = s.mem := rfl
@[simp] theorem chunkReply_mem (s : State) (y1 : Chunk) (isOpen : Bool) (ok : Bool) : (State.chunkReply s y1 isOpen ok).mem = s.mem := by
  unfold State.chunkReply; (repeat' split) <;> simp
@[simp] theorem droAccept_mem (s : State) (y1 : Chunk) : (State.droAccept s y1).mem = s.mem := by unfold State.droAccept; simp
@[simp] theorem droOpened_mem (s : State) (y1 : XCmd) (es : List Nat) :
    (State.droOpened s y1 es).mem = s.mem := by unfold State.droOpened; simp
@[simp] theorem droEntries_mem (s : State) (die : Nat) (x : XCmd) : (s.droEntries die x).st.mem = s.mem := by
  unfold State.droEntries; exact planDie_mem _ _ _ _ _ _ _ _
@[simp] theorem droEnter_mem (s : State) (die : Nat) (y2 : XCmd) (bs : List (Option (List Byte))) :
    (State.droEnter s die y2 bs).mem = s.mem := by
  unfold State.droEnter; simp
@[simp] theorem droReadPlan_mem (s : State) (die : Nat) (x : XCmd) :
    (State.droReadPlan s die x).mem = s.mem := by
  unfold State.droReadPlan; split
  · rw [Plan.xRead_mem, droEntries_mem]
  · split
    · split <;> simp
    · rfl
@[simp] theorem droNext_mem (s : State) (die : Nat) (y2 : XCmd) : (State.droNext s die y2).mem = s.mem := by
  unfold State.droNext; dsimp only
  split
  · simp
  · rw [xStatus_mem, droRound_mem, State.updColl_mem]; exact foldl_mem _ _ _ fun s y => by simp
@[simp] theorem droOpen_mem (s : State) (die : Nat) (x : XCmd) :
    (State.droOpen s die x).mem = s.mem := by unfold State.droOpen; simp
@[simp] theorem droSendChunk_mem (s : State) (die : Nat) (x : XCmd) (vs : List (Option (Option (List Byte)))) :
    (State.droSendChunk s die x vs).mem = s.mem := by unfold State.droSendChunk; simp
@[simp] theorem droSendStep_mem (s : State) (die : Nat) (x : XCmd) :
    (State.droSendStep s die x).mem = s.mem := by
  unfold State.droSendStep
  generalize (List.range 8192) = l
  dsimp only; split
  · split
    · split
      · rw [droSendChunk_mem, xGot_mem]
      · rfl
    · rfl
  · split
    · rw [xStatus_mem]
    · split
      · rw [xStatus_mem]
      · split
        · split
          · rw [xStatus_mem]
          · rfl
        · rw [Plan.xRead_mem, planDie_mem]
@[simp] theorem droClose_mem (s : State) (die : Nat) (y2 : XCmd) : (State.droClose s die y2).mem = s.mem := by unfold State.droClose; simp
@[simp] theorem droMfst_mem (s : State) (die : Nat) (y2 : XCmd) : (State.droMfst s die y2).mem = s.mem := by unfold State.droMfst; simp
@[simp] theorem droCorr_mem (s : State) (die : Nat) (y2 : XCmd) : (State.droCorr s die y2).mem = s.mem := by unfold State.droCorr; simp
@[simp] theorem droCommand_mem (s : State) (die : Nat) (y2 : XCmd) : (State.droCommand s die y2).mem = s.mem := by
  unfold State.droCommand; (repeat' split) <;> simp
@[simp] theorem droWrote_mem (s : State) (o : Nat) (j : Job) (t : Nat) (bad : Bool) :
    (State.droWrote s o j t bad).mem = s.mem := by unfold State.droWrote; simp
@[simp] theorem droWrite_mem (s : State) (o : Nat) :
    (State.droWrite s o).mem = s.mem := by
  unfold State.droWrite; dsimp only
  split
  · rfl
  · rename_i j l _
    split
    · rfl
    · split
      · split <;> simp
      · split
        · rfl
        · have hq := (jobPlans_mem s (o / 64) (s.coll o).owner (s.coll o).seg (s.coll o).res j).2
          split
          · split <;> simp [hq]
          · refine (foldl_mem _ _ _ ?_).trans hq
            intro s x; simp
@[simp] theorem asyBits_mem (s : State) (d : Nat) (o : Nat) (b : Word) :
    (State.asyBits s d o b).mem = s.mem := by unfold State.asyBits; simp
@[simp] theorem asyDue_mem (s : State) (d : Nat) (o : Nat) : (State.asyDue s d o).mem = s.mem := by unfold State.asyDue; simp
@[simp] theorem asyClash_mem (s : State) (d : Nat) (o : Nat) :
    (State.asyClash s d o).mem = s.mem := by
  unfold State.asyClash; refine foldl_mem _ _ _ ?_; intro s x; simp
@[simp] theorem asySmear_mem (s : State) (d : Nat) (o : Nat) : (State.asySmear s d o).mem = s.mem := by unfold State.asySmear; simp
@[simp] theorem asyReply_mem (s : State) (y1 : AsyPkt) (code : Nat) :
    (State.asyReply s y1 code).mem = s.mem := by unfold State.asyReply; simp
@[simp] theorem asyAnswer_mem (s : State) (cmd : Nat) (code : Nat) : (State.asyAnswer s cmd code).mem = s.mem := (rfl)
@[simp] theorem asyHandle_mem (s : State) (n : Nat) (y2 : AsyPkt) : (State.asyHandle s n y2).mem = s.mem := by unfold State.asyHandle; simp
@[simp] theorem asyReceive_mem (s : State) (y1 : AsyPkt) : (State.asyReceive s y1).mem = s.mem := by unfold State.asyReceive; simp
@[simp] theorem asyOpen_mem (s : State) (die : Nat) (y2 : XCmd) : (State.asyOpen s die y2).mem = s.mem := by unfold State.asyOpen; simp
@[simp] theorem asySend_mem (s : State) (p : AsyPkt) : (State.asySend s p).mem = s.mem := by unfold State.asySend; simp
@[simp] theorem asyPutSend_mem (s : State) (die : Nat) (x : XCmd) (n : Nat) (vs : List (Option (Option (List Byte)))) :
    (State.asyPutSend s die x n vs).mem = s.mem := by unfold State.asyPutSend; simp
@[simp] theorem asyPutRead_mem (s : State) (die : Nat) (x : XCmd) :
    (State.asyPutRead s die x).mem = s.mem := by
  unfold State.asyPutRead; dsimp only
  split
  · simp
  · split
    · simp
    · rw [Plan.xRead_mem]; exact planDie_mem _ _ _ _ _ _ _ _
@[simp] theorem asyPutStep_mem (s : State) (die : Nat) (y2 : XCmd) : (State.asyPutStep s die y2).mem = s.mem := by
  unfold State.asyPutStep; dsimp only
  (repeat' split) <;> simp
@[simp] theorem asySealStep_mem (s : State) (die : Nat) (y2 : XCmd) :
    (State.asySealStep s die y2).mem = s.mem := by unfold State.asySealStep; simp
@[simp] theorem asyStat_mem (s : State) (die : Nat) (y2 : XCmd) : (State.asyStat s die y2).mem = s.mem := by unfold State.asyStat; simp
@[simp] theorem asyCommand_mem (s : State) (die : Nat) (y2 : XCmd) : (State.asyCommand s die y2).mem = s.mem := by
  unfold State.asyCommand; (repeat' split) <;> simp
@[simp] theorem command_mem (s : State) (die : Nat) (id : Nat) : (State.command s die id).mem = s.mem := by
  unfold State.command; (repeat' split) <;> simp
@[simp] theorem asyWrote_mem (s : State) (d : Nat) (o : Nat) (j : Job) (t : Nat) (bad : Bool) :
    (State.asyWrote s d o j t bad).mem = s.mem := by unfold State.asyWrote; simp
@[simp] theorem asyWrite_mem (s : State) (d : Nat) (o : Nat) :
    (State.asyWrite s d o).mem = s.mem := by
  unfold State.asyWrite; dsimp only
  split
  · rfl
  · rename_i j l _
    split
    · split <;> simp
    · split
      · rfl
      · have hq := (jobPlans_mem s d (s.assay d o).owner (s.assay d o).seg (s.assay d o).res j).2
        split
        · split <;> simp [hq]
        · refine (foldl_mem _ _ _ ?_).trans hq
          intro s x; simp
@[simp] theorem writes_mem (s : State) (asy : Bool) (d : Nat) (o : Nat) :
    (State.writes s asy d o).mem = s.mem := by unfold State.writes; simp
@[simp] theorem updSubQ_mem (s : State) (v : Nat) (q : Nat) (f : SubQ → SubQ) : (State.updSubQ s v q f).mem = s.mem := (rfl)
@[simp] theorem accept_mem (s : State) (vf : Nat) (y2 : Nat) : (State.accept s vf y2).mem = s.mem := by unfold State.accept; simp
@[simp] theorem recordPlan_mem (s : State) (v q : Nat) : (s.recordPlan v q).st.mem = s.mem := by
  unfold State.recordPlan; simp
@[simp] theorem takeRecord_mem (s : State) (v : Nat) (q : Nat) (bs : List (Option (List Byte))) :
    (State.takeRecord s v q bs).mem = s.mem := by
  unfold State.takeRecord; simp
@[simp] theorem stopQueue_mem (s : State) (v : Nat) (q : Nat) (f : Nat × Nat × Nat × List Nat) : (State.stopQueue s v q f).mem = s.mem := by
  unfold State.stopQueue; simp
@[simp] theorem readRecord_mem (s : State) (v : Nat) (q : Nat) :
    (State.readRecord s v q).mem = s.mem := by unfold State.readRecord; simp
@[simp] theorem placeGroup_mem (s : State) (t : Nat) (T : Team) (i : Nat) : (State.placeGroup s t T i).mem = s.mem := (rfl)
@[simp] theorem startBars_mem (s : State) (T : Team) (n : Nat) :
    (State.startBars s T n).mem = s.mem := by
  unfold State.startBars; refine foldl_mem _ _ _ ?_; intro s x; simp
@[simp] theorem placeTeam_mem (s : State) (serial : Nat) (L : Launch) (x : Nat) (cluster : Nat) (rank : Nat) (f : Fit) :
    (State.placeTeam s serial L x cluster rank f).mem = s.mem := by unfold State.placeTeam; simp
@[simp] theorem placeNext_mem (s : State) (serial : Nat) (fits : List Fit) : (State.placeNext s serial fits).mem = s.mem := by
  unfold State.placeNext; (repeat' split) <;> simp
@[simp] theorem readStart_mem (s : State) (t : Nat) (T : Team) (L : Launch) :
    (State.readStart s t T L).mem = s.mem := by unfold State.readStart; simp
@[simp] theorem startTeam_mem (s : State) (t : Nat) (T : Team) (r : LaunchRec) (bs : List Byte) :
    (State.startTeam s t T r bs).mem = s.mem := by
  unfold State.startTeam; refine foldl_mem _ _ _ ?_; intro s x; simp
@[simp] theorem startOne_mem (s : State) (t : Nat) :
    (State.startOne s t).mem = s.mem := by
  unfold State.startOne; (repeat' split) <;> simp
@[simp] theorem makeRoom_mem (s : State) (ts : List Nat) :
    (State.makeRoom s ts).mem = s.mem := by unfold State.makeRoom; simp
@[simp] theorem ringOn_mem (s : State) (vf : Nat) (cq : Bool) :
    (State.ringOn s vf cq).mem = s.mem := by unfold State.ringOn; simp
theorem writeRing_mem (s : State) (vf : Nat) (cq : Bool) :
    ∀ t', State.writeRing s vf cq = some t' → t'.mem = s.mem := by
  unfold State.writeRing; intro t' h
  split at h
  · split at h
    · cases h; simp
    · cases h
  · cases hn : ((s.vf vf).ring cq).next cq with
    | none => simp [hn] at h
    | some w => simp [hn] at h; subst h; simp
@[simp] theorem invalidateCode_mem (s : State) (core : Nat) (vf : Nat) : (State.invalidateCode s core vf).mem = s.mem := (rfl)
@[simp] theorem dropTlb_mem (s : State) (vf : Nat) (page : Nat) (n : Nat) : (State.dropTlb s vf page n).mem = s.mem := (rfl)
@[simp] theorem shoot_mem (s : State) (vf : Nat) (page : Nat) (n : Nat) : (State.shoot s vf page n).mem = s.mem := (rfl)
@[simp] theorem shootLines_mem (s : State) (y1 : Shoot) : (State.shootLines s y1).mem = s.mem := by unfold State.shootLines; simp
@[simp] theorem shootDone_mem (s : State) (id : Nat) : (State.shootDone s id).mem = s.mem := by
  unfold State.shootDone
  refine foldl_mem _ _ _ fun s x => ?_
  dsimp only
  split
  · rfl
  · split <;> simp
@[simp] theorem hintPast_mem (s : State) (c : Ctx) (f : Hints → Hints) : (State.hintPast s c f).mem = s.mem := (rfl)
@[simp] theorem hintTrap_mem (s : State) (c : Ctx) : (State.hintTrap s c).mem = s.mem := by unfold State.hintTrap; simp
@[simp] theorem seqNext_mem (s : State) (t : Nat) : (State.seqNext s t).mem = s.mem := (rfl)
@[simp] theorem answerLanes_mem (s : State) (g : Nat) (m : Word) (kill : Bool) : (State.answerLanes s g m kill).mem = s.mem := by
  unfold State.answerLanes; (repeat' split) <;> simp
@[simp] theorem answerFails_mem (s : State) (t : Nat) : (State.answerFails s t).mem = s.mem := by
  unfold State.answerFails; (repeat' split) <;> simp
@[simp] theorem resume_mem (s : State) (p : Parked) :
    (State.resume s p).mem = s.mem := by
  unfold State.resume; (repeat' split) <;> simp
@[simp] theorem answerParty_mem (s : State) (p : Parked) (act : Nat) : (State.answerParty s p act).mem = s.mem := by
  unfold State.answerParty; (repeat' split) <;> simp
@[simp] theorem answerFault_mem (s : State) (vf : Nat) (fid : Nat) (act : Nat) : (State.answerFault s vf fid act).mem = s.mem := by
  unfold State.answerFault; (repeat' split) <;> simp
@[simp] theorem parkLate_mem (s : State) (g : Nat) : (State.parkLate s g).mem = s.mem := by
  unfold State.parkLate; (repeat' split) <;> simp
@[simp] theorem saveGroup_mem (s : State) (g : Nat) : (State.saveGroup s g).mem = s.mem := by
  unfold State.saveGroup; (repeat' split) <;> simp
@[simp] theorem saveTeam_mem (s : State) (t : Nat) (T : Team) : (State.saveTeam s t T).mem = s.mem := by unfold State.saveTeam; simp
@[simp] theorem repollBlock_mem (s : State) (g : Nat) (b : Block) :
    (State.repollBlock s g b).mem = s.mem := by
  unfold State.repollBlock; split
  · refine foldl_mem _ _ _ ?_; intro s x; cases s.block? g b.id <;> simp
  · rfl
@[simp] theorem wakeGroup_mem (s : State) (g : Nat) :
    (State.wakeGroup s g).mem = s.mem := by
  unfold State.wakeGroup; split
  · rfl
  · refine foldl_mem _ _ _ ?_; intro s x; (repeat' split) <;> simp
@[simp] theorem moveCmds_mem (s : State) (t : Nat) (c : Nat) : (State.moveCmds s t c).mem = s.mem := (rfl)
@[simp] theorem restoreTeam_mem (s : State) (t : Nat) (f : Fit) : (State.restoreTeam s t f).mem = s.mem := by
  unfold State.restoreTeam
  split
  · rfl
  · simp only [State.wake_mem, invalidateAll_mem, answerFault_mem, wakeGroup_mem, foldl_mem, implies_true]
    refine (foldl_mem _ _ _ fun s g => ?_).trans ?_
    · split
      · rfl
      · split <;> simp
    · rw [State.updTeam_mem]; exact foldl_mem _ _ _ fun s g => State.updGroup_mem s g _
theorem hostDone_mem (s : State) (vf : Nat) (sec : Nat) (t : Nat) (x : Txn) :
    ∀ t', State.hostDone s vf sec t x = some t' → t'.mem = s.mem := by
  unfold State.hostDone; dsimp only; (repeat' split) <;> simp
@[simp] theorem hostSend_mem (s : State) (vf : Nat) (w : Nat) (sec : Nat) (v : Nat) :
    (State.hostSend s vf w sec v).mem = s.mem := by unfold State.hostSend; simp
@[simp] theorem sendAnswer_mem (s : State) (dev : Nat) (x : PeerAns) :
    (State.sendAnswer s dev x).mem = s.mem := by unfold State.sendAnswer; simp
@[simp] theorem peerBegin_mem (s : State) (r : PeerReq) (psec : Nat) :
    (State.peerBegin s r psec).mem = s.mem := by
  unfold State.peerBegin; dsimp only; (repeat' split) <;> simp
@[simp] theorem peerServe_mem (s : State) (r : PeerReq) :
    (State.peerServe s r).mem = s.mem := by
  unfold State.peerServe; dsimp only; (repeat' split) <;> simp
@[simp] theorem peerDone_mem (s : State) (t : Nat) (x : Txn) (r : PeerReq) :
    (State.peerDone s t x r).mem = s.mem := by unfold State.peerDone; simp
theorem peerStep_mem (s : State) (y : Nat × PeerReq) :
    ∀ t', State.peerStep s y = some t' → t'.mem = s.mem := by
  unfold State.peerStep; intro t' h; split at h
  · split at h
    · simp only [Option.ite_none_right_eq_some, Option.some.injEq] at h
      rw [← h.2, peerDone_mem]
    · simp only [Option.ite_none_right_eq_some, Option.some.injEq] at h
      rw [← h.2, peerDone_mem]
  · cases h
@[simp] theorem peerAckNext_mem (s : State) (n : Nat) :
    (State.peerAckNext s n).mem = s.mem := by
  unfold State.peerAckNext; (repeat' split) <;> simp
@[simp] theorem bootFrom_mem (s : State) : (State.bootFrom s).mem = s.mem := by unfold State.bootFrom; simp
@[simp] theorem retireAcc_mem (s : State) (c : Nat) :
    (State.retire_ s c).mem = s.mem := by
  unfold State.retire_; dsimp only; (repeat' split) <;> simp
@[simp] theorem resend_mem (s : State) (p : Nat) :
    (State.resend s p).mem = s.mem := by unfold State.resend; simp
@[simp] theorem dropRequest_mem (s : State) (g : Nat) :
    (State.dropRequest s g).mem = s.mem := by
  unfold State.dropRequest; (repeat' split) <;> simp
theorem laneError_mem (s : State) (g : Nat) (l : Nat) : ∀ t', State.laneError s g l = some t' → t'.mem = s.mem := by
  unfold State.laneError
  intro t h
  obtain ⟨G, _, h⟩ := Option.bind_eq_some_iff.1 h
  dsimp only at h
  split at h
  · cases h; simp
  · cases h
@[simp] theorem putConvoy_mem (s : State) (cv : Nat) (v : Convoy) : (State.putConvoy s cv v).mem = s.mem := (rfl)
@[simp] theorem cvReply_mem (s : State) (g : Nat) (cv : Nat) (within : Option Nat) (m : CvMsg) :
    (State.cvReply s g cv within m).mem = s.mem := rfl
@[simp] theorem settle_mem (s : State) (cv : Nat) (old : Option Nat) (v : Convoy) :
    (State.settle s cv old v).mem = s.mem := by
  unfold State.settle; split
  · simp
  · dsimp only; split
    · rw [State.wake_mem]; refine (foldl_mem _ _ _ ?_).trans ?_
      · intro s x; simp
      · rfl
    · simp
@[simp] theorem marshalJoin_mem (s : State) (g : Nat) (G : Group) (d : List Word) : (State.marshalJoin s g G d).mem = s.mem := by
  unfold State.marshalJoin; dsimp only; (repeat' split) <;> simp
@[simp] theorem rearm_mem (s : State) (cv : Nat) (e : Nat) :
    (State.rearm s cv e).mem = s.mem := by
  unfold State.rearm; (repeat' split) <;> simp
@[simp] theorem holdGroup_mem (s : State) (g : Nat) (G : Group) : (State.holdGroup s g G).mem = s.mem := by unfold State.holdGroup; simp
@[simp] theorem prefetchSector_mem (s : State) (G : Group) (r : QWord) (lease : Nat) (ef : Bool) (va : Nat) (pa : Nat) :
    (State.prefetchSector s G r lease ef va pa).mem = s.mem := by unfold State.prefetchSector; simp
@[simp] theorem noteLoop_mem (s : State) (c : Ctx) (target : Word) :
    (State.noteLoop s c target).mem = s.mem := by unfold State.noteLoop; simp
@[simp] theorem askCode_mem (s : State) (core : Nat) (vf : Nat) (va : Nat) (svc : Nat) (pa : Nat) (t : Trans) :
    (State.askCode s core vf va svc pa t).mem = s.mem := by unfold State.askCode; simp
@[simp] theorem fetchAt_mem (s : State) (core : Nat) (vf : Nat) (va : Nat) (svc : Nat) :
    (State.fetchAt s core vf va svc).2.mem = s.mem := by
  unfold State.fetchAt; (repeat' split) <;> simp
@[simp] theorem leaveLoop_mem (s : State) (c : Ctx) (va : Nat) :
    (State.leaveLoop s c va).mem = s.mem := rfl
@[simp] theorem capture_mem (s : State) (c : Ctx) (va : Nat) (w : Nat) :
    (State.capture s c va w).mem = s.mem := rfl
@[simp] theorem fetch_mem (s : State) (c : Ctx) :
    (State.fetch s c).2.mem = s.mem := by
  unfold State.fetch; dsimp only
  split
  · rfl
  · split
    · rfl
    · split
      · simp
      · have h := fetchAt_mem s c.G.core c.G.vf (segBase (c.G.code c.h) + c.pc.toNat) (s.svcOf c.G.team)
        split
        · rename_i h2; rw [h2] at h; simpa using h
        · exact h
@[simp] theorem wordAhead_mem (s : State) (g : Nat) (va : Nat) :
    (State.wordAhead s g va).mem = s.mem := by
  unfold State.wordAhead; split
  · rfl
  · rename_i G _; dsimp only; split
    · rfl
    · have h := fetchAt_mem s G.core G.vf va (s.svcOf G.team)
      split
      · rename_i h2; rw [h2] at h; simpa using h
      · exact h
@[simp] theorem seqFetch_mem (s : State) (t : Nat) (T : Team) :
    (State.seqFetch s t T).2.mem = s.mem := by
  unfold State.seqFetch; (repeat' split) <;> simp
@[simp] theorem seqAhead_mem (s : State) (t : Nat) (va : Nat) :
    (State.seqAhead s t va).mem = s.mem := by
  unfold State.seqAhead; split
  · rfl
  · split
    · rfl
    · rename_i T _ _ r _; split
      · rfl
      · have h := fetchAt_mem s T.core T.vf va r.svc
        split
        · rename_i h2; rw [h2] at h; simpa using h
        · exact h
@[simp] theorem dropBad_mem (s : State) (core : Nat) (vf : Nat) (va : Nat) :
    (State.dropBad s core vf va).mem = s.mem := rfl
@[simp] theorem reservedPath_mem (s : State) (c : Ctx) (v : Nat) :
    (State.reservedPath s c v).mem = s.mem := by unfold State.reservedPath; simp
@[simp] theorem pass_mem (s : State) (n : Nat) : (State.pass s n).mem = s.mem := by
  unfold State.pass; dsimp only
  refine (foldl_mem _ _ _ fun s x => ?_).trans ((foldl_mem _ _ _ fun s x => ?_).trans ((foldl_mem _ _ _ fun s x => ?_).trans rfl))
  · refine foldl_mem _ _ _ fun s y => ?_
    split <;> simp
  · split <;> simp
  · rfl
@[simp] theorem letGo_mem (s : State) (g : Nat) (pc : Word) : (State.letGo s g pc).mem = s.mem := (rfl)
@[simp] theorem outside_mem (s : State) (y1 : Outside) : (State.outside s y1).mem = s.mem := by
  unfold State.outside; (repeat' split) <;> simp
@[simp] theorem learnAhead_mem (s : State) (die : Bool) (n : Nat) (vf : Nat) (va : Nat) :
    (State.learnAhead s die n vf va).mem = s.mem := by unfold State.learnAhead; simp
@[simp] theorem codeAhead_mem (s : State) (core : Nat) (vf : Nat) (va : Nat) :
    (State.codeAhead s core vf va).mem = s.mem := by unfold State.codeAhead; simp


/-! ## Outcomes -/

/-- An outcome that leaves memory at `m`, if it is a next state. -/
def Leaves (m : List Host.Cell) (r : Result) : Prop := ∀ t, r = .next t → t.mem = m
theorem Leaves.next {m : List Host.Cell} {t : State} (h : t.mem = m) : Leaves m (.next t) := by intro u hu; cases hu; exact h
theorem Leaves.fault {m : List Host.Cell} (f : Fault) : Leaves m (.fault f) := by intro u hu; cases hu
theorem Leaves.refused {m : List Host.Cell} (f : Refusal) : Leaves m (.refused f) := by intro u hu; cases hu

theorem issueOne_mem (i : Info) (k : Ctx → State → State) (c : Ctx) (s : State) (h : ∀ c u, (k c u).mem = u.mem) : (issueOne i k c s).mem = s.mem := by
  have hc : ∀ c s, (issueChecked i k c s).mem = s.mem := by
    intro c s; unfold issueChecked; (repeat' split) <;> simp [h]
  unfold issueOne; (repeat' split) <;> simp [hc]
theorem issueMixed_mem (i : Ctx → Info) (k : Ctx → State → State) (c : Ctx) (s : State) (h : ∀ c u, (k c u).mem = u.mem) : (issueMixed i k c s).mem = s.mem := by
  unfold issueMixed
  split
  · rfl
  · split
    · simp
    · split
      · exact eachClass_mem _ _ _ fun d s => by simp
      · exact eachClass_mem _ _ _ fun d s => issueOne_mem _ _ _ _ h
theorem issueAt_mem (i : Ctx → Info) (k : Ctx → State → State) (c : Ctx) (s : State) (h : ∀ c u, (k c u).mem = u.mem) : (issueAt i k c s).mem = s.mem := by
  unfold issueAt; split
  · exact issueOne_mem _ _ _ _ h
  · exact issueMixed_mem _ _ _ _ h
theorem issueBy_leaves (i : Ctx → Info) (k : Ctx → State → State) (s : State) (h : ∀ c u, (k c u).mem = u.mem) : Leaves s.mem (issueBy i k s) := by
  unfold issueBy
  split
  · exact .fault _
  · split
    · split
      · exact .next (by simp)
      · exact .fault _
    · exact .fault _
  · split
    · exact .next (issueAt_mem _ _ _ _ h)
    · exact .fault _
theorem issue_leaves (i : Info) (k : Ctx → State → State) (s : State) (h : ∀ c u, (k c u).mem = u.mem) : Leaves s.mem (issue i k s) :=
  issueBy_leaves _ _ _ h
theorem issueHint_leaves (w : Bool) (k : Ctx → State → State) (s : State) (h : ∀ c u, (k c u).mem = u.mem) : Leaves s.mem (issueHint w k s) := by
  unfold issueHint
  split
  · exact .fault _
  · split
    · split
      · exact .next (by simp)
      · exact .fault _
    · exact .fault _
  · split
    · exact .fault _
    · refine .next ?_
      (repeat' split) <;> simp [h]
theorem mxIssue_leaves (k : Nat → Team → State → State) (s : State) (h : ∀ t T u, (k t T u).mem = u.mem) : Leaves s.mem (mxIssue k s) := by
  unfold mxIssue
  split
  · exact .fault _
  · split
    · split
      · exact .next (h _ _ _)
      · exact .fault _
    · exact .fault _
  · split
    · exact .next (by simp)
    · exact .fault _
theorem eventOf_leaves {m : List Host.Cell} (n : String) (r : Option State) (h : ∀ t, r = some t → t.mem = m) : Leaves m (eventOf n r) := by
  unfold eventOf; split
  · exact .next (h _ rfl)
  · exact .refused _

/-! ## What stores keeps the canonical form -/

theorem engineWrite_wf {s : State} (h : Memory.wf s.mem = true) (key psec : Nat) (mask : DWord) (x : BitVec 512) :
    Memory.wf (s.engineWrite key psec mask x).1.mem = true :=
  State.storeSector_wf (s := s.updUnit (homeDie psec) (homeUnit psec) fun U => U.closeSec psec) h key psec mask x

theorem foldl_wf {α : Type} (f : State → α → State) (l : List α) (h : ∀ s x, Memory.wf s.mem = true → Memory.wf (f s x).mem = true) :
    ∀ s, Memory.wf s.mem = true → Memory.wf (l.foldl f s).mem = true := by
  induction l with
  | nil => exact fun _ hz => hz
  | cons x xs ih => exact fun s hs => ih _ (h s x hs)

theorem drainOne_wf {s : State} (h : Memory.wf s.mem = true) (vf : Nat) (cq : Bool) :
    ∀ t, s.drainOne vf cq = some t → Memory.wf t.mem = true := by
  intro t ht
  unfold State.drainOne at ht
  cases hn : ((s.vf vf).ring cq).next cq with
  | none => rw [hn] at ht; cases ht
  | some ws =>
    rw [hn] at ht; cases ht
    rw [ringOn_mem]
    exact foldl_wf _ _ (fun s p hs => engineWrite_wf hs _ _ _ _) _ h

theorem drainRings_wf (vf n : Nat) {s : State} (h : Memory.wf s.mem = true) : Memory.wf (State.drainRings vf n s).mem = true := by
  induction n generalizing s with
  | zero => exact h
  | succ n ih =>
    unfold State.drainRings
    split
    · rename_i ht; exact ih (drainOne_wf h vf true _ ht)
    · split
      · rename_i ht; exact ih (drainOne_wf h vf false _ ht)
      · exact h

theorem disable_wf {s : State} (h : Memory.wf s.mem = true) (vf : Nat) : Memory.wf (s.disable vf).mem = true := by
  unfold State.disable
  dsimp only
  refine drainRings_wf _ _ ?_
  rw [foldl_mem]
  · exact h
  · intro s x; split <;> simp

theorem writeVf_wf {s : State} (h : Memory.wf s.mem = true) (vf x : Nat) : Memory.wf (s.writeVf vf x).mem = true := by
  unfold State.writeVf
  dsimp only
  split
  · split
    · exact h
    · exact disable_wf (by rw [State.updVf_mem]; exact h) vf
  · split
    · split <;> exact h
    · exact h

end Sys2Proof.Machine
end

