-- ==== Sys2Proof/Laws/Sends.lean ====
section
/-! SUPPORT. What issuing an access leaves (R122, R123, R274, R275, R411): the plan of an access, its lanes, and `State.access`. -/

namespace Sys2Proof.Machine

/-! ## Plans -/

/-- Two states agree but for what is cached of translations (R408), and what the checks of the sectors that walks have read have corrected and
counted (R399). -/
def LikeTlb (s u : State) : Prop :=
  (∃ cs ds sd rc, u = { s with
    cores := cs
    dies := ds
    side := sd
    rowCorr := rc }) ∧
  (∀ j, u.core j = { s.core j with tlb := (u.core j).tlb }) ∧
  ∀ j, u.die j = { s.die j with
    corr := (u.die j).corr
    parity := (u.die j).parity }

theorem LikeTlb.refl (s : State) : LikeTlb s s := ⟨⟨s.cores, s.dies, s.side, s.rowCorr, rfl⟩, fun _ => rfl, fun _ => rfl⟩

theorem LikeTlb.trans {s u v : State} (h : LikeTlb s u) (k : LikeTlb u v) : LikeTlb s v := by
  obtain ⟨⟨_, _, _, _, rfl⟩, h2, h3⟩ := h
  obtain ⟨⟨cs, ds, sd, rc, rfl⟩, k2, k3⟩ := k
  exact ⟨⟨cs, ds, sd, rc, rfl⟩, fun j => by rw [k2 j, h2 j], fun j => by rw [k3 j, h3 j]⟩

theorem State.updDie_like (s : State) (d : Nat) (f : Die → Die) (h : ∀ D, f D = { D with
    corr := (f D).corr
    parity := (f D).parity }) : LikeTlb s (s.updDie d f) := by
  refine ⟨⟨_, _, _, _, rfl⟩, fun _ => rfl, fun j => ?_⟩
  simp only [State.die, State.updDie]
  rw [SMap.get_put]
  split
  · rename_i e; subst e; exact h _
  · rfl

theorem State.checked_like (s : State) (key psec : Nat) : LikeTlb s (s.checked key psec) := by
  unfold State.checked
  split
  · exact LikeTlb.refl s
  · split
    · obtain ⟨⟨cs, ds, sd, rc, h1⟩, h2⟩ := State.updDie_like s (homeDie psec) (fun D => { D with corr := satInc D.corr }) fun D => rfl
      refine ⟨⟨cs, ds, _, _, by unfold State.corrected; dsimp only; rw [h1]⟩, h2⟩
    · split
      · exact State.updDie_like s _ _ fun D => rfl
      · exact LikeTlb.refl s

theorem State.checks_like (l : List (Nat × Nat)) (s : State) : LikeTlb s (l.foldl (fun s (k, p) => s.checked k p) s) := by
  induction l generalizing s with
  | nil => exact LikeTlb.refl s
  | cons x l ih => exact (State.checked_like s x.1 x.2).trans (ih _)

theorem State.learn_like (s : State) (k : Nat) (t : Trans) : LikeTlb s (s.learn k t) := by
  have h : LikeTlb s (s.updCore k fun c => { c with tlb := tlbAdd c.tlb t.walked.path }) := by
    refine ⟨⟨_, s.dies, s.side, s.rowCorr, rfl⟩, fun j => ?_, fun _ => rfl⟩
    simp only [State.core, State.updCore]
    rw [SMap.get_put]
    split
    · rename_i h; subst h; rfl
    · rfl
  exact h.trans (State.checks_like _ _)

theorem State.learns_like (k : Nat) (ts : List (Nat × Trans)) (s : State) : LikeTlb s (ts.foldl (fun s x => s.learn k x.2) s) := by
  induction ts generalizing s with
  | nil => exact LikeTlb.refl s
  | cons x ts ih => exact (State.learn_like s k x.2).trans (ih _)

/-- The plan of an access changes no part of the state but what is cached of translations and the place of free values (R408). -/
theorem State.plan_st (s : State) (core : Nat) (G : Group) (r : QWord) (width : Nat) (w : Want) (idx : List (Nat × Int)) :
    ∃ u n, LikeTlb s u ∧ (s.plan core G r width w idx).st = u.draw n := ⟨_, _, State.learns_like core _ s, rfl⟩

/-- Where no page faults, every lane of an access is among those that go on or among those out of bounds. -/
theorem State.plan_lanes (s : State) (core : Nat) (G : Group) (r : QWord) (width : Nat) (w : Want) (idx : List (Nat × Int))
    (h : (s.plan core G r width w idx).faults = []) (l : Nat) :
    l ∈ (s.plan core G r width w idx).good.map (·.1) ++ (s.plan core G r width w idx).oob ↔ l ∈ idx.map (·.1) := by
  unfold State.plan State.planBy at h ⊢
  dsimp only at h ⊢
  generalize hraw : idx.map (fun x => (x.1, s.laneBytes G r x.2 width w)) = raw at h ⊢
  generalize hinb : raw.filterMap (fun x => x.2.map fun ls => (x.1, ls)) = inb at h ⊢
  generalize hts : ((distinct [] (inb.flatMap fun x => (globVas x.2).map (· / 4096))).zipIdx).map
      (fun x => (x.1, s.translate (s.core core).tlb G.vf (x.1 * 4096) w (s.fresh + 1 + x.2))) = ts at h ⊢
  have hidx : idx.map (·.1) = raw.map (·.1) := by rw [← hraw]; simp
  have hall : ∀ x ∈ inb, (!((globVas x.2).any fun va => (ts.filter fun x => match x.2 with | .ok _ _ => false | .fault _ _ _ => true).any
      (·.1 == va / 4096))) = true := by
    intro x hx
    rw [Bool.not_eq_true', ← Bool.not_eq_true]
    intro hn
    rw [List.any_eq_true] at hn
    obtain ⟨va, hva, hbad⟩ := hn
    rw [List.any_eq_true] at hbad
    obtain ⟨⟨p', t⟩, hm, hpp⟩ := hbad
    simp only [beq_iff_eq] at hpp
    subst hpp
    have hf := List.filterMap_eq_nil_iff.1 h _ hm
    have ht := (List.mem_filter.1 hm).2
    cases t with
    | ok _ _ => simp at ht
    | fault c v _ =>
      dsimp only at hf
      split at hf
      · rename_i he
        rw [List.isEmpty_iff, List.filter_eq_nil_iff] at he
        exact he x hx (List.any_eq_true.2 ⟨va, hva, beq_self_eq_true _⟩)
      · cases hf
  erw [List.filter_eq_self.2 hall]
  rw [hidx]
  simp only [List.map_map, Function.comp_def, List.mem_append]
  rw [← hinb]
  simp only [List.mem_map, List.mem_filterMap, Option.map_eq_some_iff]
  constructor
  · rintro (⟨x, ⟨y, hy, ls, h1, rfl⟩, rfl⟩ | ⟨y, hy, h1⟩)
    · exact ⟨y, hy, rfl⟩
    · refine ⟨y, hy, ?_⟩
      split at h1
      · cases h1; rfl
      · cases h1
  · rintro ⟨y, hy, rfl⟩
    cases hb : y.2 with
    | none => exact .inr ⟨y, hy, by simp [hb]⟩
    | some ls => exact .inl ⟨(y.1, ls), ⟨y, hy, ls, hb, rfl⟩, rfl⟩

/-! ## One group, step by step -/

/-- A state that is another but for one group, what walks of page tables leave, and the counters. -/
def AtGroup (g : Nat) (s u : State) (G : Group) (n : Nat) : Prop :=
  (∃ cs ds sd rc f, u = { s with
    groups := SMap.put s.groups g G
    cores := cs
    dies := ds
    side := sd
    rowCorr := rc
    fresh := f
    uid := n }) ∧
  (∀ j, u.core j = { s.core j with tlb := (u.core j).tlb }) ∧
  ∀ j, u.die j = { s.die j with
    corr := (u.die j).corr
    parity := (u.die j).parity }

theorem AtGroup.upd {g : Nat} {s u : State} {G : Group} {n : Nat} (h : AtGroup g s u G n) (f : Group → Group) :
    AtGroup g s (u.updGroup g f) (f G) n := by
  obtain ⟨⟨cs, ds, sd, rc, k, rfl⟩, h2⟩ := h
  refine ⟨⟨cs, ds, sd, rc, k, ?_⟩, h2⟩
  rw [State.updGroup, SMap.upd_some _ _ _ G (SMap.find?_put_self _ _ _)]
  simp only [SMap.put_put]

theorem AtGroup.bump {g : Nat} {s u : State} {G : Group} {n : Nat} (h : AtGroup g s u G n) : AtGroup g s u.bump G (n + 1) := by
  obtain ⟨⟨cs, ds, sd, rc, k, rfl⟩, h2⟩ := h
  exact ⟨⟨cs, ds, sd, rc, k, rfl⟩, h2⟩

theorem AtGroup.draw {g : Nat} {s u : State} {G : Group} {n : Nat} (h : AtGroup g s u G n) (m : Nat) : AtGroup g s (u.draw m) G n := by
  obtain ⟨⟨cs, ds, sd, rc, k, rfl⟩, h2⟩ := h
  exact ⟨⟨cs, ds, sd, rc, k + m, rfl⟩, h2⟩

theorem AtGroup.group {g : Nat} {s u : State} {G : Group} {n : Nat} (h : AtGroup g s u G n) : u.group? g = some G := by
  obtain ⟨⟨cs, ds, sd, rc, k, rfl⟩, _⟩ := h
  exact SMap.find?_put_self _ _ _

theorem AtGroup.uid {g : Nat} {s u : State} {G : Group} {n : Nat} (h : AtGroup g s u G n) : u.uid = n := by
  obtain ⟨⟨cs, ds, sd, rc, k, rfl⟩, _⟩ := h
  rfl

theorem AtGroup.now {g : Nat} {s u : State} {G : Group} {n : Nat} (h : AtGroup g s u G n) : u.now = s.now := by
  obtain ⟨⟨cs, ds, sd, rc, k, rfl⟩, _⟩ := h
  rfl

/-- Is an entry still of use in the access order? -/
def Acc.stays (a : Acc) (now : Nat) : Bool := !(a.perf && a.wait == 0 && !a.acqOpen now)

theorem AtGroup.sweep {g : Nat} {s u : State} {G : Group} {n : Nat} (h : AtGroup g s u G n) (he : G.ended = false) :
    AtGroup g s (u.sweep g) { G with acc := G.acc.filter fun a => a.stays s.now } n := by
  have h1 := h.upd fun G => { G with acc := G.acc.filter fun a => !(a.perf && a.wait == 0 && !a.acqOpen u.now) }
  rw [h.now] at h1
  have hs : u.sweep g = u.updGroup g fun G => { G with acc := G.acc.filter fun a => !(a.perf && a.wait == 0 && !a.acqOpen s.now) } := by
    unfold State.sweep State.bury
    rw [h.now, h1.group]
    simp [he]
  rw [hs]
  exact h1

theorem AtGroup.retire {g : Nat} {s u : State} {G : Group} {n : Nat} (h : AtGroup g s u G n) (c : Ctx) (hc : c.g = g) :
    AtGroup g s (u.retire c) (G.moveTo c.mask fun _ t => t.pc + 4) n := by
  subst hc
  exact (h.upd _).draw 1

/-- Blocking a path whose group has changed since. -/
theorem AtGroup.block {s u : State} {c : Ctx} {G : Group} {n : Nat} (h : AtGroup c.g s u G n)
    (hr : ∀ l, c.has l = true → (G.lane l).st = .ready) (k : Cond) :
    ∃ H, AtGroup c.g s (u.blockPath c k) H (n + 1) ∧
      H = { G with
        lanes := H.lanes
        blk := G.blk ++ [⟨n, c.mask, c.pc, c.first, k, none, s.now, 0, false, c.mask == 0⟩]
        hnd := if c.mask = 0 then G.hnd.map fun H => { H with
          ready := false
          hints := Hints.clear } else G.hnd } ∧
      ∀ l, H.lane l = if c.has l then { G.lane l with
        st := .blocked n
        hints := Hints.clear } else G.lane l := by
  obtain ⟨H, h1, h2, h3⟩ := State.blockPath_eq (c := { c with G := G }) h.group hr k
  have e : u.blockPath { c with G := G } k = u.blockPath c k := rfl
  rw [e] at h1
  have hu := h.uid
  have hn := h.now
  refine ⟨H, ?_, ?_, ?_⟩
  · obtain ⟨⟨cs, ds, sd, rc, f, rfl⟩, hk⟩ := h
    simp only at hu hn
    rw [h1]
    refine ⟨⟨cs, ds, sd, rc, f + 1, ?_⟩, hk⟩
    simp only [SMap.put_put]
  · unfold Ctx.block at h2; rw [hu, hn] at h2; exact h2
  · intro l; rw [← hu]; exact h3 l

theorem AtGroup.start {s u : State} (g : Nat) {G : Group} (h : LikeTlb s u) (hg : s.group? g = some G) (n : Nat) :
    AtGroup g s (u.draw n) G s.uid := by
  obtain ⟨⟨cs, ds, sd, rc, rfl⟩, h2⟩ := h
  refine ⟨⟨cs, ds, sd, rc, s.fresh + n, ?_⟩, h2⟩
  rw [State.group?] at hg
  simp only [SMap.put_find _ _ _ hg]
  rfl

/-! ## The access -/

theorem mem_foldl_updLanes_none (ls : List Nat) (G : Group) (l : Nat) :
    (G.updLanes ls fun _ t => { t with cstep := none }).lane l = if l ∈ ls then { G.lane l with cstep := none } else G.lane l := by
  induction ls generalizing G with
  | nil => rfl
  | cons x ls ih =>
    show (Group.updLanes (G.updLane x _) ls _).lane l = _
    rw [ih, Group.lane_updLane]
    by_cases h1 : l = x <;> by_cases h2 : l ∈ ls <;> simp [h1, h2]

/-- Does the C load of a path count a step: has some lane that makes it none to its credit (R263)? -/
def Ctx.stepDue (c : Ctx) : Bool := (lanesOf c.mask).any fun l => (c.G.lane l).cstep != some c.pc

/-- Issuing an access of which every lane goes on: what it leaves (R122, R123, R274, R275, R279), before a C load of a convoy counts its
step (R263). `hi` says that there is an index for each lane of the path, or one for all. -/
theorem State.access_spec {s t : State} {c : Ctx} (h : Found s c t) (q : Asked)
    (hi : if q.uniform then q.idx ≠ [] else q.idx.map (·.1) = lanesOf c.mask) (hu : q.uniform = true → q.cload = false)
    (hg : (q.plan c t).goes q.record) (hp : (q.plan c t).peer = false) (ef na : Bool) (le : Nat) :
    ∃ w, Sends c t q (.next w) ∧
      t.access c q.kind q.record q.width q.sext q.want q.idx q.uniform ef na q.cload le q.acq q.rel q.dst q.data q.cmp =
        if q.cload && c.stepDue then w.convoyStep c.g c.mask c.pc else w := by
  obtain ⟨u, m, hl, hst⟩ := State.plan_st t c.G.core c.G q.record q.width q.want q.idx
  have hlanes := State.plan_lanes t c.G.core c.G q.record q.width q.want q.idx hg.1
  have hst' : (q.plan c t).st = u.draw m := hst
  have hpl : t.plan c.G.core c.G q.record q.width q.want q.idx = q.plan c t := rfl
  rw [hpl] at hlanes hst
  unfold State.access
  rw [hpl]
  generalize hP : q.plan c t = P at *
  -- nothing is stopped
  have hoob : (recOob q.record == 1) = true → P.oob = [] := by
    intro e
    rcases hg.2 with h1 | h1
    · simp only [beq_iff_eq] at e; exact absurd e h1
    · exact h1
  have hP1 : (if (recOob q.record == 1) = true then { P with oob := [] } else P) = P := by
    split
    · rename_i e; rw [← hoob e]
    · rfl
  have hstop : P.st.stopLanes c P q.want q.uniform (recOob q.record == 1) = u.draw m := by
    unfold State.stopLanes
    simp only [hg.1, List.foldl_nil]
    rw [if_neg (by rintro ⟨h1, h2, _⟩; exact h2 (hoob h1)), hst']
  have hns : ¬(P.faults ≠ [] ∨ ((recOob q.record == 1) = true ∧ P.oob ≠ [])) := by
    rintro (h1 | ⟨h1, h2⟩)
    · exact h1 hg.1
    · exact h2 (hoob h1)
  have hne : ¬((q.uniform = true ∧ (P.faults ≠ [] ∨ ((recOob q.record == 1) = true ∧ P.oob ≠ []))) ∨
      (c.mask ≠ 0 ∧ P.good = [] ∧ P.oob = [])) := by
    rintro (⟨_, h1⟩ | ⟨h0, h1, h2⟩)
    · exact hns h1
    · have hemp : q.idx.map (·.1) = [] := by
        rw [List.eq_nil_iff_forall_not_mem]
        intro l hl'
        have := (hlanes l).2 hl'
        simp [h1, h2] at this
      cases hu : q.uniform with
      | true => rw [hu] at hi; simp only [if_true] at hi; exact hi (List.map_eq_nil_iff.1 hemp)
      | false =>
        rw [hu] at hi; simp only [Bool.false_eq_true, if_false] at hi
        exact lanesOf_ne_nil h0 (hi.symm.trans hemp)
  have hmask : (if q.uniform = true then c.mask else maskOf (P.good.map (·.1) ++ P.oob)) = c.mask := by
    cases hu : q.uniform with
    | true => rfl
    | false =>
      rw [hu] at hi; simp only [Bool.false_eq_true, if_false] at hi ⊢
      rw [maskOf_congr hlanes, hi, maskOf_lanesOf]
  simp only [hstop, hP1]
  rw [if_neg hne, hmask]
  have hctx : ({ c with mask := c.mask } : Ctx) = c := rfl
  rw [hctx]
  have hA := AtGroup.start c.g hl h.group m
  have huid := hA.uid
  -- the release
  generalize hs1 : (if q.rel = 0 then u.draw m else ((u.draw m).addAcc c.g (fenceAcc (u.draw m).uid c (.release q.rel))).bump) = s1
  obtain ⟨K1, pid, hA1, hpid, hK1, hK1r⟩ : ∃ K1 pid, AtGroup c.g t s1 K1 pid ∧ t.uid ≤ pid ∧
      K1 = { c.G with acc := c.G.acc ++ if q.rel = 0 then [] else [fenceAcc t.uid c (.release q.rel)] } ∧
      (q.rel ≠ 0 → t.uid + 1 = pid) := by
    by_cases hr : q.rel = 0
    · rw [if_pos hr] at hs1; subst hs1
      exact ⟨_, _, hA, Nat.le_refl _, by simp [hr], fun h => absurd hr h⟩
    · rw [if_neg hr] at hs1; subst hs1
      refine ⟨_, _, (hA.upd _).bump, Nat.le_succ _, ?_, fun _ => rfl⟩
      rw [huid]; simp [hr]
  rw [hA1.uid]
  generalize ha : (⟨pid + 1, c.mask, q.kind, accLanes P q.width q.data q.cmp, q.width, q.sext, q.dst.map fun _ => pid, q.acq,
    recClass q.record, recBudget q.record, le, ef, na, q.cload, q.uniform, false, 0, false, 0, c.first⟩ : Acc) = a
  have hpeer : (a.isPeer && !(P.good == [])) = false := by
    have : a.isPeer = false := by
      rw [← ha]
      simp only [Acc.isPeer, accLanes, List.any_append, List.any_map, Function.comp_def, Bool.or_eq_false_iff]
      refine ⟨hp, ?_⟩
      simp
    simp [this]
  rw [hpeer]
  -- the result, or the flag
  generalize hv : (if (P.good == []) = true then some ((accLanes P q.width q.data q.cmp).map a.laneVal) else none) = v
  have hvv : v = if P.good = [] then some (P.oob.map fun l => ⟨l, List.replicate (max 1 (q.width / 4)) 0, flagOOB, false⟩) else none := by
    rw [← hv]
    by_cases hgd : P.good = []
    · rw [if_pos hgd, if_pos (by simp [hgd]), ← ha]
      simp [accLanes, hgd, List.map_map, Function.comp_def, Acc.laneVal]
    · rw [if_neg hgd, if_neg (by simp [hgd])]
  have hfl : (if q.dst.isSome = true ∨ P.oob = [] then 0 else if q.uniform = true then c.mask else maskOf P.oob) = q.flagged c P := rfl
  rw [hfl]
  have hfin : ∀ l, (q.flagged c P).getLsbD l = true ↔ (c.has l = true ∧ q.dst = none ∧ P.outside q.uniform l = true) := by
    intro l
    unfold Asked.flagged Plan.outside
    by_cases hd : q.dst = none
    · by_cases ho : P.oob = []
      · simp [hd, ho]
      · simp only [hd, Option.isSome_none, Bool.false_eq_true, ho, or_self, if_false, true_and]
        cases hu : q.uniform with
        | true => simp [ho, Ctx.has]
        | false =>
          simp only [Bool.false_eq_true, if_false]
          rw [hu] at hi; simp only [Bool.false_eq_true, if_false] at hi
          rw [getLsbD_maskOf]
          simp only [Bool.and_eq_true, decide_eq_true_eq]
          constructor
          · rintro ⟨_, h2⟩
            refine ⟨?_, h2⟩
            have := (hlanes l).1 (by simp only [List.contains_iff_mem] at h2; exact List.mem_append_right _ h2)
            rw [hi, mem_lanesOf] at this; exact this
          · rintro ⟨h1, h2⟩
            refine ⟨?_, h2⟩
            by_contra hlt
            have := BitVec.getLsbD_of_ge c.mask l (by omega)
            rw [Ctx.has, this] at h1; cases h1
    · obtain ⟨d, hd'⟩ := Option.ne_none_iff_exists'.1 hd
      simp [hd']
  generalize hfe : (if stays false q.rel = true then (0 : Word) else q.flagged c P) = fe
  have hfe' : ∀ l, fe.getLsbD l = true ↔ (q.rel < 6 ∧ c.has l = true ∧ q.dst = none ∧ P.outside q.uniform l = true) := by
    intro l
    rw [← hfe, ← hfin]
    by_cases hr : q.rel < 6
    · rw [if_neg (by simp [stays]; omega)]; simp [hr]
    · rw [if_pos (by simp [stays]; omega)]; simp [hr]
  generalize hs2 : s1.startAccess c pid c.mask q.dst v fe = s2
  obtain ⟨K2, hA2, hK2, hw2, hl2⟩ : ∃ K2, AtGroup c.g t s2 K2 pid ∧
      K2 = { K1 with
        lanes := K2.lanes
        pend := c.G.pend ++ (q.dst.map fun d => (⟨pid, c.mask, c.first, d, v, none⟩ : Pend)).toList
        wins := K2.wins } ∧
      (match q.dst with
       | none => K2.wins = c.G.wins
       | some d => ∃ w, K2.wins = w :: c.G.wins ∧ w.id = pid ∧ w.mask = c.mask ∧ w.dst = d ∧ w.written = false ∧ w.hit = []) ∧
      ∀ l, K2.lane l = if q.rel < 6 ∧ c.has l = true ∧ q.dst = none ∧ P.outside q.uniform l = true then
        { c.G.lane l with tsr := (c.G.lane l).tsr ||| flagOOB } else c.G.lane l := by
    have hKp : K1.pend = c.G.pend := by rw [hK1]
    have hKw : K1.wins = c.G.wins := by rw [hK1]
    have hKl : ∀ l, K1.lane l = c.G.lane l := by intro l; rw [hK1]; rfl
    cases hd : q.dst with
    | some d =>
      simp only [State.startAccess, hd] at hs2; subst hs2
      refine ⟨_, hA1.upd _, ?_, ?_, ?_⟩
      · simp [Group.start, Group.openWindow, hKp]
      · exact ⟨_, by simp only [Group.start, Group.openWindow, hKw]; rfl, rfl, rfl, rfl, rfl, rfl⟩
      · intro l
        show K1.lane l = _
        rw [hKl]; simp
    | none =>
      simp only [State.startAccess, hd] at hs2
      by_cases ho : fe = 0
      · rw [if_pos ho] at hs2; subst hs2
        refine ⟨_, hA1, ?_, hKw, ?_⟩
        · simp [← hKp]
        · intro l
          rw [hKl, if_neg]
          have := hfe' l
          rw [hd] at this
          rw [← this, ho]; simp
      · rw [if_neg ho] at hs2; subst hs2
        refine ⟨_, hA1.upd _, ?_, ?_, ?_⟩
        · simp only [Group.flagAll]; rw [Group.updLanes_eq]; simp [← hKp]
        · simp only [Group.flagAll]; rw [Group.updLanes_eq]; exact hKw
        · intro l
          simp only [Group.flagAll]
          rw [Group.lane_updLanes _ (lanesOf_nodup _), hKl]
          have := hfe' l
          rw [hd] at this
          simp only [mem_lanesOf, this, Thread.flag]
  -- the access
  have hK1e : K1.ended = false := by rw [hK1]; exact h.alive
  generalize hs3 : (if (P.good == []) = true then s2 else s2.addAcc c.g a) = s3
  obtain ⟨K3, hA3, hK3⟩ : ∃ K3, AtGroup c.g t s3 K3 pid ∧
      K3 = { K2 with acc := K2.acc ++ if P.good = [] then [] else [a] } := by
    by_cases hgd : P.good = []
    · rw [if_pos (by simp [hgd])] at hs3; subst hs3
      exact ⟨_, hA2, by simp [hgd]⟩
    · rw [if_neg (by simp [hgd])] at hs3; subst hs3
      exact ⟨_, hA2.upd _, by simp [hgd]⟩
  have hK2e : K2.ended = false := by rw [hK2]; exact hK1e
  have hK3e : K3.ended = false := by rw [hK3]; exact hK2e
  have hA4 := (hA3.bump.bump).sweep hK3e
  generalize hK4 : ({ K3 with acc := K3.acc.filter fun a => a.stays t.now } : Group) = K4 at hA4
  have hacc : K4.acc = ((c.G.acc ++ if q.rel = 0 then [] else [fenceAcc t.uid c (.release q.rel)]) ++
      if P.good = [] then [] else [a]).filter fun a => a.stays t.now := by
    rw [← hK4, hK3]
    have : K2.acc = c.G.acc ++ if q.rel = 0 then [] else [fenceAcc t.uid c (.release q.rel)] := by rw [hK2, hK1]
    rw [this]
  have hK4l : ∀ l, K4.lane l = K2.lane l := by intro l; rw [← hK4, hK3]; rfl
  have hK4' : K4 = { c.G with
      lanes := K4.lanes
      acc := K4.acc
      pend := c.G.pend ++ (q.dst.map fun d => (⟨pid, c.mask, c.first, d, v, none⟩ : Pend)).toList
      wins := K4.wins } := by
    rw [← hK4, hK3, hK2, hK1]
  have hK4w : K4.wins = K2.wins := by rw [← hK4, hK3]
  have hK4h : K4.hnd = c.G.hnd := by rw [hK4']
  have hK4b : K4.blk = c.G.blk := by rw [hK4']
  have hready : ∀ l, c.has l = true → (K4.lane l).st = .ready := by
    intro l hl'
    rw [hK4l, hl2 l]
    split
    · exact (h.ready l hl').1
    · exact (h.ready l hl').1
  have hgen : ∀ (H : Group) (w : State) (bid n : Nat), AtGroup c.g t w H n → H.acc = K4.acc → H.wins = K4.wins →
      H = { c.G with
        lanes := H.lanes
        hnd := if q.rel < 6 then c.handlerAt (· + 4)
          else if c.mask = 0 then c.G.hnd.map fun H => { H with
            ready := false
            hints := Hints.clear } else c.G.hnd
        acc := H.acc
        pend := c.G.pend ++ (q.dst.map fun d => (⟨pid, c.mask, c.first, d, v, none⟩ : Pend)).toList
        wins := H.wins
        blk := c.G.blk ++ (if q.rel < 6 then [] else [⟨bid, c.mask, c.pc, c.first, .fence t.uid (q.flagged c P), none, t.now, 0, false, c.mask == 0⟩]) } →
      (∀ l, H.lane l = if c.has l = true then { (if q.rel < 6 then (K4.lane l).at_ ((K4.lane l).pc + 4) else { K4.lane l with
        st := .blocked bid
        hints := Hints.clear }) with
          cstep := if q.cload = true then none else (c.G.lane l).cstep } else K4.lane l) →
      Sends c t q (.next w) := by
    intro H w bid n hAt hHa hHw hHe hHl
    unfold Sends
    rw [hP]
    dsimp only
    obtain ⟨⟨cs, ds, sd, rc, f, hw⟩, hcore, hdie⟩ := hAt
    refine ⟨w, H, t.uid, pid, bid, rfl, Nat.le_refl _, hpid, ?_, hcore, hdie, ?_, ?_, ?_, ?_, ?_, ?_, ?_⟩
    · subst hw; rfl
    · rw [← hvv]; exact hHe
    · rw [hHw, hK4w]; exact hw2
    · intro l
      rw [hHl l, hK4l, hl2 l]
      by_cases hc : c.has l = true
      · simp only [hc, if_true, true_and]
        by_cases hr : q.rel < 6
        · simp only [hr, if_true, true_and]
          by_cases ho : q.dst = none ∧ P.outside q.uniform l = true
          · simp only [ho, and_self, if_true]; rfl
          · rw [if_neg ho, if_neg ho]; rfl
        · simp only [hr, if_false, false_and]
      · simp only [hc, if_false, false_and, and_false, Bool.false_eq_true]
    · intro hgd
      refine ⟨a, ?_, ?_⟩
      · rw [hHa, hacc, List.mem_filter]
        refine ⟨?_, ?_⟩
        · simp [hgd]
        · rw [← ha]; simp [Acc.stays]
      · rw [← ha]; exact ⟨rfl, rfl, rfl, rfl, rfl, rfl, rfl, rfl, rfl, rfl, rfl, rfl⟩
    · intro hr
      rw [hHa, hacc, List.mem_filter]
      refine ⟨?_, ?_⟩
      · simp [hr]
      · simp [Acc.stays, fenceAcc]
    · intro b hb
      rw [hHa, hacc, List.mem_filter] at hb
      have hb1 := hb.1
      simp only [List.mem_append] at hb1
      rcases hb1 with (h1 | h1) | h1
      · exact .inl h1
      · split at h1
        · cases h1
        · simp only [List.mem_singleton] at h1; subst h1; exact .inr (Nat.le_refl _)
      · split at h1
        · cases h1
        · simp only [List.mem_singleton] at h1; subst h1; rw [← ha]; exact .inr (by simp only; omega)
    · intro b hb hs
      rw [hHa, hacc, List.mem_filter]
      exact ⟨by simp [hb], by simp [Acc.stays, hs]⟩
  -- the step of a C load
  have hK4c : ∀ l, (K4.lane l).cstep = (c.G.lane l).cstep := by
    intro l; rw [hK4l, hl2 l]; split <;> rfl
  have hstep : ∀ (H : Group) (w : State) (bid n : Nat), AtGroup c.g t w H n → H.acc = K4.acc → H.wins = K4.wins →
      H = { c.G with
        lanes := H.lanes
        hnd := if q.rel < 6 then c.handlerAt (· + 4)
          else if c.mask = 0 then c.G.hnd.map fun H => { H with
            ready := false
            hints := Hints.clear } else c.G.hnd
        acc := H.acc
        pend := c.G.pend ++ (q.dst.map fun d => (⟨pid, c.mask, c.first, d, v, none⟩ : Pend)).toList
        wins := H.wins
        blk := c.G.blk ++ (if q.rel < 6 then [] else [⟨bid, c.mask, c.pc, c.first, .fence t.uid (q.flagged c P), none, t.now, 0, false, c.mask == 0⟩]) } →
      (∀ l, H.lane l = if c.has l = true then (if q.rel < 6 then (K4.lane l).at_ ((K4.lane l).pc + 4) else { K4.lane l with
        st := .blocked bid
        hints := Hints.clear }) else K4.lane l) →
      ∃ w', Sends c t q (.next w') ∧ (if (q.cload && !false) = true then w.countStep c.g c.mask c.pc (P.good.map (·.1) ++ P.oob) else w) =
        if (q.cload && c.stepDue) = true then w'.convoyStep c.g c.mask c.pc else w' := by
    intro H w bid n hAt hHa hHw hHe hHl
    have hHc : ∀ l, (H.lane l).cstep = (c.G.lane l).cstep := by
      intro l; rw [hHl, ← hK4c l]; (repeat' split) <;> rfl
    cases hcl : q.cload with
    | false =>
      refine ⟨w, hgen H w bid n hAt hHa hHw hHe ?_, by simp⟩
      intro l
      rw [hHl l]
      split
      · rw [hcl, ← hK4c l]
        simp only [Bool.false_eq_true, if_false]
        split <;> rfl
      · rfl
    | true =>
      have hun : q.uniform = false := by
        cases hh : q.uniform with
        | false => rfl
        | true => rw [hu hh] at hcl; cases hcl
      rw [hun] at hi; simp only [Bool.false_eq_true, if_false] at hi
      rw [hi] at hlanes
      refine ⟨w.updGroup c.g fun G => G.updLanes (P.good.map (·.1) ++ P.oob) fun _ t => { t with cstep := none },
        hgen _ _ bid n (hAt.upd _) ?_ ?_ ?_ ?_, ?_⟩
      · rw [Group.updLanes_eq]; exact hHa
      · rw [Group.updLanes_eq]; exact hHw
      · rw [Group.updLanes_eq]
        generalize (Group.updLanes _ _ _).lanes = L
        generalize H.lanes = L2 at hHe
        rw [hHe]
      · intro l
        rw [mem_foldl_updLanes_none, hHl l]
        have hm : l ∈ P.good.map (·.1) ++ P.oob ↔ c.has l = true := by rw [hlanes l, mem_lanesOf]; rfl
        simp only [hm, hcl]
        by_cases hc : c.has l = true
        · simp only [hc, if_true]
        · simp only [hc, if_false, Bool.false_eq_true]
      · simp only [Bool.not_false, Bool.and_true, if_true, Bool.true_and]
        unfold State.countStep
        rw [hAt.group]
        have e : ((P.good.map (·.1) ++ P.oob).any fun l => (H.lane l).cstep != some c.pc) = c.stepDue := by
          unfold Ctx.stepDue
          simp only [hHc]
          rw [Bool.eq_iff_iff, List.any_eq_true, List.any_eq_true]
          constructor
          · rintro ⟨l, h1, h2⟩; exact ⟨l, (hlanes l).1 h1, h2⟩
          · rintro ⟨l, h1, h2⟩; exact ⟨l, (hlanes l).2 h1, h2⟩
        dsimp only
        rw [e]
  -- going on, or waiting
  unfold State.leave
  simp only [Bool.false_eq_true, if_false, ge_iff_le]
  by_cases hr : q.rel < 6
  · rw [if_neg (show ¬ 6 ≤ q.rel by omega)]
    refine hstep _ _ 0 _ (hA4.retire c rfl) ?_ ?_ ?_ ?_
    · rw [Group.moveTo_eq]
    · rw [Group.moveTo_eq]
    · rw [Group.moveTo_eq, Group.hnd_moveTo, hK4h]
      generalize (K4.moveTo c.mask fun x t => t.pc + 4).lanes = L
      simp only [hr, if_true, List.append_nil]
      rw [hK4']
      rfl
    · intro l
      rw [Group.lane_moveTo _ _ _ _ hready]
      simp only [hr, if_true]; rfl
  · rw [if_pos (show 6 ≤ q.rel by omega)]
    have hrid : (u.draw m).uid = t.uid := huid
    rw [hrid]
    obtain ⟨H, hB, hH, hHl⟩ := hA4.block hready (.fence t.uid (q.flagged c P))
    refine hstep H _ (pid + 1 + 1) _ hB ?_ ?_ ?_ ?_
    · rw [hH]
    · rw [hH]
    · generalize H.lanes = L at hH
      rw [hH, hK4h, hK4b]
      simp only [hr, if_false]
      rw [hK4']
    · intro l
      rw [hHl l]
      simp only [hr, if_false]

end Sys2Proof.Machine
end

