-- ==== Sys2Proof/Laws/Sync.lean ====
section
/-! SUPPORT. What taking a trap, an evaluation instant, an arrival at a barrier and a change of a rejoin mask leave: one lemma each. -/

namespace Sys2Proof.Machine

/-! ## Traps (R385, R388) -/

/-- A trap that waits for the handler. -/
theorem State.raise_eq {s : State} {g : Nat} {G : Group} (hg : s.group? g = some G) (e : TrapEntry) (hv : (s.vf G.vf).hcl ≠ 0) :
    s.raise g false e = s.updGroup g fun G =>
      { G.updLanes (lanesOf e.mask) fun _ t => { t with
          st := .trapped
          pc := e.pc
          hints := Hints.clear } with
        trapQ := G.trapQ ++ [e] } := by
  unfold State.raise
  rw [hg]
  have : ((s.updGroup g fun G =>
      { G.updLanes (lanesOf e.mask) fun _ t => { t with
          st := .trapped
          pc := e.pc
          hints := Hints.clear } with
        trapQ := G.trapQ ++ [e] }).vf G.vf).hcl ≠ 0 := hv
  simp [this]

/-- What a trap leaves where the function has a handler and the path is no handler path. -/
theorem State.raise_spec {s : State} {c : Ctx} (hg : s.group? c.g = some c.G) (e : TrapEntry) (hv : (s.vf c.G.vf).hcl ≠ 0) (n : Nat) :
    Parks c s e n (.next ((s.raise c.g false e).draw n)) := by
  rw [State.raise_eq hg e hv, State.updGroup_some hg]
  refine ⟨_, _, rfl, rfl, ?_, ?_⟩
  · rw [Group.updLanes_eq]
  · intro l
    show (Group.updLanes _ _ _).lane l = _
    rw [Group.lane_updLanes _ (lanesOf_nodup _)]
    simp only [mem_lanesOf]

theorem State.trapAt_spec {s : State} {c : Ctx} (hg : s.group? c.g = some c.G) (hh : c.h = false) (hv : (s.vf c.G.vf).hcl ≠ 0)
    (cls detail info : Nat) :
    Parks c s ⟨c.mask, c.first, c.first, c.pc + 4, causeWord cls detail info, false⟩ 0 (.next (s.trapAt c cls detail info)) := by
  have := State.raise_spec hg ⟨c.mask, c.first, c.first, c.pc + 4, causeWord cls detail info, false⟩ hv 0
  unfold State.trapAt State.trapLanes
  rw [hh]
  exact this

/-! ## Evaluation instants and barriers (R196, R199) -/

theorem Looked.trans {A B C : Group} (h : Looked A B) (k : Looked B C) : Looked A C := by
  obtain ⟨h1, h2⟩ := h
  obtain ⟨k1, k2⟩ := k
  refine ⟨?_, k2.trans h2⟩
  rw [k1]
  generalize C.blk = cb
  rw [h1]

theorem State.wake_spec (s : State) : Woken s s.wake := by
  refine ⟨rfl, fun g G hG => ⟨_, by rw [State.group?_wake, hG]; rfl, Looked.wake s g G⟩⟩

/-- The groups of a state have been looked at. -/
def LookedAll (s u : State) : Prop := (∃ gs, u = { s with groups := gs }) ∧ ∀ g G, s.group? g = some G → ∃ H, u.group? g = some H ∧ Looked G H

theorem LookedAll.refl (s : State) : LookedAll s s := ⟨⟨s.groups, rfl⟩, fun _ G h => ⟨G, h, Looked.refl G⟩⟩

theorem LookedAll.trans {s u v : State} (h : LookedAll s u) (k : LookedAll u v) : LookedAll s v := by
  obtain ⟨⟨gs, rfl⟩, h2⟩ := h
  obtain ⟨⟨hs, rfl⟩, k2⟩ := k
  refine ⟨⟨hs, rfl⟩, fun g G hG => ?_⟩
  obtain ⟨H, h3, h4⟩ := h2 g G hG
  obtain ⟨K, k3, k4⟩ := k2 g H h3
  exact ⟨K, k3, h4.trans k4⟩

theorem LookedAll.upd (s : State) (g : Nat) (f : Group → Group) (hf : ∀ G, Looked G (f G)) : LookedAll s (s.updGroup g f) := by
  refine ⟨⟨_, rfl⟩, fun k G hG => ?_⟩
  by_cases h : k = g
  · subst h
    exact ⟨f G, by rw [State.group?_updGroup_self, hG]; rfl, hf G⟩
  · exact ⟨G, by rw [State.group?] at hG ⊢; rw [State.updGroup_groups, SMap.find?_upd_ne _ _ h]; exact hG, Looked.refl G⟩

theorem LookedAll.wake (s : State) : LookedAll s s.wake := ⟨⟨_, rfl⟩, (State.wake_spec s).2⟩

theorem State.setBar_rest (s : State) (T : Team) (b : Nat) (x : Bar) : s.setBar T b x = { s with cores := (s.setBar T b x).cores } := rfl
theorem State.settleObuf_rest (s : State) (T : Team) : s.settleObuf T = { s with cores := (s.settleObuf T).cores } := by
  unfold State.settleObuf; split <;> rfl

/-- An arrival does what R199 says of it, and no more. -/
theorem State.arrive_spec (s : State) (t b n : Nat) : Arrives s (s.arrive t b n) t b n := by
  unfold State.arrive
  cases hT : s.team? t with
  | none => exact ⟨rfl, fun _ G h => ⟨G, h, Looked.refl G⟩, fun _ h => by rw [hT] at h; cases h⟩
  | some T =>
    have hTT : ∀ T', s.team? t = some T' → T' = T := by intro T' h; rw [hT] at h; cases h; rfl
    dsimp only
    by_cases h0 : n = 0
    · rw [if_pos h0]
      refine ⟨rfl, fun _ G h => ⟨G, h, Looked.refl G⟩, fun T' hT' => ?_⟩
      simp [h0]
    · rw [if_neg h0]
      by_cases hp : (s.bar T b).pend ≤ n
      · rw [if_pos hp]
        have hfold : ∀ (gs : List Nat) (u : State), LookedAll u (gs.foldl (fun s g => s.updGroup g fun G =>
            { G with blk := G.blk.map fun k => if k.cond = .barx b ∧ k.met = none then k.hit s.now 0 0 false else k }) u) := by
          intro gs
          induction gs with
          | nil => exact LookedAll.refl
          | cons g gs ih =>
            intro u
            refine LookedAll.trans (LookedAll.upd u g _ fun G => ?_) (ih _)
            refine ⟨rfl, ?_⟩
            simp only [List.map_map, Function.comp_def]
            apply List.map_congr_left
            intro k _
            split <;> rfl
        generalize hs1 : (s.setBar T b ⟨(s.bar T b).exp, !(s.bar T b).phase, (s.bar T b).exp⟩).settleObuf T = s1
        have h1 : s1 = { s with cores := s1.cores } := by rw [← hs1]; exact (State.settleObuf_rest _ _).trans rfl
        have hl := (hfold T.groups s1).trans (LookedAll.wake _)
        obtain ⟨⟨gs, hgs⟩, hg⟩ := hl
        have hgr : s1.groups = s.groups := by rw [h1]
        refine ⟨?_, ?_, ?_⟩
        · rw [hgs, h1]
        · intro g G hG; exact hg g G (by rw [State.group?, hgr]; exact hG)
        · intro T' hT'
          rw [hTT T' hT']
          simp only [h0, if_false, hp, if_true]
          rw [hgs, ← hs1]
      · rw [if_neg hp]
        refine ⟨rfl, fun _ G h => ⟨G, h, Looked.refl G⟩, fun T' hT' => ?_⟩
        rw [hTT T' hT']
        simp only [h0, if_false, hp]

/-- A group that has been looked at still has the issuing path (R196). -/
theorem Found.looked {s t u : State} {c : Ctx} {H : Group} (h : Found s c t) (hu : u.group? c.g = some H) (hf : u.fresh = t.fresh)
    (hl : Looked c.G H) : Found s { c with G := H } u := by
  have hlane : ∀ l, H.lane l = c.G.lane l := by intro l; rw [hl.1]; rfl
  refine ⟨hu, hf.trans h.fresh, by show c.n = _; rw [hf]; exact h.place, by show H.ended = _; rw [hl.1]; exact h.alive, ?_⟩
  intro l hx
  show (H.lane l).st = _ ∧ (H.lane l).hnd = _ ∧ (H.lane l).pc = _
  rw [hlane l]
  exact h.ready l hx

/-! ## The access order -/

theorem State.addAcc_adds {s t : State} {c : Ctx} (h : Found s c t) (a : Acc) : (t.addAcc c.g a).bump = t.adds c [a] := by
  unfold State.addAcc State.adds
  rw [State.updGroup_some h.group]
  rfl

theorem Found.adds {s t : State} {c : Ctx} (h : Found s c t) (as : List Acc) : Found s (c.adds as) (t.adds c as) := by
  refine ⟨SMap.find?_put_self _ _ _, h.fresh, h.place, h.alive, h.ready⟩

/-! ## Rejoin masks (R161, R163) -/

theorem Group.releaseCheck_eq (G : Group) (n : Nat) :
    G.releaseCheck n = if rejoined (G.j.get n 0) (G.arr.get n 0) = true then
      { G.updLanes (lanesOf (G.arr.get n 0)) fun _ t => t.passes n with arr := G.arr.put n 0 } else G := by
  unfold Group.releaseCheck rejoined
  by_cases h : G.j.get n 0 &&& ~~~(G.arr.get n 0) = 0 ∧ G.arr.get n 0 ≠ 0
  · have : (G.j.get n 0 &&& ~~~(G.arr.get n 0) == 0 && G.arr.get n 0 != 0) = true := by
      rw [Bool.and_eq_true, beq_iff_eq, bne_iff_ne]; exact h
    simp only [if_pos h, this, if_true]
    rfl
  · have : (G.j.get n 0 &&& ~~~(G.arr.get n 0) == 0 && G.arr.get n 0 != 0) = false := by
      rw [Bool.eq_false_iff]
      intro hx
      simp only [Bool.and_eq_true, beq_iff_eq, bne_iff_ne, ne_eq] at hx
      exact h hx
    simp only [if_neg h, this, Bool.false_eq_true, if_false]

theorem Group.lane_releaseCheck (G : Group) (n l : Nat) :
    (G.releaseCheck n).lane l = if rejoined (G.j.get n 0) (G.arr.get n 0) = true ∧ (G.arr.get n 0).getLsbD l = true then
      (G.lane l).passes n else G.lane l := by
  rw [Group.releaseCheck_eq]
  by_cases h : rejoined (G.j.get n 0) (G.arr.get n 0) = true
  · simp only [h, if_true, true_and]
    show (Group.updLanes _ _ _).lane l = _
    rw [Group.lane_updLanes _ (lanesOf_nodup _)]
    simp only [mem_lanesOf]
  · simp only [h, if_false, false_and, Bool.false_eq_true]

theorem Group.releaseCheck_rest (G : Group) (n : Nat) : G.releaseCheck n = { G with
    lanes := (G.releaseCheck n).lanes
    arr := if rejoined (G.j.get n 0) (G.arr.get n 0) = true then G.arr.put n 0 else G.arr } := by
  rw [Group.releaseCheck_eq]
  split
  · rw [Group.updLanes_eq]
  · rfl

theorem Thread.passes_ready {t : Thread} (h : t.st = .ready) (n : Nat) : t.passes n = t := by
  unfold Thread.passes
  rw [h]

/-- What a change of a rejoin mask leaves. -/
theorem State.writeJ_spec {s t : State} {c : Ctx} (h : Found s c t) (n : Nat) (x : Word) :
    Rejoins c t n (x &&& c.G.liveMask) (c.G.arr.get n 0) (.next ((t.updGroup c.g fun G => G.writeJ n x).retire c)) := by
  rw [State.retire_upd h]
  have hl := Group.lane_releaseCheck { c.G with j := c.G.j.put n (x &&& c.G.liveMask) } n
  have hr := Group.releaseCheck_rest { c.G with j := c.G.j.put n (x &&& c.G.liveMask) } n
  simp only [SMap.get_put_self] at hl hr
  have hw : c.G.writeJ n x = ({ c.G with j := c.G.j.put n (x &&& c.G.liveMask) } : Group).releaseCheck n := rfl
  rw [← hw] at hl hr
  have hst : ∀ l, c.mask.getLsbD l = true → ((c.G.writeJ n x).lane l).st = .ready := by
    intro l hx
    have hy := (h.ready l hx).1
    have hy' : (({ c.G with j := c.G.j.put n (x &&& c.G.liveMask) } : Group).lane l).st = .ready := hy
    rw [hl l]
    split
    · rw [Thread.passes_ready hy']; exact hy'
    · exact hy'
  refine ⟨_, _, rfl, rfl, ?_, ?_⟩
  · rw [Group.moveTo_eq, Group.hnd_moveTo, hr]; rfl
  · intro l
    rw [Group.lane_moveTo _ _ _ _ hst, hl l]
    show (if c.has l = true then _ else _) = if c.has l = true then _ else _
    by_cases hc : c.has l = true
    · have hy := (h.ready l hc).1
      have hy' : (({ c.G with j := c.G.j.put n (x &&& c.G.liveMask) } : Group).lane l).st = .ready := hy
      rw [if_pos hc, if_pos hc]
      split
      · rw [Thread.passes_ready hy']; rfl
      · rfl
    · rw [if_neg hc, if_neg hc]
      rfl

end Sys2Proof.Machine
end

