-- ==== Sys2Proof/Laws/Words.lean ====
section
/-! SUPPORT. What a hint, a call and a stopped path leave, as the statements say it (R16, R28, R417). -/

namespace Sys2Proof.Machine

theorem hint_spec {w : BitVec 1} {s t c} {f : Hints → Hints} : IssuesWord (flag1 w) s c t → Hinted c t f (issueHint (flag1 w) (fun c s => s.hintPast c f) s) := by
  intro h; rw [h.issueHint]; exact State.hintPast_spec h.found f

theorem call_spec {s t c} (h : Found s c t) (x : Word) : ∃ u G, Host.Outcome.next (((t.updGroup c.g fun G => G.updLanes (lanesOf c.mask) fun _ th => { th with lk := c.pc + 4 }).noteLoop c x).goto c fun _ _ => x) = (.next u : Result) ∧ OneGroup c (t.noteLoop c x) u G ∧ G = { c.G with lanes := G.lanes, hnd := c.handlerAt fun _ => x } ∧ Lanes c G fun _ y => { y.at_ x with lk := c.pc + 4 } := by
  obtain ⟨u, G, e, h1, h2, h3⟩ := State.moveLanes (h.noteLoop true x) (fun _ th => { th with lk := c.pc + 4 }) (fun _ _ => rfl) fun _ _ => x
  refine ⟨u, G, ?_, h1, h2, h3⟩
  rw [← e, State.noteLoop_updGroup]; unfold State.goto; rw [State.updGroup_updGroup]; rfl

theorem stop_spec {s t c} (h : Found s c t) (hm : c.mask ≠ 0) (x) : ∃ u G, (Host.Outcome.next ((t.updGroup c.g fun G => G.stopAt c x).draw 1) : Result) = .next u ∧ OneGroup c t u G ∧ Lanes c G fun _ y => { y with st := .stopped, pc := c.pc + 4 } := by
  rw [State.updGroup_some h.group]
  refine ⟨_, _, rfl, rfl, ?_⟩
  intro l
  simp only [Group.stopAt, if_neg hm]
  rw [Group.lane_updLanes _ (lanesOf_nodup _)]
  simp only [mem_lanesOf]; rfl

theorem clr_spec {s t c} (h : Found s c t) (d : Nat) : ∃ u G, (Host.Outcome.next ((t.updGroup c.g fun G => G.updLanes (lanesOf c.mask) fun _ x => { x with tsr := 0 }).putS c d [BitVec.ofNat 32 (t.sysValue c (16 : BitVec 10).toNat)]) : Result) = .next u ∧ OneGroup c t u G ∧ (∀ l, c.has l = true → (G.lane l).tsr = 0 ∧ (G.lane l).pc = c.pc + 4 ∧ (G.lane l).v = (c.G.lane l).v) ∧ (∀ k, G.s.get k 0 = if k = d ∧ c.keepsS k = false then c.tsrs else c.G.s.get k 0) := by
  have e : BitVec.ofNat 32 (t.sysValue c (16 : BitVec 10).toNat) = c.tsrs := by simp [State.sysValue]
  rw [e]
  have hf : Found s { c with G := c.G.updLanes (lanesOf c.mask) fun _ x => { x with tsr := 0 } } (t.updGroup c.g fun G => G.updLanes (lanesOf c.mask) fun _ x => { x with tsr := 0 }) := by
    refine ⟨?_, h.fresh, h.place, by show (Group.updLanes _ _ _).ended = _; rw [Group.updLanes_eq]; exact h.alive, ?_⟩
    · rw [State.group?_updGroup_self, h.group]; rfl
    · intro l hl
      have := h.ready l hl
      show ((Group.updLanes _ _ _).lane l).st = _ ∧ ((Group.updLanes _ _ _).lane l).hnd = _ ∧ ((Group.updLanes _ _ _).lane l).pc = _
      rw [Group.lane_updLanes _ (lanesOf_nodup _)]
      split <;> exact this
  obtain ⟨u, G, e1, e2, e3, e4, e5, e6⟩ := State.putS_spec hf d [c.tsrs]
  refine ⟨u, G, e1, ?_, ?_, ?_⟩
  · rw [OneGroup] at e2 ⊢
    rw [e2, State.updGroup_some h.group]
    simp [SMap.put_put]
  · intro l hl
    have hl' : l ∈ lanesOf c.mask := (mem_lanesOf _ _).2 hl
    rw [e5 l]
    simp only [show ∀ G', Ctx.has { c with G := G' } l = true from fun _ => hl, if_true]
    show (Thread.at_ ((Group.updLanes _ _ _).lane l) _).tsr = _ ∧ (Thread.at_ ((Group.updLanes _ _ _).lane l) _).pc = _ ∧ (Thread.at_ ((Group.updLanes _ _ _).lane l) _).v = _
    rw [Group.lane_updLanes _ (lanesOf_nodup _), if_pos hl']
    have := h.ready l hl
    refine ⟨rfl, ?_, rfl⟩
    show (c.G.lane l).pc + 4 = _
    rw [this.2.2]
  · intro k
    rw [e6 k]
    have ks : Ctx.keepsS { c with G := c.G.updLanes (lanesOf c.mask) fun _ x => { x with tsr := 0 } } k = c.keepsS k := by
      unfold Ctx.keepsS; rw [Group.updLanes_eq]
    have gs : (Group.updLanes c.G (lanesOf c.mask) fun _ x => { x with tsr := 0 }).s = c.G.s := by rw [Group.updLanes_eq]
    rw [ks]
    show (if d ≤ k ∧ k < d + 1 ∧ _ then _ else SMap.get (Group.updLanes _ _ _).s k 0) = _
    rw [gs]
    by_cases hk : k = d
    · subst hk; simp
    · rw [if_neg (by intro hx; have := hx.2.1; have := hx.1; omega), if_neg (by simp [hk])]

end Sys2Proof.Machine
end

