-- ==== Sys2Proof/Laws/Assayer.lean ====
section
/-! SUPPORT. Packets, the commit order and the windows of an assay object (R471 to R480). -/

namespace Sys2Proof.Machine

section

variable {s : State} {n d o i k : Nat} {x : AsyPkt} {a : Assay}

theorem assay_putSelf (s : State) (d o : Nat) (f : Assay → Assay) : (s.updAssay d o f).assay d o = f (s.assay d o) := by
  unfold State.updAssay State.assay State.updDie State.die; dsimp only; rw [SMap.get_put_self, SMap.get_put_self]

theorem slot_put (a : Assay) (i j : Nat) (f : Slot → Slot) : (a.updSlot i f).slot j = if j = i then f (a.slot i) else a.slot j := by
  unfold Assay.updSlot Assay.slot; dsimp only; rw [SMap.get_put]

def late1 (s : State) (n : Nat) (x : AsyPkt) : State :=
  if x.kind = 2 ∧ (s.assay x.die x.obj).dl ≤ x.tick then ({ s with asyIn := s.asyIn.eraseIdx n } : State).updDie x.die fun D => { D with missA := satInc D.missA } else { s with asyIn := s.asyIn.eraseIdx n }

theorem asy_closed (h1 : s.asyPkt? n k = some x) (h2 : (s.assay x.die x.obj).isOpen = false) (nm : String) :
  eventOf nm ((s.asyPkt? n k).map fun x => s.asyHandle n x) = .next (({ s with asyIn := s.asyIn.eraseIdx n } : State).asyReply x 1) := by
  rw [h1]; refine congrArg Host.Outcome.next ?_
  unfold State.asyHandle; dsimp only
  exact if_pos (by show (!(s.assay x.die x.obj).isOpen) = true; rw [h2]; rfl)

theorem asy_open (h2 : (s.assay x.die x.obj).isOpen = true) : s.asyHandle n x = 
    (if x.key ≠ (s.assay x.die x.obj).akey ∨ x.id ≥ (s.assay x.die x.obj).c then ((late1 s n x).asyBits x.die x.obj astERR).asyReply x 4
    else if x.ser ≠ (s.assay x.die x.obj).rnd % 65536 ∨ (s.assay x.die x.obj).shut then ((late1 s n x).asyBits x.die x.obj astDROP).asyReply x 4
    else
      (((late1 s n x).asySmear x.die x.obj).updAssay x.die x.obj fun _ => ((((late1 s n x).asySmear x.die x.obj).assay x.die x.obj).accept x).1).wake.asyReply x (if ((((late1 s n x).asySmear x.die x.obj).assay x.die x.obj).accept x).2 then 4 else 0)) := by
  unfold State.asyHandle; dsimp only
  exact if_neg (by show ¬ (!(s.assay x.die x.obj).isOpen) = true; rw [h2]; decide)

theorem pkt_kind (h1 : s.asyPkt? n k = some x) : x.kind = k := by
  unfold State.asyPkt? at h1
  obtain ⟨y, _, h⟩ := Option.bind_eq_some_iff.1 h1
  dsimp only at h
  split at h
  · rename_i hc
    cases h
    simp only [Bool.and_eq_true, beq_iff_eq] at hc
    exact hc.1.1.1
  · cases h

theorem late1_no (hk : x.kind ≠ 2) : late1 s n x = { s with asyIn := s.asyIn.eraseIdx n } := if_neg (fun h => hk h.1)

theorem late1_yes (hk : x.kind = 2) : late1 s n x = (if (s.assay x.die x.obj).dl ≤ x.tick then ({ s with asyIn := s.asyIn.eraseIdx n } : State).updDie x.die fun D => { D with missA := satInc D.missA } else { s with asyIn := s.asyIn.eraseIdx n }) := by
  unfold late1; simp only [hk, true_and]

theorem late1_assay : (late1 s n x).assay x.die x.obj = s.assay x.die x.obj := by
  unfold late1; split
  · unfold State.assay State.updDie State.die; dsimp only; rw [SMap.get_put_self]
  · rfl

theorem smear_id (h : (s.assay d o).smear = false) : s.asySmear d o = s := by
  unfold State.asySmear; dsimp only; rw [if_neg (by rw [h]; decide)]

theorem asy_key (h1 : s.asyPkt? n k = some x) (h2 : (s.assay x.die x.obj).isOpen = true) (h3 : x.key ≠ (s.assay x.die x.obj).akey ∨ (s.assay x.die x.obj).c ≤ x.id) (nm : String) :
  eventOf nm ((s.asyPkt? n k).map fun x => s.asyHandle n x) = .next (((late1 s n x).asyBits x.die x.obj astERR).asyReply x 4) := by
  rw [h1, Option.map_some, asy_open h2, if_pos h3]; rfl

theorem asy_ser (h1 : s.asyPkt? n k = some x) (h2 : (s.assay x.die x.obj).isOpen = true) (h3 : x.key = (s.assay x.die x.obj).akey) (h4 : x.id < (s.assay x.die x.obj).c) (h5 : x.ser ≠ (s.assay x.die x.obj).rnd % 65536 ∨ (s.assay x.die x.obj).shut = true) (nm : String) :
  eventOf nm ((s.asyPkt? n k).map fun x => s.asyHandle n x) = .next (((late1 s n x).asyBits x.die x.obj astDROP).asyReply x 4) := by
  rw [h1, Option.map_some, asy_open h2, if_neg (by rintro (h | h); exact h h3; omega), if_pos h5]; rfl

theorem asy_ok (h1 : s.asyPkt? n k = some x) (h2 : (s.assay x.die x.obj).isOpen = true) (h3 : x.key = (s.assay x.die x.obj).akey) (h4 : x.id < (s.assay x.die x.obj).c) (h5 : x.ser = (s.assay x.die x.obj).rnd % 65536) (h6 : (s.assay x.die x.obj).shut = false)
  (h7 : (s.assay x.die x.obj).smear = false) (nm : String) :
  eventOf nm ((s.asyPkt? n k).map fun x => s.asyHandle n x) = .next (((late1 s n x).updAssay x.die x.obj fun _ => ((s.assay x.die x.obj).accept x).1).wake.asyReply x (if ((s.assay x.die x.obj).accept x).2 then 4 else 0)) := by
  rw [h1, Option.map_some, asy_open h2, if_neg (by rintro (h | h); exact h h3; omega), if_neg (by rintro (h | h); exact h h5; rw [h6] at h; cases h)]
  have hs : (late1 s n x).asySmear x.die x.obj = late1 s n x := smear_id (by rw [late1_assay]; exact h7)
  rw [hs, late1_assay]; rfl

theorem asy_key0 (h1 : s.asyPkt? n k = some x) (hk : k ≠ 2) (h2 : (s.assay x.die x.obj).isOpen = true) (h3 : x.key ≠ (s.assay x.die x.obj).akey ∨ (s.assay x.die x.obj).c ≤ x.id) (nm : String) :
  eventOf nm ((s.asyPkt? n k).map fun x => s.asyHandle n x) = .next ((({ s with asyIn := s.asyIn.eraseIdx n } : State).asyBits x.die x.obj astERR).asyReply x 4) := by
  rw [asy_key h1 h2 h3, late1_no (by rw [pkt_kind h1]; exact hk)]

theorem asy_key1 (h1 : s.asyPkt? n 2 = some x) (h2 : (s.assay x.die x.obj).isOpen = true) (h3 : x.key ≠ (s.assay x.die x.obj).akey ∨ (s.assay x.die x.obj).c ≤ x.id) (nm : String) :
  eventOf nm ((s.asyPkt? n 2).map fun x => s.asyHandle n x) = .next (((if (s.assay x.die x.obj).dl ≤ x.tick then ({ s with asyIn := s.asyIn.eraseIdx n } : State).updDie x.die fun D => { D with missA := satInc D.missA } else { s with asyIn := s.asyIn.eraseIdx n }).asyBits x.die x.obj astERR).asyReply x 4) := by
  rw [asy_key h1 h2 h3, late1_yes (pkt_kind h1)]

theorem asy_ser0 (h1 : s.asyPkt? n k = some x) (hk : k ≠ 2) (h2 : (s.assay x.die x.obj).isOpen = true) (h3 : x.key = (s.assay x.die x.obj).akey) (h4 : x.id < (s.assay x.die x.obj).c) (h5 : x.ser ≠ (s.assay x.die x.obj).rnd % 65536 ∨ (s.assay x.die x.obj).shut = true) (nm : String) :
  eventOf nm ((s.asyPkt? n k).map fun x => s.asyHandle n x) = .next ((({ s with asyIn := s.asyIn.eraseIdx n } : State).asyBits x.die x.obj astDROP).asyReply x 4) := by
  rw [asy_ser h1 h2 h3 h4 h5, late1_no (by rw [pkt_kind h1]; exact hk)]

theorem asy_ser1 (h1 : s.asyPkt? n 2 = some x) (h2 : (s.assay x.die x.obj).isOpen = true) (h3 : x.key = (s.assay x.die x.obj).akey) (h4 : x.id < (s.assay x.die x.obj).c) (h5 : x.ser ≠ (s.assay x.die x.obj).rnd % 65536 ∨ (s.assay x.die x.obj).shut = true) (nm : String) :
  eventOf nm ((s.asyPkt? n 2).map fun x => s.asyHandle n x) = .next (((if (s.assay x.die x.obj).dl ≤ x.tick then ({ s with asyIn := s.asyIn.eraseIdx n } : State).updDie x.die fun D => { D with missA := satInc D.missA } else { s with asyIn := s.asyIn.eraseIdx n }).asyBits x.die x.obj astDROP).asyReply x 4) := by
  rw [asy_ser h1 h2 h3 h4 h5, late1_yes (pkt_kind h1)]

theorem asy_ok0 (h1 : s.asyPkt? n k = some x) (hk : k ≠ 2) (h2 : (s.assay x.die x.obj).isOpen = true) (h3 : x.key = (s.assay x.die x.obj).akey) (h4 : x.id < (s.assay x.die x.obj).c) (h5 : x.ser = (s.assay x.die x.obj).rnd % 65536) (h6 : (s.assay x.die x.obj).shut = false) (h7 : (s.assay x.die x.obj).smear = false) (nm : String) :
  eventOf nm ((s.asyPkt? n k).map fun x => s.asyHandle n x) = .next ((({ s with asyIn := s.asyIn.eraseIdx n } : State).updAssay x.die x.obj fun _ => ((s.assay x.die x.obj).accept x).1).wake.asyReply x (if ((s.assay x.die x.obj).accept x).2 then 4 else 0)) := by
  have hn : x.kind ≠ 2 := by rw [pkt_kind h1]; exact hk
  rw [asy_ok h1 h2 h3 h4 h5 h6 h7, late1_no hn]

theorem asy_ok1 (h1 : s.asyPkt? n 2 = some x) (h2 : (s.assay x.die x.obj).isOpen = true) (h3 : x.key = (s.assay x.die x.obj).akey) (h4 : x.id < (s.assay x.die x.obj).c) (h5 : x.ser = (s.assay x.die x.obj).rnd % 65536) (h6 : (s.assay x.die x.obj).shut = false)
  (h7 : (s.assay x.die x.obj).smear = false) (nm : String) :
  eventOf nm ((s.asyPkt? n 2).map fun x => s.asyHandle n x) = .next (((if (s.assay x.die x.obj).dl ≤ x.tick then ({ s with asyIn := s.asyIn.eraseIdx n } : State).updDie x.die fun D => { D with missA := satInc D.missA } else { s with asyIn := s.asyIn.eraseIdx n }).updAssay x.die x.obj fun _ => ((s.assay x.die x.obj).accept x).1).wake.asyReply x (if ((s.assay x.die x.obj).accept x).2 then 4 else 0)) := by
  rw [asy_ok h1 h2 h3 h4 h5 h6 h7, late1_yes (pkt_kind h1)]

theorem mark_slot (c : Assay) (w : Word) (j : Nat) : (c.mark w).slot j = c.slot j := rfl

theorem acc1 (h : x.kind = 1) : a.accept x = if (a.slot x.id).st ≠ 1 then (a.mark astERR, true)
    else if x.first + x.vals.length > a.ne ∨ (List.range x.vals.length).any (fun i => (SMap.find? (a.slot x.id).vals (x.first + i)).isSome) then
      (a.reject x.id 1, true)
    else
      (a.updSlot x.id fun q =>
        { q with
          cnt := q.cnt + x.vals.length
          vals := (x.vals.zipIdx).foldl (fun m (v, i) => SMap.put m (x.first + i) v) q.vals }, false) := by
  unfold Assay.accept; dsimp only; rw [h]; rfl

theorem acc2 (h : x.kind = 2) : a.accept x = if (a.slot x.id).st ≠ 1 then (a.mark astDROP, true)
    else if x.n ≠ (a.slot x.id).want ∨ (a.slot x.id).want ≠ a.ne ∨ (a.slot x.id).cnt ≠ a.ne then (a.reject x.id 1, true)
    else if (a.slot x.id).bad then (a.reject x.id 4, true)
    else
      if asyNorm a.ne (a.slot x.id).vals / 2 ^ 23 % 256 = 255 then ((a.updSlot x.id fun q => { q with nsq := BitVec.ofNat 32 (asyNorm a.ne (a.slot x.id).vals) }).reject x.id 3, true)
      else (if x.tick < a.dl then ((a.updSlot x.id fun q => { q with nsq := BitVec.ofNat 32 (asyNorm a.ne (a.slot x.id).vals) }).updSlot x.id fun q => { q with st := 2 }).advance else ((a.updSlot x.id fun q => { q with nsq := BitVec.ofNat 32 (asyNorm a.ne (a.slot x.id).vals) }).updSlot x.id fun q => { q with st := 2 }).correct x.tick x.id, false) := by
  unfold Assay.accept; dsimp only; rw [h]; rfl

theorem acc_twice (h : x.kind = 1) (h2 : (a.slot x.id).st = 1) (h3 : a.ne < x.first + x.vals.length ∨ ∃ i, i < x.vals.length ∧ (SMap.find? (a.slot x.id).vals (x.first + i)).isSome = true) : a.accept x = (a.reject x.id 1, true) := by
  rw [acc1 h, if_neg (fun h => h h2), if_pos]
  rcases h3 with h | ⟨i, h, g⟩
  · exact .inl h
  · exact .inr (List.any_eq_true.2 ⟨i, List.mem_range.2 h, g⟩)

theorem acc_data (h : x.kind = 1) (h2 : (a.slot x.id).st = 1) (h3 : x.first + x.vals.length ≤ a.ne) (h4 : ∀ i, i < x.vals.length → SMap.find? (a.slot x.id).vals (x.first + i) = none) :
  a.accept x = (a.updSlot x.id fun q => { q with
         cnt := q.cnt + x.vals.length
         vals := (x.vals.zipIdx).foldl (fun m (v, i) => SMap.put m (x.first + i) v) q.vals }, false) := by
  rw [acc1 h, if_neg (fun h => h h2), if_neg]
  rintro (g | g)
  · omega
  · obtain ⟨i, hi, g⟩ := List.any_eq_true.1 g
    rw [h4 i (List.mem_range.1 hi)] at g; cases g

theorem acc_count (h : x.kind = 2) (h2 : (a.slot x.id).st = 1) (h3 : x.n ≠ (a.slot x.id).want ∨ (a.slot x.id).want ≠ a.ne ∨ (a.slot x.id).cnt ≠ a.ne) : a.accept x = (a.reject x.id 1, true) := by
  rw [acc2 h, if_neg (fun h => h h2), if_pos h3]

theorem acc_go (h : x.kind = 2) (h2 : (a.slot x.id).st = 1) (h3 : x.n = a.ne) (h4 : (a.slot x.id).want = a.ne) (h5 : (a.slot x.id).cnt = a.ne) :
   a.accept x = if (a.slot x.id).bad then (a.reject x.id 4, true)
    else
      if asyNorm a.ne (a.slot x.id).vals / 2 ^ 23 % 256 = 255 then ((a.updSlot x.id fun q => { q with nsq := BitVec.ofNat 32 (asyNorm a.ne (a.slot x.id).vals) }).reject x.id 3, true)
      else (if x.tick < a.dl then ((a.updSlot x.id fun q => { q with nsq := BitVec.ofNat 32 (asyNorm a.ne (a.slot x.id).vals) }).updSlot x.id fun q => { q with st := 2 }).advance else ((a.updSlot x.id fun q => { q with nsq := BitVec.ofNat 32 (asyNorm a.ne (a.slot x.id).vals) }).updSlot x.id fun q => { q with st := 2 }).correct x.tick x.id, false) := by
  rw [acc2 h, if_neg (fun h => h h2), if_neg (by rw [h3, h4, h5]; simp)]

theorem acc_bad (h : x.kind = 2) (h2 : (a.slot x.id).st = 1) (h3 : x.n = a.ne) (h4 : (a.slot x.id).want = a.ne) (h5 : (a.slot x.id).cnt = a.ne) (h6 : (a.slot x.id).bad = true) : a.accept x = (a.reject x.id 4, true) := by
  rw [acc_go h h2 h3 h4 h5, if_pos h6]

theorem acc_inf (h : x.kind = 2) (h2 : (a.slot x.id).st = 1) (h3 : x.n = a.ne) (h4 : (a.slot x.id).want = a.ne) (h5 : (a.slot x.id).cnt = a.ne) (h6 : (a.slot x.id).bad = false) (h7 : asyNorm a.ne (a.slot x.id).vals / 2 ^ 23 % 256 = 255) :
  a.accept x = ((a.updSlot x.id fun q => { q with nsq := BitVec.ofNat 32 (asyNorm a.ne (a.slot x.id).vals) }).reject x.id 3, true) := by
  rw [acc_go h h2 h3 h4 h5, if_neg (by rw [h6]; decide), if_pos h7]

theorem acc_time (h : x.kind = 2) (h2 : (a.slot x.id).st = 1) (h3 : x.n = a.ne) (h4 : (a.slot x.id).want = a.ne) (h5 : (a.slot x.id).cnt = a.ne) (h6 : (a.slot x.id).bad = false) (h7 : asyNorm a.ne (a.slot x.id).vals / 2 ^ 23 % 256 ≠ 255) (h8 : x.tick < a.dl) :
  a.accept x = (((a.updSlot x.id fun q => { q with nsq := BitVec.ofNat 32 (asyNorm a.ne (a.slot x.id).vals) }).updSlot x.id fun q => { q with st := 2 }).advance, false) := by
  rw [acc_go h h2 h3 h4 h5, if_neg (by rw [h6]; decide), if_neg h7, if_pos h8]

theorem acc_late (h : x.kind = 2) (h2 : (a.slot x.id).st = 1) (h3 : x.n = a.ne) (h4 : (a.slot x.id).want = a.ne) (h5 : (a.slot x.id).cnt = a.ne) (h6 : (a.slot x.id).bad = false) (h7 : asyNorm a.ne (a.slot x.id).vals / 2 ^ 23 % 256 ≠ 255) (h8 : a.dl ≤ x.tick) :
  a.accept x = (((a.updSlot x.id fun q => { q with nsq := BitVec.ofNat 32 (asyNorm a.ne (a.slot x.id).vals) }).updSlot x.id fun q => { q with st := 2 }).correct x.tick x.id, false) := by
  rw [acc_go h h2 h3 h4 h5, if_neg (by rw [h6]; decide), if_neg h7, if_neg (by omega)]

theorem fold_put (f : Nat → Word → Word) (m : SMap Word) (n j : Nat) :
  SMap.get ((List.range n).foldl (fun m j => SMap.put m j (f j (SMap.get m j 0))) m) j 0 = if j < n then f j (SMap.get m j 0) else SMap.get m j 0 := by
  induction n generalizing j with
  | zero => simp
  | succ n ih =>
    rw [List.range_succ, List.foldl_append, List.foldl_cons, List.foldl_nil, SMap.get_put]
    by_cases h : j = n
    · subst h; rw [if_pos rfl, ih, if_neg (Nat.lt_irrefl _), if_pos (Nat.lt_succ_self _)]
    · rw [if_neg h, ih]
      by_cases h2 : j < n
      · rw [if_pos h2, if_pos (by omega)]
      · rw [if_neg h2, if_neg (by omega)]

theorem commit_spec (a : Assay) (i : Nat) (late : Bool) :
  let q := a.slot i
       let sc := if q.nsq.toNat % 2 ^ 31 = 0 then 0x3F800000 else min 0x3F800000 (fDiv fp32 .rn a.alim.toNat (fSqrt fp32 q.nsq.toNat).1).1
       let b := a.commit i late
       b.amf = a.amf ||| ((1 : DWord) <<< i) ∧ b.ast = a.ast ||| (if sc < 0x3F800000 then astCLIP else 0) ∧
       (∀ j, j ≠ i → b.slot j = a.slot j) ∧ (b.slot i = { q with
         st := 3
         scale := BitVec.ofNat 32 sc
         late := late
         vals := [] }) ∧
       ∀ j, b.total.get j 0 = if j < a.ne then BitVec.ofNat 32 (fAdd fp32 .rn (a.total.get j 0).toNat (fMul fp32 .rn sc (q.vals.get j 0).toNat).1).1 else a.total.get j 0 := by
  intro q sc b
  refine ⟨rfl, rfl, ?_, ?_, ?_⟩
  · intro j hj
    show (Assay.mark (Assay.updSlot _ _ _) _).slot j = _
    rw [mark_slot, slot_put, if_neg hj]; rfl
  · show (Assay.mark (Assay.updSlot _ _ _) _).slot i = _
    rw [mark_slot, slot_put, if_pos rfl]; rfl
  · intro j
    exact fold_put (fun j t => BitVec.ofNat 32 (fAdd fp32 .rn t.toNat (fMul fp32 .rn sc (q.vals.get j 0).toNat).1).1) a.total a.ne j

theorem commit_slot (a : Assay) (i : Nat) (late : Bool) {j : Nat} (hj : j ≠ i) : (a.commit i late).slot j = a.slot j := (commit_spec a i late).2.2.1 j hj

theorem commit_due (a : Assay) (i : Nat) (late : Bool) : (a.commit i late).isDue = a.isDue := by
  have hc : ∀ (c : Prop) [Decidable c], astDUE &&& (if c then astCLIP else 0) = 0 := by intro c _; split <;> rfl
  unfold Assay.isDue
  rw [(commit_spec a i late).2.1, BitVec.and_comm, BitVec.and_or_distrib_left, BitVec.and_comm astDUE a.ast, hc, show (0 : Word) = 0#32 from rfl, BitVec.or_zero]

def dstep (x : Assay × Bool) (i : Nat) : Assay × Bool :=
    let st := (x.1.slot i).st
    if !x.2 then x
    else if st = 2 then (x.1.commit i false, true)
    else (x.1, st == 3 || st == 4 || st == 5 || (st == 1 && x.1.isDue))

theorem dfold_off (ls : List Nat) (b : Assay) : ls.foldl dstep (b, false) = (b, false) := by
  induction ls with
  | nil => rfl
  | cons y ys ih => rw [List.foldl_cons]; exact ih

theorem dfold_before (m i n : Nat) (h : n ≤ m) (hi : m < i) (b : Assay) (f : Bool) :
  ((List.range n).foldl dstep (b, f)).1.slot m = b.slot m ∧ ((List.range n).foldl dstep (b, f)).1.slot i = b.slot i ∧ ((List.range n).foldl dstep (b, f)).1.isDue = b.isDue := by
  induction n with
  | zero => exact ⟨rfl, rfl, rfl⟩
  | succ n ih =>
    obtain ⟨e1, e2, e3⟩ := ih (by omega)
    rw [List.range_succ, List.foldl_append, List.foldl_cons, List.foldl_nil]
    generalize (List.range n).foldl dstep (b, f) = z at e1 e2 e3 ⊢
    unfold dstep; dsimp only
    split
    · exact ⟨e1, e2, e3⟩
    · split
      · exact ⟨by rw [commit_slot _ _ _ (by omega), e1], by rw [commit_slot _ _ _ (by omega), e2], by rw [commit_due, e3]⟩
      · exact ⟨e1, e2, e3⟩

theorem drain_holds {m : Nat} (h1 : m < i) (h2 : i < a.c) (h3 : (a.slot m).st = 0 ∨ ((a.slot m).st = 1 ∧ a.isDue = false)) : a.drain.slot i = a.slot i := by
  show ((List.range a.c).foldl dstep (a, true)).1.slot i = _
  rw [show a.c = m + 1 + (a.c - (m + 1)) by omega, List.range_add, List.foldl_append, List.range_succ, List.foldl_append, List.foldl_cons, List.foldl_nil]
  obtain ⟨e1, e2, e3⟩ := dfold_before m i m (Nat.le_refl _) h1 a true
  generalize (List.range m).foldl dstep (a, true) = z at e1 e2 e3 ⊢
  have hz : dstep z m = (z.1, false) := by
    obtain ⟨z1, z2⟩ := z
    unfold dstep; dsimp only at e1 e3 ⊢
    rw [e1, e3]
    cases z2 with
    | false => rfl
    | true =>
      rcases h3 with h | ⟨h, g⟩
      · rw [h]; rfl
      · rw [h, g]; rfl
  rw [hz, dfold_off]; exact e2

def absentStep (a : Assay) (i : Nat) : Assay := if (a.slot i).st = 0 then a.updSlot i fun x => { x with st := 4 } else a

theorem absent_fold (n : Nat) (a : Assay) : ∃ l, (List.range n).foldl absentStep a = { a with slots := l } ∧ ∀ i, ((List.range n).foldl absentStep a).slot i = if i < n ∧ (a.slot i).st = 0 then { a.slot i with st := 4 } else a.slot i := by
  induction n with
  | zero => exact ⟨a.slots, rfl, fun i => by simp⟩
  | succ n ih =>
    obtain ⟨l, e, g⟩ := ih
    rw [List.range_succ, List.foldl_append, List.foldl_cons, List.foldl_nil]
    rw [e] at g ⊢
    have hn : ({ a with slots := l } : Assay).slot n = a.slot n := by rw [g]; simp
    unfold absentStep
    rw [hn]
    split
    · rename_i hc
      refine ⟨_, rfl, fun i => ?_⟩
      rw [slot_put, hn]
      by_cases hi : i = n
      · subst hi; rw [if_pos rfl, if_pos ⟨by omega, hc⟩]
      · rw [if_neg hi, g]
        by_cases h : i < n ∧ (a.slot i).st = 0
        · rw [if_pos h, if_pos ⟨by omega, h.2⟩]
        · rw [if_neg h, if_neg (fun h' => h ⟨by omega, h'.2⟩)]
    · rename_i hc
      refine ⟨l, rfl, fun i => ?_⟩
      rw [g]
      by_cases h : i < n ∧ (a.slot i).st = 0
      · rw [if_pos h, if_pos ⟨by omega, h.2⟩]
      · rw [if_neg h, if_neg]
        rintro ⟨h', h''⟩
        by_cases hi : i = n
        · subst hi; exact hc h''
        · exact h ⟨by omega, h''⟩

theorem upd_const (d o : Nat) (f g : Assay → Assay) (h : f (s.assay d o) = g (s.assay d o)) : s.updAssay d o f = s.updAssay d o g := by
  unfold State.updAssay
  unfold State.updDie
  show ({ s with dies := s.dies.put d { s.die d with assays := (s.die d).assays.put o (f (s.assay d o)) } } : State) = { s with dies := s.dies.put d { s.die d with assays := (s.die d).assays.put o (g (s.assay d o)) } }
  rw [h]

theorem asy_deadline : 
  let y := s.assay d o;
       y.isOpen = true → y.isDue = false → y.dl ≤ s.now → s.asyWaits d o y.dl = false → y.smear = false →
       ∃ b : Assay, exec (.asyDeadline d o) s = .next (s.updAssay d o fun _ => if b.drain.wrote then b.drain else b.drain.result false none (astDONE ||| (if b.drain.full then 0 else astPART))).wake ∧
         b = { y with
           ast := y.ast ||| astDUE
           slots := b.slots } ∧ ∀ i, b.slot i = if i < y.c ∧ (y.slot i).st = 0 then { y.slot i with st := 4 } else y.slot i := by
  intro y h1 h2 h3 h4 h5
  obtain ⟨l, e, g⟩ := absent_fold y.c (y.mark astDUE)
  refine ⟨_, ?_, e.trans ?_, fun i => (g i)⟩
  · show eventOf _ _ = _
    rw [if_pos ⟨h1, by rw [h2]; rfl, h3, by rw [h4]; rfl⟩]
    refine congrArg (fun (t : State) => Host.Outcome.next t.wake) ?_
    rw [smear_id h5]
    exact upd_const d o _ _ rfl
  · show _ = ({ y with ast := y.ast ||| astDUE, slots := _ } : Assay)
    rw [e]; rfl

def shutStep (a : Assay) (i : Nat) : Assay := if (a.slot i).st = 1 then (a.updSlot i fun x => { x with st := 5, why := 2, vals := [] }).mark astREJ else a

theorem shut_fold (n : Nat) (a : Assay) : ∃ l, (List.range n).foldl shutStep a = { a with slots := l, ast := a.ast ||| (if (List.range n).any (fun i => (a.slot i).st == 1) then astREJ else 0) } ∧ ∀ i, ((List.range n).foldl shutStep a).slot i = if i < n ∧ (a.slot i).st = 1 then { a.slot i with st := 5, why := 2, vals := [] } else a.slot i := by
  induction n with
  | zero => exact ⟨a.slots, by simp, fun i => by simp⟩
  | succ n ih =>
    obtain ⟨l, e, g⟩ := ih
    rw [List.range_succ, List.foldl_append, List.foldl_cons, List.foldl_nil]
    rw [List.any_append]
    rw [e] at g ⊢
    generalize hb : (List.range n).any (fun i => (a.slot i).st == 1) = b at e g ⊢
    have hn : ({ a with slots := l, ast := a.ast ||| (if b = true then astREJ else 0) } : Assay).slot n = a.slot n := by rw [g]; simp
    unfold shutStep
    rw [hn]
    split
    · rename_i hc
      refine ⟨_, show _ = ({ a with slots := (Assay.updSlot { a with slots := l, ast := a.ast ||| (if b = true then astREJ else 0) } n fun x => { x with st := 5, why := 2, vals := [] }).slots, ast := _ } : Assay) from ?_, fun i => ?_⟩
      · show ({ a with slots := _, ast := (a.ast ||| (if b = true then astREJ else 0)) ||| astREJ } : Assay) = _
        congr 1
        rw [show ([n].any fun i => (a.slot i).st == 1) = true by simp [hc], Bool.or_true, if_pos rfl]
        cases b
        · simp
        · rw [if_pos rfl, BitVec.or_assoc, BitVec.or_self]
      · show (Assay.mark (Assay.updSlot _ _ _) _).slot i = _
        rw [mark_slot, slot_put, hn]
        by_cases hi : i = n
        · subst hi; rw [if_pos rfl, if_pos ⟨by omega, hc⟩]
        · rw [if_neg hi, g]
          by_cases h : i < n ∧ (a.slot i).st = 1
          · rw [if_pos h, if_pos ⟨by omega, h.2⟩]
          · rw [if_neg h, if_neg (fun h' => h ⟨by omega, h'.2⟩)]
    · rename_i hc
      refine ⟨l, ?_, fun i => ?_⟩
      · rw [show ([n].any fun i => (a.slot i).st == 1) = false by simp [hc], Bool.or_false]
      · rw [g]
        by_cases h : i < n ∧ (a.slot i).st = 1
        · rw [if_pos h, if_pos ⟨by omega, h.2⟩]
        · rw [if_neg h, if_neg]
          rintro ⟨h', h''⟩
          by_cases hi : i = n
          · subst hi; exact hc h''
          · exact h ⟨by omega, h''⟩

theorem asy_close :
  let y := s.assay d o;
       y.isOpen = true → y.isDue = true → y.shut = false → y.dl + y.cto ≤ s.now → s.asyWaits d o (y.dl + y.cto) = false →
       ∃ b : Assay, exec (.asyCorrectionWindowClose d o) s = .next (s.updAssay d o fun _ => b).wake ∧
         b = { y with
           ast := y.ast ||| (if (List.range y.c).any (fun i => (y.slot i).st == 1) then astREJ else 0) ||| (if y.full then 0 else astCTMO)
           slots := b.slots
           shut := true } ∧ ∀ i, b.slot i = if i < y.c ∧ (y.slot i).st = 1 then { y.slot i with
             st := 5
             why := 2
             vals := [] } else y.slot i := by
  intro y h1 h2 h3 h4 h5
  obtain ⟨l, e, g⟩ := shut_fold y.c y
  have hw : y.shutWindow = { ((List.range y.c).foldl shutStep y).mark (if ((List.range y.c).foldl shutStep y).full then 0 else astCTMO) with shut := true } := rfl
  rw [e] at g hw
  refine ⟨y.shutWindow, ?_, ?_, fun i => ?_⟩
  · show eventOf _ _ = _
    rw [if_pos ⟨h1, h2, by rw [h3]; rfl, h4, by rw [h5]; rfl⟩]
    refine congrArg (fun (t : State) => Host.Outcome.next t.wake) ?_
    exact upd_const d o _ _ rfl
  · rw [hw]; rfl
  · rw [hw]; exact g i

end

end Sys2Proof.Machine
end

