-- ==== Sys2Proof/Laws/Commands.lean ====
section
/-! SUPPORT. Commands as they stand in the access order (R371, R377, R483, R484). -/

namespace Sys2Proof.Machine

theorem xForm_spec {func : Nat} {i : Info} {sa n : Nat} {check : State → Ctx → List Word → Option (Nat × Nat)} {rcd : List Word → Nat}
   {dst : List Word → Option Dst} {s t : State} {c : Ctx} : XSends func i sa n check rcd dst s t c (xForm func i sa n check rcd dst s) := by
  unfold XSends
  intro d rec_ hh h hx hc
  unfold xForm
  rw [hh]
  simp only [Bool.false_eq_true, if_false]
  rw [h.issue]
  rw [if_neg (show ¬ (Nat.ble 64 (t.xOut c.G.core) = true) by rw [Nat.ble_eq]; omega)]
  simp only [d] at hc ⊢
  simp only [hc]
  cases hd : dst (c.rsn sa n) with
  | none =>
    dsimp only
    by_cases hf : func = 15
    · simp only [hf, if_true]
      exact State.enter_spec (t := t.tagTake _ _) (h.found.same rfl rfl) _ 0
    · simp only [hf, if_false]
      exact State.enter_spec h.found _ 0
  | some x =>
    dsimp only
    intro hf
    simp only [hf, if_false]
    exact State.enter_spec (c := c.starts t x) (h.found.starts x) _ 0

theorem copy_spec {s t : State} {c : Ctx} {k : Nat} {w : BitVec 1} {a : BitVec 10} (hh : s.copyHeld = false) (h : Issues (infoS1 w a 4 4).bare s c t)
   (hx : (t.core c.G.core).xcnt < 32) (hc : t.copyCheck c.G (c.rsn a.toNat 4) (copyOf t c k (c.rsn a.toNat 4)) = none) :
   Enters c ((t.updCore c.G.core fun x => { x with xcnt := x.xcnt + 1 }).tagTake c.G.core (copyOf t c k (c.rsn a.toNat 4)).tag) (.cmd (.copy (copyOf t c k (c.rsn a.toNat 4)))) 0 (copyForm k w a s) := by
  unfold copyForm
  rw [hh]
  simp only [Bool.false_eq_true, if_false]
  rw [h.issue]
  rw [if_neg (show ¬ (Nat.ble 32 (t.core c.G.core).xcnt = true) by rw [Nat.ble_eq]; omega)]
  simp only [hc]
  exact State.enter_spec (t := (t.updCore c.G.core fun x => { x with xcnt := x.xcnt + 1 }).tagTake c.G.core _) (h.found.same rfl rfl) _ 0

theorem queueGet_spec {s t : State} {c : Ctx} {kind : Nat} {w : BitVec 1} {a d : BitVec 10} {q n : Nat} (h : Issues { w := flag1 w, var := true, noHint := true, regs := [.s a.toNat 1 1, .s d.toNat 1 1] } s c t)
   (hq : queueDesc (kind == 10) (c.rs a.toNat) = some (q, n)) :
   Enters (c.starts t (.s d.toNat 1)) (t.starts c (.s d.toNat 1)) (.cmd (.queue ⟨kind, q / 256, c.G.core, c.G.part, c.g, c.G.vf, q, n, 0, some t.uid⟩)) (if kind = 8 then 1 else 0) (queueGet kind w a d s) := by
  unfold queueGet
  rw [h.issue]
  dsimp only
  simp only [hq]
  exact State.enter_spec (c := c.starts t (.s d.toNat 1)) (h.found.starts _) _ _

theorem queuePut_spec {s t : State} {c : Ctx} {kind : Nat} {w : BitVec 1} {a : BitVec 10} {q n : Nat} (h : Issues { w := flag1 w, noHint := true, regs := [.s a.toNat 2 1] } s c t)
   (hq : queueDesc false (c.rs a.toNat) = some (q, n)) (hk : (c.rs (a.toNat + 1)).toNat < 2 ^ 31) :
   Blocks (c.adds [fenceAcc t.uid c (.release 7), fenceAcc (t.uid + 1) c (.cmd (.queue ⟨kind, q / 256, c.G.core, c.G.part, c.g, c.G.vf, q, n, (c.rs (a.toNat + 1)).toNat, none⟩))])
     (t.adds c [fenceAcc t.uid c (.release 7), fenceAcc (t.uid + 1) c (.cmd (.queue ⟨kind, q / 256, c.G.core, c.G.part, c.g, c.G.vf, q, n, (c.rs (a.toNat + 1)).toNat, none⟩))]) (.fence t.uid 0) none (queuePut kind w a s) := by
  unfold queuePut
  rw [h.issue]
  dsimp only
  simp only [hq]
  rw [if_neg (by omega)]
  have e1 := State.addAcc_adds h.found (fenceAcc t.uid c (.release 7))
  have f1 := Found.adds h.found [fenceAcc t.uid c (.release 7)]
  rw [e1]
  have e2 := State.addAcc_adds f1 (fenceAcc (t.uid + 1) c (.cmd (.queue ⟨kind, q / 256, c.G.core, c.G.part, c.g, c.G.vf, q, n, (c.rs (a.toNat + 1)).toNat, none⟩)))
  have f2 := Found.adds f1 [fenceAcc (t.uid + 1) c (.cmd (.queue ⟨kind, q / 256, c.G.core, c.G.part, c.g, c.G.vf, q, n, (c.rs (a.toNat + 1)).toNat, none⟩))]
  have e3 : (t.adds c [fenceAcc t.uid c (.release 7)]).adds (c.adds [fenceAcc t.uid c (.release 7)]) [fenceAcc (t.uid + 1) c (.cmd (.queue ⟨kind, q / 256, c.G.core, c.G.part, c.g, c.G.vf, q, n, (c.rs (a.toNat + 1)).toNat, none⟩))] = t.adds c [fenceAcc t.uid c (.release 7), fenceAcc (t.uid + 1) c (.cmd (.queue ⟨kind, q / 256, c.G.core, c.G.part, c.g, c.G.vf, q, n, (c.rs (a.toNat + 1)).toNat, none⟩))] := by
    simp [State.adds, Ctx.adds, SMap.put_put]
  have e4 : (c.adds [fenceAcc t.uid c (.release 7)]).adds [fenceAcc (t.uid + 1) c (.cmd (.queue ⟨kind, q / 256, c.G.core, c.G.part, c.g, c.G.vf, q, n, (c.rs (a.toNat + 1)).toNat, none⟩))] = c.adds [fenceAcc t.uid c (.release 7), fenceAcc (t.uid + 1) c (.cmd (.queue ⟨kind, q / 256, c.G.core, c.G.part, c.g, c.G.vf, q, n, (c.rs (a.toNat + 1)).toNat, none⟩))] := by
    simp [Ctx.adds]
  have f3 : Found s (c.adds [fenceAcc t.uid c (.release 7), fenceAcc (t.uid + 1) c (.cmd (.queue ⟨kind, q / 256, c.G.core, c.G.part, c.g, c.G.vf, q, n, (c.rs (a.toNat + 1)).toNat, none⟩))]) _ := e4 ▸ f2
  rw [e3] at f3
  have key := State.blockPath_spec f3 (.fence t.uid 0)
  convert key using 2
  rw [← e3, ← e2]
  rfl

end Sys2Proof.Machine
end

