-- ==== Sys2Proof/Laws/Decode.lean ====
section
/-! SUPPORT. Words and their fields (R55 to R73): what the decoder and the encoder need of each other. -/

namespace Sys2Proof

/-- A field is what its bits say. -/
theorem fieldOf_eq {n : Nat} (x lo : Nat) (b : BitVec n) (h : x / 2 ^ lo % 2 ^ n = b.toNat) : fieldOf x lo n = b := by
  apply BitVec.eq_of_toNat_eq; simp [fieldOf, h]

/-- The number of a field. -/
theorem fieldOf_toNat (x lo n : Nat) : (fieldOf x lo n).toNat = x / 2 ^ lo % 2 ^ n := by simp [fieldOf]

/-- A word whose layout gives a well-formed instruction decodes to it. -/
theorem decode_of {x : Nat} {i : Instr} (h : decodeRaw x = some i) (w : i.wf = true) : decode x = some i := by
  unfold decode; rw [h]; simp [w]

/-- What decodes is well formed and is what the layout gives. -/
theorem decode_some {x : Nat} {i : Instr} (h : decode x = some i) : decodeRaw x = some i ∧ i.wf = true := by
  unfold decode at h
  split at h
  · rename_i j hj
    split at h
    · rename_i hw; cases h; exact ⟨hj, hw⟩
    · cases h
  · cases h

/-- Bits within a run of bits that is known. -/
theorem bitsAt_of {x h : Nat} (L M lo n : Nat) (hx : x / 2 ^ L % 2 ^ M = h) (h1 : L ≤ lo) (h2 : lo + n ≤ L + M) :
    bitsAt x lo n = h / 2 ^ (lo - L) % 2 ^ n := by
  obtain ⟨k, rfl⟩ := Nat.exists_eq_add_of_le h1
  obtain ⟨r, rfl⟩ := Nat.exists_eq_add_of_le (show k + n ≤ M by omega)
  subst hx
  unfold bitsAt
  rw [Nat.add_sub_cancel_left, Nat.pow_add, ← Nat.div_div_eq_div_mul, Nat.pow_add 2 (k + n) r, Nat.pow_add 2 k n, Nat.mul_assoc,
    Nat.mod_mul_right_div_self, Nat.mod_mul_right_mod]

/-- Class 0. -/
theorem raw0 (x : Nat) (h : bitsAt x 27 4 = 0) : decodeRaw x = decodeVr x := by unfold decodeRaw; rw [h]; rfl
/-- Class 1. -/
theorem raw1 (x : Nat) (h : bitsAt x 27 4 = 1) : decodeRaw x = decodeVs x := by unfold decodeRaw; rw [h]; rfl
/-- Class 2. -/
theorem raw2 (x : Nat) (h : bitsAt x 27 4 = 2) : decodeRaw x = decodeVi x := by unfold decodeRaw; rw [h]; rfl
/-- Class 3. -/
theorem raw3 (x : Nat) (h : bitsAt x 27 4 = 3) : decodeRaw x = decodeVc x := by unfold decodeRaw; rw [h]; rfl
/-- Class 4. -/
theorem raw4 (x : Nat) (h : bitsAt x 27 4 = 4) : decodeRaw x = decodeSr x := by unfold decodeRaw; rw [h]; rfl
/-- Class 5. -/
theorem raw5 (x : Nat) (h : bitsAt x 27 4 = 5) : decodeRaw x = decodeSi x := by unfold decodeRaw; rw [h]; rfl
/-- Class 6. -/
theorem raw6 (x : Nat) (h : bitsAt x 27 4 = 6) : decodeRaw x = decodeBr x := by unfold decodeRaw; rw [h]; rfl
/-- Class 7. -/
theorem raw7 (x : Nat) (h : bitsAt x 27 4 = 7) : decodeRaw x = decodeCv x := by unfold decodeRaw; rw [h]; rfl
/-- Class 8. -/
theorem raw8 (x : Nat) (h : bitsAt x 27 4 = 8) : decodeRaw x = decodeXl x := by unfold decodeRaw; rw [h]; rfl
/-- Class 9. -/
theorem raw9 (x : Nat) (h : bitsAt x 27 4 = 9) : decodeRaw x = decodeMem x := by unfold decodeRaw; rw [h]; rfl
/-- Class 10. -/
theorem raw10 (x : Nat) (h : bitsAt x 27 4 = 10) : decodeRaw x = decodeAtm x := by unfold decodeRaw; rw [h]; rfl
/-- Class 11. -/
theorem raw11 (x : Nat) (h : bitsAt x 27 4 = 11) : decodeRaw x = decodeSy x := by unfold decodeRaw; rw [h]; rfl
/-- Class 12. -/
theorem raw12 (x : Nat) (h : bitsAt x 27 4 = 12) : decodeRaw x = decodeEn x := by unfold decodeRaw; rw [h]; rfl
/-- Class 13. -/
theorem raw13 (x : Nat) (h : bitsAt x 27 4 = 13) : decodeRaw x = decodeMx x := by unfold decodeRaw; rw [h]; rfl
/-- Class 14. -/
theorem raw14 (x : Nat) (h : bitsAt x 27 4 = 14) : decodeRaw x = decodeSys x := by unfold decodeRaw; rw [h]; rfl
/-- Class 15. -/
theorem raw15 (x : Nat) (h : bitsAt x 27 4 = 15) : decodeRaw x = decodeHint x := by unfold decodeRaw; rw [h]; rfl

end Sys2Proof
end

