-- ==== Sys2Proof/Laws/Drover.lean ====
section
/-! SUPPORT. Packets and windows of a collective object (R455 to R464, R513). -/

namespace Sys2Proof.Machine

section

variable {s : State} {n o p : Nat} {x : DroPkt} {k : Chunk}

theorem coll_putSelf (s : State) (o : Nat) (f : Coll → Coll) : (s.updColl o f).coll o = f (s.coll o) := by
  unfold State.updColl State.coll; dsimp only; rw [SMap.get_put_self]

theorem chunk_head (h1 : s.chunks[n]? = some k) (hn : s.chunkNext n k = true) : exec (.droChunkArrival n) s = .next ((if ((s.coll k.obj).isOpen && decide (k.idx < (s.coll k.obj).nch) && !((s.coll k.obj).chunks.contains k.idx) && k.type == (s.coll k.obj).type) = true then
   ({ s with chunks := s.chunks.eraseIdx n } : State).droAccept k else ({ s with chunks := s.chunks.eraseIdx n } : State).droBits k.obj dstERR).chunkReply k (s.coll k.obj).isOpen ((s.coll k.obj).isOpen && decide (k.idx < (s.coll k.obj).nch) && !((s.coll k.obj).chunks.contains k.idx) && k.type == (s.coll k.obj).type)) := by
  show eventOf _ _ = _
  rw [h1]; dsimp only [Option.bind_some]; rw [if_pos hn]; rfl

theorem chunk_bad (h1 : s.chunks[n]? = some k) (hn : s.chunkNext n k = true) (h2 : ((s.coll k.obj).isOpen && decide (k.idx < (s.coll k.obj).nch) && !((s.coll k.obj).chunks.contains k.idx) && k.type == (s.coll k.obj).type) = false) :
  exec (.droChunkArrival n) s = .next ((({ s with chunks := s.chunks.eraseIdx n } : State).droBits k.obj dstERR).chunkReply k (s.coll k.obj).isOpen false) := by
  rw [chunk_head h1 hn, h2]; rfl

theorem chunk_okb (h2 : (s.coll k.obj).isOpen = true) (h3 : k.idx < (s.coll k.obj).nch) (h4 : k.idx ∉ (s.coll k.obj).chunks) (h5 : k.type = (s.coll k.obj).type) :
   ((s.coll k.obj).isOpen && decide (k.idx < (s.coll k.obj).nch) && !((s.coll k.obj).chunks.contains k.idx) && k.type == (s.coll k.obj).type) = true := by
  rw [h2, h5]; simp [h3, h4]

theorem accept_len (u : State) (f : Coll → SMap Word) : ((u.updColl k.obj fun c => { c with chunks := c.chunks ++ [k.idx], contrib := f c }).coll k.obj).chunks.length = (u.coll k.obj).chunks.length + 1 := by
  rw [coll_putSelf]; simp

theorem chunk_more (h1 : s.chunks[n]? = some k) (hn : s.chunkNext n k = true) (h2 : (s.coll k.obj).isOpen = true) (h3 : k.idx < (s.coll k.obj).nch) (h4 : k.idx ∉ (s.coll k.obj).chunks) (h5 : k.type = (s.coll k.obj).type)
   (h6 : (s.coll k.obj).chunks.length + 1 ≠ (s.coll k.obj).nch) :
   exec (.droChunkArrival n) s = .next ((({ s with chunks := s.chunks.eraseIdx n } : State).updColl k.obj fun c => { c with
         chunks := c.chunks ++ [k.idx]
         contrib := (k.vals.zipIdx).foldl (fun m (v, i) => SMap.put m (8192 * (if (s.coll k.obj).op = 2 then (s.coll k.obj).rank * (s.coll k.obj).nch + k.idx else k.idx) + i) (c.entered v)) c.contrib }).chunkReply k true true) := by
  rw [chunk_head h1 hn, chunk_okb h2 h3 h4 h5, if_pos rfl, h2]
  unfold State.droAccept; dsimp only
  rw [accept_len]; exact congrArg (fun (t : State) => Host.Outcome.next (t.chunkReply k true true)) (if_neg h6)

theorem chunk_last (h1 : s.chunks[n]? = some k) (hn : s.chunkNext n k = true) (h2 : (s.coll k.obj).isOpen = true) (h3 : k.idx < (s.coll k.obj).nch) (h4 : k.idx ∉ (s.coll k.obj).chunks) (h5 : k.type = (s.coll k.obj).type)
   (h6 : (s.coll k.obj).chunks.length + 1 = (s.coll k.obj).nch) :
   exec (.droChunkArrival n) s = .next (((List.range (s.coll k.obj).plan.length).foldl (fun s p => s.droOwn k.obj p)
     ((({ s with chunks := s.chunks.eraseIdx n } : State).updColl k.obj fun c => { c with
         chunks := c.chunks ++ [k.idx]
         contrib := (k.vals.zipIdx).foldl (fun m (v, i) => SMap.put m (8192 * (if (s.coll k.obj).op = 2 then (s.coll k.obj).rank * (s.coll k.obj).nch + k.idx else k.idx) + i) (c.entered v)) c.contrib }).updColl k.obj fun c => { c with ctick := some s.now })).chunkReply k true true) := by
  rw [chunk_head h1 hn, chunk_okb h2 h3 h4 h5, if_pos rfl, h2]
  unfold State.droAccept; dsimp only
  rw [accept_len]; exact congrArg (fun (t : State) => Host.Outcome.next (t.chunkReply k true true)) (if_pos h6)

theorem handle_over {f : State → State} (h2 : (s.coll x.obj).isOpen = false ∨ x.rnd ≠ (s.coll x.obj).rnd ∨ (s.coll x.obj).plan.length ≤ x.path) :
  s.droHandle n x f = ({ s with droIn := s.droIn.eraseIdx n } : State).droBits x.obj dstDROP := by
  unfold State.droHandle; dsimp only
  refine if_neg ?_
  intro ⟨a, b, c⟩
  rcases h2 with h | h | h
  · exact absurd a (by show ¬ (s.coll x.obj).isOpen = true; rw [h]; decide)
  · exact h b
  · exact absurd c (Nat.not_lt.2 h)

theorem handle_live {f : State → State} (h2 : (s.coll x.obj).isOpen = true) (h3 : x.rnd = (s.coll x.obj).rnd) (h4 : x.path < (s.coll x.obj).plan.length) :
  s.droHandle n x f = f { s with droIn := s.droIn.eraseIdx n } := by
  unfold State.droHandle; dsimp only
  exact if_pos ⟨h2, h3, h4⟩

theorem pkt_over {ks : List Nat} (h1 : s.droPkt? n ks = some x) (h2 : (s.coll x.obj).isOpen = false ∨ x.rnd ≠ (s.coll x.obj).rnd ∨ (s.coll x.obj).plan.length ≤ x.path)
  {nm : String} (f : DroPkt → State → State) :
  eventOf nm ((s.droPkt? n ks).map fun x => s.droHandle n x (f x)) = .next (({ s with droIn := s.droIn.eraseIdx n } : State).droBits x.obj dstDROP) := by
  rw [h1]; exact congrArg Host.Outcome.next (handle_over h2)

theorem corr_go (h1 : s.droPkt? n [3, 4, 5] = some x) (h : ¬ (x.kind ≠ 3 ∧ (s.coll x.obj).isOpen = true ∧ x.rnd = (s.coll x.obj).rnd ∧ (!((s.coll x.obj).path x.path).have_) = true ∧ x.path < (s.coll x.obj).plan.length)) :
  exec (.droCorrectionArrival n) s = .next (s.droHandle n x fun s =>
        if x.kind = 3 then s.droUp x.obj x
        else (s.droCorrected x.obj x.path x.vals x.man (x.kind == 4) none []).droRelay x.obj x) := by
  show eventOf _ _ = _
  rw [h1]; dsimp only [Option.bind_some]; rw [if_neg h]; rfl

theorem corr_over (h1 : s.droPkt? n [3, 4, 5] = some x) (h2 : (s.coll x.obj).isOpen = false ∨ x.rnd ≠ (s.coll x.obj).rnd ∨ (s.coll x.obj).plan.length ≤ x.path) :
  exec (.droCorrectionArrival n) s = .next (({ s with droIn := s.droIn.eraseIdx n } : State).droBits x.obj dstDROP) := by
  rw [corr_go h1]
  · exact congrArg Host.Outcome.next (handle_over h2)
  · rintro ⟨_, a, b, _, c⟩
    rcases h2 with h | h | h
    · rw [h] at a; cases a
    · exact h b
    · omega

theorem partial_on (h1 : s.droPkt? n [0] = some x) (h2 : (s.coll x.obj).isOpen = true) (h3 : x.rnd = (s.coll x.obj).rnd) (h4 : x.path < (s.coll x.obj).plan.length) (h5 : (x.tick : Int) < (s.coll x.obj).deadline x.path) (h6 : ((s.coll x.obj).path x.path).fwd = false) :
  exec (.droPartialArrival n) s = .next ((({ s with droIn := s.droIn.eraseIdx n } : State).updColl x.obj fun c => c.updPath x.path fun y => { y with got := y.got ++ [x] }).droTry x.obj x.path) := by
  show eventOf _ _ = _
  rw [h1]; dsimp only [Option.map_some]; rw [handle_live h2 h3 h4]
  exact congrArg (fun y => eventOf _ (some y)) (if_pos ⟨h5, by show (!((s.coll x.obj).path x.path).fwd) = true; rw [h6]; rfl⟩)

theorem partial_late (h1 : s.droPkt? n [0] = some x) (h2 : (s.coll x.obj).isOpen = true) (h3 : x.rnd = (s.coll x.obj).rnd) (h4 : x.path < (s.coll x.obj).plan.length) (h5 : (s.coll x.obj).deadline x.path ≤ x.tick ∨ ((s.coll x.obj).path x.path).fwd = true) :
  exec (.droPartialArrival n) s = .next (({ s with droIn := s.droIn.eraseIdx n } : State).droUp x.obj x) := by
  show eventOf _ _ = _
  rw [h1]; dsimp only [Option.map_some]; rw [handle_live h2 h3 h4]
  refine congrArg (fun y => eventOf _ (some y)) (if_neg ?_)
  rintro ⟨a, b⟩
  rcases h5 with h | h
  · exact absurd (show (x.tick : Int) < (s.coll x.obj).deadline x.path from a) (by omega)
  · exact absurd b (by show ¬ (!((s.coll x.obj).path x.path).fwd) = true; rw [h]; decide)

theorem up_mid {u : State} {e : PathEnt} (h6 : (u.coll x.obj).plan[x.path]? = some e) (h7 : e.parent ≠ 0x3FF) :
  u.droUp x.obj x = (u.droMiss x.obj).droEmit x.obj x.path 3 e.parent x.man false [] x.vals := by
  unfold State.droUp; rw [h6]
  exact if_neg (by unfold PathEnt.root; simpa using h7)

theorem up_root {u : State} {e : PathEnt} (h6 : (u.coll x.obj).plan[x.path]? = some e) (h7 : e.parent = 0x3FF) : u.droUp x.obj x = u.droApply x.obj x := by
  unfold State.droUp; rw [h6]
  exact if_pos (by unfold PathEnt.root; rw [h7]; rfl)

theorem corr_up (h1 : s.droPkt? n [3, 4, 5] = some x) (h2 : (s.coll x.obj).isOpen = true) (h3 : x.rnd = (s.coll x.obj).rnd) (h4 : x.path < (s.coll x.obj).plan.length) (h5 : x.kind = 3) :
  exec (.droCorrectionArrival n) s = .next (({ s with droIn := s.droIn.eraseIdx n } : State).droUp x.obj x) := by
  rw [corr_go h1 (fun h => h.1 h5), handle_live h2 h3 h4, if_pos h5]

theorem corr_down (h1 : s.droPkt? n [3, 4, 5] = some x) (h2 : (s.coll x.obj).isOpen = true) (h3 : x.rnd = (s.coll x.obj).rnd) (h4 : x.path < (s.coll x.obj).plan.length) (h5 : x.kind ≠ 3) (h6 : ((s.coll x.obj).path x.path).have_ = true) :
  exec (.droCorrectionArrival n) s = .next ((({ s with droIn := s.droIn.eraseIdx n } : State).droCorrected x.obj x.path x.vals x.man (x.kind == 4) none []).droRelay x.obj x) := by
  rw [corr_go h1 (fun h => by have := h.2.2.2.1; rw [h6] at this; cases this), handle_live h2 h3 h4, if_neg h5]

theorem apply_drop (h : (s.coll o).cto = 0 ∨ (s.coll o).dl + (s.coll o).cto < x.tick) : s.droApply o x = s.droBits o dstDROP := by
  unfold State.droApply; exact if_pos h

theorem apply_sum (h1 : (s.coll o).cto ≠ 0) (h2 : x.tick ≤ (s.coll o).dl + (s.coll o).cto) (h3 : ((s.coll o).path x.path).have_ = true) (h4 : (s.coll o).op ≠ 1) :
   let old : SMap Word := x.vals.map fun (k, _) => (k, (s.coll o).result.get k 0)
   let new : SMap Word := (mergeVals (s.coll o).op old x.vals).map fun (k, v) => (k, (s.coll o).rounded v)
   let man := ((s.coll o).path x.path).man ||| x.man
   let log := if (s.coll o).log = 0 then none else some ((s.coll o).log + 144 * (s.coll o).logk, droLogBytes s.now x.path (s.coll o).rnd x.man)
   s.droApply o x = (((s.droMiss o).updColl o fun c => { c with logk := if c.log = 0 then c.logk else c.logk + 1 }).droCorrected o x.path new man true log []).droEmit o x.path 4 1024 man false [] new := by
  intro old new man log
  unfold State.droApply; dsimp only
  rw [if_neg (by unfold Coll.window; omega), if_neg (by rw [h3]; decide), if_neg h4, if_neg h4]

theorem result_first (h1 : s.droPkt? n [1, 2] = some x) (h2 : (s.coll x.obj).isOpen = true) (h3 : x.rnd = (s.coll x.obj).rnd) (h4 : x.path < (s.coll x.obj).plan.length) (h5 : ((s.coll x.obj).path x.path).have_ = false) :
  exec (.droResultArrival n) s = .next ((({ s with droIn := s.droIn.eraseIdx n } : State).droResult x.obj x.path x.vals x.man (x.kind == 1) []).droRelay x.obj x) := by
  show eventOf _ _ = _
  rw [h1]; dsimp only [Option.map_some]; rw [handle_live h2 h3 h4]
  exact congrArg (fun y => eventOf _ (some y)) (if_neg (by show ¬ ((s.coll x.obj).path x.path).have_ = true; rw [h5]; decide))

theorem result_again (h1 : s.droPkt? n [1, 2] = some x) (h2 : (s.coll x.obj).isOpen = true) (h3 : x.rnd = (s.coll x.obj).rnd) (h4 : x.path < (s.coll x.obj).plan.length) (h5 : ((s.coll x.obj).path x.path).have_ = true) :
  exec (.droResultArrival n) s = .next { s with droIn := s.droIn.eraseIdx n } := by
  show eventOf _ _ = _
  rw [h1]; dsimp only [Option.map_some]; rw [handle_live h2 h3 h4]
  exact congrArg (fun y => eventOf _ (some y)) (if_pos h5)

theorem verdict (h1 : s.droPkt? n [6] = some x) (h2 : (s.coll x.obj).isOpen = true) (h3 : x.rnd = (s.coll x.obj).rnd) (h4 : x.path < (s.coll x.obj).plan.length) :
  let v := (({ s with droIn := s.droIn.eraseIdx n } : State).updColl x.obj fun c => c.updPath x.path fun y => { y with closed := true }).droRelay x.obj x
  exec (.droVerdictArrival n) s = .next (if x.full then v else v.droBits x.obj dstCTMO) := by
  show eventOf _ _ = _
  rw [h1]; dsimp only [Option.map_some]; rw [handle_live h2 h3 h4]; rfl

theorem deadline_go (h1 : (s.coll o).isOpen = true) (h2 : ((s.coll o).path p).fwd = false) (h4 : (s.coll o).deadline p ≤ s.now)
   (h5 : (s.droIn.any fun x => x.kind == 0 && x.obj == o && x.path == p && x.rnd == (s.coll o).rnd && decide ((x.tick : Int) < (s.coll o).deadline p)) = false)
   {e : PathEnt} (h6 : (s.coll o).plan[p]? = some e) : exec (.droNodeDeadline o p) s = .next (s.droForward o p) := by
  show eventOf _ _ = _
  have h7 : p < (s.coll o).plan.length := (List.getElem?_eq_some_iff.1 h6).1
  rw [if_pos ⟨h1, h7, by rw [h2]; rfl, h4, by rw [h5]; rfl⟩]; rfl

theorem deadline_mid (h1 : (s.coll o).isOpen = true) (h2 : ((s.coll o).path p).fwd = false) (h4 : (s.coll o).deadline p ≤ s.now)
   (h5 : (s.droIn.any fun x => x.kind == 0 && x.obj == o && x.path == p && x.rnd == (s.coll o).rnd && decide ((x.tick : Int) < (s.coll o).deadline p)) = false)
   {e : PathEnt} (h6 : (s.coll o).plan[p]? = some e) (h7 : e.parent ≠ 0x3FF) :
   let own := (s.coll o).ownOnTime p
   let u := s.updColl o fun c => c.updPath p fun y => { y with fwd := true, own := y.own || own }
   exec (.droNodeDeadline o p) s = .next ((match (s.coll o).partialOf p own with
         | some v => u.droEmit o p 0 e.parent v.2 false [] v.1
         | none => u).droSent o) := by
  intro own u
  rw [deadline_go h1 h2 h4 h5 h6]
  unfold State.droForward; dsimp only; rw [h6]; dsimp only
  rw [if_neg (by unfold PathEnt.root; simpa using h7)]
  show Host.Outcome.next (State.droSent (match (s.coll o).partialOf p own with | none => _ | some v => _) o) = _
  cases (s.coll o).partialOf p own <;> rfl

theorem deadline_root (h1 : (s.coll o).isOpen = true) (h2 : ((s.coll o).path p).fwd = false) (h4 : (s.coll o).deadline p ≤ s.now)
   (h5 : (s.droIn.any fun x => x.kind == 0 && x.obj == o && x.path == p && x.rnd == (s.coll o).rnd && decide ((x.tick : Int) < (s.coll o).deadline p)) = false)
   {e : PathEnt} (h6 : (s.coll o).plan[p]? = some e) (h7 : e.parent = 0x3FF) (h8 : (s.coll o).op ≠ 1) (h9 : ((s.coll o).path p).cq = []) :
   let own := (s.coll o).ownOnTime p
   let u := s.updColl o fun c => c.updPath p fun y => { y with fwd := true, own := y.own || own }
   let v := ((s.coll o).partialOf p own).getD ([], 0)
   let r := (s.coll o).resultOf p v.1
   exec (.droNodeDeadline o p) s = .next ((((u.droResult o p r v.2 true []).droEmit o p 1 1024 v.2 false [] r).updColl o fun c => c.updPath p fun y => { y with cq := [] }).droSent o) := by
  intro own u v r
  rw [deadline_go h1 h2 h4 h5 h6]
  unfold State.droForward; dsimp only; rw [h6]; dsimp only
  rw [if_pos (by unfold PathEnt.root; rw [h7]; rfl), if_neg h8, if_neg h8, h9]; rfl

theorem window_close {e : PathEnt} (h1 : (s.coll o).plan[p]? = some e) (h2 : e.parent = 0x3FF) (h3 : (s.coll o).isOpen = true) (h4 : (s.coll o).dl + (s.coll o).cto ≤ s.now)
  (h5 : ((s.coll o).path p).have_ = true) (h6 : ((s.coll o).path p).closed = false)
  (h7 : (s.droIn.any fun x => (x.kind == 0 || x.kind == 3) && x.obj == o && x.path == p && x.rnd == (s.coll o).rnd && decide (x.tick < (s.coll o).window)) = false) (h8 : ((s.coll o).jobs.any fun j => j.path == p) = false) (h9 : (s.coll o).op ≠ 1 ∨ (s.coll o).comp ≤ s.now) :
  let full := ((s.coll o).path p).man == (s.coll o).full
  let u := (s.updColl o fun c => c.updPath p fun y => { y with closed := true }).droEmit o p 6 1024 ((s.coll o).path p).man full [] []
  exec (.droCorrectionWindowClose o p) s = .next (if full then u else u.droBits o dstCTMO) := by
  intro full u
  show eventOf _ _ = _
  rw [h1]; dsimp only [Option.bind_some]
  rw [if_pos ⟨h3, by unfold PathEnt.root; rw [h2]; rfl, h4, h5, by rw [h6]; rfl, by rw [h7]; rfl, by rw [h8]; rfl, h9⟩]; rfl

theorem corr_timeout {y : Corr} {t : Nat} (h1 : (s.coll o).corrs.find? (fun (z : Corr) => z.id == n) = some y) (h2 : y.tEnd = some t) (h3 : t ≤ s.now) :
  exec (.droCorrTimeout o n) s = .next (s.corrDone o y s.now) := by
  show eventOf _ _ = _
  rw [h1]; dsimp only [Option.bind_some]; rw [h2]; dsimp only; rw [if_pos h3]; rfl

theorem rate_exchange (h1 : n < 4) (h2 : (s.die n).rateAt + 65536 ≤ s.now) :
    ∃ f : Nat → Nat, (∀ k, 1 ≤ f k ∧ f k ≤ 255 ∧ (s.linkIdle k = true → f k = min 255 (max 1 (s.linkRate n k / 8)))) ∧
         let rs := (List.range 8).map f
         let u := (s.takeRates s.devId n rs).updDie n fun D => { D with rateAt := s.now }
         exec (.linkRateExchange n) s = .next (({ u with rateOut := u.rateOut ++ [(n, rs)] } : State).draw 8) := by
  have q : ∀ r, 1 ≤ quantRate r ∧ quantRate r ≤ 255 := by intro r; unfold quantRate; omega
  refine ⟨s.rateOf n, fun k => ⟨(q _).1, (q _).2, fun h => ?_⟩, ?_⟩
  · unfold State.rateOf; rw [if_pos h]; rfl
  · show eventOf _ _ = _
    rw [if_pos ⟨h1, h2⟩]
    rfl

end

end Sys2Proof.Machine
end

