-- ==== Sys2Proof/Laws/Stream.lean ====
section
/-! SUPPORT. The matrix stream: a word that goes on, a fault of the stream, and what the tile operations and the epilogue leave alone (R344 to R356). -/

namespace Sys2Proof.Machine

theorem seqThen_spec {s : State} {n : Nat} {T : Team} (h : s.team? n = some T) (f : Seq → Seq) : SeqGoes n s T f (.next (s.seqThen n f)) := by
  refine ⟨_, rfl, ?_⟩
  unfold State.seqThen State.updSeq State.updTeam
  rw [SMap.upd_some _ _ _ T h]

theorem Sequences.mx {s : State} {n : Nat} {T : Team} (h : Sequences s n T) (k : Nat → Team → State → State) : mxIssue k s = .next (k n T s) := by
  unfold mxIssue
  rw [h.1]; dsimp only; rw [h.2.1]; dsimp only; rw [if_pos h.2.2]

theorem updSeq_eq {s : State} {n : Nat} {T : Team} (h : s.team? n = some T) (f : Seq → Seq) : s.updSeq n f = { s with teams := SMap.put s.teams n { T with seq := f T.seq } } := by
  unfold State.updSeq State.updTeam
  rw [SMap.upd_some _ _ _ T h]

theorem seqFault_spec {s : State} {n : Nat} {T : Team} {g : Nat} {G : Group} (h : s.team? n = some T) (hh : s.Handles T g G) (d info : Nat) : SeqFaults n s T g G d info (.next (s.seqFault n d info)) := by
  obtain ⟨h1, h2, h3⟩ := hh
  unfold State.seqFault
  rw [h]; dsimp only
  have e : s.updTeam n (fun T => { T with seq := { T.seq with sflt := true, wait := none } }) = { s with teams := SMap.put s.teams n { T with seq := { T.seq with sflt := true, wait := none } } } := by
    unfold State.updTeam; rw [SMap.upd_some _ _ _ T h]
  rw [e]
  have f1 : ({ s with teams := SMap.put s.teams n { T with seq := { T.seq with sflt := true, wait := none } } } : State).firstGroup T = some g := h1
  rw [f1]; dsimp only
  have key : ∀ (u : State) (e : TrapEntry), e.mask = 0 → u.groups = s.groups → u.vfs = s.vfs → u.raise g false e = { u with groups := SMap.put s.groups g { G with trapQ := G.trapQ ++ [e] } } := by
    intro u e he hu hv
    have h2' : u.group? g = some G := by unfold State.group?; rw [hu]; exact h2
    have h3' : (u.vf G.vf).hcl ≠ 0 := by unfold State.vf; rw [hv]; exact h3
    rw [State.raise_eq h2' e h3', State.updGroup_some h2', hu, he, lanesOf_zero]; rfl
  refine ⟨_, rfl, ?_⟩
  refine (key _ _ ?_ ?_ ?_) <;> rfl

theorem pref_like_core {s : State} {k : Nat} (f : Core → Core) : ∃ cs, s.updCore k f = { s with cores := cs } := ⟨_, rfl⟩
/-- all but cores, wire, identifiers, free values and what corrections count -/

def Pl (s u : State) : Prop := (∃ cs ds sd rc w n f, u = { s with cores := cs, dies := ds, side := sd, rowCorr := rc, wire := w, uid := n, fresh := f }) ∧
  ∀ d, u.die d = { s.die d with corr := (u.die d).corr, parity := (u.die d).parity }

theorem Pl.refl (s : State) : Pl s s := ⟨⟨_, _, _, _, _, _, _, rfl⟩, fun _ => rfl⟩

theorem Pl.trans {s u v : State} (h : Pl s u) (k : Pl u v) : Pl s v := by
  obtain ⟨⟨a, b, c, d, e, f, g, rfl⟩, h2⟩ := h; obtain ⟨⟨a', b', c', d', e', f', g', rfl⟩, k2⟩ := k
  exact ⟨⟨_, _, _, _, _, _, _, rfl⟩, fun j => (k2 j).trans (by rw [h2 j])⟩

theorem Pl.same {s u : State} (h : ∃ cs w n f, u = { s with cores := cs, wire := w, uid := n, fresh := f }) : Pl s u := by
  obtain ⟨cs, w, n, f, rfl⟩ := h; exact ⟨⟨_, _, _, _, _, _, _, rfl⟩, fun _ => rfl⟩

theorem Pl.likeTlb {s u : State} (h : LikeTlb s u) (n : Nat) : Pl s (u.draw n) := by
  obtain ⟨⟨cs, ds, sd, rc, rfl⟩, _, h3⟩ := h; exact ⟨⟨_, _, _, _, _, _, _, rfl⟩, h3⟩

theorem Pl.core (s : State) (k : Nat) (f : Core → Core) : Pl s (s.updCore k f) := Pl.same ⟨_, _, _, _, rfl⟩

theorem Pl.send (s : State) (r : Req) : Pl s (s.send r) := Pl.same ⟨_, _, _, _, rfl⟩

theorem Pl.fold {α : Type} {f : State → α → State} (hf : ∀ s x, Pl s (f s x)) (xs : List α) (s : State) : Pl s (xs.foldl f s) := by
  induction xs generalizing s with
  | nil => exact Pl.refl s
  | cons x xs ih => rw [List.foldl_cons]; exact (hf s x).trans (ih _)

theorem Pl.back (s : State) (k : Nat) (L : Line) : Pl s (s.backLine k L) := by
  unfold State.backLine
  refine Pl.fold (fun s j => ?_) _ _
  unfold State.backSec; dsimp only
  split
  · exact Pl.refl s
  · exact (Pl.send s _).trans (Pl.core _ _ _)

theorem Pl.evict (s : State) (k : Nat) (L : Line) : Pl s (s.evict k L) := (Pl.back s k L).trans (Pl.core _ _ _)

theorem Pl.alloc {s u : State} {core vf asid v p : Nat} (h : s.allocLine core vf asid v p = some u) : Pl s u := by
  unfold State.allocLine at h
  dsimp only at h
  split at h
  · cases h; exact Pl.refl s
  · split at h
    · cases h; exact Pl.core _ _ _
    · split at h
      · cases h
      · cases h
        refine Pl.trans ?_ (Pl.core _ _ _)
        exact (Pl.evict s _ _).trans (Pl.same ⟨_, _, _, _, rfl⟩)

theorem Pl.prefetch (s : State) (k : Nat) (w : PrefWait) : Pl s (s.prefetchFill k w) := by
  unfold State.prefetchFill
  dsimp only
  have key : ∀ u, Pl s u → Pl s (if w.evict = true then u.markFirst k w.vf w.asid (w.vsec / 4) else u) := by
    intro u hu; split
    · exact hu.trans (Pl.core _ _ _)
    · exact hu
  split
  · exact key _ (Pl.refl s)
  · split
    · exact Pl.core _ _ _
    · rename_i u hu
      refine key _ ((Pl.alloc hu).trans ?_)
      exact Pl.trans (Pl.same ⟨_, _, _, _, rfl⟩ : Pl u u.bump) ((Pl.core _ _ _).trans (Pl.send _ _))

theorem pref_spec {s t u : State} {c : Ctx} (h : Found s c t) (hp : Pl t u) : ∃ v G, (Host.Outcome.next (u.retire c) : Result) = .next v ∧
    v = { t with
      groups := SMap.put t.groups c.g G
      cores := v.cores
      dies := v.dies
      side := v.side
      rowCorr := v.rowCorr
      wire := v.wire
      uid := v.uid
      fresh := v.fresh } ∧ (∀ d, v.die d = { t.die d with corr := (v.die d).corr, parity := (v.die d).parity }) ∧ G = { c.G with
      lanes := G.lanes
      hnd := c.handlerAt (· + 4) } ∧ Lanes c G fun _ x => x.at_ (x.pc + 4) := by
  obtain ⟨⟨cs, ds, sd, rc, w, n, f, rfl⟩, hd⟩ := hp
  have hf : Found { s with fresh := f } { c with n := f } { t with cores := cs, dies := ds, side := sd, rowCorr := rc, wire := w, uid := n, fresh := f } := ⟨h.group, rfl, rfl, h.alive, h.ready⟩
  obtain ⟨v, G, e, h1, h2, h3⟩ := State.retire_spec hf
  refine ⟨v, G, ?_, ?_, ?_, h2, h3⟩
  · rw [← e]; rfl
  · rw [h1]
  · intro d; rw [h1]; exact hd d

theorem mend_spec {s : State} {n : Nat} {T : Team} (h : s.team? n = some T) (h1 : T.seq.serr = false) (h0 : s.mretBusy n = false) (h2 : s.groupsEnded T = false) :
   SeqGoes n s T (fun q => { q with run := 3 }) (.next (if s.mretBusy n then s else if T.seq.serr then (s.updSeq n fun q => { q with serr := false }).seqFault n 20 0
      else (s.seqThen n fun q => { q with run := 3 }).checkTeam n)) := by
  rw [h0, h1]; simp only [Bool.false_eq_true, if_false]
  have e : (s.seqThen n fun q => { q with run := 3 }).checkTeam n = s.seqThen n fun q => { q with run := 3 } := by
    unfold State.checkTeam
    have ht : (s.seqThen n fun q => { q with run := 3 }).team? n = some { T with seq := { T.seq with run := 3, mpc := T.seq.mpc + 4 } } := by
      show SMap.find? (SMap.upd s.teams n _) n = _
      have : SMap.find? s.teams n = some T := h
      rw [SMap.find?_upd_self, this]; rfl
    rw [ht]; dsimp only
    have e1 : (s.seqThen n fun q => { q with run := 3 }).groupsEnded { T with seq := { T.seq with run := 3, mpc := T.seq.mpc + 4 } } = s.groupsEnded T := rfl
    rw [e1, h2]; rfl
  rw [e]; exact seqThen_spec h _

theorem detach_teams (s : State) (g k : Nat) : (s.detach g k).teams = s.teams := by
  unfold State.detach; split
  · rfl
  · dsimp only
    split
    · rfl
    · split <;> rfl

theorem freeBlocks_teams (s : State) (g : Nat) : (s.freeBlocks g).teams = s.teams := by
  unfold State.freeBlocks; split
  · rfl
  · dsimp only; split <;> rfl

theorem passed_teams (s : State) (g : Nat) : (s.passed g).teams = s.teams := by
  unfold State.passed; split <;> rfl

theorem dropTeam_teams {s : State} {t : Nat} {T : Team} (h : s.team? t = some T) : (s.dropTeam t).teams = s.teams.del t := by
  unfold State.dropTeam
  rw [h]; dsimp only
  have hf : ∀ (gs : List Nat) (u : State), (gs.foldl (fun s g => ((s.passed g).detach g 2).freeBlocks g) u).teams = u.teams := by
    intro gs
    induction gs with
    | nil => intro u; rfl
    | cons g gs ih => intro u; rw [List.foldl_cons, ih, freeBlocks_teams, detach_teams, passed_teams]
  rw [hf]
  split <;> rfl

theorem endTeam_teams {s : State} {t : Nat} {T : Team} (h : s.team? t = some T) : (s.endTeam t).teams = s.teams.del t := by
  unfold State.endTeam
  rw [h]; dsimp only
  rw [← dropTeam_teams h]
  have a1 : ∀ (u : State) (l : Nat), (u.satisfy l).teams = u.teams := fun _ _ => rfl
  have a2 : ∀ (u : State) (a b c d : Nat) (e : Bool), (u.holdDone a b c d e).teams = u.teams := fun _ _ _ _ _ _ => rfl
  have a3 : ∀ (u : State) (a : Nat) (f : Launch → Launch), (u.updLaunch a f).teams = u.teams := fun _ _ _ => rfl
  split
  · exact a3 _ _ _
  · split
    · exact (a1 _ _).trans ((a2 _ _ _ _ _ _).trans ((a3 _ _ _).trans (a3 _ _ _)))
    · exact a3 _ _ _

theorem mend_last {s : State} {n : Nat} {T : Team} (h : s.team? n = some T) (h1 : T.seq.serr = false) (h0 : s.mretBusy n = false) (h2 : s.groupsEnded T = true) (h4 : SMap.wf s.teams = true) :
   ∃ u, (Host.Outcome.next (if s.mretBusy n then s else if T.seq.serr then (s.updSeq n fun q => { q with serr := false }).seqFault n 20 0
      else (s.seqThen n fun q => { q with run := 3 }).checkTeam n) : Result) = .next u ∧ u.team? n = none := by
  rw [h0, h1]; simp only [Bool.false_eq_true, if_false]
  refine ⟨_, rfl, ?_⟩
  have ht : (s.seqThen n fun q => { q with run := 3 }).team? n = some { T with seq := { T.seq with run := 3, mpc := T.seq.mpc + 4 } } := by
      show SMap.find? (SMap.upd s.teams n _) n = _
      have : SMap.find? s.teams n = some T := h
      rw [SMap.find?_upd_self, this]; rfl
  unfold State.checkTeam
  rw [ht]; dsimp only
  have e1 : (s.seqThen n fun q => { q with run := 3 }).groupsEnded { T with seq := { T.seq with run := 3, mpc := T.seq.mpc + 4 } } = s.groupsEnded T := rfl
  rw [e1, h2]
  rw [if_pos (by rfl)]
  show SMap.find? (State.endTeam _ n).teams n = none
  rw [endTeam_teams ht]
  refine SMap.find?_del_self _ _ ?_
  show SMap.wf (SMap.upd s.teams n _) = true
  rw [SMap.upd_some _ _ _ T h]
  exact SMap.wf_put _ _ _ h4

theorem marv_spec {s : State} {n : Nat} {T : Team} {b : BitVec 5} (h : s.team? n = some T) (h1 : s.stopping n = false) (h0 : s.mretBusy n = false) (h2 : T.seq.serr = false) (h3 : T.seq.comp ≤ s.now) :
   ∃ u U, Arrives s u n b.toNat 1 ∧ u.team? n = some U ∧ SeqGoes n u U id (.next (
      if s.stopping n then s.updTeam n fun T => { T with seqStop := true }
      else if s.mretBusy n then s
      else if T.seq.serr then (s.updSeq n fun q => { q with serr := false }).seqFault n 20 0
      else if s.now < T.seq.comp then s
      else (s.arrive n b.toNat 1).seqThen n id)) := by
  rw [h1, h0, h2]; simp only [Bool.false_eq_true, if_false]; rw [if_neg (by omega)]
  have ha := State.arrive_spec s n b.toNat 1
  have hu : (s.arrive n b.toNat 1).team? n = some T := by
    rw [ha.1]; exact h
  exact ⟨_, _, ha, hu, seqThen_spec hu id⟩

theorem settle_team {s : State} {n : Nat} {T : Team} (h : s.team? n = some T) : (s.settleObuf T).team? n = some T := by
  unfold State.settleObuf
  split
  · exact h
  · exact h
/-- only the operand buffer of a core has changed -/

def Ob (k : Nat) (s u : State) : Prop := (∃ cs, u = { s with cores := cs }) ∧ ∀ j, u.core j = if j = k then { s.core j with obuf := (u.core j).obuf, obOld := (u.core j).obOld } else s.core j

theorem Ob.refl (k : Nat) (s : State) : Ob k s s := ⟨⟨_, rfl⟩, fun j => by split <;> rfl⟩

theorem Ob.trans {k : Nat} {s u v : State} (h : Ob k s u) (l : Ob k u v) : Ob k s v := by
  obtain ⟨⟨cs, rfl⟩, h2⟩ := h; obtain ⟨⟨ds, rfl⟩, l2⟩ := l
  refine ⟨⟨ds, rfl⟩, fun j => ?_⟩
  rw [l2 j, h2 j]; by_cases hj : j = k
  · subst hj; simp only [if_true]
  · simp only [hj, if_false]

theorem Ob.fold {α : Type} {k : Nat} {f : State → α → State} (hf : ∀ s x, Ob k s (f s x)) (xs : List α) (s : State) : Ob k s (xs.foldl f s) := by
  induction xs generalizing s with
  | nil => exact Ob.refl k s
  | cons x xs ih => rw [List.foldl_cons]; exact (hf s x).trans (ih _)

theorem Ob.upd (s : State) (c : Nat) (f : Core → Core) (hf : ∀ x, f x = { x with obuf := (f x).obuf, obOld := (f x).obOld }) : Ob c s (s.updCore c f) := by
  refine ⟨⟨_, rfl⟩, fun j => ?_⟩
  have e : ∀ j, (s.updCore c f).core j = if j = c then f (s.core c) else s.core j := by
    intro j
    show SMap.get (SMap.put s.cores c _) j _ = _
    rw [SMap.get_put]; rfl
  rw [e]
  by_cases hj : j = c
  · subst hj; simp only [if_true]; exact hf _
  · simp only [hj, if_false]

theorem Ob.poke (s : State) (c a : Nat) (b : Byte) : Ob c s (s.pokeOwn (.obuf c a) b) := by
  show Ob c s ((s.pokeBank (.obuf c a) b).updCore c fun x => { x with obOld := x.obOld.del a })
  have h1 : Ob c s (s.pokeBank (.obuf c a) b) := Ob.upd s c (fun x => { x with obuf := SMap.set x.obuf a b 0, obOld := if (SMap.find? x.obOld a).isSome then x.obOld else SMap.put x.obOld a (SMap.get x.obuf a 0) }) fun _ => rfl
  exact h1.trans (Ob.upd _ c _ fun _ => rfl)

theorem Ob.rsv (s : State) (T : Team) (x : QWord) (o : Nat) (bs : List Byte) : Ob T.core s (s.rsvPoke T x o bs) := by
  unfold State.rsvPoke
  exact Ob.fold (fun s y => Ob.poke s _ _ _) _ _
/-- only sums, tiles and flags of a unit have changed -/

def Tn (q r : Seq) : Prop := ∃ t a b c d, r = { q with tiles := t, rmax := a, rsum := b, movf := c, munf := d }

theorem Tn.refl (q : Seq) : Tn q q := ⟨_, _, _, _, _, rfl⟩

theorem Tn.trans {q r u : Seq} (h : Tn q r) (k : Tn r u) : Tn q u := by
  obtain ⟨a, b, c, d, e, rfl⟩ := h; obtain ⟨a', b', c', d', e', rfl⟩ := k; exact ⟨_, _, _, _, _, rfl⟩

theorem Tn.fold {α : Type} {f : Seq → α → Seq} (hf : ∀ s x, Tn s (f s x)) (xs : List α) (s : Seq) : Tn s (xs.foldl f s) := by
  induction xs generalizing s with
  | nil => exact Tn.refl s
  | cons x xs ih => rw [List.foldl_cons]; exact (hf s x).trans (ih _)

theorem Tn.putTile (q : Seq) (k : Nat) (v : MVal) : Tn q (q.putTile k v) := ⟨_, _, _, _, _, rfl⟩

theorem Tn.product (q : Seq) (rows : List (Nat × List Blk)) (a c0 cols : Nat) (o : Bool) : Tn q (q.product rows a c0 cols o) := by
  unfold Seq.product
  exact Tn.fold (fun s x => Tn.fold (fun s y => Tn.putTile _ _ _) _ _) _ _

theorem Tn.softScale (q : Seq) (a i new d : Nat) (qs : List Nat) (f : Bool) : Tn q (q.softScale a i new d qs f) := by
  unfold Seq.softScale
  exact (Tn.fold (fun s y => Tn.putTile _ _ _) _ _).trans ⟨_, _, _, _, _, rfl⟩

theorem rmax_fold {α : Type} {f : Seq → α → Seq} (hf : ∀ s x, (f s x).rmax = s.rmax) (xs : List α) (s : Seq) : (xs.foldl f s).rmax = s.rmax := by
  induction xs generalizing s with
  | nil => rfl
  | cons x xs ih => rw [List.foldl_cons, ih, hf]

theorem rmax_product (q : Seq) (rows : List (Nat × List Blk)) (a c0 cols : Nat) (o : Bool) : (q.product rows a c0 cols o).rmax = q.rmax := by
  unfold Seq.product
  refine rmax_fold ?_ _ _
  intro s x
  refine rmax_fold ?_ _ _
  intro s y; rfl

theorem rmax_softScale (q : Seq) (a i new d : Nat) (qs : List Nat) (f : Bool) : (q.softScale a i new d qs f).rmax = q.rmax.put (a * 64 + i) (BitVec.ofNat 32 new) := by
  unfold Seq.softScale
  dsimp only
  refine congrArg (fun m : SMap Word => m.put (a * 64 + i) (BitVec.ofNat 32 new)) (rmax_fold ?_ _ _)
  intro s y; rfl

theorem rmax_rows (a : Nat) (f : Bool) (new d : Nat → Nat) (qs : Nat → List Nat) (is : List Nat) (q : Seq) (i : Nat) :
   (is.foldl (fun q i => q.softScale a i (new i) (d i) (qs i) f) q).rmax.get (a * 64 + i) 0 = if i ∈ is then BitVec.ofNat 32 (new i) else q.rmax.get (a * 64 + i) 0 := by
  induction is generalizing q with
  | nil => simp
  | cons k ks ih =>
    rw [List.foldl_cons, ih, rmax_softScale, SMap.get_put]
    by_cases h1 : i ∈ ks
    · simp [h1]
    · by_cases h2 : i = k
      · subst h2; simp [h1]
      · have : ¬ a * 64 + i = a * 64 + k := by omega
        simp [h1, h2]

theorem chain4 (c : SMap Nat) (b i : Nat) (hi : i < 4) : SMap.find? ((List.range 4).foldl (fun c i => SMap.put c (b + i) b) c) (b + i) = some b := by
  have e : List.range 4 = [0, 1, 2, 3] := rfl
  rw [e]
  simp only [List.foldl_cons, List.foldl_nil]
  have hx : ∀ (m : SMap Nat) (j : Nat), SMap.find? (SMap.put m (b + j) b) (b + i) = if i = j then some b else SMap.find? m (b + i) := by
    intro m j
    by_cases h : i = j
    · subst h; rw [SMap.find?_put_self, if_pos rfl]
    · rw [SMap.find?_put_ne _ _ (by omega), if_neg h]
  rw [hx, hx, hx, hx]
  split
  · rfl
  · split
    · rfl
    · split
      · rfl
      · rw [if_pos (by omega)]

theorem seqGoes_team {s : State} {n : Nat} {T : Team} {F : Seq → Seq} {r : Result} (h : SeqGoes n s T F r) : ∃ u U, r = .next u ∧ U = { T with seq := { F T.seq with mpc := T.seq.mpc + 4 } } ∧ u = { s with teams := SMap.put s.teams n U } := by
  obtain ⟨u, h1, h2⟩ := h; exact ⟨u, _, h1, rfl, h2⟩

theorem soft_gen {s : State} {n : Nat} {T : Team} (h : s.team? n = some T) (b : Nat) (first : Bool) (f : Nat) (N D : Nat → Nat) (B : Nat → List Blk) (Z : Nat → Bool)
   (rows : List (Nat × Nat × Nat × List Blk × Bool)) (hr : rows = (List.range 64).map fun i => (i, N i, D i, B i, Z i)) (p : State) (hp : Ob T.core s p) (found : Bool) (as : List (Nat × List Blk)) :
   ∃ u U, (Host.Outcome.next ((p.draw 1).seqThen n fun q =>
          let q := rows.foldl (fun (q : Seq) (i, new, d, bs, _) =>
            q.softScale b i new d ((bs.flatMap fun bl => (List.range 16).map fun j =>
              (pebValue f (bl.code.getD j 0) bl.e (bl.mu.getD (j / 4) 0)).toNat)) first) q
          let q := q.product as b 0 512 false
          { q with
            bmx := q.bmx || found
            msat := q.msat || rows.any fun (_, _, _, _, z) => z
            chain := (List.range 4).foldl (fun c i => SMap.put c (b + i) b) q.chain }) : Result) = .next u ∧ u.team? n = some U ∧
         u = { s with
           teams := SMap.put s.teams n U
           cores := u.cores
           fresh := s.fresh + 1 } ∧
         (∀ k, u.core k = if k = T.core then { s.core k with
           obuf := (u.core k).obuf
           obOld := (u.core k).obOld } else s.core k) ∧
         U = { T with seq := { T.seq with
           mpc := T.seq.mpc + 4
           tiles := U.seq.tiles
           rmax := U.seq.rmax
           rsum := U.seq.rsum
           chain := U.seq.chain
           bmx := U.seq.bmx
           msat := U.seq.msat
           movf := U.seq.movf
           munf := U.seq.munf } } ∧
         (∀ i, i < 4 → SMap.find? U.seq.chain (b + i) = some b) ∧
         ∀ i, i < 64 → U.seq.rmax.get (b * 64 + i) 0 = BitVec.ofNat 32 (N i) := by
  obtain ⟨⟨cs, rfl⟩, hc⟩ := hp
  have ht : (({ s with cores := cs } : State).draw 1).team? n = some T := h
  obtain ⟨u, U, hu1, hU, hu2⟩ := seqGoes_team (seqThen_spec ht (fun q =>
          let q := rows.foldl (fun (q : Seq) (i, new, d, bs, _) =>
            q.softScale b i new d ((bs.flatMap fun bl => (List.range 16).map fun j =>
              (pebValue f (bl.code.getD j 0) bl.e (bl.mu.getD (j / 4) 0)).toNat)) first) q
          let q := q.product as b 0 512 false
          { q with
            bmx := q.bmx || found
            msat := q.msat || rows.any fun (_, _, _, _, z) => z
            chain := (List.range 4).foldl (fun c i => SMap.put c (b + i) b) q.chain }))
  refine ⟨u, U, hu1, ?_, ?_, ?_, ?_, ?_, ?_⟩
  · rw [hu2]; exact SMap.find?_put_self _ _ _
  · rw [hu2]; rfl
  · intro k; rw [hu2]; exact hc k
  · have e1 : Tn T.seq (rows.foldl (fun (q : Seq) (i, new, d, bs, _) =>
            q.softScale b i new d ((bs.flatMap fun bl => (List.range 16).map fun j =>
              (pebValue f (bl.code.getD j 0) bl.e (bl.mu.getD (j / 4) 0)).toNat)) first) T.seq) :=
      Tn.fold (fun s x => Tn.softScale _ _ _ _ _ _ _) _ _
    have e2 := e1.trans (Tn.product _ as b 0 512 false)
    obtain ⟨t1, t2, t3, t4, t5, e3⟩ := e2
    rw [hU]
    dsimp only at e3 ⊢
    rw [e3]
  · intro i hi
    rw [hU]
    exact chain4 _ b i hi
  · intro i hi
    rw [hU]
    dsimp only
    rw [rmax_product, hr, List.foldl_map]
    have := rmax_rows b first N D (fun i => (B i).flatMap fun bl => (List.range 16).map fun j =>
              (pebValue f (bl.code.getD j 0) bl.e (bl.mu.getD (j / 4) 0)).toNat) (List.range 64) T.seq i
    rw [if_pos (List.mem_range.2 hi)] at this
    exact this

theorem mmulsm_spec {s : State} {n : Nat} {T : Team} {a o : BitVec 3} {m : BitVec 5} {v : BitVec 1} (h : s.team? n = some T)
   (h1 : T.seq.shape = some 2) (h2 : a = 0 ∨ a = 4) (h3 : (T.seq.reg m.toNat).toNat < 8) (h4 : (T.seq.reg m.toNat).toNat < a.toNat ∨ a.toNat + 3 < (T.seq.reg m.toNat).toNat)
   (h5 : flag1 v = true ∨ ∀ i, i < 4 → SMap.find? T.seq.chain (a.toNat + i) = some a.toNat)
   (h6 : rsvUsable (T.rsv o.toNat) 0 64 128 = true) (h7 : rsvFmt (T.rsv o.toNat) = T.seq.fmt) (h8 : T.bmOk o.toNat (T.rsv o.toNat) 0 64 128 = true) :
   ∃ u U, (Host.Outcome.next (let x := T.rsv o.toNat
      let mk := (T.seq.reg m.toNat).toNat
      let b := a.toNat
      let first := flag1 v
      if T.seq.shape ≠ some 2 ∨ (b ≠ 0 ∧ b ≠ 4) ∨ mk / 8 ≠ 0 ∨ (b ≤ mk ∧ mk ≤ b + 3) then s.seqFault n 13 0
      else if !first ∧ !((List.range 4).all fun i => T.seq.chain.find? (b + i) == some b) then s.seqFault n 15 0
      else if !(rsvUsable x 0 64 128) then s.seqFault n 11 0
      else if rsvFmt x ≠ T.seq.fmt then s.seqFault n 14 0
      else if !(T.bmOk o.toNat x 0 64 128) then s.seqFault n 11 0
      else
        let f := rsvFmt x
        let rows : List (Nat × Nat × Nat × List Blk × Bool) := (List.range 64).map fun i =>
          let old := if first then negInf else (T.seq.rmax.get (b * 64 + i) 0xFF800000).toNat
          let (new, d, ps) := softRow old ((List.range 128).map fun k => T.seq.tile (tileKey mk i k))
          let (bs, sat) := softBlocks f ps
          (i, new, d, bs, sat)
        let s := rows.foldl (fun s (i, _, _, bs, _) => (bs.zipIdx).foldl (fun s (bl, k) =>
          let y := bl.bytes f
          (s.rsvPoke T x (i * rsvPitch x + k * pebP f) y.1).rsvPoke T x
            (rsvSoff x + i * (2 * rsvPitch x / pebP f) + 2 * k) y.2) s) s
        let found := s.bmFound T o.toNat x 0 64 128
        let as := (List.range 64).map fun i => (i, s.rsvRow T x i 128)
        (s.draw 1).seqThen n fun q =>
          let q := rows.foldl (fun (q : Seq) (i, new, d, bs, _) =>
            q.softScale b i new d ((bs.flatMap fun bl => (List.range 16).map fun j =>
              (pebValue f (bl.code.getD j 0) bl.e (bl.mu.getD (j / 4) 0)).toNat)) first) q
          let q := q.product as b 0 512 false
          { q with
            bmx := q.bmx || found
            msat := q.msat || rows.any fun (_, _, _, _, z) => z
            chain := (List.range 4).foldl (fun c i => SMap.put c (b + i) b) q.chain }) : Result) = .next u ∧ u.team? n = some U ∧
         u = { s with
           teams := SMap.put s.teams n U
           cores := u.cores
           fresh := s.fresh + 1 } ∧
         (∀ k, u.core k = if k = T.core then { s.core k with
           obuf := (u.core k).obuf
           obOld := (u.core k).obOld } else s.core k) ∧
         U = { T with seq := { T.seq with
           mpc := T.seq.mpc + 4
           tiles := U.seq.tiles
           rmax := U.seq.rmax
           rsum := U.seq.rsum
           chain := U.seq.chain
           bmx := U.seq.bmx
           msat := U.seq.msat
           movf := U.seq.movf
           munf := U.seq.munf } } ∧
         (∀ i, i < 4 → SMap.find? U.seq.chain (a.toNat + i) = some a.toNat) ∧
         ∀ i, i < 64 → U.seq.rmax.get (a.toNat * 64 + i) 0 = BitVec.ofNat 32 (softRow
           (if flag1 v = true then negInf else (T.seq.rmax.get (a.toNat * 64 + i) 0xFF800000).toNat)
           ((List.range 128).map fun k => T.seq.tile (tileKey (T.seq.reg m.toNat).toNat i k))).1 := by
  dsimp only
  have ha : a.toNat = 0 ∨ a.toNat = 4 := by rcases h2 with h2 | h2 <;> rw [h2] <;> decide
  rw [if_neg (by rw [h1]; simp only [ne_eq, not_true_eq_false, false_or]; omega)]
  rw [if_neg (by
    rcases h5 with h5 | h5
    · simp [h5]
    · simp only [Bool.not_eq_true', not_and, Bool.not_eq_false, List.all_eq_true, List.mem_range, beq_iff_eq]; intro _; exact h5)]
  rw [h6, if_neg (by simp), if_neg (by simpa using h7), h8, if_neg (by simp)]
  refine soft_gen h a.toNat (flag1 v) _ _ _ _ _ _ rfl _ ?_ _ _
  refine Ob.fold (fun s y => Ob.fold (fun s z => ?_) _ _) _ _
  exact (Ob.rsv _ _ _ _ _).trans (Ob.rsv _ _ _ _ _)

theorem mgrp_spec {s : State} {n : Nat} {T : Team} {a o : BitVec 3} {m : BitVec 5} (h : s.team? n = some T) (h1 : T.seq.shape = some 0)
   (h2 : 1 ≤ (T.seq.reg m.toNat).toNat / 2 ^ 24) (h3 : (T.seq.reg m.toNat).toNat / 2 ^ 24 ≤ 8) (h4 : (T.seq.reg m.toNat).toNat / 2 ^ 20 % 16 = 0)
   (h5 : (T.seq.reg m.toNat).toNat % 2 ^ 20 + 2 * ((T.seq.reg m.toNat).toNat / 2 ^ 24 + 1) ≤ rsvLen (T.rsv o.toNat)) :
   let x := T.rsv o.toNat
   let mk := (T.seq.reg m.toNat).toNat
   let G := mk / 2 ^ 24
   let off := fun g => (s.rsvByte T x (mk % 2 ^ 20 + 2 * g)).toNat + 256 * (s.rsvByte T x (mk % 2 ^ 20 + 2 * g + 1)).toNat
   (∀ g, g ≤ G → (g > 0 → off (g - 1) ≤ off g) ∧ (off g = 0 ∨ rowInside x (off g - 1) 64 = true) ∧ off g ≤ off 0 + 64) →
   rsvUsable x (off 0) (off G - off 0) 64 = true → rsvFmt x = T.seq.fmt →
   SeqGoes n (s.draw 1) T (fun q =>
         let q := ((List.range G).foldl (fun q g => q.product ((List.range (off (g + 1) - off g)).map fun i => (off g + i - off 0, s.rsvRow T x (off g + i) 64)) a.toNat (128 * g) 128 false) q).unchain a.toNat 1
         { q with bmx := q.bmx || s.bmFound T o.toNat x (off 0) (off G - off 0) 64 }) (.next (
      let x := T.rsv o.toNat
      let mk := (T.seq.reg m.toNat).toNat
      let vec := mk % 2 ^ 20
      let G := mk / 2 ^ 24
      if T.seq.shape ≠ some 0 then s.seqFault n 13 0
      else if G = 0 ∨ G > 8 ∨ mk / 2 ^ 20 % 16 ≠ 0 then s.seqFault n 16 0
      else if vec + 2 * (G + 1) > rsvLen x then s.seqFault n 11 0
      else
        let off (g : Nat) : Nat := (s.rsvByte T x (vec + 2 * g)).toNat + 256 * (s.rsvByte T x (vec + 2 * g + 1)).toNat
        let bad (g : Nat) : Bool :=
          (g > 0 && off g < off (g - 1)) || (off g != 0 && !(rowInside x (off g - 1) 64)) || off g > off 0 + 64
        match (List.range (G + 1)).find? bad with
        | some g => s.seqFault n 16 g
        | none =>
          let n' := off G - off 0
          if !(rsvUsable x (off 0) n' 64) then s.seqFault n 11 0
          else if rsvFmt x ≠ T.seq.fmt then s.seqFault n 14 0
          else
            let found := s.bmFound T o.toNat x (off 0) n' 64
            (s.draw 1).seqThen n fun q =>
              let q := (List.range G).foldl (fun (q : Seq) g =>
                q.product ((List.range (off (g + 1) - off g)).map fun i => (off g + i - off 0, s.rsvRow T x (off g + i) 64))
                  a.toNat (128 * g) 128 false) q
              let q := q.unchain a.toNat 1
              { q with bmx := q.bmx || found })) := by
  intro x mk G off h6 h7 h8
  have hb : (List.range (G + 1)).find? (fun g => (decide (g > 0) && decide (off g < off (g - 1))) || (off g != 0 && !(rowInside x (off g - 1) 64)) || decide (off g > off 0 + 64)) = none := by
    rw [List.find?_eq_none]
    intro g hg
    have hg' : g ≤ G := by have := List.mem_range.1 hg; omega
    obtain ⟨a1, a2, a3⟩ := h6 g hg'
    simp only [Bool.or_eq_true, Bool.and_eq_true, decide_eq_true_eq, bne_iff_ne, ne_eq, Bool.not_eq_true', not_or, not_and]
    refine ⟨⟨fun hz => by have := a1 hz; omega, fun hz => ?_⟩, by omega⟩
    rcases a2 with a2 | a2
    · exact absurd a2 hz
    · simp [a2]
  have key := seqThen_spec (s := s.draw 1) h (fun q =>
         let q := ((List.range G).foldl (fun q g => q.product ((List.range (off (g + 1) - off g)).map fun i => (off g + i - off 0, s.rsvRow T x (off g + i) 64)) a.toNat (128 * g) 128 false) q).unchain a.toNat 1
         { q with bmx := q.bmx || s.bmFound T o.toNat x (off 0) (off G - off 0) 64 })
  convert key using 2
  dsimp only
  rw [if_neg (by rw [h1]; simp), if_neg (by omega), if_neg (by omega)]
  split
  · rename_i g hg
    exact absurd (hb.symm.trans hg) (by simp)
  · rw [if_neg (show ¬ (!(rsvUsable x (off 0) (off G - off 0) 64)) = true by rw [h7]; simp), if_neg (show ¬ rsvFmt x ≠ T.seq.fmt by simpa using h8)]

theorem teams_fold1 {α : Type} {f : State → α → State} (hf : ∀ s x, (f s x).teams = s.teams) (xs : List α) (s : State) : (xs.foldl f s).teams = s.teams := by
  induction xs generalizing s with
  | nil => rfl
  | cons x xs ih => rw [List.foldl_cons, ih, hf]

theorem teams_pokeBank (s : State) (p : Loc) (b : Byte) : (s.pokeBank p b).teams = s.teams := by
  unfold State.pokeBank; split <;> rfl

theorem teams_pokeOwn (s : State) (p : Loc) (b : Byte) : (s.pokeOwn p b).teams = s.teams := by
  unfold State.pokeOwn; split <;> [exact (teams_pokeBank s _ _); exact teams_pokeBank s _ _]

theorem teams_sendEng (s : State) (t : Nat) (x : Txn) (rs : List (Nat × ReqKind)) : (s.sendEng t x rs).teams = s.teams := by
  unfold State.sendEng
  refine teams_fold1 ?_ _ _
  intro s x; rfl

theorem teams_writeTxn (s : State) (t : Nat) (bs : List (Loc × Byte)) : (s.writeTxn t bs).teams = s.teams := by
  unfold State.writeTxn
  split
  · rfl
  · dsimp only
    rw [teams_sendEng, State.wake_eq]
    show (List.foldl _ s bs).teams = _
    refine teams_fold1 (fun s x => ?_) _ _
    obtain ⟨p, b⟩ := x
    show State.teams (if _ then s.pokeOwn p b else s.pokeBank p b) = _
    split
    · exact teams_pokeOwn _ _ _
    · exact teams_pokeBank _ _ _
/-- a team of which only the completion time and the write error of the matrix unit may have changed -/

def CompOf (T U : Team) : Prop := U = { T with seq := { T.seq with comp := U.seq.comp, serr := U.seq.serr } }

theorem CompOf.trans {T U V : Team} (h : CompOf T U) (k : CompOf U V) : CompOf T V := by
  unfold CompOf at *
  rw [k]; dsimp only; rw [h]

theorem engClose_team {s : State} {n : Nat} {T : Team} (h : s.team? n = some T) (t : Nat) : ∃ U, (s.engClose t).team? n = some U ∧ CompOf T U := by
  unfold State.engClose
  cases hx : s.txns.find? t with
  | none => exact ⟨T, h, rfl⟩
  | some x =>
    dsimp only
    split
    · cases hw : x.who with
      | mret k =>
        by_cases hk : n = k
        · subst hk
          refine ⟨{ T with seq := { T.seq with comp := max T.seq.comp x.comp, serr := T.seq.serr || x.werr } }, ?_, rfl⟩
          show SMap.find? (SMap.upd s.teams n _) n = _
          have : SMap.find? s.teams n = some T := h
          rw [SMap.find?_upd_self, this]; rfl
        · refine ⟨T, ?_, rfl⟩
          show SMap.find? (SMap.upd s.teams k _) n = _
          rw [SMap.find?_upd_ne _ _ hk]; exact h
      | _ => exact ⟨T, h, rfl⟩
    · exact ⟨T, h, rfl⟩

theorem mretSend_team {s : State} {n : Nat} {T : Team} (h : s.team? n = some T) (t : Nat) (T' : Team) (r : QWord) (ws : List (Loc × Byte)) :
   ∃ U, (s.mretSend t T' r ws).team? n = some U ∧ CompOf T U := by
  unfold State.mretSend
  refine engClose_team ?_ _
  unfold State.team?
  rw [teams_writeTxn]
  exact (congrArg (SMap.find? · n) (teams_sendEng _ _ _ _)).trans h

theorem mret_gen {s : State} (n : Nat) (T : Team) (a : Nat) (r r' : QWord) (p0 p1 : Plan) (e : Epi)
   (h3 : recOob r = 1 → p0.oob = []) (h4 : recOob r' = 1 → p1.oob = []) (h5 : p0.faults = []) (h6 : p1.faults = []) (ht : p1.st.team? n = some T) :
   ∃ U, let u := (p1.st.mretSend n T r (placed p0.good e.main)).mretSend n T r' (placed p1.good e.side)
     u.team? n = some U ∧
     U = { T with seq := { T.seq with
       comp := U.seq.comp
       serr := U.seq.serr } } ∧
     SeqGoes n u U (fun q => q.retire a e) (.next (s.mretStores n T a e r r' p0 p1)) := by
  obtain ⟨U, h7, h8⟩ := mretSend_team ht n T r (placed p0.good e.main)
  obtain ⟨V, h9, h10⟩ := mretSend_team h7 n T r' (placed p1.good e.side)
  refine ⟨V, h9, h8.trans h10, ?_⟩
  unfold State.mretStores
  rw [if_neg (by rintro (⟨x1, x2⟩ | ⟨x1, x2⟩); exacts [x2 (h3 x1), x2 (h4 x1)])]
  have hf : mretFaults p0 p1 = [] := by unfold mretFaults; rw [h5, h6]; rfl
  rw [hf]
  exact seqThen_spec h9 _

theorem plan_teams (s : State) (core : Nat) (G : Group) (r : QWord) (width : Nat) (w : Want) (idx : List (Nat × Int)) : (s.plan core G r width w idx).st.teams = s.teams := by
  obtain ⟨u, m, ⟨⟨_, _, _, _, hu⟩, _⟩, hs⟩ := State.plan_st s core G r width w idx
  rw [hs, hu]; rfl

end Sys2Proof.Machine
end

