-- ==== Sys2Proof/Laws/Results.lean ====
section
/-! SUPPORT. Blocked paths that go on, and results that are written (R24 to R26, R156, R196). -/

namespace Sys2Proof.Machine

theorem flagAll_eq (G : Group) (m f : Word) : G.flagAll m f = { G with lanes := (G.flagAll m f).lanes } := by unfold Group.flagAll; exact Group.updLanes_eq _ _ _

theorem unblock_spec {s : State} {g : Nat} {G : Group} (h : s.group? g = some G) (b : Block) (again : Bool) : Resumes g s G b again (.next (s.unblock g b again)) := by
  unfold State.unblock
  dsimp only
  rw [State.updGroup_some h]
  have hf : ∀ l, (G.flagAll b.cond.oob flagOOB).lane l = if b.cond.oob.getLsbD l = true then (G.lane l).flag flagOOB else G.lane l := by
    intro l
    unfold Group.flagAll
    rw [Group.lane_updLanes _ (lanesOf_nodup _)]
    simp only [mem_lanesOf]
  have hr := flagAll_eq G b.cond.oob flagOOB
  refine ⟨_, _, rfl, rfl, ?_, ?_⟩
  · cases hs : b.hseq with
    | true => simp only [if_true]; rw [hr]
    | false => simp only [Bool.false_eq_true, if_false]; rw [Group.updLanes_eq, hr]
  · intro l
    cases hs : b.hseq with
    | true => simp only [if_true, Bool.true_eq_false, false_and, if_false]; exact hf l
    | false =>
      simp only [Bool.false_eq_true, if_false, true_and]
      rw [Group.lane_updLanes _ (lanesOf_nodup _)]
      simp only [mem_lanesOf]
      have e : (Group.lane { G.flagAll b.cond.oob flagOOB with blk := G.blk.filter (·.id != b.id) } l) = if b.cond.oob.getLsbD l = true then (G.lane l).flag flagOOB else G.lane l := hf l
      have es : (if b.cond.oob.getLsbD l = true then (G.lane l).flag flagOOB else G.lane l).st = (G.lane l).st := by split <;> rfl
      rw [e, es]
      by_cases hm : b.mask.getLsbD l = true
      · simp only [hm, if_true, true_and]
      · simp only [hm]; rfl

theorem State.Blocked.find {s : State} {g id : Nat} {G : Group} {b : Block} (h : s.Blocked g id G b) : s.block? g id = some (G, b) := by
  unfold State.block?; rw [h.1]; dsimp only [Option.bind_some]; rw [h.2]; rfl

theorem returns_spec {s : State} {g : Nat} {G : Group} (h : s.group? g = some G) (b : Block) (sd : Nat) (cs : List WCond) (m : Word) :
   Resumes g (s.returned g G b sd m (waitFlags cs)) (G.returned s b sd m (waitFlags cs)) b false (.next (s.waitReturns g b sd cs m)) := by
  unfold State.waitReturns
  have e : (s.updGroup g fun G => G.start s.uid b.mask b.first (.s sd 1) (some [⟨0, [m], waitFlags cs, false⟩])).bump = s.returned g G b sd m (waitFlags cs) := by
    rw [State.updGroup_some h]; rfl
  rw [e]
  have hg : (s.returned g G b sd m (waitFlags cs)).group? g = some (G.returned s b sd m (waitFlags cs)) := SMap.find?_put_self _ _ _
  exact unblock_spec hg b false

theorem sends_wire {α : Type} (f : State → α → Req) (xs : List α) (s : State) :
   ∃ w n, xs.foldl (fun s x => s.send (f s x)) s = { s with wire := w, uid := n } ∧ (∀ x ∈ s.wire, x ∈ w) ∧
     ∀ x ∈ xs, ∃ y ∈ w, ∃ v n, y = { f v x with id := n } ∧ v = { s with wire := v.wire, uid := v.uid } := by
  induction xs generalizing s with
  | nil => exact ⟨_, _, rfl, fun _ h => h, nofun⟩
  | cons x xs ih =>
    rw [List.foldl_cons]
    obtain ⟨w, n, h1, h2, h3⟩ := ih (s.send (f s x))
    refine ⟨w, n, h1, fun y hy => h2 y (List.mem_append_left _ hy), ?_⟩
    intro y hy
    rcases List.mem_cons.1 hy with rfl | hy
    · exact ⟨_, h2 { f s y with id := s.uid } (List.mem_append_right _ (List.mem_singleton.2 rfl)), s, s.uid, rfl, rfl⟩
    · obtain ⟨z, hz, v, k, e1, e2⟩ := h3 y hy
      exact ⟨z, hz, v, k, e1, e2⟩

theorem poll_spec {s : State} {g id k : Nat} {G : Group} {b : Block} {ls : List Loc} {x : Nat} {y : Word} {p : Poll} (h : s.Blocked g id G b) (hok : s.pollBad G ls = []) :
   PollSent g s G b k p (s.pollSecs G ls) (.next (s.repoll g G b k (.mem (some ls) x y p))) := by
  unfold State.repoll
  dsimp only
  rw [hok]
  simp only [List.isEmpty_nil, if_true]
  obtain ⟨⟨cs, ds, sd, rc, hu⟩, -, -⟩ := State.learns_like G.core (s.pollPages G ls) s
  generalize (s.pollPages G ls).length = m
  generalize s.pollSecs G ls = secs
  rw [hu]
  unfold State.sendPoll
  have hg : ({ s with cores := cs, dies := ds, side := sd, rowCorr := rc } : State).group? g = some G := h.1
  cases secs with
  | nil =>
    refine ⟨_, G, rfl, ?_, rfl, nofun⟩
    show _ = ({ s with groups := SMap.put s.groups g G, cores := _, dies := _, side := _, rowCorr := _, wire := _, uid := _, fresh := _ } : State)
    rw [SMap.put_find s.groups g G h.1]; rfl
  | cons q qs =>
    dsimp only [List.isEmpty_cons]
    simp only [Bool.false_eq_true, if_false]
    rw [State.updGroup_some (s := ({ s with cores := cs, dies := ds, side := sd, rowCorr := rc } : State).draw (1 + m)) (G := G) hg]
    obtain ⟨w, n, e1, e2, e3⟩ := sends_wire (fun (s : State) (x : Nat) => (⟨0, .wait g b.id k p.ser, .wait, x, G.vf, s.key G.vf, p.cls, s.stamp p.budget, G.core, G.part⟩ : Req)) (q :: qs) { ({ s with cores := cs, dies := ds, side := sd, rowCorr := rc } : State).draw (1 + m) with groups := SMap.put s.groups g { G with blk := G.blk.map fun x => if x.id = b.id then x.updPoll k (fun _ p => { p with sent := s.now, secs := q :: qs }) else x } }
    refine ⟨_, _, congrArg Host.Outcome.next e1, rfl, ?_, ?_⟩
    · rw [if_neg (by simp)]
    · intro x hx
      obtain ⟨y, hy, v, i, rfl, -⟩ := e3 x hx
      exact ⟨_, hy, rfl, rfl, rfl, rfl, rfl⟩

theorem trapBlock_spec {s : State} {g : Nat} {G : Group} {b : Block} (h : s.group? g = some G) (ht : s.Trappable G b) (cls detail : Nat) :
   ParksBlocked g s G b cls detail (.next (s.trapBlock g G b cls detail)) := by
  obtain ⟨h1, h2, h3⟩ := ht
  unfold State.trapBlock
  have hi : (b.hseq || (lanesOf b.mask).any fun l => (G.lane l).hnd) = false := by
    rw [h2, Bool.false_or, List.any_eq_false]
    intro l hl
    rw [h3 l ((mem_lanesOf _ _).1 hl)]; simp
  dsimp only
  rw [hi, State.updGroup_some h]
  have hg : ({ s with groups := SMap.put s.groups g { G with blk := G.blk.filter (·.id != b.id) } } : State).group? g = some { G with blk := G.blk.filter (·.id != b.id) } := SMap.find?_put_self _ _ _
  rw [State.raise_eq hg _ h1, State.updGroup_some hg]
  refine ⟨_, { (Group.updLanes { G with blk := G.blk.filter (·.id != b.id) } (lanesOf b.mask) fun _ t => { t with st := .trapped, pc := b.first, hints := Hints.clear }) with trapQ := G.trapQ ++ [⟨b.mask, b.first, b.first, b.first, causeWord cls detail 0, false⟩] }, rfl, ?_, ?_, ?_⟩
  · simp only [SMap.put_put]
  · rw [Group.updLanes_eq]
  · intro l
    show (Group.updLanes _ _ _).lane l = _
    rw [Group.lane_updLanes _ (lanesOf_nodup _)]
    simp only [mem_lanesOf]
    rfl

theorem foldl_puts_skip (skip : Nat → Bool) (o : Nat) (xs : List Word) (n : Nat) (m : SMap Word) (k : Nat) :
   ((xs.zipIdx n).foldl (fun v (x : Word × Nat) => if skip (o + x.2) then v else SMap.put v (o + x.2) x.1) m).get k 0 = if o + n ≤ k ∧ k < o + n + xs.length ∧ skip k = false then xs.getD (k - o - n) 0 else m.get k 0 := by
  induction xs generalizing n m with
  | nil => simp [show ¬ (o + n ≤ k ∧ k < o + n ∧ skip k = false) by omega]
  | cons x xs ih =>
    rw [List.zipIdx_cons, List.foldl_cons, ih]
    simp only [List.length_cons]
    by_cases h2 : o + (n + 1) ≤ k ∧ k < o + (n + 1) + xs.length ∧ skip k = false
    · rw [if_pos h2, if_pos ⟨by omega, by omega, h2.2.2⟩, show k - o - n = (k - o - (n + 1)) + 1 by omega, List.getD_cons_succ]
    · rw [if_neg h2]
      by_cases h1 : k = o + n
      · subst h1
        by_cases hs : skip (o + n) = true
        · rw [if_pos hs, if_neg (by simp [hs])]
        · rw [if_neg hs, SMap.get_put_self, if_pos ⟨by omega, by omega, by simpa using hs⟩]
          simp
      · have hm : (if skip (o + n) = true then m else SMap.put m (o + n) x).get k 0 = m.get k 0 := by
          split
          · rfl
          · rw [SMap.get_put_ne _ _ _ h1]
        rw [hm, if_neg (by intro hx; exact h2 ⟨by omega, by omega, hx.2.2⟩)]

def skips (w : Option Window) (n l r : Nat) : Bool := match w with | some w => w.hit.contains (l * 1024 + r) && Config.pick n (l * 1024 + r) | none => false

theorem landLane_v (G : Group) (n : Nat) (w : Option Window) (d k : Nat) (x : LaneVal) (l : Nat) :
   (G.landLane n w (.v d k) x).lane l = if x.err = false ∧ l = x.lane then { G.lane l with v := (x.words.zipIdx).foldl (fun v (y : Word × Nat) => if skips w n x.lane (d + y.2) then v else SMap.put v (d + y.2) y.1) (G.lane l).v } else G.lane l := by
  unfold Group.landLane
  cases he : x.err with
  | true => simp
  | false =>
    simp only [Bool.false_eq_true, if_false, true_and]
    rw [Group.lane_updLane]
    split
    · rename_i hl; subst hl
      congr 1
      cases w <;> rfl
    · rfl

theorem landLane_v_rest (G : Group) (n : Nat) (w : Option Window) (d k : Nat) (x : LaneVal) : G.landLane n w (.v d k) x = { G with lanes := (G.landLane n w (.v d k) x).lanes } := by
  unfold Group.landLane
  cases x.err <;> rfl

theorem landFold_v (n : Nat) (w : Option Window) (d k : Nat) (vs : List LaneVal) (hn : (vs.map (·.lane)).Nodup) (G : Group) (l : Nat) :
   (vs.foldl (fun (G : Group) (x : LaneVal) => G.landLane n w (.v d k) x) G).lane l = match vs.find? (fun x => x.lane == l && !x.err) with
     | some x => { G.lane l with v := (x.words.zipIdx).foldl (fun v (y : Word × Nat) => if skips w n x.lane (d + y.2) then v else SMap.put v (d + y.2) y.1) (G.lane l).v }
     | none => G.lane l := by
  have stay : ∀ (vs : List LaneVal) (G : Group), l ∉ vs.map (·.lane) → (vs.foldl (fun (G : Group) (x : LaneVal) => G.landLane n w (.v d k) x) G).lane l = G.lane l := by
    intro vs
    induction vs with
    | nil => intro G _; rfl
    | cons x xs ih =>
      intro G hl
      rw [List.map_cons, List.mem_cons, not_or] at hl
      rw [List.foldl_cons, ih _ hl.2, landLane_v, if_neg (by intro h; exact hl.1 h.2)]
  induction vs generalizing G with
  | nil => rfl
  | cons x xs ih =>
    rw [List.map_cons, List.nodup_cons] at hn
    rw [List.foldl_cons, List.find?_cons]
    by_cases hx : x.lane = l
    · have hnl : l ∉ xs.map (·.lane) := hx ▸ hn.1
      rw [stay _ _ hnl, landLane_v]
      cases he : x.err with
      | false => simp [hx]
      | true =>
        have hnone : xs.find? (fun x => x.lane == l && !x.err) = none := by
          rw [List.find?_eq_none]; intro y hy; simp only [Bool.and_eq_true, beq_iff_eq, not_and]; intro hyl
          exact absurd (List.mem_map.2 ⟨y, hy, hyl⟩) hnl
        simp [hx, hnone]
    · have hb : (x.lane == l && !x.err) = false := by simp [hx]
      rw [hb]
      dsimp only
      have e : (G.landLane n w (.v d k) x).lane l = G.lane l := by rw [landLane_v, if_neg (by intro h; exact hx h.2.symm)]
      rw [ih hn.2, e]

theorem landFold_v_rest (n : Nat) (w : Option Window) (d k : Nat) (vs : List LaneVal) (G : Group) :
   vs.foldl (fun (G : Group) (x : LaneVal) => G.landLane n w (.v d k) x) G = { G with lanes := (vs.foldl (fun (G : Group) (x : LaneVal) => G.landLane n w (.v d k) x) G).lanes } := by
  induction vs generalizing G with
  | nil => rfl
  | cons x xs ih =>
    rw [List.foldl_cons]
    have e := ih (G.landLane n w (.v d k) x)
    have r := landLane_v_rest G n w d k x
    generalize xs.foldl (fun (G : Group) (x : LaneVal) => G.landLane n w (.v d k) x) (G.landLane n w (.v d k) x) = A at e ⊢
    exact e.trans (by rw [r])

theorem flagFold_v (vs : List LaneVal) (hn : (vs.map (·.lane)).Nodup) (G : Group) (l : Nat) :
   (vs.foldl (fun (G : Group) (x : LaneVal) => if x.err then G else G.updLane x.lane (·.flag x.flags)) G).lane l = match vs.find? (fun x => x.lane == l && !x.err) with
     | some x => (G.lane l).flag x.flags
     | none => G.lane l := by
  have stay : ∀ (vs : List LaneVal) (G : Group), l ∉ vs.map (·.lane) → (vs.foldl (fun (G : Group) (x : LaneVal) => if x.err then G else G.updLane x.lane (·.flag x.flags)) G).lane l = G.lane l := by
    intro vs
    induction vs with
    | nil => intro G _; rfl
    | cons x xs ih =>
      intro G hl
      rw [List.map_cons, List.mem_cons, not_or] at hl
      rw [List.foldl_cons, ih _ hl.2]
      split
      · rfl
      · rw [Group.lane_updLane, if_neg hl.1]
  induction vs generalizing G with
  | nil => rfl
  | cons x xs ih =>
    rw [List.map_cons, List.nodup_cons] at hn
    rw [List.foldl_cons, List.find?_cons]
    by_cases hx : x.lane = l
    · have hnl : l ∉ xs.map (·.lane) := hx ▸ hn.1
      rw [stay _ _ hnl]
      cases he : x.err with
      | false => simp [hx, Group.lane_updLane]
      | true =>
        have hnone : xs.find? (fun x => x.lane == l && !x.err) = none := by
          rw [List.find?_eq_none]; intro y hy; simp only [Bool.and_eq_true, beq_iff_eq, not_and]; intro hyl
          exact absurd (List.mem_map.2 ⟨y, hy, hyl⟩) hnl
        simp [hx, hnone]
    · have hb : (x.lane == l && !x.err) = false := by simp [hx]
      rw [hb]
      dsimp only
      have e : (if x.err then G else G.updLane x.lane (·.flag x.flags)).lane l = G.lane l := by
        split
        · rfl
        · rw [Group.lane_updLane, if_neg (fun h => hx h.symm)]
      rw [ih hn.2, e]

theorem flagFold_v_rest (vs : List LaneVal) (G : Group) :
   vs.foldl (fun (G : Group) (x : LaneVal) => if x.err then G else G.updLane x.lane (·.flag x.flags)) G = { G with lanes := (vs.foldl (fun (G : Group) (x : LaneVal) => if x.err then G else G.updLane x.lane (·.flag x.flags)) G).lanes } := by
  induction vs generalizing G with
  | nil => rfl
  | cons x xs ih =>
    rw [List.foldl_cons]
    have e := ih (if x.err then G else G.updLane x.lane (·.flag x.flags))
    generalize xs.foldl (fun (G : Group) (x : LaneVal) => if x.err then G else G.updLane x.lane (·.flag x.flags)) (if x.err then G else G.updLane x.lane (·.flag x.flags)) = A at e ⊢
    refine e.trans ?_
    split <;> rfl

theorem landAll_s_rest (n : Nat) (w : Option Window) (d k : Nat) (m : Word) (vs : List LaneVal) (G : Group) : ∃ ls ss,
   vs.foldl (fun (G : Group) (x : LaneVal) => if x.err then G else G.flagAll m x.flags) (vs.foldl (fun (G : Group) (x : LaneVal) => G.landLane n w (.s d k) x) G) = { G with lanes := ls, s := ss } := by
  have h1 : ∀ (vs : List LaneVal) (G : Group), ∃ ls ss, vs.foldl (fun (G : Group) (x : LaneVal) => G.landLane n w (.s d k) x) G = { G with lanes := ls, s := ss } := by
    intro vs
    induction vs with
    | nil => intro G; exact ⟨_, _, rfl⟩
    | cons x xs ih =>
      intro G
      rw [List.foldl_cons]
      obtain ⟨ls, ss, e⟩ := ih (G.landLane n w (.s d k) x)
      have : ∃ ls ss, G.landLane n w (.s d k) x = { G with lanes := ls, s := ss } := by
        unfold Group.landLane; cases x.err <;> exact ⟨_, _, rfl⟩
      obtain ⟨l2, s2, e2⟩ := this
      exact ⟨ls, ss, by rw [e, e2]⟩
  have h2 : ∀ (vs : List LaneVal) (G : Group), ∃ ls, vs.foldl (fun (G : Group) (x : LaneVal) => if x.err then G else G.flagAll m x.flags) G = { G with lanes := ls } := by
    intro vs
    induction vs with
    | nil => intro G; exact ⟨_, rfl⟩
    | cons x xs ih =>
      intro G
      rw [List.foldl_cons]
      obtain ⟨ls, e⟩ := ih (if x.err then G else G.flagAll m x.flags)
      rw [e]
      split
      · exact ⟨_, rfl⟩
      · rw [flagAll_eq]; exact ⟨_, rfl⟩
  obtain ⟨a, b, e⟩ := h1 vs G
  obtain ⟨c, e'⟩ := h2 vs (vs.foldl (fun (G : Group) (x : LaneVal) => G.landLane n w (.s d k) x) G)
  exact ⟨c, b, by rw [e', e]⟩

theorem land_spec {s : State} {g id : Nat} {G : Group} {p : Pend} {vs : List LaneVal} (h1 : s.group? g = some G) (h2 : G.pend.find? (·.id == id) = some p) (h3 : s.resultOf G p = some vs) :
    let w := G.wins.find? (·.id == p.id)
    let keeps := fun l r => match w with | some w => w.hit.contains (l * 1024 + r) && Config.pick s.fresh (l * 1024 + r) | none => false
    ∃ u H, exec (.resultWriteback g id) s = .next u ∧
      u = { s with
        groups := SMap.put s.groups g H
        fresh := s.fresh + 1 } ∧
      H = { G with
        lanes := H.lanes
        s := H.s
        pend := G.pend.filter (·.id != p.id)
        wins := H.wins
        errs := H.errs } ∧
      (∀ d n, p.dst = .v d n → (vs.map (·.lane)).Nodup →
        H.s = G.s ∧
        (∀ l, match vs.find? (fun x => x.lane == l && !x.err) with
          | some x => H.lane l = { G.lane l with
              v := (H.lane l).v
              tsr := (G.lane l).tsr ||| x.flags } ∧
            ∀ k, (H.lane l).v.get k 0 = if d ≤ k ∧ k < d + x.words.length ∧ keeps l k = false then x.words.getD (k - d) 0 else (G.lane l).v.get k 0
          | none => H.lane l = G.lane l)) ∧
      ∀ d n x, p.dst = .s d n → vs = [x] → x.err = false →
        (∀ l, H.lane l = if p.mask.getLsbD l = true then { G.lane l with tsr := (G.lane l).tsr ||| x.flags } else G.lane l) ∧
        H.errs = G.errs ∧
        ∀ k, H.s.get k 0 = if d ≤ k ∧ k < d + x.words.length ∧ keeps x.lane k = false then x.words.getD (k - d) 0 else G.s.get k 0 := by
  intro w keeps
  have he : exec (.resultWriteback g id) s = .next ((s.updGroup g fun G => G.land s.fresh p vs).draw 1) := by
    show eventOf _ _ = _
    rw [h1]; dsimp only [Option.bind_some]; rw [h2]; dsimp only [Option.bind_some]; rw [h3]; rfl
  rw [State.updGroup_some h1] at he
  refine ⟨_, G.land s.fresh p vs, he, rfl, ?_, ?_, ?_⟩
  · unfold Group.land
    cases hd : p.dst with
    | v d n =>
      dsimp only
      have e1 := landFold_v_rest s.fresh w d n vs G
      have e2 := flagFold_v_rest vs (vs.foldl (fun (G : Group) (x : LaneVal) => G.landLane s.fresh w (.v d n) x) G)
      simp only [w] at e1 e2
      rw [e2, e1]
    | s d n =>
      dsimp only
      obtain ⟨ls, ss, e⟩ := landAll_s_rest s.fresh w d n p.mask vs G
      simp only [w] at e
      rw [e]
  · intro d n hd hn
    unfold Group.land
    rw [hd]
    dsimp only
    constructor
    · have e1 := landFold_v_rest s.fresh w d n vs G
      have e2 := flagFold_v_rest vs (vs.foldl (fun (G : Group) (x : LaneVal) => G.landLane s.fresh w (.v d n) x) G)
      simp only [w] at e1 e2
      rw [e2, e1]
    · intro l
      have a1 := landFold_v s.fresh w d n vs hn G l
      have a2 := flagFold_v vs hn (vs.foldl (fun (G : Group) (x : LaneVal) => G.landLane s.fresh w (.v d n) x) G) l
      rw [a1] at a2
      cases hx : vs.find? (fun x => x.lane == l && !x.err) with
      | none => rw [hx] at a2; dsimp only at a2 ⊢; exact a2
      | some x =>
        rw [hx] at a2; dsimp only at a2 ⊢
        have hl : x.lane = l := by
          have := List.find?_some hx; simp only [Bool.and_eq_true, beq_iff_eq] at this; exact this.1
        have a4 := a2
        have hA : ∀ A : Thread, A = Thread.flag { G.lane l with v := (x.words.zipIdx).foldl (fun v (y : Word × Nat) => if skips w s.fresh x.lane (d + y.2) then v else SMap.put v (d + y.2) y.1) (G.lane l).v } x.flags → A = { G.lane l with v := A.v, tsr := (G.lane l).tsr ||| x.flags } := by
          rintro _ rfl; rfl
        refine ⟨hA _ a4, fun k => ?_⟩
        refine (congrArg (fun t : Thread => SMap.get t.v k 0) a4).trans ?_
        have := foldl_puts_skip (fun r => skips w s.fresh x.lane r) d x.words 0 (G.lane l).v k
        simp only [Nat.add_zero, Nat.sub_zero] at this
        rw [← hl] at this ⊢
        exact this
  · intro d n x hd hv hxe
    subst hv
    unfold Group.land
    rw [hd]
    dsimp only [List.foldl_cons, List.foldl_nil, List.any_cons, List.any_nil]
    simp only [hxe, Bool.false_eq_true, if_false, Bool.or_false, if_true]
    refine ⟨?_, ?_, ?_⟩
    · intro l
      show (Group.flagAll _ _ _).lane l = _
      unfold Group.flagAll
      rw [Group.lane_updLanes _ (lanesOf_nodup _)]
      simp only [mem_lanesOf]
      have e : (G.landLane s.fresh (G.wins.find? (·.id == p.id)) (.s d n) x).lane l = G.lane l := by
        unfold Group.landLane; rw [hxe]; rfl
      rw [e]; rfl
    · rw [flagAll_eq]; unfold Group.landLane; rw [hxe]; rfl
    · intro k
      rw [flagAll_eq]
      show SMap.get (Group.landLane G s.fresh (G.wins.find? (·.id == p.id)) (.s d n) x).s k 0 = if d ≤ k ∧ k < d + x.words.length ∧ skips (G.wins.find? (·.id == p.id)) s.fresh x.lane k = false then x.words.getD (k - d) 0 else G.s.get k 0
      generalize G.wins.find? (·.id == p.id) = W
      have := foldl_puts_skip (fun r => skips W s.fresh x.lane r) d x.words 0 G.s k
      simp only [Nat.add_zero, Nat.sub_zero] at this
      cases W <;> (unfold Group.landLane; rw [hxe]; exact this)

theorem grant_spec {s : State} {g : Nat} {G : Group} {b : Block} {c p n : Nat} {rest : List (Nat × Nat)} (h1 : ((s.core c).part p).rbq = (g, n) :: rest) (h2 : n + s.owedOn c p g ≤ ((s.core c).part p).pool) (h3 : s.group? g = some G)
   (h4 : G.blk.find? (·.forBlocks) = some b) :
       let H := G.freshBlocks n s.fresh
       let u : State := { s.updPart c p fun x => { x with
           pool := x.pool - n
           rbq := rest } with
         groups := SMap.put s.groups g H
         fresh := s.fresh + 3072 }
       Resumes g u H b false (exec (.registerBlockGrant c p) s) ∧ H.ext = n ∧ H.rbReq = false ∧ ∀ l k, k < 32 → (H.lane l).v.get k 0 = (G.lane l).v.get k 0 := by
  intro H u
  refine ⟨?_, rfl, rfl, ?_⟩
  · show Resumes _ _ _ _ _ (eventOf _ _)
    rw [h1]; dsimp only
    rw [if_pos h2, h3]; dsimp only [Option.bind_some]
    rw [h4]; dsimp only [Option.map_some]
    have e : (((s.updPart c p fun x => { x with pool := x.pool - n, rbq := rest }).updGroup g fun G => G.freshBlocks n s.fresh).draw 3072) = u := by
      rw [State.updGroup_some (s := s.updPart c p fun x => { x with pool := x.pool - n, rbq := rest }) (G := G) h3]; rfl
    rw [e]
    have hg : u.group? g = some H := SMap.find?_put_self _ _ _
    exact unblock_spec hg b false
  · intro l k hk
    show SMap.get (SMap.get (List.map _ G.lanes) l Thread.init).v k 0 = _
    have e := SMap.find?_map G.lanes (fun (l : Nat) (t : Thread) => { t with v := (List.range (16 * n)).foldl (fun v i => SMap.put v (32 + i) (Config.freeWord (s.fresh + 96 * l + i))) t.v }) l
    have e' : SMap.get (List.map (fun (x : Nat × Thread) => (x.1, { x.2 with v := (List.range (16 * n)).foldl (fun v i => SMap.put v (32 + i) (Config.freeWord (s.fresh + 96 * x.1 + i))) x.2.v })) G.lanes) l Thread.init = ((SMap.find? G.lanes l).map _).getD Thread.init := congrArg (·.getD Thread.init) e
    erw [e']
    show _ = SMap.get ((SMap.find? G.lanes l).getD Thread.init).v k 0
    cases SMap.find? G.lanes l with
    | none => rfl
    | some t =>
      show SMap.get (List.foldl _ t.v _) k 0 = SMap.get t.v k 0
      have : ∀ (is : List Nat) (v : SMap Word), (is.foldl (fun v i => SMap.put v (32 + i) (Config.freeWord (s.fresh + 96 * l + i))) v).get k 0 = v.get k 0 := by
        intro is
        induction is with
        | nil => intro v; rfl
        | cons i is ih => intro v; rw [List.foldl_cons, ih, SMap.get_put_ne _ _ _ (by omega)]
      exact this _ _

end Sys2Proof.Machine
end

