-- ==== Sys2Proof/Laws/Entry.lean ====
section
/-! SUPPORT. Entry to a handler, and the messages of convoys (R262 to R266, R389). -/

namespace Sys2Proof.Machine

theorem nextMsg_st {s t : State} {g : Nat} {up : Bool} {m : CvMsg} (h : s.nextMsg g up = some (m, t)) : ∃ r, m = m ∧ t = { s with cvMsgs := r } := by
  unfold State.nextMsg at h
  rw [Option.map_eq_some_iff] at h
  obtain ⟨⟨a, b⟩, _, h2⟩ := h
  cases h2; exact ⟨_, rfl, rfl⟩

theorem overdue {v : Convoy} {e now : Nat} (h : v.timer = some e) (he : e < now) : v.overdue now = true := by
  unfold Convoy.overdue; rw [h]; dsimp only; rw [Nat.blt_eq]; exact he

theorem replies (cv m : Nat) (xs : List Member) (s : State) :
   xs.foldl (fun s (x : Member) => s.cvReply x.guid cv (some 128) (.min_ x.guid cv m)) s = { s with cvMsgs := s.cvMsgs ++ xs.map fun x => s.mailTo x.guid cv (some 128) (.min_ x.guid cv m) } := by
  induction xs generalizing s with
  | nil => simp
  | cons x xs ih =>
    rw [List.foldl_cons, ih, List.map_cons]
    have e : ∀ y : Member, (s.cvReply x.guid cv (some 128) (.min_ x.guid cv m)).mailTo y.guid cv (some 128) (.min_ y.guid cv m) = s.mailTo y.guid cv (some 128) (.min_ y.guid cv m) := fun _ => rfl
    simp only [e]
    show ({ s with cvMsgs := (s.cvMsgs ++ [_]) ++ _ } : State) = _
    rw [List.append_assoc]; rfl

theorem settle_spec (s : State) (cv : Nat) (old : Option Nat) (v : Convoy) : Settles s cv old v (s.settle cv old v) := by
  unfold Settles State.settle
  cases v.min? with
  | none => exact State.wake_spec _
  | some m =>
    dsimp only
    split
    · rw [replies]; exact State.wake_spec _
    · exact State.wake_spec _

theorem hold_spec (t : State) (i g : Nat) (v : Convoy) :
   Host.Outcome.next (t.putConvoy i (if (v.updMember g fun x => { x with held := true }).timer.isNone then (v.updMember g fun x => { x with held := true }).arm t.now else v.updMember g fun x => { x with held := true })) =
   (Host.Outcome.next (t.putConvoy i (if v.timer = none ∧ v.tout ≠ 0 then { (v.updMember g fun x => { x with held := true }) with timer := some (t.now + v.tout) } else v.updMember g fun x => { x with held := true })) : Result) := by
  congr 2
  have e1 : (v.updMember g fun x => { x with held := true }).timer = v.timer := rfl
  have e2 : (v.updMember g fun x => { x with held := true }).tout = v.tout := rfl
  rw [e1]
  unfold Convoy.arm
  rw [e2]
  cases v.timer with
  | none =>
    by_cases h : v.tout = 0
    · simp [h]
    · simp [h]; rfl
  | some e => simp

theorem joinReq_spec {s t : State} {g x : Nat} {G : Group} {d : List Word} {key : DWord} {slip n tout : Nat} {r : State} (h : s.nextMsg g true = some (.joinReq x, t)) (hG : s.group? g = some G) (hd : G.joinDesc = some d)
   (hk : cvDesc d = some (key, slip, n, tout))
   (ho : ∀ k, t.convoyFor d = some k → t.onTime k = true) (hr : (match (t.die (marshalDie key)).convoyOf key with
    | none =>
      match (t.die (marshalDie key)).convoys.freeFrom 256 0 with
      | none => (t.cvReply g (256 * marshalDie key) none (.answer g { G.cvm with rej := true, rcode := 1 } G.minp) : State)
      | some k =>
        if k ≥ 256 then t.cvReply g (256 * marshalDie key) none (.answer g { G.cvm with rej := true, rcode := 1 } G.minp)
        else (t.putConvoy (256 * marshalDie key + k) ⟨key, slip, n, tout, [⟨g, 0, true, false⟩], false, none⟩).cvReply g (256 * marshalDie key) none (.answer g (cvAccept (256 * marshalDie key + k) 0) 0)
    | some (k, v) =>
      if v.mem.any (·.guid == g) then t.cvReply g (256 * marshalDie key) none (.answer g { G.cvm with rej := true, rcode := 5 } G.minp)
      else if v.closed then t.cvReply g (256 * marshalDie key) none (.answer g { G.cvm with rej := true, rcode := 4 } G.minp)
      else if v.slip ≠ slip ∨ v.count ≠ n ∨ v.tout ≠ tout then t.cvReply g (256 * marshalDie key) none (.answer g { G.cvm with rej := true, rcode := 3 } G.minp)
      else if v.mem.length ≥ v.count then t.cvReply g (256 * marshalDie key) none (.answer g { G.cvm with rej := true, rcode := 2 } G.minp)
      else (t.putConvoy (256 * marshalDie key + k) { v with mem := v.mem ++ [⟨g, 0, true, false⟩] }).cvReply g (256 * marshalDie key) none (.answer g (cvAccept (256 * marshalDie key + k) v.mem.length) (v.min?.getD 0))) = r) : exec (.cvjoinRequest g) s = .next r := by
  show eventOf _ _ = _
  rw [h]; dsimp only [Option.bind_some]; rw [hG]; dsimp only [Option.bind_some]; rw [hd]; dsimp only [Option.map_some]
  rw [if_pos (by cases hc : t.convoyFor d with | none => rfl | some k => exact ho k hc)]
  unfold eventOf State.marshalJoin
  rw [hk]
  exact congrArg Host.Outcome.next hr

theorem answer_spec {s t : State} {g x mn : Nat} {G : Group} {cv : Cvm} (h : s.nextMsg g false = some (.answer x cv mn, t)) (hG : s.group? g = some G) :
       let H := { G with
         cvm := cv
         minp := mn
         joinDesc := none }
       let u : State := { t with groups := SMap.put t.groups g H }
       (G.blk.find? (·.cond == .cvjoin) = none → ∃ w, Woken u w ∧ exec (.cvjoinAnswer g) s = .next w) ∧
       ∀ b, G.blk.find? (·.cond == .cvjoin) = some b →
         (s.stopping G.team = false → ∃ v w, Resumes g u H b false (.next v) ∧ Woken v w ∧ exec (.cvjoinAnswer g) s = .next w) ∧
         (s.stopping G.team = true → ∃ w, Woken { t with groups := SMap.put t.groups g { H with blk := G.blk.map fun k => if k.id = b.id then { k with met := some 0 } else k } } w ∧ exec (.cvjoinAnswer g) s = .next w) := by
  intro H u
  have hg : t.group? g = some G := by obtain ⟨r, _, rfl⟩ := nextMsg_st h; exact hG
  have hu : u.group? g = some H := SMap.find?_put_self _ _ _
  have he : (t.updGroup g fun G => { G with cvm := cv, minp := mn, joinDesc := none }) = u := by rw [State.updGroup_some hg]
  constructor
  · intro hb
    refine ⟨_, State.wake_spec _, ?_⟩
    show eventOf _ _ = _
    rw [h]; dsimp only [Option.bind_some]; rw [hG]; dsimp only
    rw [hb, he]; rfl
  · intro b hb
    constructor
    · intro hs
      refine ⟨_, _, unblock_spec hu b false, State.wake_spec _, ?_⟩
      show eventOf _ _ = _
      rw [h]; dsimp only [Option.bind_some]; rw [hG]; dsimp only
      rw [hb]; dsimp only
      rw [hs, he]; rfl
    · intro hs
      refine ⟨_, State.wake_spec _, ?_⟩
      show eventOf _ _ = _
      rw [h]; dsimp only [Option.bind_some]; rw [hG]; dsimp only
      rw [hb]; dsimp only
      rw [hs, he, State.updGroup_some hu]
      simp only [if_true, u, SMap.put_put]; rfl

theorem enter_spec (s : State) (G : Group) (e : TrapEntry) (rest : List TrapEntry) :
   HandlerStarts s G e rest (G.enter e rest (segMake (s.vf G.vf).hcb ((s.vf G.vf).hcl - 1) true) (BitVec.ofNat 32 (s.vf G.vf).hent)) := by
  refine ⟨?_, ?_⟩
  · unfold Group.enter; dsimp only; rw [Group.updLanes_eq]; rfl
  · intro l; unfold Group.enter; dsimp only
    show (Group.updLanes _ _ _).lane l = _
    rw [Group.lane_updLanes _ (lanesOf_nodup _)]; simp only [mem_lanesOf]; rfl

end Sys2Proof.Machine
end

