-- ==== Sys2Proof/Laws/Fetch.lean ====
section
/-! SUPPORT. Fetches, words that are no instruction, and the checks of R58. -/

namespace Sys2Proof.Machine

section

variable {s t : State} {c : Ctx} {v n g : Nat} {T : Team} {G : Group} {i : Info} {k : Ctx → State → State}

theorem res_each (h : IssuesWord (bitsAt v 31 1 == 1) s c t) : exec (.reservedEncoding v) s = .next (t.eachHints c fun d u => u.reservedPath d v) := by
  obtain ⟨c0, h1, _⟩ := id h
  obtain ⟨_, _, hcur, _⟩ := State.context_spec h1
  show execReservedEncoding v s = _
  unfold execReservedEncoding; rw [hcur]; exact h.issueHint fun c s => s.eachHints c fun d s => s.reservedPath d v

theorem res_go (h : IssuesWord (bitsAt v 31 1 == 1) s c t) (ha : c.alike = true) : exec (.reservedEncoding v) s = .next (t.reservedPath c v) := by
  rw [res_each h]; unfold State.eachHints; rw [if_pos ha]

theorem bounds_go (h : s.context? = some c) (h1 : segIn (c.G.code c.h) c.pc.toNat = false) : exec .fetchBounds s = .next (s.eachHints c fun d u => u.trapAt d 1 1) := by
  obtain ⟨_, _, hcur, _⟩ := State.context_spec h
  show execFetchBounds s = _
  unfold execFetchBounds; rw [hcur]; dsimp only; rw [h]; dsimp only; rw [if_neg (by rw [h1]; decide)]; rfl

theorem code_head (h : s.context? = some c) : exec .codeFetchFault s = eventOf "CODE_FETCH_FAULT"
        (if !(segIn (c.G.code c.h) c.pc.toNat) then none
         else
           match s.codeAt c.G.core c.G.vf (segBase (c.G.code c.h) + c.pc.toNat) with
           | .page cause lev t => some ((((s.learn c.G.core t).groupFault c.g c.G c.mask c.first (segBase (c.G.code c.h) + c.pc.toNat) cause lev 3).eachHints c
               fun d s => s.parkLanes d d.mask).draw 1)
           | .bad => some ((s.dropBad c.G.core c.G.vf (segBase (c.G.code c.h) + c.pc.toNat)).eachHints c
               fun d s => s.raise d.g d.h ⟨d.mask, d.first, d.pc, d.pc + 4, causeWord 6 21 0, false⟩)
           | _ => none) := by
  obtain ⟨_, _, hcur, _⟩ := State.context_spec h
  show execCodeFetchFault s = _
  unfold execCodeFetchFault; rw [hcur]; dsimp only; rw [h] <;> rfl

theorem code_bad (h : s.context? = some c) (h1 : segIn (c.G.code c.h) c.pc.toNat = true) (h2 : s.codeAt c.G.core c.G.vf (segBase (c.G.code c.h) + c.pc.toNat) = .bad) :
  exec .codeFetchFault s = .next ((s.dropBad c.G.core c.G.vf (segBase (c.G.code c.h) + c.pc.toNat)).eachHints c fun d u => u.raise d.g d.h ⟨d.mask, d.first, d.pc, d.pc + 4, causeWord 6 21 0, false⟩) := by
  rw [code_head h, if_neg (by rw [h1]; decide), h2]; rfl

theorem code_pages (h : s.context? = some c) (h1 : segIn (c.G.code c.h) c.pc.toNat = true) {a b : Nat} {x : Trans} (h2 : s.codeAt c.G.core c.G.vf (segBase (c.G.code c.h) + c.pc.toNat) = .page a b x) :
  exec .codeFetchFault s = .next ((((s.learn c.G.core x).groupFault c.g c.G c.mask c.first (segBase (c.G.code c.h) + c.pc.toNat) a b 3).eachHints c fun d u => u.parkLanes d d.mask).draw 1) := by
  rw [code_head h, if_neg (by rw [h1]; decide), h2]; rfl

theorem code_page (h : s.context? = some c) (ha : c.alike = true) (h1 : segIn (c.G.code c.h) c.pc.toNat = true) (hm : c.mask ≠ 0) {a b : Nat} {x : Trans} (h2 : s.codeAt c.G.core c.G.vf (segBase (c.G.code c.h) + c.pc.toNat) = .page a b x) :
  exec .codeFetchFault s = .next ((((s.learn c.G.core x).groupFault c.g c.G c.mask c.first (segBase (c.G.code c.h) + c.pc.toNat) a b 3).updGroup c.g fun G =>
         G.updLanes (lanesOf c.mask) fun _ x => { x with
           st := .faulted
           pc := c.first
           hints := Hints.clear }).draw 1) := by
  rw [code_pages h h1 h2]; unfold State.eachHints; rw [if_pos ha]
  have e : ∀ u : State, u.parkLanes c c.mask = u.updGroup c.g fun G =>
         G.updLanes (lanesOf c.mask) fun _ x => { x with
           st := .faulted
           pc := c.first
           hints := Hints.clear } := by
    intro u; unfold State.parkLanes; simp only [if_neg hm]
  exact congrArg (fun u : State => Host.Outcome.next (u.draw 1)) (e _)

theorem seq_res (h : Sequences s n T) : exec (.reservedEncoding v) s = .next (s.seqFault n (reservedDetail v) 0) := by
  show execReservedEncoding v s = _
  unfold execReservedEncoding; rw [h.1]; dsimp only; rw [h.2.1]; dsimp only; rw [if_pos h.2.2]

theorem seq_bounds (h : Sequences s n T) (h1 : s.seqVa T = none) : exec .fetchBounds s = .next (s.seqFault n 1 0) := by
  show execFetchBounds s = _
  unfold execFetchBounds; rw [h.1]; dsimp only; rw [h.2.1]; dsimp only; rw [if_pos h.2.2, if_pos h1]; rfl

theorem seq_code (h : Sequences s n T) {va : Nat} (h1 : s.seqVa T = some va) : exec .codeFetchFault s = eventOf "CODE_FETCH_FAULT" (
          match s.codeAt T.core T.vf va with
          | .page cause lev x => some (((s.learn T.core x).seqPark n T va cause lev 3).draw 1)
          | .bad => some ((s.dropBad T.core T.vf va).seqFault n 20 0)
          | _ => none) := by
  show execCodeFetchFault s = _
  unfold execCodeFetchFault; rw [h.1]; dsimp only; rw [h.2.1]; dsimp only; rw [if_pos h.2.2, h1]; rfl

theorem issue_at (h : s.context? = some c) : issue i k s = .next (issueAt (fun _ => i) k c s) := by
  obtain ⟨_, _, hcur, _⟩ := State.context_spec h
  unfold issue issueBy; rw [hcur]; dsimp only; rw [h]

theorem issue_go (h : s.context? = some c) (ha : c.alike = true) : issue i k s = .next (issueOne i k c s) := by
  rw [issue_at h]; unfold issueAt; rw [if_pos ha]

theorem issue_mix (h : s.context? = some c) (ha : c.alike = false) : issue i k s = .next (issueMixed (fun _ => i) k c s) := by
  rw [issue_at h]; unfold issueAt; rw [if_neg (by rw [ha]; decide)]

section

variable (h : s.context? = some c) (ha : c.alike = false)
include h ha

theorem mix_held (h1 : i.held c = true) : issue i k s = .next s := by
  rw [issue_mix h ha]; unfold issueMixed; rw [if_pos h1]

theorem mix_late (h1 : i.held c = false) (h2 : (i.w || i.blocking) = true) (h3 : c.G.late c.mask = true) : issue i k s = .next (c.eachClass (fun d u => u.deliver d) s) := by
  rw [issue_mix h ha]; unfold issueMixed; rw [if_neg (by rw [h1]; decide), if_pos (by rw [h2, h3]; rfl)]
  unfold State.deliverAll State.eachHints; rw [if_neg (by rw [ha]; decide)]

variable (h1 : i.held c = false) (h2 : ((i.w || i.blocking) && c.G.late c.mask) = false)
include h1 h2

theorem mix_traps {a b : Nat} (h3 : c.checkAny (fun _ => i) s = some (a, b)) : issue i k s = .next (c.eachClass (fun d u => u.trapAt d a b) s) := by
  rw [issue_mix h ha]; unfold issueMixed; rw [if_neg (by rw [h1]; decide), if_neg (by rw [h2]; decide), h3]

theorem mix_issues (h3 : c.checkAny (fun _ => i) s = none) : issue i k s = .next (c.eachClass (fun d u => issueOne i k d u) s) := by
  rw [issue_mix h ha]; unfold issueMixed; rw [if_neg (by rw [h1]; decide), if_neg (by rw [h2]; decide), h3]

end

theorem class_context {u : State} {m : Word} {d : Ctx} (h : c.class_ u m = some d) : ({ u with cur := .path c.g c.h c.pc m } : State).context? = some d := by
  obtain ⟨G, hg, h⟩ := Option.bind_eq_some_iff.1 h
  dsimp only at h
  split at h
  · rename_i hl
    cases h
    unfold State.context?; dsimp only
    rw [show State.group? { u with cur := .path c.g c.h c.pc m } c.g = some G from hg]; dsimp only
    rw [if_pos hl]
  · cases h

theorem class_mem (G : Group) (n : Nat) (ls : List Nat) (hs : ∀ l ∈ ls, l < 32) (m : Word) (hm : m ∈ G.hintClasses n ls) :
    (∀ l, m.getLsbD l = true → l ∈ ls) ∧ ∀ a b, m.getLsbD a = true → m.getLsbD b = true → (G.lane a).hints = (G.lane b).hints := by
  induction n generalizing ls with
  | zero => cases hm
  | succ n ih =>
    cases ls with
    | nil => cases hm
    | cons l ls =>
      unfold Group.hintClasses at hm; dsimp only at hm
      rcases List.mem_cons.1 hm with rfl | hm
      · have e : ∀ a, (maskOf (l :: ls.filter fun k => (G.lane k).hints == (G.lane l).hints)).getLsbD a = true → a ∈ l :: ls ∧ (G.lane a).hints = (G.lane l).hints := by
          intro a h
          rw [getLsbD_maskOf] at h
          simp only [Bool.and_eq_true, List.contains_iff_mem, List.mem_cons, List.mem_filter, beq_iff_eq] at h
          rcases h.2 with h | h
          · exact ⟨List.mem_cons.2 (.inl h), by rw [h]⟩
          · exact ⟨List.mem_cons.2 (.inr h.1), h.2⟩
        exact ⟨fun a h => (e a h).1, fun a b ha hb => (e a ha).2.trans (e b hb).2.symm⟩
      · obtain ⟨a, b⟩ := ih _ (fun x hx => hs x (List.mem_cons.2 (.inr (List.mem_filter.1 hx).1))) hm
        exact ⟨fun x hx => List.mem_cons.2 (.inr (List.mem_filter.1 (a x hx)).1), b⟩

theorem class_cover (G : Group) (n : Nat) (ls : List Nat) (hs : ∀ l ∈ ls, l < 32) (hn : ls.length ≤ n) (x : Nat) (hx : x ∈ ls) : ∃ m ∈ G.hintClasses n ls, m.getLsbD x = true := by
  induction n generalizing ls with
  | zero => cases ls with | nil => cases hx | cons => simp at hn
  | succ n ih =>
    cases ls with
    | nil => cases hx
    | cons l ls =>
      unfold Group.hintClasses; dsimp only
      by_cases h : x = l ∨ x ∈ ls.filter fun k => (G.lane k).hints == (G.lane l).hints
      · refine ⟨_, List.mem_cons_self, ?_⟩
        rw [getLsbD_maskOf]
        simp only [Bool.and_eq_true, decide_eq_true_eq, List.contains_iff_mem, List.mem_cons]
        exact ⟨hs x hx, h⟩
      · have hf : x ∈ ls.filter fun k => !((ls.filter fun k => (G.lane k).hints == (G.lane l).hints).contains k) := by
          rw [List.mem_filter]
          refine ⟨(List.mem_cons.1 hx).resolve_left fun e => h (.inl e), ?_⟩
          by_cases e : x ∈ ls.filter (fun k => (G.lane k).hints == (G.lane l).hints)
          · exact absurd (.inr e) h
          · rw [Bool.not_eq_true', ← Bool.not_eq_true, List.contains_iff_mem]; exact e
        obtain ⟨m, h1, h2⟩ := ih _ (fun y hy => hs y (List.mem_cons.2 (.inr (List.mem_filter.1 hy).1))) (by
          have := List.length_filter_le (fun k => !((ls.filter fun k => (G.lane k).hints == (G.lane l).hints).contains k)) ls
          simp only [List.length_cons] at hn; omega) hf
        exact ⟨m, List.mem_cons_of_mem _ h1, h2⟩

theorem lanesOf_lt (m : Word) : ∀ l ∈ lanesOf m, l < 32 := by
  intro l h
  exact List.mem_range.1 (List.mem_filter.1 h).1

theorem lanesOf_len (m : Word) : (lanesOf m).length ≤ 32 := by
  have := List.length_filter_le (fun l => m.getLsbD l) (List.range 32)
  rwa [List.length_range] at this

theorem classes_cover (G : Group) (m : Word) (l : Nat) : m.getLsbD l = true ↔ ∃ k ∈ G.hintClasses 32 (lanesOf m), k.getLsbD l = true := by
  constructor
  · intro h; exact class_cover G 32 _ (lanesOf_lt m) (lanesOf_len m) l ((mem_lanesOf m l).2 h)
  · rintro ⟨k, hk, h⟩
    exact (mem_lanesOf m l).1 ((class_mem G 32 _ (lanesOf_lt m) k hk).1 l h)

theorem class_alike {m : Word} {d : Ctx} (h : s.context? = some c) (h1 : m ∈ c.G.hintClasses 32 (lanesOf c.mask)) (h2 : c.class_ s m = some d) :
    d.alike = true ∧ d.mask = m ∧ d.g = c.g ∧ d.G = c.G ∧ d.h = c.h ∧ d.pc = c.pc ∧ ({ s with cur := .path c.g c.h c.pc m } : State).context? = some d := by
  have hc := class_context h2
  have hg := (Found.of_context h).group
  unfold Ctx.class_ at h2; rw [hg] at h2; dsimp only [Option.bind_some] at h2
  split at h2
  · cases h2
    refine ⟨?_, rfl, rfl, rfl, rfl, rfl, hc⟩
    unfold Ctx.alike; dsimp only
    obtain ⟨-, e⟩ := class_mem c.G 32 _ (lanesOf_lt c.mask) m h1
    rw [List.all_eq_true]
    intro l hl
    unfold Group.pathHints
    cases hl2 : lanesOf m with
    | nil => rw [hl2] at hl; cases hl
    | cons a as =>
      dsimp only
      rw [beq_iff_eq]
      exact e l a ((mem_lanesOf m l).1 hl) ((mem_lanesOf m a).1 (by rw [hl2]; exact List.mem_cons_self))
  · cases h2

def D (i : Info) (c : Ctx) : Ctx := if i.w then c.waited else c

def T' (i : Info) (s : State) (c : Ctx) : State := if i.w then s.waited c else s

theorem issue_checked (h : s.context? = some c) (ha : c.alike = true) (h1 : i.w = true → c.G.waits c.mask = false ∧ c.G.late c.mask = false) :
  issue i k s = .next (issueChecked i k (if i.w then c.waited else c) (if i.w then s.waited c else s)) := by
  rw [issue_go h ha]; unfold issueOne
  by_cases hw : i.w = true
  · obtain ⟨a, b⟩ := h1 hw
    rw [if_pos hw, if_neg (by rw [a]; decide), if_neg (by rw [b]; decide), if_pos hw, if_pos hw]
  · rw [if_neg hw, if_neg hw, if_neg hw]

theorem found_d (h : s.context? = some c) : Found s (if i.w then c.waited else c) (if i.w then s.waited c else s) := by
  split
  · exact (Found.of_context h).waited
  · exact Found.of_context h

theorem dproj : (if i.w then c.waited else c).mask = c.mask ∧ (if i.w then c.waited else c).first = c.first ∧ (if i.w then c.waited else c).pc = c.pc ∧ (if i.w then c.waited else c).h = c.h ∧ (if i.w then c.waited else c).g = c.g ∧
  (if i.w then c.waited else c).G.vf = c.G.vf ∧ (if i.w then c.waited else c).G.core = c.G.core ∧ (if i.w then c.waited else c).G.part = c.G.part ∧ (if i.w then c.waited else c).G.slot = c.G.slot ∧ (if i.w then c.waited else c).G.team = c.G.team := by
  split <;> exact ⟨rfl, rfl, rfl, rfl, rfl, rfl, rfl, rfl, rfl, rfl⟩

theorem tproj : (if i.w then s.waited c else s).vfs = s.vfs ∧ (if i.w then s.waited c else s).teams = s.teams := by
  split <;> exact ⟨rfl, rfl⟩

theorem check_traps (h : s.context? = some c) (ha : c.alike = true) (h1 : i.w = true → c.G.waits c.mask = false ∧ c.G.late c.mask = false) {a b : Nat}
  (h2 : i.check (if i.w then c.waited else c) (if i.w then s.waited c else s) = some (a, b)) (h3 : c.h = false) (h4 : (s.vf c.G.vf).hcl ≠ 0) :
  Parks (if i.w then c.waited else c) (if i.w then s.waited c else s) ⟨c.mask, c.first, c.first, c.pc + 4, causeWord a b 0, false⟩ 0 (issue i k s) := by
  rw [issue_checked h ha h1]; unfold issueChecked; rw [h2]; dsimp only
  obtain ⟨e1, e2, e3, e4, e5, e6, -⟩ := dproj (i := i) (c := c)
  have := State.trapAt_spec (found_d (i := i) h).group (by rw [e4, h3]) (by unfold State.vf; rw [(tproj (i := i) (c := c) (s := s)).1, e6]; exact h4) a b 0
  rw [e1, e2, e3] at this; exact this

theorem parked_raise {u : State} {d : Ctx} (hg : u.group? d.g = some d.G) (e : TrapEntry) :
  Parks d u e 0 (.next (u.updGroup d.g fun G => { G.updLanes (lanesOf e.mask) fun _ t => { t with st := .trapped, pc := e.pc, hints := Hints.clear } with
        trapQ := G.trapQ ++ [e] })) := by
  rw [State.updGroup_some hg]
  refine ⟨_, _, rfl, rfl, ?_, ?_⟩
  · rw [Group.updLanes_eq]
  · intro l
    show (Group.updLanes _ _ _).lane l = _
    rw [Group.lane_updLanes _ (lanesOf_nodup _)]
    simp only [mem_lanesOf]

theorem raise_fail {u : State} {d : Ctx} {hb : Bool} (hg : u.group? d.g = some d.G) (e : TrapEntry) (hv : (hb || (u.vf d.G.vf).hcl == 0) = true) (ht : u.team? d.G.team = some T) :
  u.raise d.g hb e = (((u.updGroup d.g fun G => { G.updLanes (lanesOf e.mask) fun _ t => { t with st := .trapped, pc := e.pc, hints := Hints.clear } with
        trapQ := G.trapQ ++ [e] }).trapRecord d.G.vf ((u.updGroup d.g fun G => { G.updLanes (lanesOf e.mask) fun _ t => { t with st := .trapped, pc := e.pc, hints := Hints.clear } with
        trapQ := G.trapQ ++ [e] }).lidOf d.G) d.G.core d.G.part d.G.slot (if e.seq then 2 else 0) e.mask e.fpc e.cause).failLaunch T.launch (if hb then 6 else 4)) := by
  unfold State.raise; rw [hg]; dsimp only
  rw [show State.vf (State.updGroup u d.g _) d.G.vf = u.vf d.G.vf from rfl, if_pos hv]
  have : ∀ (w : State) (a1 a2 a3 a4 a5 a6 : Nat) (a7 a8 : Word) (a9 : Word), (w.trapRecord a1 a2 a3 a4 a5 a6 a7 a8 a9).team? d.G.team = w.team? d.G.team := by
    intro w a1 a2 a3 a4 a5 a6 a7 a8 a9; rfl
  rw [this]
  rw [show (State.updGroup u d.g _).team? d.G.team = u.team? d.G.team from rfl, ht]

theorem check_any (h : s.context? = some c) (ha : c.alike = true) (h1 : i.w = true → c.G.waits c.mask = false ∧ c.G.late c.mask = false) {a b : Nat} {T : Team}
  (h2 : i.check (if i.w then c.waited else c) (if i.w then s.waited c else s) = some (a, b)) (h4 : (c.h || (s.vf c.G.vf).hcl == 0) = true) (h5 : s.team? c.G.team = some T) :
  ∃ u, Parks (if i.w then c.waited else c) (if i.w then s.waited c else s) ⟨c.mask, c.first, c.first, c.pc + 4, causeWord a b 0, false⟩ 0 (.next u) ∧ issue i k s = .next ((u.trapRecord c.G.vf (u.lidOf (if i.w then c.waited else c).G) c.G.core c.G.part c.G.slot 0 c.mask c.first (causeWord a b 0)).failLaunch T.launch (if c.h then 6 else 4)) := by
  obtain ⟨e1, e2, e3, e4, e5, e6, e7, e8, e9, e10⟩ := dproj (i := i) (c := c)
  obtain ⟨f1, f2⟩ := tproj (i := i) (c := c) (s := s)
  have hF := (found_d (i := i) h).group
  refine ⟨_, parked_raise hF _, ?_⟩
  rw [issue_checked h ha h1]; unfold issueChecked; rw [h2]; dsimp only
  unfold State.trapAt State.trapLanes
  rw [raise_fail (T := T) hF _ (by unfold State.vf; rw [f1, e6, e4]; exact h4) (by unfold State.team?; rw [f2, e10]; exact h5)]
  dsimp only
  rw [e1, e2, e3, e4, e6, e7, e8, e9]; rfl

theorem check_fails (h : s.context? = some c) (ha : c.alike = true) (h1 : i.w = true → c.G.waits c.mask = false ∧ c.G.late c.mask = false) {a b : Nat} {T : Team}
  (h2 : i.check (if i.w then c.waited else c) (if i.w then s.waited c else s) = some (a, b)) (h3 : c.h = false) (h4 : (s.vf c.G.vf).hcl = 0) (h5 : s.team? c.G.team = some T) :
  ∃ u, Parks (if i.w then c.waited else c) (if i.w then s.waited c else s) ⟨c.mask, c.first, c.first, c.pc + 4, causeWord a b 0, false⟩ 0 (.next u) ∧ issue i k s = .next ((u.trapRecord c.G.vf (u.lidOf (if i.w then c.waited else c).G) c.G.core c.G.part c.G.slot 0 c.mask c.first (causeWord a b 0)).failLaunch T.launch 4) := by
  have := check_any (k := k) h ha h1 h2 (by rw [h4]; simp) h5
  rw [h3] at this; exact this

theorem check_nested (h : s.context? = some c) (ha : c.alike = true) (h1 : i.w = true → c.G.waits c.mask = false ∧ c.G.late c.mask = false) {a b : Nat} {T : Team}
  (h2 : i.check (if i.w then c.waited else c) (if i.w then s.waited c else s) = some (a, b)) (h3 : c.h = true) (h5 : s.team? c.G.team = some T) :
  ∃ u, Parks (if i.w then c.waited else c) (if i.w then s.waited c else s) ⟨c.mask, c.first, c.first, c.pc + 4, causeWord a b 0, false⟩ 0 (.next u) ∧ issue i k s = .next ((u.trapRecord c.G.vf (u.lidOf (if i.w then c.waited else c).G) c.G.core c.G.part c.G.slot 0 c.mask c.first (causeWord a b 0)).failLaunch T.launch 6) := by
  have := check_any (k := k) h ha h1 h2 (by rw [h3]; rfl) h5
  rw [h3] at this; exact this

theorem var_full (h : s.context? = some c) (ha : c.alike = true) (h1 : i.w = true → c.G.waits c.mask = false ∧ c.G.late c.mask = false)
  (h2 : i.check (if i.w then c.waited else c) (if i.w then s.waited c else s) = none) (h3 : i.blocking = false) (h4 : i.var = true) (h5 : c.G.full c.mask = true) :
  issue i k s = .next (if i.w then s.waited c else s) := by
  rw [issue_checked h ha h1]; unfold issueChecked; rw [h2, h3, h4]
  have : (if i.w then c.waited else c).G.full (if i.w then c.waited else c).mask = true := by split <;> exact h5
  rw [this]; rfl

theorem block_waits (h : s.context? = some c) (ha : c.alike = true) (h2 : i.check (if i.w then c.waited else c) (if i.w then s.waited c else s) = none) (h6 : i.w = false) (h3 : i.blocking = true) (h5 : c.G.waits c.mask = true) :
  issue i k s = .next s := by
  rw [h6] at h2
  rw [issue_checked h ha (fun hw => by rw [h6] at hw; cases hw)]; unfold issueChecked; rw [h6]
  simp only [Bool.false_eq_true, if_false] at h2 ⊢
  rw [h2, h3, h5]; rfl

theorem block_late (h : s.context? = some c) (ha : c.alike = true) (h2 : i.check (if i.w then c.waited else c) (if i.w then s.waited c else s) = none) (h6 : i.w = false) (h3 : i.blocking = true) (h5 : c.G.waits c.mask = false) (h7 : c.G.late c.mask = true) :
  issue i k s = .next (s.deliver c) := by
  rw [h6] at h2
  rw [issue_checked h ha (fun hw => by rw [h6] at hw; cases hw)]; unfold issueChecked; rw [h6]
  simp only [Bool.false_eq_true, if_false] at h2 ⊢
  rw [h2, h3, h5, h7]; rfl

theorem chk (h : i.handler = false) (h1 : i.priv = true → (s.vf c.G.vf).priv = true ∧ c.h = false) {r : Option (Nat × Nat)}
  (h2 : (if i.hintBad c.hints then some (1, 0)
  else if i.regs.any (fun u => !(u.ok c.G.held)) then some (3, 0)
  else if s.hazard && !i.blocking && c.G.wins.any (fun w => overlaps w.mask c.mask && (i.uses c.hints).any fun u => u.meets w.dst) then some (1, 5)
  else none) = r) : i.check c s = r := by
  unfold Info.check State.privileged
  rw [h]
  by_cases hp : i.priv = true
  · obtain ⟨a, b⟩ := h1 hp
    rw [hp, a, b]; exact h2
  · rw [show i.priv = false by simpa using hp]; exact h2

end

end Sys2Proof.Machine
end

