-- ==== Sys2Proof/Laws/Handler.lean ====
section
/-! SUPPORT. How a handler ends and how threads exit (R162, R164, R391, R426, R427). -/

namespace Sys2Proof.Machine

theorem group?_put (s : State) (g : Nat) (G : Group) : ({ s with groups := SMap.put s.groups g G } : State).group? g = some G := SMap.find?_put_self _ _ _

theorem foldl_puts (o : Nat) (xs : List Word) (n : Nat) (m : SMap Word) (k : Nat) :
   ((xs.zipIdx n).foldl (fun v (x : Word × Nat) => SMap.put v (o + x.2) x.1) m).get k 0 = if o + n ≤ k ∧ k < o + n + xs.length then xs.getD (k - o - n) 0 else m.get k 0 := by
  induction xs generalizing n m with
  | nil => simp [show ¬ (o + n ≤ k ∧ k < o + n) by omega]
  | cons x xs ih =>
    rw [List.zipIdx_cons, List.foldl_cons, ih, SMap.get_put]
    simp only [List.length_cons]
    by_cases h1 : k = o + n
    · subst h1
      rw [if_neg (by omega), if_pos rfl, if_pos (by omega)]
      simp
    · by_cases h2 : o + (n + 1) ≤ k ∧ k < o + (n + 1) + xs.length
      · rw [if_pos h2, if_pos (by omega), show k - o - n = (k - o - (n + 1)) + 1 by omega, List.getD_cons_succ]
      · rw [if_neg h2, if_neg h1, if_neg (by omega)]

theorem restore_spec (H : Handler) (f : LaneFrame) (x : Thread) : Restores H f x (H.restore f x) := by
  have hb : ∀ k, SMap.get ((f.v.zipIdx).foldl (fun v (x : Word × Nat) => SMap.put v x.2 x.1) x.v) k 0 = if k < f.v.length then f.v.getD k 0 else x.v.get k 0 := by
    intro k
    have := foldl_puts 0 f.v 0 x.v k
    simp only [Nat.zero_add, Nat.zero_le, true_and, Nat.sub_zero] at this
    exact this
  unfold Restores Handler.restore
  cases hr : SMap.find? H.repl f.lane with
  | none =>
    dsimp only
    exact ⟨rfl, hb⟩
  | some y =>
    obtain ⟨r, z⟩ := y
    dsimp only
    refine ⟨rfl, fun k => ?_⟩
    rw [SMap.get_put]
    split
    · rfl
    · exact hb k

theorem endLanes_rest (H : Handler) (fs : List LaneFrame) (G : Group) :
   fs.foldl (fun G f => if (G.lane f.lane).st = .tretWait then G.updLane f.lane (fun t => G.parkAgain f.lane (H.restore f t)) else G) G = { G with lanes := (fs.foldl (fun G f => if (G.lane f.lane).st = .tretWait then G.updLane f.lane (fun t => G.parkAgain f.lane (H.restore f t)) else G) G).lanes } := by
  induction fs generalizing G with
  | nil => rfl
  | cons f fs ih =>
    rw [List.foldl_cons]
    conv_lhs => rw [ih]
    split <;> rfl

theorem endLanes_lane (H : Handler) (fs : List LaneFrame) (G : Group) (l : Nat) :
   (fs.foldl (fun G f => if (G.lane f.lane).st = .tretWait then G.updLane f.lane (fun t => G.parkAgain f.lane (H.restore f t)) else G) G).lane l =
     match fs.find? (fun f => f.lane == l) with
     | some f => if (G.lane l).st = .tretWait then G.parkAgain l (H.restore f (G.lane l)) else G.lane l
     | none => G.lane l := by
  have hrs : ∀ f x, (H.restore f x).st = .ready := by
    intro f x; unfold Handler.restore; dsimp only; split <;> rfl
  have hps : ∀ (G : Group) (k : Nat) (x : Thread), x.st = .ready → (G.parkAgain k x).st ≠ .tretWait := by
    intro G k x hx; unfold Group.parkAgain; split
    · simp
    · rw [hx]; simp
  have done : ∀ (fs : List LaneFrame) (G : Group), (G.lane l).st ≠ .tretWait → (fs.foldl (fun G f => if (G.lane f.lane).st = .tretWait then G.updLane f.lane (fun t => G.parkAgain f.lane (H.restore f t)) else G) G).lane l = G.lane l := by
    intro fs
    induction fs with
    | nil => intro G _; rfl
    | cons f fs ih =>
      intro G hG
      rw [List.foldl_cons]
      by_cases hf : (G.lane f.lane).st = .tretWait
      · rw [if_pos hf]
        have hne : l ≠ f.lane := by rintro rfl; exact hG hf
        have e : (G.updLane f.lane (fun t => G.parkAgain f.lane (H.restore f t))).lane l = G.lane l := by rw [Group.lane_updLane, if_neg hne]
        rw [ih _ (by rw [e]; exact hG), e]
      · rw [if_neg hf]; exact ih G hG
  induction fs generalizing G with
  | nil => rfl
  | cons f fs ih =>
    rw [List.foldl_cons, List.find?_cons]
    by_cases hl : f.lane = l
    · subst hl
      simp only [beq_self_eq_true]
      by_cases hf : (G.lane f.lane).st = .tretWait
      · rw [if_pos hf, if_pos hf]
        have e : (G.updLane f.lane (fun t => G.parkAgain f.lane (H.restore f t))).lane f.lane = G.parkAgain f.lane (H.restore f (G.lane f.lane)) := by rw [Group.lane_updLane, if_pos rfl]
        rw [done _ _ (by rw [e]; exact hps _ _ _ (hrs _ _)), e]
      · rw [if_neg hf, if_neg hf]; exact done _ _ hf
    · have hb : (f.lane == l) = false := by simp [hl]
      simp only [hb]
      rw [ih]
      have e : (if (G.lane f.lane).st = .tretWait then G.updLane f.lane (fun t => G.parkAgain f.lane (H.restore f t)) else G).lane l = G.lane l := by
        split
        · rw [Group.lane_updLane, if_neg (fun h => hl h.symm)]
        · rfl
      have ep : ∀ y, (if (G.lane f.lane).st = .tretWait then G.updLane f.lane (fun t => G.parkAgain f.lane (H.restore f t)) else G).parkAgain l y = G.parkAgain l y := by
        intro y; split <;> rfl
      simp only [e, ep]

theorem endHandler_spec (G : Group) (H : Handler) : HandlerEnds H G (G.endHandler H) := by
  unfold HandlerEnds Group.endHandler
  dsimp only
  rw [endLanes_rest]
  refine ⟨rfl, ?_, ?_⟩
  · intro k
    have := foldl_puts 1016 H.s 0 G.s k
    simpa using this
  · intro l
    have e := endLanes_lane H H.lanes G l
    show match H.lanes.find? (·.lane == l) with
      | some f => if (G.lane l).st = .tretWait then (∃ y, Restores H f (G.lane l) y ∧ (H.lanes.foldl _ G).lane l = if G.trapQ.any fun e => e.mask.getLsbD l then { y with st := .trapped } else y) else (H.lanes.foldl _ G).lane l = G.lane l
      | none => (H.lanes.foldl _ G).lane l = G.lane l
    rw [e]
    cases H.lanes.find? (fun f => f.lane == l) with
    | none => rfl
    | some f =>
      dsimp only
      by_cases hx : (G.lane l).st = .tretWait
      · rw [if_pos hx, if_pos hx]; exact ⟨_, restore_spec H f _, rfl⟩
      · rw [if_neg hx, if_neg hx]

def Group.hcheck (G : Group) : Group := match G.hnd with | some H => if H.finished G then G.endHandler H else G | none => G

theorem handlerCheck_put {s : State} {g : Nat} {G : Group} (h : s.group? g = some G) : s.handlerCheck g = { s with groups := SMap.put s.groups g G.hcheck } := by
  have same : s = { s with groups := SMap.put s.groups g G } := by rw [SMap.put_find s.groups g G h]
  unfold State.handlerCheck
  rw [h]
  dsimp only
  unfold Group.hcheck
  cases hh : G.hnd with
  | none => exact same
  | some H =>
    dsimp only
    unfold Handler.finished
    by_cases hq : H.trap.seq = true
    · simp only [hq, if_true, Bool.not_true, Bool.false_and, Bool.false_eq_true, if_false]; exact same
    · rw [if_neg hq]
      have hq' : H.trap.seq = false := by simpa using hq
      simp only [hq', Bool.not_false, Bool.true_and]
      split
      · rw [State.updGroup_some h]
      · exact same

theorem lane_releases (ns : List Nat) (G : Group) (l : Nat) (hn : ns.Nodup) : (ns.foldl (fun G n => G.releaseCheck n) G).lane l =
   match (G.lane l).st with
   | .join n _ => if n ∈ ns ∧ rejoined (G.j.get n 0) (G.arr.get n 0) = true ∧ (G.arr.get n 0).getLsbD l = true then (G.lane l).passes n else G.lane l
   | _ => G.lane l := by
  have stay : ∀ (ns : List Nat) (G : Group), (∀ n pc, (G.lane l).st ≠ .join n pc) → (ns.foldl (fun G n => G.releaseCheck n) G).lane l = G.lane l := by
    intro ns
    induction ns with
    | nil => intro G _; rfl
    | cons n ns ih =>
      intro G h
      have e : (G.releaseCheck n).lane l = G.lane l := by
        rw [Group.lane_releaseCheck]
        split
        · unfold Thread.passes; split
          · rename_i k pc hx; exact absurd hx (h k pc)
          · rfl
        · rfl
      rw [List.foldl_cons, ih _ (by rw [e]; exact h), e]
  induction ns generalizing G with
  | nil => split <;> simp
  | cons n ns ih =>
    rw [List.foldl_cons]
    cases hs : (G.lane l).st with
    | join k pc =>
      dsimp only
      have er := Group.lane_releaseCheck G n l
      have erest := Group.releaseCheck_rest G n
      have hnn : n ∉ ns := (List.nodup_cons.1 hn).1
      by_cases hk : k = n
      · subst hk
        by_cases hr : rejoined (G.j.get k 0) (G.arr.get k 0) = true ∧ (G.arr.get k 0).getLsbD l = true
        · rw [if_pos hr] at er
          have hp : ((G.releaseCheck k).lane l).st = .ready := by rw [er]; unfold Thread.passes; rw [hs]; simp
          rw [stay _ _ (by rw [hp]; intro n pc h; cases h), er, if_pos ⟨List.mem_cons_self, hr⟩]
        · rw [if_neg hr] at er
          rw [ih _ (List.nodup_cons.1 hn).2, er, hs]
          dsimp only
          rw [if_neg (by intro h; exact hnn h.1), if_neg (by intro h; exact hr h.2)]
      · have ep : (G.lane l).passes n = G.lane l := by unfold Thread.passes; rw [hs]; simp [hk]
        have er' : (G.releaseCheck n).lane l = G.lane l := by rw [er]; split <;> [exact ep; rfl]
        rw [ih _ (List.nodup_cons.1 hn).2, er', hs]
        dsimp only
        have ej : (G.releaseCheck n).j = G.j := by rw [erest]
        have ea : (G.releaseCheck n).arr.get k 0 = G.arr.get k 0 := by
          rw [erest]; dsimp only; split
          · rw [SMap.get_put_ne _ _ _ hk]
          · rfl
        rw [ej, ea]
        simp only [List.mem_cons, hk, false_or]
    | _ => exact (stay (n :: ns) G (by rw [hs]; intro n pc h; cases h))

theorem releases_rest (ns : List Nat) (G : Group) : ns.foldl (fun G n => G.releaseCheck n) G = { G with lanes := (ns.foldl (fun G n => G.releaseCheck n) G).lanes, arr := (ns.foldl (fun G n => G.releaseCheck n) G).arr } := by
  induction ns generalizing G with
  | nil => rfl
  | cons n ns ih =>
    rw [List.foldl_cons]
    have e := ih (G.releaseCheck n)
    have r := Group.releaseCheck_rest G n
    generalize ns.foldl (fun G n => G.releaseCheck n) (G.releaseCheck n) = A at e ⊢
    exact e.trans (by rw [r])

theorem get_mapped (m : SMap Word) (x : Word) (n : Nat) : SMap.get (m.map fun (k, y) => (k, y &&& x)) n 0 = SMap.get m n 0 &&& x := by
  unfold SMap.get
  have e := SMap.find?_map m (fun (_ : Nat) (y : Word) => y &&& x) n
  have e' : SMap.find? (m.map fun (x' : Nat × Word) => (x'.1, x'.2 &&& x)) n = (SMap.find? m n).map (fun y => y &&& x) := e
  show (SMap.find? (m.map fun (x' : Nat × Word) => (x'.1, x'.2 &&& x)) n).getD 0 = _
  rw [e']
  cases SMap.find? m n <;> simp

theorem exitLanes_spec (G : Group) (m : Word) : Exits m G (G.exitLanes m) := by
  unfold Exits Group.exitLanes
  dsimp only
  have hl : ∀ l, (Group.updLanes G (lanesOf m) fun _ t => { t with st := .exited, hnd := false }).lane l = if m.getLsbD l then { G.lane l with st := .exited, hnd := false } else G.lane l := by
    intro l; rw [Group.lane_updLanes _ (lanesOf_nodup _)]; simp only [mem_lanesOf]
  refine ⟨?_, ?_, ?_⟩
  · rw [releases_rest]
    rw [Group.updLanes_eq]
  · intro n
    rw [releases_rest]
    show SMap.get (List.map _ (Group.updLanes G (lanesOf m) _).j) n 0 = _
    rw [Group.updLanes_eq]
    exact get_mapped _ _ _
  · intro l
    rw [lane_releases _ _ _ List.nodup_range]
    have e : ∀ G' : Group, ({ G' with j := G'.j.map fun (k, y) => (k, y &&& ~~~m), arr := G'.arr.map fun (k, y) => (k, y &&& ~~~m) } : Group).lane l = G'.lane l := fun _ => rfl
    simp only [e, hl l]
    by_cases hm : m.getLsbD l = true
    · simp only [hm, if_true]
    · simp only [hm, if_false, Bool.false_eq_true]
      have ej : (Group.updLanes G (lanesOf m) fun _ t => { t with st := .exited, hnd := false }).j = G.j := by rw [Group.updLanes_eq]
      have ea : (Group.updLanes G (lanesOf m) fun _ t => { t with st := .exited, hnd := false }).arr = G.arr := by rw [Group.updLanes_eq]
      cases hs : (G.lane l).st with
      | join n pc =>
        dsimp only
        rw [ej, ea, get_mapped, get_mapped]
        simp only [List.mem_range]
      | _ => rfl

theorem kill_exit {s : State} {g : Nat} {G : Group} {m : Word} (h : s.group? g = some G) :
   (s.updGroup g fun G => G.exitLanes m).handlerCheck g = { s with groups := SMap.put s.groups g (G.exitLanes m).hcheck } := by
  rw [State.updGroup_some h]
  rw [handlerCheck_put (group?_put _ _ _)]
  simp [SMap.put_put]

theorem live_exits {m : Word} {G0 G : Group} (h : Exits m G0 G) (l : Nat) (hl : l < 32) : (G.liveMask).getLsbD l = (G0.liveMask &&& ~~~m).getLsbD l := by
  have := h.2.2 l
  unfold Group.liveMask
  rw [getLsbD_lanesWith, BitVec.getLsbD_and, getLsbD_lanesWith, this]
  simp only [hl, decide_true, Bool.true_and, BitVec.getLsbD_not]
  by_cases hm : m.getLsbD l = true
  · simp [hm]
  · simp only [hm, Bool.false_eq_true, if_false, Bool.not_false, Bool.and_true]
    cases hs : (G0.lane l).st with
    | join n pc =>
      dsimp only
      split
      · unfold Thread.passes; rw [hs]; dsimp only; split
        · simp; rfl
        · simp [hs]
      · rw [hs]
    | _ => dsimp only; rw [hs]

theorem live_ends {H : Handler} {G0 G : Group} (h : HandlerEnds H G0 G) : G.liveMask = G0.liveMask := by
  apply BitVec.eq_of_getLsbD_eq
  intro l hl
  unfold Group.liveMask
  rw [getLsbD_lanesWith, getLsbD_lanesWith]
  congr 1
  have := h.2.2 l
  cases hf : H.lanes.find? (·.lane == l) with
  | none => rw [hf] at this; dsimp only at this; rw [this]
  | some f =>
    rw [hf] at this; dsimp only at this
    split at this
    · rename_i hx
      obtain ⟨y, hy, e⟩ := this
      rw [e, hx]
      split
      · simp; decide
      · rw [hy.1]; simp; decide
    · rw [this]

theorem live_hcheck (G : Group) : G.hcheck.liveMask = G.liveMask := by
  unfold Group.hcheck
  cases G.hnd with
  | none => rfl
  | some H => dsimp only; split; · exact live_ends (endHandler_spec G H)
              rfl

theorem live_kill (G : Group) (m : Word) : (G.exitLanes m).hcheck.liveMask = G.liveMask &&& ~~~m := by
  rw [live_hcheck]
  apply BitVec.eq_of_getLsbD_eq
  intro l hl
  exact live_exits (exitLanes_spec G m) l hl

theorem fin_eq {m : Word} {H : Handler} {G0 A B : Group} (a : Exits m G0 A) (b : Exits m G0 B) : H.finished A = H.finished B := by
  unfold Handler.finished
  congr 1
  congr 1
  funext f
  rw [a.2.2 f.lane, b.2.2 f.lane]

theorem brk_spec {s t : State} {c : Ctx} {n : BitVec 16} (h : Found s c t) (hd : t.debugger = true) (hm : c.mask ≠ 0) :
   ∃ u G, (Host.Outcome.next (if t.debugger = true then
        ({ t with debugLog := t.debugLog ++ [(c.g, c.pc)] }.updGroup c.g fun G => G.debugStop c).draw 1
      else (t.raise c.g c.h ⟨c.mask, c.pc + 4, c.first, c.pc + 4, causeWord 9 0 n.toNat, false⟩).draw 1) : Result) = .next u ∧
     u = { t with
           groups := SMap.put t.groups c.g G
           debugLog := t.debugLog ++ [(c.g, c.pc)]
           fresh := t.fresh + 1 } ∧
         G = { c.G with lanes := G.lanes } ∧
         Lanes c G fun _ x => { x with
           st := .debug
           pc := c.pc + 4
           hints := Hints.clear } := by
  rw [if_pos hd]
  rw [State.updGroup_some (s := { t with debugLog := t.debugLog ++ [(c.g, c.pc)] }) h.group]
  refine ⟨_, c.G.debugStop c, rfl, rfl, ?_, ?_⟩
  · unfold Group.debugStop; rw [if_neg hm, Group.updLanes_eq]
  · intro l; unfold Group.debugStop; rw [if_neg hm, Group.lane_updLanes _ (lanesOf_nodup _)]; simp only [mem_lanesOf]; rfl

theorem checkGroup_live {s : State} {g : Nat} {G : Group} (h : s.group? g = some G) (hl : G.liveMask ≠ 0) : s.checkGroup g = s := by
  unfold State.checkGroup; rw [h]; dsimp only; rw [if_neg (fun x => hl x.1)]

theorem exit_some {s t : State} {c : Ctx} (h : Found s c t) (h3 : c.G.liveMask &&& ~~~c.mask ≠ 0)
   (h4 : ∀ H G, c.G.hnd = some H → Exits c.mask c.G G → H.finished G = false) :
   ∃ u G, (Host.Outcome.next ((t.kill c.g c.mask).draw 1) : Result) = .next u ∧ OneGroup c t u G ∧ Exits c.mask c.G G := by
  have hx := exitLanes_spec c.G c.mask
  have hc : (c.G.exitLanes c.mask).hcheck = c.G.exitLanes c.mask := by
    unfold Group.hcheck
    have : (c.G.exitLanes c.mask).hnd = c.G.hnd := by rw [hx.1]
    rw [this]
    cases hh : c.G.hnd with
    | none => rfl
    | some H => dsimp only; rw [h4 H _ hh hx]; rfl
  unfold State.kill
  rw [kill_exit h.group, hc, checkGroup_live (group?_put _ _ _)]
  · exact ⟨_, _, rfl, rfl, hx⟩
  · have := live_kill c.G c.mask; rw [hc] at this; rw [this]; exact h3

theorem exit_handler {s t : State} {c : Ctx} {H : Handler} (h : Found s c t) (h3 : c.G.liveMask &&& ~~~c.mask ≠ 0) (hH : c.G.hnd = some H)
   (h4 : ∀ G, Exits c.mask c.G G → H.finished G = true) :
   ∃ u A G, (Host.Outcome.next ((t.kill c.g c.mask).draw 1) : Result) = .next u ∧ OneGroup c t u G ∧ Exits c.mask c.G A ∧ HandlerEnds H A G := by
  have hx := exitLanes_spec c.G c.mask
  have hc : (c.G.exitLanes c.mask).hcheck = (c.G.exitLanes c.mask).endHandler H := by
    unfold Group.hcheck
    have : (c.G.exitLanes c.mask).hnd = c.G.hnd := by rw [hx.1]
    rw [this, hH]
    dsimp only; rw [h4 _ hx]; rfl
  unfold State.kill
  rw [kill_exit h.group, checkGroup_live (group?_put _ _ _)]
  · rw [hc]; exact ⟨_, _, _, rfl, rfl, hx, endHandler_spec _ H⟩
  · rw [live_kill]; exact h3

theorem detach_spec (s : State) (g k : Nat) : (s.detach g k).teams = s.teams ∧ (s.detach g k).vfs = s.vfs ∧ (∀ g', g' ≠ g → (s.detach g k).group? g' = s.group? g') ∧
   ∀ G, s.group? g = some G → ∃ m a, (s.detach g k).group? g = some { G with cvm := m, cvAt := a } ∧ m.state ≠ 1 := by
  unfold State.detach
  cases hg : s.group? g with
  | none => exact ⟨rfl, rfl, fun _ _ => rfl, fun G h => by cases h⟩
  | some G =>
    have hg' : SMap.find? s.groups g = some G := hg
    dsimp only
    split
    · refine ⟨rfl, rfl, ?_, ?_⟩
      · intro g' hne
        show SMap.find? (SMap.upd s.groups g _) g' = _
        rw [SMap.find?_upd_ne _ _ hne]; rfl
      · intro G' h
        cases h
        exact ⟨{ G.cvm with state := 2, cause := k, held := false }, s.now, by
          show SMap.find? (SMap.upd s.groups g _) g = _
          rw [SMap.find?_upd_self, hg']; rfl, by show (2:Nat) ≠ 1; decide⟩
    · rename_i hn
      split
      · refine ⟨rfl, rfl, ?_, ?_⟩
        · intro g' hne
          show SMap.find? (SMap.upd s.groups g _) g' = _
          rw [SMap.find?_upd_ne _ _ hne]; rfl
        · intro G' h
          cases h
          exact ⟨{ G.cvm with cause := k }, G.cvAt, by
            show SMap.find? (SMap.upd s.groups g _) g = _
            rw [SMap.find?_upd_self, hg']; rfl, hn⟩
      · exact ⟨rfl, rfl, fun _ _ => rfl, fun G' h => by cases h; exact ⟨G.cvm, G.cvAt, hg, hn⟩⟩

theorem freeBlocks_spec (s : State) (g : Nat) : (s.freeBlocks g).teams = s.teams ∧ (s.freeBlocks g).vfs = s.vfs ∧ (∀ g', g' ≠ g → (s.freeBlocks g).group? g' = s.group? g') ∧
   ∀ G, s.group? g = some G → (s.freeBlocks g).group? g = some { G with ext := 0, rbReq := false } := by
  unfold State.freeBlocks
  cases hg : s.group? g with
  | none => exact ⟨rfl, rfl, fun _ _ => rfl, fun G h => by cases h⟩
  | some G =>
    dsimp only
    have hs : ∀ u : State, u.teams = s.teams → u.vfs = s.vfs → u.groups = s.groups → (u.updGroup g fun G => { G with ext := 0, rbReq := false }).teams = s.teams ∧ (u.updGroup g fun G => { G with ext := 0, rbReq := false }).vfs = s.vfs ∧ (∀ g', g' ≠ g → (u.updGroup g fun G => { G with ext := 0, rbReq := false }).group? g' = s.group? g') ∧
         ∀ G', some G = some G' → (u.updGroup g fun G => { G with ext := 0, rbReq := false }).group? g = some { G' with ext := 0, rbReq := false } := by
      intro u h1 h0 h2
      refine ⟨h1, h0, fun g' hne => ?_, fun G' h => ?_⟩
      · show SMap.find? (SMap.upd u.groups g _) g' = _
        rw [SMap.find?_upd_ne _ _ hne, h2]; rfl
      · cases h
        show SMap.find? (SMap.upd u.groups g _) g = _
        have : SMap.find? u.groups g = some G := by rw [h2]; exact hg
        rw [SMap.find?_upd_self, this]; rfl
    split
    · exact hs s rfl rfl rfl
    · exact hs _ rfl rfl rfl

theorem hcheck_held (G : Group) : G.hcheck.traps.find? (·.seq) = G.traps.find? (·.seq) := by
  unfold Group.hcheck
  cases hh : G.hnd with
  | none => rfl
  | some H =>
    dsimp only
    by_cases hf : H.finished G = true
    · rw [if_pos hf]
      have hs : H.trap.seq = false := by
        unfold Handler.finished at hf
        cases hq : H.trap.seq with
        | false => rfl
        | true => rw [hq] at hf; simp at hf
      have e := (endHandler_spec G H).1
      unfold Group.traps
      rw [show (G.endHandler H).hnd = none by rw [e], show (G.endHandler H).trapQ = G.trapQ by rw [e], hh]
      simp [hs]
    · rw [if_neg hf]

theorem traps_same {A B : Group} (h1 : A.hnd = B.hnd) (h2 : A.trapQ = B.trapQ) : A.traps = B.traps := by unfold Group.traps; rw [h1, h2]

theorem exit_last {s t : State} {c : Ctx} {T : Team} (h : Found s c t) (h3 : c.G.liveMask &&& ~~~c.mask = 0) (hT : t.team? c.G.team = some T)
   (h4 : ∃ g H, g ∈ T.groups ∧ g ≠ c.g ∧ t.group? g = some H ∧ H.ended = false)
   (hv : ∀ g H, g ∈ T.groups → t.group? g = some H → (t.vf H.vf).hcl ≠ 0) :
   ∃ u G, (Host.Outcome.next ((t.kill c.g c.mask).draw 1) : Result) = .next u ∧ u.group? c.g = some G ∧ G.liveMask = 0 ∧ G.ended = true ∧ G.ext = 0 ∧ G.cvm.state ≠ 1 ∧
     ∀ e, c.G.traps.find? (·.seq) = some e → ∃ g H, g ∈ T.groups ∧ u.group? g = some H ∧ e ∈ H.trapQ := by
  obtain ⟨g, H, hgT, hne, hgH, hHe⟩ := h4
  unfold State.kill
  rw [kill_exit h.group]
  have hx := exitLanes_spec c.G c.mask
  have e3 : (c.G.exitLanes c.mask).hnd = c.G.hnd ∧ (c.G.exitLanes c.mask).trapQ = c.G.trapQ := by rw [hx.1]; exact ⟨rfl, rfl⟩
  have hes := hcheck_held (c.G.exitLanes c.mask)
  rw [traps_same e3.1 e3.2] at hes
  have hKl : (c.G.exitLanes c.mask).hcheck.liveMask = 0 := by rw [live_kill]; exact h3
  have hKe : (c.G.exitLanes c.mask).hcheck.ended = false ∧ (c.G.exitLanes c.mask).hcheck.team = c.G.team := by
    unfold Group.hcheck
    have e1 : (c.G.exitLanes c.mask).ended = false := by rw [hx.1]; exact h.alive
    have e2 : (c.G.exitLanes c.mask).team = c.G.team := by rw [hx.1]
    split
    · rename_i H' _
      split
      · have := (endHandler_spec (c.G.exitLanes c.mask) H').1
        rw [this]; exact ⟨e1, e2⟩
      · exact ⟨e1, e2⟩
    · exact ⟨e1, e2⟩
  generalize (c.G.exitLanes c.mask).hcheck = K at hes hKl hKe ⊢
  generalize c.G.traps.find? (·.seq) = E at hes ⊢
  set s0 : State := { t with groups := SMap.put t.groups c.g K } with hs0
  have g0 : s0.group? c.g = some K := SMap.find?_put_self _ _ _
  have o0 : ∀ g', g' ≠ c.g → s0.group? g' = t.group? g' := by intro g' hg'; show SMap.find? (SMap.put _ _ _) g' = _; rw [SMap.find?_put_ne _ _ hg']; rfl
  unfold State.checkGroup
  rw [g0]
  dsimp only
  rw [if_pos ⟨hKl, hKe.1⟩, hes]
  obtain ⟨d1, dv, d2, d3⟩ := detach_spec s0 c.g 2
  obtain ⟨m, am, d4, d5⟩ := d3 K g0
  obtain ⟨f1, fv, f2, f3⟩ := freeBlocks_spec (s0.detach c.g 2) c.g
  have g2 := f3 _ d4
  set s2 := (s0.detach c.g 2).freeBlocks c.g with hs2
  set s3 := s2.updGroup c.g fun G => { G with ended := true, hnd := none, trapQ := [] } with hs3
  have g3 : s3.group? c.g = some { K with cvm := m, cvAt := am, ext := 0, rbReq := false, ended := true, hnd := none, trapQ := [] } := by
    rw [hs3, State.group?_updGroup_self, g2]; rfl
  have o3 : ∀ g', g' ≠ c.g → s3.group? g' = t.group? g' := by
    intro g' hg'
    show SMap.find? (SMap.upd s2.groups c.g _) g' = _
    rw [SMap.find?_upd_ne _ _ hg']
    exact (f2 g' hg').trans ((d2 g' hg').trans (o0 g' hg'))
  have t3 : s3.teams = t.teams := f1.trans d1
  have v3 : s3.vfs = t.vfs := fv.trans dv
  set s4 := (if K.idx = 0 then s3.updTeam K.team fun T => { T with recs0 := some K.b } else s3) with hs4
  have g4 : s4.groups = s3.groups := by rw [hs4]; split <;> rfl
  have v4 : s4.vfs = t.vfs := by rw [hs4, ← v3]; split <;> rfl
  obtain ⟨T', h1, h2⟩ : ∃ T', s4.team? K.team = some T' ∧ T'.groups = T.groups := by
    have ht : s3.team? K.team = some T := by show SMap.find? s3.teams _ = _; rw [t3, hKe.2]; exact hT
    rw [hs4]
    split
    · refine ⟨{ T with recs0 := some K.b }, ?_, rfl⟩
      show SMap.find? (SMap.upd s3.teams K.team _) K.team = _
      have : SMap.find? s3.teams K.team = some T := ht
      rw [SMap.find?_upd_self, this]; rfl
    · exact ⟨T, ht, rfl⟩
  have o4 : ∀ g', g' ≠ c.g → s4.group? g' = t.group? g' := by intro g' hg'; show SMap.find? s4.groups g' = _; rw [g4]; exact o3 g' hg'
  have c4 : s4.group? c.g = some { K with cvm := m, cvAt := am, ext := 0, rbReq := false, ended := true, hnd := none, trapQ := [] } := by show SMap.find? s4.groups c.g = _; rw [g4]; exact g3
  have hgs : s4.group? g = some H := (o4 g hne).trans hgH
  cases E with
  | none =>
    dsimp only
    have hchk : s4.checkTeam K.team = s4 := by
      unfold State.checkTeam
      rw [h1]
      dsimp only
      have : s4.groupsEnded T' = false := by
        unfold State.groupsEnded
        rw [h2, List.all_eq_false]
        exact ⟨g, hgT, by rw [hgs]; simp [hHe]⟩
      rw [this]; simp
    exact ⟨_, { K with cvm := m, cvAt := am, ext := 0, rbReq := false, ended := true, hnd := none, trapQ := [] }, rfl, by
      rw [hchk]; exact c4, hKl, rfl, rfl, d5, nofun⟩
  | some e =>
    dsimp only
    unfold State.seqHandOver
    rw [h1]
    dsimp only
    have hfg : ∃ k J, s4.firstGroup T' = some k ∧ k ∈ T.groups ∧ k ≠ c.g ∧ s4.group? k = some J := by
      cases hf : s4.firstGroup T' with
      | none =>
        unfold State.firstGroup at hf
        rw [List.find?_eq_none] at hf
        have := hf g (by rw [h2]; exact hgT)
        rw [hgs] at this
        simp [hHe] at this
      | some k =>
        unfold State.firstGroup at hf
        have hk := List.mem_of_find?_eq_some hf
        have hk2 := List.find?_some hf
        rw [h2] at hk
        cases hJ : s4.group? k with
        | none => rw [hJ] at hk2; simp at hk2
        | some J =>
          refine ⟨k, J, rfl, hk, ?_, hJ⟩
          rintro rfl
          rw [c4] at hJ
          rw [c4] at hk2
          simp at hk2
    obtain ⟨k, J, k1, k2, k3, k4⟩ := hfg
    rw [k1]
    dsimp only
    have hJv : (s4.vf J.vf).hcl ≠ 0 := by
      have := hv k J k2 ((o4 k k3).symm.trans k4)
      unfold State.vf at this ⊢
      rw [v4]; exact this
    rw [State.raise_eq k4 e hJv, State.updGroup_some k4]
    refine ⟨_, { K with cvm := m, cvAt := am, ext := 0, rbReq := false, ended := true, hnd := none, trapQ := [] }, rfl, ?_, hKl, rfl, rfl, d5, ?_⟩
    · show SMap.find? (SMap.put s4.groups k _) c.g = _
      rw [SMap.find?_put_ne _ _ (Ne.symm k3)]; exact c4
    · intro e' he'
      cases he'
      exact ⟨k, _, k2, SMap.find?_put_self _ _ _, by simp⟩

theorem exit_seq {s t : State} {c : Ctx} {H : Handler} (h : Found s c t) (hH : c.G.hnd = some H) :
   ∃ u G, (Host.Outcome.next ((t.endSeqHandler c.g false).draw 1) : Result) = .next u ∧ OneGroup c t u G ∧ HandlerEnds H c.G G := by
  unfold State.endSeqHandler
  rw [h.group]; dsimp only; rw [hH]; dsimp only
  simp only [Bool.false_eq_true, if_false]
  rw [State.updGroup_some h.group]
  exact ⟨_, _, rfl, rfl, endHandler_spec _ _⟩

theorem tret_seq {s t : State} {c : Ctx} {H : Handler} {T : Team} (h : Found s c t) (hH : c.G.hnd = some H) (hT : t.team? c.G.team = some T) :
   ∃ u G, (Host.Outcome.next ((t.endSeqHandler c.g true).draw 1) : Result) = .next u ∧ HandlerEnds H c.G G ∧ u = { t with
           groups := SMap.put t.groups c.g G
           teams := SMap.put t.teams c.G.team { T with seq := { T.seq with sflt := false } }
           fresh := t.fresh + 1 } := by
  unfold State.endSeqHandler
  rw [h.group]; dsimp only; rw [hH]; dsimp only
  simp only [if_true]
  rw [State.updGroup_some h.group]
  refine ⟨_, _, rfl, endHandler_spec _ _, ?_⟩
  unfold State.updTeam
  rw [SMap.upd_some _ _ _ T hT]
  rfl

theorem exit_werr {s t : State} {c : Ctx} (h : Found s c t) (hv : (t.vf c.G.vf).hcl ≠ 0) :
   Parks { c with G := { c.G with werr := false } } (t.updGroup c.g fun _ => { c.G with werr := false }) ⟨c.mask, c.first, c.first, c.first, causeWord 6 23 0, false⟩ 0
     (.next ((t.updGroup c.g fun G => { G with werr := false }).raise c.g false ⟨c.mask, c.first, c.first, c.first, causeWord 6 23 0, false⟩)) := by
  have e : (t.updGroup c.g fun G => { G with werr := false }) = t.updGroup c.g fun _ => { c.G with werr := false } := by
    rw [State.updGroup_some h.group, State.updGroup_some h.group]
  rw [e]
  have := State.raise_spec (s := t.updGroup c.g fun _ => { c.G with werr := false }) (c := { c with G := { c.G with werr := false } })
    (by show (State.updGroup _ _ _).group? c.g = _; rw [State.group?_updGroup_self, h.group]; rfl) ⟨c.mask, c.first, c.first, c.first, causeWord 6 23 0, false⟩ hv 0
  exact this

theorem tret_lanes (c : Ctx) : (c.G.updLanes (lanesOf c.mask) fun _ t => { t with st := .tretWait }) = { c.G with lanes := (c.G.updLanes (lanesOf c.mask) fun _ t => { t with st := .tretWait }).lanes } ∧
   Lanes c (c.G.updLanes (lanesOf c.mask) fun _ t => { t with st := .tretWait }) fun _ x => { x with st := .tretWait } := by
  refine ⟨Group.updLanes_eq _ _ _, fun l => ?_⟩
  rw [Group.lane_updLanes _ (lanesOf_nodup _)]; simp only [mem_lanesOf]; rfl

theorem tret_some {s t : State} {c : Ctx} {H : Handler} (h : Found s c t) (hH : c.G.hnd = some H)
   (h2 : ∀ G, G = { c.G with lanes := G.lanes } → (Lanes c G fun _ x => { x with st := .tretWait }) → H.finished G = false) :
   ∃ u G, (Host.Outcome.next (((t.updGroup c.g fun G => G.updLanes (lanesOf c.mask) fun _ t => { t with st := .tretWait }).handlerCheck c.g).draw 1) : Result) = .next u ∧
     OneGroup c t u G ∧ G = { c.G with lanes := G.lanes } ∧ Lanes c G fun _ x => { x with st := .tretWait } := by
  obtain ⟨l1, l2⟩ := tret_lanes c
  rw [State.updGroup_some h.group, handlerCheck_put (group?_put _ _ _)]
  have hc : (c.G.updLanes (lanesOf c.mask) fun _ t => { t with st := .tretWait }).hcheck = (c.G.updLanes (lanesOf c.mask) fun _ t => { t with st := .tretWait }) := by
    unfold Group.hcheck
    have : (c.G.updLanes (lanesOf c.mask) fun _ t => { t with st := .tretWait }).hnd = some H := by rw [l1]; exact hH
    rw [this]; dsimp only; rw [h2 _ l1 l2]; rfl
  rw [hc]
  refine ⟨_, _, rfl, ?_, l1, l2⟩
  unfold OneGroup; simp [SMap.put_put]; rfl

theorem tret_end {s t : State} {c : Ctx} {H : Handler} (h : Found s c t) (hH : c.G.hnd = some H)
   (h2 : ∀ G, G = { c.G with lanes := G.lanes } → (Lanes c G fun _ x => { x with st := .tretWait }) → H.finished G = true) :
   ∃ u A G, (Host.Outcome.next (((t.updGroup c.g fun G => G.updLanes (lanesOf c.mask) fun _ t => { t with st := .tretWait }).handlerCheck c.g).draw 1) : Result) = .next u ∧
     OneGroup c t u G ∧ A = { c.G with lanes := A.lanes } ∧ (Lanes c A fun _ x => { x with st := .tretWait }) ∧ HandlerEnds H A G := by
  obtain ⟨l1, l2⟩ := tret_lanes c
  rw [State.updGroup_some h.group, handlerCheck_put (group?_put _ _ _)]
  have hc : (c.G.updLanes (lanesOf c.mask) fun _ t => { t with st := .tretWait }).hcheck = (c.G.updLanes (lanesOf c.mask) fun _ t => { t with st := .tretWait }).endHandler H := by
    unfold Group.hcheck
    have : (c.G.updLanes (lanesOf c.mask) fun _ t => { t with st := .tretWait }).hnd = some H := by rw [l1]; exact hH
    rw [this]; dsimp only; rw [h2 _ l1 l2]; rfl
  rw [hc]
  refine ⟨_, _, _, rfl, ?_, l1, l2, endHandler_spec _ _⟩
  unfold OneGroup; simp [SMap.put_put]; rfl

theorem find?_foldl_put {α : Type} (f : Nat → α) (ls : List Nat) (m : SMap α) (l : Nat) : SMap.find? (ls.foldl (fun r k => SMap.put r k (f k)) m) l = if l ∈ ls then some (f l) else SMap.find? m l := by
  induction ls generalizing m with
  | nil => simp
  | cons k ks ih =>
    rw [List.foldl_cons, ih]
    by_cases h1 : l ∈ ks
    · simp [h1]
    · by_cases h2 : l = k
      · subst h2; simp [h1]
      · simp [h1, h2, SMap.find?_put_ne]

theorem trep_spec {s t : State} {c : Ctx} {H : Handler} {d a : BitVec 7} (h : Found s c t) (hm : c.mask ≠ 0) (hH : c.G.hnd = some H) :
   ∃ u G, (Host.Outcome.next ((t.updGroup c.g fun G =>
          { G with hnd := G.hnd.map fun H =>
              { H with repl := (lanesOf c.mask).foldl (fun r l => SMap.put r l (d.toNat, c.rv l a.toNat)) H.repl } }).retire c) : Result) = .next u ∧ OneGroup c t u G ∧
         G = { c.G with
           lanes := G.lanes
           hnd := G.hnd } ∧
         (∃ K, G.hnd = some K ∧ K = { H with repl := K.repl } ∧
           ∀ l, SMap.find? K.repl l = if c.has l then some (d.toNat, c.rv l a.toNat) else SMap.find? H.repl l) ∧
         Lanes c G fun _ x => x.at_ (x.pc + 4) := by
  rw [State.retire_upd h]
  refine ⟨_, _, rfl, rfl, ?_, ?_, ?_⟩
  · rw [Group.moveTo_eq]
  · rw [Group.hnd_moveTo, if_neg hm]
    dsimp only
    rw [hH]
    refine ⟨_, rfl, rfl, fun l => ?_⟩
    rw [find?_foldl_put (fun l => (d.toNat, c.rv l a.toNat))]
    simp only [mem_lanesOf]; rfl
  · intro l
    rw [Group.lane_moveTo]
    · rfl
    · intro l hl; exact (h.ready l hl).1

end Sys2Proof.Machine
end

