-- ==== Sys2Proof/Laws/Host.lean ====
section
/-! SUPPORT. Host registers, bring-up and repair (R445 to R449, R501 to R509). -/

namespace Sys2Proof.Machine

section

variable {s : State} {v n : Nat}

theorem odd1 (n : Nat) : (n / 2 * 2 + 1) % 2 = 1 := by omega

theorem even0 (n : Nat) : (n / 2 * 2) % 2 = 0 := by omega

theorem writeVf_on (h3 : (s.vf v).en = false) (h4 : s.enableBad v (n / 2 * 2 + 1) = false) : s.writeVf v (n / 2 * 2 + 1) = { s.updVf v fun y => { (y.load (n / 2 * 2 + 1)).loadKey (n / 2 * 2 + 1) with
         en := true
         gen := s.gens } with gens := s.gens + 1 } := by
  unfold State.writeVf; dsimp only; rw [if_neg (by rw [h3]; decide), if_pos (by rw [odd1]; rfl), if_neg (by rw [h4]; decide)]

theorem writeVf_bad (h3 : (s.vf v).en = false) (h4 : s.enableBad v (n / 2 * 2 + 1) = true) : s.writeVf v (n / 2 * 2 + 1) = s := by
  unfold State.writeVf; dsimp only; rw [if_neg (by rw [h3]; decide), if_pos (by rw [odd1]; rfl), if_pos h4]

theorem writeVf_keep (h3 : (s.vf v).en = true) : s.writeVf v (n / 2 * 2 + 1) = s.updVf v fun y => y.load (n / 2 * 2 + 1) := by
  unfold State.writeVf; dsimp only; rw [if_pos h3, if_pos (by rw [odd1]; rfl)]

theorem writeVf_off (h3 : (s.vf v).en = true) : s.writeVf v (n / 2 * 2) = (s.updVf v fun y => y.load (n / 2 * 2)).disable v := by
  unfold State.writeVf; dsimp only; rw [if_pos h3, if_neg (by rw [even0]; decide)]

theorem writeVf_none (h3 : (s.vf v).en = false) : s.writeVf v (n / 2 * 2) = s.updVf v fun y => (y.load (n / 2 * 2)).loadKey (n / 2 * 2) := by
  unfold State.writeVf; dsimp only; rw [if_neg (by rw [h3]; decide), if_neg (by rw [even0]; decide)]

theorem writeVf_same (s : State) (v n : Nat) : s.writeVf v (n / 2 * 2 + (s.vf v).en.toNat) = if (s.vf v).en = true then s.updVf v fun y => y.load (n / 2 * 2 + 1) else s.updVf v fun y => (y.load (n / 2 * 2)).loadKey (n / 2 * 2) := by
  cases h : (s.vf v).en with
  | true => exact writeVf_keep h
  | false => exact writeVf_none h

theorem host_head {e w p : Nat} (h1 : s.owner e = true) (h2 : v < 64) (h3 : p * 64 < memEnd) : exec (.hostMemoryAccess e v w p n) s = eventOf "HOST_MEMORY_ACCESS"
      (match s.txnOf (.host v p) with
       | some (t, x) => s.hostDone v p t x
       | none => some (s.hostSend v w p n)) := by
  refine if_neg ?_
  rw [h1]; simp; omega

theorem host_read {e p : Nat} (h1 : s.owner e = true) (h2 : v < 64) (h3 : p * 64 < memEnd) (h4 : s.txnOf (.host v p) = none) :
    exec (.hostMemoryAccess e v 0 p n) s = .next (s.beginTxn (.host v p) v 1 0 [(0, [.glob 0 (p * 64)])] []).1 := by
  rw [host_head h1 h2 h3, h4]; rfl

theorem host_write {e w p : Nat} (h1 : s.owner e = true) (h2 : v < 64) (h3 : p * 64 < memEnd) (h4 : s.txnOf (.host v p) = none) (h5 : w ≠ 0) :
    exec (.hostMemoryAccess e v w p n) s = .next (s.engStore (.host v p) v 1 0 ((List.range 64).map fun i => (.glob 0 (p * 64 + i), secByte (BitVec.ofNat 512 n) i))) := by
  rw [host_head h1 h2 h3, h4]; dsimp only; unfold State.hostSend; rw [if_neg h5]; rfl

theorem host_ends {e w p k : Nat} {x : Txn} (h1 : s.owner e = true) (h2 : v < 64) (h3 : p * 64 < memEnd) (h4 : s.txnOf (.host v p) = some (k, x)) :
    (x.complete = true → exec (.hostMemoryAccess e v w p n) s = .next (s.endTxn k)) ∧
    (x.complete = false → x.ready = true → exec (.hostMemoryAccess e v w p n) s = .next { s.endTxn k with
      hostReads := s.hostReads ++ [(v, p * 64, (if x.bad = [] then (List.range 64).map (secByte (x.got.get p 0)) else []), x.bad != [])] }) := by
  rw [host_head h1 h2 h3, h4]; dsimp only; unfold State.hostDone
  exact ⟨fun h => by rw [if_pos h]; rfl, fun h h' => by rw [if_neg (by rw [h]; decide), if_pos h']; rfl⟩

theorem get_mapped' {α : Type} (m : SMap α) (f : α → α) (i : Nat) (d : α) (hd : f d = d) : SMap.get (List.map (fun x => (x.1, f x.2)) m) i d = f (SMap.get m i d) := by
  have e := SMap.find?_map m (fun (_ : Nat) x => f x) i
  unfold SMap.get
  rw [show List.map (fun x => (x.1, f x.2)) m = m.map (fun (k, v) => (k, f v)) from rfl]
  rw [e]
  cases SMap.find? m i with
  | none => exact hd.symm
  | some x => rfl

theorem reset_event (s : State) : ∃ t, exec .deviceReset s = .next t ∧ t.mem = s.mem ∧ t.side = s.side ∧ t.now = s.now ∧ t.image = s.image ∧ t.floor = (if s.verifies s.image then max s.floor s.image.floor else s.floor) ∧
       t.boot = (if s.verifies s.image then .up else .recovery) ∧ t.gens = s.gens ∧ t.boots = s.boots + 1 ∧ t.groups = [] ∧ t.teams = [] ∧ t.launches = [] ∧ t.vfs = [] ∧ t.colls = [] ∧ t.power = 2400 ∧
       (∀ c, (t.core c).up = (s.core c).up ∧ (t.core c).l1 = [] ∧ (t.core c).tags = BitVec.allOnes 64 ∧ (t.core c).terr = 0) ∧
       ∀ d, (t.die d).queues = [] ∧ (t.die d).convoys = [] ∧ (t.die d).assays = [] ∧ (t.die d).spares = (s.die d).spares ∧ (t.die d).phys = (s.die d).phys := by
  have key : ∀ u : State, u.image = s.image → u.floor = s.floor → ∃ b f h, u.bootFrom = { u with boot := b, floor := f, hazard := h } ∧ b = (if s.verifies s.image then .up else .recovery) ∧ f = (if s.verifies s.image then max s.floor s.image.floor else s.floor) := by
    intro u h1 h2
    have hv : u.verifies u.image = s.verifies s.image := by unfold State.verifies; rw [h1, h2]
    unfold State.bootFrom
    rw [hv, h1, h2]
    split
    · exact ⟨_, _, _, rfl, rfl, rfl⟩
    · exact ⟨_, _, _, by rw [← h2], rfl, rfl⟩
  obtain ⟨b, f, h, e, eb, ef⟩ := key { State.reset with
    now := s.now
    agenda := s.agenda
    fresh := s.fresh
    uid := s.uid
    boots := s.boots + 1
    image := s.image
    floor := s.floor
    mem := s.mem
    side := s.side
    hostMem := s.hostMem
    dies := List.map (fun (x : Nat × Die) => (x.1, x.2.afterReset)) s.dies
    cores := List.map (fun (x : Nat × Core) => (x.1, x.2.afterReset)) s.cores
    ports := List.map (fun (x : Nat × Port) => (x.1, x.2.afterReset)) s.ports
    unreach := s.unreach
    gens := s.gens
    rows := s.rows
    spared := s.spared
    debugLog := s.debugLog
    droOut := s.droOut
    chunkOut := s.chunkOut
    asyOut := s.asyOut
    chunkAnsOut := s.chunkAnsOut
    asyAnsOut := s.asyAnsOut
    rateOut := s.rateOut
    peerOut := s.peerOut
    ansOut := s.ansOut
    notices := s.notices
    reports := s.reports
    hostReads := s.hostReads } rfl rfl
  refine ⟨_, congrArg Host.Outcome.next e, rfl, rfl, rfl, rfl, ef, eb, rfl, rfl, rfl, rfl, rfl, rfl, rfl, rfl, ?_, ?_⟩
  · intro c
    have hc : ∀ t : State, t.cores = List.map (fun (x : Nat × Core) => (x.1, x.2.afterReset)) s.cores → t.core c = (s.core c).afterReset := by
      intro t ht; unfold State.core; rw [ht]; exact get_mapped' _ _ _ _ rfl
    rw [hc _ rfl]
    exact ⟨rfl, rfl, rfl, rfl⟩
  · intro d
    have hc : ∀ t : State, t.dies = List.map (fun (x : Nat × Die) => (x.1, x.2.afterReset)) s.dies → t.die d = (s.die d).afterReset := by
      intro t ht; unfold State.die; rw [ht]; exact get_mapped' _ _ _ _ rfl
    rw [hc _ rfl]
    exact ⟨rfl, rfl, rfl, rfl, rfl⟩

theorem image_ok {n g v f e z : Nat} (h1 : s.boot = .recovery) :
       let i : Image := {
         bytes := leBytes (Nat.log2 n / 8 + 1) n
         ed := g % 2 == 1
         ml := g / 2 % 2 == 1
         ver := v % 2 ^ 16
         floor := f % 2 ^ 16
         owners := [e % 4096]
         hazard := z % 2 == 1 }
       (i.ed && i.ml && decide (s.floor ≤ i.ver)) = true → exec (.recoveryImageLoad n g v f e z) s = .next { s with
         image := i
         boot := .up
         floor := max s.floor i.floor
         hazard := i.hazard } := by
  intro i h2
  have hv : ∀ k, Nat.ble s.floor k = decide (s.floor ≤ k) := by
    intro k; cases hb : Nat.ble s.floor k
    · symm; rw [decide_eq_false_iff_not]; intro h; exact absurd (Nat.ble_eq_true_of_le h) (by rw [hb]; decide)
    · symm; rw [decide_eq_true_eq]; exact Nat.le_of_ble_eq_true hb
  have h3 : s.verifies i = true := by unfold State.verifies; rw [hv]; exact h2
  have h4 : ({ s with image := i } : State).verifies i = true := h3
  show eventOf _ _ = _
  rw [if_pos h1]
  refine (congrArg (eventOf _) (congrArg some (if_pos h3))).trans ?_
  unfold eventOf State.bootFrom
  dsimp only
  rw [if_pos h4]

theorem image_bad {n g v f e z : Nat} (h1 : s.boot = .recovery) (h2 : (decide (g % 2 = 1) && decide (g / 2 % 2 = 1) && decide (s.floor ≤ v % 2 ^ 16)) = false) : exec (.recoveryImageLoad n g v f e z) s = .next s := by
  have hv : ∀ k, Nat.ble s.floor k = decide (s.floor ≤ k) := by
    intro k; cases hb : Nat.ble s.floor k
    · symm; rw [decide_eq_false_iff_not]; intro h; exact absurd (Nat.ble_eq_true_of_le h) (by rw [hb]; decide)
    · symm; rw [decide_eq_true_eq]; exact Nat.le_of_ble_eq_true hb
  show eventOf _ _ = _
  rw [if_pos h1]
  refine (congrArg (eventOf _) (congrArg some (if_neg ?_))).trans rfl
  unfold State.verifies; rw [hv]; dsimp only
  intro h
  have : (decide (g % 2 = 1) && decide (g / 2 % 2 = 1) && decide (s.floor ≤ v % 2 ^ 16)) = true := by simpa using h
  rw [this] at h2; cases h2

theorem excess_event (s : State) (v : Nat) : ∃ t, exec (.modulePowerExcess v) s = .next t ∧ ∀ d, t.die d = if d < 4 then { s.die d with mhz := max 1200 (min (s.die d).mhz v) } else s.die d := by
  have hf : ∀ (ds : List Nat), ds.Nodup → ∀ (s : State) (d : Nat), (ds.foldl (fun s d => s.updDie d fun D => { D with mhz := stretch D.mhz v }) s).die d = if d ∈ ds then { s.die d with mhz := stretch (s.die d).mhz v } else s.die d := by
    intro ds
    induction ds with
    | nil => intro _ s d; simp
    | cons k ks ih =>
      intro hn s d
      obtain ⟨hk, hn⟩ := List.nodup_cons.1 hn
      rw [List.foldl_cons, ih hn]
      have hd : (s.updDie k fun D => { D with mhz := stretch D.mhz v }).die d = if d = k then { s.die d with mhz := stretch (s.die d).mhz v } else s.die d := by
        unfold State.die State.updDie; dsimp only; rw [SMap.get_put]
        split
        · rename_i h; subst h; rfl
        · rfl
      rw [hd]
      by_cases h : d = k
      · subst h; simp [hk]
      · simp [h]
  refine ⟨_, rfl, ?_⟩
  intro d
  rw [hf (List.range 4) List.nodup_range]
  simp only [List.mem_range]; rfl

section

variable {f : Nat} {G : Group} (h : n < 336) (h1 : s.group? v = some G) (h2 : G.core = n) (h3 : G.ended = false) (h4 : f < 32) (h5 : (G.lane f).st ≠ .exited) (h6 : s.isSaved G.team = false)
include h h1 h2 h3 h4 h5 h6

theorem lane_raise : let k := G.standsAt (G.lane f)
    exec (.arrayEccError n 3 v f) s = .next (((s.updGroup v fun G => G.pullLane f).dropRequest v).raise v (G.lane f).hnd ⟨laneBit f, k.2, k.2, k.1 + 4, causeWord 6 24 0, false⟩) := by
  intro k
  show eventOf _ _ = _
  rw [if_neg (by omega), if_neg (by decide), if_neg (by decide), if_neg (by decide), if_pos rfl, h1]; dsimp only; rw [if_pos h2]
  unfold State.laneError; rw [h1]; dsimp only [Option.bind_some]; rw [if_pos ⟨h4, h5, by rw [h3]; rfl, by rw [h6]; rfl⟩]; rfl

theorem lane_error : let k := G.standsAt (G.lane f)
       G.rbReq = false → (G.lane f).hnd = false → (s.vf G.vf).hcl ≠ 0 →
       ∃ H, exec (.arrayEccError n 3 v f) s = .next { s with groups := SMap.put s.groups v H } ∧ H = { G.pullLane f with
         lanes := H.lanes
         trapQ := G.trapQ ++ [⟨laneBit f, k.2, k.2, k.1 + 4, causeWord 6 24 0, false⟩] } ∧
         ∀ l, H.lane l = if (laneBit f).getLsbD l = true then { G.lane l with
           st := .trapped
           pc := k.2
           hints := Hints.clear } else G.lane l := by
  intro k h7 h8 h9
  have hp : (s.updGroup v fun G => G.pullLane f).group? v = some (G.pullLane f) := by rw [State.group?_updGroup_self, h1]; rfl
  have e := lane_raise h h1 h2 h3 h4 h5 h6
  dsimp only at e
  rw [h8] at e
  have ed : (s.updGroup v fun G => G.pullLane f).dropRequest v = s.updGroup v fun G => G.pullLane f := by
    unfold State.dropRequest; rw [hp]; dsimp only
    rw [if_neg (by rintro ⟨a, _⟩; rw [show (G.pullLane f).rbReq = false from h7] at a; cases a)]
  rw [ed, State.raise_eq hp _ h9, State.updGroup_some hp, State.updGroup_some h1] at e
  have em : (({ s with groups := SMap.put s.groups v (G.pullLane f) } : State).groups.put v ({ (G.pullLane f).updLanes (lanesOf (laneBit f)) fun _ t => { t with
          st := .trapped
          pc := k.2
          hints := Hints.clear } with
        trapQ := (G.pullLane f).trapQ ++ [⟨laneBit f, k.2, k.2, k.1 + 4, causeWord 6 24 0, false⟩] } : Group)) = SMap.put s.groups v ({ (G.pullLane f).updLanes (lanesOf (laneBit f)) fun _ t => { t with
          st := .trapped
          pc := k.2
          hints := Hints.clear } with
        trapQ := (G.pullLane f).trapQ ++ [⟨laneBit f, k.2, k.2, k.1 + 4, causeWord 6 24 0, false⟩] } : Group) := SMap.put_put _ _ _ _
  refine ⟨{ (G.pullLane f).updLanes (lanesOf (laneBit f)) fun _ t => { t with
          st := .trapped
          pc := k.2
          hints := Hints.clear } with
        trapQ := (G.pullLane f).trapQ ++ [⟨laneBit f, k.2, k.2, k.1 + 4, causeWord 6 24 0, false⟩] }, ?_, ?_, ?_⟩
  · rw [e, ← em]
  · dsimp only; rw [Group.updLanes_eq]; rfl
  · intro l
    show (Group.updLanes _ _ _).lane l = _
    rw [Group.lane_updLanes _ (lanesOf_nodup _)]
    simp only [mem_lanesOf]; rfl

end

theorem retire_spare {n p : Nat} {ps : List Nat} (h : n < 336) (h1 : (s.core n).up = true) :
   let w := (s.teamsOn n []).foldl (fun s x => s.loseTeam x.1) s
   let u : State := { w with txns := w.txns.filter fun x => !(x.2.who.onCore n) }
   (u.die (n / 84)).spares = p :: ps → exec (.coreRetirement n) s = .next ((u.updDie (n / 84) fun D => { D with
         spares := ps
         phys := D.phys.put (n % 84) p }).updCore n fun _ => Core.init) := by
  intro w u h2
  show eventOf _ _ = _
  rw [if_pos ⟨h, h1⟩]
  unfold eventOf State.retire_; dsimp only
  split
  · rename_i q qs hq; have e : q :: qs = p :: ps := hq.symm.trans h2; cases e; rfl
  · rename_i hq; have e : [] = p :: ps := hq.symm.trans h2; cases e

theorem retire_none {n : Nat} (h : n < 336) (h1 : (s.core n).up = true) :
   let w := (s.teamsOn n []).foldl (fun s x => s.loseTeam x.1) s
   let u : State := { w with txns := w.txns.filter fun x => !(x.2.who.onCore n) }
   (u.die (n / 84)).spares = [] → exec (.coreRetirement n) s = .next (u.updCore n fun _ => { Core.init with up := false }) := by
  intro w u h2
  show eventOf _ _ = _
  rw [if_pos ⟨h, h1⟩]
  unfold eventOf State.retire_; dsimp only
  split
  · rename_i q qs hq; have e : q :: qs = [] := hq.symm.trans h2; cases e
  · rfl

end

end Sys2Proof.Machine
end

