-- ==== Sys2Proof/Laws/Paths.lean ====
section
/-! SUPPORT. Instructions that stop a path, and those that act on its group: joins, waits, register blocks, convoys, fences, shootdowns. -/

namespace Sys2Proof.Machine

theorem join_spec {s t : State} {c : Ctx} (h : Found s c t) (n : Nat) :
   ∃ u G, (Host.Outcome.next ((t.updGroup c.g fun G =>
        let G := G.moveTo c.mask fun l t => if (c.mask &&& c.G.j.get n 0).getLsbD l then t.pc else t.pc + 4
        let G := G.updLanes (lanesOf (c.mask &&& c.G.j.get n 0)) fun _ t => { t with st := .join n c.pc }
        ({ G with arr := G.arr.put n (G.arr.get n 0 ||| (c.mask &&& c.G.j.get n 0)) }).releaseCheck n).draw 1) : Result) = .next u ∧ OneGroup c t u G ∧
         G = { c.G with
           lanes := G.lanes
           hnd := c.handlerAt (· + 4)
           arr := SMap.put c.G.arr n (if rejoined (c.G.j.get n 0) (c.G.arr.get n 0 ||| (c.mask &&& c.G.j.get n 0)) then 0 else (c.G.arr.get n 0 ||| (c.mask &&& c.G.j.get n 0))) } ∧
         ∀ l, G.lane l = if c.has l then
             (if (c.G.j.get n 0).getLsbD l = true ∧ rejoined (c.G.j.get n 0) (c.G.arr.get n 0 ||| (c.mask &&& c.G.j.get n 0)) = false then { (c.G.lane l).at_ c.pc with st := .join n c.pc } else (c.G.lane l).at_ (c.pc + 4))
           else if rejoined (c.G.j.get n 0) (c.G.arr.get n 0 ||| (c.mask &&& c.G.j.get n 0)) ∧ (c.G.arr.get n 0 ||| (c.mask &&& c.G.j.get n 0)).getLsbD l then (c.G.lane l).passes n else c.G.lane l := by
  generalize hm : c.G.j.get n 0 = m
  rw [State.updGroup_some h.group]
  refine ⟨_, _, rfl, rfl, ?_, ?_⟩
  · dsimp only
    generalize hN : Group.updLanes (c.G.moveTo c.mask fun l t => if (c.mask &&& m).getLsbD l then t.pc else t.pc + 4) (lanesOf (c.mask &&& m)) (fun _ t => { t with st := .join n c.pc }) = N
    have hN' : N = { c.G with
        lanes := N.lanes
        hnd := c.handlerAt (· + 4) } := by
      have h1 : N = { (c.G.moveTo c.mask fun l t => if (c.mask &&& m).getLsbD l then t.pc else t.pc + 4) with lanes := N.lanes } := by
        rw [← hN, Group.updLanes_eq]
      rw [h1, Group.moveTo_eq, Group.hnd_moveTo]
      simp only [Ctx.handlerAt]
      by_cases h0 : c.mask = 0
      · rw [if_pos h0, if_pos h0]; simp [h0]
      · rw [if_neg h0, if_neg h0]
    rw [Group.releaseCheck_rest]
    have ej : N.j = c.G.j := by rw [hN']
    have ea : N.arr = c.G.arr := by rw [hN']
    simp only [ej, ea, SMap.get_put_self, hm, SMap.put_put]
    generalize (Group.releaseCheck _ n).lanes = L
    rw [hN']
    split <;> rfl
  · intro l
    dsimp only
    generalize hN : Group.updLanes (c.G.moveTo c.mask fun l t => if (c.mask &&& m).getLsbD l then t.pc else t.pc + 4) (lanesOf (c.mask &&& m)) (fun _ t => { t with st := .join n c.pc }) = N
    have ej : N.j = c.G.j := by rw [← hN, Group.updLanes_eq, Group.moveTo_eq]
    have ea : N.arr = c.G.arr := by rw [← hN, Group.updLanes_eq, Group.moveTo_eq]
    rw [Group.lane_releaseCheck]
    simp only [ej, ea, SMap.get_put_self, hm]
    show (if _ then (N.lane l).passes n else N.lane l) = _
    have hl : N.lane l = if c.has l then (if m.getLsbD l then { (c.G.lane l).at_ c.pc with st := .join n c.pc } else (c.G.lane l).at_ (c.pc + 4)) else c.G.lane l := by
      rw [← hN, Group.lane_updLanes _ (lanesOf_nodup _), Group.lane_moveTo _ _ _ _ (fun l hl => (h.ready l hl).1)]
      simp only [mem_lanesOf, BitVec.getLsbD_and, Ctx.has]
      cases hc : c.mask.getLsbD l with
      | false => simp
      | true =>
        have := (h.ready l hc).2.2
        cases m.getLsbD l <;> simp [this]
    rw [hl]
    generalize hA : c.G.arr.get n 0 ||| (c.mask &&& m) = A
    by_cases hc : c.has l = true
    · simp only [hc, if_true]
      by_cases hml : m.getLsbD l = true
      · have hAl : A.getLsbD l = true := by
          rw [← hA, BitVec.getLsbD_or, BitVec.getLsbD_and]
          have : c.mask.getLsbD l = true := hc
          simp [this, hml]
        simp only [hml, hAl, and_true, if_true, true_and]
        cases hr : rejoined m A with
        | true =>
          have hst := (h.ready l hc).1
          simp [Thread.passes, Thread.at_, hst]
        | false => simp
      · simp only [hml, false_and, Bool.false_eq_true, if_false]
        split
        · rw [Thread.passes_ready]; exact (h.ready l hc).1
        · rfl
    · simp only [hc, Bool.false_eq_true, if_false]

theorem rbacq_spec {s t : State} {c : Ctx} {n : BitVec 3} (h : Found s c t) (h1 : c.G.ext = 0) (h2 : c.G.rbReq = false) (h3 : n.toNat ≤ (match (t.team? c.G.team).bind t.recOf with | some r => r.budgetOf c.G.idx | none => 0)) :
  Blocks { c with G := { c.G with rbReq := true } } ((t.updGroup c.g fun _ => { c.G with rbReq := true }).updPart c.G.core c.G.part fun p => { p with rbq := p.rbq ++ [(c.g, n.toNat)] }) (.rbacq n.toNat) none (.next (
      let budget := match (t.team? c.G.team).bind t.recOf with | some r => r.budgetOf c.G.idx | none => 0
      if c.G.ext ≠ 0 ∨ c.G.rbReq then t.trapAt c 1 0
      else if n.toNat > budget then t.trapAt c 3 0
      else
        ((t.updGroup c.g fun G => { G with rbReq := true }).updPart c.G.core c.G.part fun p =>
          { p with rbq := p.rbq ++ [(c.g, n.toNat)] }).blockPath c (.rbacq n.toNat))) := by
  have a1 : ¬(c.G.ext ≠ 0 ∨ c.G.rbReq = true) := by simp [h1, h2]
  dsimp only
  rw [if_neg a1, if_neg (by omega)]
  have e : (t.updGroup c.g fun G => { G with rbReq := true }) = t.updGroup c.g fun _ => { c.G with rbReq := true } := by
    rw [State.updGroup_some h.group, State.updGroup_some h.group]
  rw [e]
  refine State.blockPath_spec (c := { c with G := { c.G with rbReq := true } }) (s := s) ?_ _
  refine ⟨?_, h.fresh, h.place, h.alive, h.ready⟩
  show (t.updGroup c.g _).group? c.g = _
  rw [State.group?_updGroup_self, h.group]; rfl

theorem barw_eval {t u : State} {c : Ctx} {G : Group} {b : Nat} {ph : Bool} (h1 : u.teams = t.teams) (h2 : u.cores = t.cores) (h3 : u.now = t.now) (h4 : G.team = c.G.team) :
  u.evalBlock c.g G (c.block t (.barw b ph)) = Block.fresh (c.block t (.barw b ph)) t.now (match t.team? c.G.team with | some T => if (t.bar T b).phase = ph then some ⟨0, 0, false⟩ else none | none => none) := by
  have hb : ∀ T, u.bar T b = t.bar T b := by intro T; unfold State.bar State.byteAt State.core; rw [h2]
  have ht : u.team? G.team = t.team? c.G.team := by unfold State.team?; rw [h1, h4]
  unfold State.evalBlock Ctx.block
  simp only [Option.isSome_none, Bool.false_and, Bool.false_eq_true, if_false, ht, hb]
  cases t.team? c.G.team with
  | none => rfl
  | some T =>
    dsimp only
    split
    · rw [h3]; exact Block.hit_fresh rfl rfl rfl _ _ _ _
    · rfl

theorem tag_eval {t u : State} {c : Ctx} {G : Group} {m : DWord} {al : Bool} (h2 : u.cores = t.cores) (h3 : u.now = t.now) (h5 : G.core = c.G.core) :
  u.evalBlock c.g G (c.block t (.tag m al)) = Block.fresh (c.block t (.tag m al)) t.now (if (if al then (t.core c.G.core).tags &&& m == m else (t.core c.G.core).tags &&& m != 0) then
    some ⟨0, tagTimes (t.core c.G.core) ((t.core c.G.core).tags &&& m), (t.core c.G.core).tags &&& m &&& (t.core c.G.core).terr != 0⟩ else none) := by
  have hc : u.core G.core = t.core c.G.core := by unfold State.core; rw [h2, h5]
  unfold State.evalBlock Ctx.block
  simp only [Option.isSome_none, Bool.false_and, Bool.false_eq_true, if_false, hc]
  by_cases hx : (if al = true then (t.core c.G.core).tags &&& m == m else (t.core c.G.core).tags &&& m != 0) = true
  · rw [if_pos hx, if_pos hx, h3]; exact Block.hit_fresh rfl rfl rfl _ _ _ _
  · rw [if_neg hx, if_neg hx]; rfl

theorem tgwa_eval {t u : State} {c : Ctx} {G : Group} {m : DWord} (h2 : u.cores = t.cores) (h3 : u.now = t.now) (h5 : G.core = c.G.core) :
  u.evalBlock c.g G (c.block t (.tag m false)) = Block.fresh (c.block t (.tag m false)) t.now (if (t.core c.G.core).tags &&& m ≠ 0 then
    some ⟨0, tagTimes (t.core c.G.core) ((t.core c.G.core).tags &&& m), (t.core c.G.core).tags &&& m &&& (t.core c.G.core).terr != 0⟩ else none) := by
  rw [tag_eval h2 h3 h5]; simp

theorem tgwl_eval {t u : State} {c : Ctx} {G : Group} {m : DWord} (h2 : u.cores = t.cores) (h3 : u.now = t.now) (h5 : G.core = c.G.core) :
  u.evalBlock c.g G (c.block t (.tag m true)) = Block.fresh (c.block t (.tag m true)) t.now (if (t.core c.G.core).tags &&& m = m then
    some ⟨0, tagTimes (t.core c.G.core) ((t.core c.G.core).tags &&& m), (t.core c.G.core).tags &&& m &&& (t.core c.G.core).terr != 0⟩ else none) := by
  rw [tag_eval h2 h3 h5]; simp

theorem cvjoin_spec {s t : State} {c : Ctx} {d : List Word} {D} (h : Found s c t) (h1 : c.G.cvm.state ≠ 1) (h2 : c.G.joinDesc = none) (h3 : cvDesc d = some D) :
  Blocks { c with G := { c.G with joinDesc := some d } } { t.updGroup c.g (fun _ => { c.G with joinDesc := some d }) with cvMsgs := t.cvMsgs ++ [t.mailFrom c.G (256 * marshalDie D.1) none (.joinReq c.g)] } .cvjoin none (.next (
      if c.G.cvm.state = 1 ∨ c.G.joinDesc.isSome ∨ (cvDesc d).isNone then t.trapAt c 1 8
      else
        let s := t.updGroup c.g fun G => { G with joinDesc := some d }
        (s.cvSend c.G (256 * (match cvDesc d with | some x => marshalDie x.1 | none => 0)) none (.joinReq c.g)).blockPath c .cvjoin)) := by
  have a1 : ¬(c.G.cvm.state = 1 ∨ c.G.joinDesc.isSome = true ∨ (cvDesc d).isNone = true) := by
    simp [h1, h2, h3]
  rw [if_neg a1, h3]
  have e : (t.updGroup c.g fun G => { G with joinDesc := some d }) = t.updGroup c.g fun _ => { c.G with joinDesc := some d } := by
    rw [State.updGroup_some h.group, State.updGroup_some h.group]
  rw [e]
  refine State.blockPath_spec (c := { c with G := { c.G with joinDesc := some d } }) (s := s) ?_ _
  refine ⟨?_, h.fresh, h.place, h.alive, h.ready⟩
  show (t.updGroup c.g _).group? c.g = _
  rw [State.group?_updGroup_self, h.group]; rfl

theorem fence_spec {s t : State} {c : Ctx} (h : Found s c t) (k : AccKind) :
  Blocks (c.adds [fenceAcc t.uid c k]) (t.adds c [fenceAcc t.uid c k]) (.fence t.uid 0) none
   (.next (((t.addAcc c.g (fenceAcc t.uid c k)).bump).blockPath c (.fence (((t.addAcc c.g (fenceAcc t.uid c k)).bump).uid - 1) 0))) := by
  rw [State.addAcc_adds h]
  have := State.blockPath_spec (h.adds [fenceAcc t.uid c k]) (.fence t.uid 0)
  exact this

theorem fence2_spec {s t : State} {c : Ctx} (h : Found s c t) (k j : AccKind) :
  Blocks (c.adds [fenceAcc t.uid c k, fenceAcc (t.uid + 1) c j]) (t.adds c [fenceAcc t.uid c k, fenceAcc (t.uid + 1) c j]) (.fence (t.uid + 1) 0) none
   (.next (((((t.addAcc c.g (fenceAcc t.uid c k)).bump).addAcc c.g (fenceAcc ((t.addAcc c.g (fenceAcc t.uid c k)).bump).uid c j)).bump).blockPath c (.fence (((((t.addAcc c.g (fenceAcc t.uid c k)).bump).addAcc c.g (fenceAcc ((t.addAcc c.g (fenceAcc t.uid c k)).bump).uid c j)).bump).uid - 1) 0))) := by
  have e : (((t.addAcc c.g (fenceAcc t.uid c k)).bump).addAcc c.g (fenceAcc ((t.addAcc c.g (fenceAcc t.uid c k)).bump).uid c j)).bump = t.adds c [fenceAcc t.uid c k, fenceAcc (t.uid + 1) c j] := by
    rw [State.addAcc_adds h]
    unfold State.addAcc
    have hg : (t.adds c [fenceAcc t.uid c k]).group? c.g = some (c.adds [fenceAcc t.uid c k]).G := (h.adds [fenceAcc t.uid c k]).group
    rw [State.updGroup_some hg]
    simp [State.adds, Ctx.adds, State.bump]
  rw [e]
  exact State.blockPath_spec (h.adds [fenceAcc t.uid c k, fenceAcc (t.uid + 1) c j]) (.fence (t.uid + 1) 0)

theorem shoot_found {s t : State} {c : Ctx} (h : Found s c t) (f page n : Nat) :
  Found s { c with G := if c.G.vf = f then { c.G with blk := c.G.blk.map fun k => k.unread fun y => y.inPages page n } else c.G } (t.shoot f page n) := by
  have e : ∀ l, (if c.G.vf = f then { c.G with blk := c.G.blk.map fun k => k.unread fun y => y.inPages page n } else c.G).lane l = c.G.lane l := by
    intro l; split <;> rfl
  refine ⟨?_, h.fresh, h.place, ?_, ?_⟩
  · show SMap.find? (List.map (fun (x : Nat × Group) => (x.1, (fun (_ : Nat) (G : Group) => if G.vf = f then { G with blk := G.blk.map fun b => b.unread fun x => x.inPages page n } else G) x.1 x.2)) t.groups) c.g = _
    rw [SMap.find?_map t.groups (fun (_ : Nat) (G : Group) => if G.vf = f then { G with blk := G.blk.map fun b => b.unread fun x => x.inPages page n } else G) c.g]
    have hg := h.group
    unfold State.group? at hg
    rw [hg]; rfl
  · show (if c.G.vf = f then _ else _ : Group).ended = false
    split <;> exact h.alive
  · intro l hl
    show (Group.lane _ l).st = _ ∧ (Group.lane _ l).hnd = _ ∧ (Group.lane _ l).pc = _
    rw [e]; exact h.ready l hl

theorem tlbinv_spec {s t : State} {c : Ctx} {a : Nat} (h : Found s c t) (h0 : (c.rs (a + 0)).toNat % 4096 = 0) (h1 : (c.rs (a + 1)).toNat < 65536) (h3 : (c.rs (a + 3)).toNat < 64)
   (he : (t.vf (c.rs (a + 3)).toNat).en = true) (hp : ((c.rs (a + 1)).toNat * 2 ^ 32 + (c.rs (a + 0)).toNat) / 4096 + (c.rs (a + 2)).toNat ≤ 2 ^ 36) :
   Blocks { c with G := if c.G.vf = (c.rs (a + 3)).toNat then { c.G with blk := c.G.blk.map fun k => k.unread fun y => y.inPages (((c.rs (a + 1)).toNat * 2 ^ 32 + (c.rs (a + 0)).toNat) / 4096) (c.rs (a + 2)).toNat } else c.G } (t.shoot (c.rs (a + 3)).toNat (((c.rs (a + 1)).toNat * 2 ^ 32 + (c.rs (a + 0)).toNat) / 4096) (c.rs (a + 2)).toNat) (.tlbinv t.uid) none (.next (
      let r := (c.rsn a 4).map (·.toNat)
      let x0 := r.getD 0 0
      let x1 := r.getD 1 0
      let n := r.getD 2 0
      let f := r.getD 3 0
      let page := (x1 % 65536 * 2 ^ 32 + x0) / 4096
      if x0 % 4096 ≠ 0 ∨ x1 / 65536 ≠ 0 ∨ f / 64 ≠ 0 ∨ !(t.vf f).en ∨ page + n > 2 ^ 36 then t.trapAt c 1 6
      else (t.shoot f page n).blockPath c (.tlbinv t.uid))) := by
  have r0 : ((c.rsn a 4).map (·.toNat)).getD 0 0 = (c.rs (a + 0)).toNat := by simp [Ctx.rsn, List.range, List.range.loop]
  have r1 : ((c.rsn a 4).map (·.toNat)).getD 1 0 = (c.rs (a + 1)).toNat := by simp [Ctx.rsn, List.range, List.range.loop]
  have r2 : ((c.rsn a 4).map (·.toNat)).getD 2 0 = (c.rs (a + 2)).toNat := by simp [Ctx.rsn, List.range, List.range.loop]
  have r3 : ((c.rsn a 4).map (·.toNat)).getD 3 0 = (c.rs (a + 3)).toNat := by simp [Ctx.rsn, List.range, List.range.loop]
  simp only [r0, r1, r2, r3, Nat.mod_eq_of_lt h1]
  have hn : ¬((c.rs (a + 0)).toNat % 4096 ≠ 0 ∨ (c.rs (a + 1)).toNat / 65536 ≠ 0 ∨ (c.rs (a + 3)).toNat / 64 ≠ 0 ∨ (!(t.vf (c.rs (a + 3)).toNat).en) = true ∨ ((c.rs (a + 1)).toNat * 2 ^ 32 + (c.rs (a + 0)).toNat) / 4096 + (c.rs (a + 2)).toNat > 2 ^ 36) := by
    rintro (x | x | x | x | x)
    · exact x h0
    · exact x (Nat.div_eq_of_lt h1)
    · exact x (Nat.div_eq_of_lt h3)
    · simp [he] at x
    · omega
  have hb := State.blockPath_spec (shoot_found h (c.rs (a + 3)).toNat (((c.rs (a + 1)).toNat * 2 ^ 32 + (c.rs (a + 0)).toNat) / 4096) (c.rs (a + 2)).toNat) (.tlbinv t.uid)
  rw [show (if (c.rs (a + 0)).toNat % 4096 ≠ 0 ∨ (c.rs (a + 1)).toNat / 65536 ≠ 0 ∨ (c.rs (a + 3)).toNat / 64 ≠ 0 ∨ (!(t.vf (c.rs (a + 3)).toNat).en) = true ∨ ((c.rs (a + 1)).toNat * 2 ^ 32 + (c.rs (a + 0)).toNat) / 4096 + (c.rs (a + 2)).toNat > 2 ^ 36 then t.trapAt c 1 6 else (t.shoot (c.rs (a + 3)).toNat (((c.rs (a + 1)).toNat * 2 ^ 32 + (c.rs (a + 0)).toNat) / 4096) (c.rs (a + 2)).toNat).blockPath c (.tlbinv t.uid)) = (t.shoot (c.rs (a + 3)).toNat (((c.rs (a + 1)).toNat * 2 ^ 32 + (c.rs (a + 0)).toNat) / 4096) (c.rs (a + 2)).toNat).blockPath c (.tlbinv t.uid) from if_neg hn]
  exact hb

theorem bara_spec {s t : State} {c : Ctx} (h : Found s c t) (T b n : Nat) :
   ∃ u G, Arrives t u T b n ∧ u.group? c.g = some G ∧ Changes { c with G := G } u G (.next ((t.arrive T b n).retire c)) := by
  have ha := State.arrive_spec t T b n
  obtain ⟨H, h1, h2⟩ := ha.2.1 c.g c.G h.group
  have hf : (t.arrive T b n).fresh = t.fresh := by rw [ha.1]
  exact ⟨_, H, ha, h1, State.retire_spec (h.looked h1 hf h2)⟩

theorem rbrel_spec {s t : State} {c : Ctx} (h : Found s c t) (hp : (c.G.pend.any fun p => match p.dst with | .v b n => decide (b + n > 32) | .s _ _ => false) = false) :
   Changes { c with G := { c.G with ext := 0, lanes := c.G.lanes.map fun x => (x.1, { x.2 with v := x.2.v.filter (·.1 < 32) }) } } ((t.updPart c.G.core c.G.part fun p => { p with pool := p.pool + c.G.ext }).updGroup c.g fun _ => { c.G with ext := 0, lanes := c.G.lanes.map fun x => (x.1, { x.2 with v := x.2.v.filter (·.1 < 32) }) }) { c.G with ext := 0, lanes := c.G.lanes.map fun x => (x.1, { x.2 with v := x.2.v.filter (·.1 < 32) }) }
   (.next (if c.G.pend.any fun p => match p.dst with | .v b n => b + n > 32 | .s _ _ => false then t
      else
        ((t.updPart c.G.core c.G.part fun p => { p with pool := p.pool + c.G.ext }).updGroup c.g fun G =>
          { G with ext := 0, lanes := G.lanes.map fun (l, t) => (l, { t with v := t.v.filter (·.1 < 32) }) }).retire c)) := by
  rw [if_neg (by intro hx; exact Bool.false_ne_true (hp.symm.trans hx))]
  set C : Group := { c.G with ext := 0, lanes := c.G.lanes.map fun x => (x.1, { x.2 with v := x.2.v.filter (·.1 < 32) }) } with hC
  have hg : (t.updPart c.G.core c.G.part fun p => { p with pool := p.pool + c.G.ext }).group? c.g = some c.G := h.group
  have e : ((t.updPart c.G.core c.G.part fun p => { p with pool := p.pool + c.G.ext }).updGroup c.g fun G =>
          { G with ext := 0, lanes := G.lanes.map fun (l, t) => (l, { t with v := t.v.filter (·.1 < 32) }) }) = (t.updPart c.G.core c.G.part fun p => { p with pool := p.pool + c.G.ext }).updGroup c.g fun _ => C := by
    rw [State.updGroup_some hg, State.updGroup_some hg]
  rw [e]
  have hlane : ∀ l, C.lane l = { c.G.lane l with v := (c.G.lane l).v.filter (·.1 < 32) } := by
    intro l
    show SMap.get (List.map (fun (x : Nat × Thread) => (x.1, (fun (_ : Nat) (t : Thread) => { t with v := t.v.filter (·.1 < 32) }) x.1 x.2)) c.G.lanes) l Thread.init = _
    unfold SMap.get
    have := SMap.find?_map c.G.lanes (fun (_ : Nat) (t : Thread) => { t with v := t.v.filter (·.1 < 32) }) l
    rw [this]
    unfold Group.lane SMap.get
    cases SMap.find? c.G.lanes l <;> rfl
  have hf : Found s { c with G := C } ((t.updPart c.G.core c.G.part fun p => { p with pool := p.pool + c.G.ext }).updGroup c.g fun _ => C) := by
    refine ⟨?_, h.fresh, h.place, h.alive, ?_⟩
    · show (State.updGroup _ c.g _).group? c.g = _
      rw [State.group?_updGroup_self, hg]; rfl
    · intro l hl
      show (C.lane l).st = _ ∧ (C.lane l).hnd = _ ∧ (C.lane l).pc = _
      rw [hlane l]; exact h.ready l hl
  exact State.retire_spec hf

theorem leave_spec {s : State} {c : Ctx} {C : Group} {u : State} (hf : Found s { c with G := C } u) :
  ∃ v G, Woken u v ∧ v.group? c.g = some G ∧ Looked C G ∧ Changes { c with G := G } v G (.next (u.wake.retire c)) := by
  have hw := State.wake_spec u
  obtain ⟨H, k1, k2⟩ := hw.2 c.g _ hf.group
  exact ⟨_, H, hw, k1, k2, State.retire_spec (hf.looked k1 rfl k2)⟩

theorem put_found {s t u : State} {c : Ctx} (h : Found s c t) (k : Group → Group) (hu : u.groups = (t.updGroup c.g k).groups) (hf : u.fresh = t.fresh)
  (hl : (k c.G).lanes = c.G.lanes) (he : (k c.G).ended = c.G.ended) : Found s { c with G := k c.G } u := by
  refine ⟨?_, hf.trans h.fresh, by show c.n = _; rw [hf]; exact h.place, he.trans h.alive, ?_⟩
  · have : (t.updGroup c.g k).group? c.g = some (k c.G) := by rw [State.group?_updGroup_self, h.group]; rfl
    unfold State.group? at this ⊢
    rw [hu]; exact this
  · intro l hl'
    have e : (k c.G).lane l = c.G.lane l := by unfold Group.lane; rw [hl]
    show ((k c.G).lane l).st = _ ∧ ((k c.G).lane l).hnd = _ ∧ ((k c.G).lane l).pc = _
    rw [e]; exact h.ready l hl'

theorem cvleave_spec {s t : State} {c : Ctx} (h : Found s c t) :
  (c.G.cvm.state = 1 → let C : Group := { c.G with cvm := { c.G.cvm with state := 2, cause := 3, held := false }, cvAt := t.now }
     ∃ u G, Woken { t.updGroup c.g (fun _ => C) with cvMsgs := t.cvMsgs ++ [t.mailFrom c.G c.G.cvm.id (some 128) (.leave c.g c.G.cvm.id)] } u ∧ u.group? c.g = some G ∧ Looked C G ∧ Changes { c with G := G } u G (.next (((t.detach c.g 3).wake).retire c))) ∧
  (c.G.cvm.state = 2 → c.G.cvAt = t.now → c.G.cvm.cause < 3 → let C : Group := { c.G with cvm := { c.G.cvm with cause := 3 } }
     ∃ u G, Woken (t.updGroup c.g (fun _ => C)) u ∧ u.group? c.g = some G ∧ Looked C G ∧ Changes { c with G := G } u G (.next (((t.detach c.g 3).wake).retire c))) ∧
  (c.G.cvm.state ≠ 1 → (c.G.cvm.state = 2 → c.G.cvAt = t.now → 3 ≤ c.G.cvm.cause) →
     ∃ u G, Woken t u ∧ u.group? c.g = some G ∧ Looked c.G G ∧ Changes { c with G := G } u G (.next (((t.detach c.g 3).wake).retire c))) := by
  have e : ∀ k : Group → Group, t.updGroup c.g k = t.updGroup c.g fun _ => k c.G := by
    intro k; rw [State.updGroup_some h.group, State.updGroup_some h.group]
  refine ⟨?_, ?_, ?_⟩
  · intro h1
    have hd : t.detach c.g 3 = { t.updGroup c.g (fun _ => { c.G with cvm := { c.G.cvm with state := 2, cause := 3, held := false }, cvAt := t.now }) with cvMsgs := t.cvMsgs ++ [t.mailFrom c.G c.G.cvm.id (some 128) (.leave c.g c.G.cvm.id)] } := by
      unfold State.detach
      rw [h.group]
      dsimp only
      rw [if_pos h1, e]
      rfl
    rw [hd]
    refine leave_spec (s := s) (c := c) (C := { c.G with cvm := { c.G.cvm with state := 2, cause := 3, held := false }, cvAt := t.now }) ?_
    refine put_found h (fun G => { G with cvm := { G.cvm with state := 2, cause := 3, held := false }, cvAt := t.now }) ?_ rfl rfl rfl
    exact (congrArg State.groups (e fun G => { G with cvm := { G.cvm with state := 2, cause := 3, held := false }, cvAt := t.now })).symm
  · intro h1 h2 h3
    have hd : t.detach c.g 3 = t.updGroup c.g (fun _ => { c.G with cvm := { c.G.cvm with cause := 3 } }) := by
      unfold State.detach
      rw [h.group]
      dsimp only
      rw [if_neg (by omega), if_pos ⟨h1, h2, h3⟩, e]
    rw [hd]
    refine leave_spec (s := s) (c := c) (C := { c.G with cvm := { c.G.cvm with cause := 3 } }) ?_
    refine put_found h (fun G => { G with cvm := { G.cvm with cause := 3 } }) ?_ rfl rfl rfl
    exact (congrArg State.groups (e fun G => { G with cvm := { G.cvm with cause := 3 } })).symm
  · intro h1 h2
    have hd : t.detach c.g 3 = t := by
      unfold State.detach
      rw [h.group]
      dsimp only
      rw [if_neg h1, if_neg (by rintro ⟨a, b, d⟩; have := h2 a b; omega)]
    rw [hd]
    exact leave_spec (s := s) (c := c) h

theorem icinv_spec {s t : State} {c : Ctx} (h : Found s c t) :
  ∃ u, u = { t with cores := u.cores } ∧ (∀ x, x ∈ (u.core c.G.core).icache ↔ x ∈ (t.core c.G.core).icache ∧ x.vf ≠ c.G.vf) ∧
         (∀ x, x ∈ (u.core c.G.core).cfills ↔ x ∈ (t.core c.G.core).cfills ∧ x.vf ≠ c.G.vf) ∧
         (∀ p, ((u.core c.G.core).part p).loop = ((t.core c.G.core).part p).loop.map fun b => if b.vf = c.G.vf then { b with inv := true, gone := [] } else b) ∧
         Changes c u c.G (.next ((t.invalidateCode c.G.core c.G.vf).retire c)) := by
  refine ⟨t.invalidateCode c.G.core c.G.vf, rfl, ?_, ?_, ?_, State.retire_spec (h.same rfl rfl)⟩
  · intro x
    unfold State.invalidateCode State.updCore State.core
    simp only [SMap.get_put_self, List.mem_filter, bne_iff_ne]
  · intro x
    unfold State.invalidateCode State.updCore State.core
    simp only [SMap.get_put_self, List.mem_filter, bne_iff_ne]
  · intro p
    unfold State.invalidateCode State.updCore State.core Core.part
    simp only [SMap.get_put_self]
    generalize (SMap.get t.cores c.G.core Core.init).parts = P
    have e := SMap.find?_map P (fun (_ : Nat) (P : Part) => { P with loop := P.loop.map fun b : LoopBuf => if b.vf = c.G.vf then { b with inv := true, gone := [] } else b }) p
    unfold SMap.get
    refine (congrArg (fun y => (Option.getD y Part.init).loop) e).trans ?_
    cases SMap.find? P p <;> rfl

theorem ctxsw_head {t : State} {c : Ctx} {a : Nat} (h2 : (c.rs (a + 2)).toNat < 64) (h3 : (c.rs (a + 3)).toNat = 0) (he : (t.vf (c.rs (a + 2)).toNat).en = true) {x : Option (Nat × Team)}
   (hx : t.teamNamed (c.rs (a + 2)).toNat (c.rs (a + 1)).toNat (c.rs (a + 0)).toNat = x) :
   (let r := (c.rsn a 4).map (·.toNat)
      let f := r.getD 2 0
      if f / 64 ≠ 0 ∨ r.getD 3 0 ≠ 0 ∨ !(t.vf f).en then t.trapAt c 1 6
      else
        (match t.teamNamed f (r.getD 1 0) (r.getD 0 0) with
         | some (t', _) => t.preempt t'
         | none => t).retire c) = (match x with
         | some (t', _) => t.preempt t'
         | none => t).retire c := by
  have r0 : ((c.rsn a 4).map (·.toNat)).getD 0 0 = (c.rs (a + 0)).toNat := by simp [Ctx.rsn, List.range, List.range.loop]
  have r1 : ((c.rsn a 4).map (·.toNat)).getD 1 0 = (c.rs (a + 1)).toNat := by simp [Ctx.rsn, List.range, List.range.loop]
  have r2 : ((c.rsn a 4).map (·.toNat)).getD 2 0 = (c.rs (a + 2)).toNat := by simp [Ctx.rsn, List.range, List.range.loop]
  have r3 : ((c.rsn a 4).map (·.toNat)).getD 3 0 = (c.rs (a + 3)).toNat := by simp [Ctx.rsn, List.range, List.range.loop]
  simp only [r0, r1, r2, r3]
  rw [if_neg ?_, hx]
  · rintro (x | x | x)
    · exact x (Nat.div_eq_of_lt h2)
    · exact x h3
    · simp [he] at x

theorem ctxsw_none {s t : State} {c : Ctx} {a : Nat} (h : Found s c t) (h2 : (c.rs (a + 2)).toNat < 64) (h3 : (c.rs (a + 3)).toNat = 0) (he : (t.vf (c.rs (a + 2)).toNat).en = true)
   (hx : t.teamNamed (c.rs (a + 2)).toNat (c.rs (a + 1)).toNat (c.rs (a + 0)).toNat = none) :
   Changes c t c.G (.next (let r := (c.rsn a 4).map (·.toNat)
      let f := r.getD 2 0
      if f / 64 ≠ 0 ∨ r.getD 3 0 ≠ 0 ∨ !(t.vf f).en then t.trapAt c 1 6
      else
        (match t.teamNamed f (r.getD 1 0) (r.getD 0 0) with
         | some (t', _) => t.preempt t'
         | none => t).retire c)) := by
  rw [ctxsw_head h2 h3 he hx]
  exact State.retire_spec h

theorem foldl_keep {α : Type} (f : State → α → State) (hf : ∀ s x, (f s x).teams = s.teams ∧ (f s x).now = s.now) (xs : List α) (s : State) : (xs.foldl f s).teams = s.teams ∧ (xs.foldl f s).now = s.now := by
  induction xs generalizing s with
  | nil => exact ⟨rfl, rfl⟩
  | cons x xs ih => rw [List.foldl_cons]; have := ih (f s x); exact ⟨this.1.trans (hf s x).1, this.2.trans (hf s x).2⟩

theorem preempt_team {t : State} {k : Nat} {T : Team} (hT : t.team? k = some T) (hm : (k, T) ∈ t.teams) :
   (t.preempt k).team? k = some { T with pre := if T.pre = .none then .asked t.now else T.pre } := by
  unfold State.preempt
  rw [hT]
  by_cases hp : T.pre = .none
  · simp only [hp, if_true]
    have hstep : ∀ s u, (State.askPreempt s u).now = s.now ∧ (State.askPreempt s u).team? k = if k = u then (s.team? k).map (fun U => { U with pre := .asked s.now }) else s.team? k := by
      intro s u
      have h1 : (State.askPreempt s u).teams = (s.updTeam u fun U => { U with pre := .asked s.now }).teams ∧ (State.askPreempt s u).now = s.now := by
        unfold State.askPreempt; dsimp only
        split
        · exact ⟨rfl, rfl⟩
        · refine foldl_keep _ ?_ _ _
          intro s x
          split
          · split <;> exact ⟨rfl, rfl⟩
          · exact ⟨rfl, rfl⟩
      refine ⟨h1.2, ?_⟩
      unfold State.team?
      rw [h1.1]
      show SMap.find? (SMap.upd s.teams u _) k = _
      split
      · rename_i hk; subst hk; exact SMap.find?_upd_self _ _ _
      · rename_i hk; exact SMap.find?_upd_ne _ _ hk
    have hall : ∀ (ts : List Nat) (s : State), (ts.foldl State.askPreempt s).now = s.now ∧ (ts.foldl State.askPreempt s).team? k = if k ∈ ts then (s.team? k).map (fun U => { U with pre := .asked s.now }) else s.team? k := by
      intro ts
      induction ts with
      | nil => intro s; exact ⟨rfl, by simp⟩
      | cons u ts ih =>
        intro s
        rw [List.foldl_cons]
        obtain ⟨i1, i2⟩ := ih (State.askPreempt s u)
        obtain ⟨j1, j2⟩ := hstep s u
        refine ⟨i1.trans j1, ?_⟩
        rw [i2, j1, j2]
        by_cases hk : k = u
        · subst hk
          simp only [if_true, List.mem_cons, true_or]
          split
          · cases s.team? k <;> rfl
          · rfl
        · simp [hk]
    rw [(hall _ _).2, hT, if_pos]
    · rfl
    · rw [List.mem_map]
      exact ⟨(k, T), by rw [List.mem_filter]; exact ⟨hm, by simp [hp]⟩, rfl⟩
  · simp only [hp, if_false]
    rw [hT]

theorem ctxsw_some {t : State} {c : Ctx} {a : Nat} {k : Nat} {T : Team} (h2 : (c.rs (a + 2)).toNat < 64) (h3 : (c.rs (a + 3)).toNat = 0) (he : (t.vf (c.rs (a + 2)).toNat).en = true)
   (hx : t.teamNamed (c.rs (a + 2)).toNat (c.rs (a + 1)).toNat (c.rs (a + 0)).toNat = some (k, T))
   (hT : t.team? k = some T) :
   ∃ u U, (Host.Outcome.next (let r := (c.rsn a 4).map (·.toNat)
      let f := r.getD 2 0
      if f / 64 ≠ 0 ∨ r.getD 3 0 ≠ 0 ∨ !(t.vf f).en then t.trapAt c 1 6
      else
        (match t.teamNamed f (r.getD 1 0) (r.getD 0 0) with
         | some (t', _) => t.preempt t'
         | none => t).retire c) : Result) = .next u ∧ u.team? k = some U ∧
         U = { T with pre := if T.pre = .none then .asked t.now else T.pre } := by
  rw [ctxsw_head h2 h3 he hx]
  exact ⟨_, _, rfl, preempt_team hT (List.mem_of_find?_eq_some hx), rfl⟩
/-- The state but for what walks leave, and free values. -/

def Tl (s v : State) : Prop := ∃ u n, LikeTlb s u ∧ v = u.draw n

theorem Tl.refl (s : State) : Tl s s := ⟨s, 0, LikeTlb.refl s, rfl⟩

theorem Tl.trans {s u v : State} (h : Tl s u) (k : Tl u v) : Tl s v := by
  obtain ⟨a, n, ⟨⟨cs, ds, sd, rc, rfl⟩, h2, h3⟩, rfl⟩ := h
  obtain ⟨b, m, ⟨⟨cs', ds', sd', rc', rfl⟩, k2, k3⟩, rfl⟩ := k
  refine ⟨_, n + m, ⟨⟨cs', ds', sd', rc', rfl⟩, fun j => (k2 j).trans ?_, fun j => (k3 j).trans ?_⟩, by simp [State.draw, Nat.add_assoc]⟩
  · have e := h2 j
    unfold State.core at e ⊢
    dsimp only [State.draw] at e ⊢
    rw [e]
  · have e := h3 j
    unfold State.die at e ⊢
    dsimp only [State.draw] at e ⊢
    rw [e]

theorem placed_step (c : Ctx) (p : Placed) (x : Word) (k : WCond) (hs : (p.add c x k).stop = false) : p.stop = false ∧ Tl p.st (p.add c x k).st := by
  unfold Placed.add at hs ⊢
  cases hp : p.stop with
  | true => rw [hp] at hs; simp [hp] at hs
  | false =>
    rw [hp] at hs
    simp only [Bool.false_eq_true, if_false] at hs ⊢
    refine ⟨trivial, ?_⟩
    cases k with
    | mem l cond cmp _ =>
      dsimp only at hs ⊢
      simp only [decide_eq_false_iff_not, not_or, not_and, ne_eq, Decidable.not_not] at hs
      unfold State.stopLanes
      simp only [hs.1, List.foldl_nil]
      rw [if_neg (by rintro ⟨a, b, _⟩; exact b (hs.2 a))]
      obtain ⟨u, n, h1, h2⟩ := State.plan_st p.st c.G.core c.G (c.G.bufRec (x.toNat % 2 ^ 28 % 16)) 4 .read [(0, ((x.toNat % 2 ^ 28 / 256 : Nat) : Int))]
      exact ⟨u, n, h1, h2⟩
    | _ => exact Tl.refl _

theorem placed_fold (c : Ctx) (xs : List ((Word × Word) × WCond)) (p : Placed) (hs : (xs.foldl (fun p x => Placed.add p c x.1.1 x.2) p).stop = false) :
   p.stop = false ∧ Tl p.st (xs.foldl (fun p x => Placed.add p c x.1.1 x.2) p).st := by
  induction xs generalizing p with
  | nil => exact ⟨hs, Tl.refl _⟩
  | cons x xs ih =>
    rw [List.foldl_cons] at hs ⊢
    obtain ⟨h1, h2⟩ := ih _ hs
    obtain ⟨h3, h4⟩ := placed_step c p x.1.1 x.2 h1
    exact ⟨h3, h4.trans h2⟩

theorem wait_spec {s t : State} {c : Ctx} {ab : List (Word × Word)} {ks : List WCond} {d : Nat} {al : Bool} {x : Nat} (h : Found s c t)
   (hk : (ab.map fun x => t.condOf c.G x.1 x.2).mapM id = some ks) (hp : ((ab.zip ks).foldl (fun p x => Placed.add p c x.1.1 x.2) ⟨t, [], [], false⟩).stop = false) :
   let p := (ab.zip ks).foldl (fun p x => Placed.add p c x.1.1 x.2) ⟨t, [], [], false⟩
   ∃ u, Blocks c p.st (.wait d p.cs al x (t.now + x)) none (.next u) ∧ (Host.Outcome.next (match (ab.map fun (x, y) => t.condOf c.G x y).mapM id with
      | none => t.trapAt c 1 7
      | some ks =>
        let p := (ab.zip ks).foldl (fun p (x, k) => Placed.add p c x.1 k) ⟨t, [], [], false⟩
        if p.stop then p.st
        else
          let id := p.st.uid
          let s := p.st.blockPath c (.wait d p.cs al x (t.now + x))
          (((p.cs.zip p.secs).zipIdx).foldl (fun s (x, k) => s.sendPoll c.g c.G id k x.1.poll x.2) s).wake) : Result) =
      .next (((p.cs.zip p.secs).zipIdx).foldl (fun u y => u.sendPoll c.g c.G p.st.uid y.2 y.1.1.poll y.1.2) u).wake := by
  have hk' : (ab.map fun (x, y) => t.condOf c.G x y).mapM id = some ks := hk
  rw [hk']
  have hpf := (placed_fold c _ _ hp).2
  dsimp only
  generalize hP : (ab.zip ks).foldl (fun p x => Placed.add p c x.1.1 x.2) ⟨t, [], [], false⟩ = P at *
  rw [if_neg (show ¬ (P.stop = true) by rw [hp]; exact Bool.false_ne_true)]
  refine ⟨_, ?_, rfl⟩
  obtain ⟨u, n, ⟨⟨cs, ds, sd, rc, hu⟩, _⟩, hst⟩ := hpf
  obtain ⟨G, h1, h2, h3⟩ := State.blockPath_eq (t := P.st) (c := c) (by rw [hst, hu]; exact h.group) (fun l hl => (h.ready l hl).1) (.wait d P.cs al x (t.now + x))
  refine ⟨_, G, c.G.blk, _, rfl, ?_, ?_, ?_, ?_, rfl, rfl, h3⟩
  · rw [h1]
  · rw [h1]; exact SMap.find?_put_self _ _ _
  · intro g H hg hH
    refine ⟨H, ?_, Looked.refl H⟩
    rw [h1]
    show SMap.find? (SMap.put P.st.groups c.g G) g = _
    rw [SMap.find?_put_ne _ _ hg]; exact hH
  · exact h2

theorem writeJ_spec' {s t : State} {c : Ctx} (h : Found s c t) (n : Nat) (f : Group → Word) :
    Rejoins c t n (f c.G &&& c.G.liveMask) (c.G.arr.get n 0) (.next ((t.updGroup c.g fun G => G.writeJ n (f G)).retire c)) := by
  have e : t.updGroup c.g (fun G => G.writeJ n (f G)) = t.updGroup c.g fun G => G.writeJ n (f c.G) := by
    rw [State.updGroup_some h.group, State.updGroup_some h.group]
  rw [e]; exact State.writeJ_spec h n _

end Sys2Proof.Machine
end

