-- ==== Sys2Proof/Laws/Launch.lean ====
section
/-! SUPPORT. Launches, pre-emption and the records of faults (R176 to R190, R411 to R422, R449). -/

namespace Sys2Proof.Machine

theorem SMap.mem_of_find {α : Type} (m : SMap α) (k : Nat) (v : α) (h : SMap.find? m k = some v) : (k, v) ∈ m := by
  induction m with
  | nil => simp [SMap.find?] at h
  | cons p m ih =>
    obtain ⟨j, w⟩ := p
    simp only [SMap.find?] at h
    split at h
    · rename_i e; cases h; subst e; exact List.mem_cons_self
    · split at h
      · cases h
      · exact List.mem_cons_of_mem _ (ih h)

theorem updLaunch_some {s : State} {n : Nat} {M : Launch} (h : s.launch? n = some M) (f : Launch → Launch) : s.updLaunch n f = { s with launches := SMap.put s.launches n (f M) } := by
  unfold State.updLaunch; rw [SMap.upd_some _ _ _ _ h]

theorem isLate_spec {M : Launch} {d r n : Nat} (h : M.dl = some d) (h1 : M.ran = some r) (h3 : r ≤ d) (h2 : d ≤ n) : M.isLate n = true := by
  unfold Launch.isLate; rw [h, h1]; simp [h2, h3]

theorem preq_event {s : State} {n : Nat} {T : Team} (h1 : s.team? n = some T) (h2 : T.pre = .none) : ∃ u, exec (.preemptionRequest n) s = .next u ∧ u.team? n = some { T with pre := .asked s.now } := by
  refine ⟨s.preempt n, ?_, ?_⟩
  · show eventOf _ _ = _; rw [h1]; dsimp only [Option.bind_some]; rw [if_pos h2]; rfl
  · rw [preempt_team h1 (SMap.mem_of_find _ _ _ h1), if_pos h2]

section

variable {s : State} {v q : Nat}

theorem accept_send (h0 : s.recordRead = none) (h1 : s.nextSq = some (v, q)) :
       let p := s.recordPlan v q
       (p.faults = [] → exec .launchAccept s = .next (p.st.beginTxn (.subq v q) v 1 0 p.good []).1) ∧
       (p.faults ≠ [] → exec .launchAccept s = .next (p.faults.foldl (fun s f => s.stopQueue v q f) p.st)) := by
  intro p
  have e : exec .launchAccept s = .next (s.readRecord v q) := by show eventOf _ _ = _; rw [h0]; dsimp only; rw [h1]; rfl
  rw [e]; unfold State.readRecord; dsimp only
  constructor
  · intro h; rw [if_pos (by rw [show (s.recordPlan v q).faults = [] from h]; rfl)]
  · intro h; rw [if_neg (by simpa using h)]

section

variable {t : Nat} {x : Txn} (h0 : s.recordRead = some (t, x, v, q)) (h1 : x.ready = true)
include h0 h1

theorem accept_off (h2 : (s.vf v).en = false ∨ ((s.vf v).subq q).ready = false) : exec .launchAccept s = .next (s.endTxn t) := by
  show eventOf _ _ = _; rw [h0]; dsimp only
  rw [h1, if_neg (by decide), if_neg (by rcases h2 with h | h <;> rw [h] <;> simp)]; rfl

variable (h2 : (s.vf v).en = true) (h3 : ((s.vf v).subq q).ready = true)
include h2 h3

theorem accept_head : exec .launchAccept s = .next ((s.endTxn t).takeRecord v q (x.rd.map fun y => s.txnBytes x y.2)) := by
  show eventOf _ _ = _; rw [h0]; dsimp only
  rw [h1, if_neg (by decide), h2, h3, if_pos (by decide)]; rfl

theorem accept_bad :
       let bs := x.rd.map fun y => s.txnBytes x y.2
       let u := ({ s.endTxn t with lastSq := v * 4 + q } : State).updSubQ v q fun x => { x with head := x.head + 1 }
       bs.any Option.isNone = true → exec .launchAccept s = .next (u.holdDone v 0 3 7 false) := by
  intro bs u h4
  rw [accept_head h0 h1 h2 h3]
  unfold State.takeRecord; rw [if_pos h4]

end

theorem find_any {α : Type} (p : Nat × α → Bool) (m : SMap α) : (List.find? p m).map (·.1) = none ↔ m.any p = false := by
  rw [Option.map_eq_none_iff, List.find?_eq_none, List.any_eq_false]

def newLaunch (u : State) (v : Nat) (r : LaunchRec) : Launch :=
      { vf := v, r := r, st := if (distinct [] ((r.deps.take r.ndep).filterMap fun lid => (List.find? (fun (y : Nat × Launch) => y.2.vf == v && y.2.r.lid == lid && y.2.live) u.launches).map (·.1))).isEmpty then .eligible else .waiting
        dl := if r.budget = 0 then none else some (u.now + r.budget)
        late := false, next := 0, saved := [], since := u.now, noBack := false, ended := 0, wait := distinct [] ((r.deps.take r.ndep).filterMap fun lid => (List.find? (fun (y : Nat × Launch) => y.2.vf == v && y.2.r.lid == lid && y.2.live) u.launches).map (·.1)), ran := none }

theorem accept_no {u : State} {x : Nat} (h : (!(recordOk x)) = true ∨ ((List.find? (fun (y : Nat × Launch) => y.2.vf == v && y.2.r.lid == (recordOf x).lid && y.2.live) u.launches).map (·.1)).isSome = true) :
   u.accept v x = u.holdDone v (recordOf x).lid 3 0 false := if_pos h

theorem accept_yes {u : State} {x : Nat} (h : recordOk x = true) (h2 : ((List.find? (fun (y : Nat × Launch) => y.2.vf == v && y.2.r.lid == (recordOf x).lid && y.2.live) u.launches).map (·.1)).isSome = false) :
   u.accept v x = { u with
           launches := SMap.put u.launches u.uid (newLaunch u v (recordOf x))
           uid := u.uid + 1 } := if_neg (by rw [h, h2]; decide)

theorem take_ok (bs : List (Option (List Byte))) (h : bs.any Option.isNone = false) : s.takeRecord v q bs = (({ s with lastSq := v * 4 + q } : State).updSubQ v q fun x => { x with head := x.head + 1 }).accept v (recordNat bs) := by
  unfold State.takeRecord; rw [if_neg (by rw [h]; decide)]

theorem accept_rej {t : Nat} {x : Txn} (h0 : s.recordRead = some (t, x, v, q)) (h1 : x.ready = true) (h2 : (s.vf v).en = true) (h3 : ((s.vf v).subq q).ready = true) :
       let bs := x.rd.map fun y => s.txnBytes x y.2
       let u := ({ s.endTxn t with lastSq := v * 4 + q } : State).updSubQ v q fun x => { x with head := x.head + 1 }
       bs.any Option.isNone = false →
       let m := recordNat bs
       let r := recordOf m
       let inUse := fun lid => u.launches.any fun y => y.2.vf == v && y.2.r.lid == lid && y.2.live
       (recordOk m = false ∨ inUse r.lid = true) → exec .launchAccept s = .next (u.holdDone v r.lid 3 0 false) := by
  intro bs u h4 m r inUse h5
  rw [accept_head h0 h1 h2 h3]
  refine congrArg Host.Outcome.next ((take_ok _ h4).trans ?_)
  refine accept_no (u := u) (x := m) ?_
  rcases h5 with h5 | h5
  · left; rw [h5]; rfl
  · right
    cases hf : (List.find? (fun (y : Nat × Launch) => y.2.vf == v && y.2.r.lid == (recordOf m).lid && y.2.live) u.launches) with
    | none =>
      exfalso
      have := (find_any (fun (y : Nat × Launch) => y.2.vf == v && y.2.r.lid == (recordOf m).lid && y.2.live) u.launches).1 (by rw [hf]; rfl)
      exact absurd (this.symm.trans h5) (by decide)
    | some y => rfl

theorem distinct_empty (xs : List Nat) : (distinct [] xs).isEmpty = xs.isEmpty := by
  have h : ∀ (xs : List Nat) (seen : List Nat), distinct seen xs = [] → ∀ x ∈ xs, x ∈ seen := by
    intro xs
    induction xs with
    | nil => intro seen _ x hx; cases hx
    | cons y ys ih =>
      intro seen hd x hx
      unfold distinct at hd
      split at hd
      · rename_i hc
        rcases List.mem_cons.1 hx with rfl | hx
        · simpa using hc
        · exact ih seen hd x hx
      · cases hd
  cases xs with
  | nil => rfl
  | cons x xs =>
    cases hd : distinct [] (x :: xs) with
    | nil => exact absurd (h _ _ hd x List.mem_cons_self) (by simp)
    | cons => rfl

theorem accept_ok {t : Nat} {x : Txn} (h0 : s.recordRead = some (t, x, v, q)) (h1 : x.ready = true) (h2 : (s.vf v).en = true) (h3 : ((s.vf v).subq q).ready = true) :
       let bs := x.rd.map fun y => s.txnBytes x y.2
       let u := ({ s.endTxn t with lastSq := v * 4 + q } : State).updSubQ v q fun x => { x with head := x.head + 1 }
       bs.any Option.isNone = false →
       let m := recordNat bs
       let r := recordOf m
       let inUse := fun lid => u.launches.any fun y => y.2.vf == v && y.2.r.lid == lid && y.2.live
       recordOk m = true → inUse r.lid = false → ∃ M, M.vf = v ∧ M.r = r ∧ M.next = 0 ∧ M.late = false ∧
         M.st = (if (r.deps.take r.ndep).any inUse then .waiting else .eligible) ∧ M.dl = (if r.budget = 0 then none else some (u.now + r.budget)) ∧
         exec .launchAccept s = .next { u with
           launches := SMap.put u.launches u.uid M
           uid := u.uid + 1 } := by
  intro bs u h4 m r inUse h5 h6
  rw [accept_head h0 h1 h2 h3]
  rw [take_ok _ h4]
  have hn : ∀ lid, (List.map (·.1) (List.find? (fun (y : Nat × Launch) => y.2.vf == v && y.2.r.lid == lid && y.2.live) u.launches).toList).isEmpty = !(inUse lid) := by
    intro lid
    cases hf : List.find? (fun (y : Nat × Launch) => y.2.vf == v && y.2.r.lid == lid && y.2.live) u.launches with
    | none => rw [show inUse lid = false from (find_any _ _).1 (by rw [hf]; rfl)]; rfl
    | some y =>
      have : inUse lid = true := List.any_eq_true.2 ⟨y, List.mem_of_find?_eq_some hf, by have := List.find?_some hf; simpa using this⟩
      rw [this]; rfl
  have hnone : List.find? (fun (y : Nat × Launch) => y.2.vf == v && y.2.r.lid == (recordOf m).lid && y.2.live) u.launches = none := by
    have := hn (recordOf m).lid
    rw [show inUse (recordOf m).lid = false from h6] at this
    cases hf : List.find? (fun (y : Nat × Launch) => y.2.vf == v && y.2.r.lid == (recordOf m).lid && y.2.live) u.launches with
    | none => rfl
    | some y => rw [hf] at this; cases this
  have hx : u.accept v m = _ := accept_yes (u := u) (x := m) h5 (by rw [hnone]; rfl)
  refine ⟨_, ?_, ?_, ?_, ?_, ?_, ?_, congrArg Host.Outcome.next hx⟩
  · rfl
  · rfl
  · rfl
  · rfl
  · show (if (distinct [] _).isEmpty = true then _ else _) = _
    rw [distinct_empty]
    have e2 : ∀ ds : List Nat, (ds.filterMap fun lid => (List.find? (fun (y : Nat × Launch) => y.2.vf == v && y.2.r.lid == lid && y.2.live) u.launches).map (·.1)).isEmpty = !(ds.any inUse) := by
      intro ds
      induction ds with
      | nil => rfl
      | cons d ds ih =>
        rw [List.any_cons]
        have hd := hn d
        cases hf : List.find? (fun (y : Nat × Launch) => y.2.vf == v && y.2.r.lid == d && y.2.live) u.launches with
        | none =>
          rw [hf] at hd
          have hd : inUse d = false := by simpa using hd
          rw [hd, List.filterMap_cons_none (by rw [hf]; rfl), ih]; simp
        | some y =>
          rw [hf] at hd
          have hd : inUse d = true := by simpa using hd
          rw [hd, List.filterMap_cons_some (b := y.1) (by rw [hf]; rfl)]; rfl
    rw [e2]
    show _ = if (List.any (List.take (recordOf m).ndep (recordOf m).deps) inUse) = true then _ else _
    cases (List.any (List.take (recordOf m).ndep (recordOf m).deps) inUse) <;> rfl
  · rfl

end

theorem startable_spec {s : State} {ts : List (Nat × Team)} (h : s.startable = some ts) :
    ∃ t T, (t, T) ∈ s.teams ∧ ts = s.together t T ∧ ∀ x ∈ ts, x.2.starting = true ∧ (s.startRead x.1).isSome = true := by
  obtain ⟨⟨t, T⟩, hm, h⟩ := List.exists_of_findSome?_eq_some h
  dsimp only at h
  split at h
  · cases h
  · split at h
    · rename_i ha
      cases h
      exact ⟨t, T, hm, rfl, fun x hx => by simpa using List.all_eq_true.1 ha x hx⟩
    · cases h

theorem start_event {s : State} {t k : Nat} {T : Team} {M : Launch} {x : Txn} {bs : List Byte} (h1 : s.team? t = some T) (h2 : s.startRead t = some (k, x)) (h3 : s.launch? T.launch = some M) (h4 : s.txnBytes x (x.rd.flatMap (·.2)) = some bs) :
       let pre := (List.range M.r.ns).map fun i => BitVec.ofNat 32 (leNat ((bs.drop (4 * i)).take 4))
       let recs : SMap QWord := (((List.range 16).filter fun n => M.r.rmask.testBit n).zipIdx).map fun (n, i) => (n, BitVec.ofNat 128 (leNat ((bs.drop (4 * M.r.ns + 16 * i)).take 16)))
       (s.startOne t).team? t = some { T with
           started := true
           seq := if M.r.mslen = 0 then T.seq else { T.seq with run := 1 } } ∧
         ∀ g G, s.group? g = some G → (s.startOne t).group? g = some (if g ∈ T.groups then G.begin_ M.r T (s.vf T.vf).pwn pre recs else G) := by
  intro pre recs
  have hfold : ∀ (gs : List Nat) (s : State), (gs.foldl (fun (s : State) g => s.updGroup g fun G => G.begin_ M.r T (s.vf T.vf).pwn pre recs) s).teams = s.teams ∧
      ∀ g G, s.group? g = some G → (gs.foldl (fun (s : State) g => s.updGroup g fun G => G.begin_ M.r T (s.vf T.vf).pwn pre recs) s).group? g = some (if g ∈ gs then G.begin_ M.r T (s.vf T.vf).pwn pre recs else G) := by
    intro gs
    induction gs with
    | nil => intro s; exact ⟨rfl, fun g G h => by simpa using h⟩
    | cons k ks ih =>
      intro s
      rw [List.foldl_cons]
      obtain ⟨a, b⟩ := ih (s.updGroup k fun G => G.begin_ M.r T (s.vf T.vf).pwn pre recs)
      refine ⟨a, ?_⟩
      intro g G hg
      by_cases hk : g = k
      · subst hk
        rw [b g (G.begin_ M.r T (s.vf T.vf).pwn pre recs) (by rw [State.group?_updGroup_self, hg]; rfl)]
        simp only [List.mem_cons, true_or, if_true]
        split <;> rfl
      · rw [b g G (by unfold State.group? State.updGroup; dsimp only; rw [SMap.find?_upd_ne _ _ hk]; exact hg)]
        simp only [List.mem_cons, hk, false_or]; rfl
  have e : s.startOne t = (T.groups.foldl (fun (s : State) g => s.updGroup g fun G => G.begin_ M.r T (s.vf T.vf).pwn pre recs) (s.endTxn k)).updTeam t fun T => { T with
      started := true
      seq := if M.r.mslen = 0 then T.seq else { T.seq with run := 1 } } := by
    unfold State.startOne; rw [h1, h2]; dsimp only; rw [h3]; dsimp only; rw [h4]; rfl
  obtain ⟨a, b⟩ := hfold T.groups (s.endTxn k)
  rw [e]
  refine ⟨?_, ?_⟩
  · unfold State.team? State.updTeam; dsimp only; rw [SMap.find?_upd_self, a]; show Option.map _ (s.team? t) = _; rw [h1]; rfl
  · intro g G hg; exact b g G hg

theorem fr_none {s : State} {v n : Nat} (h3 : s.faults.find? (v * 2 ^ 32 + n % 2 ^ 32) = none) : (s.updVf v fun x => { x with resp := BitVec.ofNat 64 (n % 2 ^ 34) }).answerFault v (n % 2 ^ 32) (n / 2 ^ 32 % 4) = s.updVf v fun x => { x with resp := BitVec.ofNat 64 (n % 2 ^ 34) } := by
  unfold State.answerFault fidKey
  rw [show SMap.find? (s.updVf v fun x => { x with resp := BitVec.ofNat 64 (n % 2 ^ 34) }).faults (v * 2 ^ 32 + n % 2 ^ 32) = _ from h3]

theorem fr_ignored {s : State} {v n : Nat} {p : Parked} (h3 : s.faults.find? (v * 2 ^ 32 + n % 2 ^ 32) = some p) (h4 : n / 2 ^ 32 % 4 = 3 ∨ p = .trap) : (s.updVf v fun x => { x with resp := BitVec.ofNat 64 (n % 2 ^ 34) }).answerFault v (n % 2 ^ 32) (n / 2 ^ 32 % 4) = s.updVf v fun x => { x with resp := BitVec.ofNat 64 (n % 2 ^ 34) } := by
  unfold State.answerFault fidKey
  rw [show SMap.find? (s.updVf v fun x => { x with resp := BitVec.ofNat 64 (n % 2 ^ 34) }).faults (v * 2 ^ 32 + n % 2 ^ 32) = _ from h3]
  dsimp only; rw [if_pos h4]

theorem partyTeam_vf (s : State) (v : Nat) (f : Vf → Vf) (p : Parked) : (s.updVf v f).partyTeam p = s.partyTeam p := by cases p <;> rfl

theorem fr_saved {s : State} {v n t : Nat} {p : Parked} (h3 : s.faults.find? (v * 2 ^ 32 + n % 2 ^ 32) = some p) (h4 : p ≠ .trap) (h5 : n / 2 ^ 32 % 4 ≠ 3) (h6 : s.partyTeam p = some t) (h7 : s.saving t = true) :
   (s.updVf v fun x => { x with resp := BitVec.ofNat 64 (n % 2 ^ 34) }).answerFault v (n % 2 ^ 32) (n / 2 ^ 32 % 4) = (s.updVf v fun x => { x with resp := BitVec.ofNat 64 (n % 2 ^ 34) }).updTeam t fun T => if T.answers.any (fun x => x.1 == n % 2 ^ 32) then T else { T with answers := T.answers ++ [(n % 2 ^ 32, n / 2 ^ 32 % 4)] } := by
  unfold State.answerFault fidKey
  rw [show SMap.find? (s.updVf v fun x => { x with resp := BitVec.ofNat 64 (n % 2 ^ 34) }).faults (v * 2 ^ 32 + n % 2 ^ 32) = _ from h3]
  dsimp only; rw [if_neg (by rintro (x | x); exact h5 x; exact h4 x), partyTeam_vf, h6]; dsimp only
  rw [if_pos (show (s.updVf v _).saving t = true from h7)]

theorem fr_lanes {s : State} {e v n g : Nat} {m : Word} {G : Group} (h1 : s.owner e = true) (h2 : v < 64) (h3 : s.faults.find? (v * 2 ^ 32 + n % 2 ^ 32) = some (.lanes g m)) (h4 : s.group? g = some G) (h5 : m ≠ 0) (h6 : s.saving G.team = false) :
       let u := s.updVf v fun x => { x with resp := BitVec.ofNat 64 (n % 2 ^ 34) }
       let w : State := { u with faults := s.faults.del (v * 2 ^ 32 + n % 2 ^ 32) }
       (n / 2 ^ 32 % 4 = 0 → ∃ t H, exec (.faultResponseWrite e v n) s = .next t ∧ t = { w with groups := SMap.put s.groups g H } ∧ H = { G with lanes := H.lanes } ∧
         ∀ l, H.lane l = if (m.getLsbD l = true ∧ (G.lane l).st = .faulted) ∧ (w.lanesParked g).getLsbD l = false then { G.lane l with st := .ready } else G.lane l) ∧
       (n / 2 ^ 32 % 4 = 1 → exec (.faultResponseWrite e v n) s = .next (w.kill g (maskOf ((lanesOf m).filter fun l => (G.lane l).st == .faulted)))) ∧
       (n / 2 ^ 32 % 4 = 2 → ∀ T, s.team? G.team = some T → exec (.faultResponseWrite e v n) s = .next (w.failLaunch T.launch 3)) := by
  intro u w
  have hd : ∀ act, act ≠ 3 → n / 2 ^ 32 % 4 = act → exec (.faultResponseWrite e v n) s = .next (w.answerParty (.lanes g m) act) := by
    intro act ha hn
    show State.served _ _ _ = _; unfold State.served; rw [if_pos h1, if_pos h2]
    refine congrArg _ ?_
    rw [hn]
    unfold State.answerFault fidKey
    rw [show SMap.find? (s.updVf v fun x => { x with resp := BitVec.ofNat 64 (n % 2 ^ 34) }).faults (v * 2 ^ 32 + n % 2 ^ 32) = _ from h3]
    dsimp only; rw [if_neg (by rintro (x | x); exact ha x; cases x), partyTeam_vf]
    rw [show s.partyTeam (.lanes g m) = some G.team by show Option.map _ (s.group? g) = _; rw [h4]; rfl]; dsimp only
    rw [if_neg (show ¬ (s.updVf v _).saving G.team = true by rw [show (s.updVf v _).saving G.team = s.saving G.team from rfl, h6]; decide)]; rfl
  have hg : w.group? g = some G := h4
  refine ⟨fun h => ?_, fun h => ?_, fun h T hT => ?_⟩
  · have e0 := hd 0 (by decide) h
    refine ⟨_, G.updLanes (((lanesOf m).filter fun l => (G.lane l).st == .faulted).filter fun l => !(w.lanesParked g).getLsbD l) fun _ t => { t with st := .ready }, e0, ?_, ?_, ?_⟩
    · unfold State.answerParty; dsimp only
      rw [if_neg (by decide)]
      unfold State.answerLanes; rw [hg]; dsimp only; rw [if_neg h5]
      simp only [show ((0 : Nat) == 1) = false from rfl, Bool.false_eq_true, if_false]
      rw [State.updGroup_some hg]; rfl
    · exact Group.updLanes_eq _ _ _
    · intro l
      rw [Group.lane_updLanes _ (List.Nodup.filter _ (List.Nodup.filter _ (lanesOf_nodup m)))]
      simp only [List.mem_filter, mem_lanesOf, beq_iff_eq, Bool.not_eq_true']
  · rw [hd 1 (by decide) h]
    refine congrArg _ ?_
    unfold State.answerParty; dsimp only
    rw [if_neg (by decide)]
    unfold State.answerLanes; rw [hg]; dsimp only; rw [if_neg h5]; rfl
  · rw [hd 2 (by decide) h]
    refine congrArg _ ?_
    unfold State.answerParty; dsimp only
    rw [if_pos rfl, hg]; dsimp only
    unfold State.answerFails
    rw [show w.team? G.team = some T from hT]

theorem ring_send {s : State} {v : Nat} {cq : Bool} {x : BitVec 512} {rest} (h0 : s.txnOf (.ring v cq) = none) (h1 : ((s.vf v).ring cq).held = x :: rest) (h2 : ((s.vf v).ring cq).room = true) :
    s.writeRing v cq = some (s.engStore (.ring v cq) v 1 0 ((leBytes (if cq then 16 else 64) x.toNat).zipIdx.map fun (b, i) =>
      (.glob 0 (((s.vf v).ring cq).base + (if cq then 16 else 64) * (((s.vf v).ring cq).p.toNat % ((s.vf v).ring cq).size) + i), b))) := by
  unfold State.writeRing Ring.next; rw [h0, h1]; dsimp only; rw [if_pos h2]; rfl

theorem done_spec {s : State} {v t : Nat} {x : Txn} (h1 : s.txnOf (.ring v true) = some (t, x)) (h2 : x.complete = true) :
       let u := (s.endTxn t).updVf v fun y => { y with cq := { y.cq with
         held := y.cq.held.drop 1
         p := y.cq.p + 1 } }
       s.writeRing v true = some (if (u.vf v).cqn = 0 then u
         else { u with notices := u.notices ++ [((u.vf v).cqn / 2 ^ 48 % 2 ^ 12, (u.vf v).cqn % 2 ^ 48, (u.vf v).cq.p)] }) := by
  intro u
  unfold State.writeRing; rw [h1]; dsimp only; rw [if_pos h2]
  refine congrArg some ?_
  unfold State.ringOn Vf.updRing; simp only [if_true, Bool.not_true, Bool.false_eq_true, false_or]; rfl

theorem fault_spec {s : State} {v t : Nat} {x : Txn} (h1 : s.txnOf (.ring v false) = some (t, x)) (h2 : x.complete = true) :
       s.writeRing v false = some ((s.endTxn t).updVf v fun y => { y with fq := { y.fq with
         held := y.fq.held.drop 1
         p := y.fq.p + 1 } }) := by
  unfold State.writeRing; rw [h1]; dsimp only; rw [if_pos h2]
  refine congrArg some ?_
  unfold State.ringOn Vf.updRing; simp only [Bool.not_false, true_or, if_true]; rfl

theorem owner_spec {s t : State} {e v n : Nat} (h1 : s.owner e = true) (h2 : v < 64) (h : (s.updVf v fun x => { x with resp := BitVec.ofNat 64 (n % 2 ^ 34) }).answerFault v (n % 2 ^ 32) (n / 2 ^ 32 % 4) = t) :
   exec (.faultResponseWrite e v n) s = .next t := by
  show State.served _ _ _ = _; unfold State.served; rw [if_pos h1, if_pos h2, h]

end Sys2Proof.Machine
end

