-- ==== Sys2Proof/Laws/Loads.lean ====
section
/-! SUPPORT. Loads, stores and atomics as they issue (R122 to R129, R263, R264, R288, R296). -/

namespace Sys2Proof.Machine

theorem indices_lanes (c : Ctx) (i : Nat) : (c.indices i).map (·.1) = lanesOf c.mask := by
  simp [Ctx.indices, Function.comp_def]

theorem flag1_false {x : BitVec 1} (h : x ≠ 1) : flag1 x = false := by
  simp only [flag1, beq_eq_false_iff_ne]; exact h

theorem access_sends {s t : State} {c : Ctx} (h : Found s c t) (q : Asked) (hc : q.cload = false)
    (hi : if q.uniform then q.idx ≠ [] else q.idx.map (·.1) = lanesOf c.mask) (hu : q.uniform = true → q.cload = false)
    (hg : (q.plan c t).goes q.record) (hp : (q.plan c t).peer = false) (ef na : Bool) (le : Nat) :
    Sends c t q (.next (t.access c q.kind q.record q.width q.sext q.want q.idx q.uniform ef na q.cload le q.acq q.rel q.dst q.data q.cmp)) := by
  obtain ⟨w, h1, h2⟩ := State.access_spec h q hi hu hg hp ef na le
  rw [h2, hc]; exact h1

theorem Sends.group {s t : State} {c : Ctx} {q : Asked} (h : Sends c s q (.next t)) : ∃ G, t.group? c.g = some G ∧ G.cvm = c.G.cvm ∧ G.core = c.G.core := by
  obtain ⟨t', G, rid, pid, bid, e, _, _, ht, _, _, hG, _⟩ := h
  cases e
  refine ⟨G, by rw [ht]; exact SMap.find?_put_self _ _ _, by rw [hG], by rw [hG]⟩

theorem load_spec {s t c} (h : Found s c t) (q : Asked) {i wd sx ef na le cf} (hu : q.uniform = false) (hi : q.idx = c.indices i)
   (hk : q.kind = .load) (hw : (q.want, q.rel, q.data, q.cmp, q.width, q.sext) = (.read, 0, (fun _ => []), (fun _ => []), wd, sx)) (hl : q.cload = flag1 cf) (hc : ¬(cf = 1 ∧ c.G.cvm.state = 1)) (hg : (q.plan c t).goes q.record) (hp : (q.plan c t).peer = false) :
   Sends c t q (.next (if flag1 cf ∧ t.holds c.G then t.holdGroup c.g c.G
      else t.access c .load q.record wd sx .read (c.indices i) false ef na (flag1 cf) le q.acq 0 q.dst (fun _ => []) (fun _ => []))) := by
  have h1 : ¬(flag1 cf = true ∧ t.holds c.G = true) := by
    rintro ⟨a, b⟩
    apply hc
    refine ⟨by simpa [flag1] using a, ?_⟩
    unfold State.holds at b
    simp only [Bool.and_eq_true, beq_iff_eq] at b
    exact b.1
  rw [if_neg h1]
  obtain ⟨w, h2, h3⟩ := State.access_spec h q (by rw [hu, hi]; exact indices_lanes c i) (fun e => by rw [hu] at e; cases e) hg hp ef na le
  simp only [Prod.mk.injEq] at hw
  obtain ⟨a1, a2, a3, a4, a5, a6⟩ := hw
  rw [hk, a1, a2, a3, a4, a5, a6, hu, hi, hl] at h3
  rw [h3]
  split
  · rename_i hx
    simp only [Bool.and_eq_true] at hx
    obtain ⟨G, g1, g2, _⟩ := h2.group
    unfold State.convoyStep
    rw [g1]; dsimp only
    rw [g2, if_neg]
    · exact h2
    · intro hs; exact hc ⟨by simpa [flag1] using hx.1, hs⟩
  · exact h2

theorem cload_spec {s t c} (h : Found s c t) (q : Asked) {i wd sx ef na le} (hu : q.uniform = false) (hi : q.idx = c.indices i)
   (hk : q.kind = .load) (hw : (q.want, q.rel, q.data, q.cmp, q.width, q.sext) = (.read, 0, (fun _ => []), (fun _ => []), wd, sx)) (hl : q.cload = true) (ha : c.G.cvm.state = 1) (hh : t.holds c.G = false) (hg : (q.plan c t).goes q.record) (hp : (q.plan c t).peer = false) :
   ((∃ l, c.has l = true ∧ (c.G.lane l).cstep ≠ some c.pc) → ∃ u, Sends c t q (.next u) ∧ (Host.Outcome.next (if flag1 1 ∧ t.holds c.G then t.holdGroup c.g c.G
      else t.access c .load q.record wd sx .read (c.indices i) false ef na (flag1 1) le q.acq 0 q.dst (fun _ => []) (fun _ => [])) : Result) = .next { u.updGroup c.g (fun G => G.stepped c.mask c.pc) with cvMsgs := u.cvMsgs ++ [u.mailFrom c.G c.G.cvm.id (some 128) (.step c.g c.G.cvm.id)] }) ∧
   ((∀ l, c.has l = true → (c.G.lane l).cstep = some c.pc) → Sends c t q (.next (if flag1 1 ∧ t.holds c.G then t.holdGroup c.g c.G
      else t.access c .load q.record wd sx .read (c.indices i) false ef na (flag1 1) le q.acq 0 q.dst (fun _ => []) (fun _ => [])))) := by
  rw [if_neg (by rintro ⟨_, h⟩; rw [hh] at h; cases h)]
  obtain ⟨w, h2, h3⟩ := State.access_spec h q (by rw [hu, hi]; exact indices_lanes c i) (fun e => by rw [hu] at e; cases e) hg hp ef na le
  simp only [Prod.mk.injEq] at hw
  obtain ⟨a1, a2, a3, a4, a5, a6⟩ := hw
  rw [hk, a1, a2, a3, a4, a5, a6, hu, hi, hl] at h3
  rw [show flag1 1 = true from rfl, h3]
  constructor
  · rintro ⟨l, h4, h5⟩
    refine ⟨w, h2, ?_⟩
    have : c.stepDue = true := by
      unfold Ctx.stepDue
      rw [List.any_eq_true]
      exact ⟨l, (mem_lanesOf _ _).2 h4, by simpa using h5⟩
    rw [this]
    obtain ⟨G, g1, g2, g3⟩ := h2.group
    unfold State.convoyStep
    rw [g1]; dsimp only
    rw [g2]
    simp only [Bool.and_self, if_true, ha]
    unfold State.cvSend State.mailFrom
    rw [g3]
    rfl
  · intro h4
    have : c.stepDue = false := by
      unfold Ctx.stepDue
      rw [List.any_eq_false]
      intro l hl
      rw [h4 l ((mem_lanesOf _ _).1 hl)]
      simp
    rw [this]
    exact h2

theorem hload_spec {t : State} {c : Ctx} {x : State} (hh : t.holds c.G = true) (hd : c.G.cvm.held = false) (hs : t.stopping c.G.team = false) :
   (Host.Outcome.next (if flag1 1 ∧ t.holds c.G then t.holdGroup c.g c.G else x) : Result) = .next { t.updGroup c.g (fun G => { G with cvm := { G.cvm with held := true } }) with cvMsgs := t.cvMsgs ++ [t.mailFrom c.G c.G.cvm.id none (.hold c.g c.G.cvm.id)] } := by
  rw [if_pos ⟨rfl, hh⟩]
  unfold State.holdGroup
  rw [if_neg (by simp [hd])]
  have : (t.updGroup c.g fun G => { G with cvm := { G.cvm with held := true } }).stopping c.G.team = false := hs
  simp only [this, Bool.false_eq_true, if_false]
  rfl

theorem infoAtomic_hints {op : Nat} {w : BitVec 1} {d i v : BitVec 7} (c e : Ctx) (h : e.hints = c.hints) :
    infoAtomic op w d i v e = infoAtomic op w d i v c := by unfold infoAtomic; rw [h]

theorem atomic_spec {op : Nat} {w : BitVec 1} {b : BitVec 2} {d i v : BitVec 7} {s t : State} {c : Ctx} {q : Asked} (h : Issues
   { w := flag1 w, var := true, mods := modSCP ||| modORD ||| (if op < 10 then modWID else 0), ords := [0, 1, 2, 3],
            regs := [.v d.toNat (if c.hints.wide then 2 else 1) (if c.hints.wide then 2 else 1), .v i.toNat 1 1, .v v.toNat (if op = 9 then 2 * (if c.hints.wide then 2 else 1) else (if c.hints.wide then 2 else 1)) (if op = 9 then 2 * (if c.hints.wide then 2 else 1) else (if c.hints.wide then 2 else 1))] } s c t)
   (h3 : recSpace q.record ≠ 3) (hg : (q.plan c t).goes q.record) (hp : (q.plan c t).peer = false)
   (hq : q = { kind := .atomic op c.hints.wide, record := c.G.bufRec b.toNat, width := 4 * (if c.hints.wide then 2 else 1), want := .atomic, idx := (lanesOf c.mask).map fun l => (l, (c.rv l i.toNat).toInt), acq := ordScope c (c.G.bufRec b.toNat) [1, 3], rel := ordScope c (c.G.bufRec b.toNat) [2, 3], dst := some (.v d.toNat (if c.hints.wide then 2 else 1)), data := (fun l => c.atomWord c.hints.wide l (if op = 9 then v.toNat + (if c.hints.wide then 2 else 1) else v.toNat)), cmp := (fun l => if op = 9 then c.atomWord c.hints.wide l v.toNat else []) }) :
   Sends c t q (atomic op w b d i v s) := by
  subst hq
  unfold atomic
  rw [Issues.issueBy (f := infoAtomic op w d i v) (c := c) (t := t) h (fun e he => infoAtomic_hints c e he)]
  dsimp only
  rw [if_neg h3]
  exact access_sends h.found _ rfl (by simp [Function.comp_def]) (by rintro ⟨⟩) hg hp _ _ _

end Sys2Proof.Machine
end

