-- ==== Sys2Proof/Laws/Spout.lean ====
section
/-! SUPPORT. Requests, grants and completions (R250 to R254, R276, R277), and the epilogue of the engines. -/

namespace Sys2Proof.Machine

theorem group?_put' (s : State) (g : Nat) (G : Group) : ({ s with groups := SMap.put s.groups g G } : State).group? g = some G := SMap.find?_put_self _ _ _

theorem arr_spec {s : State} {n : Nat} {q : Req} (h1 : s.wire.find? (·.id == n) = some q) (h2 : s.wireNext q = true) :
       let d := homeDie q.psec
       let u := homeUnit q.psec
       let U := s.unit d u
       let t : State := { s with wire := s.wire.filter (·.id != n) }
       ((512 ≤ U.entries.length → exec (.spoutRequestArrival n) s = .next (t.updUnit d u fun U => { U with
         inq := U.inq ++ [q]
         full := satInc U.full })) ∧
       (U.entries.length < 512 → U.inq ≠ [] → exec (.spoutRequestArrival n) s = .next (t.updUnit d u fun U => { U with inq := U.inq ++ [q] })) ∧
       (U.entries.length < 512 → U.inq = [] → ∀ k, q.kind = .read k →
         ((U.entries.any fun e => e.open_ && e.psec == q.psec && e.key == q.key) = true →
           exec (.spoutRequestArrival n) s = .next (t.updUnit d u fun U => { U with
             entries := U.entries.map fun e => if e.open_ = true ∧ e.psec = q.psec ∧ e.key = q.key then { e with
               reqs := e.reqs ++ [q]
               open_ := decide (e.reqs.length + 1 < 64) } else e
             join := satInc U.join })) ∧
         ((U.entries.any fun e => e.open_ && e.psec == q.psec && e.key == q.key) = false →
           exec (.spoutRequestArrival n) s = .next ((t.bump.updUnit d u fun U => { U with
             entries := U.entries ++ [⟨s.uid, q.psec, q.key, s.now, [q], true, none⟩]
             alloc := satInc U.alloc }).updChan (s.chanOf q.psec) fun c => { c with q := c.q ++ [.entry s.uid] }))) ∧
       (U.entries.length < 512 → U.inq = [] → q.kind = .wait → exec (.spoutRequestArrival n) s = .next (t.updChan (s.chanOf q.psec) fun c => { c with q := c.q ++ [.req q] })) ∧
       (U.entries.length < 512 → U.inq = [] → q.kind ≠ .wait → (∀ k, q.kind ≠ .read k) →
         exec (.spoutRequestArrival n) s = .next ((t.updUnit d u fun U => U.closeSec q.psec).updChan (s.chanOf q.psec) fun c => { c with q := c.q ++ [.req q] }))) := by
  intro d u U t
  have e0 : exec (.spoutRequestArrival n) s = .next (t.arriveUnit q) := by
    show eventOf _ _ = _; rw [h1]; dsimp only [Option.bind_some]; rw [if_pos h2]; rfl
  have eU : t.unit d u = U := rfl
  rw [e0]
  refine ⟨?_, ?_, ?_, ?_, ?_⟩
  · intro h; unfold State.arriveUnit; dsimp only; rw [if_pos (show (t.unit d u).entries.length ≥ 512 from h)]
  · intro h k; unfold State.arriveUnit; dsimp only; rw [if_neg (show ¬ (t.unit d u).entries.length ≥ 512 from by rw [eU]; omega), if_neg (by show ¬ (t.unit d u).inq.isEmpty = true; rw [eU]; simpa using k)]
  · intro h k x hx
    have e1 : t.arriveUnit q = t.handle q := by
      unfold State.arriveUnit; dsimp only; rw [if_neg (show ¬ (t.unit d u).entries.length ≥ 512 from by rw [eU]; omega), if_pos (by show (t.unit d u).inq.isEmpty = true; rw [eU, k]; rfl)]
    rw [e1]
    unfold State.handle; rw [hx]; dsimp only
    constructor
    · intro ha
      rw [show (t.unit (homeDie q.psec) (homeUnit q.psec)) = U from rfl, if_pos ha]
      congr 2
      funext V
      congr 1
      apply List.map_congr_left
      intro e _
      simp only [Bool.and_eq_true, beq_iff_eq, and_assoc]
    · intro ha
      rw [if_neg (by intro hb; exact absurd (ha.symm.trans hb) (by decide))]; rfl
  · intro h k hx
    have e1 : t.arriveUnit q = t.handle q := by
      unfold State.arriveUnit; dsimp only; rw [if_neg (show ¬ (t.unit d u).entries.length ≥ 512 from by rw [eU]; omega), if_pos (by show (t.unit d u).inq.isEmpty = true; rw [eU, k]; rfl)]
    rw [e1]
    unfold State.handle
    rw [hx]; rfl
  · intro h k hw hx
    have e1 : t.arriveUnit q = t.handle q := by
      unfold State.arriveUnit; dsimp only; rw [if_neg (show ¬ (t.unit d u).entries.length ≥ 512 from by rw [eU]; omega), if_pos (by show (t.unit d u).inq.isEmpty = true; rw [eU, k]; rfl)]
    rw [e1]
    unfold State.handle
    cases hk : q.kind with
    | read x => exact absurd hk (hx x)
    | wait => exact absurd hk hw
    | write _ _ => rfl
    | atomic _ _ _ _ _ => rfl

theorem answer_bad (s : State) (k e : Nat) : (s.answerOf k e).2 = (s.check k e).isNone := by unfold State.answerOf; cases s.check k e <;> rfl

theorem checked_now (s : State) (k e : Nat) : (s.checked k e).now = s.now := by
  unfold State.checked State.corrected; (repeat' split) <;> rfl

theorem grant_event {s : State} {n x : Nat} {v : ChView} {c : Channel} {e : Entry} (h1 : s.nextAt n = some (v, c)) (h2 : v.what = .entry x) (h3 : ∃ d u, s.entry? x = some (d, u, e)) :
       ∃ t, exec (.grant n) s = .next t ∧ t.mem = s.mem ∧
         t = (((s.takeAt n v c).checked e.key e.psec).raiseHorizon e.psec (e.reqs.foldl (fun m r => max m (expiryOf s.now r)) 0)).updEntry x fun e' => { e' with
           open_ := false
           data := some ((s.answerOf e.key e.psec).1, (s.check e.key e.psec).isNone, s.now) } := by
  obtain ⟨d, u, h3⟩ := h3
  have hn : ((s.takeAt n v c).checked e.key e.psec).now = s.now := checked_now _ _ _
  refine ⟨_, ?_, ?_, rfl⟩
  · show eventOf _ _ = _
    rw [h1]; dsimp only [Option.bind_some]; rw [h2]; dsimp only; rw [h3]; dsimp only [Option.map_some]
    simp only [hn, answer_bad]; rfl
  · show ((s.takeAt n v c).checked e.key e.psec).mem = _
    rw [State.checked_mem]; rfl

theorem grant_wait {s : State} {n : Nat} {v : ChView} {c : Channel} {r : Req} (h1 : s.nextAt n = some (v, c)) (h2 : v.what = .req r) (h3 : r.kind = .wait) :
       let t := (s.takeAt n v c).checked r.key r.psec
       exec (.grant n) s = .next { t with
         copies := t.copies ++ [⟨r.id, r, 0, (s.answerOf r.key r.psec).1, (s.check r.key r.psec).isNone, t.uid, none⟩]
         uid := t.uid + 1 } := by
  intro t
  show eventOf _ _ = _
  rw [h1]; dsimp only [Option.bind_some]; rw [h2]; dsimp only; rw [h3]; dsimp only; rw [answer_bad]; rfl

theorem takeAt_side (s : State) (n : Nat) (v : ChView) (c : Channel) : (s.takeAt n v c).side = s.side := rfl

theorem write_head {s : State} {n : Nat} {v : ChView} {c : Channel} {r : Req} {m : DWord} {x : BitVec 512} (h1 : s.nextAt n = some (v, c)) (h2 : v.what = .req r) (h3 : r.kind = .write m x) :
   exec (.writeArrival n) s = .next { ((s.takeAt n v c).storeSector r.key r.psec m x).1 with dones := ((s.takeAt n v c).storeSector r.key r.psec m x).1.dones ++ [⟨r.id, r, s.completion r.psec, [], ((s.takeAt n v c).storeSector r.key r.psec m x).2⟩] } := by
  show eventOf _ _ = _
  rw [h1]; dsimp only [Option.bind_some]; rw [h2]; dsimp only; rw [h3]; rfl

theorem watch_dones (s : State) (p : Nat) : (s.watch p).dones = s.dones := by
  unfold State.watch
  generalize s.watchers p = ws
  induction ws generalizing s with
  | nil => rfl
  | cons w ws ih => rw [List.foldl_cons, ih]; rfl

theorem checked_dones (s : State) (k p : Nat) : (s.checked k p).dones = s.dones := by
  unfold State.checked State.corrected; (repeat' split) <;> rfl

theorem storeSector_dones (s : State) (k p : Nat) (m : DWord) (x : BitVec 512) : (s.storeSector k p m x).1.dones = s.dones := by
  unfold State.storeSector; split
  · rfl
  · split
    · exact watch_dones _ _
    · split
      · rfl
      · exact (watch_dones _ _).trans (checked_dones s k p)

theorem write_whole {s : State} {n : Nat} {v : ChView} {c : Channel} {r : Req} {m : DWord} {x : BitVec 512} (h1 : s.nextAt n = some (v, c)) (h2 : v.what = .req r) (h3 : r.kind = .write m x)
   (h4 : Memory.wf s.mem = true) (h5 : r.psec * 64 < memEnd) (h6 : m = BitVec.allOnes 64) :
       ∃ t, exec (.writeArrival n) s = .next t ∧ t.dones = s.dones ++ [⟨r.id, r, s.completion r.psec, [], false⟩] ∧ t.sideOf r.psec = Side.clean r.key ∧
         ∀ a, t.byteAt (.glob 0 a) = if r.psec * 64 ≤ a ∧ a < r.psec * 64 + 64 then secByte x (a - r.psec * 64) else s.byteAt (.glob 0 a) := by
  subst h6
  obtain ⟨a1, a2, a3⟩ := State.storeSector_whole (s := s.takeAt n v c) h4 (key := r.key) (psec := r.psec) x h5
  refine ⟨_, write_head h1 h2 h3, ?_, a2, a3⟩
  dsimp only; rw [a1, storeSector_dones]; rfl

theorem write_event {s : State} {n : Nat} {v : ChView} {c : Channel} {r : Req} {m : DWord} {x : BitVec 512} {d : Delivered} (h1 : s.nextAt n = some (v, c)) (h2 : v.what = .req r) (h3 : r.kind = .write m x)
   (h4 : Memory.wf s.mem = true) (h5 : r.psec * 64 < memEnd) (h6 : m ≠ BitVec.allOnes 64) (h7 : s.check r.key r.psec = some d) :
       ∃ t, exec (.writeArrival n) s = .next t ∧ t.dones = s.dones ++ [⟨r.id, r, s.completion r.psec, [], false⟩] ∧ t.sideOf r.psec = Side.clean r.key ∧
         ∀ a, t.byteAt (.glob 0 a) = if r.psec * 64 ≤ a ∧ a < r.psec * 64 + 64 then
             (if m.getLsbD (a - r.psec * 64) = true then secByte x (a - r.psec * 64) else secByte d.data (a - r.psec * 64))
           else s.byteAt (.glob 0 a) := by
  obtain ⟨a1, a2, a3⟩ := State.storeSector_spec (s := s.takeAt n v c) h4 (key := r.key) (psec := r.psec) (mask := m) x h5 h6 h7
  refine ⟨_, write_head h1 h2 h3, ?_, a2, a3⟩
  dsimp only; rw [a1, storeSector_dones]; rfl

theorem write_fail {s : State} {n : Nat} {v : ChView} {c : Channel} {r : Req} {m : DWord} {x : BitVec 512} (h1 : s.nextAt n = some (v, c)) (h2 : v.what = .req r) (h3 : r.kind = .write m x)
   (h4 : memEnd ≤ r.psec * 64 ∨ (m ≠ BitVec.allOnes 64 ∧ s.check r.key r.psec = none)) :
       ∃ t, exec (.writeArrival n) s = .next t ∧ t.dones = s.dones ++ [⟨r.id, r, s.completion r.psec, [], true⟩] ∧ t.mem = s.mem ∧ t.side = s.side := by
  have e := write_head h1 h2 h3
  rw [State.storeSector_fail (s := s.takeAt n v c) x h4] at e
  exact ⟨_, e, rfl, rfl, rfl⟩

theorem atom_head {s : State} {n op a : Nat} {w : Bool} {v : ChView} {c : Channel} {r : Req} {x y : List Byte} (h1 : s.nextAt n = some (v, c)) (h2 : v.what = .req r) (h3 : r.kind = .atomic op w a x y) :
   exec (.atom n) s = .next { ((s.takeAt n v c).atomStep r.key r.psec op w a x y).1 with dones := ((s.takeAt n v c).atomStep r.key r.psec op w a x y).1.dones ++ [⟨r.id, r, s.completion r.psec, ((s.takeAt n v c).atomStep r.key r.psec op w a x y).2.1, ((s.takeAt n v c).atomStep r.key r.psec op w a x y).2.2⟩] } := by
  show eventOf _ _ = _
  rw [h1]; dsimp only [Option.bind_some]; rw [h2]; dsimp only; rw [h3]; rfl

theorem atomStep_dones (s : State) (k p op : Nat) (w : Bool) (a : Nat) (x y : List Byte) : (s.atomStep k p op w a x y).1.dones = s.dones := by
  unfold State.atomStep; dsimp only
  generalize (if w = true then 8 else 4) = z
  cases s.check k p with
  | none => rfl
  | some d =>
    dsimp only
    split
    · exact checked_dones _ _ _
    · exact (watch_dones _ _).trans (checked_dones s k p)

theorem atom_event {s : State} {n op a : Nat} {w : Bool} {v : ChView} {c : Channel} {r : Req} {x y : List Byte} {d : Delivered} (h1 : s.nextAt n = some (v, c)) (h2 : v.what = .req r) (h3 : r.kind = .atomic op w a x y)
   (h4 : Memory.wf s.mem = true) (h5 : s.check r.key r.psec = some d) :
       let k := if w then 8 else 4
       let old := (List.range k).map fun i => secByte d.data (a + i)
       let new := leBytes k (atomNew op w (leNat old) (leNat x) (leNat y)).1
       ∃ t, exec (.atom n) s = .next t ∧ t.dones = s.dones ++ [⟨r.id, r, s.completion r.psec, old, false⟩] ∧
         ∀ b, t.byteAt (.glob 0 b) = if r.psec * 64 ≤ b ∧ b < r.psec * 64 + 64 ∧ ¬(op = 9 ∧ leNat old ≠ leNat y) then
             (if a ≤ b - r.psec * 64 ∧ b - r.psec * 64 < a + k then new.getD (b - r.psec * 64 - a) 0 else secByte d.data (b - r.psec * 64))
           else s.byteAt (.glob 0 b) := by
  intro k old new
  obtain ⟨a1, a2⟩ := State.atomStep_spec (s := s.takeAt n v c) h4 (key := r.key) (psec := r.psec) (op := op) (wide := w) (a := a) x y h5
  refine ⟨_, atom_head h1 h2 h3, ?_, ?_⟩
  · dsimp only; rw [a1, atomStep_dones]; rfl
  · intro b; exact a2 b

theorem atom_fail {s : State} {n op a : Nat} {w : Bool} {v : ChView} {c : Channel} {r : Req} {x y : List Byte} (h1 : s.nextAt n = some (v, c)) (h2 : v.what = .req r) (h3 : r.kind = .atomic op w a x y)
   (h4 : s.check r.key r.psec = none) :
       ∃ t, exec (.atom n) s = .next t ∧ t.dones = s.dones ++ [⟨r.id, r, s.completion r.psec, [], true⟩] ∧ t.mem = s.mem ∧ t.side = s.side := by
  have e := atom_head h1 h2 h3
  rw [State.atomStep_fail (s := s.takeAt n v c) x y h4] at e
  exact ⟨_, e, rfl, rfl, rfl⟩

theorem serve_keeps (k d u : Nat) (s : State) : (State.serveUnit k d u s).mem = s.mem ∧ (State.serveUnit k d u s).copies = s.copies := by
  induction k generalizing s with
  | zero => exact ⟨rfl, rfl⟩
  | succ k ih =>
    unfold State.serveUnit; dsimp only
    split
    · split
      · exact ⟨rfl, rfl⟩
      · rename_i r rs _
        obtain ⟨a, b⟩ := ih ((s.updUnit d u fun U => { U with inq := rs }).handle r)
        rw [a, b]
        unfold State.handle; dsimp only
        split
        · split <;> exact ⟨rfl, rfl⟩
        · exact ⟨rfl, rfl⟩
        · exact ⟨rfl, rfl⟩
    · exact ⟨rfl, rfl⟩

theorem multi_event {s : State} {n d u : Nat} {x : Entry} {w : BitVec 512} {b : Bool} {t : Nat} (h1 : s.entry? n = some (d, u, x)) (h2 : x.data = some (w, b, t)) :
       ∃ v, exec (.spoutReplyMulticast n) s = .next v ∧ v.mem = s.mem ∧ v.copies = s.copies ++ x.reqs.map fun (r : Req) => (⟨r.id, r, n, w, b, expiryOf t r, none⟩ : Copy) := by
  have e : ∃ k v, exec (.spoutReplyMulticast n) s = .next (State.serveUnit k d u v) ∧ v.mem = s.mem ∧ v.copies = s.copies ++ x.reqs.map fun (r : Req) => (⟨r.id, r, n, w, b, expiryOf t r, none⟩ : Copy) := by
    refine ⟨((({ s with copies := s.copies ++ x.reqs.map fun (r : Req) => (⟨r.id, r, n, w, b, expiryOf t r, none⟩ : Copy) } : State).updUnit d u fun U => { U with entries := U.entries.filter (·.id != n) }).unit d u).inq.length, (({ s with copies := s.copies ++ x.reqs.map fun (r : Req) => (⟨r.id, r, n, w, b, expiryOf t r, none⟩ : Copy) } : State).updUnit d u fun U => { U with entries := U.entries.filter (·.id != n) }), ?_, ?_⟩
    · show eventOf _ _ = _
      rw [h1]; dsimp only [Option.bind_some]; rw [h2]; dsimp only [Option.map_some]; rfl
    · exact ⟨rfl, rfl⟩
  obtain ⟨k, v, e1, e2, e3⟩ := e
  exact ⟨_, e1, (serve_keeps _ _ _ _).1.trans e2, (serve_keeps _ _ _ _).2.trans e3⟩

theorem multi_idle {s : State} {n d u : Nat} {x : Entry} {w : BitVec 512} {b : Bool} {t : Nat} (h1 : s.entry? n = some (d, u, x)) (h2 : x.data = some (w, b, t)) (h3 : (s.unit d u).inq = []) :
       exec (.spoutReplyMulticast n) s = .next (({ s with copies := s.copies ++ x.reqs.map fun (r : Req) => (⟨r.id, r, n, w, b, expiryOf t r, none⟩ : Copy) } : State).updUnit d u fun U => { U with entries := U.entries.filter (·.id != n) }) := by
  show eventOf _ _ = _
  rw [h1]; dsimp only [Option.bind_some]; rw [h2]; dsimp only [Option.map_some]
  have e : ((({ s with copies := s.copies ++ x.reqs.map fun (r : Req) => (⟨r.id, r, n, w, b, expiryOf t r, none⟩ : Copy) } : State).updUnit d u fun U => { U with entries := U.entries.filter (·.id != n) }).unit d u).inq = [] := by
    unfold State.unit State.die
    unfold State.updUnit State.updDie; rw [SMap.get_put_self]; dsimp only; rw [SMap.get_put_self]; exact h3
  unfold eventOf; dsimp only
  rw [e]; rfl

theorem fill_event {s : State} {n core id : Nat} {k : Copy} (h1 : s.copies.find? (·.id == n) = some k) (h2 : s.copyNext k = true) (h3 : k.req.src = .fill core id) :
       let u := (({ s with copies := s.copies.filter (·.id != n) } : State).firstCopy k).judge k.req
       ((u.core core).fills.find? (·.id == id) = none → exec (.l1FillArrival n) s = .next u) ∧
       ∀ F, (u.core core).fills.find? (·.id == id) = some F →
         let x := F.merge ((u.core core).secAt F.vf F.asid F.vsec) k
         let v := u.updCore core fun c => { c with fills := c.fills.filter (·.id != id) }
         let w := if F.sup = true ∨ F.noAlloc = true ∨ k.bad = true then v else v.updCore core fun c => c.updSecAt F.vf F.asid F.vsec fun _ => x
         (F.noAlloc = false → exec (.l1FillArrival n) s = .next ((F.waiters.foldl (fun s y => s.wakeLoad x F.vsec k.bad y.1 y.2) w).retryPrefetch core)) ∧
         (F.noAlloc = true → ∀ y ys, F.waiters = y :: ys → exec (.l1FillArrival n) s = .next ((w.wakeLoad { x with exp := u.now + 1 } F.vsec k.bad y.1 y.2).retryPrefetch core)) := by
  intro u
  have e0 : exec (.l1FillArrival n) s = .next ((({ s with copies := s.copies.filter (·.id != n) } : State).firstCopy k).fillArrives k core id) := by
    show eventOf _ _ = _; rw [h1]; dsimp only [Option.bind_some]; rw [if_pos h2, h3]; rfl
  rw [e0]
  constructor
  · intro h; unfold State.fillArrives; dsimp only; rw [show (State.core ((({ s with copies := s.copies.filter (·.id != n) } : State).firstCopy k).judge k.req) core).fills.find? (·.id == id) = none from h]
  · intro F h x v w
    unfold State.fillArrives; dsimp only; rw [show (State.core ((({ s with copies := s.copies.filter (·.id != n) } : State).firstCopy k).judge k.req) core).fills.find? (·.id == id) = some F from h]
    dsimp only
    constructor
    · intro hn; rw [if_neg (show ¬ F.noAlloc = true by rw [hn]; decide)]
    · intro hn y ys hy
      rw [if_pos hn, hy]
      dsimp only
      have hnow : w.now = u.now := by
        show State.now (if _ then v else _) = _
        split <;> rfl
      rw [← hnow]

theorem flush_event {s : State} {n p k : Nat} {L : Line} (h1 : k < 4) (h2 : (s.core n).l1[p]? = some L) (h3 : (L.sec k).dm ≠ 0) :
       exec (.flush n p k) s = .next (({ s with
         wire := s.wire ++ [⟨s.uid, .back n (L.sec k).gset, .write (L.sec k).dm (L.sec k).data, L.pline * 4 + k, L.vf, s.key L.vf, 1, 0, n, 0⟩]
         uid := s.uid + 1 } : State).updCore n fun c => (c.updLine L.vf L.asid L.vline fun L => L.updSec k fun x => { x with
           dm := 0
           gset := [] }).keepBytes L.vf L.asid (L.vline * 4 + k) (L.sec k).dm) := by
  show eventOf _ _ = _
  rw [h2]; dsimp only [Option.bind_some]; rw [if_pos ⟨h1, h3⟩]
  unfold eventOf State.backSec; dsimp only; rw [if_neg h3]; rfl

theorem back_done {s : State} {d : Done} {core : Nat} {gs : List Nat} (h1 : d.req.src = .back core gs) (h2 : d.bad = false) (h3 : s.shoots = []) :
       s.completes d = (s.judge d.req).updCore d.req.core fun c => { c with hzc := max c.hzc d.c } := by
  have e : ((s.judge d.req).updCore d.req.core fun c => { c with hzc := max c.hzc d.c }).shoots = [] := by
    show (s.judge d.req).shoots = _
    unfold State.judge; split
    · exact h3
    · exact h3
  unfold State.completes; dsimp only; rw [h1]; dsimp only; rw [h2]
  simp only [Bool.false_eq_true, if_false]
  rw [e, List.map_nil]
  conv => rhs; rw [show ((s.judge d.req).updCore d.req.core fun c => { c with hzc := max c.hzc d.c }) = { ((s.judge d.req).updCore d.req.core fun c => { c with hzc := max c.hzc d.c }) with shoots := ((s.judge d.req).updCore d.req.core fun c => { c with hzc := max c.hzc d.c }).shoots } from rfl, e]

theorem drop_spec {s : State} {n p : Nat} {G : Group} (h1 : s.group? n = some G) (h2 : G.ended = false) :
   s.dropAcc n p = { s with groups := SMap.put s.groups n { G with acc := G.acc.filter (·.id != p) } } := by
  unfold State.dropAcc
  rw [State.updGroup_some h1]
  unfold State.bury
  rw [group?_put']; dsimp only
  rw [if_neg (by rw [h2]; simp)]

theorem fence_tail {s : State} {n p : Nat} {G : Group} (h1 : s.group? n = some G) (h2 : G.ended = false) :
   let H := { G with acc := G.acc.filter (·.id != p) }
   let u : State := { s with groups := SMap.put s.groups n H }
   (G.blk.find? (·.fences p) = none → (match G.blk.find? (·.fences p) with | some b => (s.dropAcc n p).unblock n b | none => s.dropAcc n p) = u) ∧
   ∀ b, G.blk.find? (·.fences p) = some b → Resumes n u H b false (.next (match G.blk.find? (·.fences p) with | some b => (s.dropAcc n p).unblock n b | none => s.dropAcc n p)) := by
  intro H u
  rw [drop_spec h1 h2]
  constructor
  · intro h; rw [h]
  · intro b h; rw [h]; exact unblock_spec (s := u) (G := H) (SMap.find?_put_self _ _ _) b false

theorem rel_head {s : State} {n p : Nat} {G : Group} {a : Acc} {sc : Nat} (h1 : s.group? n = some G) (h3 : G.acc.find? (·.id == p) = some a) (h4 : a.kind = .release sc)
   (h5 : (accBefore G.acc p).all (fun b => !b.isRelease) = true) (h6 : s.released n G a sc = true) : exec (.fenceActionsEnd n p) s = .next (s.endRelease n G a sc) := by
  show eventOf _ _ = _
  rw [h1]; dsimp only [Option.bind_some]; rw [h3]; dsimp only [Option.bind_some]; rw [h4]; dsimp only
  rw [if_pos ⟨h5, h6⟩]; rfl

theorem acc_id {as : List Acc} {p : Nat} {a : Acc} (h : as.find? (·.id == p) = some a) : a.id = p := by
  have := List.find?_some h
  simpa using this

theorem rel_end {s : State} {n p : Nat} {G : Group} {a : Acc} {sc : Nat} (h1 : s.group? n = some G) (h2 : G.ended = false) (h3 : G.acc.find? (·.id == p) = some a) (h4 : a.kind = .release sc)
   (h5 : (accBefore G.acc p).all (fun b => !b.isRelease) = true) (h6 : s.released n G a sc = true) (h7 : ¬(G.werr = true ∧ 6 ≤ sc)) :
   let H := { G with acc := G.acc.filter (·.id != p) }
   let u : State := { s with groups := SMap.put s.groups n H }
   (G.blk.find? (·.fences p) = none → exec (.fenceActionsEnd n p) s = .next u) ∧
   ∀ b, G.blk.find? (·.fences p) = some b → Resumes n u H b false (exec (.fenceActionsEnd n p) s) := by
  rw [rel_head h1 h3 h4 h5 h6]
  unfold State.endRelease; dsimp only
  rw [if_neg h7, acc_id h3]
  obtain ⟨a, b⟩ := fence_tail (p := p) h1 h2
  exact ⟨fun h => congrArg Host.Outcome.next (a h), b⟩

theorem rel_err {s : State} {n p : Nat} {G : Group} {a : Acc} {sc : Nat} {b : Block} (h1 : s.group? n = some G) (_h2 : G.ended = false) (h3 : G.acc.find? (·.id == p) = some a) (h4 : a.kind = .release sc)
   (h5 : (accBefore G.acc p).all (fun b => !b.isRelease) = true) (h6 : s.released n G a sc = true) (h7 : G.werr = true) (h8 : 6 ≤ sc) (h9 : G.blk.find? (fun b => overlaps b.mask a.mask) = some b)
   (h10 : s.Trappable G b) :
   let H := { G with werr := false }.takeBack b.mask a.id
   ParksBlocked n { s with groups := SMap.put s.groups n H } H b 6 23 (exec (.fenceActionsEnd n p) s) := by
  intro H
  rw [rel_head h1 h3 h4 h5 h6]
  unfold State.endRelease; dsimp only
  rw [if_pos ⟨h7, h8⟩, h9]; dsimp only
  rw [State.updGroup_updGroup, State.updGroup_some h1]
  have e : ({ s with groups := SMap.put s.groups n H } : State).trapBlock n G b 6 23 = ({ s with groups := SMap.put s.groups n H } : State).trapBlock n H b 6 23 := rfl
  have hg : ({ s with groups := SMap.put s.groups n H } : State).group? n = some H := SMap.find?_put_self _ _ _
  have k := trapBlock_spec hg (b := b) h10 6 23
  exact k

theorem acq_end {s : State} {n p : Nat} {G : Group} {a : Acc} {sc : Nat} (h1 : s.group? n = some G) (h2 : G.ended = false) (h3 : G.acc.find? (·.id == p) = some a) (h4 : a.kind = .acquire sc)
   (h5 : a.due (accBefore G.acc p) s.now = true) :
   let v := if sc ≥ 6 then s.invalidateAll G.core else s
   let H := { G with acc := G.acc.filter (·.id != p) }
   let u : State := { v with groups := SMap.put v.groups n H }
   (G.blk.find? (·.fences p) = none → exec (.fenceActionsEnd n p) s = .next u) ∧
   ∀ b, G.blk.find? (·.fences p) = some b → Resumes n u H b false (exec (.fenceActionsEnd n p) s) := by
  intro v H u
  have hv : v.group? n = some G := by
    show State.group? (if _ then _ else _) n = _
    split
    · exact h1
    · exact h1
  have e : exec (.fenceActionsEnd n p) s = .next (match G.blk.find? (·.fences p) with | some b => (v.dropAcc n p).unblock n b | none => v.dropAcc n p) := by
    show eventOf _ _ = _
    rw [h1]; dsimp only [Option.bind_some]; rw [h3]; dsimp only [Option.bind_some]; rw [h4]; dsimp only
    rw [if_pos h5]; rfl
  rw [e]
  obtain ⟨a, b⟩ := fence_tail (p := p) hv h2
  exact ⟨fun h => congrArg Host.Outcome.next (a h), b⟩

end Sys2Proof.Machine
end

