-- ==== Sys2Proof/Laws/Step.lean ====
section
/-! SUPPORT. The schedule, a cycle and a fetch, as the statements about a step need them (log 1). -/

namespace Sys2Proof.Machine

/-- Making groups eligible again leaves memory alone. -/
@[simp] theorem unskip_mem (s t : State) (c p : Nat) : (s.unskip t c p).mem = t.mem := (rfl)

/-- The schedule of the model is one event that is due, or holds no event. -/
theorem round_ev (run : Instr → State → Result) (u : State) : (∃ i, u.round run = [.ev i] ∧ isNext (run i u) = true) ∨ ∀ i, .ev i ∉ u.round run := by
  unfold State.round
  have hP : ∀ i, List.find? (fun i => isNext (run i u)) u.events = some i → isNext (run i u) = true := fun i h => List.find?_some (p := fun i => isNext (run i u)) h
  generalize (List.find? (fun i => isNext (run i u)) u.events) = o at hP
  cases o with
  | some i => exact .inl ⟨i, rfl, hP i rfl⟩
  | none =>
  refine .inr ?_
  intro i hi
  simp only [List.mem_append, List.mem_flatMap, List.mem_map, List.mem_filterMap, List.mem_singleton] at hi
  rcases hi with (((((((⟨_, _, _, _, h⟩ | ⟨_, _, _, _, h⟩) | ⟨_, _, h⟩) | ⟨_, _, _, _, h⟩) | ⟨_, _, h⟩) | ⟨_, _, _, _, h⟩) | ⟨_, _, h⟩) | ⟨_, _, h⟩) | h
  · cases h
  · cases h
  · cases h
  · cases h
  · simp only [Option.ite_none_left_eq_some, Option.some.injEq] at h; cases h.2
  · simp only [Option.ite_none_left_eq_some, Option.some.injEq] at h; cases h.2
  · cases h
  · cases h
  · cases h

/-- The state after a group has issued a word. -/
def State.wordIssued (t : State) (g : Nat) (G : Group) (h : Bool) (pc m : Word) (w : Nat) : State :=
  { t.updGroup g (fun x => x.issued G h pc m (isHint w)) with cur := .none }

/-- A path whose fetch gives the word of an instruction runs it (R20). -/
theorem tryPath_run {s t : State} {g : Nat} {h : Bool} {pc m : Word} {c : Ctx} {w : Nat} {i : Instr} :
    let v := { s with cur := .path g h pc m }
    v.context? = some c → (v.fetch c).1 = .word w → decode w = some i → exec i (v.fetch c).2 = .next t →
    stalled (v.fetch c).2 t g h pc m = false →
    s.tryPath exec g h pc m = .done ⟨c.G, pc, m, c.hints, some w⟩ (t.wordIssued g c.G h pc m w) := by
  intro v h1 h2 h3 h4 h5
  unfold State.tryPath
  dsimp only
  rw [show State.context? { s with cur := .path g h pc m } = some c from h1]
  dsimp only
  have : ((v.fetch c).1).instr = i := by rw [h2]; show (match decode w with | some i => i | none => _) = _; rw [h3]
  rw [show (State.fetch { s with cur := .path g h pc m } c) = v.fetch c from rfl, this, h4, h2]
  dsimp only
  rw [h5]; rfl

/-- The group whose turn it is issues (R158, R192). -/
theorem firstOf_run {s t : State} {g : Nat} {G : Group} {gs : List (Nat × Group)} {h : Bool} {pc m : Word} {more : List (Bool × Word × Word)} {x : Issued}
    (ho : G.order = (h, pc, m) :: more) (ht : s.tryPath exec g h pc m = .done x t) :
    s.firstOf exec ((g, G) :: gs) = (t, some (G.slot, x, gs)) := by
  unfold State.firstOf
  rw [ho]
  unfold State.tryPaths
  rw [ht]

/-- A sector is what memory says. -/
theorem sector_mem {s t : State} (h : t.mem = s.mem) (p : Nat) : t.sector p = s.sector p := by
  unfold State.sector State.byteAt; rw [h]

/-- The code that an instruction cache holds (R429). -/
theorem codeAt_line {s : State} {k vf va : Nat} {x : IcLine} (h : (s.core k).codeLine vf (s.vf vf).asid va = some x) :
    s.codeAt k vf va = .word (codeWord x.data va) := by
  unfold State.codeAt; dsimp only; rw [h]

/-- A word that the instruction cache holds is fetched from it (R429). -/
theorem fetchAt_word {s : State} {k vf va svc w : Nat} (h : s.codeAt k vf va = .word w) : s.fetchAt k vf va svc = (.word w, s) := by
  unfold State.fetchAt; rw [h]

/-- A sector of code that a core does not hold is sent for (R429). -/
theorem fetchAt_ask {s : State} {k vf va svc pa : Nat} {t : Trans} (h : s.codeAt k vf va = .ask pa t) :
    s.fetchAt k vf va svc = (.miss, s.askCode k vf va svc pa t) := by
  unfold State.fetchAt; rw [h]

end Sys2Proof.Machine
end

