-- ==== Sys2Proof/Laws/Steps.lean ====
section
/-! SUPPORT. Steps of the engines and of the queue unit (R313 to R325). -/

namespace Sys2Proof.Machine

theorem peer_head {s : State} {n : Nat} {r : PeerReq} (h1 : s.peerIn[n]? = some r) (h2 : (s.peerIn.take n).any (fun x => x.from_ == r.from_ && x.rvf == r.rvf && x.vsec == r.vsec) = false) :
    exec (.peerAccessArrival n) s = .next (State.peerServe { s with peerIn := s.peerIn.eraseIdx n } r) := by
  show eventOf _ _ = _; rw [h1]; dsimp only; rw [if_neg (by rw [h2]; decide)]; rfl

theorem peer_off {s : State} {r : PeerReq} (h3 : (s.vf r.rvf).en = false) : s.peerServe r = s.sendAnswer r.from_ (r.answer [] s.now true none) := by
  unfold State.peerServe; rw [if_pos (by rw [h3]; rfl)]

theorem peer_fault {s : State} {r : PeerReq} {f lev : Nat} {x : Walked} (h3 : (s.vf r.rvf).en = true)
    (h4 : s.translate (s.die 0).tlb r.rvf (r.vsec * 64) r.want (s.fresh + 1) = .fault f lev x) :
    s.peerServe r = (((s.learnDie 0 (s.translate (s.die 0).tlb r.rvf (r.vsec * 64) r.want (s.fresh + 1))).draw 2).sendAnswer r.from_ (r.answer [] ((s.learnDie 0 (s.translate (s.die 0).tlb r.rvf (r.vsec * 64) r.want (s.fresh + 1))).draw 2).now false (some (f, lev)))) := by
  unfold State.peerServe; rw [if_neg (by rw [h3]; decide)]; rw [h4]

theorem peer_ok {s : State} {r : PeerReq} {a : Nat} {x : Walked} (h3 : (s.vf r.rvf).en = true)
    (h4 : s.translate (s.die 0).tlb r.rvf (r.vsec * 64) r.want (s.fresh + 1) = .ok a x) :
    s.peerServe r = (((s.learnDie 0 (s.translate (s.die 0).tlb r.rvf (r.vsec * 64) r.want (s.fresh + 1))).draw 2).peerBegin r (a / 64)) := by
  unfold State.peerServe; rw [if_neg (by rw [h3]; decide)]; rw [h4]

theorem peerBegin_read {s : State} {r : PeerReq} {a : Nat} (h : r.op = 0) :
    s.peerBegin r a = { (s.beginTxn .peer r.rvf r.cls r.stamp [(0, r.places a)] []).1 with
      peerRun := (s.beginTxn .peer r.rvf r.cls r.stamp [(0, r.places a)] []).1.peerRun ++ [((s.beginTxn .peer r.rvf r.cls r.stamp [(0, r.places a)] []).2, r)] } := by
  unfold State.peerBegin; rw [if_pos h]

theorem peerBegin_write {s : State} {r : PeerReq} {a : Nat} (h : r.op = 1) :
    let b := s.beginTxn .peer r.rvf r.cls r.stamp [] [(0, r.places a)]
    let v : State := { b.1 with peerRun := b.1.peerRun ++ [(b.2, r)] }
    s.peerBegin r a = v.writeTxn b.2 ((r.places a).zip r.data) := by
  unfold State.peerBegin; dsimp only; rw [if_neg (by omega), if_pos h]

theorem peer_ends {s t u v : State} {n : Nat} (h1 : exec (.peerAccessArrival n) s = .next t) (h2 : t = u) (h3 : u = v) : exec (.peerAccessArrival n) s = .next v := by rw [h1, h2, h3]

theorem peerBegin_atomic {s : State} {r : PeerReq} {a : Nat} {x : Txn} (h : 2 ≤ r.op) :
    let b := s.beginTxn .peer r.rvf r.cls r.stamp [] [(0, r.places a)]
    let v : State := { b.1 with peerRun := b.1.peerRun ++ [(b.2, r)] }
    v.txns.find? b.2 = some x →
    s.peerBegin r a = (v.updTxn b.2 fun x => { x with sent := true, out := 1 }).sendEng b.2 x
      [(a, .atomic (r.op - 2) r.wide ((r.parts.head?.map (·.at_)).getD 0) r.data r.cmp)] := by
  intro b v hx
  unfold State.peerBegin; dsimp only; rw [if_neg (by omega), if_neg (by omega)]
  rw [show (State.txns { (s.beginTxn .peer r.rvf r.cls r.stamp [] [(0, r.places a)]).1 with
      peerRun := (s.beginTxn .peer r.rvf r.cls r.stamp [] [(0, r.places a)]).1.peerRun ++ [((s.beginTxn .peer r.rvf r.cls r.stamp [] [(0, r.places a)]).2, r)] }).find?
        (s.beginTxn .peer r.rvf r.cls r.stamp [] [(0, r.places a)]).2 = some x from hx]

theorem peer_done {s : State} {n i : Nat} {r : PeerReq} {v : Txn} (h0 : s.peerIn.length ≤ n) (h1 : s.peerRun[n - s.peerIn.length]? = some (i, r)) (h2 : s.txns.find? i = some v)
    (h3 : (if r.op = 0 then v.ready else v.complete) = true) : exec (.peerAccessArrival n) s = .next (s.peerDone i v r) := by
  show eventOf _ _ = _
  rw [List.getElem?_eq_none h0]; dsimp only; rw [h1]; dsimp only [Option.bind_some]; unfold State.peerStep; dsimp only; rw [h2]; dsimp only; rw [if_pos h3]; rfl

theorem peerDone_spec {s : State} {r : PeerReq} (i : Nat) (v : Txn) :
       let D : State := { s.endTxn i with peerRun := s.peerRun.filter fun y => y.1 != i }
       (r.op = 0 → v.bad = [] → v.werr = false → s.peerDone i v r = D.sendAnswer r.from_ (r.answer (r.parts.map fun b => secByte ((v.got.head?.map (·.2)).getD 0) b.at_) s.now false none)) ∧
       (r.op ≠ 0 → v.bad = [] → v.werr = false → s.peerDone i v r = ({ D with peerAcks := D.peerAcks ++ [(r.from_, { r.answer (r.result v) v.comp false none with ack := true })] } : State).sendAnswer r.from_ (r.answer (r.result v) v.comp false none)) ∧
       ((v.bad ≠ [] ∨ v.werr = true) → s.peerDone i v r = D.sendAnswer r.from_ (r.answer (r.result v) (if r.op = 0 then s.now else v.comp) true none)) := by
  intro D
  refine ⟨fun h1 h2 h3 => ?_, fun h1 h2 h3 => ?_, fun h => ?_⟩ <;> unfold State.peerDone <;> dsimp only
  · rw [h2, h3, h1, if_pos (Or.inl rfl), if_pos rfl, show r.result v = _ from if_neg (by rw [h1, h2]; simp)]; rfl
  · rw [h2, h3, if_neg (show ¬(r.op = 0 ∨ (([] : List Nat) != [] || false) = true) by simpa using h1), if_neg h1]; rfl
  · have e : (v.bad != [] || v.werr) = true := by simpa using h
    rw [e, if_pos (Or.inr rfl)]; rfl

end Sys2Proof.Machine
end

