-- ==== Sys2Proof/Tests/Slice0.lean ====
section
/-!
SUPPORT. The package's own tests: words written out from the manual's encodings, the manual's worked examples on one step each,
a term that each check of well-formedness refuses, and for each statement states and operands that meet its hypotheses.
-/

namespace Sys2Proof

/-- Words of class VR, their fields placed as the encoding tables of R55 to R73 place them. -/
theorem test_words_vr1 :
    decode 0x80185E99 = some (.addVr 1 97 61 25) ∧
    decode 0x003DA92E = some (.subVr 0 118 82 46) ∧
    decode 0x8042F3C3 = some (.mulVr 1 11 103 67) ∧
    decode 0x00683E58 = some (.mulhiVr 0 32 124 88) ∧
    decode 0x808D48ED = some (.mulhuVr 1 53 17 109) ∧
    decode 0x00B29302 = some (.madVr 0 74 38 2) ∧
    decode 0x80D7DD97 = some (.andVr 1 95 59 23) ∧
    decode 0x00FD282C = some (.orVr 0 116 80 44) ∧
    decode 0x810272C1 = some (.xorVr 1 9 101 65) ∧
    decode 0x0127BD56 = some (.andnVr 0 30 122 86) ∧
    decode 0x814CC7EB = some (.shlVr 1 51 15 107) ∧
    decode 0x01721200 = some (.shrVr 0 72 36 0) ∧
    decode 0x81975C95 = some (.sraVr 1 93 57 21) ∧
    decode 0x01BCA72A = some (.srarVr 0 114 78 42) ∧
    decode 0x81C1F1BF = some (.minVr 1 7 99 63) ∧
    decode 0x01E73C54 = some (.maxVr 0 28 120 84) ∧
    decode 0x820C46E9 = some (.minuVr 1 49 13 105) ∧
    decode 0x0231917E = some (.maxuVr 0 70 34 126) ∧
    decode 0x8256DB93 = some (.addsVr 1 91 55 19) ∧
    decode 0x027C2628 = some (.subsVr 0 112 76 40) ∧
    decode 0x828170BD = some (.bfxVr 1 5 97 61) ∧
    decode 0x02A6BB52 = some (.bfiVr 0 26 118 82) ∧
    decode 0x82CBC580 = some (.popc 1 47 11) ∧
    decode 0x02ED8900 = some (.clz 0 54 18) ∧
    decode 0x830F4019 = some (.movVr 1 61 25) ∧
    decode 0x0334970A = some (.selVr 0 82 46 10) ∧
    decode 0x8359E19F = some (.add64Vr 1 103 67 31) ∧
    decode 0x837D68AD = some (.sub64Vr 1 117 81 45) ∧
    decode 0x8380EFBB = some (.shl64Vr 1 3 95 59) ∧
    decode 0x03A63A50 = some (.shr64Vr 0 24 116 80) := by
  refine ⟨?_, ?_, ?_, ?_, ?_, ?_, ?_, ?_, ?_, ?_, ?_, ?_, ?_, ?_, ?_, ?_, ?_, ?_, ?_, ?_, ?_, ?_, ?_, ?_, ?_, ?_, ?_, ?_, ?_, ?_⟩ <;> rfl

/-- Words of class VR, their fields placed as the encoding tables of R55 to R73 place them. -/
theorem test_words_vr2 :
    decode 0x840B44E5 = some (.faddVr 1 45 9 101) ∧
    decode 0x842ECBF3 = some (.fsubVr 1 59 23 115) ∧
    decode 0x84525281 = some (.fmulVr 1 73 37 1) ∧
    decode 0x8475D98F = some (.ffmaVr 1 87 51 15) ∧
    decode 0x8499609D = some (.fminVr 1 101 65 29) ∧
    decode 0x84BCE7AB = some (.fmaxVr 1 115 79 43) ∧
    decode 0x84C06E80 = some (.fabs 1 1 93) ∧
    decode 0x04E23200 = some (.fneg 0 8 100) ∧
    decode 0x8503F5C7 = some (.hadd2Vr 1 15 107 71) ∧
    decode 0x85277CD5 = some (.hsub2Vr 1 29 121 85) ∧
    decode 0x854AC3E3 = some (.hmul2Vr 1 43 7 99) ∧
    decode 0x856E4AF1 = some (.hfma2Vr 1 57 21 113) ∧
    decode 0x8591D1FF = some (.hdot2Vr 1 71 35 127) ∧
    decode 0x85B5588D = some (.hmax2Vr 1 85 49 13) ∧
    decode 0x85D8DF9B = some (.hmin2Vr 1 99 63 27) ∧
    decode 0x861C66A9 = some (.padd2sVr 1 113 77 41) ∧
    decode 0x863FEDB7 = some (.psub2sVr 1 127 91 55) ∧
    decode 0x864374C5 = some (.pmul2Vr 1 13 105 69) ∧
    decode 0x8666FBD3 = some (.pmac2Vr 1 27 119 83) ∧
    decode 0x868A42E1 = some (.pmax2Vr 1 41 5 97) ∧
    decode 0x86ADC9EF = some (.pmin2Vr 1 55 19 111) ∧
    decode 0x86D150FD = some (.psrar2Vr 1 69 33 125) ∧
    decode 0x86F4D78B = some (.pack2sVr 1 83 47 11) ∧
    decode 0x87185E80 = some (.unpklo 1 97 61) ∧
    decode 0x073A2200 = some (.unpkhi 0 104 68) := by
  refine ⟨?_, ?_, ?_, ?_, ?_, ?_, ?_, ?_, ?_, ?_, ?_, ?_, ?_, ?_, ?_, ?_, ?_, ?_, ?_, ?_, ?_, ?_, ?_, ?_, ?_⟩ <;> rfl

/-- Words of class VS, their fields placed as the encoding tables of R55 to R73 place them. -/
theorem test_words_vs1 :
    decode 0x081A2220 = some (.addVs 0 104 68 32) ∧
    decode 0x883F6CB5 = some (.subVs 1 125 89 53) ∧
    decode 0x0844B74A = some (.mulVs 0 18 110 74) ∧
    decode 0x8869C1DF = some (.mulhiVs 1 39 3 95) ∧
    decode 0x088F0C74 = some (.mulhuVs 0 60 24 116) ∧
    decode 0x88B45689 = some (.madVs 1 81 45 9) ∧
    decode 0x08D9A11E = some (.andVs 0 102 66 30) ∧
    decode 0x88FEEBB3 = some (.orVs 1 123 87 51) ∧
    decode 0x09043648 = some (.xorVs 0 16 108 72) ∧
    decode 0x892940DD = some (.andnVs 1 37 1 93) ∧
    decode 0x094E8B72 = some (.shlVs 0 58 22 114) ∧
    decode 0x8973D587 = some (.shrVs 1 79 43 7) ∧
    decode 0x0999201C = some (.sraVs 0 100 64 28) ∧
    decode 0x89BE6AB1 = some (.srarVs 1 121 85 49) ∧
    decode 0x09C3B546 = some (.minVs 0 14 106 70) ∧
    decode 0x89E8FFDB = some (.maxVs 1 35 127 91) ∧
    decode 0x0A0E0A70 = some (.minuVs 0 56 20 112) ∧
    decode 0x8A335485 = some (.maxuVs 1 77 41 5) ∧
    decode 0x0A589F1A = some (.addsVs 0 98 62 26) ∧
    decode 0x8A7DE9AF = some (.subsVs 1 119 83 47) ∧
    decode 0x0A833444 = some (.bfxVs 0 12 104 68) ∧
    decode 0x8AA87ED9 = some (.bfiVs 1 33 125 89) ∧
    decode 0x0B110020 = some (.movVs 0 68 32) ∧
    decode 0x8B365A91 = some (.selVs 1 89 53 17) ∧
    decode 0x0B5BA526 = some (.add64Vs 0 110 74 38) ∧
    decode 0x0B7F2C34 = some (.sub64Vs 0 124 88 52) ∧
    decode 0x0B82B342 = some (.shl64Vs 0 10 102 66) ∧
    decode 0x8BA7FDD7 = some (.shr64Vs 1 31 123 87) ∧
    decode 0x0C0D086C = some (.faddVs 0 52 16 108) ∧
    decode 0x0C308F7A = some (.fsubVs 0 66 30 122) := by
  refine ⟨?_, ?_, ?_, ?_, ?_, ?_, ?_, ?_, ?_, ?_, ?_, ?_, ?_, ?_, ?_, ?_, ?_, ?_, ?_, ?_, ?_, ?_, ?_, ?_, ?_, ?_, ?_, ?_, ?_, ?_⟩ <;> rfl

/-- Words of class VS, their fields placed as the encoding tables of R55 to R73 place them. -/
theorem test_words_vs2 :
    decode 0x0C541608 = some (.fmulVs 0 80 44 8) ∧
    decode 0x0C779D16 = some (.ffmaVs 0 94 58 22) ∧
    decode 0x0C9B2424 = some (.fminVs 0 108 72 36) ∧
    decode 0x0CBEAB32 = some (.fmaxVs 0 122 86 50) ∧
    decode 0x0D05B94E = some (.hadd2Vs 0 22 114 78) ∧
    decode 0x0D29005C = some (.hsub2Vs 0 36 0 92) ∧
    decode 0x0D4C876A = some (.hmul2Vs 0 50 14 106) ∧
    decode 0x0D700E78 = some (.hfma2Vs 0 64 28 120) ∧
    decode 0x0D939506 = some (.hdot2Vs 0 78 42 6) ∧
    decode 0x0DB71C14 = some (.hmax2Vs 0 92 56 20) ∧
    decode 0x0DDAA322 = some (.hmin2Vs 0 106 70 34) ∧
    decode 0x0E1E2A30 = some (.padd2sVs 0 120 84 48) ∧
    decode 0x0E21B13E = some (.psub2sVs 0 6 98 62) ∧
    decode 0x0E45384C = some (.pmul2Vs 0 20 112 76) ∧
    decode 0x0E68BF5A = some (.pmac2Vs 0 34 126 90) ∧
    decode 0x0E8C0668 = some (.pmax2Vs 0 48 12 104) ∧
    decode 0x0EAF8D76 = some (.pmin2Vs 0 62 26 118) ∧
    decode 0x0ED31404 = some (.psrar2Vs 0 76 40 4) ∧
    decode 0x0EF69B12 = some (.pack2sVs 0 90 54 18) := by
  refine ⟨?_, ?_, ?_, ?_, ?_, ?_, ?_, ?_, ?_, ?_, ?_, ?_, ?_, ?_, ?_, ?_, ?_, ?_, ?_⟩ <;> rfl

/-- Words of class VI, their fields placed as the encoding tables of R55 to R73 place them. -/
theorem test_words_vi :
    decode 0x901BE5A7 = some (.addVi 1 111 75 39) ∧
    decode 0x1021303C = some (.subVi 0 4 96 60) ∧
    decode 0x90467AD1 = some (.mulVi 1 25 117 81) ∧
    decode 0x106B8566 = some (.mulhiVi 0 46 10 102) ∧
    decode 0x9090CFFB = some (.mulhuVi 1 67 31 123) ∧
    decode 0x10B61A10 = some (.madVi 0 88 52 16) ∧
    decode 0x90DB64A5 = some (.andVi 1 109 73 37) ∧
    decode 0x10E0AF3A = some (.orVi 0 2 94 58) ∧
    decode 0x9105F9CF = some (.xorVi 1 23 115 79) ∧
    decode 0x112B0464 = some (.andnVi 0 44 8 100) ∧
    decode 0x91504EF9 = some (.shlVi 1 65 29 121) ∧
    decode 0x1175990E = some (.shrVi 0 86 50 14) ∧
    decode 0x919AE3A3 = some (.sraVi 1 107 71 35) ∧
    decode 0x11A02E38 = some (.srarVi 0 0 92 56) ∧
    decode 0x91C578CD = some (.minVi 1 21 113 77) ∧
    decode 0x11EA8362 = some (.maxVi 0 42 6 98) ∧
    decode 0x920FCDF7 = some (.minuVi 1 63 27 119) ∧
    decode 0x1235180C = some (.maxuVi 0 84 48 12) ∧
    decode 0x925A62A1 = some (.addsVi 1 105 69 33) ∧
    decode 0x127FAD36 = some (.subsVi 0 126 90 54) ∧
    decode 0x9284F7CB = some (.bfxVi 1 19 111 75) ∧
    decode 0x12AA0260 = some (.bfiVi 0 40 4 96) ∧
    decode 0x9312C027 = some (.movVi 1 75 39) ∧
    decode 0x13381E18 = some (.selVi 0 96 60 24) ∧
    decode 0x938476C9 = some (.shl64Vi 1 17 109 73) ∧
    decode 0x13A9815E = some (.shr64Vi 0 38 2 94) := by
  refine ⟨?_, ?_, ?_, ?_, ?_, ?_, ?_, ?_, ?_, ?_, ?_, ?_, ?_, ?_, ?_, ?_, ?_, ?_, ?_, ?_, ?_, ?_, ?_, ?_, ?_, ?_⟩ <;> rfl

/-- Words of class VC, their fields placed as the encoding tables of R55 to R73 place them. -/
theorem test_words_vc :
    decode 0x995841DF = some (.cmpVv 1 5 3 1 3 95) ∧
    decode 0x19928566 = some (.cmpVs 0 6 2 2 10 102) ∧
    decode 0x980D08ED = some (.cmpVi 1 0 1 4 17 109) ∧
    decode 0x19464C74 = some (.scmp 0 5 0 1 24 116) := by
  refine ⟨?_, ?_, ?_, ?_⟩ <;> rfl

/-- Words of class SR, their fields placed as the encoding tables of R55 to R73 place them. -/
theorem test_words_sr :
    decode 0xA0185BCE = some (.sadd 1 779 487) ∧
    decode 0x203893DC = some (.ssub 0 786 494) ∧
    decode 0xA058CBEA = some (.smul 1 793 501) ∧
    decode 0x207903F8 = some (.sand 0 800 508) ∧
    decode 0xA0993C06 = some (.sor 1 807 515) ∧
    decode 0x20B97414 = some (.sxor 0 814 522) ∧
    decode 0xA0D9AC22 = some (.sshl 1 821 529) ∧
    decode 0x20F9E430 = some (.sshr 0 828 536) ∧
    decode 0xA11A1C3E = some (.ssra 1 835 543) ∧
    decode 0x213A544C = some (.smin 0 842 550) ∧
    decode 0xA15A8C5A = some (.smax 1 849 557) ∧
    decode 0x217AC468 = some (.sminu 0 856 564) ∧
    decode 0xA19AFC76 = some (.smaxu 1 863 571) ∧
    decode 0x21BB3484 = some (.smov 0 870 578) ∧
    decode 0xA1DB6C92 = some (.sadd64 1 877 585) ∧
    decode 0x21FBA4A0 = some (.ssub64 0 884 592) ∧
    decode 0xA21BD824 = some (.sget 1 891 18) ∧
    decode 0x223C10BC = some (.sfromv 0 898 94) ∧
    decode 0xA2404CCA = some (.stov 1 9 613) := by
  refine ⟨?_, ?_, ?_, ?_, ?_, ?_, ?_, ?_, ?_, ?_, ?_, ?_, ?_, ?_, ?_, ?_, ?_, ?_, ?_⟩ <;> rfl

/-- Words of class SI, their fields placed as the encoding tables of R55 to R73 place them. -/
theorem test_words_si :
    decode 0x2839026C = some (.sli 0 912 620) ∧
    decode 0xA8797273 = some (.saddi 1 919 627) ∧
    decode 0x28B9E27A = some (.sandi 0 926 634) ∧
    decode 0xA8FA5281 = some (.sori 1 933 641) ∧
    decode 0x293AC288 = some (.sxori 0 940 648) ∧
    decode 0xA97B300F = some (.sshli 1 947 15) ∧
    decode 0x29BBA016 = some (.sshri 0 954 22) ∧
    decode 0xA9FC101D = some (.ssrai 1 961 29) ∧
    decode 0x2A3C82A4 = some (.smuli 0 968 676) ∧
    decode 0xAA7CFB87 = some (.sld 1 975 11 135) ∧
    decode 0x2ABD628E = some (.sst 0 982 2 142) ∧
    decode 0xAAFDD900 = some (.bbind 1 989 9) := by
  refine ⟨?_, ?_, ?_, ?_, ?_, ?_, ?_, ?_, ?_, ?_, ?_, ?_⟩ <;> rfl

/-- Words of class BR, their fields placed as the encoding tables of R55 to R73 place them. -/
theorem test_words_br :
    decode 0x30000FE4 = some (.br 0 4068) ∧
    decode 0xB16012C7 = some (.bp 1 3 4807) ∧
    decode 0x324012CE = some (.bnp 0 2 4814) ∧
    decode 0xB32012D5 = some (.bq 1 1 4821) ∧
    decode 0x340012DC = some (.bnq 0 0 4828) ∧
    decode 0xB5001007 = some (.call 1 4103) ∧
    decode 0x36000000 = some (.ret 0) := by
  refine ⟨?_, ?_, ?_, ?_, ?_, ?_, ?_⟩ <;> rfl

/-- Words of class CV, their fields placed as the encoding tables of R55 to R73 place them. -/
theorem test_words_cv :
    decode 0xB8057885 = some (.cvtfi 1 21 113 1 1) ∧
    decode 0x38273C00 = some (.cvtfu 0 28 120 0 0) ∧
    decode 0xB848FF83 = some (.cvtif 1 35 127 3) ∧
    decode 0x386A8302 = some (.cvtuf 0 42 6 2) ∧
    decode 0xB88C46E9 = some (.cvtbf 1 49 13 105) ∧
    decode 0x38AE0A00 = some (.cvtfbl 0 56 20) ∧
    decode 0xB8CFCD80 = some (.cvtfbh 1 63 27) ∧
    decode 0x38F19100 = some (.cvthf 0 70 34 0) ∧
    decode 0xB9135485 = some (.cvtfhl 1 77 41 1 1) ∧
    decode 0x39351800 = some (.cvtfhh 0 84 48 0 0) ∧
    decode 0xB956DB80 = some (.rcp 1 91 55) ∧
    decode 0x39789F00 = some (.rsqrt 0 98 62) ∧
    decode 0xB99A6280 = some (.sqrt 1 105 69) ∧
    decode 0x39BC2600 = some (.exp2 0 112 76) ∧
    decode 0xB9DDE980 = some (.log2 1 119 83) ∧
    decode 0x39FFAD00 = some (.sinpi 0 126 90) ∧
    decode 0xBA017080 = some (.cospi 1 5 97) ∧
    decode 0x3A233400 = some (.tanh 0 12 104) ∧
    decode 0xBA44F783 = some (.frnd 1 19 111 3) := by
  refine ⟨?_, ?_, ?_, ?_, ?_, ?_, ?_, ?_, ?_, ?_, ?_, ?_, ?_, ?_, ?_, ?_, ?_, ?_, ?_⟩ <;> rfl

/-- Words of class XL, their fields placed as the encoding tables of R55 to R73 place them. -/
theorem test_words_xl :
    decode 0x4006BB52 = some (.shfl 0 26 118 82) ∧
    decode 0xC0287E99 = some (.shfli 1 33 125 25) ∧
    decode 0x404A0200 = some (.slup 0 40 4 0 0) ∧
    decode 0xC06BC59F = some (.sldn 1 47 11 7 3) ∧
    decode 0x408D890E = some (.bcst 0 54 18 14) ∧
    decode 0xC0AF4080 = some (.ballot 1 61 1) ∧
    decode 0x40C10000 = some (.vany 0 4 0) ∧
    decode 0xC0E0C380 = some (.vall 1 3 7) ∧
    decode 0x41149700 = some (.radd 0 82 46) ∧
    decode 0xC1365A80 = some (.rfadd 1 89 53) ∧
    decode 0x41581E00 = some (.rmax 0 96 60) ∧
    decode 0xC179E180 = some (.rmin 1 103 67) ∧
    decode 0x419BA500 = some (.scan 0 110 74) ∧
    decode 0xC1BD6880 = some (.scanx 1 117 81) ∧
    decode 0x41DF2C00 = some (.matchv 0 124 88) ∧
    decode 0xC1E0C383 = some (.pand 1 3 7 3) ∧
    decode 0x42008302 = some (.por 0 2 6 2) ∧
    decode 0xC2204281 = some (.pxor 1 1 5 1) ∧
    decode 0x42400200 = some (.pnot 0 0 4) ∧
    decode 0xC267C180 = some (.ptov 1 31 3) ∧
    decode 0x42818100 = some (.vtop 0 6 2) ∧
    decode 0xC2AB4482 = some (.pebpk 1 45 9 2) ∧
    decode 0x42CD0802 = some (.pebup 0 52 16 2) ∧
    decode 0xC2EEC000 = some (.mvlk 1 59) ∧
    decode 0x43002100 = some (.ldlk 0 66) := by
  refine ⟨?_, ?_, ?_, ?_, ?_, ?_, ?_, ?_, ?_, ?_, ?_, ?_, ?_, ?_, ?_, ?_, ?_, ?_, ?_, ?_, ?_, ?_, ?_, ?_, ?_⟩ <;> rfl

/-- Words of class MEM, their fields placed as the encoding tables of R55 to R73 place them. -/
theorem test_words_mem :
    decode 0xC824A51F = some (.ldb 1 73 37 1 1 1 1 1) ∧
    decode 0x48682C80 = some (.ldbs 0 80 44 8 0 0 0 0) ∧
    decode 0xC8ABB3FF = some (.ldh 1 87 51 15 1 1 1 1) ∧
    decode 0x48EF3A60 = some (.ldhs 0 94 58 6 0 0 0 0) ∧
    decode 0xC932C1DF = some (.ldw 1 101 65 13 1 1 1 1) ∧
    decode 0x49764840 = some (.ldd 0 108 72 4 0 0 0 0) ∧
    decode 0xC9B9CFBF = some (.ldq 1 115 79 11 1 1 1 1) ∧
    decode 0x49FD5620 = some (.stb 0 122 86 2 0 0) ∧
    decode 0xCA00DD93 = some (.sth 1 1 93 9 1 1) ∧
    decode 0x4A446400 = some (.stw 0 8 100 0 0 0) ∧
    decode 0xCA87EB73 = some (.std 1 15 107 7 1 1) ∧
    decode 0x4ACB72E0 = some (.stq 0 22 114 14 0 0) ∧
    decode 0xCB001D97 = some (.pref 1 29 9 1 1 1) := by
  refine ⟨?_, ?_, ?_, ?_, ?_, ?_, ?_, ?_, ?_, ?_, ?_, ?_, ?_⟩ <;> rfl

/-- Words of class ATM, their fields placed as the encoding tables of R55 to R73 place them. -/
theorem test_words_atm :
    decode 0x50002E38 = some (.aadd 0 0 0 92 56) ∧
    decode 0xD0E1F1BF = some (.amin 1 3 7 99 63) ∧
    decode 0x5143B546 = some (.amax 0 2 14 106 70) ∧
    decode 0xD1A578CD = some (.aminu 1 1 21 113 77) ∧
    decode 0x52073C54 = some (.amaxu 0 0 28 120 84) ∧
    decode 0xD2E8FFDB = some (.aand 1 3 35 127 91) ∧
    decode 0x534A8362 = some (.aor 0 2 42 6 98) ∧
    decode 0xD3AC46E9 = some (.axor 1 1 49 13 105) ∧
    decode 0x540E0A70 = some (.axchg 0 0 56 20 112) ∧
    decode 0xD4EFCDF7 = some (.acas 1 3 63 27 119) ∧
    decode 0x5551917E = some (.afadd 0 2 70 34 126) ∧
    decode 0xD5B35485 = some (.amaxpk 1 1 77 41 5) ∧
    decode 0x5615180C = some (.ahadd2 0 0 84 48 12) := by
  refine ⟨?_, ?_, ?_, ?_, ?_, ?_, ?_, ?_, ?_, ?_, ?_, ?_, ?_⟩ <;> rfl

/-- Words of class SY, their fields placed as the encoding tables of R55 to R73 place them. -/
theorem test_words_sy :
    decode 0xD81CDB00 = some (.jset 1 7 219) ∧
    decode 0x58180080 = some (.jsetAct 0 6) ∧
    decode 0xD834E900 = some (.jadd 1 5 233) ∧
    decode 0x58300080 = some (.jaddAct 0 4) ∧
    decode 0xD84CF700 = some (.jclr 1 3 247) ∧
    decode 0x58480080 = some (.jclrAct 0 2) ∧
    decode 0xD8640000 = some (.join 1 1) ∧
    decode 0x589180C0 = some (.wait 0 560 12 0 0) ∧
    decode 0xD8B744C0 = some (.bara 1 23 275) ∧
    decode 0x58DE4680 = some (.barw 0 30 282) ∧
    decode 0xD8E54840 = some (.barx 1 5 289) ∧
    decode 0x59126000 = some (.tgwa 0 588) ∧
    decode 0xD9329800 = some (.tgwl 1 595) ∧
    decode 0x5952D26C = some (.tgff 0 602 310) ∧
    decode 0xD9730800 = some (.tgclr 1 609) ∧
    decode 0x59980000 = some (.rbacq 0 6) ∧
    decode 0xD9A00000 = some (.rbrel 1) ∧
    decode 0x59D3B000 = some (.cvjoin 0 630) ∧
    decode 0xD9E00000 = some (.cvleave 1) ∧
    decode 0x5A142000 = some (.cvget 0 644) ∧
    decode 0xDA350000 = some (.fence 1 10 2) ∧
    decode 0x5A400000 = some (.exit 0) ∧
    decode 0xDA600000 = some (.yield 1) ∧
    decode 0x5A950000 = some (.jri 0 672) := by
  refine ⟨?_, ?_, ?_, ?_, ?_, ?_, ?_, ?_, ?_, ?_, ?_, ?_, ?_, ?_, ?_, ?_, ?_, ?_, ?_, ?_, ?_, ?_, ?_, ?_⟩ <;> rfl

/-- Words of class EN, their fields placed as the encoding tables of R55 to R73 place them. -/
theorem test_words_en :
    decode 0xE0153800 = some (.cpy 1 679) ∧
    decode 0x60357000 = some (.cpyg 0 686) ∧
    decode 0xE055A800 = some (.cpys 1 693) ∧
    decode 0x6075E000 = some (.cpyf 0 700) ∧
    decode 0xE096180E = some (.orsv 1 707 7) ∧
    decode 0x60A00004 = some (.orel 0 2) ∧
    decode 0xE0D68B5B = some (.qclaim 1 721 429) ∧
    decode 0x60F6C000 = some (.qpub 0 728) ∧
    decode 0xE116FB77 = some (.qtake 1 735 443) ∧
    decode 0x61373000 = some (.qdone 0 742) ∧
    decode 0xE1576B93 = some (.qstat 1 749 457) ∧
    decode 0x6177A000 = some (.droOpen 0 756) ∧
    decode 0xE177DBAF = some (.droOpenStatus 1 763 471) ∧
    decode 0x61981000 = some (.droSend 0 770) ∧
    decode 0xE1984BCB = some (.droSendStatus 1 777 485) ∧
    decode 0x61B88000 = some (.droClose 0 784) ∧
    decode 0xE1B8BBE7 = some (.droCloseStatus 1 791 499) ∧
    decode 0x61D8F3F5 = some (.droMfst 0 798 506) ∧
    decode 0xE1F92800 = some (.droCorr 1 805) ∧
    decode 0x62196000 = some (.asyOpen 0 812) ∧
    decode 0xE2199C1F = some (.asyOpenStatus 1 819 527) ∧
    decode 0x6239D000 = some (.asyPut 0 826) ∧
    decode 0xE23A0C3B = some (.asyPutStatus 1 833 541) ∧
    decode 0x625A4000 = some (.asySeal 0 840) ∧
    decode 0xE25A7C57 = some (.asySealStatus 1 847 555) ∧
    decode 0x627AB465 = some (.asyStat 0 854 562) := by
  refine ⟨?_, ?_, ?_, ?_, ?_, ?_, ?_, ?_, ?_, ?_, ?_, ?_, ?_, ?_, ?_, ?_, ?_, ?_, ?_, ?_, ?_, ?_, ?_, ?_, ?_, ?_⟩ <;> rfl

/-- Words of class MX, their fields placed as the encoding tables of R55 to R73 place them. -/
theorem test_words_mx :
    decode 0x6805C800 = some (.mld 1 1 25) ∧
    decode 0x68220000 = some (.mmul 0 4 0 0) ∧
    decode 0x685D9E00 = some (.mmulsm 7 3 7 1) ∧
    decode 0x68780000 = some (.mclr 6) ∧
    decode 0x68960000 = some (.mbmap 5 1) ∧
    decode 0x68B07000 = some (.mgrp 4 0 28) ∧
    decode 0x68CE7F60 = some (.mret 3 2 1 31 11) ∧
    decode 0x68CA4C10 = some (.mretColl 2 2 1 6) ∧
    decode 0x68F90000 = some (.marv 25) ∧
    decode 0x69000000 = some (.mwait 0) ∧
    decode 0x692713A3 = some (.mset 7 5027) ∧
    decode 0x694E13AA = some (.madd 14 5034) ∧
    decode 0x697513B1 = some (.mbnz 21 5041) ∧
    decode 0x698E0000 = some (.mtag 28) ∧
    decode 0x69A00000 = some (.mend) := by
  refine ⟨?_, ?_, ?_, ?_, ?_, ?_, ?_, ?_, ?_, ?_, ?_, ?_, ?_, ?_, ?_⟩ <;> rfl

/-- Words of class SYS, their fields placed as the encoding tables of R55 to R73 place them. -/
theorem test_words_sys :
    decode 0x700013C6 = some (.trap 0 5062) ∧
    decode 0xF0200000 = some (.tret 1) ∧
    decode 0x70551800 = some (.trep 0 84 48) ∧
    decode 0xF07ED800 = some (.tmask 1 987) ∧
    decode 0x709F1000 = some (.tcause 0 994) ∧
    decode 0xF0B6C500 = some (.segset 1 5 709) ∧
    decode 0x70D2CC00 = some (.segget 0 4 716) ∧
    decode 0xF0E00000 = some (.icinv 1) ∧
    decode 0x71000000 = some (.isync 0) ∧
    decode 0xF1202800 = some (.tlbinv 1 5) ∧
    decode 0x714065D0 = some (.pctr 0 12 744) ∧
    decode 0xF1609800 = some (.clock 1 19) ∧
    decode 0x7180D000 = some (.cycles 0 26) ∧
    decode 0xF1A01421 = some (.brk 1 5153) ∧
    decode 0x71C14000 = some (.ctxsw 0 40) := by
  refine ⟨?_, ?_, ?_, ?_, ?_, ?_, ?_, ?_, ?_, ?_, ?_, ?_, ?_, ?_, ?_⟩ <;> rfl

/-- Words of class HINT, their fields placed as the encoding tables of R55 to R73 place them. -/
theorem test_words_hint :
    decode 0xF800142F = some (.imm 1 5167) ∧
    decode 0x79000036 = some (.immhi 0 54) ∧
    decode 0xFA1F52D1 = some (.modh 1 1 1 117 1 1 1 1 1) ∧
    decode 0x7B00FE58 = some (.safe 0 0 0 508 88) ∧
    decode 0xFC000000 = some (.nop 1) := by
  refine ⟨?_, ?_, ?_, ?_, ?_⟩ <;> rfl

/-! ## Ill-formed terms, and words that the decoder refuses -/

/-- R61, R108: a condition above 7, a type above 4, and un and or with a type other than f32; un with f32 is well formed. -/
theorem test_wf_cmp : Instr.wf (.cmpVv 0 8 0 0 0 0) = false ∧ Instr.wf (.cmpVs 0 0 0 5 0 0) = false ∧ Instr.wf (.cmpVi 0 6 0 0 0 0) = false ∧
    Instr.wf (.scmp 0 7 0 4 0 0) = false ∧ Instr.wf (.cmpVv 0 6 0 2 0 0) = true := by decide
/-- `sget` of a number above 18. -/
theorem test_wf_sget : Instr.wf (.sget 0 0 19) = false ∧ Instr.wf (.sget 0 0 18) = true := by decide
/-- `rbacq` names one of the windows 1 to 6. -/
theorem test_wf_rbacq : Instr.wf (.rbacq 0 0) = false ∧ Instr.wf (.rbacq 0 7) = false ∧ Instr.wf (.rbacq 0 6) = true := by decide
/-- `fence` has the scopes 1 to 10 and the kinds 0 to 2. -/
theorem test_wf_fence : Instr.wf (.fence 0 0 0) = false ∧ Instr.wf (.fence 0 11 0) = false ∧ Instr.wf (.fence 0 1 3) = false ∧ Instr.wf (.fence 0 10 2) = true := by decide
/-- A segment record of number 6 or 7 is none. -/
theorem test_wf_seg : Instr.wf (.segset 0 6 0) = false ∧ Instr.wf (.segget 0 7 0) = false ∧ Instr.wf (.segget 0 5 0) = true := by decide
/-- Format 3 of a block is none. -/
theorem test_wf_peb : Instr.wf (.pebpk 0 0 0 3) = false ∧ Instr.wf (.pebup 0 0 0 3) = false ∧ Instr.wf (.pebup 0 0 0 2) = true := by decide
/-- R70: formats of `mret`. -/
theorem test_wf_mret : Instr.wf (.mret 0 3 0 0 0) = false ∧ Instr.wf (.mret 0 2 3 0 0) = false ∧ Instr.wf (.mretColl 0 1 1 0) = false ∧ Instr.wf (.mretColl 0 2 2 0) = true := by decide
/-- An event has no word. -/
theorem test_wf_event : Instr.wf .teamPlacement = false ∧ Instr.wf (.grant 0) = false := by decide
/-- The words of the ill-formed terms are reserved: a compare, a window, a scope, a kind, a format, a record. -/
theorem test_reserved_fields :
    decode 0x9A1841DF = none ∧ decode 0x999841DF = none ∧ decode 0x995941DF = none ∧ decode 0x599C0000 = none ∧ decode 0x59800000 = none ∧
    decode 0x5A360000 = none ∧ decode 0x5A358000 = none ∧ decode 0x5A200000 = none ∧ decode 0xC2AB4483 = none ∧ decode 0xF0BAC500 = none ∧
    decode 0x68CF7F60 = none ∧ decode 0x68CEFF60 = none ∧ decode 0x68CD7F60 = none := by
  refine ⟨?_, ?_, ?_, ?_, ?_, ?_, ?_, ?_, ?_, ?_, ?_, ?_, ?_⟩ <;> rfl
/-- A word of zeros is `add v0, v0, v0`; a word of ones is reserved. -/
theorem test_zeros_and_ones : decode 0 = some (.addVr 0 0 0 0) ∧ decode 0xFFFFFFFF = none := ⟨rfl, rfl⟩
/-- A word lies in memory low byte first, and reads back from there. -/
theorem test_word_bytes : wordBytes 0x80185E99 = [0x99, 0x5E, 0x18, 0x80] ∧ bytesWord (wordBytes 0x80185E99) = some 0x80185E99 := by decide

end Sys2Proof

namespace Sys2Proof.Machine

/-! ## Small states -/

/-- A state in which lanes 0 and 31 of group 1 issue, with the thread registers and the uniform registers given. -/
def tinyGroup (a b : List (Nat × Word)) (u : List (Nat × Word)) : Group := { Group.blank with
  lanes := [(0, { Thread.init with
    st := .ready
    v := a }), (31, { Thread.init with
    st := .ready
    v := b })]
  s := u }

/-- The device with that group alone. -/
def tiny (G : Group) : State := { State.reset with
  groups := [(1, G)]
  cur := .path 1 false 0 0x80000001 }

/-- Group 1 after one instruction. -/
noncomputable def after (i : Instr) (G : Group) : Group :=
  match exec i (tiny G) with
  | .next t => (t.group? 1).getD Group.blank
  | _ => Group.blank

/-- Register `d` and TSR of lane 0 after one instruction, its registers given. -/
noncomputable def lane0 (i : Instr) (d : Nat) (a u : List (Nat × Word)) : Word × Word :=
  let G := after i (tinyGroup a [] u)
  ((G.lane 0).v.get d 0, (G.lane 0).tsr)

/-! ## The manual's examples -/

/-- R100: ⌊(−24 + 8) ÷ 16⌋ = −1. -/
theorem test_srar : lane0 (.srarVi 0 3 2 4) 3 [(2, 0xFFFFFFE8)] [] = (0xFFFFFFFF, 0) := by decide
/-- R103: the sum of two register pairs. -/
theorem test_add64 : lane0 (.add64Vr 0 10 2 4) 11 [(2, 0xFFFFFFFF), (3, 1), (4, 1), (5, 0)] [] = (2, 0) := by decide
/-- R79: a clamp sets SAT. -/
theorem test_adds : lane0 (.addsVr 0 1 2 3) 1 [(2, 0x7FFFFFFF), (3, 1)] [] = (0x7FFFFFFF, flagSAT) := by decide
/-- R99: the destination is read before it is written. -/
theorem test_mad : lane0 (.madVr 0 1 1 1) 1 [(1, 3)] [] = (12, 0) := by decide
/-- R99: bits 63:32 of the signed product. -/
theorem test_mulhi : lane0 (.mulhiVr 0 1 2 3) 1 [(2, 0xFFFFFFFF), (3, 2)] [] = (0xFFFFFFFF, 0) := by decide
/-- R101: fields of up to 32 bits. -/
theorem test_bfx : lane0 (.bfxVr 0 1 2 3) 1 [(2, 0x89ABCDEF), (3, 0x108)] [] = (0xCD, 0) := by decide
/-- R84: an exact subnormal product sets no flag. -/
theorem test_fmul_subnormal : lane0 (.fmulVr 0 3 1 2) 3 [(1, 0x0D800000), (2, 0x30800000)] [] = (0x00080000, 0) := by decide
/-- R84: a tiny inexact product sets UF and IX. -/
theorem test_fmul_tiny : lane0 (.fmulVr 0 3 1 2) 3 [(1, 0x0D800001), (2, 0x30800000)] [] = (0x00080000, flagUF ||| flagIX) := by decide
/-- R136: a tie to even under rn. -/
theorem test_fadd_rn : lane0 (.faddVr 0 2 0 1) 2 [(0, 0x3F800000), (1, 0x33800000)] [] = (0x3F800000, flagIX) := by decide
/-- R86: ∞ − ∞ sets IV. -/
theorem test_fsub_inf : lane0 (.fsubVr 0 2 0 1) 2 [(0, 0x7F800000), (1, 0x7F800000)] [] = (0x7FC00000, flagIV) := by decide
/-- R88: −0 is less than +0. -/
theorem test_fmin_zero : lane0 (.fminVr 0 2 0 1) 2 [(0, 0), (1, 0x80000000)] [] = (0x80000000, 0) := by decide
/-- R92, R138: one rounding of a sum of products. -/
theorem test_hdot2 : lane0 (.hdot2Vr 0 10 6 7) 10 [(6, 0x40003F80), (7, 0x40404000), (10, 0x3F000000)] [] = (0x41080000, 0) := by decide
/-- R95: one element clamps. -/
theorem test_padd2s : lane0 (.padd2sVr 0 7 5 6) 7 [(5, 0x7FF00005), (6, 0x0020FFFE)] [] = (0x7FFF0003, flagSAT) := by decide
/-- R142: SAT is judged on the final sum. -/
theorem test_pmac2 : lane0 (.pmac2Vr 0 12 4 5) 12 [(4, 0x00020003), (5, 0x00040005), (12, 0x7FFFFFF0)] [] = (0x7FFFFFFF, flagSAT) := by decide
/-- R142: one count for both elements, from a uniform register. -/
theorem test_psrar2 : lane0 (.psrar2Vs 0 3 3 2) 3 [(3, 0x7FFFFFF8)] [(2, 4)] = (0x08000000, 0) := by decide
/-- R144: rz with SAT above the range. -/
theorem test_cvtfi_sat : lane0 (.cvtfi 0 6 2 1 1) 6 [(2, 0x4F000000)] [] = (0x7FFFFFFF, flagIV ||| flagSAT) := by decide
/-- R144: −2.5 under rd. -/
theorem test_cvtfi_rd : lane0 (.cvtfi 0 6 2 0 2) 6 [(2, 0xC0200000)] [] = (0xFFFFFFFD, flagIX) := by decide
/-- R145: 16,777,217 under ru. -/
theorem test_cvtif_ru : lane0 (.cvtif 0 1 2 3) 1 [(2, 16777217)] [] = (0x4B800001, flagIX) := by decide
/-- R146: two elements rounded to even. -/
theorem test_cvtbf : lane0 (.cvtbf 0 9 4 5) 9 [(4, 0x3F808000), (5, 0x3F818000)] [] = (0x3F823F80, flagIX) := by decide
/-- R147: 70,000.0 clamps into the high half. -/
theorem test_cvtfhh : lane0 (.cvtfhh 0 3 7 1 3) 3 [(3, 0x12345678), (7, 0x4788B800)] [] = (0x7BFF5678, flagSAT ||| flagIX) := by decide
/-- R105: −3 is below −1. -/
theorem test_cmp : ((after (.cmpVi 0 2 2 0 5 0x7F) (tinyGroup [(5, 0xFFFFFFFD)] [(5, 0xFFFFFFFF)] [])).lane 0).p = 4 ∧
    ((after (.cmpVi 0 2 2 0 5 0x7F) (tinyGroup [(5, 0xFFFFFFFD)] [(5, 0xFFFFFFFF)] [])).lane 31).p = 0 := by decide
/-- R203: a source lane outside the path gives 0. -/
theorem test_shfli : lane0 (.shfli 0 6 5 1) 6 [(5, 7)] [] = (0, 0) := by decide
/-- R204: wrap from lane 31. -/
theorem test_slup_wrap : ((after (.slup 0 7 6 1 2) (tinyGroup [(6, 5)] [(6, 9)] [])).lane 0).v.get 7 0 = 9 := by decide
/-- R204: without a mod hint the fill register is s0 (R75). -/
theorem test_sldn_fill : ((after (.sldn 0 7 6 2 3) (tinyGroup [(6, 5)] [(6, 9)] [(0, 0xAAAA)])).lane 31).v.get 7 0 = 0xAAAA := by decide
/-- R205: the mask of the lanes that hold the predicate. -/
theorem test_match : lane0 (.matchv 0 1 2) 1 [(2, 0)] [] = (0x80000001, 0) := by decide
/-- R209: the field words of lanes 0 and 5. -/
theorem test_pebpk : (let xs := (List.range 16).map fun j => some (([0x40400000, 0xBE800000, 0, 0, 0x3DCCCCCD, 0x3E4CCCCD] : List Word).getD j 0)
    (pebPack 1 xs).1 = 0x80 ∧ (pebPack 1 xs).2.map (pebField 1 0x80) = [0x800C, 0x8011, 0x8000, 0x8000, 0x38003, 0x38006, 0x38000, 0x38000,
      0x38000, 0x38000, 0x38000, 0x38000, 0x38000, 0x38000, 0x38000, 0x38000]) := by decide
/-- R209: 3 × 2^−5 and 6 × 2^−5. -/
theorem test_pebup : pebUnfield 1 0x38003 = 0x3DC00000 ∧ pebUnfield 1 0x38006 = 0x3E400000 := by decide
/-- R109: the destination of a uniform form is its first source. -/
theorem test_sadd : (after (.sadd 0 300 12) (tinyGroup [] [] [(12, 0xFFFFFFFF), (300, 5)])).s.get 300 0 = 4 := by decide
/-- R63: `sli` sign-extends. -/
theorem test_sli : (after (.sli 0 3 0xFFF) (tinyGroup [] [] [])).s.get 3 0 = 0xFFFFFFFF := by decide
/-- R114: 32 bytes before the branch, and the next word. -/
theorem test_bq : ((after (.bq 0 1 0x1FFFF8) { tinyGroup [] [] [] with q := 2 }).lane 0).pc = 0xFFFFFFE0 ∧
    ((after (.bq 0 0 0x1FFFF8) { tinyGroup [] [] [] with q := 2 }).lane 0).pc = 4 := by decide
/-- R114: `call` saves the address of the next word. -/
theorem test_call : ((after (.call 0 16) (tinyGroup [] [] [])).lane 31).lk = 4 ∧ ((after (.call 0 16) (tinyGroup [] [] [])).lane 31).pc = 0x40 := by decide
/-- R115: a target whose low bits are not zero traps with the fetch-bounds detail; with no handler its launch fails (R388). -/
theorem test_jri_traps : (after (.jri 0 20) (tinyGroup [] [] [(20, 2)])).trapQ.map (·.cause) = [causeWord 1 1 0] := by decide
/-- R119: the record of the example, low word first. -/
theorem test_bbind : (after (.bbind 0 16 0) (tinyGroup [] [] [(16, 0x00100000), (17, 0x02A80000), (18, 0x20000004), (19, 8)])).b.get 0 0 =
    0x000000082000000402A8000000100000 := by decide
/-- R14, R58: a register above the held range is the illegal-register trap, in front of the instruction. -/
theorem test_register_trap : (after (.addVr 0 32 1 1) (tinyGroup [] [] [])).trapQ.map (fun e => (e.cause, e.pc)) = [(causeWord 3 0 0, 0)] := by decide
/-- R423: `segset` in user mode is the privilege trap. -/
theorem test_privilege_trap : (after (.segset 0 0 4) (tinyGroup [] [] [])).trapQ.map (·.cause) = [causeWord 2 0 0] := by decide
/-- R222: `yield` gives up the next cycle. -/
theorem test_yield : (after (.yield 0) (tinyGroup [] [] [])).skip = true ∧ (after (.yield 0) (tinyGroup [] [] [])).run = 64 := by decide
/-- R212: a rejoin mask names no thread that has exited. -/
theorem test_jset : (after (.jsetAct 0 2) (tinyGroup [] [] [])).j.get 2 0 = 0x80000001 := by decide
/-- R323, events E1 and E2: a claim, and one that fails and changes nothing. -/
theorem test_queue_claim : (let q : QRec := { QRec.init with en := true, lns := 2, free := 2, done := 8, head := 12, pub := 12, tail := 14 }
    let r := q.serve ⟨6, 1, 40, 0, 1, 0, 0x105, 1, 0, some 1⟩
    (r.1.tail, r.1.free, r.2.1) = (15, 1, 14) ∧ r.1.serve ⟨6, 1, 3, 0, 1, 0, 0x105, 2, 0, some 1⟩ = (r.1, 0x80000001, false)) := by decide
/-- R323, events E3 and E4: slot 14 is published first, and PUB passes all three with slots 12 and 13. -/
theorem test_queue_publish : (let q : QRec := { QRec.init with en := true, lns := 2, free := 1, done := 8, head := 12, pub := 12, tail := 15 }
    let r := q.serve ⟨7, 1, 40, 0, 1, 0, 0x105, 1, 14, none⟩
    r.1.pub = 12 ∧ (r.1.serve ⟨7, 1, 9, 0, 1, 0, 0x105, 2, 12, none⟩).1.pub = 15) := by decide
/-- R247: the home of the sector at 0x20_0040_2A80. -/
theorem test_home : homeDie (0x2000402A80 / 64) = 1 ∧ homeUnit (0x2000402A80 / 64) = 10 := by decide
/-- R261: the marshal of the example's key. -/
theorem test_marshal : marshalDie 0x0000004200000001 = 2 := by decide
/-- R475, event E3: the scale 2.5 ÷ 5, the total, and CLIP. -/
theorem test_commit : (let a : Assay := { Assay.init with
      c := 3
      ne := 4
      alim := 0x40200000
      slots := [(0, { Slot.init with
        st := 2
        nsq := 0x41C80000
        vals := [(0, 0x40400000), (2, 0x40800000)] })] }
    let b := a.commit 0 false
    (b.slot 0).scale = 0x3F000000 ∧
      (List.range 4).map (fun j => b.total.get j 0) = [0x3FC00000, 0, 0x40000000, 0] ∧ b.ast = astCLIP ∧ b.amf = 1) := by decide
/-- An event that is not due is refused by its name. -/
theorem test_not_pending : exec (.registerBlockGrant 0 0) State.reset = .refused (.notPending "REGISTER_BLOCK_GRANT") := rfl
/-- A word without an issuer is none of the machine's steps. -/
theorem test_no_issuer : exec (.yield 0) State.reset = .fault .noIssuer := rfl
/-- R406: a walk through four levels of a table ends in the leaf's page; the same entry with bit 12 set is malformed (cause 4, level 1). -/
theorem test_walk : State.reset.walkEntry 0 0x7F00403ABC .read 0 1 0x0000001234600007 ⟨[], []⟩ =
    .ok 0x1234603ABC ⟨[⟨0, 1, 0x7F00403ABC / pageSize 1, 0x0000001234600007⟩], []⟩ ∧
    State.reset.walkEntry 0 0x7F00403ABC .read 0 1 0x0000001234601007 ⟨[], []⟩ = .fault 4 1 ⟨[], []⟩ := by decide

/-! ## States that meet the hypotheses of the statements

Each `witness_` theorem shows, for the statement that it is named after, states and operands that meet the hypotheses of its clauses. -/

/-- The path of `tiny G`. -/
def tinyCtx (G : Group) : Ctx := ⟨1, G, false, 0, 0x80000001, Hints.clear, 0, 0⟩

/-- An instruction that does not wait issues where its path is there and its checks pass. -/
theorem issues_plain {s : State} {c : Ctx} (i : Info) (h : s.context? = some c) (ha : c.alike = true) (hf : c.G.full c.mask = false) (hw : i.w = false)
    (hb : i.blocking = false) (hc : i.check c s = none) : Issues i s c s := by
  refine ⟨c, h, ha, ?_, ?_, fun _ => hf, ?_, ?_⟩ <;> simp [hw, hb, hc, Ctx.ready, State.ready]

/-- A blocking instruction without W issues where no result of its threads is out. -/
theorem issues_blocking {s : State} {c : Ctx} (i : Info) (h : s.context? = some c) (ha : c.alike = true) (hf : c.G.full c.mask = false)
    (hq : c.G.waits c.mask = false ∧ c.G.late c.mask = false)
    (hw : i.w = false) (hb : i.blocking = true) (hc : i.check c s = none) : Issues i s c.waited (s.waited c) := by
  refine ⟨c, h, ha, fun _ => hq, ?_, fun _ => hf, ?_, ?_⟩ <;> simp [hw, hb, hc, Ctx.ready, State.ready]

/-- With W it issues where no result of its threads is out. -/
theorem issues_waiting {s : State} {c : Ctx} (i : Info) (h : s.context? = some c) (ha : c.alike = true) (hf : c.G.full c.mask = false)
    (hq : c.G.waits c.mask = false ∧ c.G.late c.mask = false)
    (hw : i.w = true) (hb : i.blocking = false) (hc : i.check c.waited (s.waited c) = none) : Issues i s c.waited (s.waited c) := by
  refine ⟨c, h, ha, fun _ => hq, ?_, fun _ => hf, ?_, ?_⟩ <;> simp [hw, hb, hc, Ctx.ready, State.ready]

/-- Lanes 0 and 31 of group 1 issue, with nothing out. -/
def wG : Group := tinyGroup [] [] []

theorem wPlain (i : Info) (hw : i.w = false) (hb : i.blocking = false) (hc : i.check (tinyCtx wG) (tiny wG) = none) :
    Issues i (tiny wG) (tinyCtx wG) (tiny wG) := issues_plain i rfl rfl rfl hw hb hc

/-- With W too. -/
theorem witness_waits : Issues (infoVR 1 31 0 31) (tiny wG) (tinyCtx wG).waited ((tiny wG).waited (tinyCtx wG)) :=
  issues_waiting _ rfl rfl rfl ⟨rfl, rfl⟩ rfl rfl (by decide)
theorem witness_IntegerVrResults : Issues (infoVR 0 31 0 31) (tiny wG) (tinyCtx wG) (tiny wG) := wPlain _ rfl rfl (by decide)
theorem witness_IntegerVsResults : Issues (infoVS 0 31 0 127) (tiny wG) (tinyCtx wG) (tiny wG) := wPlain _ rfl rfl (by decide)
theorem witness_IntegerViResults : Issues (infoVI 0 31 0) (tiny wG) (tinyCtx wG) (tiny wG) := wPlain _ rfl rfl (by decide)
theorem witness_MovesAndSelects :
    Issues (infoV2 0 0 31) (tiny wG) (tinyCtx wG) (tiny wG) ∧
    Issues { w := flag1 0, regs := [.v (31 : BitVec 7).toNat 1 1, .s (127 : BitVec 7).toNat 1 1] } (tiny wG) (tinyCtx wG) (tiny wG) ∧
    Issues { infoV1 0 31 with
      imm := true
      immhi := true } (tiny wG) (tinyCtx wG) (tiny wG) ∧
    Issues ((infoVR 0 31 0 1).allow modPSEL) (tiny wG) (tinyCtx wG) (tiny wG) ∧
    Issues ((infoVS 0 31 0 127).allow modPSEL) (tiny wG) (tinyCtx wG) (tiny wG) ∧
    Issues ((infoVI 0 31 0).allow modPSEL) (tiny wG) (tinyCtx wG) (tiny wG) :=
  ⟨wPlain _ rfl rfl (by decide), wPlain _ rfl rfl (by decide), wPlain _ rfl rfl (by decide), wPlain _ rfl rfl (by decide),
    wPlain _ rfl rfl (by decide), wPlain _ rfl rfl (by decide)⟩
theorem witness_SixtyFourBitResults :
    Issues (infoVR 0 30 0 28 2) (tiny wG) (tinyCtx wG) (tiny wG) ∧ Issues (infoVS 0 30 0 126 2) (tiny wG) (tinyCtx wG) (tiny wG) ∧
    Issues { w := flag1 0, regs := [.v (30 : BitVec 7).toNat 2 2, .v (0 : BitVec 7).toNat 2 2, .v (31 : BitVec 7).toNat 1 1] } (tiny wG) (tinyCtx wG) (tiny wG) ∧
    Issues { w := flag1 0, regs := [.v (30 : BitVec 7).toNat 2 2, .v (0 : BitVec 7).toNat 2 2, .s (127 : BitVec 7).toNat 1 1] } (tiny wG) (tinyCtx wG) (tiny wG) ∧
    Issues { w := flag1 0, imm := true, immhi := true, regs := [.v (30 : BitVec 7).toNat 2 2, .v (0 : BitVec 7).toNat 2 2] } (tiny wG) (tinyCtx wG) (tiny wG) :=
  ⟨wPlain _ rfl rfl (by decide), wPlain _ rfl rfl (by decide), wPlain _ rfl rfl (by decide), wPlain _ rfl rfl (by decide), wPlain _ rfl rfl (by decide)⟩
theorem witness_Fp32Results :
    Issues ((infoVR 0 31 0 1).allow modRND) (tiny wG) (tinyCtx wG) (tiny wG) ∧ Issues ((infoVS 0 31 0 127).allow modRND) (tiny wG) (tinyCtx wG) (tiny wG) ∧
    Issues (infoV2 0 31 0) (tiny wG) (tinyCtx wG) (tiny wG) := ⟨wPlain _ rfl rfl (by decide), wPlain _ rfl rfl (by decide), wPlain _ rfl rfl (by decide)⟩
theorem witness_PackedPairResults : Issues (infoVR 0 31 31 31) (tiny wG) (tinyCtx wG) (tiny wG) ∧ Issues (infoVS 0 0 31 127) (tiny wG) (tinyCtx wG) (tiny wG) ∧
    Issues (infoV2 0 31 0) (tiny wG) (tinyCtx wG) (tiny wG) := ⟨wPlain _ rfl rfl (by decide), wPlain _ rfl rfl (by decide), wPlain _ rfl rfl (by decide)⟩
theorem witness_ConversionResults : Issues (infoV2 0 31 0) (tiny wG) (tinyCtx wG) (tiny wG) ∧ Issues (infoVR 0 31 0 0) (tiny wG) (tinyCtx wG) (tiny wG) :=
  ⟨wPlain _ rfl rfl (by decide), wPlain _ rfl rfl (by decide)⟩
theorem witness_LongLatencyStarts : Issues (infoV2 0 31 0).late (tiny wG) (tinyCtx wG) (tiny wG) := wPlain _ rfl rfl (by decide)
theorem witness_CompareResults :
    Issues { w := flag1 0, regs := [.v (30 : BitVec 7).toNat (cmpRegs 4) (cmpRegs 4), .v (31 : BitVec 7).toNat 1 1] } (tiny wG) (tinyCtx wG) (tiny wG) ∧
    Issues { w := flag1 0, regs := [.v (31 : BitVec 7).toNat (cmpRegs 0) (cmpRegs 0), .s (127 : BitVec 7).toNat 1 1] } (tiny wG) (tinyCtx wG) (tiny wG) ∧
    Issues { w := flag1 0, imm := true, immhi := true, regs := [.v (31 : BitVec 7).toNat (cmpRegs 2) (cmpRegs 2)] } (tiny wG) (tinyCtx wG) (tiny wG) ∧
    Issues { w := flag1 0, regs := [.s (126 : BitVec 7).toNat (cmpRegs 3) (cmpRegs 3), .s (0 : BitVec 7).toNat (cmpRegs 3) (cmpRegs 3)] } (tiny wG) (tinyCtx wG) (tiny wG) :=
  ⟨wPlain _ rfl rfl (by decide), wPlain _ rfl rfl (by decide), wPlain _ rfl rfl (by decide), wPlain _ rfl rfl (by decide)⟩
theorem witness_LaneMoveResults : Issues (infoVR 0 31 0 1) (tiny wG) (tinyCtx wG) (tiny wG) ∧ Issues (infoV2 0 31 0) (tiny wG) (tinyCtx wG) (tiny wG) ∧
    Issues (infoSlide 0 31 0 2) (tiny wG) (tinyCtx wG) (tiny wG) ∧ Issues (infoSlide 0 31 0 3) (tiny wG) (tinyCtx wG) (tiny wG) :=
  ⟨wPlain _ rfl rfl (by decide), wPlain _ rfl rfl (by decide), wPlain _ rfl rfl (by decide), wPlain _ rfl rfl (by decide)⟩
theorem witness_FillWithoutHint : Issues (infoSlide 0 31 0 3) (tiny wG) (tinyCtx wG) (tiny wG) ∧ (tinyCtx wG).hints.modh = none :=
  ⟨wPlain _ rfl rfl (by decide), rfl⟩
theorem witness_VoteAndPredicateResults :
    Issues { w := flag1 0, regs := [.s (127 : BitVec 7).toNat 1 1] } (tiny wG) (tinyCtx wG) (tiny wG) ∧ Issues (infoNone 0) (tiny wG) (tinyCtx wG) (tiny wG) ∧
    Issues (infoV1 0 31) (tiny wG) (tinyCtx wG) (tiny wG) ∧ Issues (infoV2 0 0 31) (tiny wG) (tinyCtx wG) (tiny wG) :=
  ⟨wPlain _ rfl rfl (by decide), wPlain _ rfl rfl (by decide), wPlain _ rfl rfl (by decide), wPlain _ rfl rfl (by decide)⟩
theorem witness_BlockFormatAndLinkResults : Issues (infoV2 0 31 0) (tiny wG) (tinyCtx wG) (tiny wG) ∧ Issues (infoV1 0 31) (tiny wG) (tinyCtx wG) (tiny wG) :=
  ⟨wPlain _ rfl rfl (by decide), wPlain _ rfl rfl (by decide)⟩
theorem witness_UniformResults :
    Issues (infoS2 0 1023 0) (tiny wG) (tinyCtx wG) (tiny wG) ∧ Issues (infoS2 0 1022 0 2) (tiny wG) (tinyCtx wG) (tiny wG) ∧
    Issues { infoS1 0 1023 1 1 with
      imm := true
      immhi := true } (tiny wG) (tinyCtx wG) (tiny wG) ∧ Issues (infoS1 0 1023 1 1) (tiny wG) (tinyCtx wG) (tiny wG) :=
  ⟨wPlain _ rfl rfl (by decide), wPlain _ rfl rfl (by decide), wPlain _ rfl rfl (by decide), wPlain _ rfl rfl (by decide)⟩

/-- A hint word stands before the path: a mod hint with CLR set. -/
def wClr : Group := { wG with lanes := [(0, { Thread.init with
  st := .ready
  hints := { Hints.clear with modh := some (0, 0x80000) } }), (31, { Thread.init with
  st := .ready
  hints := { Hints.clear with modh := some (0, 0x80000) } })] }
/-- Its path. -/
def wClrC : Ctx := ⟨1, wClr, false, 0, 0x80000001, { Hints.clear with modh := some (0, 0x80000) }, 0, 0⟩
/-- A group whose threads are in the handler. -/
def wH : Handler := ⟨⟨0x80000001, 0, 0, 4, 0, false⟩, [⟨0, [], 0, 0, 0, 0⟩, ⟨31, [], 0, 0, 0, 0⟩], [], 0, 0, 0, [], segMake 0 63 true, 0, Hints.clear, true, false⟩
def wHG : Group := { wG with
  hnd := some wH
  lanes := [(0, { Thread.init with
    st := .ready
    hnd := true }), (31, { Thread.init with
    st := .ready
    hnd := true })] }
/-- The device with it. -/
def wHS : State := { State.reset with
  groups := [(1, wHG)]
  cur := .path 1 true 0 0x80000001 }
/-- Its path. -/
def wHC : Ctx := ⟨1, wHG, true, 0, 0x80000001, Hints.clear, 0, 0⟩
/-- The device with function 0 privileged. -/
def wPS : State := { tiny wG with vfs := [(0, { Vf.init with
  priv := true
  en := true
  hcl := 64 })] }

theorem witness_SystemReadResults :
    Issues (infoS1 0 1023 1 1) (tiny wG) (tinyCtx wG) (tiny wG) ∧
    (Issues ((infoS1 0 1023 1 1).allow modCLR) (tiny wG) (tinyCtx wG) (tiny wG) ∧ (tinyCtx wG).hints.clr = false) ∧
    (Issues ((infoS1 0 1023 1 1).allow modCLR) (tiny wClr) wClrC (tiny wClr) ∧ wClrC.hints.clr = true) ∧
    (Issues { w := flag1 0, regs := [.s (1023 : BitVec 10).toNat 1 1, .v (31 : BitVec 7).toNat 1 1] } (tiny wG) (tinyCtx wG) (tiny wG) ∧ (tinyCtx wG).mask ≠ 0) ∧
    Issues { w := flag1 0, regs := [.v (31 : BitVec 7).toNat 1 1, .s (1023 : BitVec 10).toNat 1 1] } (tiny wG) (tinyCtx wG) (tiny wG) ∧
    Issues (infoS1 0 1020 4 4).bare (tiny wG) (tinyCtx wG) (tiny wG) ∧ Issues (infoS1 0 1022 2 2).bare (tiny wG) (tinyCtx wG) (tiny wG) ∧
    Issues { (infoS1 0 1023 1 1).bare with handler := true } wHS wHC wHS ∧ Issues { (infoS1 0 1022 2 2).bare with handler := true } wHS wHC wHS :=
  ⟨wPlain _ rfl rfl (by decide), ⟨wPlain _ rfl rfl (by decide), rfl⟩, ⟨issues_plain _ rfl rfl rfl rfl rfl (by decide), rfl⟩,
    ⟨wPlain _ rfl rfl (by decide), by decide⟩, wPlain _ rfl rfl (by decide), wPlain _ rfl rfl (by decide), wPlain _ rfl rfl (by decide),
    issues_plain _ rfl rfl rfl rfl rfl (by decide), issues_plain _ rfl rfl rfl rfl rfl (by decide)⟩

/-- s4 to s7 hold a record that passes its check, s8 to s11 one that does not. -/
def wRG : Group := tinyGroup [] [] [(5, 0x02A80000), (6, 0x20000004), (7, 8), (9, 0x80000000), (11, 2)]
/-- The device with it, privileged. -/
def wRS : State := { wPS with groups := [(1, wRG)] }

theorem witness_RecordAndSegmentWrites :
    (Issues (infoS1 0 4 4 4) (tiny wRG) (tinyCtx wRG) (tiny wRG) ∧ recOk ((tinyCtx wRG).rs4 4) = true) ∧
    (Issues (infoS1 0 8 4 4) (tiny wRG) (tinyCtx wRG) (tiny wRG) ∧ recOk ((tinyCtx wRG).rs4 8) = false) ∧
    (Issues { (infoS1 0 0 4 4).bare with priv := true } wRS (tinyCtx wRG) wRS ∧ segOk 0 ((tinyCtx wRG).rs4 0) = true) ∧
    (Issues { (infoS1 0 8 4 4).bare with priv := true } wRS (tinyCtx wRG) wRS ∧ segOk 5 ((tinyCtx wRG).rs4 8) = false) :=
  ⟨⟨issues_plain _ rfl rfl rfl rfl rfl (by decide), by decide⟩, ⟨issues_plain _ rfl rfl rfl rfl rfl (by decide), by decide⟩,
    ⟨issues_plain _ rfl rfl rfl rfl rfl (by decide), by decide⟩, ⟨issues_plain _ rfl rfl rfl rfl rfl (by decide), by decide⟩⟩

/-- s20 and s21 hold targets of `jri`: one whose low bits are zero, and one whose low bits are not. -/
def wJG : Group := tinyGroup [] [] [(20, 0xFFFFFFFC), (21, 1)]
theorem witness_BranchTargets :
    Issues (infoNone 0).bare (tiny wJG) (tinyCtx wJG) (tiny wJG) ∧ (tinyCtx wJG).mask ≠ 0 ∧
    (Issues (infoS1 0 20 1 1).bare (tiny wJG) (tinyCtx wJG) (tiny wJG) ∧ (tinyCtx wJG).rs 20 &&& 3 = 0) ∧
    (Issues (infoS1 0 21 1 1).bare (tiny wJG) (tinyCtx wJG) (tiny wJG) ∧ (tinyCtx wJG).rs 21 &&& 3 ≠ 0) :=
  ⟨issues_plain _ rfl rfl rfl rfl rfl (by decide), by decide, ⟨issues_plain _ rfl rfl rfl rfl rfl (by decide), by decide⟩,
    ⟨issues_plain _ rfl rfl rfl rfl rfl (by decide), by decide⟩⟩

/-- A team of one group, and one that pre-emption has asked to stop. -/
def wT : Team := oneTeam false 1 1
def wTS (G : Group) : State := { tiny G with
  teams := [(0, wT)]
  vfs := [(0, { Vf.init with
    en := true
    hcl := 64 })] }
def wStop (G : Group) : State := { tiny G with teams := [(0, { wT with pre := .asked 0 })] }

/-- A hint word takes its effect. -/
theorem words_plain {s : State} {c : Ctx} (h : s.context? = some c) : IssuesWord (flag1 0) s c s := ⟨c, h, (by intro h; cases h), rfl, rfl⟩
theorem words_waiting {s : State} {c : Ctx} (h : s.context? = some c) (hq : c.G.waits c.mask = false ∧ c.G.late c.mask = false) : IssuesWord true s c.waited (s.waited c) :=
  ⟨c, h, fun _ => hq, rfl, rfl⟩
theorem witness_HintWords :
    IssuesWord (flag1 0) (tiny wG) (tinyCtx wG) (tiny wG) ∧
    (IssuesWord true (tiny wG) (tinyCtx wG).waited ((tiny wG).waited (tinyCtx wG)) ∧ (32 : BitVec 7).toNat ≤ (tinyCtx wG).waited.G.held ∧
      ((tiny wG).waited (tinyCtx wG)).stopping (tinyCtx wG).waited.G.team = false ∧ ¬((33 : BitVec 7) = 127 ∨ (33 : BitVec 7).toNat ≤ (tinyCtx wG).waited.G.held)) ∧
    (IssuesWord true (wStop wG) (tinyCtx wG).waited ((wStop wG).waited (tinyCtx wG)) ∧ (tinyCtx wG).waited.mask ≠ 0 ∧ (0 : BitVec 7).toNat ≤ (tinyCtx wG).waited.G.held ∧
      ((wStop wG).waited (tinyCtx wG)).stopping (tinyCtx wG).waited.G.team = true) :=
  ⟨words_plain rfl, ⟨words_waiting rfl ⟨rfl, rfl⟩, by decide, by decide, by decide⟩, ⟨words_waiting rfl ⟨rfl, rfl⟩, by decide, by decide, by decide⟩⟩

/-- A group with descriptors in its uniform registers and records for the scratchpad (b3), for lists (b1) and for the engines (b2). -/
def wEG : Group := { tinyGroup [] [] [(12, 0x100), (15, 0x00100001), (16, 0x10000), (17, 0x7FFFFFFF), (18, 0x3FF), (20, 0x00100000), (56, 0x200), (64, 0x200000),
    (80, 65535), (82, 1), (86, 0x201), (96, 1), (104, 0x10000000)] with
  b := [(1, 0x00200000000000), (2, BitVec.ofNat 128 (6 * 2 ^ 51)), (3, BitVec.ofNat 128 (2 ^ 48 + 4 * 2 ^ 64 + 8 * 2 ^ 96))]
  seg := [(1, segMake 0 255 true)] }
/-- The same with the type of b1 n32. -/
def wEG1 : Group := { wEG with b := [(1, BitVec.ofNat 128 (4 * 2 ^ 51)), (2, BitVec.ofNat 128 (6 * 2 ^ 51)), (3, BitVec.ofNat 128 (2 ^ 48 + 4 * 2 ^ 64 + 8 * 2 ^ 96))] }
/-- Its team, with all tags and 64 KiB of operand buffer, and its launch, whose record has LID 1. -/
def wET : Team := { oneTeam false 1 1 with
  tagN := 64
  obufN := 65536
  spadN := 4096 }
def wEL : Launch := ⟨0, { oneLaunch false with xgen := 6 }, .running, none, false, 1, [], 0, false, 0, [], some 0⟩
/-- The device with them, function 0 privileged and with a handler. -/
def wES (G : Group) : State := { tiny G with
  teams := [(0, wET)]
  launches := [(1, wEL)]
  vfs := [(0, { Vf.init with
    priv := true
    en := true
    hcl := 64 })] }

theorem wE {G : Group} (i : Info) (hc0 : (wES G).context? = some (tinyCtx G)) (ha : (tinyCtx G).alike = true) (hf : (tinyCtx G).G.full (tinyCtx G).mask = false) (hw : i.w = false)
    (hb : i.blocking = false) (hc : i.check (tinyCtx G) (wES G) = none) : Issues i (wES G) (tinyCtx G) (wES G) := issues_plain i hc0 ha hf hw hb hc

/-- What the accesses of the witnesses ask. -/
def wAsk (k : AccKind) (n : Nat) (w : Want) (d : Option Dst) (x : Nat → List Byte) : Asked :=
  { kind := k, record := wEG1.bufRec 3, width := n, want := w, idx := [(0, 0), (31, 0)], dst := d, data := x }
def wGoes (k : AccKind) (n : Nat) (w : Want) : Prop :=
  let q := wAsk k n w none fun _ => []
  (q.plan (tinyCtx wEG1) (wES wEG1)).goes q.record ∧ (q.plan (tinyCtx wEG1) (wES wEG1)).peer = false ∧ (q.plan (tinyCtx wEG1) (wES wEG1)).good.length = 2
theorem wGoes_load (n : Nat) (h : n = 1 ∨ n = 2 ∨ n = 4 ∨ n = 8 ∨ n = 16) : wGoes .load n .read := by
  rcases h with h | h | h | h | h <;> subst h <;> exact ⟨⟨by decide, by decide⟩, by decide, by decide⟩

theorem witness_ThreadLoads :
    (Issues { w := flag1 0, var := true, imm := true, mods := modSCP ||| modORD ||| modLC3, ords := [0, 1], regs := [.v (31 : BitVec 7).toNat 1 1, .v (0 : BitVec 7).toNat 1 1] } (wES wEG1) (tinyCtx wEG1) (wES wEG1) ∧
      ¬((1 : BitVec 1) = 1 ∧ (tinyCtx wEG1).G.cvm.state = 1) ∧ wGoes .load 1 .read ∧ wGoes .load 4 .read) ∧
    (Issues { w := flag1 0, var := true, imm := true, mods := modSCP ||| modORD ||| modLC3, ords := [0, 1], regs := [.v (30 : BitVec 7).toNat 2 2, .v (0 : BitVec 7).toNat 1 1] } (wES wEG1) (tinyCtx wEG1) (wES wEG1) ∧ wGoes .load 8 .read) ∧
    (Issues { w := flag1 0, var := true, imm := true, mods := modSCP ||| modORD ||| modLC3, ords := [0, 1], regs := [.v (28 : BitVec 7).toNat 4 4, .v (0 : BitVec 7).toNat 1 1] } (wES wEG1) (tinyCtx wEG1) (wES wEG1) ∧ wGoes .load 16 .read) :=
  ⟨⟨wE _ rfl rfl rfl rfl rfl (by decide), by decide, wGoes_load 1 (by decide), wGoes_load 4 (by decide)⟩, ⟨wE _ rfl rfl rfl rfl rfl (by decide), wGoes_load 8 (by decide)⟩,
    ⟨wE _ rfl rfl rfl rfl rfl (by decide), wGoes_load 16 (by decide)⟩⟩

/-- An attached group at a position, whose convoy of slip 1 has its minimum at 0. -/
def wCG (pos : Nat) : Group := { wEG1 with cvm := { Cvm.init with
  state := 1
  pos := pos } }
def wCS (G : Group) : State := { wES G with dies := [(0, { Die.init with convoys := [(0, ⟨0, 1, 2, 0, [⟨1, G.cvm.pos, true, false⟩], false, none⟩)] })] }
/-- A group whose threads have been given the step of the load at PC 0 already. -/
def wCGs : Group := { wCG 0 with lanes := List.map (fun (x : Nat × Thread) => (x.1, { x.2 with cstep := some 0 })) (wCG 0).lanes }
/-- What a C load of a word asks. -/
def wAskC : Asked := { wAsk .load 4 .read (some (.v 31 1)) fun _ => [] with cload := true }
def wLoads (G : Group) : Prop :=
  Issues { w := flag1 0, var := true, imm := true, mods := modSCP ||| modORD ||| modLC3, ords := [0, 1], regs := [.v (31 : BitVec 7).toNat 1 1, .v (0 : BitVec 7).toNat 1 1] } (wCS G) (tinyCtx G) (wCS G) ∧
  (tinyCtx G).G.cvm.state = 1 ∧ (wCS G).holds (tinyCtx G).G = false ∧ (wAskC.plan (tinyCtx G) (wCS G)).goes wAskC.record ∧
  (wAskC.plan (tinyCtx G) (wCS G)).peer = false
theorem witness_ConvoyLoads :
    (wLoads (wCG 0) ∧ ∃ l, (tinyCtx (wCG 0)).has l = true ∧ ((tinyCtx (wCG 0)).G.lane l).cstep ≠ some (tinyCtx (wCG 0)).pc) ∧
    (wLoads wCGs ∧ ∀ l, (tinyCtx wCGs).has l = true → ((tinyCtx wCGs).G.lane l).cstep = some (tinyCtx wCGs).pc) ∧
    (Issues { w := flag1 0, var := true, imm := true, mods := modSCP ||| modORD ||| modLC3, ords := [0, 1], regs := [.v (28 : BitVec 7).toNat 4 4, .v (0 : BitVec 7).toNat 1 1] } (wCS (wCG 1)) (tinyCtx (wCG 1)) (wCS (wCG 1)) ∧
      (tinyCtx (wCG 1)).G.cvm.state = 1 ∧ (wCS (wCG 1)).holds (tinyCtx (wCG 1)).G = true ∧ (tinyCtx (wCG 1)).G.cvm.held = false ∧
      (wCS (wCG 1)).stopping (tinyCtx (wCG 1)).G.team = false) := by
  refine ⟨⟨⟨issues_plain _ rfl rfl rfl rfl rfl (by decide), rfl, by decide, ⟨by decide, by decide⟩, by decide⟩, 0, by decide, by decide⟩,
    ⟨⟨issues_plain _ rfl rfl rfl rfl rfl (by decide), rfl, by decide, ⟨by decide, by decide⟩, by decide⟩, fun l h => ?_⟩,
    issues_plain _ rfl rfl rfl rfl rfl (by decide), rfl, by decide, rfl, rfl⟩
  have : l = 0 ∨ l = 31 := by
    have : l < 32 := BitVec.lt_of_getLsbD h
    have k : ∀ l < 32, (tinyCtx wCGs).has l = true → l = 0 ∨ l = 31 := by decide
    exact k l this h
  rcases this with h | h <;> subst h <;> rfl

theorem witness_ThreadStores :
    (Issues { w := flag1 0, imm := true, mods := modSCP ||| modORD, ords := [0, 2], regs := [.v (31 : BitVec 7).toNat 1 1, .v (0 : BitVec 7).toNat 1 1] } (wES wEG1) (tinyCtx wEG1) (wES wEG1) ∧
      ((wAsk .store 4 .write none fun _ => []).plan (tinyCtx wEG1) (wES wEG1)).goes (wEG1.bufRec 3) ∧ ((wAsk .store 4 .write none fun _ => []).plan (tinyCtx wEG1) (wES wEG1)).peer = false) ∧
    (Issues { w := flag1 0, imm := true, mods := modSCP ||| modORD, ords := [0, 2], regs := [.v (28 : BitVec 7).toNat 4 4, .v (0 : BitVec 7).toNat 1 1] } (wES wEG1) (tinyCtx wEG1) (wES wEG1) ∧
      ((wAsk .store 16 .write none fun _ => []).plan (tinyCtx wEG1) (wES wEG1)).goes (wEG1.bufRec 3) ∧ ((wAsk .store 16 .write none fun _ => []).plan (tinyCtx wEG1) (wES wEG1)).peer = false) :=
  ⟨⟨wE _ rfl rfl rfl rfl rfl (by decide), ⟨by decide, by decide⟩, by decide⟩, ⟨wE _ rfl rfl rfl rfl rfl (by decide), ⟨by decide, by decide⟩, by decide⟩⟩

theorem witness_AtomicsGoOut :
    (Issues { w := flag1 0, var := true, mods := modSCP ||| modORD ||| modWID, ords := [0, 1, 2, 3], regs := [.v (31 : BitVec 7).toNat 1 1, .v (0 : BitVec 7).toNat 1 1, .v (1 : BitVec 7).toNat 1 1] } (wES wEG1) (tinyCtx wEG1) (wES wEG1) ∧
      recSpace (wEG1.bufRec 3) ≠ 3 ∧ ((wAsk (.atomic 0 false) 4 .atomic none fun _ => []).plan (tinyCtx wEG1) (wES wEG1)).goes (wEG1.bufRec 3) ∧
      ((wAsk (.atomic 0 false) 4 .atomic none fun _ => []).plan (tinyCtx wEG1) (wES wEG1)).peer = false) ∧
    Issues { w := flag1 0, var := true, mods := modSCP ||| modORD ||| modWID, ords := [0, 1, 2, 3], regs := [.v (31 : BitVec 7).toNat 1 1, .v (0 : BitVec 7).toNat 1 1, .v (30 : BitVec 7).toNat (2 * 1) (2 * 1)] } (wES wEG1) (tinyCtx wEG1) (wES wEG1) ∧
    Issues { w := flag1 0, var := true, mods := modSCP ||| modORD ||| 0, ords := [0, 1, 2, 3], regs := [.v (31 : BitVec 7).toNat 1 1, .v (0 : BitVec 7).toNat 1 1, .v (1 : BitVec 7).toNat 1 1] } (wES wEG1) (tinyCtx wEG1) (wES wEG1) :=
  ⟨⟨wE _ rfl rfl rfl rfl rfl (by decide), by decide, ⟨by decide, by decide⟩, by decide⟩, wE _ rfl rfl rfl rfl rfl (by decide), wE _ rfl rfl rfl rfl rfl (by decide)⟩

/-- A uniform access through b3. -/
def wUni (k : AccKind) (w : Want) : Asked := { kind := k, record := wEG1.bufRec 3, width := 4, want := w, idx := (tinyCtx wEG1).uniIndex 7, uniform := true }
theorem witness_UniformAccesses :
    (Issues { w := flag1 0, var := true, imm := true, regs := [.s (1023 : BitVec 10).toNat 1 1] } (wES wEG1) (tinyCtx wEG1) (wES wEG1) ∧
      ((wUni .load .read).plan (tinyCtx wEG1) (wES wEG1)).goes (wEG1.bufRec 3) ∧ ((wUni .load .read).plan (tinyCtx wEG1) (wES wEG1)).peer = false) ∧
    (Issues { w := flag1 0, imm := true, regs := [.s (0 : BitVec 10).toNat 1 1] } (wES wEG1) (tinyCtx wEG1) (wES wEG1) ∧
      ((wUni .store .write).plan (tinyCtx wEG1) (wES wEG1)).goes (wEG1.bufRec 3) ∧ ((wUni .store .write).plan (tinyCtx wEG1) (wES wEG1)).peer = false) :=
  ⟨⟨wE _ rfl rfl rfl rfl rfl (by decide), ⟨by decide, by decide⟩, by decide⟩, ⟨wE _ rfl rfl rfl rfl rfl (by decide), ⟨by decide, by decide⟩, by decide⟩⟩

theorem witness_PrefetchChangesNothingElse : Issues { w := flag1 0, imm := true, mods := modLC3, regs := [.v (31 : BitVec 7).toNat 1 1] } (wES wEG1) (tinyCtx wEG1) (wES wEG1) :=
  wE _ rfl rfl rfl rfl rfl (by decide)

theorem wB {G : Group} (i : Info) (h : (wES G).context? = some (tinyCtx G)) (ha : (tinyCtx G).alike = true) (hf : (tinyCtx G).G.full (tinyCtx G).mask = false)
    (hq : (tinyCtx G).G.waits (tinyCtx G).mask = false ∧ (tinyCtx G).G.late (tinyCtx G).mask = false) (hw : i.w = false)
    (hb : i.blocking = true) (hc : i.check (tinyCtx G) (wES G) = none) : Issues i (wES G) (tinyCtx G).waited ((wES G).waited (tinyCtx G)) := issues_blocking i h ha hf hq hw hb hc

theorem witness_RejoinMasks : Issues (infoS1 0 1023 1 1).bare (wES wEG1) (tinyCtx wEG1) (wES wEG1) ∧ Issues (infoNone 0).bare (wES wEG1) (tinyCtx wEG1) (wES wEG1) ∧
    Issues (infoNone 0).bare.block (wES wEG1) (tinyCtx wEG1).waited ((wES wEG1).waited (tinyCtx wEG1)) :=
  ⟨wE _ rfl rfl rfl rfl rfl (by decide), wE _ rfl rfl rfl rfl rfl (by decide), wB _ rfl rfl rfl ⟨rfl, rfl⟩ rfl rfl (by decide)⟩

theorem witness_BlockingInstructions :
    let c := (tinyCtx wEG1).waited
    let t := (wES wEG1).waited (tinyCtx wEG1)
    Issues (infoS1 0 1023 1 1).bare.block (wES wEG1) c t ∧
    (Issues (infoS1 0 80 1 1).bare.block (wES wEG1) c t ∧ (c.rs 80).toNat < 65536 ∧ c.G.quiet c.mask t.now = true) ∧
    (Issues (infoTag 0 82).block (wES wEG1) c t ∧ t.tagsOk c.G (c.rs2 82) = true ∧ c.rs2 82 ≠ 0) ∧
    (Issues (infoNone 0).bare.block (wES wEG1) c t ∧ c.G.ext = 0 ∧ c.G.rbReq = false ∧
      (6 : BitVec 3).toNat ≤ (match (t.team? c.G.team).bind t.recOf with | some r => r.budgetOf c.G.idx | none => 0)) ∧
    (Issues (infoS1 0 84 4 4).bare.block (wES wEG1) c t ∧ c.G.cvm.state ≠ 1 ∧ c.G.joinDesc = none ∧ (cvDesc (c.rsn 84 4)).isSome = true) ∧
    Issues (infoNone 0).bare (wES wEG1) (tinyCtx wEG1) (wES wEG1) ∧
    (Issues { (infoS1 0 88 4 4).bare.block with priv := true } (wES wEG1) c t ∧
      let x := fun i => (c.rs (88 + i)).toNat
      x 0 % 4096 = 0 ∧ x 1 < 65536 ∧ x 3 < 64 ∧ (t.vf (x 3)).en = true ∧ (x 1 * 2 ^ 32 + x 0) / 4096 + x 2 ≤ 2 ^ 36) ∧
    (Issues { w := flag1 0, var := true, blocking := true, noHint := true, regs := [.s (1023 : BitVec 10).toNat 1 1, .s (8 * (13 : BitVec 7).toNat) (2 * ((0 : BitVec 2).toNat + 1)) 1] } (wES wEG1) c t ∧
      [t.condOf c.G (c.rs 104) (c.rs 105)].mapM id = some [.bar 0 false] ∧
      (([((c.rs 104, c.rs 105), WCond.bar 0 false)]).foldl (fun p x => Placed.add p c x.1.1 x.2) ⟨t, [], [], false⟩).stop = false) := by
  refine ⟨wB _ rfl rfl rfl ⟨rfl, rfl⟩ rfl rfl (by decide), ⟨wB _ rfl rfl rfl ⟨rfl, rfl⟩ rfl rfl (by decide), by decide, by decide⟩, ⟨wB _ rfl rfl rfl ⟨rfl, rfl⟩ rfl rfl (by decide), by decide, by decide⟩,
    ⟨wB _ rfl rfl rfl ⟨rfl, rfl⟩ rfl rfl (by decide), rfl, rfl, by decide⟩, ⟨wB _ rfl rfl rfl ⟨rfl, rfl⟩ rfl rfl (by decide), by decide, rfl, by decide⟩, wE _ rfl rfl rfl rfl rfl (by decide),
    ⟨wB _ rfl rfl rfl ⟨rfl, rfl⟩ rfl rfl (by decide), by decide, by decide, by decide, by decide, by decide⟩, ⟨wB _ rfl rfl rfl ⟨rfl, rfl⟩ rfl rfl (by decide), by decide, by decide⟩⟩

theorem witness_SynchronizationResults :
    let c := tinyCtx wEG1
    let t := wES wEG1
    (Issues (infoS1 0 80 1 1).bare t c t ∧ (c.rs 80).toNat < 65536 ∧ c.G.quiet c.mask t.now = true) ∧
    (Issues (infoTag 0 82) t c t ∧ t.tagsOk c.G (c.rs2 82) = true) ∧
    Issues { w := flag1 0, var := true, noHint := true, regs := [.s (1023 : BitVec 10).toNat 1 1, .s (82 : BitVec 10).toNat 2 2] } t c t ∧
    (Issues (infoNone 0).bare t c t ∧ (c.G.pend.any fun p => match p.dst with | .v b n => decide (b + n > 32) | .s _ _ => false) = false) ∧
    Issues (infoS1 0 1022 2 1).bare.late t c t ∧ Issues { (infoS1 0 1023 1 1).bare with var := true } t c t ∧
    (Issues { (infoS1 0 92 4 4).bare with priv := true } t c t ∧
      let x := fun i => (c.rs (92 + i)).toNat
      x 2 < 64 ∧ x 3 = 0 ∧ (t.vf (x 2)).en = true ∧ t.teamNamed (x 2) (x 1) (x 0) = none) ∧
    (Issues { (infoS1 0 96 4 4).bare with priv := true } t c t ∧
      let x := fun i => (c.rs (96 + i)).toNat
      x 2 < 64 ∧ x 3 = 0 ∧ (t.vf (x 2)).en = true ∧ t.teamNamed (x 2) (x 1) (x 0) = some (0, wET) ∧ t.team? 0 = some wET) := by
  refine ⟨⟨wE _ rfl rfl rfl rfl rfl (by decide), by decide, by decide⟩, ⟨wE _ rfl rfl rfl rfl rfl (by decide), by decide⟩, wE _ rfl rfl rfl rfl rfl (by decide), ⟨wE _ rfl rfl rfl rfl rfl (by decide), rfl⟩,
    wE _ rfl rfl rfl rfl rfl (by decide), wE _ rfl rfl rfl rfl rfl (by decide), ⟨wE _ rfl rfl rfl rfl rfl (by decide), by decide, by decide, by decide, by decide⟩,
    ⟨wE _ rfl rfl rfl rfl rfl (by decide), by decide, by decide, by decide, by decide, rfl⟩⟩

/-- `cvleave` of an attached group, of one that was detached in this tick for a cause of lower priority, and of one that is in no convoy. -/
def wCvD (cause : Nat) : Group := { wEG1 with cvm := { Cvm.init with
  state := 2
  cause := cause } }
theorem witness_SynchronizationResults_cvleave :
    (Issues (infoNone 0).bare (wCS (wCG 0)) (tinyCtx (wCG 0)) (wCS (wCG 0)) ∧ (wCG 0).cvm.state = 1) ∧
    (Issues (infoNone 0).bare (wCS (wCvD 1)) (tinyCtx (wCvD 1)) (wCS (wCvD 1)) ∧ (wCvD 1).cvm.state = 2 ∧ (wCvD 1).cvAt = (wCS (wCvD 1)).now ∧ (wCvD 1).cvm.cause < 3) ∧
    (Issues (infoNone 0).bare (wCS (wCvD 3)) (tinyCtx (wCvD 3)) (wCS (wCvD 3)) ∧ (wCvD 3).cvm.state ≠ 1 ∧ 3 ≤ (wCvD 3).cvm.cause) ∧
    (Issues (infoNone 0).bare (wES wEG1) (tinyCtx wEG1) (wES wEG1) ∧ wEG1.cvm.state ≠ 1 ∧ wEG1.cvm.state ≠ 2) :=
  ⟨⟨issues_plain _ rfl rfl rfl rfl rfl (by decide), rfl⟩, ⟨issues_plain _ rfl rfl rfl rfl rfl (by decide), rfl, by decide, by decide⟩,
    ⟨issues_plain _ rfl rfl rfl rfl rfl (by decide), by decide, by decide⟩, issues_plain _ rfl rfl rfl rfl rfl (by decide), by decide, by decide⟩

theorem witness_CopyAndQueueCommands :
    let c := tinyCtx wEG1
    let t := wES wEG1
    t.copyHeld = false ∧ (Issues (infoS1 0 4 4 4).bare t c t ∧ (t.core c.G.core).xcnt < 32 ∧ t.copyCheck c.G (c.rsn 4 4) (copyOf t c 0 (c.rsn 4 4)) = none ∧ t.copyCheck c.G (c.rsn 4 4) (copyOf t c 3 (c.rsn 4 4)) = none) ∧
    (Issues (infoS1 0 12 4 4).bare t c t ∧ t.copyCheck c.G (c.rsn 12 4) (copyOf t c 1 (c.rsn 12 4)) = none ∧ t.copyCheck c.G (c.rsn 12 4) (copyOf t c 2 (c.rsn 12 4)) = none) ∧
    (Issues { w := flag1 0, var := true, noHint := true, regs := [.s (16 : BitVec 10).toNat 1 1, .s (1023 : BitVec 10).toNat 1 1] } t c t ∧ queueDesc false (c.rs 16) = some (0, 1)) ∧
    (Issues { w := flag1 0, var := true, noHint := true, regs := [.s (18 : BitVec 10).toNat 1 1, .s (0 : BitVec 10).toNat 1 1] } t c t ∧ queueDesc true (c.rs 18) = some (1023, 0)) ∧
    (Issues { w := flag1 0, noHint := true, regs := [.s (16 : BitVec 10).toNat 2 1] } t c t ∧ queueDesc false (c.rs 16) = some (0, 1) ∧ (c.rs 17).toNat < 2 ^ 31) ∧
    (Issues (infoS1 0 20 4 4).bare t c t ∧ rsvOk (c.rs4 20) (match t.team? c.G.team with | some T => T.obufN | none => 0) = true) ∧ Issues (infoNone 0).bare t c t := by
  refine ⟨by decide, ⟨wE _ rfl rfl rfl rfl rfl (by decide), by decide, by decide, by decide⟩, ⟨wE _ rfl rfl rfl rfl rfl (by decide), by decide, by decide⟩, ⟨wE _ rfl rfl rfl rfl rfl (by decide), by decide⟩,
    ⟨wE _ rfl rfl rfl rfl rfl (by decide), by decide⟩, ⟨wE _ rfl rfl rfl rfl rfl (by decide), by decide, by decide⟩, ⟨wE _ rfl rfl rfl rfl rfl (by decide), by decide⟩, wE _ rfl rfl rfl rfl rfl (by decide)⟩

theorem witness_EngineCommands :
    let c := tinyCtx wEG1
    let t := wES wEG1
    t.xHeld = false ∧ t.xOut c.G.core < 64 ∧
    (Issues (infoX 0 24 9 4) t c t ∧ droOpenCheck t c (c.rsn 24 9) = none) ∧ Issues (infoXd 0 24 9 4 1023 1 1) t c t ∧
    (Issues (infoX 0 56 4 4) t c t ∧ droSendCheck t c (c.rsn 56 4) = none) ∧ Issues (infoXd 0 56 4 4 0 1 1) t c t ∧
    (Issues (infoX 0 24 1 1) t c t ∧ droObjCheck t c (c.rsn 24 1) = none) ∧ Issues (infoXd 0 24 1 1 992 32 32) t c t ∧
    (Issues (infoX 0 24 2 2) t c t ∧ droCorrCheck t c (c.rsn 24 2) = none) ∧
    (Issues (infoX 0 24 10 4) t c t ∧ asyOpenCheck t c (c.rsn 24 10) = none) ∧ Issues (infoXd 0 24 10 4 1023 1 1) t c t ∧
    (Issues (infoX 0 64 7 8) t c t ∧ asyPutCheck t c (c.rsn 64 7) = none) ∧ Issues (infoXd 0 64 7 8 1023 1 1) t c t ∧
    (Issues (infoX 0 24 6 8) t c t ∧ asySealCheck t c (c.rsn 24 6) = none) ∧ Issues (infoXd 0 24 6 8 1023 1 1) t c t ∧
    (Issues (infoXd 0 24 1 1 1023 1 1) t c t ∧ asyStatCheck 1023 t c (c.rsn 24 1) = none) := by
  refine ⟨by decide, by decide, ⟨?_, by decide⟩, ?_, ⟨?_, by decide⟩, ?_, ⟨?_, by decide⟩, ?_, ⟨?_, by decide⟩, ⟨?_, by decide⟩, ?_, ⟨?_, by decide⟩, ?_, ⟨?_, by decide⟩, ?_, ⟨?_, by decide⟩⟩ <;>
    exact wE _ rfl rfl rfl rfl rfl (by decide)

/-! ### Traps, exits and the handler -/

/-- The path, and lane 1 which is elsewhere. -/
def wX (hnd : Option Handler) (w : Bool) : Group := { wG with
  hnd := hnd
  werr := w
  lanes := [(0, { Thread.init with st := .ready }), (1, { Thread.init with
    st := .ready
    pc := 64 }), (31, { Thread.init with st := .ready })] }
/-- A team of groups 1 and 2, the second of which has not ended. -/
def wX2 : State := { tiny wG with
  groups := [(1, wG), (2, { wG with slot := 1 })]
  teams := [(0, { oneTeam false 1 1 with groups := [1, 2] })]
  vfs := [(0, { Vf.init with hcl := 64 })] }
/-- The handler path of lanes 0 and 31, with lane 5 of the same handler elsewhere where `more` holds, and lane 1 outside the handler. -/
def wHH (more : Bool) : Handler := { wH with lanes := [⟨0, [], 0, 0, 0, 0⟩, ⟨31, [], 0, 0, 0, 0⟩] ++ if more then [⟨5, [], 0, 0, 0, 0⟩] else [] }
def wHX (more : Bool) : Group := { wG with
  hnd := some (wHH more)
  lanes := [(0, { Thread.init with
    st := .ready
    hnd := true }), (1, { Thread.init with st := .faulted }), (5, { Thread.init with
    st := .ready
    hnd := more
    pc := 8 }), (31, { Thread.init with
    st := .ready
    hnd := true })] }
def wHXS (G : Group) : State := { tiny G with cur := .path 1 true 0 0x80000001 }
def wHXC (G : Group) : Ctx := ⟨1, G, true, 0, 0x80000001, Hints.clear, 0, 0⟩
/-- The handler path of a fault of the matrix stream, which has no lanes. -/
def wQH : Handler := { wH with
  trap := ⟨0, 0, 0, 0, 7, true⟩
  lanes := [] }
def wQG : Group := { wG with hnd := some wQH }
def wQS : State := { wTS wQG with cur := .path 1 true 0 0 }
def wQC : Ctx := ⟨1, wQG, true, 0, 0, Hints.clear, 0, 0⟩

theorem exits_finish {m : Word} {G0 G : Group} (h : Exits m G0 G) (l : Nat) (hl : m.getLsbD l = true) : (G.lane l).st = .exited := by
  have := h.2.2 l; rw [if_pos hl] at this; rw [this]

theorem witness_ThreadsTrapAndExit :
    (Issues (infoNone 0).bare (wTS wG) (tinyCtx wG) (wTS wG) ∧ (tinyCtx wG).h = false ∧ ((wTS wG).vf (tinyCtx wG).G.vf).hcl ≠ 0 ∧ (wTS wG).debugger = false) ∧
    (Issues (infoNone 0).bare { wTS wG with debugger := true } (tinyCtx wG) { wTS wG with debugger := true } ∧ (tinyCtx wG).mask ≠ 0) ∧
    (let s := tiny (wX none false)
     let c := (tinyCtx (wX none false)).waited
     Issues (infoNone 0).bare.block s c (s.waited (tinyCtx (wX none false))) ∧ c.G.werr = false ∧ c.mask ≠ 0 ∧ c.G.liveMask &&& ~~~c.mask ≠ 0 ∧
       ∀ H G, c.G.hnd = some H → Exits c.mask c.G G → H.finished G = false) ∧
    (let s := wHXS (wHX true)
     let c := (wHXC (wHX true)).waited
     Issues (infoNone 0).bare.block s c (s.waited (wHXC (wHX true))) ∧ c.G.werr = false ∧ c.mask ≠ 0 ∧ c.G.liveMask &&& ~~~c.mask ≠ 0 ∧
       c.G.hnd = some (wHH true) ∧ ∀ G, Exits c.mask c.G G → (wHH true).finished G = false) ∧
    (let s := wHXS (wHX false)
     let c := (wHXC (wHX false)).waited
     Issues (infoNone 0).bare.block s c (s.waited (wHXC (wHX false))) ∧ c.G.werr = false ∧ c.mask ≠ 0 ∧ c.G.liveMask &&& ~~~c.mask ≠ 0 ∧
       c.G.hnd = some (wHH false) ∧ ∀ G, Exits c.mask c.G G → (wHH false).finished G = true) ∧
    (let c := (tinyCtx wG).waited
     Issues (infoNone 0).bare.block wX2 c (wX2.waited (tinyCtx wG)) ∧ c.G.werr = false ∧ c.mask ≠ 0 ∧ c.G.liveMask &&& ~~~c.mask = 0 ∧
       ∃ T, (wX2.waited (tinyCtx wG)).team? c.G.team = some T ∧
         (∃ g H, g ∈ T.groups ∧ g ≠ c.g ∧ (wX2.waited (tinyCtx wG)).group? g = some H ∧ H.ended = false) ∧
         ∀ g H, g ∈ T.groups → (wX2.waited (tinyCtx wG)).group? g = some H → ((wX2.waited (tinyCtx wG)).vf H.vf).hcl ≠ 0) ∧
    (let c := wQC.waited
     Issues (infoNone 0).bare.block wQS c (wQS.waited wQC) ∧ c.G.werr = false ∧ c.mask = 0 ∧ c.G.hnd = some wQH) ∧
    (let c := (tinyCtx (wX none true)).waited
     Issues (infoNone 0).bare.block (wTS (wX none true)) c ((wTS (wX none true)).waited (tinyCtx (wX none true))) ∧ c.G.werr = true ∧ c.h = false ∧
       (((wTS (wX none true)).waited (tinyCtx (wX none true))).vf c.G.vf).hcl ≠ 0) := by
  refine ⟨⟨issues_plain _ rfl rfl rfl rfl rfl (by decide), rfl, by decide, rfl⟩, ⟨issues_plain _ rfl rfl rfl rfl rfl (by decide), by decide⟩,
    ⟨issues_blocking _ rfl rfl rfl ⟨rfl, rfl⟩ rfl rfl (by decide), rfl, by decide, by decide, fun H G h => nomatch h⟩,
    ⟨issues_blocking _ rfl rfl rfl ⟨rfl, rfl⟩ rfl rfl (by decide), rfl, by decide, by decide, rfl, fun G h => ?_⟩,
    ⟨issues_blocking _ rfl rfl rfl ⟨rfl, rfl⟩ rfl rfl (by decide), rfl, by decide, by decide, rfl, fun G h => ?_⟩,
    ⟨issues_blocking _ rfl rfl rfl ⟨rfl, rfl⟩ rfl rfl (by decide), rfl, by decide, by decide, _, rfl, ⟨2, _, by decide, by decide, rfl, rfl⟩, fun g H h1 h2 => ?_⟩,
    ⟨issues_blocking _ rfl rfl rfl ⟨rfl, rfl⟩ rfl rfl (by decide), rfl, by decide, rfl⟩,
    ⟨issues_blocking _ rfl rfl rfl ⟨rfl, rfl⟩ rfl rfl (by decide), rfl, rfl, by decide⟩⟩
  · have h5 : (G.lane 5).st = .ready := by
      have := h.2.2 5; rw [if_neg (by decide)] at this; rw [this]; rfl
    simp [Handler.finished, wHH, wH, h5]
  · simp [Handler.finished, wHH, wH, exits_finish h 0 (by decide), exits_finish h 31 (by decide)]
  · rcases List.mem_cons.1 h1 with h1 | h1
    · subst h1; cases h2; decide
    · cases List.mem_singleton.1 h1; cases h2; decide

theorem witness_HandlerReturns :
    (Issues { (infoNone 0).bare with handler := true } (wHXS (wHX true)) (wHXC (wHX true)) (wHXS (wHX true)) ∧ (wHXC (wHX true)).mask ≠ 0 ∧ (wHXC (wHX true)).G.hnd = some (wHH true) ∧
      ∀ G, G = { (wHXC (wHX true)).G with lanes := G.lanes } → (Lanes (wHXC (wHX true)) G fun _ x => { x with st := .tretWait }) → (wHH true).finished G = false) ∧
    (Issues { (infoNone 0).bare with handler := true } (wHXS (wHX false)) (wHXC (wHX false)) (wHXS (wHX false)) ∧ (wHXC (wHX false)).mask ≠ 0 ∧ (wHXC (wHX false)).G.hnd = some (wHH false) ∧
      ∀ G, G = { (wHXC (wHX false)).G with lanes := G.lanes } → (Lanes (wHXC (wHX false)) G fun _ x => { x with st := .tretWait }) → (wHH false).finished G = true) ∧
    (Issues { (infoNone 0).bare with handler := true } wQS wQC wQS ∧ wQC.mask = 0 ∧ wQC.G.hnd = some wQH ∧ wQS.team? wQC.G.team = some wT) ∧
    (Issues { (infoV2 0 31 0).bare with handler := true } (wHXS (wHX true)) (wHXC (wHX true)) (wHXS (wHX true)) ∧ (wHXC (wHX true)).mask ≠ 0 ∧ (wHXC (wHX true)).G.hnd = some (wHH true)) := by
  refine ⟨⟨issues_plain _ rfl rfl rfl rfl rfl (by decide), by decide, rfl, fun G _ h => ?_⟩, ⟨issues_plain _ rfl rfl rfl rfl rfl (by decide), by decide, rfl, fun G _ h => ?_⟩,
    ⟨issues_plain _ rfl rfl rfl rfl rfl (by decide), rfl, rfl, rfl⟩, ⟨issues_plain _ rfl rfl rfl rfl rfl (by decide), by decide, rfl⟩⟩
  · have h5 : (G.lane 5).st = .ready := by
      have := h 5; rw [if_neg (by decide)] at this; rw [this]; rfl
    simp [Handler.finished, wHH, wH, h5]
  · have h0 : (G.lane 0).st = .tretWait := by have := h 0; rw [if_pos (by decide)] at this; rw [this]
    have h31 : (G.lane 31).st = .tretWait := by have := h 31; rw [if_pos (by decide)] at this; rw [this]
    simp [Handler.finished, wHH, wH, h0, h31]

/-! ### The matrix stream -/

/-- A team whose sequencer runs: tag 0 has completed, tag 1 has not; barrier 31 is in the phase that XP expects, barrier 0 is not. -/
def wMT (q : Seq) : Team := { oneTeam true 1 1 with
  tagN := 2
  obufN := 65536
  spadN := 256
  resv := [(0, 0x00200000004000080000 ||| (0x0000F0000000 : QWord) ||| (32 : QWord) <<< 86)]
  seq := { q with run := 1 } }
/-- The device with it; `ended` tells whether its group has ended. -/
def wMS (q : Seq) (ended : Bool) : State := { State.reset with
  cur := .seq 1
  groups := [(1, { wG with
    team := 1
    ended := ended })]
  launches := [(1, wEL)]
  teams := [(1, wMT q)]
  cores := [(0, { Core.init with
    tags := ~~~(2 : DWord)
    spad := [(0, 2), (4, 2), (248, 2), (251, 0x80), (252, 2)] })]
  vfs := [(0, { Vf.init with
    en := true
    hcl := 64 })] }
theorem wSeq (q : Seq) (e : Bool) (h : (wMT q).seqLive = true) : Sequences (wMS q e) 1 (wMT q) := ⟨rfl, rfl, h⟩
theorem wHandles (q : Seq) : (wMS q false).Handles (wMT q) 1 { wG with team := 1 } := ⟨rfl, rfl, fun h => nomatch h⟩

theorem witness_SequencerWords :
    let T := wMT Seq.init
    let s := wMS Seq.init false
    Sequences s 1 T ∧ (T.seq.serr = false ∧ s.mretBusy 1 = false ∧ s.groupsEnded T = false) ∧
    (Sequences (wMS Seq.init true) 1 T ∧ (wMS Seq.init true).mretBusy 1 = false ∧ (wMS Seq.init true).groupsEnded T = true ∧ SMap.wf (wMS Seq.init true).teams = true) ∧
    (s.stopping 1 = false ∧ T.seq.comp ≤ s.now) ∧
    ((s.bar T (31 : BitVec 5).toNat).phase = T.seq.xp.getLsbD (31 : BitVec 5).toNat) ∧ ((s.bar T (0 : BitVec 5).toNat).phase ≠ T.seq.xp.getLsbD (0 : BitVec 5).toNat) ∧
    (T.tagB ≤ (0 : BitVec 6).toNat ∧ (0 : BitVec 6).toNat < T.tagB + T.tagN ∧ (s.core T.core).tags.getLsbD (0 : BitVec 6).toNat = true ∧ (s.core T.core).tagTime.get (0 : BitVec 6).toNat 0 ≤ s.now ∧ (s.core T.core).terr.getLsbD (0 : BitVec 6).toNat = false) ∧
    ((1 : BitVec 6).toNat < T.tagB + T.tagN ∧ (s.core T.core).tags.getLsbD (1 : BitVec 6).toNat = false) := by
  refine ⟨wSeq _ _ rfl, ⟨rfl, by decide, by decide⟩, ⟨wSeq _ _ rfl, by decide, by decide, by decide⟩, ⟨by decide, by decide⟩, by decide, by decide, ⟨by decide, by decide, by decide, by decide, by decide⟩, ⟨by decide, by decide⟩⟩

theorem witness_MatrixStreamFaults :
    let T := wMT Seq.init
    let s := wMS Seq.init false
    (Sequences s 1 T ∧ s.Handles T 1 { wG with team := 1 }) ∧
    (rsvUsable (T.rsv (7 : BitVec 3).toNat) (T.seq.reg (31 : BitVec 5).toNat).toNat (shapeCols 3) (shapeK 3) = false) ∧
    (∀ k, T.seq.shape = some k → (7 : BitVec 3).toNat + shapeN k > 8) ∧ T.seq.shape ≠ some 0 ∧ T.seq.shape ≠ some 2 ∧ (29 : BitVec 5).toNat > 28 ∧
    (T.tagB + T.tagN ≤ (2 : BitVec 6).toNat) := by
  refine ⟨⟨wSeq _ _ rfl, wHandles _⟩, by decide, ?_, by decide, by decide, by decide, by decide⟩
  intro k h; cases h

/-- A reservation of a format with the pitch of 128 bytes, its side plane at 256 KiB. -/
def wRsv (fmt : Nat) : QWord := BitVec.ofNat 128 (2 ^ 19 + 2 ^ 39 + fmt * 2 ^ 40 + 16 * 2 ^ 42 + 262144 * 2 ^ 48 + 128 * 2 ^ 86)
/-- A unit that has loaded a shape. -/
def wShape (k fmt : Nat) : Seq := { Seq.init with
  run := 1
  shape := some k
  fmt := fmt
  m := [(5, 0x01000000), (6, 4)] }
/-- A team with that reservation as o7. -/
def wRT (q : Seq) : Team := { oneTeam true 1 1 with
  obufN := 524288
  resv := [(7, wRsv 2)]
  seq := q }
/-- The device with it. Its record sends tile 7 to a collective. -/
def wRM (q : Seq) : State := { State.reset with
  cur := .seq 1
  groups := [(1, { wG with
    team := 1
    b := [(14, BitVec.ofNat 128 (6 * 2 ^ 51))] })]
  launches := [(1, { wEL with r := { oneLaunch true with tmask := 128 } })]
  teams := [(1, wRT q)]
  vfs := [(0, { Vf.init with
    en := true
    hcl := 64 })] }
theorem wRSeq (k f : Nat) : Sequences (wRM (wShape k f)) 1 (wRT (wShape k f)) := ⟨rfl, rfl, rfl⟩

theorem witness_MatrixStreamFaults_format :
    let q := wShape 1 0
    Sequences (wRM q) 1 (wRT q) ∧ (wRM q).Handles (wRT q) 1 { wG with
      team := 1
      b := [(14, BitVec.ofNat 128 (6 * 2 ^ 51))] } ∧
    (∀ k, (wRT q).seq.shape = some k → (7 : BitVec 3).toNat + shapeN k ≤ 8 ∧ rsvUsable ((wRT q).rsv (7 : BitVec 3).toNat) ((wRT q).seq.reg (0 : BitVec 5).toNat).toNat 64 (shapeK k) = true ∧
      rsvFmt ((wRT q).rsv (7 : BitVec 3).toNat) ≠ (wRT q).seq.fmt) ∧ (wRT q).seq.shape ≠ none := by
  refine ⟨wRSeq 1 0, ⟨rfl, rfl, by decide⟩, ?_, by decide⟩
  intro k h; injection h with h; subst h; decide

theorem witness_MatrixWords :
    (let T := wRT (wShape 1 2)
     Sequences (wRM (wShape 1 2)) 1 T ∧ rsvUsable (T.rsv 7) (T.seq.reg 0).toNat (shapeCols 0) (shapeK 0) = true ∧ rsvUsable (T.rsv 7) (T.seq.reg 0).toNat (shapeCols 3) (shapeK 3) = true ∧
       T.seq.shape = some 1 ∧ (7 : BitVec 3).toNat + shapeN 1 ≤ 8 ∧ rsvUsable (T.rsv 7) (T.seq.reg 0).toNat 64 (shapeK 1) = true ∧ rsvFmt (T.rsv 7) = T.seq.fmt ∧
       T.bmOk 7 (T.rsv 7) (T.seq.reg 0).toNat 64 (shapeK 1) = true) ∧
    (let T := wRT (wShape 2 2)
     Sequences (wRM (wShape 2 2)) 1 T ∧ T.seq.shape = some 2 ∧
       ((T.seq.reg (6 : BitVec 5).toNat).toNat < 8 ∧ (0 : BitVec 3).toNat + 3 < (T.seq.reg (6 : BitVec 5).toNat).toNat) ∧ (T.seq.reg (0 : BitVec 5).toNat).toNat < (4 : BitVec 3).toNat ∧
       rsvUsable (T.rsv 7) 0 64 128 = true ∧ rsvFmt (T.rsv 7) = T.seq.fmt ∧ T.bmOk 7 (T.rsv 7) 0 64 128 = true) ∧
    (let T := wRT (wShape 0 2)
     let s := wRM (wShape 0 2)
     let x := T.rsv 7
     let mk := (T.seq.reg (5 : BitVec 5).toNat).toNat
     let off := fun g => (s.rsvByte T x (mk % 2 ^ 20 + 2 * g)).toNat + 256 * (s.rsvByte T x (mk % 2 ^ 20 + 2 * g + 1)).toNat
     Sequences s 1 T ∧ T.seq.shape = some 0 ∧ mk / 2 ^ 24 = 1 ∧ mk / 2 ^ 20 % 16 = 0 ∧ mk % 2 ^ 20 + 2 * (1 + 1) ≤ rsvLen x ∧
       (∀ g, g ≤ 1 → (g > 0 → off (g - 1) ≤ off g) ∧ (off g = 0 ∨ rowInside x (off g - 1) 64 = true) ∧ off g ≤ off 0 + 64) ∧
       rsvUsable x (off 0) (off 1 - off 0) 64 = true ∧ rsvFmt x = T.seq.fmt) := by
  refine ⟨⟨wRSeq 1 2, by decide, by decide, by decide, by decide, by decide, by decide, rfl⟩,
    ⟨wRSeq 2 2, by decide, ⟨by decide, by decide⟩, by decide, by decide, by decide, rfl⟩,
    ⟨wRSeq 0 2, by decide, by decide, by decide, by decide, ?_, by decide, by decide⟩⟩
  intro g hg
  have : g = 0 ∨ g = 1 := by omega
  rcases this with h | h <;> subst h <;> decide

/-- An access through a record of no elements moves no byte and faults nowhere. -/
theorem plan_none (s : State) (k : Nat) (G : Group) (r : QWord) (n : Nat) (w : Want) (idx : List (Nat × Int)) (h : recExtent r = 0) :
    (s.plan k G r n w idx).faults = [] ∧ (s.plan k G r n w idx).good = [] := by
  have hl : ∀ i, s.laneBytes G r i n w = none := by
    intro i
    have : s.bytesOf G r i n = none := by
      unfold State.bytesOf; rw [if_neg]; rw [h]; intro hi; omega
    unfold State.laneBytes; rw [this]
  constructor <;> simp [State.plan, State.planBy, hl, List.filterMap_map, distinct]

theorem witness_EpilogueWords :
    (let T := wRT (wShape 1 2)
     let s := wRM (wShape 1 2)
     let G := s.seqGroup 1 T
     Sequences s 1 T ∧ (28 : BitVec 5).toNat ≤ 28 ∧ mretRecs 0 (G.bufRec 14) (G.bufRec 15) = true ∧ recOob (G.bufRec 14) ≠ 1 ∧ recOob (G.bufRec 15) ≠ 1 ∧
       (∀ (u : State) (w : Nat) (i : List (Nat × Int)), (u.plan T.core G (G.bufRec 14) w .write i).faults = [] ∧ (u.plan T.core G (G.bufRec 14) w .write i).good = [] ∧
         (u.plan T.core G (G.bufRec 15) w .write i).faults = [] ∧ (u.plan T.core G (G.bufRec 15) w .write i).good = [])) ∧
    (let q := wShape 1 2
     Sequences (wRM q) 1 (wRT q) ∧ (wRT q).seq.chunks = 0 ∧ ∃ r, (wRM q).recOf (wRT q) = some r ∧ r.tmask.testBit (7 : BitVec 3).toNat = true ∧ (0 : BitVec 2).toNat = r.ctype) ∧
    (let q := { wShape 1 2 with chunks := 2 }
     Sequences (wRM q) 1 (wRT q) ∧ (wRT q).seq.chunks = 2) := by
  refine ⟨⟨wRSeq 1 2, by decide, by decide, by decide, by decide, fun u w i => ?_⟩, ⟨wRSeq 1 2, rfl, _, rfl, by decide, by decide⟩, ⟨⟨rfl, rfl, rfl⟩, rfl⟩⟩
  have h := plan_none u (wRT (wShape 1 2)).core ((wRM (wShape 1 2)).seqGroup 1 (wRT (wShape 1 2))) (((wRM (wShape 1 2)).seqGroup 1 (wRT (wShape 1 2))).bufRec 14) w .write i (by decide)
  have k := plan_none u (wRT (wShape 1 2)).core ((wRM (wShape 1 2)).seqGroup 1 (wRT (wShape 1 2))) (((wRM (wShape 1 2)).seqGroup 1 (wRT (wShape 1 2))).bufRec 15) w .write i (by decide)
  exact ⟨h.1, h.2, k.1, k.2⟩

/-! ### What is waited for -/

/-- A path of both lanes, blocked on a condition; the tags it has seen met hold an error where `e` says so. -/
def wBlk (c : Cond) (m : Option Word) (e : Bool) : Block := ⟨7, 0x80000001, 0, 0, c, m, 0, 0, e, false⟩
/-- Its group. -/
def wBG (c : Cond) (m : Option Word) (e : Bool) : Group := { wG with
  lanes := [(0, { Thread.init with st := .blocked 7 }), (31, { Thread.init with st := .blocked 7 })]
  blk := [wBlk c m e] }
/-- The device with it, at tick 1: function 0 has a handler. -/
def wBS (c : Cond) (m : Option Word) (e : Bool) : State := { State.reset with
  now := 1
  groups := [(1, wBG c m e)]
  cores := [(0, { Core.init with parts := [(3, { Part.init with rbq := [(1, 8)] })] })]
  vfs := [(0, { Vf.init with hcl := 64 })] }
theorem wBlocked (c : Cond) (m : Option Word) (e : Bool) : (wBS c m e).Blocked 1 7 (wBG c m e) (wBlk c m e) := ⟨rfl, rfl⟩
theorem wTrappable (c : Cond) (m : Option Word) (e : Bool) : (wBS c m e).Trappable (wBG c m e) (wBlk c m e) := by
  refine ⟨nofun, rfl, fun l h => ?_⟩
  have hl : l < 32 := Nat.lt_of_not_le fun h' => by rw [BitVec.getLsbD_of_ge _ _ h'] at h; cases h
  show (SMap.get (wBG c m e).lanes l Thread.init).hnd = false
  have : ∀ l, l < 32 → (SMap.get [(0, { Thread.init with st := .blocked 7 }), (31, { Thread.init with st := .blocked 7 })] l Thread.init).hnd = false := by decide
  exact this l hl
/-- A word that has been read, its sector having failed its check. -/
def wPoll : Poll := { Poll.init 1 0 with bad := true }
/-- The same with a table: its root at 0 names a node in host memory, whose first entry is a leaf. -/
def wBP (c : Cond) : State := { wBS c none false with
  mem := [⟨0, 0x41⟩, ⟨1, 0x10⟩]
  side := [(0, Side.clean 3)]
  hostMem := [(0x1000, 0xF)]
  vfs := [(0, { Vf.init with
    en := true
    gen := 3
    hcl := 64 })] }
/-- A team whose sequencer waits. -/
def wWT (w : Bool × Nat) : Team := { wMT Seq.init with seq := { Seq.init with
  run := 1
  wait := some w } }
def wWS (w : Bool × Nat) : State := { wMS Seq.init false with teams := [(1, wWT w)] }

theorem witness_WaitsEnd :
    (let cs : List WCond := [.tags false 0x8000000000000000, .mem none 0 0 (Poll.init 1 0)]
     let k : Cond := .wait 1023 cs true 0 0
     (wBS k (some 3) false).Blocked 1 7 (wBG k (some 3) false) (wBlk k (some 3) false) ∧ (wBS k (some 3) false).stopping (wBG k (some 3) false).team = false ∧
       waitBad cs = false ∧ (wBlk k (some 3) false).met = some 3 ∧ (wBlk k (some 3) false).at_ < (wBS k (some 3) false).now ∧
       (wBlk k (some 3) false).comp ≤ (wBS k (some 3) false).now ∧ (wBlk k (some 3) false).terr = false) ∧
    (let cs : List WCond := [.mem (some [.glob 64 64]) 0 0 wPoll]
     let k : Cond := .wait 0 cs false 0 0
     (wBS k none false).Blocked 1 7 (wBG k none false) (wBlk k none false) ∧ (wBS k none false).stopping (wBG k none false).team = false ∧ waitBad cs = true ∧
       (wBS k none false).Trappable (wBG k none false) (wBlk k none false)) ∧
    (let cs : List WCond := [.tags true 1]
     let k : Cond := .wait 0 cs false 0 0
     (wBS k (some 1) true).Blocked 1 7 (wBG k (some 1) true) (wBlk k (some 1) true) ∧ waitBad cs = false ∧ (wBlk k (some 1) true).at_ < (wBS k (some 1) true).now ∧
       (wBlk k (some 1) true).comp ≤ (wBS k (some 1) true).now ∧ (wBlk k (some 1) true).terr = true ∧ (wBS k (some 1) true).Trappable (wBG k (some 1) true) (wBlk k (some 1) true)) ∧
    (let cs : List WCond := [.tags false 1]
     let k : Cond := .wait 0 cs false 1 0
     (wBS k none false).Blocked 1 7 (wBG k none false) (wBlk k none false) ∧ (wBS k none false).stopping (wBG k none false).team = false ∧ (1 : Nat) ≠ 0 ∧
       0 < (wBS k none false).now ∧ (wBlk k none false).met = none ∧ waitBad cs = false) ∧
    (let ls : List Loc := [.glob 64 64]
     let cs : List WCond := [.mem (some ls) 0 0 (Poll.init 1 0)]
     let k : Cond := .wait 0 cs false 0 0
     (wBP k).Blocked 1 7 (wBG k none false) (wBlk k none false) ∧ (wBP k).stopping (wBG k none false).team = false ∧ (wBlk k none false).met = none ∧
       cs[0]? = some (.mem (some ls) 0 0 (Poll.init 1 0)) ∧ globVas ls ≠ [] ∧ (wBP k).pollBad (wBG k none false) ls = []) ∧
    (let k : Cond := .barw 31 true
     let j : Cond := .barx 0
     (wBS k (some 0) false).Blocked 1 7 (wBG k (some 0) false) (wBlk k (some 0) false) ∧ (wBlk k (some 0) false).met ≠ none ∧
       (wBS j (some 0) false).Blocked 1 7 (wBG j (some 0) false) (wBlk j (some 0) false) ∧ (wBS j (some 0) false).stopping (wBG j (some 0) false).team = false) ∧
    (let k : Cond := .tag 0x8000000000000001 true
     (wBS k (some 0) false).Blocked 1 7 (wBG k (some 0) false) (wBlk k (some 0) false) ∧ (wBlk k (some 0) false).met ≠ none ∧
       (wBlk k (some 0) false).comp ≤ (wBS k (some 0) false).now ∧ (wBlk k (some 0) false).terr = false) ∧
    (let k : Cond := .tag 0x8000000000000001 false
     (wBS k (some 0) true).Blocked 1 7 (wBG k (some 0) true) (wBlk k (some 0) true) ∧ (wBlk k (some 0) true).met ≠ none ∧
       (wBlk k (some 0) true).comp ≤ (wBS k (some 0) true).now ∧ (wBlk k (some 0) true).terr = true ∧ (wBS k (some 0) true).Trappable (wBG k (some 0) true) (wBlk k (some 0) true)) ∧
    (let s := wBS (.rbacq 8) none false
     ((s.core 0).part 3).rbq = [(1, 8)] ∧ 8 + s.owedOn 0 3 1 ≤ ((s.core 0).part 3).pool ∧ s.group? 1 = some (wBG (.rbacq 8) none false) ∧
       (wBG (.rbacq 8) none false).blk.find? (·.forBlocks) = some (wBlk (.rbacq 8) none false)) ∧
    (let s := wWS (true, 31)
     s.team? 1 = some (wWT (true, 31)) ∧ s.stopping 1 = false ∧ (wWT (true, 31)).seq.run = 1 ∧ (wWT (true, 31)).seq.sflt = false ∧
       (s.bar (wWT (true, 31)) 31).phase = (wWT (true, 31)).seq.xp.getLsbD 31) ∧
    (let s := wWS (false, 0)
     s.team? 1 = some (wWT (false, 0)) ∧ s.stopping 1 = false ∧ (s.core (wWT (false, 0)).core).tags.getLsbD 0 = true ∧ (s.core (wWT (false, 0)).core).tagTime.get 0 0 ≤ s.now ∧
       (s.core (wWT (false, 0)).core).terr.getLsbD 0 = false) := by
  refine ⟨⟨wBlocked _ _ _, rfl, rfl, rfl, by decide, by decide, rfl⟩, ⟨wBlocked _ _ _, rfl, by decide, wTrappable _ _ _⟩,
    ⟨wBlocked _ _ _, by decide, by decide, by decide, rfl, wTrappable _ _ _⟩, ⟨wBlocked _ _ _, rfl, by decide, by decide, rfl, rfl⟩,
    ⟨⟨rfl, rfl⟩, rfl, rfl, rfl, by decide, by decide +kernel⟩,
    ⟨wBlocked _ _ _, nofun, wBlocked _ _ _, rfl⟩, ⟨wBlocked _ _ _, nofun, by decide, rfl⟩, ⟨wBlocked _ _ _, nofun, by decide, rfl, wTrappable _ _ _⟩,
    ⟨rfl, by decide, rfl, rfl⟩, ⟨rfl, rfl, rfl, rfl, by decide⟩, ⟨rfl, rfl, by decide, by decide, by decide⟩⟩

/-- A group with a result of id 3 out. -/
def wPG (d : Dst) (vs : List LaneVal) : Group := { wG with pend := [⟨3, 0x80000001, 0, d, some vs, none⟩] }
theorem witness_ResultsAreWritten :
    (let vs : List LaneVal := [⟨0, [5, 6], 0, false⟩, ⟨31, [7, 8], 1, true⟩]
     let G := wPG (.v 30 2) vs
     (tiny G).group? 1 = some G ∧ G.pend.find? (·.id == 3) = some ⟨3, 0x80000001, 0, .v 30 2, some vs, none⟩ ∧ (tiny G).resultOf G ⟨3, 0x80000001, 0, .v 30 2, some vs, none⟩ = some vs ∧ (vs.map (·.lane)).Nodup) ∧
    (let vs : List LaneVal := [⟨0, [5], 0, false⟩]
     let G := wPG (.s 1023 1) vs
     (tiny G).group? 1 = some G ∧ G.pend.find? (·.id == 3) = some ⟨3, 0x80000001, 0, .s 1023 1, some vs, none⟩ ∧ (tiny G).resultOf G ⟨3, 0x80000001, 0, .s 1023 1, some vs, none⟩ = some vs) :=
  ⟨⟨rfl, rfl, rfl, by decide⟩, ⟨rfl, rfl, rfl⟩⟩

theorem witness_HandlerEntry :
    let e : TrapEntry := ⟨0x80000001, 0, 0, 4, causeWord 1 7 0, false⟩
    let G : Group := { wG with
      lanes := [(0, { Thread.init with st := .trapped }), (31, { Thread.init with st := .trapped })]
      trapQ := [e, { e with mask := 0 }] }
    (wTS G).group? 1 = some G ∧ G.trapQ = e :: [{ e with mask := 0 }] ∧ G.hnd = none ∧ ((wTS G).vf G.vf).hcl ≠ 0 ∧ G.ended = false ∧ (wTS G).stopping G.team = false ∧ (e.mask ≠ 0 → G.waits e.mask = false) ∧
      (e.mask ≠ 0 → e.mask &&& (G.lanesWith fun t => t.st == .trapped) ≠ 0) ∧ (splitErrs 0x80000001 G.errs).2 = [] ∧
      (splitErrs 0x80000001 [⟨0x80000001, 0, 3⟩]).2 = [⟨0x80000001, 0, 3⟩] :=
  ⟨rfl, rfl, rfl, nofun, rfl, rfl, fun _ => rfl, fun _ => by decide, by decide, by decide⟩

/-! ### Convoys -/

/-- The descriptor of a join: key 0, slip 1, two members, time-out 5. -/
def wKD : List Word := [0, 0, 0x201, 5]
/-- A group whose join is out. -/
def wKG : Group := { wG with joinDesc := some wKD }
/-- The device at tick 1 with messages on their way, and the convoys of die 0. -/
def wKS (ms : List CvMsg) (cs : SMap Convoy) : State := { tiny wKG with
  now := 1
  cvMsgs := ms.map fun m => ⟨m, none, 0, 0⟩
  dies := [(0, { Die.init with convoys := cs })] }
/-- A convoy of key 0 at index 255. -/
def wCV (ms : List Member) (closed : Bool) (tout : Nat) (t : Option Nat) : Convoy := ⟨0, 1, 2, tout, ms, closed, t⟩
/-- As many convoys of another key as there are places. -/
def wFull : SMap Convoy := (List.range 256).map fun k => (k, ⟨1, 1, 2, 0, [], true, none⟩)
theorem wFull_wf : SMap.wf wFull = true := by decide +kernel
theorem wFull_taken : wFull.freeFrom 256 0 = none := by decide +kernel
theorem wFull_key : (wKS [.joinReq 1] wFull).nextMsg 1 true = some (.joinReq 1, wKS [] wFull) := rfl

/-- The join blocked, with messages on their way; its team is asked to stop where `st` says so. -/
def wKJ (ms : List CvMsg) (st : Bool) : State := { wBS .cvjoin none false with
  cvMsgs := ms.map fun m => ⟨m, none, 0, 0⟩
  teams := [(0, { wT with pre := if st then .asked 0 else .none })] }
theorem wNone : ∀ k, (wKS [] []).convoyFor wKD = some k → (wKS [] []).onTime k = true := nofun
theorem wNoFull : ∀ k, (wKS [] wFull).convoyFor wKD = some k → (wKS [] wFull).onTime k = true := by
  have : (wKS [] wFull).convoyFor wKD = none := by decide +kernel
  intro k h; rw [this] at h; cases h
theorem wOne (ms : List Member) (closed : Bool) (tout : Nat) :
    ∀ k, (wKS [] [(255, wCV ms closed tout none)]).convoyFor wKD = some k → (wKS [] [(255, wCV ms closed tout none)]).onTime k = true := by
  have : (wKS [] [(255, wCV ms closed tout none)]).convoyFor wKD = some 255 := rfl
  intro k h; rw [this] at h; cases h; rfl

theorem witness_ConvoyMessages :
    (let s := wKS [.joinReq 1] []
     let t := wKS [] []
     s.nextMsg 1 true = some (.joinReq 1, t) ∧ s.group? 1 = some wKG ∧ wKG.joinDesc = some wKD ∧ cvDesc wKD = some (0, 1, 2, 5) ∧ (∀ k, t.convoyFor wKD = some k → t.onTime k = true) ∧ (t.die (marshalDie 0)).convoyOf 0 = none ∧
       (t.die (marshalDie 0)).convoys.freeFrom 256 0 = some 0 ∧ 0 < 256) ∧
    (let t := wKS [] wFull
     (wKS [.joinReq 1] wFull).nextMsg 1 true = some (.joinReq 1, t) ∧ (∀ k, t.convoyFor wKD = some k → t.onTime k = true) ∧ (t.die (marshalDie 0)).convoyOf 0 = none ∧ (t.die (marshalDie 0)).convoys.freeFrom 256 0 = none) ∧
    (let v := wCV [⟨1, 0, true, false⟩] false 5 none
     let t := wKS [] [(255, v)]
     (wKS [.joinReq 1] [(255, v)]).nextMsg 1 true = some (.joinReq 1, t) ∧ (∀ k, t.convoyFor wKD = some k → t.onTime k = true) ∧ (t.die (marshalDie 0)).convoyOf 0 = some (255, v) ∧ v.mem.any (·.guid == 1) = true) ∧
    (let v := wCV [⟨2, 0, true, false⟩] true 5 none
     let t := wKS [] [(255, v)]
     (wKS [.joinReq 1] [(255, v)]).nextMsg 1 true = some (.joinReq 1, t) ∧ (∀ k, t.convoyFor wKD = some k → t.onTime k = true) ∧ (t.die (marshalDie 0)).convoyOf 0 = some (255, v) ∧ v.mem.any (·.guid == 1) = false ∧ v.closed = true) ∧
    (let v := wCV [⟨2, 0, true, false⟩] false 6 none
     let t := wKS [] [(255, v)]
     (wKS [.joinReq 1] [(255, v)]).nextMsg 1 true = some (.joinReq 1, t) ∧ (∀ k, t.convoyFor wKD = some k → t.onTime k = true) ∧ (t.die (marshalDie 0)).convoyOf 0 = some (255, v) ∧ v.mem.any (·.guid == 1) = false ∧ v.closed = false ∧ v.tout ≠ 5) ∧
    (let v := wCV [⟨2, 0, true, false⟩, ⟨3, 0, true, false⟩] false 5 none
     let t := wKS [] [(255, v)]
     (wKS [.joinReq 1] [(255, v)]).nextMsg 1 true = some (.joinReq 1, t) ∧ (∀ k, t.convoyFor wKD = some k → t.onTime k = true) ∧ (t.die (marshalDie 0)).convoyOf 0 = some (255, v) ∧ v.mem.any (·.guid == 1) = false ∧ v.closed = false ∧
       v.slip = 1 ∧ v.count = 2 ∧ v.tout = 5 ∧ 2 ≤ v.mem.length) ∧
    (let v := wCV [⟨2, 0, true, false⟩] false 5 none
     let t := wKS [] [(255, v)]
     (wKS [.joinReq 1] [(255, v)]).nextMsg 1 true = some (.joinReq 1, t) ∧ (∀ k, t.convoyFor wKD = some k → t.onTime k = true) ∧ (t.die (marshalDie 0)).convoyOf 0 = some (255, v) ∧ v.mem.any (·.guid == 1) = false ∧ v.closed = false ∧
       v.slip = 1 ∧ v.count = 2 ∧ v.tout = 5 ∧ v.mem.length < 2) ∧
    (let m : CvMsg := .answer 1 (cvAccept 0 0) 0
     ((wKS [m] []).nextMsg 1 false = some (m, wKS [] []) ∧ (wKS [m] []).group? 1 = some wKG ∧ wKG.blk.find? (·.cond == .cvjoin) = none) ∧
     (∀ st, (wKJ [m] st).nextMsg 1 false = some (m, wKJ [] st)) ∧ (wBG .cvjoin none false).blk.find? (·.cond == .cvjoin) = some (wBlk .cvjoin none false) ∧
     (wKJ [m] false).stopping 0 = false ∧ (wKJ [m] true).stopping 0 = true) ∧
    (let v := wCV [⟨1, 0, true, false⟩] true 5 none
     let t := wKS [] [(255, v)]
     t.convoy? 255 = some v ∧ t.onTime 255 = true ∧ (wKS [.step 1 255] [(255, v)]).nextMsg 1 true = some (.step 1 255, t) ∧ (wKS [.leave 1 255] [(255, v)]).nextMsg 1 true = some (.leave 1 255, t) ∧
       (wKS [.hold 1 255] [(255, v)]).nextMsg 1 true = some (.hold 1 255, t) ∧ (v.mem.any fun x => x.guid == 1 && x.att) = true) ∧
    (let G := { wG with cvm := cvAccept 255 0 }
     let s := { tiny G with cvMsgs := [⟨.min_ 1 255 7, some 256, 0, 0⟩] }
     s.nextMsg 1 false = some (.min_ 1 255 7, tiny G) ∧ { tiny G with cvMsgs := [⟨.out 1 255 3, none, 0, 0⟩] }.nextMsg 1 false = some (.out 1 255 3, tiny G) ∧ s.group? 1 = some G ∧ G.cvm.state = 1 ∧ G.cvm.id = 255) ∧
    (let v := wCV [⟨1, 0, true, true⟩] false 5 (some 0)
     let s := wKS [] [(255, v)]
     s.convoy? 255 = some v ∧ v.timer = some 0 ∧ 0 < s.now ∧ v.empty = true) ∧
    (let v := wCV [⟨1, 0, true, false⟩, ⟨2, 1, true, true⟩] true 5 (some 0)
     let s := wKS [] [(255, v)]
     s.convoy? 255 = some v ∧ v.timer = some 0 ∧ 0 < s.now ∧ v.empty = false ∧ v.straggler = some ⟨1, 0, true, false⟩) := by
  refine ⟨⟨rfl, rfl, rfl, by decide, wNone, by decide, by decide, by decide⟩, ⟨rfl, wNoFull, by decide +kernel, by decide +kernel⟩, ⟨rfl, wOne _ _ _, by decide, by decide⟩, ⟨rfl, wOne _ _ _, by decide, by decide, rfl⟩,
    ⟨rfl, wOne _ _ _, by decide, by decide, rfl, by decide⟩, ⟨rfl, wOne _ _ _, by decide, by decide, rfl, rfl, rfl, rfl, by decide⟩, ⟨rfl, wOne _ _ _, by decide, by decide, rfl, rfl, rfl, rfl, by decide⟩,
    ⟨⟨rfl, rfl, rfl⟩, fun st => by cases st <;> rfl, rfl, rfl, rfl⟩, ⟨rfl, by decide, rfl, rfl, rfl, by decide⟩, ⟨rfl, rfl, rfl, rfl, rfl⟩, ⟨rfl, rfl, by decide, by decide⟩, ⟨rfl, rfl, by decide, by decide, by decide⟩⟩

/-! ### The memory system -/

/-- A request of core 0 for the last sector of function 0. -/
def wReq (k : ReqKind) (src : Src) : Req := ⟨9, src, k, 0x1FFFFFFFF, 0, 3, 1, 0, 0, 0⟩
/-- An entry of id 4 with it. -/
def wEnt (d : Option (BitVec 512 × Bool × Nat)) (op : Bool) : Entry := ⟨4, 0x1FFFFFFFF, 3, 0, [wReq (.read (some 2)) (.fill 0 6)], op, d⟩
/-- The device with a request on the wire, a queue in channel 0 and the entries of its home unit. -/
def wMem (ws : List Req) (q : List ChReq) (es : List Entry) (inq : List Req) : State := { State.reset with
  wire := ws
  side := [(0x1FFFFFFFF, Side.clean 3)]
  dies := [(homeDie 0x1FFFFFFFF, { Die.init with
    chans := [(63, { Channel.init with q := q })]
    units := [(homeUnit 0x1FFFFFFFF, { Unit.init with
      entries := es
      inq := inq })] })] }
/-- The channel of the witnesses. -/
def wCh : Nat := homeDie 0x1FFFFFFFF * 64 + 63
/-- Core 0 with a dirty line and its fill. -/
def wLine : Line := ⟨0, 0, 5, 5, [(3, { Sector.init with dm := 0x8000000000000001 })], true⟩
def wCopy (src : Src) : Copy := ⟨9, wReq (.read (some 2)) src, 4, 0, false, 100, none⟩
def wL1S (fs : List Fill) : State := { State.reset with
  cores := [(0, { Core.init with
    l1 := [wLine]
    fills := fs })]
  copies := [wCopy (.fill 0 6)]
  dones := [⟨9, wReq (.write 1 0) (.back 0 [1]), 50, [], false⟩] }
/-- A release or an acquire in group 1's order, which is blocked on it where `b` holds. -/
def wFA (k : AccKind) : Acc := ⟨5, 0x80000001, k, [], 0, false, none, 0, 0, 0, 0, false, false, false, false, true, 0, false, 0, 0⟩
def wFG (k : AccKind) (b w : Bool) : Group := { wBG (.fence 5 0) none false with
  acc := [wFA k]
  werr := w
  blk := if b then [wBlk (.fence 5 0) none false] else [] }
def wFS (k : AccKind) (b w : Bool) : State := { wBS (.fence 5 0) none false with groups := [(1, wFG k b w)] }

/-- A fill of core 0 for which access 5 of group 1 waits; it keeps no line where `na` holds. -/
def wFl (na : Bool) : Fill := ⟨6, 0, 0, 23, 23, false, na, 0, 0, [(1, 5)]⟩
/-- The last sector passes its check. -/
theorem wCheck (ws : List Req) (q : List ChReq) (es : List Entry) (inq : List Req) : ∃ d, (wMem ws q es inq).check 3 0x1FFFFFFFF = some d := by
  unfold State.check
  dsimp only
  rw [show (wMem ws q es inq).sideOf 0x1FFFFFFFF = Side.clean 3 from rfl, if_neg (by decide), if_pos ⟨rfl, rfl⟩]
  exact ⟨_, rfl⟩
theorem witness_MemorySystemEvents :
    (let q := wReq (.read (some 2)) (.fill 0 6)
     let s := wMem [q] [] (List.replicate 512 (wEnt none false)) []
     s.wire.find? (·.id == 9) = some q ∧ s.wireNext q = true ∧ 512 ≤ (s.unit (homeDie q.psec) (homeUnit q.psec)).entries.length) ∧
    (let q := wReq (.read (some 2)) (.fill 0 6)
     let s := wMem [q] [] [] [q]
     s.wire.find? (·.id == 9) = some q ∧ s.wireNext q = true ∧ (s.unit (homeDie q.psec) (homeUnit q.psec)).entries.length < 512 ∧ (s.unit (homeDie q.psec) (homeUnit q.psec)).inq ≠ []) ∧
    (let q := wReq (.read (some 2)) (.fill 0 6)
     let s := wMem [q] [] [wEnt none true] []
     s.wireNext q = true ∧ (s.unit (homeDie q.psec) (homeUnit q.psec)).inq = [] ∧
       ((s.unit (homeDie q.psec) (homeUnit q.psec)).entries.any fun e => e.open_ && e.psec == q.psec && e.key == q.key) = true) ∧
    (let q := wReq (.read none) (.acc 1 0 0)
     let s := wMem [q] [] [wEnt none false] []
     s.wireNext q = true ∧ (s.unit (homeDie q.psec) (homeUnit q.psec)).entries.length < 512 ∧ (s.unit (homeDie q.psec) (homeUnit q.psec)).inq = [] ∧
       ((s.unit (homeDie q.psec) (homeUnit q.psec)).entries.any fun e => e.open_ && e.psec == q.psec && e.key == q.key) = false) ∧
    (let q := wReq (.write 1 0) (.back 0 [1])
     let s := wMem [q] [] [] []
     s.wireNext q = true ∧ (s.unit (homeDie q.psec) (homeUnit q.psec)).entries.length < 512 ∧ (s.unit (homeDie q.psec) (homeUnit q.psec)).inq = [] ∧ q.kind ≠ .wait ∧ ∀ k, q.kind ≠ .read k) ∧
    (let q := wReq .wait (.wait 1 7 0 1)
     let s := wMem [q] [] [wEnt none true] []
     s.wireNext q = true ∧ (s.unit (homeDie q.psec) (homeUnit q.psec)).entries.length < 512 ∧ (s.unit (homeDie q.psec) (homeUnit q.psec)).inq = [] ∧
       ∃ v c, (wMem [] [.req q] [] []).nextAt wCh = some (v, c) ∧ v.what = .req q) ∧
    (let s := wMem [] [.entry 4] [wEnt none true] []
     ∃ v c, s.nextAt wCh = some (v, c) ∧ v.what = .entry 4 ∧ s.entry? 4 = some (3, 31, wEnt none true)) ∧
    (let r := wReq (.write (BitVec.allOnes 64) 0) (.back 0 [1])
     let s := wMem [] [.req r] [] []
     ∃ v c, s.nextAt wCh = some (v, c) ∧ v.what = .req r ∧ Memory.wf s.mem = true ∧ r.psec * 64 < memEnd) ∧
    (let r := wReq (.write 0x8000000000000000 0) (.back 0 [1])
     let s := wMem [] [.req r] [] []
     ∃ v c, s.nextAt wCh = some (v, c) ∧ v.what = .req r ∧ r.psec * 64 < memEnd ∧ (0x8000000000000000 : DWord) ≠ BitVec.allOnes 64 ∧ ∃ d, s.check r.key r.psec = some d) ∧
    (let r := { wReq (.write 1 0) (.back 0 [1]) with psec := 0x200000000 }
     let s := wMem [] [.req r] [] []
     ∃ v c, s.nextAt wCh = some (v, c) ∧ v.what = .req r ∧ memEnd ≤ r.psec * 64) ∧
    (let r := { wReq (.write 1 0) (.back 0 [1]) with key := 4 }
     let s := wMem [] [.req r] [] []
     ∃ v c, s.nextAt wCh = some (v, c) ∧ v.what = .req r ∧ (1 : DWord) ≠ BitVec.allOnes 64 ∧ s.check r.key r.psec = none) ∧
    (let r := wReq (.atomic 9 true 56 [0, 0, 0, 0, 0, 0, 0, 0] [0, 0, 0, 0, 0, 0, 0, 0]) (.acc 1 0 0)
     let s := wMem [] [.req r] [] []
     ∃ v c, s.nextAt wCh = some (v, c) ∧ v.what = .req r ∧ Memory.wf s.mem = true ∧ ∃ d, s.check r.key r.psec = some d) ∧
    (let r := { wReq (.atomic 0 false 60 [0, 0, 0, 0] []) (.acc 1 0 0) with key := 4 }
     let s := wMem [] [.req r] [] []
     ∃ v c, s.nextAt wCh = some (v, c) ∧ v.what = .req r ∧ s.check r.key r.psec = none) ∧
    (let e := wEnt (some (0, false, 0)) false
     let s := wMem [] [] [e] []
     s.entry? 4 = some (3, 31, e) ∧ (s.unit 3 31).inq = [] ∧ (wMem [] [] [e] [wReq (.read none) (.acc 1 0 0)]).entry? 4 = some (3, 31, e)) ∧
    (let s := wL1S []
     let k := wCopy (.fill 0 6)
     s.copies.find? (·.id == 9) = some k ∧ s.copyNext k = true ∧
       ((((({ s with copies := s.copies.filter (·.id != 9) } : State).firstCopy k).judge k.req).core 0).fills.find? (·.id == 6)) = none) ∧
    (let k := wCopy (.fill 0 6)
     (∀ na, (wL1S [wFl na]).copies.find? (·.id == 9) = some k ∧ (wL1S [wFl na]).copyNext k = true ∧
       ((((({ wL1S [wFl na] with copies := (wL1S [wFl na]).copies.filter (·.id != 9) } : State).firstCopy k).judge k.req).core 0).fills.find? (·.id == 6)) = some (wFl na)) ∧
     (wFl true).waiters = (1, 5) :: []) ∧
    (∀ src, let s : State := { State.reset with copies := [wCopy src] }
     s.copies.find? (·.id == 9) = some (wCopy src) ∧ (src = .code 0 6 ∨ src = .eng 6 ∨ src = .wait 1 7 0 1 → s.copyNext (wCopy src) = true)) ∧
    (let s := wL1S []
     3 < 4 ∧ (s.core 0).l1[0]? = some wLine ∧ (wLine.sec 3).dm ≠ 0) ∧
    (let d : Done := ⟨9, wReq (.write 1 0) (.back 0 [1]), 50, [], false⟩
     let s := wL1S []
     s.dones.find? (·.id == 9) = some d ∧ s.doneNext d = true ∧ d.req.src = .back 0 [1] ∧ d.bad = false ∧ s.shoots = []) ∧
    (let G := wFG (.release 10) false false
     let s := wFS (.release 10) false false
     s.group? 1 = some G ∧ G.ended = false ∧ G.acc.find? (·.id == 5) = some (wFA (.release 10)) ∧ (accBefore G.acc 5).all (fun b => !b.isRelease) = true ∧ s.released 1 G (wFA (.release 10)) 10 = true ∧
       ¬(G.werr = true ∧ 6 ≤ 10) ∧ G.blk.find? (·.fences 5) = none) ∧
    (let G := wFG (.release 5) true true
     let s := wFS (.release 5) true true
     s.group? 1 = some G ∧ G.ended = false ∧ G.acc.find? (·.id == 5) = some (wFA (.release 5)) ∧ (accBefore G.acc 5).all (fun b => !b.isRelease) = true ∧ s.released 1 G (wFA (.release 5)) 5 = true ∧ ¬(G.werr = true ∧ 6 ≤ 5) ∧
       G.blk.find? (·.fences 5) = some (wBlk (.fence 5 0) none false)) ∧
    (let G := wFG (.release 6) true true
     let s := wFS (.release 6) true true
     s.group? 1 = some G ∧ G.ended = false ∧ G.acc.find? (·.id == 5) = some (wFA (.release 6)) ∧ (accBefore G.acc 5).all (fun b => !b.isRelease) = true ∧ s.released 1 G (wFA (.release 6)) 6 = true ∧ G.werr = true ∧
       G.blk.find? (fun b => overlaps b.mask (wFA (.release 6)).mask) = some (wBlk (.fence 5 0) none false) ∧ s.Trappable G (wBlk (.fence 5 0) none false)) ∧
    (let G := wFG (.acquire 6) false false
     let s := wFS (.acquire 6) false false
     s.group? 1 = some G ∧ G.ended = false ∧ G.acc.find? (·.id == 5) = some (wFA (.acquire 6)) ∧ (wFA (.acquire 6)).due (accBefore G.acc 5) s.now = true ∧ G.blk.find? (·.fences 5) = none) ∧
    (let G := wFG (.acquire 5) true false
     let s := wFS (.acquire 5) true false
     s.group? 1 = some G ∧ (wFA (.acquire 5)).due (accBefore G.acc 5) s.now = true ∧ G.blk.find? (·.fences 5) = some (wBlk (.fence 5 0) none false)) := by
  refine ⟨⟨rfl, by decide, Nat.le_of_eq List.length_replicate.symm⟩, ⟨rfl, by decide, by decide, nofun⟩, ⟨by decide, rfl, by decide⟩, ⟨by decide, by decide, rfl, by decide⟩, ⟨by decide, by decide, rfl, nofun, nofun⟩,
    ⟨by decide, by decide, rfl, _, _, rfl, rfl⟩, ⟨_, _, rfl, rfl, rfl⟩, ⟨_, _, rfl, rfl, rfl, by decide⟩, ⟨_, _, rfl, rfl, by decide, by decide, wCheck _ _ _ _⟩, ⟨_, _, rfl, rfl, by decide⟩, ⟨_, _, rfl, rfl, by decide, rfl⟩,
    ⟨_, _, rfl, rfl, rfl, wCheck _ _ _ _⟩, ⟨_, _, rfl, rfl, rfl⟩, ⟨rfl, rfl, rfl⟩, ⟨rfl, by decide, rfl⟩, ⟨fun na => ⟨rfl, by cases na <;> decide, rfl⟩, rfl⟩, fun src => ⟨rfl, ?_⟩, ⟨by decide, rfl, by decide⟩, ⟨rfl, by decide, rfl, rfl, rfl⟩,
    ⟨rfl, rfl, rfl, by decide, by decide, by decide, rfl⟩, ⟨rfl, rfl, rfl, by decide, by decide, by decide, rfl⟩, ⟨rfl, rfl, rfl, by decide, by decide, rfl, rfl, ?_⟩, ⟨rfl, rfl, rfl, by decide, rfl⟩, ⟨rfl, by decide, rfl⟩⟩
  · rintro (h | h | h) <;> subst h <;> decide
  · exact wTrappable (.fence 5 0) none false

/-! ### Engines -/

/-- A fill of `n` elements into the scratchpad, of which `p` have started; its chunks in flight. -/
def wFill (n p : Nat) (ks : List CopyChunk) : CopyCmd :=
  ⟨9, 3, 1, 0x80000001, 0, 0, 63, 1, 0, 4, 0, BitVec.ofNat 128 (2 ^ 48 + 4 * 2 ^ 64 + 8 * 2 ^ 96), 0, [], 0, 0, 0, n, [], none, p, ks, 0, false, false, 0, none⟩
/-- A transaction whose writes have all completed. -/
def wTxn (who : Eng) : Txn := ⟨who, 0, 1, 0, [], [], [], [], [], true, 0, 5, false, 1⟩
def wCpS (x : CopyCmd) : State := { State.reset with
  cores := [(335, { Core.init with copies := [x] })]
  txns := [(7, wTxn (.copy 335 9))]
  groups := [(1, wG)] }
/-- A queue of function 0 with four slots, with one of them free, one claimed, one published and one taken. -/
def wQRec (en : Bool) : QRec := { QRec.init with
  en := en
  lns := 1
  free := 1
  done := 0
  head := 1
  pub := 2
  tail := 3
  own := 0x80 }
/-- Die 3 with a command at its queue unit. -/
def wQCS (kind n k : Nat) (en : Bool) (own : BitVec 8) : State := { State.reset with
  dies := [(3, { Die.init with
    qcmds := [⟨kind, 3, 335, 0, 1, 0, 1023, n, k, none⟩]
    queues := [(255, { wQRec en with own := own })] })] }
theorem wQOwned (kind n k : Nat) (en : Bool) : (((wQCS kind n k en 0x80).die 3).queue 1023).ownedBy 0 = true := (by decide : ∀ en, QRec.ownedBy { wQRec en with own := 0x80 } 0 = true) en
/-- A device whose function 0 is enabled under key 3, its table one entry that maps the first GiB to itself. -/
def wMap : State := { State.reset with
  mem := [⟨0, 0x41⟩, ⟨1, 0x10⟩]
  side := [(0, Side.clean 3)]
  hostMem := [(0x1000, 0xF)]
  vfs := [(0, { Vf.init with
    en := true
    gen := 3
    hcl := 64 })] }
/-- A peer access of `n` bytes from address 0. -/
def wPeR (op n : Nat) : PeerReq := ⟨0, 0, 5, 1, 2, 31, 0, 0, 0, op, false, (List.range n).map fun i => ⟨0, i, i⟩, List.replicate n 0, [], 1, 0⟩
def wPeS (op n : Nat) : State := { wMap with peerIn := [wPeR op n] }
/-- The same under way. -/
def wPeT (op n : Nat) (x : Txn) : State := { wMap with
  peerRun := [(7, wPeR op n)]
  txns := [(7, x)] }

theorem witness_EngineStepEvents :
    ((wCpS (wFill 0 0 [])).copyCmd? 335 9 = some (wFill 0 0 []) ∧ (wFill 0 0 []).chunks = [] ∧ (wFill 0 0 []).total ≤ (wFill 0 0 []).pos) ∧
    (∀ n ks, (wCpS (wFill n n (⟨7, [0]⟩ :: ks))).copyCmd? 335 9 = some (wFill n n (⟨7, [0]⟩ :: ks)) ∧
      (wCpS (wFill n n (⟨7, [0]⟩ :: ks))).txns.find? 7 = some (wTxn (.copy 335 9)) ∧ (wTxn (.copy 335 9)).complete = true ∧ (wFill n n []).total ≤ (wFill n n []).pos) ∧
    (∀ kind n k en own, ((wQCS kind n k en own).die 3).qcmds = ⟨kind, 3, 335, 0, 1, 0, 1023, n, k, none⟩ :: [] ∧ ((wQCS kind n k en own).die 3).queue 1023 = { wQRec en with own := own }) ∧
    (QRec.ownedBy { wQRec true with own := 0x81 } 0 = false ∧ QRec.ownedBy { wQRec true with own := 0 } 0 = false) ∧
    (∀ en, QRec.ownedBy { wQRec en with own := 0x80 } 0 = true) ∧
    ((wQRec true).en = true ∧ 1 ≤ (wQRec true).free) ∧ ((wQRec false).en = false ∧ (wQRec true).free < 2) ∧
    (1 ≤ qDist (wQRec true).head (wQRec true).pub ∧ qDist (wQRec true).head (wQRec true).pub < 2) ∧
    (qInside (wQRec true).pub (wQRec true).tail 3 1 (wQRec true).pubs = false ∧ qInside (wQRec true).pub (wQRec true).tail 2 1 (wQRec true).pubs = true ∧ (wQRec true).mirror = 0) ∧
    (qInside (wQRec true).done (wQRec true).head 1 1 (wQRec true).dones = false ∧ qInside (wQRec true).done (wQRec true).head 0 1 (wQRec true).dones = true) ∧
    (State.reset.owner 0 = true ∧ 63 < 64 ∧ State.reset.owner 1 = false ∧ 64 ≤ 64) ∧
    (let y : Shoot := ⟨9, 0, 0, 1, true, [], 0⟩
     let s := { State.reset with shoots := [y] }
     s.shoots.find? (·.id == 9) = some y ∧ y.begun = true ∧ y.out = [] ∧ y.until_ ≤ s.now) ∧
    (let y : Shoot := ⟨9, 0, 0, 1, false, [], 0⟩
     let s := { wFS (.release 1) false false with shoots := [y] }
     s.shoots.find? (·.id == 9) = some y ∧ y.begun = false ∧ s.shootWaits y = false) ∧
    (∀ op n, (wPeS op n).peerIn[0]? = some (wPeR op n) ∧ ((wPeS op n).peerIn.take 0).any (fun x => x.from_ == 5 && x.rvf == 0 && x.vsec == 0) = false ∧
      ((wPeS op n).peerIn.eraseIdx 0) = [] ∧ ((wPeS op n).vf 0).en = true) ∧
    (({ State.reset with peerIn := [wPeR 0 1] } : State).vf 0).en = false ∧
    (let w : State := { wMap with hostMem := [] }
     w.translate (w.die 0).tlb 0 0 .read 1 = .fault 5 2 ⟨[⟨0, 3, 0, 0x1041⟩], [(3, 0)]⟩) ∧
    (∀ k : Want, k = .read ∨ k = .write ∨ k = .atomic → wMap.translate (wMap.die 0).tlb 0 0 k 1 = .ok 0 ⟨[⟨0, 2, 0, 0xF⟩, ⟨0, 3, 0, 0x1041⟩], [(3, 0)]⟩) ∧
    ((wPeR 0 4).op = 0 ∧ (wPeR 1 4).op = 1 ∧ 2 ≤ (wPeR 2 4).op) ∧
    (∃ x, (wMap.beginTxn .peer 0 1 0 [] [(0, (wPeR 2 4).places 0)]).1.txns.find? (wMap.beginTxn .peer 0 1 0 [] [(0, (wPeR 2 4).places 0)]).2 = some x) ∧
    (∀ op n v, (wPeT op n v).peerIn.length ≤ 0 ∧ (wPeT op n v).peerRun[0 - (wPeT op n v).peerIn.length]? = some (7, wPeR op n) ∧ (wPeT op n v).txns.find? 7 = some v) ∧
    ({ wTxn .peer with sent := false }).ready = true ∧ (wTxn .peer).complete = true ∧ (wTxn .peer).bad = [] ∧ (wTxn .peer).werr = false := by
  refine ⟨⟨rfl, rfl, by decide⟩, fun _ _ => ⟨rfl, rfl, rfl, Nat.le_refl _⟩, fun _ _ _ _ _ => ⟨rfl, rfl⟩, by decide, by decide, by decide, by decide, by decide, by decide, by decide, by decide,
    ⟨rfl, rfl, rfl, by decide⟩, ⟨rfl, rfl, by decide⟩, fun _ _ => ⟨rfl, rfl, rfl, rfl⟩, rfl, by decide +kernel, ?_, by decide, ⟨_, rfl⟩, fun _ _ _ => ⟨Nat.le_refl _, rfl, rfl⟩, rfl, rfl, rfl, rfl⟩
  rintro k (h | h | h) <;> subst h <;> decide +kernel

/-! ### Launches -/

/-- Function 63 with its queue 3 enabled, a record standing at 4096. -/
def wRecS : State := { wMap with
  vfs := [(63, { Vf.init with
    en := true
    gen := 3
    sq := [(3, { SubQ.init with
      en := true
      tail := 1
      base := 4096 })] })] }
/-- The record has come, its GRIDX being `x`; the sectors `bad` failed their check. -/
def wRT2 (x : Nat) (bad : List Nat) : Txn :=
  ⟨.subq 63 3, 63, 1, 0, (List.range 256).map fun i => (i, [.glob (4096 + i) (4096 + i)]), [], [],
    [(64, BitVec.ofNat 512 (1 + x * 2 ^ 256 + 2 ^ 288 + 2 ^ 304 + 0x440 * 2 ^ 320)), (65, BitVec.ofNat 512 (4 * 2 ^ 64))], bad, false, 0, 0, false, 1⟩
def wRdS (x : Nat) (bad : List Nat) : State := { wRecS with txns := [(7, wRT2 x bad)] }
def wRB (x : Nat) (bad : List Nat) : List (Option (List Byte)) := (wRT2 x bad).rd.map fun y => (wRdS x bad).txnBytes (wRT2 x bad) y.2
/-- A launch that has not been placed, or one whose team 2 is saved. -/
def wLn (prio tagn : Nat) (st : LStat) (sv : List Nat) (dl : Option Nat) : Launch := ⟨0, { oneLaunch false with
  prio := prio
  tagn := tagn }, st, dl, false, if st = .eligible then 0 else 1, sv, 0, false, 0, [], some 0⟩
/-- Core 0 alone is up, and holds a team of PRIO 0 with all tags. -/
def wBusy : State := { State.reset with
  cores := ((List.range 335).map fun k => (k + 1, { Core.init with up := false }))
  launches := [(1, wLn 0 64 .running [] none), (2, wLn 7 64 .eligible [] none)]
  teams := [(3, { oneTeam false 1 1 with tagN := 64 })]
  groups := [(1, wG)] }
/-- A launch whose team 3 is saved, and one that is to be placed. -/
def wSvd : State := { State.reset with
  launches := [(1, wLn 0 64 .running [3] none)]
  teams := [(3, { oneTeam false 1 1 with
    tagN := 64
    pre := .saved })]
  groups := [(1, wG)] }
def wNew : State := { State.reset with launches := [(1, wLn 0 64 .eligible [] none)] }
theorem placed_of {o : Option Decision} (h : (match o with | some (.place _ _) => true | _ => false) = true) : ∃ l f, o = some (.place l f) := by
  split at h
  · exact ⟨_, _, rfl⟩
  · cases h
theorem preempted_of {o : Option Decision} (h : (match o with | some (.preempt _) => true | _ => false) = true) : ∃ ts, o = some (.preempt ts) := by
  split at h
  · exact ⟨_, rfl⟩
  · cases h
theorem restored_of {o : Option Decision} {n : Nat} (h : (match o with | some (.restore _ ts) => (ts.head?.map (·.1)) == some n | _ => false) = true) :
    ∃ l ts f, o = some (.restore l ts) ∧ ts.head? = some (n, f) := by
  split at h
  · rename_i l ts
    cases ts with
    | nil => cases h
    | cons x xs => exact ⟨l, _, x.2, rfl, by simp at h; simp [← h]⟩
  · cases h
/-- A placed team that has not started, its launch reads having come where there is a transaction for them. -/
def wUT : Team := { oneTeam false 1 1 with started := false }
def wST (bad : List Nat) : Txn := ⟨.start 3, 0, 0, 0, [(0, [.glob 64 64])], [], [], [], bad, false, 0, 0, false, 1⟩
def wUS (xs : SMap Txn) : State := { State.reset with
  launches := [(1, wLn 0 0 .running [] none)]
  teams := [(3, wUT)]
  txns := xs
  groups := [(1, wG)] }

theorem witness_LaunchEvents :
    (State.reset.owner 0 = true ∧ 63 < 64 ∧ 3 < 4 ∧ State.reset.owner 1 = false) ∧
    (wRecS.recordRead = none ∧ wRecS.nextSq = some (63, 3) ∧ (wRecS.recordPlan 63 3).faults = [] ∧
      ({ wRecS with hostMem := [] } : State).recordRead = none ∧ ({ wRecS with hostMem := [] } : State).nextSq = some (63, 3) ∧
      (({ wRecS with hostMem := [] } : State).recordPlan 63 3).faults ≠ []) ∧
    (∀ x bad, (wRdS x bad).recordRead = some (7, wRT2 x bad, 63, 3) ∧ (wRT2 x bad).ready = true ∧ ((wRdS x bad).vf 63).en = true ∧ (((wRdS x bad).vf 63).subq 3).ready = true) ∧
    (wRB 1 [67]).any Option.isNone = true ∧
    ((wRB 0 []).any Option.isNone = false ∧ recordOk (recordNat (wRB 0 [])) = false) ∧
    ((wRB 1 []).any Option.isNone = false ∧ recordOk (recordNat (wRB 1 [])) = true ∧ (wRdS 1 []).launches = []) ∧
    (let s : State := { wRdS 1 [] with vfs := [] }
     s.recordRead = some (7, wRT2 1 [], 63, 3) ∧ (s.vf 63).en = false) ∧
    ((wUS []).unread = some (3, wUT) ∧ (wUS []).launch? 1 = some (wLn 0 0 .running [] none)) ∧
    (∀ bad, (wUS [(7, wST bad)]).unread = none ∧ (wUS [(7, wST bad)]).startable = some [(3, wUT)] ∧ (wUS [(7, wST bad)]).team? 3 = some wUT ∧
      (wUS [(7, wST bad)]).startRead 3 = some (7, wST bad)) ∧
    ((∃ bs, (wUS [(7, wST [])]).txnBytes (wST []) ((wST []).rd.flatMap (·.2)) = some bs) ∧
      (wUS [(7, wST [1])]).txnBytes (wST [1]) ((wST [1]).rd.flatMap (·.2)) = none) ∧
    (wNew.unread = none ∧ wNew.startable = none ∧ ∃ l fits, wNew.decide = some (.place l fits)) ∧
    (wBusy.unread = none ∧ wBusy.startable = none ∧ ∃ ts, wBusy.decide = some (.preempt ts)) ∧
    ({ wBusy with teams := [(3, { oneTeam false 1 1 with
      room := true
      pre := .flushing })] } : State).makingRoom = true ∧
    (({ wNew with now := 1000001 } : State).launch? 1 = some (wLn 0 64 .eligible [] none) ∧ (wLn 0 64 .eligible [] none).unplaced = true ∧ (wLn 0 64 .eligible [] none).noBack = false ∧
      (wLn 0 64 .eligible [] none).since + 1000000 < 1000001) ∧
    (let M := wLn 0 0 .running [] (some 0)
     ({ State.reset with launches := [(1, M)] } : State).launch? 1 = some M ∧ M.st = .running ∧ M.late = false ∧ M.dl = some 0 ∧ M.ran = some 0 ∧ 0 ≤ 0) := by
  refine ⟨by decide, ⟨rfl, by decide +kernel, by decide +kernel, rfl, by decide +kernel, by decide +kernel⟩, fun _ _ => ⟨rfl, rfl, rfl, rfl⟩, by decide +kernel,
    ⟨by decide +kernel, by decide +kernel⟩, ⟨by decide +kernel, by decide +kernel, rfl⟩, ⟨rfl, rfl⟩, ⟨rfl, rfl⟩, fun _ => ⟨rfl, rfl, rfl, rfl⟩, ⟨⟨_, rfl⟩, rfl⟩,
    ⟨rfl, rfl, placed_of (by decide +kernel)⟩, ⟨rfl, rfl, preempted_of (by decide +kernel)⟩, rfl, ⟨rfl, by decide, rfl, by decide⟩, ⟨rfl, rfl, rfl, rfl, rfl, Nat.le_refl _⟩⟩

/-- A team in a state of its pre-emption, with its group. -/
def wPT (p : Pre) : Team := { oneTeam false 1 1 with pre := p }
def wPrS (p : Pre) (e : Bool) : State := { State.reset with
  now := 100000
  teams := [(3, wPT p)]
  groups := [(1, { wG with ended := e })] }
/-- Function 63 with a record for each of its rings, which have one place left. -/
def wRings : State := { State.reset with vfs := [(63, { Vf.init with
  cq := { Ring.init with
    en := true
    p := 62
    c := 0xFFFFFFFF
    held := [5] }
  fq := { Ring.init with
    en := true
    p := 63
    held := [6] } })] }
/-- Faults of function 63 that are out. -/
def wFlt (p : Parked) (pre : Pre) : State := { wPrS pre false with
  faults := [(63 * 2 ^ 32 + 0xFFFFFFFF, p)]
  groups := [(1, { wG with team := 3 })] }

theorem witness_PreemptionAndRecords :
    ((wPrS .none false).team? 3 = some (wPT .none) ∧ (wPT .none).pre = .none) ∧
    ((wPrS (.asked 0) false).team? 3 = some (wPT (.asked 0)) ∧ (wPT (.asked 0)).pre = .asked 0 ∧
      0 + (if ((wPrS (.asked 0) false).vf (wPT (.asked 0)).vf).pto = 0 then 100000 else ((wPrS (.asked 0) false).vf (wPT (.asked 0)).vf).pto) ≤ (wPrS (.asked 0) false).now ∧
      ((wPT (.asked 0)).groups.any fun g => match (wPrS (.asked 0) false).group? g with | some G => G.running | none => false) = true) ∧
    ((wPrS (.asked 7) true).team? 3 = some (wPT (.asked 7)) ∧ (wPrS (.asked 7) true).saveReady 3 (wPT (.asked 7)) = true) ∧
    ((wPrS .flushing true).team? 3 = some (wPT .flushing) ∧ (wPrS .flushing true).saveReleased (wPT .flushing) = true) ∧
    (∃ l ts f, wSvd.decide = some (.restore l ts) ∧ ts.head? = some (3, f)) ∧
    (wRings.txnOf (.ring 63 true) = none ∧ (wRings.vf 63).cq.held = 5 :: [] ∧ (wRings.vf 63).cq.room = true) ∧
    (wRings.txnOf (.ring 63 false) = none ∧ (wRings.vf 63).fq.held = 6 :: [] ∧ (wRings.vf 63).fq.room = true) ∧
    (∀ cq, ({ wRings with txns := [(7, wTxn (.ring 63 cq))] } : State).txnOf (.ring 63 cq) = some (7, wTxn (.ring 63 cq)) ∧ (wTxn (.ring 63 cq)).complete = true) ∧
    (State.reset.owner 0 = true ∧ State.reset.faults.find? (63 * 2 ^ 32 + 0xFFFFFFFF % 2 ^ 32) = none) ∧
    ((wFlt .trap .none).owner 0 = true ∧ (wFlt .trap .none).faults.find? (63 * 2 ^ 32 + 0xFFFFFFFF % 2 ^ 32) = some .trap ∧
      (wFlt (.seq 3) .none).faults.find? (63 * 2 ^ 32 + 0x3FFFFFFFF % 2 ^ 32) = some (.seq 3) ∧ 0x3FFFFFFFF / 2 ^ 32 % 4 = 3) ∧
    (let s := wFlt (.lanes 1 0x80000001) .none
     s.owner 0 = true ∧ s.faults.find? (63 * 2 ^ 32 + 0xFFFFFFFF % 2 ^ 32) = some (.lanes 1 0x80000001) ∧ s.group? 1 = some { wG with team := 3 } ∧ (0x80000001 : Word) ≠ 0 ∧ s.saving 3 = false ∧
       0xFFFFFFFF / 2 ^ 32 % 4 = 0 ∧ 0x1FFFFFFFF / 2 ^ 32 % 4 = 1 ∧ 0x1FFFFFFFF % 2 ^ 32 = 0xFFFFFFFF ∧ 0x2FFFFFFFF / 2 ^ 32 % 4 = 2 ∧ 0x2FFFFFFFF % 2 ^ 32 = 0xFFFFFFFF ∧ s.team? 3 = some (wPT .none)) ∧
    (let s := wFlt (.seq 3) .saved
     s.faults.find? (63 * 2 ^ 32 + 0x2FFFFFFFF % 2 ^ 32) = some (.seq 3) ∧ (.seq 3 : Parked) ≠ .trap ∧ 0x2FFFFFFFF / 2 ^ 32 % 4 ≠ 3 ∧ s.partyTeam (.seq 3) = some 3 ∧ s.saving 3 = true) := by
  refine ⟨⟨rfl, rfl⟩, ⟨rfl, rfl, by decide, by decide⟩, ⟨rfl, by decide⟩, ⟨rfl, by decide⟩, restored_of (by decide +kernel), ⟨rfl, rfl, by decide⟩, ⟨rfl, rfl, by decide⟩, fun cq => ⟨by cases cq <;> rfl, rfl⟩,
    ⟨by decide, rfl⟩, ⟨by decide, by decide, by decide, by decide⟩, ⟨by decide, by decide, rfl, by decide, by decide, by decide, by decide, by decide, by decide, by decide, rfl⟩, ⟨by decide, nofun, by decide, rfl, by decide⟩⟩

/-! ### What the host does, service, and repair -/

/-- The device with queue 1023 of die 3, enabled or not. -/
def wHQ (en : Bool) : State := { State.reset with dies := [(3, { Die.init with queues := [(255, { QRec.init with en := en })] })] }
/-- Function 63 enabled or not, beside function 0, which has key 1 and ASID 0. -/
def wHV (en : Bool) : State := { State.reset with vfs := [(0, { Vf.init with
  en := true
  key := 1 }), (63, { Vf.init with en := en })] }

/-- Memory reached through Neard for function 63, with an access under way to a sector. -/
def wHT (x : Txn) : State := { State.reset with txns := [(7, x)] }

theorem witness_HostRegisterEvents :
    (State.reset.owner 0 = true ∧ State.reset.owner 1 = false ∧ 63 < 64 ∧ 1023 < 1024 ∧ 3 < 4) ∧
    ((wHV false).owner 0 = true ∧ ((wHV false).vf 63).en = false ∧ (wHV false).enableBad 63 (0x804 / 2 * 2 + 1) = false ∧ (wHV false).enableBad 63 (0x404 / 2 * 2 + 1) = true ∧
      (wHV false).enableBad 63 (0 / 2 * 2 + 1) = true) ∧
    ((wHV true).owner 0 = true ∧ ((wHV true).vf 63).en = true) ∧
    (((wHQ false).die (1023 / 256)).queue 1023).en = false ∧
    ((((wHQ true).die (1023 / 256)).queue 1023).en = true ∧ 0 / 2 ^ 155 % 2 = 0 ∧ 2 ^ 155 / 2 ^ 155 % 2 = 1) ∧
    (2 ^ 32 ≤ 2 ^ 32 ∧ 2 ^ 32 % 2 ^ 21 = 0 ∧ ∀ o, o < 16 → (State.reset.assay 3 o).ast &&& 1 = 0) ∧
    (1600 ≤ 1600 ∧ 2400 ≤ 2400) ∧
    (0x1FFFFFFFF * 64 < memEnd ∧ State.reset.txnOf (.host 63 0x1FFFFFFFF) = none ∧ 1 ≠ 0) ∧
    (let x := wTxn (.host 63 0x1FFFFFFFF)
     (wHT x).txnOf (.host 63 0x1FFFFFFFF) = some (7, x) ∧ x.complete = true) ∧
    (let x : Txn := { wTxn (.host 63 0x1FFFFFFFF) with sent := false }
     (wHT x).txnOf (.host 63 0x1FFFFFFFF) = some (7, x) ∧ x.complete = false ∧ x.ready = true) := by
  refine ⟨by decide, by decide, by decide, rfl, ⟨rfl, by decide, by decide⟩, ⟨by decide, by decide, fun o _ => ?_⟩, by decide, ⟨by decide, rfl, by decide⟩, ⟨rfl, rfl⟩, ⟨rfl, rfl, rfl⟩⟩
  show (0 : Word) &&& 1 = 0
  decide

/-- Core 335 with a line and a group and a team of its own. -/
def wArr (dm : DWord) : State := { State.reset with
  cores := [(335, { Core.init with
    l1 := [⟨0, 0, 5, 5, [(3, { Sector.init with dm := dm })], true⟩]
    icache := [⟨0, 0, 0, 0⟩] })]
  groups := [(1, { wG with core := 335 })]
  teams := [(2, { oneTeam false 1 1 with core := 335 })]
  vfs := [(0, { Vf.init with hcl := 64 })] }
/-- Die 3 without a spare. -/
def wNoSp : State := { State.reset with dies := [(3, { Die.init with spares := [] })] }
/-- A row of die 0 with sixteen corrections within 2^30 ticks. -/
def wRow : State := { State.reset with rowCorr := [(5, [2 ^ 30, 1, 1, 1, 1, 1, 1, 1, 1, 1, 1, 1, 1, 1, 1, 0])] }

theorem witness_ServiceEvents :
    (State.reset.owner 0 = true ∧ ({ State.reset with boot := .recovery } : State).boot = .recovery) ∧
    ((true && true && decide (({ State.reset with boot := .recovery } : State).floor ≤ 0)) = true ∧
      (decide (3 % 2 = 1) && decide (3 / 2 % 2 = 1) && decide (({ State.reset with
        boot := .recovery
        floor := 1 } : State).floor ≤ 0 % 2 ^ 16)) = false ∧ (decide (1 % 2 = 1) && decide (1 / 2 % 2 = 1) && decide (({ State.reset with boot := .recovery } : State).floor ≤ 0 % 2 ^ 16)) = false) ∧
    (3 < 4 ∧ 335 < 336) ∧
    (((wArr 0).core 335).l1[0]? = some ⟨0, 0, 5, 5, [(3, { Sector.init with dm := 0 })], true⟩ ∧ (Line.sec ⟨0, 0, 5, 5, [(3, { Sector.init with dm := 0 })], true⟩ 3).dm = 0) ∧
    (((wArr 1).core 335).l1[0]? = some ⟨0, 0, 5, 5, [(3, { Sector.init with dm := 1 })], true⟩ ∧ (Line.sec ⟨0, 0, 5, 5, [(3, { Sector.init with dm := 1 })], true⟩ 3).dm ≠ 0) ∧
    0 < ((wArr 0).core 335).icache.length ∧
    ((wArr 0).group? 1 = some { wG with core := 335 } ∧ 31 < 32 ∧ (({ wG with core := 335 } : Group).lane 31).st ≠ .exited ∧ (wArr 0).isSaved ({ wG with core := 335 } : Group).team = false ∧ ({ wG with core := 335 } : Group).rbReq = false ∧ ({ wG with core := 335 } : Group).ended = false ∧ (({ wG with core := 335 } : Group).lane 31).hnd = false ∧ ((wArr 0).vf 0).hcl ≠ 0) ∧
    ((wArr 0).team? 2 = some { oneTeam false 1 1 with core := 335 } ∧ ({ oneTeam false 1 1 with core := 335 } : Team).pre ≠ .saved) ∧
    (let w := (State.reset.teamsOn 335 []).foldl (fun s x => s.loseTeam x.1) State.reset
     let u : State := { w with txns := w.txns.filter fun x => !(x.2.who.onCore 335) }
     (State.reset.core 335).up = true ∧ (u.die (335 / 84)).spares = 84 :: [85, 86, 87]) ∧
    (let w := (wNoSp.teamsOn 335 []).foldl (fun s x => s.loseTeam x.1) wNoSp
     let u : State := { w with txns := w.txns.filter fun x => !(x.2.who.onCore 335) }
     (wNoSp.core 335).up = true ∧ (u.die (335 / 84)).spares = []) ∧
    (16 ≤ (wRow.rowCorr.get (0 * 2 ^ 32 + 5) []).length ∧ (wRow.rowCorr.get (0 * 2 ^ 32 + 5) []).headD 0 - (wRow.rowCorr.get (0 * 2 ^ 32 + 5) []).getLastD 0 ≤ 2 ^ 30) ∧
    (7 < 8 ∧ 31 < 32 ∧ State.reset.spared.find? 7 = none) ∧ 19 < 20 ∧ 25 < 26 ∧ State.reset.planes ≠ [] := by
  refine ⟨by decide, by decide, by decide, ⟨rfl, rfl⟩, ⟨rfl, by decide⟩, by decide, ⟨rfl, by decide, nofun, rfl, rfl, rfl, rfl, nofun⟩, ⟨rfl, nofun⟩, ⟨rfl, rfl⟩, ⟨rfl, rfl⟩, by decide, by decide, by decide, by decide, nofun⟩

/-! ### The Drover and the Assayer -/

/-- An object of two ranks and one path with a parent. -/
def wCo (parent cto : Nat) (op : Nat) (P : PathSt) : Coll := { Coll.init with
  dst := 1
  op := op
  n := 2
  nch := 2
  plan := [⟨1, 0, 0, parent⟩]
  dl := 10
  cto := cto
  rnd := 7
  split := [4]
  paths := [(0, P)] }
/-- The device with it as object 255, and packets or chunks for it, at a tick. -/
def wDS (c : Coll) (ps : List DroPkt) (ks : List Chunk) (now : Nat) : State := { State.reset with
  now := now
  colls := [(255, c)]
  droIn := ps
  chunks := ks }
def wDP (kind rnd tick : Nat) : DroPkt := ⟨255, rnd, 0, kind, 0, 0, 1, true, tick, [], []⟩
def wDK (idx : Nat) : Chunk := ⟨0, 0, 0, 255, 0, idx, 0, [], none, none⟩

theorem witness_DroverEvents :
    (let c := wCo 0 0 0 PathSt.init
     let s := wDS c [] [wDK 2] 0
     s.chunks[0]? = some (wDK 2) ∧ s.chunkNext 0 (wDK 2) = true ∧ (c.isOpen && (wDK 2).idx < c.nch && !(c.chunks.contains (wDK 2).idx) && (wDK 2).type == c.type) = false) ∧
    (let c := wCo 0 0 0 PathSt.init
     let s := wDS c [] [wDK 1] 0
     s.chunks[0]? = some (wDK 1) ∧ s.chunkNext 0 (wDK 1) = true ∧ (s.coll 255) = c ∧ c.isOpen = true ∧ (wDK 1).idx < c.nch ∧ (wDK 1).idx ∉ c.chunks ∧ (wDK 1).type = c.type ∧ c.chunks.length + 1 ≠ c.nch ∧
       ({ c with chunks := [0] } : Coll).chunks.length + 1 = c.nch ∧ (wDK 1).idx ∉ [0]) ∧
    (∀ k, (wDS (wCo 0 0 0 PathSt.init) [wDP k 8 0] [] 0).droPkt? 0 [k] = some (wDP k 8 0)) ∧ (wDP 0 8 0).rnd ≠ (wCo 0 0 0 PathSt.init).rnd ∧
    (let c := wCo 0 0 0 PathSt.init
     let s := wDS c [wDP 0 7 9] [] 0
     s.droPkt? 0 [0] = some (wDP 0 7 9) ∧ c.isOpen = true ∧ (wDP 0 7 9).rnd = c.rnd ∧ (wDP 0 7 9).path < c.plan.length ∧ ((wDP 0 7 9).tick : Int) < c.deadline 0 ∧ (c.path 0).fwd = false) ∧
    (let c := wCo 0x3FE 0 0 PathSt.init
     let s := wDS c [wDP 0 7 10] [] 0
     s.droPkt? 0 [0] = some (wDP 0 7 10) ∧ c.isOpen = true ∧ c.deadline 0 ≤ (wDP 0 7 10).tick ∧ c.plan[0]? = some ⟨1, 0, 0, 0x3FE⟩) ∧
    (let c := wCo 0x3FF 0 0 { PathSt.init with fwd := true }
     let s := wDS c [wDP 0 7 9] [] 0
     s.droPkt? 0 [0] = some (wDP 0 7 9) ∧ c.isOpen = true ∧ (c.path 0).fwd = true ∧ c.plan[0]? = some ⟨1, 0, 0, 0x3FF⟩) ∧
    (∀ k, k = 3 ∨ k = 4 ∨ k = 5 → (wDS (wCo 0 0 0 PathSt.init) [wDP k 7 0] [] 0).droPkt? 0 [3, 4, 5] = some (wDP k 7 0)) ∧
    (∀ p, (wCo p 0 0 PathSt.init).isOpen = true ∧ (wCo p 0 0 PathSt.init).plan[0]? = some ⟨1, 0, 0, p⟩ ∧ (wDP 3 7 0).path < (wCo p 0 0 PathSt.init).plan.length ∧ (wDP 3 7 0).rnd = (wCo p 0 0 PathSt.init).rnd) ∧
    ((wDP 4 7 0).kind ≠ 3 ∧ ((wCo 0 0 0 { PathSt.init with have_ := true }).path 0).have_ = true ∧ (wDS (wCo 0 0 0 { PathSt.init with have_ := true }) [wDP 4 7 0] [] 0).droPkt? 0 [3, 4, 5] = some (wDP 4 7 0)) ∧
    ((wCo 0x3FF 0 0 PathSt.init).cto = 0 ∧ (wCo 0x3FF 5 0 PathSt.init).dl + (wCo 0x3FF 5 0 PathSt.init).cto < (wDP 3 7 16).tick) ∧
    (let c := wCo 0x3FF 5 2 { PathSt.init with have_ := true }
     c.cto ≠ 0 ∧ (wDP 3 7 15).tick ≤ c.dl + c.cto ∧ (c.path 0).have_ = true ∧ c.op ≠ 1) ∧
    (∀ k P, k = 1 ∨ k = 2 → (wDS (wCo 0 0 0 P) [wDP k 7 0] [] 0).droPkt? 0 [1, 2] = some (wDP k 7 0)) ∧ ((wCo 0 0 0 PathSt.init).path 0).have_ = false ∧
    (wDS (wCo 0 0 0 PathSt.init) [wDP 6 7 0] [] 0).droPkt? 0 [6] = some (wDP 6 7 0) ∧
    (∀ p, let s := wDS (wCo p 0 0 PathSt.init) [] [] 10
      s.coll 255 = wCo p 0 0 PathSt.init ∧ ((wCo p 0 0 PathSt.init).path 0).fwd = false ∧ (wCo p 0 0 PathSt.init).isOpen = true ∧ (wCo p 0 0 PathSt.init).deadline 0 ≤ s.now ∧ s.droIn = [] ∧
        (wCo p 0 0 PathSt.init).op ≠ 1 ∧ ((wCo p 0 0 PathSt.init).path 0).cq = []) ∧
    (let c := wCo 0x3FF 5 0 { PathSt.init with have_ := true }
     let s := wDS c [] [] 15
     c.plan[0]? = some ⟨1, 0, 0, 0x3FF⟩ ∧ c.isOpen = true ∧ c.dl + c.cto ≤ s.now ∧ (c.path 0).have_ = true ∧ (c.path 0).closed = false ∧ s.droIn = [] ∧ (c.jobs.any fun j => j.path == 0) = false ∧ c.op ≠ 1) ∧
    (let y : Corr := ⟨9, 0, 1, 0, some 0⟩
     let s := wDS { wCo 0 0 0 PathSt.init with corrs := [y] } [] [] 0
     (s.coll 255).corrs.find? (fun (z : Corr) => z.id == 9) = some y ∧ y.tEnd = some 0 ∧ 0 ≤ s.now) ∧
    (3 < 4 ∧ (({ State.reset with now := 65536 } : State).die 3).rateAt + 65536 ≤ 65536 ∧ State.reset.linkIdle 7 = true) := by
  refine ⟨⟨rfl, rfl, by decide⟩, ⟨rfl, rfl, rfl, by decide, by decide, by decide, rfl, by decide, rfl, by decide⟩, fun k => ?_, by decide, ⟨rfl, by decide, rfl, by decide, by decide, rfl⟩,
    ⟨rfl, by decide, by decide, rfl⟩, ⟨rfl, by decide, rfl, rfl⟩, ?_, fun _ => ⟨(by decide : ((1 : Word) &&& dstOPEN != 0) = true), rfl, Nat.zero_lt_one, rfl⟩, ⟨by decide, rfl, rfl⟩, ⟨rfl, by decide⟩, ⟨by decide, by decide, rfl, by decide⟩, ?_, rfl, rfl,
    fun _ => ⟨rfl, rfl, (by decide : ((1 : Word) &&& dstOPEN != 0) = true), (by decide : ((10 : Nat) : Int) - ((0 * 0 : Nat) : Int) ≤ ((10 : Nat) : Int)), rfl, nofun, rfl⟩, ⟨rfl, by decide, by decide, rfl, rfl, rfl, rfl, by decide⟩, ⟨rfl, rfl, by decide⟩, by decide⟩
  · simp [State.droPkt?, wDS, wDP]
  · rintro k (rfl | rfl | rfl) <;> rfl
  · rintro k P (rfl | rfl) <;> rfl

/-- An open object of two contributors and four elements, past its deadline or not, its slot 1 as given. -/
def wAs (due : Bool) (q : Slot) : Assay := { Assay.init with
  ast := if due then 3 else 1
  c := 2
  ne := 4
  dl := 10
  cto := 5
  akey := 9
  rnd := 0x10007
  slots := [(1, q)] }
def wAD (a : Assay) (ps : List AsyPkt) (now : Nat) : State := { State.reset with
  now := now
  dies := [(3, { Die.init with assays := [(15, a)] })]
  asyIn := ps }
def wAP (kind : Nat) (key : Word) (id ser n first : Nat) (vs : List Word) (tick : Nat) : AsyPkt := ⟨kind, 0, 0, 3, 15, key, id, ser, n, first, vs, tick, 0⟩
/-- A slot that stages, with the values given. -/
def wSl (want cnt : Nat) (vs : SMap Word) (bad : Bool) : Slot := { Slot.init with
  st := 1
  want := want
  cnt := cnt
  vals := vs
  bad := bad }

theorem witness_AssayerEvents :
    (∀ k, k < 3 → (wAD { wAs false Slot.init with ast := 0 } [wAP k 9 1 7 4 0 [] 9] 0).asyPkt? 0 k = some (wAP k 9 1 7 4 0 [] 9) ∧ ({ wAs false Slot.init with ast := 0 } : Assay).isOpen = false) ∧
    (∀ k, k < 3 → (wAD (wAs false Slot.init) [wAP k 8 1 7 4 0 [] 9] 0).asyPkt? 0 k = some (wAP k 8 1 7 4 0 [] 9) ∧ (wAs false Slot.init).isOpen = true ∧ (8 : Word) ≠ (wAs false Slot.init).akey ∧
      (wAD (wAs false Slot.init) [wAP k 9 2 7 4 0 [] 9] 0).asyPkt? 0 k = some (wAP k 9 2 7 4 0 [] 9) ∧ (wAs false Slot.init).c ≤ 2) ∧
    (∀ k, k < 3 → (wAD (wAs false Slot.init) [wAP k 9 1 6 4 0 [] 9] 0).asyPkt? 0 k = some (wAP k 9 1 6 4 0 [] 9) ∧ (9 : Word) = (wAs false Slot.init).akey ∧ 1 < (wAs false Slot.init).c ∧
      6 ≠ (wAs false Slot.init).rnd % 65536) ∧
    (∀ k, k < 3 → (wAD (wAs true Slot.init) [wAP k 9 1 7 4 0 [] 14] 0).asyPkt? 0 k = some (wAP k 9 1 7 4 0 [] 14) ∧ (wAs true Slot.init).isOpen = true ∧ 7 = (wAs true Slot.init).rnd % 65536 ∧ (wAs true Slot.init).shut = false ∧ (wAs true Slot.init).smear = false) ∧
    ((wAP 0 9 1 7 4 0 [] 9).kind = 0 ∧ ((wAs false Slot.init).slot 1).st = 0 ∧ ((wAs false (wSl 4 0 [] false)).slot 1).st ≠ 0) ∧
    ((wAP 1 9 1 7 4 0 [] 9).kind = 1 ∧ ((wAs false Slot.init).slot 1).st ≠ 1) ∧
    (let a := wAs false (wSl 4 1 [(3, 5)] false)
     (a.slot 1).st = 1 ∧ a.ne < (wAP 1 9 1 7 4 3 [0, 0] 9).first + (wAP 1 9 1 7 4 3 [0, 0] 9).vals.length ∧
       ∃ i, i < (wAP 1 9 1 7 4 3 [0] 9).vals.length ∧ (SMap.find? (a.slot 1).vals ((wAP 1 9 1 7 4 3 [0] 9).first + i)).isSome = true) ∧
    (let a := wAs false (wSl 4 1 [(0, 5)] false)
     (wAP 1 9 1 7 4 3 [0] 9).first + (wAP 1 9 1 7 4 3 [0] 9).vals.length ≤ a.ne ∧
       ∀ i, i < (wAP 1 9 1 7 4 3 [0] 9).vals.length → SMap.find? (a.slot 1).vals ((wAP 1 9 1 7 4 3 [0] 9).first + i) = none) ∧
    ((wAP 2 9 1 7 3 0 [] 9).n ≠ ((wAs false (wSl 4 4 [] false)).slot 1).want ∧ ((wAs false (wSl 3 4 [] false)).slot 1).want ≠ 4 ∧ ((wAs false (wSl 4 3 [] false)).slot 1).cnt ≠ 4) ∧
    (let a := wAs false (wSl 4 4 [] true)
     (a.slot 1).st = 1 ∧ (wAP 2 9 1 7 4 0 [] 9).n = a.ne ∧ (a.slot 1).want = a.ne ∧ (a.slot 1).cnt = a.ne ∧ (a.slot 1).bad = true) ∧
    (let a := wAs false (wSl 4 4 [(0, 0x7F800000)] false)
     (a.slot 1).bad = false ∧ asyNorm a.ne (a.slot 1).vals / 2 ^ 23 % 256 = 255) ∧
    (let a := wAs false (wSl 4 4 [(0, 0x3F800000)] false)
     (a.slot 1).bad = false ∧ asyNorm a.ne (a.slot 1).vals / 2 ^ 23 % 256 ≠ 255 ∧ (wAP 2 9 1 7 4 0 [] 9).tick < a.dl ∧ a.dl ≤ (wAP 2 9 1 7 4 0 [] 10).tick) ∧
    (0 < 1 ∧ 1 < (wAs false Slot.init).c ∧ ((wAs false Slot.init).slot 0).st = 0 ∧ ((wAs false (wSl 4 0 [] false)).slot 1).st = 1 ∧ (wAs false (wSl 4 0 [] false)).isDue = false) ∧
    (let y := wAs false Slot.init
     let s := wAD y [] 10
     s.assay 3 15 = y ∧ y.isOpen = true ∧ y.isDue = false ∧ y.dl ≤ s.now ∧ s.asyWaits 3 15 y.dl = false ∧ y.smear = false) ∧
    (let y := wAs true (wSl 4 0 [] false)
     let s := wAD y [] 15
     s.assay 3 15 = y ∧ y.isOpen = true ∧ y.isDue = true ∧ y.shut = false ∧ y.dl + y.cto ≤ s.now ∧ s.asyWaits 3 15 (y.dl + y.cto) = false) := by
  refine ⟨?_, ?_, ?_, ?_, by decide, by decide, ⟨by decide, by decide, 0, by decide, by decide⟩, ⟨by decide, ?_⟩, by decide, by decide, by decide +kernel, by decide +kernel, by decide,
    ⟨rfl, by decide, by decide, by decide, rfl, by decide⟩, ⟨rfl, by decide, by decide, rfl, by decide, rfl⟩⟩
  · intro k h; rcases k with _ | _ | _ | k <;> first | decide | omega
  · intro k h; rcases k with _ | _ | _ | k <;> first | decide | omega
  · intro k h; rcases k with _ | _ | _ | k <;> first | decide | omega
  · intro k h; rcases k with _ | _ | _ | k <;> first | decide | omega
  · intro i h; rcases i with _ | i <;> first | decide | exact absurd h (by simp [wAP])

/-! ### Fetching and checking -/

/-- A group with its code at 65536. -/
def wKG2 : Group := { wG with seg := [(4, segMake 0x10000 255 true)] }
/-- A group in which lane 31 has an immediate recorded and lane 0 has not. -/
def wMix (G : Group) : Group := { G with lanes := [(0, { Thread.init with st := .ready }), (31, { Thread.init with
  st := .ready
  hints := { Hints.clear with immhi := some (0, 5) } })] }
/-- The device with a group whose page of code is not mapped, or, where `m` holds, whose sector of code came and failed its check. -/
def wFe (G : Group) (m : Bool) : State := { wMap with
  hostMem := []
  cores := if m then [(5, { Core.init with cbad := [(0, 0, 0x400)] })] else []
  groups := [(1, { G with core := 5 })]
  cur := .path 1 false 0 0x80000001 }
/-- A team with a matrix stream at 65536, likewise. -/
def wFq (m : Bool) : State := { wMap with
  hostMem := []
  cores := if m then [(0, { Core.init with cbad := [(0, 0, 0x400)] })] else []
  cur := .seq 1
  groups := [(1, { wG with team := 1 })]
  launches := [(1, { wEL with r := oneLaunch true })]
  teams := [(1, wMT Seq.init)] }

theorem witness_FetchFaults :
    (∀ v, v = 0x6FFFFFFF ∨ v = 0x5A80A001 ∨ v = 0x79FFFFFF ∨ v = 0x7A000000 ∨ v = 0x7F000000 →
      IssuesWord (bitsAt v 31 1 == 1) (wTS wG) (tinyCtx wG) (wTS wG)) ∧ (tinyCtx wG).h = false ∧ (tinyCtx wG).alike = true ∧ ((wTS wG).vf (tinyCtx wG).G.vf).hcl ≠ 0 ∧
    bitsAt 0x6FFFFFFF 27 4 = 13 ∧ (bitsAt 0x5A80A001 27 4 ≠ 13 ∧ bitsAt 0x5A80A001 27 4 ≠ 15) ∧ (bitsAt 0x79FFFFFF 27 4 = 15 ∧ bitsAt 0x79FFFFFF 24 3 = 1) ∧
    (bitsAt 0x7A000000 27 4 = 15 ∧ bitsAt 0x7A000000 24 3 = 2) ∧ (bitsAt 0x7F000000 27 4 = 15 ∧ bitsAt 0x7F000000 24 3 ≠ 1 ∧ bitsAt 0x7F000000 24 3 ≠ 2 ∧ bitsAt 0x7F000000 24 3 ≠ 4) ∧ (bitsAt 0x7C000001 27 4 = 15 ∧ bitsAt 0x7C000001 24 3 = 4) ∧
    (∃ t, IssuesWord (bitsAt 0x7F000000 31 1 == 1) (wTS (wMix wG)) (tinyCtx (wMix wG)) t) ∧ (tinyCtx (wMix wG)).alike = false ∧
    ((wTS wG).context? = some (tinyCtx wG) ∧ segIn ((tinyCtx wG).G.code false) (tinyCtx wG).pc.toNat = false ∧ (wTS (wMix wG)).context? = some (tinyCtx (wMix wG)) ∧ segIn ((wMix wG).code false) 0 = false) ∧
    (∀ b, let G : Group := { wKG2 with core := 5 }
     (wFe wKG2 b).context? = some (tinyCtx G) ∧ (tinyCtx G).alike = true ∧ (tinyCtx G).mask ≠ 0 ∧ segIn (G.code false) 0 = true ∧ ((wFe wKG2 b).vf 0).hcl ≠ 0) ∧
    (∀ b, let G : Group := { wMix wKG2 with core := 5 }
     (wFe (wMix wKG2) b).context? = some (tinyCtx G) ∧ (tinyCtx G).alike = false ∧ segIn (G.code false) 0 = true) ∧
    (∀ G ∈ [wKG2, wMix wKG2], (wFe G true).codeAt 5 0 0x10000 = .bad ∧ ∃ k b x, (wFe G false).codeAt 5 0 0x10000 = .page k b x) ∧
    (Sequences (wMS Seq.init false) 1 (wMT Seq.init) ∧ (wMS Seq.init false).Handles (wMT Seq.init) 1 { wG with team := 1 } ∧ bitsAt 0x7C000000 27 4 = 15 ∧ 4 ≤ bitsAt 0x7C000000 24 3 ∧
      (wMS Seq.init false).seqVa (wMT Seq.init) = none) ∧
    (Sequences (wFq true) 1 (wMT Seq.init) ∧ (wFq true).Handles (wMT Seq.init) 1 { wG with team := 1 } ∧ (wFq true).seqVa (wMT Seq.init) = some 0x10000 ∧ (wFq true).codeAt 0 0 0x10000 = .bad) ∧
    (Sequences (wFq false) 1 (wMT Seq.init) ∧ (wFq false).Handles (wMT Seq.init) 1 { wG with team := 1 } ∧ (wFq false).seqVa (wMT Seq.init) = some 0x10000 ∧
      ∃ k b x, (wFq false).codeAt 0 0 0x10000 = .page k b x) := by
  refine ⟨?_, rfl, rfl, nofun, by decide, by decide, by decide, by decide, by decide, by decide, ⟨_, tinyCtx (wMix wG), rfl, nofun, rfl, rfl⟩, rfl, ⟨rfl, by decide, rfl, by decide⟩,
    fun b => ?_, fun b => ?_, fun G hG => ?_, ⟨wSeq _ _ rfl, wHandles _, by decide, by decide, rfl⟩,
    ⟨⟨rfl, rfl, rfl⟩, ⟨rfl, rfl, nofun⟩, by decide +kernel, by decide +kernel⟩, ⟨⟨rfl, rfl, rfl⟩, ⟨rfl, rfl, nofun⟩, by decide +kernel, 5, 2, .fault 5 2 ⟨[⟨0, 3, 0, 0x1041⟩], [(3, 0)]⟩, by decide +kernel⟩⟩
  rotate_left
  · cases b <;> exact ⟨rfl, rfl, by decide, by decide, nofun⟩
  · cases b <;> exact ⟨rfl, rfl, by decide⟩
  · simp only [List.mem_cons, List.not_mem_nil, or_false] at hG
    rcases hG with rfl | rfl <;> exact ⟨by decide +kernel, 5, 2, .fault 5 2 ⟨[⟨0, 3, 0, 0x1041⟩], [(3, 0)]⟩, by decide +kernel⟩
  rintro v (rfl | rfl | rfl | rfl | rfl) <;> exact ⟨tinyCtx wG, rfl, by decide, rfl, rfl⟩

/-- A group with sixteen results of both lanes out; one with a late error; one with a window over v31. -/
def wFullG : Group := { wG with pend := List.replicate 16 ⟨3, 0x80000001, 0, .v 0 1, none, none⟩ }
def wLateG : Group := { wG with errs := [⟨0x80000000, 0, 21⟩] }
def wWinG : Group := { wG with wins := [⟨3, 0x80000000, .v 31 1, [], false, []⟩] }

theorem witness_ChecksAndWaits :
    ((tiny wFullG).context? = some (tinyCtx wFullG) ∧ (tinyCtx wFullG).alike = true ∧ ({ w := true } : Info).w = true ∧ (tinyCtx wFullG).G.waits (tinyCtx wFullG).mask = true) ∧
    ((tiny wLateG).context? = some (tinyCtx wLateG) ∧ (tinyCtx wLateG).alike = true ∧ (tinyCtx wLateG).G.waits (tinyCtx wLateG).mask = false ∧ (tinyCtx wLateG).G.late (tinyCtx wLateG).mask = true) ∧
    (let i : Info := { w := true, regs := [.v 32 1 1] }
     (wTS wG).context? = some (tinyCtx wG) ∧ (tinyCtx wG).alike = true ∧ ((tinyCtx wG).G.waits (tinyCtx wG).mask = false ∧ (tinyCtx wG).G.late (tinyCtx wG).mask = false) ∧
       i.check (tinyCtx wG).waited ((wTS wG).waited (tinyCtx wG)) = some (3, 0) ∧ ((wTS wG).vf (tinyCtx wG).G.vf).hcl ≠ 0) ∧
    (let s := { wES wG with vfs := [] }
     s.context? = some (tinyCtx wG) ∧ ({ regs := [.v 32 1 1] } : Info).check (tinyCtx wG) s = some (3, 0) ∧ (s.vf (tinyCtx wG).G.vf).hcl = 0 ∧ s.team? (tinyCtx wG).G.team = some wET) ∧
    (let s := { wHXS (wHX true) with teams := [(0, wET)] }
     s.context? = some (wHXC (wHX true)) ∧ (wHXC (wHX true)).alike = true ∧ ({ regs := [.v 32 1 1] } : Info).check (wHXC (wHX true)) s = some (3, 0) ∧ (wHXC (wHX true)).h = true ∧ s.team? (wHXC (wHX true)).G.team = some wET) ∧
    (({ var := true } : Info).check (tinyCtx wFullG) (tiny wFullG) = none ∧ (tinyCtx wFullG).G.full (tinyCtx wFullG).mask = true) ∧
    (({ blocking := true } : Info).check (tinyCtx wFullG) (tiny wFullG) = none ∧ (tinyCtx wFullG).G.waits (tinyCtx wFullG).mask = true) ∧
    (((tiny wG).vf (tinyCtx wG).G.vf).priv = false ∧ (wHXC (wHX true)).h = true) ∧
    (({ imm := true } : Info).hintBad { Hints.clear with immhi := some (0, 5) } = true ∧ ({ imm := true } : Info).hintBad Hints.clear = false) ∧
    ((({ regs := [.v 32 1 1] } : Info).regs.any fun u => !(u.ok wG.held)) = true ∧ (({ regs := [.v 31 1 1] } : Info).regs.any fun u => !(u.ok wG.held)) = false) ∧
    (({ tiny wWinG with hazard := true } : State).hazard = true ∧ ((tinyCtx wWinG).G.wins.any fun w => overlaps w.mask (tinyCtx wWinG).mask && ({ regs := [.v 31 1 1] } : Info).regs.any fun u => u.meets w.dst) = true) := by
  refine ⟨⟨rfl, rfl, rfl, by decide⟩, ⟨rfl, rfl, rfl, by decide⟩, ⟨rfl, rfl, ⟨rfl, rfl⟩, by decide, nofun⟩, ⟨rfl, by decide, rfl, rfl⟩, ⟨rfl, rfl, by decide, rfl, rfl⟩, ⟨by decide, by decide⟩, ⟨by decide, by decide⟩, ⟨rfl, rfl⟩,
    by decide, by decide, by decide⟩

theorem witness_SplitPaths :
    (∀ G ∈ [wMix wG, wMix wFullG, wMix wLateG], (tiny G).context? = some (tinyCtx G) ∧ (tinyCtx G).alike = false) ∧
    ({ var := true } : Info).held (tinyCtx (wMix wFullG)) = true ∧ ({ w := true } : Info).held (tinyCtx (wMix wLateG)) = false ∧
    (tinyCtx (wMix wLateG)).G.late (tinyCtx (wMix wLateG)).mask = true ∧
    (let c := tinyCtx (wMix wG)
     ({ var := true } : Info).held c = false ∧ c.checkAny (fun _ => { regs := [.v 32 1 1] }) (tiny (wMix wG)) = some (3, 0) ∧ c.checkAny (fun _ => { imm := true }) (tiny (wMix wG)) = some (1, 0) ∧
       c.checkAny (fun _ => { imm := true, immhi := true }) (tiny (wMix wG)) = none ∧ c.G.hintClasses 32 (lanesOf c.mask) = [1, 0x80000000] ∧ ∀ m ∈ [1, 0x80000000], ∃ d, c.class_ (tiny (wMix wG)) m = some d) := by
  refine ⟨?_, by decide, by decide, by decide, by decide, by decide, by decide, by decide, by decide, ?_⟩
  · intro G h; simp only [List.mem_cons, List.not_mem_nil, or_false] at h; rcases h with rfl | rfl | rfl <;> exact ⟨rfl, rfl⟩
  · intro m h; simp only [List.mem_cons, List.not_mem_nil, or_false] at h; rcases h with rfl | rfl <;> exact ⟨_, rfl⟩

/-! ### The whole machine -/

theorem witness_DecodeOfEncode : Instr.wf (.addVi 1 127 127 127) = true ∧ Instr.wf (.mretColl 7 2 2 31) = true := by decide
theorem witness_EncodeOfDecode : 0xFC000000 < 2 ^ 32 ∧ decode 0xFC000000 = some (.nop 1) := ⟨by decide, rfl⟩
theorem witness_MemoryFormKeptByEveryStep : State.reset.Inv ∧ ∃ t, step State.reset = .next t := ⟨(rfl : Memory.wf [] = true), ⟨_, rfl⟩⟩
theorem witness_ScheduleNeverStops : State.reset.agenda = [] := rfl
theorem witness_OnlyStoresChangeMemory : ∃ t, exec .deviceReset State.reset = .next t := ⟨_, rfl⟩
theorem witness_ForeignQueuesActDisabled : ((wQCS 6 1 0 true 0x81).die 3).qcmds = ⟨6, 3, 335, 0, 1, 0, 1023, 1, 0, none⟩ :: [] ∧ (((wQCS 6 1 0 true 0x81).die 3).queue 1023).ownedBy 0 = false :=
  ⟨rfl, by decide⟩

/-- The device right after reset with a word placed where it fetches next (log 1). -/
def wSt (w : Nat) : State := State.reset.placeWord w
/-- Its group, and the path that all lanes share. -/
def wStG (w : Nat) : Group := ((wSt w).group? 3).getD Group.blank
def wStC (w : Nat) : Ctx := ⟨3, wStG w, false, 0, BitVec.allOnes 32, Hints.clear, 0, 0⟩
def wStT (w : Nat) : Team := ((wSt w).team? 2).getD (oneTeam true 1 3)
/-- The same as the step's cycle, or its sequencer, sees it. -/
def wStV (w : Nat) : State := { wSt w with
  agenda := []
  cur := .path 3 false 0 (BitVec.allOnes 32) }
def wStM (w : Nat) : State := { wSt w with
  agenda := []
  cur := .seq 2 }
theorem goes_of {i : Instr} {s : State} {P : State → Prop} [DecidablePred P] (h : (match exec i s with | .next t => decide (P t) | _ => false) = true) : ∃ t, exec i s = .next t ∧ P t := by
  split at h
  · exact ⟨_, by assumption, of_decide_eq_true h⟩
  · cases h

/-- Two groups of that launch at the word, with lanes 0 and 31, of which the second may share the slot of the first (R165). -/
def wPrG (l k : Nat) : Group := { wStG 0x00004103 with
  lanes := [(l, { Thread.init with st := .ready })]
  slot := k }
def wPr : State := { wSt 0x00004103 with
  groups := [(3, wPrG 0 0), (4, wPrG 31 7)]
  agenda := [] }
def wPrC (g l k n : Nat) : Ctx := ⟨g, wPrG l k, false, 0, laneBit l, Hints.clear, 0, n⟩
/-- The device as the first, and then the second of them issues, from a state. -/
def wPrV (g l : Nat) (s : State) : State := { s with cur := .path g false 0 (laneBit l) }
/-- The translation of the page of code. -/
def wTr : Trans := .ok 0x10000 ⟨[⟨0, 2, 0, 15⟩, ⟨0, 3, 0, 0x2001⟩], [(1, 128), (1, 64)]⟩
def wPrT (t : State) : State := { t.updGroup 3 (fun x => x.issued (wPrG 0 0) false 0 (laneBit 0) (isHint 0x00004103)) with cur := .none }

theorem witness_StepRunsDecodedWord :
    (let w := 0x00004103
     (wSt w).agenda = .issue 0 0 false :: [] ∧ ({ wSt w with agenda := [] } : State).slotOrder 0 0 = (3, wStG w) :: [] ∧ (wStG w).order = (false, 0, BitVec.allOnes 32) :: [] ∧
       (wStV w).context? = some (wStC w) ∧ ((wStV w).fetch (wStC w)).1 = .word w ∧ decode w = some (.addVr 0 1 2 3) ∧
       ∃ t, exec (.addVr 0 1 2 3) ((wStV w).fetch (wStC w)).2 = .next t ∧ stalled ((wStV w).fetch (wStC w)).2 t 3 false 0 (BitVec.allOnes 32) = false) ∧
    (let v := wPrV 3 0 wPr
     wPr.slotOrder 0 0 = (3, wPrG 0 0) :: (4, wPrG 31 7) :: [] ∧ (wPrG 0 0).order = (false, 0, laneBit 0) :: [] ∧ (wPrG 31 7).order = (false, 0, laneBit 31) :: [] ∧
       v.context? = some (wPrC 3 0 0 0) ∧ (v.fetch (wPrC 3 0 0 0)).1 = .word 0x00004103 ∧ wPr.pairs ⟨wPrG 0 0, 0, laneBit 0, Hints.clear, some 0x00004103⟩ ⟨wPrG 31 7, 0, laneBit 31, Hints.clear, some 0x00004103⟩ = true ∧
       ∃ t, exec (.addVr 0 1 2 3) (v.fetch (wPrC 3 0 0 0)).2 = .next t ∧
         (stalled (v.fetch (wPrC 3 0 0 0)).2 t 3 false 0 (laneBit 0) = false ∧ (wPrV 4 31 (wPrT t)).context? = some (wPrC 4 31 7 1) ∧ ((wPrV 4 31 (wPrT t)).fetch (wPrC 4 31 7 1)).1 = .word 0x00004103 ∧
           (match exec (.addVr 0 1 2 3) ((wPrV 4 31 (wPrT t)).fetch (wPrC 4 31 7 1)).2 with
            | .next u => !(stalled ((wPrV 4 31 (wPrT t)).fetch (wPrC 4 31 7 1)).2 u 4 false 0 (laneBit 31))
            | _ => false) = true)) ∧
    (let w := 0x68289000
     (wSt w).agenda = .seq 2 :: [] ∧ (wSt w).team? 2 = some (wStT w) ∧ (wStT w).seqLive = true ∧ (wStT w).pre ≠ .saved ∧ ((wSt w).core (wStT w).core).up = true ∧
       ((wStM w).seqFetch 2 (wStT w)).1 = .word w ∧ decode w = some (.mmul 2 1 4 0) ∧ ∃ t, exec (.mmul 2 1 4 0) ((wStM w).seqFetch 2 (wStT w)).2 = .next t ∧ t.cur = .seq 2) ∧
    (let s := wStV 0x00004103
     let c := wStC 0x00004103
     segIn (c.G.code c.h) c.pc.toNat = true ∧ segIn (wG.code false) 0 = false ∧ s.loopWord c 0x10000 = none ∧ (s.updPart 0 0 fun p => { p with loop := some ⟨0, 0, 0x10000, 0x10010, [(0x10000, 5)], false, []⟩ }).loopWord c 0x10000 = some 5 ∧ c.G.pre.find? 0x10000 = none ∧
       ({ wStG 0x00004103 with pre := [(0x10000, 5)] } : Group).pre.find? 0x10000 = some 5 ∧ (∃ l, (s.core c.G.core).codeLine c.G.vf (s.vf c.G.vf).asid 0x10000 = some l) ∧
       (s.updCore 0 fun C => { C with icache := [] }).codeAt 0 0 0x10000 = .ask 0x10000 wTr) ∧
    (let s := wStM 0x68289000
     let T := wStT 0x68289000
     s.seqVa T = some 0x10000 ∧ T.seq.buf.find? 0x10000 = none ∧ ({ T.seq with buf := [(0x10000, 5)] } : Seq).buf.find? 0x10000 = some 5 ∧
       (∃ l, (s.core T.core).codeLine T.vf (s.vf T.vf).asid 0x10000 = some l) ∧ (s.updCore 0 fun C => { C with icache := [] }).codeAt T.core T.vf 0x10000 = .ask 0x10000 wTr) := by
  refine ⟨⟨rfl, by decide +kernel, by decide +kernel, by decide +kernel, by decide +kernel, rfl, goes_of (by decide +kernel)⟩,
    ⟨by decide +kernel, by decide +kernel, by decide +kernel, by decide +kernel, by decide +kernel, by decide +kernel, goes_of (by decide +kernel)⟩,
    ⟨by decide +kernel, by decide +kernel, by decide +kernel, by decide +kernel, by decide +kernel, by decide +kernel, rfl, goes_of (by decide +kernel)⟩,
    ⟨by decide +kernel, by decide +kernel, by decide +kernel, by decide +kernel, by decide +kernel, by decide +kernel, ⟨_, rfl⟩, by decide +kernel⟩,
    ⟨by decide +kernel, by decide +kernel, by decide +kernel, ⟨_, rfl⟩, by decide +kernel⟩⟩

end Sys2Proof.Machine
end

section
/-! PROOFS. The whole machine: the state after reset, and a schedule with nothing on it (log 1). -/

namespace Sys2Proof.Machine

/-! ## The schedule -/

/-- A result for which `isNext` holds is a next state. -/
theorem exists_next_of_isNext {r : Result} (h : isNext r = true) : ∃ t, r = .next t := by
  cases r with
  | next t => exact ⟨t, rfl⟩
  | fault _ => cases h
  | refused _ => cases h

/-- A choice of the schedule that is no event always finds a next state: only an event can be refused. -/
theorem choose_next_of_ne_ev (run : Instr → State → Result) (s : State) {c : Choice} (hc : ∀ i, c ≠ .ev i) :
    ∃ t, State.choose run c s = .next t := by
  cases c
  case ev i => exact absurd rfl (hc i)
  all_goals exact ⟨_, rfl⟩

/-- The state in which a step makes its choice: no path and no sequencer issues yet. -/
def State.idle (s : State) : State := { s with cur := .none }

/-- With nothing on the schedule, a step carries out the first choice of a round. -/
theorem step_of_round_cons {s : State} {c : Choice} {rest : List Choice} (hs : s.agenda = []) (hr : s.idle.round exec = c :: rest) :
    step s = State.choose exec c { s.idle with agenda := rest } := by
  simp only [State.idle, hs] at hr
  simp only [step, State.stepWith, State.idle, hs, hr]

/-- With nothing on the schedule and no choice in a round, a step is a tick. -/
theorem step_of_round_nil {s : State} (hs : s.agenda = []) (hr : s.idle.round exec = []) : step s = .next (s.idle.pass 1) := by
  simp only [State.idle, hs] at hr
  simp only [step, State.stepWith, State.idle, hs, hr]

/-- Where a round is one event, the step runs it in the very state in which the round found it due. -/
theorem step_of_round_ev {s : State} {i : Instr} (hs : s.agenda = []) (hr : s.idle.round exec = [.ev i]) : step s = exec i s.idle := by
  have hsame : { s.idle with agenda := [] } = s.idle := by simp only [State.idle, hs]
  rw [step_of_round_cons hs hr, hsame]
  rfl

/-- Settles O58: a round is one event that is due, or holds no event, and then no choice of it can be refused. -/
theorem scheduleNeverStops : Obligations.ScheduleNeverStops := by
  unfold Obligations.ScheduleNeverStops
  intro s hs
  unfold State.SafeStep
  rcases round_ev exec s.idle with ⟨i, hround, hdue⟩ | hnone
  · rw [step_of_round_ev hs hround]
    exact exists_next_of_isNext hdue
  · cases hround : s.idle.round exec with
    | nil => exact ⟨_, step_of_round_nil hs hround⟩
    | cons c rest =>
      rw [step_of_round_cons hs hround]
      refine choose_next_of_ne_ev exec _ fun i hi => hnone i ?_
      rw [hround, hi]
      exact List.mem_cons_self

/-! ## The state after reset -/

@[simp] theorem State.reset_core (c : Nat) : State.reset.core c = Core.init := rfl
@[simp] theorem State.reset_die (d : Nat) : State.reset.die d = Die.init := rfl
@[simp] theorem State.reset_vf (v : Nat) : State.reset.vf v = Vf.init := rfl
@[simp] theorem State.reset_coll (o : Nat) : State.reset.coll o = Coll.init := rfl
@[simp] theorem State.reset_assay (d o : Nat) : State.reset.assay d o = Assay.init := rfl
@[simp] theorem Die.init_queue (q : Nat) : Die.init.queue q = QRec.init := rfl
@[simp] theorem Die.init_hor_get (n : Nat) : Die.init.hor.get n 0 = 0 := rfl
@[simp] theorem Vf.init_subq (q : Nat) : Vf.init.subq q = SubQ.init := rfl

/-- Device memory lists nothing after reset, which is its canonical form (log 8). -/
theorem State.reset_inv : State.reset.Inv := Memory.wf_nil

/-- Settles O56: every table of the state is empty at reset, so each of its parts reads as that part's initial value. -/
theorem resetState : Obligations.ResetState := by
  unfold Obligations.ResetState
  refine ⟨State.reset_inv, rfl, rfl, rfl, rfl, rfl, rfl, rfl, rfl, rfl, rfl, rfl, rfl, ?core, ?queue, ?die, ?function, ?coll, ?assay⟩
  case core => intro c; rw [State.reset_core]; decide
  case queue => intro d q; rw [State.reset_die, Die.init_queue]; decide
  case die => intro d; rw [State.reset_die]; exact ⟨rfl, Die.init_hor_get, rfl⟩
  case function => intro v; simp only [State.reset_vf, Vf.init_subq, forall_const]; decide
  case coll => intro o; rw [State.reset_coll]; decide
  case assay => intro d o; rw [State.reset_assay]; decide

end Sys2Proof.Machine
end

section
/-! PROOFS. The sequential machine: fixed-latency forms, results of variable latency, reads of system values, hint words
(R15, R18, R24, R28 to R30, R40, R98 to R111, R149 to R152, R206, R207, R417). -/

namespace Sys2Proof.Machine

/-! ## The integer ALU with a uniform register or an immediate (R98) -/

/-- A VS form that issues writes its function of the old destination, the source and the uniform register (R15, R98). -/
theorem aluVS_writes {w : BitVec 1} {d a b : BitVec 7} {s t : State} {c : Ctx} (f : AluFn) (h : Issues (infoVS w d a b) s c t) :
    WritesV c t d.toNat (fun l => f (c.rv l d.toNat) (c.rv l a.toNat) (c.rs b.toNat)) (aluVS f w d a b s) := by
  unfold aluVS
  rw [h.issue]
  exact State.putV_spec h.found _ _

/-- A VI form that issues writes its function of the old destination, the source and the immediate, widened where hints ask for it
(R29, R40, R98). -/
theorem aluVI_writes {w : BitVec 1} {d a x : BitVec 7} {s t : State} {c : Ctx} (f : AluFn) (h : Issues (infoVI w d a) s c t) :
    WritesV c t d.toNat (fun l => f (c.rv l d.toNat) (c.rv l a.toNat) (c.hints.value.getD (x.signExtend 32))) (aluVI f w d a x s) := by
  unfold aluVI
  rw [h.issue]
  exact State.putV_spec h.found _ _

/-- Settles O2: each form is `aluVS` of its function. -/
theorem integerVsResults : Obligations.IntegerVsResults := by
  unfold Obligations.IntegerVsResults
  intro s t c w d a b h
  exact ⟨aluVS_writes addFn h, aluVS_writes subFn h, aluVS_writes mulFn h, aluVS_writes mulhiFn h, aluVS_writes mulhuFn h,
    aluVS_writes madFn h, aluVS_writes andFn h, aluVS_writes orFn h, aluVS_writes xorFn h, aluVS_writes andnFn h,
    aluVS_writes shlFn h, aluVS_writes shrFn h, aluVS_writes sraFn h, aluVS_writes srarFn h,
    aluVS_writes minFn h, aluVS_writes maxFn h, aluVS_writes minuFn h, aluVS_writes maxuFn h,
    aluVS_writes addsFn h, aluVS_writes subsFn h, aluVS_writes bfxFn h, aluVS_writes bfiFn h⟩

/-- Settles O3: each form is `aluVI` of its function. -/
theorem integerViResults : Obligations.IntegerViResults := by
  unfold Obligations.IntegerViResults
  intro s t c w d a x h
  exact ⟨aluVI_writes addFn h, aluVI_writes subFn h, aluVI_writes mulFn h, aluVI_writes mulhiFn h, aluVI_writes mulhuFn h,
    aluVI_writes madFn h, aluVI_writes andFn h, aluVI_writes orFn h, aluVI_writes xorFn h, aluVI_writes andnFn h,
    aluVI_writes shlFn h, aluVI_writes shrFn h, aluVI_writes sraFn h, aluVI_writes srarFn h,
    aluVI_writes minFn h, aluVI_writes maxFn h, aluVI_writes minuFn h, aluVI_writes maxuFn h,
    aluVI_writes addsFn h, aluVI_writes subsFn h, aluVI_writes bfxFn h, aluVI_writes bfiFn h⟩

/-! ## Results of variable latency (R24) -/

section
variable {w : BitVec 1} {d a : BitVec 7} {s t : State} {c : Ctx}

/-- A function of one source of variable latency has its result out when it has issued (R24, R149). -/
theorem cvLate_starts (f : Word → Word × Word) (h : Issues (infoV2 w d a).late s c t) :
    StartsV c t d.toNat (fun l => f (c.rv l a.toNat)) (cvLate f w d a s) := by
  unfold cvLate
  rw [h.issue]
  exact State.startV_spec h.found _ _

/-- A reduction or scan has its result out when it has issued (R24, R206). -/
theorem reduce_starts (f : Ctx → Nat → Word) (h : Issues (infoV2 w d a).late s c t) :
    StartsV c t d.toNat (fun l => (f c l, 0)) (reduce w d a f s) := by
  unfold reduce
  rw [h.issue]
  exact State.startV_spec h.found _ _

/-- `rfadd` has its result out when it has issued (R24, R207). -/
theorem execRfadd_starts (h : Issues (infoV2 w d a).late s c t) :
    StartsV c t d.toNat (fun _ => rfaddOf ((List.range 32).map fun l => if c.has l then some (c.rv l a.toNat) else none))
      (execRfadd w d a s) := by
  unfold execRfadd
  rw [h.issue]
  exact State.startV_spec h.found _ _

end

/-- Settles O9: the functions are `cvLate`, the reductions and scans `reduce`, and `rfadd` stands by itself for its flags. -/
theorem longLatencyStarts : Obligations.LongLatencyStarts := by
  unfold Obligations.LongLatencyStarts
  refine ⟨?functions, ?reductions⟩
  case functions =>
    intro s t c w d a r
    exact ⟨cvLate_starts fun x => wordOf (fRcp x), cvLate_starts fun x => wordOf (fRsqrt x), cvLate_starts fun x => wordOf (fSqrt fp32 x.toNat),
      cvLate_starts fun x => wordOf (fExp2 x), cvLate_starts fun x => wordOf (fLog2 x), cvLate_starts fun x => wordOf (fSinPi x),
      cvLate_starts fun x => wordOf (fCosPi x), cvLate_starts fun x => wordOf (fTanh x),
      cvLate_starts fun x => wordOf (fRoundInt (Rnd.ofCode r.toNat) x.toNat)⟩
  case reductions =>
    intro s t c w d a
    exact ⟨reduce_starts fun c _ => sumWords (c.active a.toNat), reduce_starts fun c _ => (c.active a.toNat).foldl maxWord 0x80000000,
      reduce_starts fun c _ => (c.active a.toNat).foldl minWord 0x7FFFFFFF,
      reduce_starts fun c l => sumWords (((lanesOf c.mask).filter (· ≤ l)).map fun k => c.rv k a.toNat),
      reduce_starts fun c l => sumWords (((lanesOf c.mask).filter (· < l)).map fun k => c.rv k a.toNat), execRfadd_starts⟩

/-! ## Reads of system values (R110, R111, R425, R428, R433) -/

section
variable {s t : State} {c : Ctx}

/-- A form that writes uniform registers, as it issues (R109). -/
theorem putS_writes {i : Info} (h : Issues i s c t) (d : Nat) (f : Ctx → State → List Word) :
    WritesS c t d (f c t) (issue i (fun c s => s.putS c d (f c s)) s) := by
  rw [h.issue]
  exact State.putS_spec h.found _ _

/-- What `sget` asks of its issue: CLR of a mod hint is legal on the read of TSR alone (R75). -/
def infoSget (w : BitVec 1) (d n : BitVec 10) : Info := if n = 16 then (infoS1 w d 1 1).allow modCLR else infoS1 w d 1 1

/-- `sget` writes the system value; with CLR it has cleared the TSR of the active threads (R18, R75, R111). -/
theorem exec_sget {w : BitVec 1} {d n : BitVec 10} (h : Issues (infoSget w d n) s c t) : exec (.sget w d n) s =
    .next ((if c.hints.clr then t.updGroup c.g fun G => G.updLanes (lanesOf c.mask) fun _ x => { x with tsr := 0 } else t).putS c d.toNat
      [BitVec.ofNat 32 (t.sysValue c n.toNat)]) := h.issue _

/-- Without CLR `sget` writes the system value, and nothing else changes (R110, R111). -/
theorem exec_sget_noClr {w : BitVec 1} {d n : BitVec 10} (h : Issues (infoSget w d n) s c t) (hc : c.hints.clr = false) :
    WritesS c t d.toNat [BitVec.ofNat 32 (t.sysValue c n.toNat)] (exec (.sget w d n) s) := by
  rw [exec_sget h, hc]
  exact State.putS_spec h.found _ _

theorem infoSget_of_ne {w : BitVec 1} {d n : BitVec 10} (hn : n.toNat ≠ 16) : infoSget w d n = infoS1 w d 1 1 :=
  if_neg fun e => hn (by rw [e]; rfl)

/-- System value 16 is the OR of TSR over the active threads (R18, R111). -/
theorem State.sysValue_tsr (t : State) (c : Ctx) : BitVec.ofNat 32 (t.sysValue c (16 : BitVec 10).toNat) = c.tsrs :=
  (BitVec.ofNat_toNat 32 c.tsrs).trans (BitVec.setWidth_eq c.tsrs)

end

/-- Settles O15: every read but that of TSR with CLR is a write of uniform registers, or for `stov` of a thread register. -/
theorem systemReadResults : Obligations.SystemReadResults := by
  unfold Obligations.SystemReadResults
  intro s t c w d n a p
  refine ⟨?sget, ?tsr, ?clear, ?sfromv, ?stov, ?segget, ?tmask, ?tcause, ?clock, ?cycles⟩
  case sget =>
    intro hn h
    exact exec_sget_noClr (infoSget_of_ne hn ▸ h) (h.noClr rfl)
  case tsr =>
    intro h hc
    rw [← State.sysValue_tsr t c]
    exact exec_sget_noClr (n := 16) h hc
  case clear =>
    intro h hc
    rw [exec_sget (n := 16) h, if_pos hc]
    exact clr_spec h.found d.toNat
  case sfromv =>
    intro h hm
    have := putS_writes h d.toNat fun c _ => [if c.mask = 0 then Config.freeWord c.n else c.rv c.low a.toNat]
    rwa [if_neg hm] at this
  case stov =>
    intro h
    show WritesV c t a.toNat _ (issue _ _ s)
    rw [h.issue]
    exact State.putV_spec h.found _ _
  case segget => exact fun h => putS_writes h d.toNat fun c _ => words4 (if p = 4 then c.G.code c.h else c.G.segment p.toNat)
  case tmask => exact fun h => putS_writes h d.toNat fun c _ => [c.G.served.mask]
  case tcause => exact fun h => putS_writes h d.toNat fun c _ => [c.G.served.cause, c.G.served.fpc]
  case clock => exact fun h => putS_writes h d.toNat fun _ t => [BitVec.ofNat 32 t.now, BitVec.ofNat 32 (t.now / 2 ^ 32)]
  case cycles =>
    exact fun h => putS_writes h d.toNat fun c t =>
      [BitVec.ofNat 32 ((t.die (dieOf c.G.core)).cyc / 1000), BitVec.ofNat 32 ((t.die (dieOf c.G.core)).cyc / 1000 / 2 ^ 32)]

/-! ## Hint words (R28 to R30, R417) -/

/-- A hint word records what it makes of the recorded hints, and moves its path past itself (R28, R30). -/
theorem hintPast_hinted {w : BitVec 1} {s t : State} {c : Ctx} (f : Ctx → Hints → Hints) (h : IssuesWord (flag1 w) s c t) :
    Hinted c t (f c) (issueHint (flag1 w) (fun c s => s.hintPast c (f c)) s) := by
  rw [h.issueHint]
  exact State.hintPast_spec h.found _

/-- `nop` of a thread stream is a hint word as the others are (R28, R59). -/
theorem exec_nop {w : BitVec 1} {s t : State} {c : Ctx} (h : IssuesWord (flag1 w) s c t) :
    exec (.nop w) s = issueHint (flag1 w) (fun c s => s.hintPast c fun h => { h with nop := some (c.pc, 0) }) s := by
  obtain ⟨c0, hc, _⟩ := h
  obtain ⟨_, _, hcur, _⟩ := State.context_spec hc
  show execNop w s = _
  unfold execNop
  rw [hcur]

/-- `safe` has waited: it traps on its register count, stops where pre-emption has been requested, or moves past itself (R29, R30, R417). -/
theorem exec_safe {w j e : BitVec 1} {n : BitVec 10} {v : BitVec 7} {s t : State} {c : Ctx} (h : IssuesWord true s c t) :
    exec (.safe w j e n v) s = .next (
      if v ≠ 127 ∧ v.toNat > c.G.held then t.hintTrap c
      else if t.stopping c.G.team then (t.updGroup c.g fun G => G.stopAt c (v.toNat, n.toNat, flag1 e, flag1 j)).draw 1
      else t.hintPast c id) := by
  show execSafe w j e n v s = _
  unfold execSafe
  exact h.issueHint _

/-- Settles O18: a hint word records its payload, and `safe` takes one of its three ways. -/
theorem hintWords : Obligations.HintWords := by
  unfold Obligations.HintWords
  intro s t c w i x l k f p r y o q j e n v
  have hcount : (v = 127 ∨ v.toNat ≤ c.G.held) ↔ ¬(v ≠ 127 ∧ v.toNat > c.G.held) := by
    rw [not_and_or, not_not, not_lt]
  refine ⟨hintPast_hinted fun c h => { h with imm := some (c.pc, i) }, hintPast_hinted fun c h => { h with immhi := some (c.pc, x.setWidth 24) },
    hintPast_hinted fun c h => { h with modh := some (c.pc, modPayload l k f p r y o q) }, ?nop, ?goesOn, ?stops, ?traps⟩
  case nop =>
    intro h
    rw [exec_nop h]
    exact hintPast_hinted (fun c h => { h with nop := some (c.pc, 0) }) h
  case goesOn =>
    intro h hv hs
    rw [exec_safe h, if_neg (hcount.1 hv), if_neg (by simp [hs])]
    exact State.hintPast_spec h.found id
  case stops =>
    intro h hm hv hs
    rw [exec_safe h, if_neg (hcount.1 hv), if_pos hs]
    exact stop_spec h.found hm _
  case traps =>
    intro h hv
    rw [exec_safe h, if_pos (not_not.1 (hcount.not.1 hv))]

end Sys2Proof.Machine
end

section
/-! PROOFS. Results that are written, and entry to the handler (R20, R25, R26, R32, R33, R388, R389, R400). -/

namespace Sys2Proof.Machine

/-- Settles O37: `land_spec` says what a result leaves in registers, flags, late errors and the pending results. -/
theorem resultsAreWritten : Obligations.ResultsAreWritten := by
  unfold Obligations.ResultsAreWritten
  intro s g id G p vs hg hp hv
  exact land_spec hg hp hv

/-! ## Entry to the handler -/

/-- HANDLER_ENTRY is due: the group takes its oldest trap (R388). -/
theorem exec_handlerEntry {s : State} {g : Nat} {G : Group} {e : TrapEntry} {rest : List TrapEntry} (hg : s.group? g = some G)
    (hq : G.trapQ = e :: rest) (hn : G.hnd = none) (hv : (s.vf G.vf).hcl ≠ 0) (hl : G.ended = false) (hs : s.stopping G.team = false)
    (hw : e.mask ≠ 0 → G.waits e.mask = false) :
    exec (.handlerEntry g) s = .next { s with
      groups := SMap.put s.groups g
        (G.enterNext e rest (segMake (s.vf G.vf).hcb ((s.vf G.vf).hcl - 1) true) (BitVec.ofNat 32 (s.vf G.vf).hent)) } := by
  have hdue : ¬((s.vf G.vf).hcl = 0 ∨ G.ended = true ∨ s.stopping G.team = true ∨ (e.mask ≠ 0 ∧ G.waits e.mask = true)) := by
    rintro (h | h | h | ⟨h, h'⟩)
    · exact hv h
    · rw [hl] at h; cases h
    · rw [hs] at h; cases h
    · rw [hw h] at h'; cases h'
  show execHandlerEntry g s = _
  unfold execHandlerEntry
  rw [hg, Option.bind_some, hq, hn]
  dsimp only
  rw [if_neg hdue, State.updGroup_some hg]
  rfl

section
variable {G : Group} {e : TrapEntry} {rest : List TrapEntry} {code : QWord} {entry : Word}

/-- A trap without lanes enters as it is: it is that of a matrix stream (R396). -/
theorem Group.enterNext_laneless (he : e.mask = 0) : G.enterNext e rest code entry = G.enter (G.waiting e) rest code entry := by
  have hE : (G.waiting e).mask = 0 := by simp [Group.waiting, he]
  unfold Group.enterNext Group.lateTraps
  rw [if_neg fun h => h.1 he, if_pos hE]

/-- The late errors of the lanes of a trap, as traps in front of it (R33). -/
theorem Group.lateTraps_lanes (he : e.mask ≠ 0) :
    G.lateTraps e = ({ G with errs := (splitErrs e.mask G.errs).1 }, (splitErrs e.mask G.errs).2.map e.late) := if_neg he

/-- A trap some of whose lanes still wait, with no late error of theirs, enters (R389). -/
theorem Group.enterNext_clean (hE : (G.waiting e).mask ≠ 0) (hx : (splitErrs (G.waiting e).mask G.errs).2 = []) :
    G.enterNext e rest code entry =
      ({ G with errs := (splitErrs (G.waiting e).mask G.errs).1 } : Group).enter (G.waiting e) rest code entry := by
  unfold Group.enterNext
  rw [if_neg fun h => hE h.2, Group.lateTraps_lanes hE, hx]
  rfl

/-- The first late error of the lanes of a trap enters, the others and the trap behind it (R33, R400). -/
theorem Group.enterNext_late {x : LateErr} {xs : List LateErr} (hE : (G.waiting e).mask ≠ 0)
    (hx : (splitErrs (G.waiting e).mask G.errs).2 = x :: xs) :
    G.enterNext e rest code entry =
      ({ G with errs := (splitErrs (G.waiting e).mask G.errs).1 } : Group).enter ((G.waiting e).late x)
        (xs.map (G.waiting e).late ++ G.waiting e :: rest) code entry := by
  unfold Group.enterNext
  rw [if_neg fun h => hE h.2, Group.lateTraps_lanes hE, hx]
  rfl

end

/-- Settles O38: the oldest trap enters by itself, or a late error of its lanes enters in front of it. -/
theorem handlerEntry : Obligations.HandlerEntry := by
  unfold Obligations.HandlerEntry
  intro s g G e rest hg hq hn hv hl hs hw E errs hE
  refine ⟨_, _, exec_handlerEntry hg hq hn hv hl hs hw, rfl, ?laneless, ?clean, ?late⟩
  case laneless =>
    intro h0
    rw [Group.enterNext_laneless (not_imp_not.1 hE h0)]
    exact enter_spec s G E rest
  case clean =>
    intro h0 hx
    rw [Group.enterNext_clean h0 hx]
    exact enter_spec s { G with errs := errs.1 } E rest
  case late =>
    intro x xs h0 hx
    rw [Group.enterNext_late h0 hx]
    exact enter_spec s { G with errs := errs.1 } (E.late x) (xs.map E.late ++ E :: rest)

end Sys2Proof.Machine
end

section
/-! PROOFS. Words that are no instruction, fetches that fail, and what an instruction goes through before its effect
(R20 to R33, R58, R157, R344, R349, R385 to R392, R400, R411). -/

namespace Sys2Proof.Machine

/-! ## Words that are no instruction (R29, R58) -/

section
variable {s t : State} {c : Ctx} {v : Nat}

/-- A word of class MX in a thread stream traps with the stream detail (R58). -/
theorem State.reservedPath_mx (h : bitsAt v 27 4 = 13) : t.reservedPath c v = t.trapAt c 1 2 := by
  unfold State.reservedPath
  dsimp only
  rw [if_neg (by omega), if_pos h]

/-- A word of a class that is neither MX nor that of the hints traps with the reserved-encoding detail (R58). -/
theorem State.reservedPath_reserved (h : bitsAt v 27 4 ≠ 13) (h' : bitsAt v 27 4 ≠ 15) : t.reservedPath c v = t.trapAt c 1 3 := by
  unfold State.reservedPath
  dsimp only
  rw [if_neg h', if_neg h]

/-- A hint word that decodes to no instruction is recorded with its payload, or traps at its own address, by its kind (R29; log 15). -/
theorem State.reservedPath_hint (h : bitsAt v 27 4 = 15) : t.reservedPath c v =
    if bitsAt v 24 3 = 1 then t.hintPast c fun h => { h with immhi := some (c.pc, BitVec.ofNat 24 v) }
    else if bitsAt v 24 3 = 2 then t.hintPast c fun h => { h with modh := some (c.pc, BitVec.ofNat 24 v) }
    else if bitsAt v 24 3 = 4 then t.hintPast c fun h => { h with nop := some (c.pc, BitVec.ofNat 24 v) }
    else t.hintTrap c := by
  unfold State.reservedPath
  dsimp only
  rw [if_pos h]

/-- A path whose threads have recorded the same hints does a thing as one (R28, R157). -/
theorem State.eachHints_alike {f : Ctx → State → State} (ha : c.alike = true) : s.eachHints c f = f c s := if_pos ha

/-- A path whose threads have recorded unlike hints does a thing class by class (R28, R157; log 41). -/
theorem State.eachHints_classes {f : Ctx → State → State} (ha : c.alike = false) : s.eachHints c f = c.eachClass f s :=
  if_neg (by rw [ha]; decide)

/-- A failed fetch parks the path at the word, in front of its hints (R21, R400). -/
theorem raise_parks (hg : t.group? c.g = some c.G) (e : TrapEntry) (hh : c.h = false) (hv : (t.vf c.G.vf).hcl ≠ 0) :
    Parks c t e 0 (.next (t.raise c.g c.h e)) := by
  rw [hh]
  exact State.raise_spec hg e hv 0

end

/-- The detail of a word that is no instruction in a matrix stream: reserved encoding (R58). -/
theorem reservedDetail_reserved {v : Nat} (h : bitsAt v 27 4 = 13 ∨ (bitsAt v 27 4 = 15 ∧ 4 ≤ bitsAt v 24 3)) : reservedDetail v = 3 :=
  if_pos h

/-- The detail of a word of the thread stream in a matrix stream (R58). -/
theorem reservedDetail_stream {v : Nat} (h : bitsAt v 27 4 ≠ 13) (h' : bitsAt v 27 4 = 15 → bitsAt v 24 3 < 4) : reservedDetail v = 2 :=
  if_neg fun hx => hx.elim h fun hx => absurd (h' hx.1) (by omega)

/-- Settles O48: each clause is the equation of the word or of the fetch, and what the trap or the fault that it names leaves. -/
theorem fetchFaults : Obligations.FetchFaults := by
  unfold Obligations.FetchFaults
  intro s t c v n g T G
  refine ⟨?mx, ?reserved, ?immhi, ?modh, ?nop, ?hint, ?classes, ?bounds, ?boundsEach, ?bad, ?badEach, ?page, ?pageEach, ?seqReserved, ?seqStream,
    ?seqBounds, ?seqBad, ?seqPage⟩
  case mx =>
    intro h ha hm hh hv
    rw [res_go h ha, State.reservedPath_mx hm]
    exact State.trapAt_spec h.found.group hh hv 1 2 0
  case reserved =>
    intro h ha hm hm' hh hv
    rw [res_go h ha, State.reservedPath_reserved hm hm']
    exact State.trapAt_spec h.found.group hh hv 1 3 0
  case immhi =>
    intro h ha hm hk
    rw [res_go h ha, State.reservedPath_hint hm, if_pos hk]
    exact State.hintPast_spec h.found _
  case modh =>
    intro h ha hm hk
    rw [res_go h ha, State.reservedPath_hint hm, if_neg (by omega), if_pos hk]
    exact State.hintPast_spec h.found _
  case nop =>
    intro h ha hm hk
    rw [res_go h ha, State.reservedPath_hint hm, if_neg (by omega), if_neg (by omega), if_pos hk]
    exact State.hintPast_spec h.found _
  case hint =>
    intro h ha hm h1 h2 h4
    rw [res_go h ha, State.reservedPath_hint hm, if_neg h1, if_neg h2, if_neg h4]
  case classes =>
    intro h ha
    rw [res_each h, State.eachHints_classes ha]
  case bounds =>
    intro h ha hb hh hv
    rw [bounds_go h hb, State.eachHints_alike ha]
    exact State.trapAt_spec (Found.of_context h).group hh hv 1 1 0
  case boundsEach =>
    intro h ha hb
    rw [bounds_go h hb, State.eachHints_classes ha]
  case bad =>
    intro h ha va hb hc hh hv
    rw [code_bad h hb hc, State.eachHints_alike ha]
    exact raise_parks (t := s.dropBad c.G.core c.G.vf va) (Found.of_context h).group _ hh hv
  case badEach =>
    intro h ha va hb hc
    rw [code_bad h hb hc, State.eachHints_classes ha]
  case page =>
    intro h ha va hm hb k b x hc
    exact code_page h ha hb hm hc
  case pageEach =>
    intro h ha va hb k b x hc
    rw [code_pages h hb hc, State.eachHints_classes ha]
  case seqReserved =>
    intro hq hh hv
    rw [seq_res hq, reservedDetail_reserved hv]
    exact seqFault_spec hq.2.1 hh 3 0
  case seqStream =>
    intro hq hh hv hv'
    rw [seq_res hq, reservedDetail_stream hv hv']
    exact seqFault_spec hq.2.1 hh 2 0
  case seqBounds =>
    intro hq hh hva
    rw [seq_bounds hq hva]
    exact seqFault_spec hq.2.1 hh 1 0
  case seqBad =>
    intro hq hh va hva hc
    rw [seq_code hq hva, hc]
    exact seqFault_spec (s := s.dropBad T.core T.vf va) hq.2.1 hh 20 0
  case seqPage =>
    intro hq hh va k b x hva hc
    rw [seq_code hq hva, hc]
    rfl

/-! ## What an instruction goes through before its effect (R58) -/

/-- With W an instruction stays while a result of its path is out (R20, R23). -/
theorem issue_waits {i : Info} {k : Ctx → State → State} {s : State} {c : Ctx} (h : s.context? = some c) (ha : c.alike = true) (hw : i.w = true)
    (hx : c.G.waits c.mask = true) : issue i k s = .next s := by
  rw [issue_go h ha]
  unfold issueOne
  rw [if_pos hw, if_pos hx]

/-- With W an instruction takes the late errors of its path (R26, R33). -/
theorem issue_late {i : Info} {k : Ctx → State → State} {s : State} {c : Ctx} (h : s.context? = some c) (ha : c.alike = true) (hw : i.w = true)
    (hx : c.G.waits c.mask = false) (hl : c.G.late c.mask = true) : issue i k s = .next (s.deliver c) := by
  rw [issue_go h ha]
  unfold issueOne
  rw [if_pos hw, if_neg (by rw [hx]; decide), if_pos hl]

/-- Settles O49: the waits come first, then the checks in their order, then the waits of the instruction's own. -/
theorem checksAndWaits : Obligations.ChecksAndWaits := by
  unfold Obligations.ChecksAndWaits
  intro i k s c
  refine ⟨issue_waits, issue_late, ?parks, ?noHandler, ?nested, ?full, ?blockWaits, ?blockLate, ?handler, ?priv, ?hint, ?regs, ?hazard⟩
  case parks => exact fun h ha hw a b hc hh hv => check_traps h ha hw hc hh hv
  case noHandler => exact fun h ha hw a b T hc hh hv hT => check_fails h ha hw hc hh hv hT
  case nested => exact fun h ha hw a b T hc hh hT => check_nested h ha hw hc hh hT
  case full => exact fun h ha hw hc hb hv hf => var_full h ha hw hc hb hv hf
  case blockWaits => exact fun h ha _ hc hw hb hx => block_waits h ha hc hw hb hx
  case blockLate => exact fun h ha _ hc hw hb hx hl => block_late h ha hc hw hb hx hl
  case handler =>
    intro hi hh
    unfold Info.check
    rw [if_pos (by rw [hi, hh]; rfl)]
  case priv =>
    intro hi hp hx
    have hno : s.privileged c = false := by
      unfold State.privileged
      rcases hx with h | h <;> rw [h] <;> simp
    unfold Info.check
    rw [if_neg (by rw [hi]; exact Bool.false_ne_true), if_pos (by rw [hp, hno]; rfl)]
  case hint => exact fun hi hp hb => chk hi hp (if_pos hb)
  case regs => exact fun hi hp hb hr => chk hi hp (by rw [if_neg (by rw [hb]; decide), if_pos hr])
  case hazard =>
    intro hi hp hb hr hz hk hw
    exact chk hi hp (by rw [if_neg (by rw [hb]; decide), if_neg (by rw [hr]; decide), if_pos (by rw [hz, hk, hw]; rfl)])

/-- Settles O50: the waits and checks are those of the path, and the classes of equal hints partition its lanes. -/
theorem splitPaths : Obligations.SplitPaths := by
  unfold Obligations.SplitPaths
  intro i k s c
  exact ⟨mix_held, mix_late, fun h ha hx hl a b hc => mix_traps h ha hx hl hc, mix_issues,
    fun h m d hm hd => class_alike h hm hd, fun u m d hd => class_context hd, classes_cover c.G c.mask⟩

end Sys2Proof.Machine
end

section
/-! PROOFS. A step runs the decoded instruction, and where a word comes from (R20, R21, R55, R158, R165, R192, R345, R429, R512; log 1,
log 70). -/

namespace Sys2Proof.Machine

/-! ## A step, a cycle and the next word of a sequencer -/

/-- A step carries out the oldest choice of the schedule (log 1). -/
theorem step_of_agenda_cons {s : State} {c : Choice} {rest : List Choice} (h : s.agenda = c :: rest) :
    step s = State.choose exec c { s with
      cur := .none
      agenda := rest } := by
  unfold step State.stepWith
  dsimp only
  rw [h]

/-- A cycle in which the first group issues alone: it does not pair, or no group may share its slot (R165, R192). -/
theorem State.cycle_alone {run : Instr → State → Result} {u t : State} {k p j : Nat} {pair : Bool} {x : Issued} {gs : List (Nat × Group)}
    (hf : u.firstOf run (u.slotOrder k p) = (t, some (j, x, gs))) (hp : pair = false ∨ u.partner run t x gs = none) :
    u.cycle run k p pair = (u.unskip t k p).updPart k p fun P => { P with last := some j } := by
  have hnone : (if pair then u.partner run t x gs else none) = none := by
    rcases hp with h | h <;> rw [h]
    · rfl
    · exact ite_self _
  unfold State.cycle
  rw [hf]
  dsimp only
  rw [hnone]

/-- A cycle in which a second group shares the slot of the first: its slot is the last one (R165, R192; log 70). -/
theorem State.cycle_pair {run : Instr → State → Result} {u t t' : State} {k p j j' : Nat} {x : Issued} {gs : List (Nat × Group)}
    (hf : u.firstOf run (u.slotOrder k p) = (t, some (j, x, gs))) (hp : u.partner run t x gs = some (j', t')) :
    u.cycle run k p true = (u.unskip t' k p).updPart k p fun P => { P with last := some j' } := by
  unfold State.cycle
  rw [hf]
  dsimp only
  rw [if_pos rfl, hp]

/-- The first eligible group behind is the partner where R165 lets it share the slot. -/
theorem State.partner_of_pairs {run : Instr → State → Result} {u t t' : State} {j : Nat} {x y : Issued} {gs gs' : List (Nat × Group)}
    (hf : t.firstOf run gs = (t', some (j, y, gs'))) (hxy : u.pairs x y = true) : u.partner run t x gs = some (j, t') := by
  unfold State.partner
  rw [hf]
  exact if_pos hxy

/-- A fetched word stands for the instruction that it decodes to (R55). -/
theorem Fetched.instr_of_decode {f : Fetched} {w : Nat} {i : Instr} (hf : f = .word w) (hd : decode w = some i) : f.instr = i := by
  rw [hf]
  unfold Fetched.instr
  dsimp only
  rw [hd]

/-- A sequencer that can take its next word runs it (R345). -/
theorem State.sequence_run {u t : State} {n : Nat} {T : Team} {w : Nat} {i : Instr} (hT : u.team? n = some T)
    (hlive : T.seqLive = true ∧ T.pre ≠ .saved ∧ (u.core T.core).up = true) (hw : (({ u with cur := .seq n } : State).seqFetch n T).1 = .word w)
    (hd : decode w = some i) (he : exec i (({ u with cur := .seq n } : State).seqFetch n T).2 = .next t) :
    u.sequence exec n = { t with cur := .none } := by
  have hi := Fetched.instr_of_decode hw hd
  unfold State.sequence
  rw [hT]
  dsimp only
  rw [if_pos hlive, hi, he, hw]

/-! ## Where a word comes from (R21, R429, R512) -/

section
variable {s : State} {c : Ctx}

/-- A PC at or beyond the code limit is no fetch (R21). -/
theorem State.fetch_bounds (h : segIn (c.G.code c.h) c.pc.toNat = false) : s.fetch c = (.bounds, s) :=
  if_pos (by rw [h]; rfl)

variable (h : segIn (c.G.code c.h) c.pc.toNat = true)
include h

/-- A word that the loop buffer holds is that of the path (R512). -/
theorem State.fetch_loop {w : Word} (hl : s.loopWord c (segBase (c.G.code c.h) + c.pc.toNat) = some w) : (s.fetch c).1 = .word w.toNat := by
  unfold State.fetch
  dsimp only
  rw [if_neg (by rw [h]; decide), hl]

variable (hl : s.loopWord c (segBase (c.G.code c.h) + c.pc.toNat) = none)
include hl

/-- Without the loop buffer a word that the group has fetched ahead is that of the path (R429). -/
theorem State.fetch_ahead {w : Word} (hp : c.G.pre.find? (segBase (c.G.code c.h) + c.pc.toNat) = some w) : (s.fetch c).1 = .word w.toNat := by
  unfold State.fetch
  dsimp only
  rw [if_neg (by rw [h]; decide), hl]
  dsimp only
  rw [hp]

variable (hp : c.G.pre.find? (segBase (c.G.code c.h) + c.pc.toNat) = none)
include hp

/-- Otherwise the word comes from the line of the instruction cache (R429). -/
theorem State.fetch_line {l : IcLine}
    (hc : (s.core c.G.core).codeLine c.G.vf (s.vf c.G.vf).asid (segBase (c.G.code c.h) + c.pc.toNat) = some l) :
    (s.fetch c).1 = .word (codeWord l.data (segBase (c.G.code c.h) + c.pc.toNat)) := by
  unfold State.fetch
  dsimp only
  rw [if_neg (by rw [h]; decide), hl]
  dsimp only
  rw [hp]
  dsimp only
  rw [fetchAt_word (codeAt_line hc)]

/-- A line that the instruction cache does not hold is sent for (R429). -/
theorem State.fetch_ask {pa : Nat} {x : Trans} (hc : s.codeAt c.G.core c.G.vf (segBase (c.G.code c.h) + c.pc.toNat) = .ask pa x) :
    s.fetch c = (.miss, s.askCode c.G.core c.G.vf (segBase (c.G.code c.h) + c.pc.toNat) (s.svcOf c.G.team) pa x) := by
  unfold State.fetch
  dsimp only
  rw [if_neg (by rw [h]; decide), hl]
  dsimp only
  rw [hp]
  dsimp only
  rw [fetchAt_ask hc]

end

section
variable {s : State} {n va : Nat} {T : Team} (hv : s.seqVa T = some va)
include hv

/-- A word that a sequencer has fetched ahead is its next one (R429). -/
theorem State.seqFetch_ahead {w : Word} (hb : T.seq.buf.find? va = some w) : (s.seqFetch n T).1 = .word w.toNat := by
  unfold State.seqFetch
  rw [hv]
  dsimp only
  rw [hb]

/-- Any other word of a sequencer comes through the instruction cache (R429). -/
theorem State.seqFetch_cache (hb : T.seq.buf.find? va = none) : s.seqFetch n T = s.fetchAt T.core T.vf va (s.svcOf n) := by
  unfold State.seqFetch
  rw [hv]
  dsimp only
  rw [hb]

end

/-- Settles O57: the choice runs the word of the first path, with a partner that of the second; the rest says where a word comes from. -/
theorem stepRunsDecodedWord : Obligations.StepRunsDecodedWord := by
  unfold Obligations.StepRunsDecodedWord
  refine ⟨?cycle, ?sequencer, fun s c h => congrArg Prod.fst (State.fetch_bounds h), ?path, ?stream⟩
  case cycle =>
    intro s t k p g G h pc m more gs rest c w i pair ha u ho hG v hc hw hd he hst t1 x
    have hfirst : u.firstOf exec (u.slotOrder k p) = (t1, some (G.slot, x, gs)) := by
      rw [ho]
      exact firstOf_run hG (tryPath_run hc hw hd he hst)
    refine ⟨?alone, ?paired⟩
    case alone =>
      intro hp
      rw [step_of_agenda_cons ha]
      exact congrArg Host.Outcome.next (State.cycle_alone hfirst hp)
    case paired =>
      intro g2 G2 h2 pc2 m2 more2 gs2 c2 t2 hpair hgs hG2 v2 hc2 hw2 he2 hst2 hxy t3
      have hsecond : t1.firstOf exec gs = (t3, some (G2.slot, ⟨c2.G, pc2, m2, c2.hints, some w⟩, gs2)) := by
        rw [hgs]
        exact firstOf_run hG2 (tryPath_run hc2 hw2 hd he2 hst2)
      rw [step_of_agenda_cons ha, hpair]
      exact congrArg Host.Outcome.next (State.cycle_pair hfirst (State.partner_of_pairs hsecond hxy))
  case sequencer =>
    intro s t n T rest w i ha hT hlive hpre hup v hw hd he
    rw [step_of_agenda_cons ha]
    exact congrArg Host.Outcome.next (State.sequence_run hT ⟨hlive, hpre, hup⟩ hw hd he)
  case path =>
    intro s c h va
    exact ⟨fun w hl => State.fetch_loop h hl, fun hl => ⟨fun w hp => State.fetch_ahead h hl hp, fun hp l hc => State.fetch_line h hl hp hc,
      fun hp pa x hc => State.fetch_ask h hl hp hc⟩⟩
  case stream =>
    intro s n T va hv
    refine ⟨fun w hb => State.seqFetch_ahead hv hb, fun hb l hc => ?line, fun hb pa x hc => ?ask⟩
    case line => rw [State.seqFetch_cache hv hb, fetchAt_word (codeAt_line hc)]
    case ask => rw [State.seqFetch_cache hv hb, fetchAt_ask hc]

end Sys2Proof.Machine
end

section
/-! PROOFS. Moves, selects and the fill of a slide (R60, R75, R99, R102, R204). -/

namespace Sys2Proof.Machine

/-- An instruction whose whole effect is a write of thread registers writes them where it issues. -/
theorem issue_putV_writes {i : Info} {s t : State} {c : Ctx} {d : Nat} {f : Ctx → Nat → Word × Word} (h : Issues i s c t) :
    WritesV c t d (f c) (issue i (fun c s => s.putV c d (f c)) s) := by
  rw [h.issue]
  exact State.putV_spec h.found _ _

/-- Settles O4: each form is one write of thread registers, of the count, the operand, or the selected operand. -/
theorem movesAndSelects : Obligations.MovesAndSelects := by
  unfold Obligations.MovesAndSelects
  intro s t c w d a b
  exact ⟨issue_putV_writes, issue_putV_writes, issue_putV_writes, issue_putV_writes, issue_putV_writes,
    issue_putV_writes, issue_putV_writes, issue_putV_writes⟩

/-! ## The fill register of a slide (R75) -/

/-- The fill register is s0 without a mod hint, and with one whose FILL is 0 (R75). -/
theorem Hints.fill_eq_zero {h : Hints} (hh : h.modh = none ∨ ∃ pc x, h.modh = some (pc, x) ∧ x.extractLsb' 12 7 = 0) : h.fill = 0 := by
  unfold Hints.fill Hints.field
  rcases hh with hn | ⟨pc, x, hx, hfill⟩
  · rw [hn]
  · rw [hx]
    have hbits : (x.extractLsb' 12 7).toNat = 0 := by rw [hfill]; rfl
    rwa [BitVec.extractLsb'_toNat, Nat.shiftRight_eq_div_pow] at hbits

/-- Settles O60: a slide with fill 11 takes the uniform register that FILL names, and that is s0. -/
theorem fillWithoutHint : Obligations.FillWithoutHint := by
  unfold Obligations.FillWithoutHint
  intro s t c w d a n h hh
  have hs0 : c.rs 0 = c.rs c.hints.fill := by rw [Hints.fill_eq_zero hh]
  rw [hs0]
  exact ⟨issue_putV_writes h, issue_putV_writes h⟩

end Sys2Proof.Machine
end

section
/-! PROOFS. The matrix stream: the words that work on stream registers, barriers and tags, and where words fault (R58, R59, R343 to R349,
R359 to R370, R396). -/

namespace Sys2Proof.Machine

/-! ## The conditions of `mwait` and `mtag` -/

/-- A barrier has the phase that a sequencer expects (R346). -/
theorem State.expected_iff {s : State} {T : Team} {b : Nat} : s.expected T b = true ↔ (s.bar T b).phase = T.seq.xp.getLsbD b := beq_iff_eq

/-- A tag is ready where it is set and its completion time has been reached (R284). -/
theorem State.tagReady_iff {s : State} {k g : Nat} :
    s.tagReady k g = true ↔ (s.core k).tags.getLsbD g = true ∧ (s.core k).tagTime.get g 0 ≤ s.now := by
  unfold State.tagReady
  rw [Bool.and_eq_true, decide_eq_true_eq]

/-- `mtag` returns at a tag without an error: what was written before the tag is settled, and the sequencer goes on (R347, R348). -/
theorem mtagDone_goes {s : State} {n k g : Nat} {T : Team} (hT : s.team? n = some T) (he : (s.core k).terr.getLsbD g = false) :
    SeqGoes n (s.settleObuf T) T (fun q => { q with wait := none }) (.next (s.mtagDone n k g)) := by
  unfold State.mtagDone
  rw [if_neg (by rw [he]; decide), hT]
  exact seqThen_spec (settle_team hT) _

/-! ## Words of one stream in the other (R58, R59) -/

section
variable {s : State} {n : Nat} {T : Team} (h : Sequences s n T)
include h

/-- A word of the thread stream is a fault of the matrix stream (R58). -/
theorem Sequences.issue (i : Info) (k : Ctx → State → State) : issue i k s = .next (s.seqFault n 2 0) := by
  obtain ⟨hcur, hT, hlive⟩ := h
  unfold Machine.issue issueBy
  rw [hcur]
  dsimp only
  rw [hT]
  exact if_pos hlive

/-- `nop` goes on in the matrix stream, and with bit 31 set it is a reserved encoding there (R59, R70). -/
theorem Sequences.nop (w : BitVec 1) : execNop w s = .next (if w = 0 then s.seqNext n else s.seqFault n 3 0) := by
  obtain ⟨hcur, hT, hlive⟩ := h
  unfold execNop
  rw [hcur]
  dsimp only
  rw [hT]
  dsimp only
  rw [if_pos hlive, apply_ite Host.Outcome.next]

end

/-! ## The words -/

/-- Settles O32: each word is `mxIssue` of its effect, which the sequencer's own operations describe; `nop` alone is a word of both
streams. -/
theorem sequencerWords : Obligations.SequencerWords := by
  unfold Obligations.SequencerWords
  intro s n T m b i g
  refine ⟨?mset, ?madd, ?mbnz, ?mend, ?mendLast, ?marv, ?mwait, ?mwaitStands, ?mtag, ?mtagStands, ?nop⟩
  case mset =>
    intro h
    show SeqGoes n s T _ (execMset m i s)
    rw [execMset, h.mx]
    exact seqThen_spec h.2.1 _
  case madd =>
    intro h
    show SeqGoes n s T _ (execMadd m i s)
    rw [execMadd, h.mx]
    exact seqThen_spec h.2.1 _
  case mbnz =>
    intro h
    show execMbnz m i s = _
    rw [execMbnz, h.mx, updSeq_eq h.2.1]
    rfl
  case mend =>
    intro h he hb hg
    show SeqGoes n s T _ (execMend s)
    rw [execMend, h.mx]
    exact mend_spec h.2.1 he hb hg
  case mendLast =>
    intro h he hb hg hw
    show ∃ u, execMend s = .next u ∧ u.team? n = none
    rw [execMend, h.mx]
    exact mend_last h.2.1 he hb hg hw
  case marv =>
    intro h hs hb he hc
    show ∃ u U, Arrives s u n b.toNat 1 ∧ u.team? n = some U ∧ SeqGoes n u U id (execMarv b s)
    rw [execMarv, h.mx]
    exact marv_spec h.2.1 hs hb he hc
  case mwait =>
    intro h hs hp
    show SeqGoes n s T _ (execMwait b s)
    rw [execMwait, h.mx, if_neg (by rw [hs]; decide), if_pos (State.expected_iff.2 hp)]
    exact seqThen_spec h.2.1 _
  case mwaitStands =>
    intro h hs hp
    show execMwait b s = _
    rw [execMwait, h.mx, if_neg (by rw [hs]; decide), if_neg (mt State.expected_iff.1 hp), updSeq_eq h.2.1]
  case mtag =>
    intro h hlo hhi ht hc he
    show SeqGoes n _ T _ (execMtag g s)
    rw [execMtag, h.mx, if_neg (by rw [decide_eq_true ⟨hlo, hhi⟩]; decide), if_pos (State.tagReady_iff.2 ⟨ht, hc⟩)]
    exact mtagDone_goes h.2.1 he
  case mtagStands =>
    intro h hlo hhi ht
    have hready : ¬ s.tagReady T.core g.toNat = true := by
      rw [State.tagReady_iff]
      rintro ⟨hset, hc⟩
      rcases ht with ht | ht
      · rw [ht] at hset; cases hset
      · omega
    show execMtag g s = _
    rw [execMtag, h.mx, if_neg (by rw [decide_eq_true ⟨hlo, hhi⟩]; decide), if_neg hready, updSeq_eq h.2.1]
  case nop =>
    intro h
    show SeqGoes n s T id (execNop 0 s)
    rw [h.nop, if_pos rfl]
    exact seqThen_spec h.2.1 id

/-- Settles O33: the check that fails answers with `seqFault`, which stops the sequencer in front of the word. -/
theorem matrixStreamFaults : Obligations.MatrixStreamFaults := by
  unfold Obligations.MatrixStreamFaults
  intro s n g T G a o m sh f p v w b tg
  refine ⟨?mld, ?mmulTiles, ?mmulFormat, ?mgrp, ?mmulsm, ?mret, ?mtag, ?nop, ?yield⟩
  case mld =>
    intro h hh hr
    show SeqFaults n s T g G 11 0 (execMld o sh m s)
    rw [execMld, h.mx]
    dsimp only
    rw [if_pos (by rw [hr]; rfl)]
    exact seqFault_spec h.2.1 hh 11 0
  case mmulTiles =>
    intro h hh ha
    show SeqFaults n s T g G 13 0 (execMmul a o m v s)
    rw [execMmul, h.mx]
    cases hs : T.seq.shape with
    | none => exact seqFault_spec h.2.1 hh 13 0
    | some k =>
      have hk := ha k hs
      dsimp only
      rw [if_pos (by omega)]
      exact seqFault_spec h.2.1 hh 13 0
  case mmulFormat =>
    intro h hh ha hne
    show SeqFaults n s T g G 14 0 (execMmul a o m v s)
    rw [execMmul, h.mx]
    obtain ⟨k, hs⟩ := Option.ne_none_iff_exists'.1 hne
    obtain ⟨hk, hr, hf⟩ := ha k hs
    rw [hs]
    dsimp only
    rw [if_neg (by omega), if_neg (by rw [hr]; decide), if_pos hf]
    exact seqFault_spec h.2.1 hh 14 0
  case mgrp =>
    intro h hh hs
    show SeqFaults n s T g G 13 0 (execMgrp a o m s)
    rw [execMgrp, h.mx]
    dsimp only
    rw [if_pos hs]
    exact seqFault_spec h.2.1 hh 13 0
  case mmulsm =>
    intro h hh hs
    show SeqFaults n s T g G 13 0 (execMmulsm a o m v s)
    rw [execMmulsm, h.mx]
    dsimp only
    rw [if_pos (.inl hs)]
    exact seqFault_spec h.2.1 hh 13 0
  case mret =>
    intro h hh hm
    show SeqFaults n s T g G 12 0 (execMret a f p m b s)
    rw [execMret, h.mx]
    dsimp only
    rw [if_pos hm]
    exact seqFault_spec h.2.1 hh 12 0
  case mtag =>
    intro h hh ht
    show SeqFaults n s T g G 19 0 (execMtag tg s)
    rw [execMtag, h.mx, if_pos (by rw [decide_eq_false (by omega)]; rfl)]
    exact seqFault_spec h.2.1 hh 19 0
  case nop =>
    intro h hh
    show SeqFaults n s T g G 3 0 (execNop 1 s)
    rw [h.nop, if_neg (by decide)]
    exact seqFault_spec h.2.1 hh 3 0
  case yield =>
    intro h hh
    show SeqFaults n s T g G 2 0 (execYield w s)
    rw [execYield, h.issue]
    exact seqFault_spec h.2.1 hh 2 0

end Sys2Proof.Machine
end

section
/-! PROOFS. Encoding and decoding: the layouts of the words, and that each direction undoes the other (R55 to R73). -/

namespace Sys2Proof

/-! ## Words as runs of bits -/

/-- A run of bits of a word: a constant of its encoding, or an operand. -/
inductive Run where
  | fixed (n c : Nat)
  | field {n : Nat} (v : BitVec n)

/-- The word whose runs of bits, the lowest first, are those of a list. -/
def wordOf : List Run → Nat
  | [] => 0
  | .fixed n c :: rs => c % 2 ^ n + 2 ^ n * wordOf rs
  | @Run.field n v :: rs => v.toNat + 2 ^ n * wordOf rs

/-- The bits of a word from `lo` on are the runs of a list, the lowest first, and no bit above them is set. -/
@[simp] def ReadsAs (x lo : Nat) : List Run → Prop
  | [] => x < 2 ^ lo
  | .fixed n c :: rs => bitsAt x lo n = c % 2 ^ n ∧ ReadsAs x (lo + n) rs
  | @Run.field n v :: rs => fieldOf x lo n = v ∧ ReadsAs x (lo + n) rs

/-- The part of a number that lies in some runs of its bits, each given by its lowest bit and its length. -/
@[simp] def bitsIn (m : Nat) : List (Nat × Nat) → Nat
  | [] => 0
  | (lo, n) :: rs => m / 2 ^ lo % 2 ^ n * 2 ^ lo + bitsIn m rs

/-- The bits of a word from `lo` on are a run of `n` bits and what lies above it. -/
theorem div_eq_bits_add_iff {x lo n v k : Nat} (hv : v < 2 ^ n) :
    x / 2 ^ lo = v + 2 ^ n * k ↔ bitsAt x lo n = v ∧ x / 2 ^ (lo + n) = k := by
  rw [bitsAt, Nat.pow_add, ← Nat.div_div_eq_div_mul]
  refine ⟨fun h => ?_, fun ⟨h, hk⟩ => ?_⟩
  · rw [h, Nat.add_mul_mod_self_left, Nat.mod_eq_of_lt hv, Nat.add_mul_div_left _ _ (Nat.two_pow_pos n), Nat.div_eq_of_lt hv,
      Nat.zero_add]
    exact ⟨rfl, rfl⟩
  · rw [← h, ← hk, Nat.mod_add_div]

/-- A field is a bit vector where its bits are the vector's number. -/
theorem fieldOf_eq_iff {x lo n : Nat} {v : BitVec n} : fieldOf x lo n = v ↔ bitsAt x lo n = v.toNat := by
  rw [← BitVec.toNat_inj, fieldOf_toNat, bitsAt]

/-- The bits of a word from `lo` on are the word of a list exactly where they read as the list. -/
theorem div_eq_wordOf_iff {x lo : Nat} {rs : List Run} : x / 2 ^ lo = wordOf rs ↔ ReadsAs x lo rs := by
  induction rs generalizing lo with
  | nil => exact Nat.div_eq_zero_iff_lt (Nat.two_pow_pos lo)
  | cons r rs ih =>
    cases r with
    | fixed n c => exact (div_eq_bits_add_iff (Nat.mod_lt c (Nat.two_pow_pos n))).trans (and_congr_right fun _ => ih)
    | field v => exact (div_eq_bits_add_iff v.isLt).trans (and_congr fieldOf_eq_iff.symm ih)

/-- A word is the word of a list exactly where it reads as the list. -/
theorem wordOf_eq_iff {x : Nat} {rs : List Run} : wordOf rs = x ↔ ReadsAs x 0 rs := by
  rw [eq_comm, ← div_eq_wordOf_iff, Nat.pow_zero, Nat.div_one]

/-! ## The layouts (R55, R60 to R73)

Each layout over the constant bits `m` of an encoding gives the word that reads as the operands of the layout, and as `m` between them.
That `m` has no bit in an operand is a fact about a numeral, which `rfl` or `simp` finds. -/

section
variable {m x : Nat}

@[simp] theorem lay0_eq_iff {x0 : BitVec 1} {x1 x2 x3 : BitVec 7} (hm : m = bitsIn m [(21, 6), (27, 4)]) :
    lay0 m x0 x1 x2 x3 = x ↔ ReadsAs x 0 [.field x3, .field x2, .field x1, .fixed 6 (m / 2 ^ 21), .fixed 4 (m / 2 ^ 27), .field x0] := by
  rw [← wordOf_eq_iff]; simp only [bitsIn, lay0, wordOf] at hm ⊢; omega
@[simp] theorem lay1_eq_iff {x0 : BitVec 1} {x1 x2 : BitVec 7} (hm : m = bitsIn m [(0, 7), (21, 6), (27, 4)]) :
    lay1 m x0 x1 x2 = x ↔ ReadsAs x 0 [.fixed 7 m, .field x2, .field x1, .fixed 6 (m / 2 ^ 21), .fixed 4 (m / 2 ^ 27), .field x0] := by
  rw [← wordOf_eq_iff]; simp only [bitsIn, lay1, wordOf] at hm ⊢; omega
@[simp] theorem lay2_eq_iff {x0 : BitVec 1} {x1 x2 : BitVec 7} (hm : m = bitsIn m [(7, 7), (21, 6), (27, 4)]) :
    lay2 m x0 x1 x2 = x ↔
      ReadsAs x 0 [.field x2, .fixed 7 (m / 2 ^ 7), .field x1, .fixed 6 (m / 2 ^ 21), .fixed 4 (m / 2 ^ 27), .field x0] := by
  rw [← wordOf_eq_iff]; simp only [bitsIn, lay2, wordOf] at hm ⊢; omega
@[simp] theorem lay3_eq_iff {x0 : BitVec 1} {x1 : BitVec 5} {x2 x3 : BitVec 3} {x4 x5 : BitVec 7} (hm : m = bitsIn m [(17, 2), (27, 4)]) :
    lay3 m x0 x1 x2 x3 x4 x5 = x ↔
      ReadsAs x 0 [.field x5, .field x4, .field x3, .fixed 2 (m / 2 ^ 17), .field x2, .field x1, .fixed 4 (m / 2 ^ 27), .field x0] := by
  rw [← wordOf_eq_iff]; simp only [bitsIn, lay3, wordOf] at hm ⊢; omega
@[simp] theorem lay4_eq_iff {x0 : BitVec 1} {x1 x2 : BitVec 10} (hm : m = bitsIn m [(0, 1), (21, 6), (27, 4)]) :
    lay4 m x0 x1 x2 = x ↔ ReadsAs x 0 [.fixed 1 m, .field x2, .field x1, .fixed 6 (m / 2 ^ 21), .fixed 4 (m / 2 ^ 27), .field x0] := by
  rw [← wordOf_eq_iff]; simp only [bitsIn, lay4, wordOf] at hm ⊢; omega
@[simp] theorem lay5_eq_iff {x0 : BitVec 1} {x1 : BitVec 10} {x2 : BitVec 7} (hm : m = bitsIn m [(0, 1), (8, 3), (21, 6), (27, 4)]) :
    lay5 m x0 x1 x2 = x ↔
      ReadsAs x 0 [.fixed 1 m, .field x2, .fixed 3 (m / 2 ^ 8), .field x1, .fixed 6 (m / 2 ^ 21), .fixed 4 (m / 2 ^ 27), .field x0] := by
  rw [← wordOf_eq_iff]; simp only [bitsIn, lay5, wordOf] at hm ⊢; omega
@[simp] theorem lay6_eq_iff {x0 : BitVec 1} {x1 : BitVec 7} {x2 : BitVec 10} (hm : m = bitsIn m [(0, 1), (18, 3), (21, 6), (27, 4)]) :
    lay6 m x0 x1 x2 = x ↔
      ReadsAs x 0 [.fixed 1 m, .field x2, .field x1, .fixed 3 (m / 2 ^ 18), .fixed 6 (m / 2 ^ 21), .fixed 4 (m / 2 ^ 27), .field x0] := by
  rw [← wordOf_eq_iff]; simp only [bitsIn, lay6, wordOf] at hm ⊢; omega
@[simp] theorem lay7_eq_iff {x0 : BitVec 1} {x1 : BitVec 10} {x2 : BitVec 12} (hm : m = bitsIn m [(22, 5), (27, 4)]) :
    lay7 m x0 x1 x2 = x ↔ ReadsAs x 0 [.field x2, .field x1, .fixed 5 (m / 2 ^ 22), .fixed 4 (m / 2 ^ 27), .field x0] := by
  rw [← wordOf_eq_iff]; simp only [bitsIn, lay7, wordOf] at hm ⊢; omega
@[simp] theorem lay8_eq_iff {x0 : BitVec 1} {x1 : BitVec 10} {x2 : BitVec 5} (hm : m = bitsIn m [(5, 7), (22, 5), (27, 4)]) :
    lay8 m x0 x1 x2 = x ↔
      ReadsAs x 0 [.field x2, .fixed 7 (m / 2 ^ 5), .field x1, .fixed 5 (m / 2 ^ 22), .fixed 4 (m / 2 ^ 27), .field x0] := by
  rw [← wordOf_eq_iff]; simp only [bitsIn, lay8, wordOf] at hm ⊢; omega
@[simp] theorem lay9_eq_iff {x0 : BitVec 1} {x1 : BitVec 10} {x2 : BitVec 4} {x3 : BitVec 8} (hm : m = bitsIn m [(22, 5), (27, 4)]) :
    lay9 m x0 x1 x2 x3 = x ↔ ReadsAs x 0 [.field x3, .field x2, .field x1, .fixed 5 (m / 2 ^ 22), .fixed 4 (m / 2 ^ 27), .field x0] := by
  rw [← wordOf_eq_iff]; simp only [bitsIn, lay9, wordOf] at hm ⊢; omega
@[simp] theorem lay10_eq_iff {x0 : BitVec 1} {x1 : BitVec 10} {x2 : BitVec 4} (hm : m = bitsIn m [(0, 8), (22, 5), (27, 4)]) :
    lay10 m x0 x1 x2 = x ↔ ReadsAs x 0 [.fixed 8 m, .field x2, .field x1, .fixed 5 (m / 2 ^ 22), .fixed 4 (m / 2 ^ 27), .field x0] := by
  rw [← wordOf_eq_iff]; simp only [bitsIn, lay10, wordOf] at hm ⊢; omega
@[simp] theorem lay11_eq_iff {x0 : BitVec 1} {x1 : BitVec 21} (hm : m = bitsIn m [(21, 3), (24, 3), (27, 4)]) :
    lay11 m x0 x1 = x ↔ ReadsAs x 0 [.field x1, .fixed 3 (m / 2 ^ 21), .fixed 3 (m / 2 ^ 24), .fixed 4 (m / 2 ^ 27), .field x0] := by
  rw [← wordOf_eq_iff]; simp only [bitsIn, lay11, wordOf] at hm ⊢; omega
@[simp] theorem lay12_eq_iff {x0 : BitVec 1} {x1 : BitVec 3} {x2 : BitVec 21} (hm : m = bitsIn m [(24, 3), (27, 4)]) :
    lay12 m x0 x1 x2 = x ↔ ReadsAs x 0 [.field x2, .field x1, .fixed 3 (m / 2 ^ 24), .fixed 4 (m / 2 ^ 27), .field x0] := by
  rw [← wordOf_eq_iff]; simp only [bitsIn, lay12, wordOf] at hm ⊢; omega
@[simp] theorem lay13_eq_iff {x0 : BitVec 1} (hm : m = bitsIn m [(0, 21), (21, 6), (27, 4)]) :
    lay13 m x0 = x ↔ ReadsAs x 0 [.fixed 21 m, .fixed 6 (m / 2 ^ 21), .fixed 4 (m / 2 ^ 27), .field x0] := by
  rw [← wordOf_eq_iff]; simp only [bitsIn, lay13, wordOf] at hm ⊢; omega
/-- The same for the classes whose opcode begins at bit 24 (R55, R73). -/
theorem lay13_eq_iff_24 {x0 : BitVec 1} (hm : m = bitsIn m [(0, 24), (24, 3), (27, 4)]) :
    lay13 m x0 = x ↔ ReadsAs x 0 [.fixed 24 m, .fixed 3 (m / 2 ^ 24), .fixed 4 (m / 2 ^ 27), .field x0] := by
  rw [← wordOf_eq_iff]; simp only [bitsIn, lay13, wordOf] at hm ⊢; omega
@[simp] theorem lay14_eq_iff {x0 x3 : BitVec 1} {x1 x2 : BitVec 7} {x4 : BitVec 2} (hm : m = bitsIn m [(3, 4), (21, 6), (27, 4)]) :
    lay14 m x0 x1 x2 x3 x4 = x ↔
      ReadsAs x 0 [.field x4, .field x3, .fixed 4 (m / 2 ^ 3), .field x2, .field x1, .fixed 6 (m / 2 ^ 21), .fixed 4 (m / 2 ^ 27), .field
        x0] := by
  rw [← wordOf_eq_iff]; simp only [bitsIn, lay14, wordOf] at hm ⊢; omega
@[simp] theorem lay15_eq_iff {x0 : BitVec 1} {x1 x2 : BitVec 7} {x3 : BitVec 2} (hm : m = bitsIn m [(2, 5), (21, 6), (27, 4)]) :
    lay15 m x0 x1 x2 x3 = x ↔
      ReadsAs x 0 [.field x3, .fixed 5 (m / 2 ^ 2), .field x2, .field x1, .fixed 6 (m / 2 ^ 21), .fixed 4 (m / 2 ^ 27), .field x0] := by
  rw [← wordOf_eq_iff]; simp only [bitsIn, lay15, wordOf] at hm ⊢; omega
@[simp] theorem lay16_eq_iff {x0 x3 : BitVec 1} {x1 x2 : BitVec 7} (hm : m = bitsIn m [(0, 3), (4, 3), (21, 6), (27, 4)]) :
    lay16 m x0 x1 x2 x3 = x ↔
      ReadsAs x 0 [.fixed 3 m, .field x3, .fixed 3 (m / 2 ^ 4), .field x2, .field x1, .fixed 6 (m / 2 ^ 21), .fixed 4 (m / 2 ^ 27), .field
        x0] := by
  rw [← wordOf_eq_iff]; simp only [bitsIn, lay16, wordOf] at hm ⊢; omega
@[simp] theorem lay17_eq_iff {x0 : BitVec 1} {x1 x2 : BitVec 7} {x3 : BitVec 5} (hm : m = bitsIn m [(5, 2), (21, 6), (27, 4)]) :
    lay17 m x0 x1 x2 x3 = x ↔
      ReadsAs x 0 [.field x3, .fixed 2 (m / 2 ^ 5), .field x2, .field x1, .fixed 6 (m / 2 ^ 21), .fixed 4 (m / 2 ^ 27), .field x0] := by
  rw [← wordOf_eq_iff]; simp only [bitsIn, lay17, wordOf] at hm ⊢; omega
@[simp] theorem lay18_eq_iff {x0 : BitVec 1} {x1 x2 : BitVec 7} {x3 : BitVec 5} {x4 : BitVec 2} (hm : m = bitsIn m [(21, 6), (27, 4)]) :
    lay18 m x0 x1 x2 x3 x4 = x ↔
      ReadsAs x 0 [.field x4, .field x3, .field x2, .field x1, .fixed 6 (m / 2 ^ 21), .fixed 4 (m / 2 ^ 27), .field x0] := by
  rw [← wordOf_eq_iff]; simp only [bitsIn, lay18, wordOf] at hm ⊢; omega
@[simp] theorem lay19_eq_iff {x0 : BitVec 1} {x1 : BitVec 7} {x2 : BitVec 3} (hm : m = bitsIn m [(0, 7), (10, 4), (21, 6), (27, 4)]) :
    lay19 m x0 x1 x2 = x ↔
      ReadsAs x 0 [.fixed 7 m, .field x2, .fixed 4 (m / 2 ^ 10), .field x1, .fixed 6 (m / 2 ^ 21), .fixed 4 (m / 2 ^ 27), .field x0] := by
  rw [← wordOf_eq_iff]; simp only [bitsIn, lay19, wordOf] at hm ⊢; omega
@[simp] theorem lay20_eq_iff {x0 : BitVec 1} {x1 x2 : BitVec 3} (hm : m = bitsIn m [(0, 7), (10, 4), (17, 4), (21, 6), (27, 4)]) :
    lay20 m x0 x1 x2 = x ↔
      ReadsAs x 0 [.fixed 7 m, .field x2, .fixed 4 (m / 2 ^ 10), .field x1, .fixed 4 (m / 2 ^ 17), .fixed 6 (m / 2 ^ 21), .fixed 4 (m / 2 ^
        27), .field x0] := by
  rw [← wordOf_eq_iff]; simp only [bitsIn, lay20, wordOf] at hm ⊢; omega
@[simp] theorem lay21_eq_iff {x0 : BitVec 1} {x1 x2 x3 : BitVec 3} (hm : m = bitsIn m [(3, 4), (10, 4), (17, 4), (21, 6), (27, 4)]) :
    lay21 m x0 x1 x2 x3 = x ↔
      ReadsAs x 0 [.field x3, .fixed 4 (m / 2 ^ 3), .field x2, .fixed 4 (m / 2 ^ 10), .field x1, .fixed 4 (m / 2 ^ 17), .fixed 6 (m / 2 ^
        21), .fixed 4 (m / 2 ^ 27), .field x0] := by
  rw [← wordOf_eq_iff]; simp only [bitsIn, lay21, wordOf] at hm ⊢; omega
@[simp] theorem lay22_eq_iff {x0 : BitVec 1} {x1 : BitVec 3} {x2 : BitVec 7} (hm : m = bitsIn m [(0, 7), (17, 4), (21, 6), (27, 4)]) :
    lay22 m x0 x1 x2 = x ↔
      ReadsAs x 0 [.fixed 7 m, .field x2, .field x1, .fixed 4 (m / 2 ^ 17), .fixed 6 (m / 2 ^ 21), .fixed 4 (m / 2 ^ 27), .field x0] := by
  rw [← wordOf_eq_iff]; simp only [bitsIn, lay22, wordOf] at hm ⊢; omega
@[simp] theorem lay23_eq_iff {x0 : BitVec 1} {x1 : BitVec 7} (hm : m = bitsIn m [(0, 14), (21, 6), (27, 4)]) :
    lay23 m x0 x1 = x ↔ ReadsAs x 0 [.fixed 14 m, .field x1, .fixed 6 (m / 2 ^ 21), .fixed 4 (m / 2 ^ 27), .field x0] := by
  rw [← wordOf_eq_iff]; simp only [bitsIn, lay23, wordOf] at hm ⊢; omega
@[simp] theorem lay24_eq_iff {x0 : BitVec 1} {x1 : BitVec 7} (hm : m = bitsIn m [(0, 7), (14, 7), (21, 6), (27, 4)]) :
    lay24 m x0 x1 = x ↔
      ReadsAs x 0 [.fixed 7 m, .field x1, .fixed 7 (m / 2 ^ 14), .fixed 6 (m / 2 ^ 21), .fixed 4 (m / 2 ^ 27), .field x0] := by
  rw [← wordOf_eq_iff]; simp only [bitsIn, lay24, wordOf] at hm ⊢; omega
@[simp] theorem lay25_eq_iff {x0 x4 x5 x6 x7 : BitVec 1} {x1 x2 : BitVec 7} {x3 : BitVec 4} (hm : m = bitsIn m [(22, 5), (27, 4)]) :
    lay25 m x0 x1 x2 x3 x4 x5 x6 x7 = x ↔
      ReadsAs x 0 [.field x7, .field x6, .field x5, .field x4, .field x3, .field x2, .field x1, .fixed 5 (m / 2 ^ 22), .fixed 4 (m / 2 ^
        27), .field x0] := by
  rw [← wordOf_eq_iff]; simp only [bitsIn, lay25, wordOf] at hm ⊢; omega
@[simp] theorem lay26_eq_iff {x0 x4 x5 : BitVec 1} {x1 x2 : BitVec 7} {x3 : BitVec 4} (hm : m = bitsIn m [(2, 2), (22, 5), (27, 4)]) :
    lay26 m x0 x1 x2 x3 x4 x5 = x ↔
      ReadsAs x 0 [.field x5, .field x4, .fixed 2 (m / 2 ^ 2), .field x3, .field x2, .field x1, .fixed 5 (m / 2 ^ 22), .fixed 4 (m / 2 ^
        27), .field x0] := by
  rw [← wordOf_eq_iff]; simp only [bitsIn, lay26, wordOf] at hm ⊢; omega
@[simp] theorem lay27_eq_iff {x0 x3 x4 x5 : BitVec 1} {x1 : BitVec 7} {x2 : BitVec 4} (hm : m = bitsIn m [(3, 1), (15, 7), (22, 5), (27,
    4)]) :
    lay27 m x0 x1 x2 x3 x4 x5 = x ↔
      ReadsAs x 0 [.field x5, .field x4, .field x3, .fixed 1 (m / 2 ^ 3), .field x2, .field x1, .fixed 7 (m / 2 ^ 15), .fixed 5 (m / 2 ^
        22), .fixed 4 (m / 2 ^ 27), .field x0] := by
  rw [← wordOf_eq_iff]; simp only [bitsIn, lay27, wordOf] at hm ⊢; omega
@[simp] theorem lay28_eq_iff {x0 : BitVec 1} {x1 : BitVec 2} {x2 x3 x4 : BitVec 7} (hm : m = bitsIn m [(23, 4), (27, 4)]) :
    lay28 m x0 x1 x2 x3 x4 = x ↔
      ReadsAs x 0 [.field x4, .field x3, .field x2, .field x1, .fixed 4 (m / 2 ^ 23), .fixed 4 (m / 2 ^ 27), .field x0] := by
  rw [← wordOf_eq_iff]; simp only [bitsIn, lay28, wordOf] at hm ⊢; omega
@[simp] theorem lay29_eq_iff {x0 : BitVec 1} {x1 : BitVec 3} {x2 : BitVec 10} (hm : m = bitsIn m [(0, 8), (21, 6), (27, 4)]) :
    lay29 m x0 x1 x2 = x ↔ ReadsAs x 0 [.fixed 8 m, .field x2, .field x1, .fixed 6 (m / 2 ^ 21), .fixed 4 (m / 2 ^ 27), .field x0] := by
  rw [← wordOf_eq_iff]; simp only [bitsIn, lay29, wordOf] at hm ⊢; omega
@[simp] theorem lay30_eq_iff {x0 : BitVec 1} {x1 : BitVec 3} (hm : m = bitsIn m [(0, 18), (21, 6), (27, 4)]) :
    lay30 m x0 x1 = x ↔ ReadsAs x 0 [.fixed 18 m, .field x1, .fixed 6 (m / 2 ^ 21), .fixed 4 (m / 2 ^ 27), .field x0] := by
  rw [← wordOf_eq_iff]; simp only [bitsIn, lay30, wordOf] at hm ⊢; omega
@[simp] theorem lay31_eq_iff {x0 x4 : BitVec 1} {x1 : BitVec 10} {x2 : BitVec 7} {x3 : BitVec 2} (hm : m = bitsIn m [(3, 1), (21, 6), (27,
    4)]) :
    lay31 m x0 x1 x2 x3 x4 = x ↔
      ReadsAs x 0 [.field x4, .field x3, .fixed 1 (m / 2 ^ 3), .field x2, .field x1, .fixed 6 (m / 2 ^ 21), .fixed 4 (m / 2 ^ 27), .field
        x0] := by
  rw [← wordOf_eq_iff]; simp only [bitsIn, lay31, wordOf] at hm ⊢; omega
@[simp] theorem lay32_eq_iff {x0 : BitVec 1} {x1 : BitVec 5} {x2 : BitVec 10} (hm : m = bitsIn m [(0, 6), (21, 6), (27, 4)]) :
    lay32 m x0 x1 x2 = x ↔ ReadsAs x 0 [.fixed 6 m, .field x2, .field x1, .fixed 6 (m / 2 ^ 21), .fixed 4 (m / 2 ^ 27), .field x0] := by
  rw [← wordOf_eq_iff]; simp only [bitsIn, lay32, wordOf] at hm ⊢; omega
@[simp] theorem lay33_eq_iff {x0 : BitVec 1} {x1 : BitVec 10} (hm : m = bitsIn m [(0, 11), (21, 6), (27, 4)]) :
    lay33 m x0 x1 = x ↔ ReadsAs x 0 [.fixed 11 m, .field x1, .fixed 6 (m / 2 ^ 21), .fixed 4 (m / 2 ^ 27), .field x0] := by
  rw [← wordOf_eq_iff]; simp only [bitsIn, lay33, wordOf] at hm ⊢; omega
@[simp] theorem lay34_eq_iff {x0 : BitVec 1} {x1 : BitVec 4} {x2 : BitVec 2} (hm : m = bitsIn m [(0, 15), (21, 6), (27, 4)]) :
    lay34 m x0 x1 x2 = x ↔ ReadsAs x 0 [.fixed 15 m, .field x2, .field x1, .fixed 6 (m / 2 ^ 21), .fixed 4 (m / 2 ^ 27), .field x0] := by
  rw [← wordOf_eq_iff]; simp only [bitsIn, lay34, wordOf] at hm ⊢; omega
@[simp] theorem lay35_eq_iff {x0 : BitVec 1} {x1 : BitVec 10} {x2 : BitVec 3} (hm : m = bitsIn m [(0, 1), (4, 7), (21, 6), (27, 4)]) :
    lay35 m x0 x1 x2 = x ↔
      ReadsAs x 0 [.fixed 1 m, .field x2, .fixed 7 (m / 2 ^ 4), .field x1, .fixed 6 (m / 2 ^ 21), .fixed 4 (m / 2 ^ 27), .field x0] := by
  rw [← wordOf_eq_iff]; simp only [bitsIn, lay35, wordOf] at hm ⊢; omega
@[simp] theorem lay36_eq_iff {x0 : BitVec 1} {x1 : BitVec 3} (hm : m = bitsIn m [(0, 1), (4, 17), (21, 6), (27, 4)]) :
    lay36 m x0 x1 = x ↔
      ReadsAs x 0 [.fixed 1 m, .field x1, .fixed 17 (m / 2 ^ 4), .fixed 6 (m / 2 ^ 21), .fixed 4 (m / 2 ^ 27), .field x0] := by
  rw [← wordOf_eq_iff]; simp only [bitsIn, lay36, wordOf] at hm ⊢; omega
@[simp] theorem lay37_eq_iff {x0 : BitVec 3} {x1 : BitVec 2} {x2 : BitVec 5} (hm : m = bitsIn m [(0, 11), (21, 6), (27, 4), (31, 1)]) :
    lay37 m x0 x1 x2 = x ↔
      ReadsAs x 0 [.fixed 11 m, .field x2, .field x1, .field x0, .fixed 6 (m / 2 ^ 21), .fixed 4 (m / 2 ^ 27), .fixed 1 (m / 2 ^ 31)] := by
  rw [← wordOf_eq_iff]; simp only [bitsIn, lay37, wordOf] at hm ⊢; omega
@[simp] theorem lay38_eq_iff {x0 x1 : BitVec 3} {x2 : BitVec 5} {x3 : BitVec 1} (hm : m = bitsIn m [(0, 9), (21, 6), (27, 4), (31, 1)]) :
    lay38 m x0 x1 x2 x3 = x ↔
      ReadsAs x 0 [.fixed 9 m, .field x3, .field x2, .field x1, .field x0, .fixed 6 (m / 2 ^ 21), .fixed 4 (m / 2 ^ 27), .fixed 1 (m / 2 ^
        31)] := by
  rw [← wordOf_eq_iff]; simp only [bitsIn, lay38, wordOf] at hm ⊢; omega
@[simp] theorem lay39_eq_iff {x0 : BitVec 3} (hm : m = bitsIn m [(0, 18), (21, 6), (27, 4), (31, 1)]) :
    lay39 m x0 = x ↔ ReadsAs x 0 [.fixed 18 m, .field x0, .fixed 6 (m / 2 ^ 21), .fixed 4 (m / 2 ^ 27), .fixed 1 (m / 2 ^ 31)] := by
  rw [← wordOf_eq_iff]; simp only [bitsIn, lay39, wordOf] at hm ⊢; omega
@[simp] theorem lay40_eq_iff {x0 : BitVec 3} {x1 : BitVec 1} (hm : m = bitsIn m [(0, 17), (21, 6), (27, 4), (31, 1)]) :
    lay40 m x0 x1 = x ↔
      ReadsAs x 0 [.fixed 17 m, .field x1, .field x0, .fixed 6 (m / 2 ^ 21), .fixed 4 (m / 2 ^ 27), .fixed 1 (m / 2 ^ 31)] := by
  rw [← wordOf_eq_iff]; simp only [bitsIn, lay40, wordOf] at hm ⊢; omega
@[simp] theorem lay41_eq_iff {x0 x1 : BitVec 3} {x2 : BitVec 5} (hm : m = bitsIn m [(0, 10), (21, 6), (27, 4), (31, 1)]) :
    lay41 m x0 x1 x2 = x ↔
      ReadsAs x 0 [.fixed 10 m, .field x2, .field x1, .field x0, .fixed 6 (m / 2 ^ 21), .fixed 4 (m / 2 ^ 27), .fixed 1 (m / 2 ^ 31)] := by
  rw [← wordOf_eq_iff]; simp only [bitsIn, lay41, wordOf] at hm ⊢; omega
@[simp] theorem lay42_eq_iff {x0 : BitVec 3} {x1 x2 : BitVec 2} {x3 : BitVec 5} {x4 : BitVec 4} (hm : m = bitsIn m [(0, 5), (21, 6), (27,
    4), (31, 1)]) :
    lay42 m x0 x1 x2 x3 x4 = x ↔
      ReadsAs x 0 [.fixed 5 m, .field x4, .field x3, .field x2, .field x1, .field x0, .fixed 6 (m / 2 ^ 21), .fixed 4 (m / 2 ^ 27), .fixed 1
        (m / 2 ^ 31)] := by
  rw [← wordOf_eq_iff]; simp only [bitsIn, lay42, wordOf] at hm ⊢; omega
@[simp] theorem lay43_eq_iff {x0 : BitVec 3} {x1 x2 : BitVec 2} {x3 : BitVec 5} (hm : m = bitsIn m [(0, 9), (21, 6), (27, 4), (31, 1)]) :
    lay43 m x0 x1 x2 x3 = x ↔
      ReadsAs x 0 [.fixed 9 m, .field x3, .field x2, .field x1, .field x0, .fixed 6 (m / 2 ^ 21), .fixed 4 (m / 2 ^ 27), .fixed 1 (m / 2 ^
        31)] := by
  rw [← wordOf_eq_iff]; simp only [bitsIn, lay43, wordOf] at hm ⊢; omega
@[simp] theorem lay44_eq_iff {x0 : BitVec 5} (hm : m = bitsIn m [(0, 16), (21, 6), (27, 4), (31, 1)]) :
    lay44 m x0 = x ↔ ReadsAs x 0 [.fixed 16 m, .field x0, .fixed 6 (m / 2 ^ 21), .fixed 4 (m / 2 ^ 27), .fixed 1 (m / 2 ^ 31)] := by
  rw [← wordOf_eq_iff]; simp only [bitsIn, lay44, wordOf] at hm ⊢; omega
@[simp] theorem lay45_eq_iff {x0 : BitVec 5} {x1 : BitVec 16} (hm : m = bitsIn m [(21, 6), (27, 4), (31, 1)]) :
    lay45 m x0 x1 = x ↔ ReadsAs x 0 [.field x1, .field x0, .fixed 6 (m / 2 ^ 21), .fixed 4 (m / 2 ^ 27), .fixed 1 (m / 2 ^ 31)] := by
  rw [← wordOf_eq_iff]; simp only [bitsIn, lay45, wordOf] at hm ⊢; omega
@[simp] theorem lay46_eq_iff {x0 : BitVec 6} (hm : m = bitsIn m [(0, 15), (21, 6), (27, 4), (31, 1)]) :
    lay46 m x0 = x ↔ ReadsAs x 0 [.fixed 15 m, .field x0, .fixed 6 (m / 2 ^ 21), .fixed 4 (m / 2 ^ 27), .fixed 1 (m / 2 ^ 31)] := by
  rw [← wordOf_eq_iff]; simp only [bitsIn, lay46, wordOf] at hm ⊢; omega
@[simp] theorem lay48_eq_iff {x0 : BitVec 1} {x1 : BitVec 16} (hm : m = bitsIn m [(16, 5), (21, 6), (27, 4)]) :
    lay48 m x0 x1 = x ↔ ReadsAs x 0 [.field x1, .fixed 5 (m / 2 ^ 16), .fixed 6 (m / 2 ^ 21), .fixed 4 (m / 2 ^ 27), .field x0] := by
  rw [← wordOf_eq_iff]; simp only [bitsIn, lay48, wordOf] at hm ⊢; omega
@[simp] theorem lay49_eq_iff {x0 : BitVec 1} {x1 : BitVec 24} (hm : m = bitsIn m [(24, 3), (27, 4)]) :
    lay49 m x0 x1 = x ↔ ReadsAs x 0 [.field x1, .fixed 3 (m / 2 ^ 24), .fixed 4 (m / 2 ^ 27), .field x0] := by
  rw [← wordOf_eq_iff]; simp only [bitsIn, lay49, wordOf] at hm ⊢; omega
@[simp] theorem lay50_eq_iff {x0 : BitVec 1} {x1 : BitVec 8} (hm : m = bitsIn m [(8, 16), (24, 3), (27, 4)]) :
    lay50 m x0 x1 = x ↔ ReadsAs x 0 [.field x1, .fixed 16 (m / 2 ^ 8), .fixed 3 (m / 2 ^ 24), .fixed 4 (m / 2 ^ 27), .field x0] := by
  rw [← wordOf_eq_iff]; simp only [bitsIn, lay50, wordOf] at hm ⊢; omega
@[simp] theorem lay51_eq_iff {x0 x1 x2 x6 : BitVec 1} {x3 : BitVec 7} {x4 : BitVec 3} {x5 x7 : BitVec 2} {x8 : BitVec 4} (hm : m = bitsIn m
    [(21, 3), (24, 3), (27, 4)]) :
    lay51 m x0 x1 x2 x3 x4 x5 x6 x7 x8 = x ↔
      ReadsAs x 0 [.field x8, .field x7, .field x6, .field x5, .field x4, .field x3, .field x2, .field x1, .fixed 3 (m / 2 ^ 21), .fixed 3
        (m / 2 ^ 24), .fixed 4 (m / 2 ^ 27), .field x0] := by
  rw [← wordOf_eq_iff]; simp only [bitsIn, lay51, wordOf] at hm ⊢; omega
@[simp] theorem lay52_eq_iff {x0 x1 x2 : BitVec 1} {x3 : BitVec 10} {x4 : BitVec 7} (hm : m = bitsIn m [(19, 5), (24, 3), (27, 4)]) :
    lay52 m x0 x1 x2 x3 x4 = x ↔
      ReadsAs x 0 [.field x4, .field x3, .field x2, .field x1, .fixed 5 (m / 2 ^ 19), .fixed 3 (m / 2 ^ 24), .fixed 4 (m / 2 ^ 27), .field
        x0] := by
  rw [← wordOf_eq_iff]; simp only [bitsIn, lay52, wordOf] at hm ⊢; omega

/-- `mend` has no operand (R70). -/
@[simp] theorem mend_eq_iff : 0x69A00000 = x ↔ ReadsAs x 0 [.fixed 21 0, .fixed 6 13, .fixed 4 13, .fixed 1 0] := by
  rw [← wordOf_eq_iff]; rfl

end

/-! ## From a word to its instruction and back

Every branch of a class that gives an instruction gives one whose layout reads the word back: the class, the opcode and the reserved bits are
what the branch has tested, and the operands are the word's own fields. -/

section
variable {α : Type} {p : α → Prop}

/-- What holds of every instruction of a branch that gives one. -/
theorem forall_mem_some {a : α} : (∀ i ∈ some a, p i) ↔ p a := by simp

/-- What holds of every instruction of a branch that gives none. -/
theorem forall_mem_none : (∀ i ∈ (none : Option α), p i) ↔ True := by simp

/-- What holds of every instruction of a branch that tests reserved bits. -/
theorem forall_mem_ite {c : Prop} [Decidable c] {o u : Option α} :
    (∀ i ∈ (if c then o else u), p i) ↔ (c → ∀ i ∈ o, p i) ∧ (¬c → ∀ i ∈ u, p i) := by
  split <;> simp [*]

end

section
variable {x : Nat} (hx : x < 4294967296)
include hx

theorem encode_of_decodeVr (hc : bitsAt x 27 4 = 0) : ∀ i ∈ decodeVr x, encode i = x := by
  unfold decodeVr
  split <;> simp only [forall_mem_some, forall_mem_none, forall_mem_ite] <;> unfold encode <;> simp [*]

theorem encode_of_decodeVs (hc : bitsAt x 27 4 = 1) : ∀ i ∈ decodeVs x, encode i = x := by
  unfold decodeVs
  split <;> simp only [forall_mem_some, forall_mem_none, forall_mem_ite] <;> unfold encode <;> simp [*]

theorem encode_of_decodeVi (hc : bitsAt x 27 4 = 2) : ∀ i ∈ decodeVi x, encode i = x := by
  unfold decodeVi
  split <;> simp only [forall_mem_some, forall_mem_none, forall_mem_ite] <;> unfold encode <;> simp [*]

theorem encode_of_decodeVc (hc : bitsAt x 27 4 = 3) : ∀ i ∈ decodeVc x, encode i = x := by
  unfold decodeVc
  split
  case h_4 =>
    have h3 : bitsAt x 17 2 = 3 := by
      have hlt : bitsAt x 17 2 < 2 ^ 2 := Nat.mod_lt _ (Nat.two_pow_pos 2)
      simp only [imp_false] at *
      omega
    rw [forall_mem_some]
    unfold encode
    simp [*]
  all_goals
    rw [forall_mem_some]
    unfold encode
    simp [*]

theorem encode_of_decodeSr (hc : bitsAt x 27 4 = 4) : ∀ i ∈ decodeSr x, encode i = x := by
  unfold decodeSr
  split <;> simp only [forall_mem_some, forall_mem_none, forall_mem_ite] <;> unfold encode <;> simp [*]

theorem encode_of_decodeSi (hc : bitsAt x 27 4 = 5) : ∀ i ∈ decodeSi x, encode i = x := by
  unfold decodeSi
  split <;> simp only [forall_mem_some, forall_mem_none, forall_mem_ite] <;> unfold encode <;> simp [*]

theorem encode_of_decodeBr (hc : bitsAt x 27 4 = 6) : ∀ i ∈ decodeBr x, encode i = x := by
  unfold decodeBr
  split <;> simp only [forall_mem_some, forall_mem_none, forall_mem_ite] <;> unfold encode <;> simp [*, lay13_eq_iff_24, -lay13_eq_iff]

theorem encode_of_decodeCv (hc : bitsAt x 27 4 = 7) : ∀ i ∈ decodeCv x, encode i = x := by
  unfold decodeCv
  split <;> simp only [forall_mem_some, forall_mem_none, forall_mem_ite] <;> unfold encode <;> simp [*]

theorem encode_of_decodeXl (hc : bitsAt x 27 4 = 8) : ∀ i ∈ decodeXl x, encode i = x := by
  unfold decodeXl
  split <;> simp only [forall_mem_some, forall_mem_none, forall_mem_ite] <;> unfold encode <;> simp [*]

theorem encode_of_decodeMem (hc : bitsAt x 27 4 = 9) : ∀ i ∈ decodeMem x, encode i = x := by
  unfold decodeMem
  split <;> simp only [forall_mem_some, forall_mem_none, forall_mem_ite] <;> unfold encode <;> simp [*]

theorem encode_of_decodeAtm (hc : bitsAt x 27 4 = 10) : ∀ i ∈ decodeAtm x, encode i = x := by
  unfold decodeAtm
  split <;> simp only [forall_mem_some, forall_mem_none] <;> unfold encode <;> simp [*]

theorem encode_of_decodeSy (hc : bitsAt x 27 4 = 11) : ∀ i ∈ decodeSy x, encode i = x := by
  unfold decodeSy
  split <;> simp only [forall_mem_some, forall_mem_none, forall_mem_ite] <;> unfold encode <;> simp [*]

theorem encode_of_decodeEn (hc : bitsAt x 27 4 = 12) : ∀ i ∈ decodeEn x, encode i = x := by
  unfold decodeEn
  split <;> simp only [forall_mem_some, forall_mem_none, forall_mem_ite] <;> unfold encode <;> simp [*]

theorem encode_of_decodeMx (hc : bitsAt x 27 4 = 13) : ∀ i ∈ decodeMx x, encode i = x := by
  unfold decodeMx
  split <;> simp only [forall_mem_some, forall_mem_none, forall_mem_ite] <;> unfold encode <;> simp [*]

theorem encode_of_decodeSys (hc : bitsAt x 27 4 = 14) : ∀ i ∈ decodeSys x, encode i = x := by
  unfold decodeSys
  split <;> simp only [forall_mem_some, forall_mem_none, forall_mem_ite] <;> unfold encode <;> simp [*]

theorem encode_of_decodeHint (hc : bitsAt x 27 4 = 15) : ∀ i ∈ decodeHint x, encode i = x := by
  unfold decodeHint
  split <;> simp only [forall_mem_some, forall_mem_none, forall_mem_ite] <;> unfold encode <;> simp [*, lay13_eq_iff_24, -lay13_eq_iff]

/-- Every instruction that the layout of a word gives has that word (R55 to R73). -/
theorem encode_of_decodeRaw : ∀ i ∈ decodeRaw x, encode i = x := by
  unfold decodeRaw
  split
  case h_1 hc => exact encode_of_decodeVr hx hc
  case h_2 hc => exact encode_of_decodeVs hx hc
  case h_3 hc => exact encode_of_decodeVi hx hc
  case h_4 hc => exact encode_of_decodeVc hx hc
  case h_5 hc => exact encode_of_decodeSr hx hc
  case h_6 hc => exact encode_of_decodeSi hx hc
  case h_7 hc => exact encode_of_decodeBr hx hc
  case h_8 hc => exact encode_of_decodeCv hx hc
  case h_9 hc => exact encode_of_decodeXl hx hc
  case h_10 hc => exact encode_of_decodeMem hx hc
  case h_11 hc => exact encode_of_decodeAtm hx hc
  case h_12 hc => exact encode_of_decodeSy hx hc
  case h_13 hc => exact encode_of_decodeEn hx hc
  case h_14 hc => exact encode_of_decodeMx hx hc
  case h_15 hc => exact encode_of_decodeSys hx hc
  case h_16 =>
    have hc : bitsAt x 27 4 = 15 := by
      have hlt : bitsAt x 27 4 < 2 ^ 4 := Nat.mod_lt _ (Nat.two_pow_pos 4)
      simp only [imp_false] at *
      omega
    exact encode_of_decodeHint hx hc

end

/-- Settles O52: what decodes is well formed, and its layout reads the word back. -/
theorem encodeOfDecode : Obligations.EncodeOfDecode := by
  unfold Obligations.EncodeOfDecode
  intro x i hx h
  obtain ⟨hraw, hwf⟩ := decode_some h
  exact ⟨hwf, encode_of_decodeRaw hx i hraw⟩

/-! ## From an instruction to its word and back

The word of an instruction reads as its layout: the constants of the layout are the class, the opcode and the reserved bits that the decoder
tests, and the operands are the fields that it takes. -/

/-- Bits that are not all zero are in no run of zero bits. -/
theorem bitsAt_ne_zero {x L M lo n h : Nat} (hx : bitsAt x L M = h) (h1 : L ≤ lo) (h2 : lo + n ≤ L + M) (hn : h / 2 ^ (lo - L) % 2 ^ n ≠ 0) :
    bitsAt x lo n ≠ 0 := by
  rw [bitsAt_of L M lo n hx h1 h2]
  exact hn

/-- Bits are not all zero where a run of them is not. -/
theorem bitsAt_ne_zero_of_part {x L M lo n h : Nat} (hx : bitsAt x lo n = h) (h1 : L ≤ lo) (h2 : lo + n ≤ L + M) (hn : h ≠ 0) :
    bitsAt x L M ≠ 0 := fun h0 =>
  hn (hx.symm.trans ((bitsAt_of L M lo n h0 h1 h2).trans (by rw [Nat.zero_div, Nat.zero_mod])))

/-- The layout of the word of a well-formed instruction gives the instruction (R55 to R73). -/
theorem decodeRaw_encode {i : Instr} (h : i.wf = true) : decodeRaw (encode i) = some i := by
  generalize hx : encode i = x
  cases i
  case addVr | subVr | mulVr | mulhiVr | mulhuVr | madVr | andVr | orVr | xorVr | andnVr | shlVr | shrVr | sraVr | srarVr | minVr | maxVr |
    minuVr | maxuVr | addsVr | subsVr | bfxVr | bfiVr | selVr | add64Vr | sub64Vr | shl64Vr | shr64Vr | faddVr | fsubVr | fmulVr | ffmaVr |
    fminVr | fmaxVr | hadd2Vr | hsub2Vr | hmul2Vr | hfma2Vr | hdot2Vr | hmax2Vr | hmin2Vr | padd2sVr | psub2sVr | pmul2Vr | pmac2Vr |
    pmax2Vr | pmin2Vr | psrar2Vr | pack2sVr =>
    obtain ⟨rfl, rfl, rfl, ho, hc, rfl, -⟩ := (lay0_eq_iff rfl).1 hx
    rw [raw0 x hc]; unfold decodeVr; rw [ho]; rfl
  case popc | clz | fabs | fneg | unpklo | unpkhi =>
    obtain ⟨hr, rfl, rfl, ho, hc, rfl, -⟩ := (lay1_eq_iff rfl).1 hx
    rw [raw0 x hc]; unfold decodeVr; rw [ho]; exact if_pos hr
  case movVr =>
    obtain ⟨rfl, hr, rfl, ho, hc, rfl, -⟩ := (lay2_eq_iff rfl).1 hx
    rw [raw0 x hc]; unfold decodeVr; rw [ho]; exact if_pos hr
  case addVs | subVs | mulVs | mulhiVs | mulhuVs | madVs | andVs | orVs | xorVs | andnVs | shlVs | shrVs | sraVs | srarVs | minVs | maxVs |
    minuVs | maxuVs | addsVs | subsVs | bfxVs | bfiVs | selVs | add64Vs | sub64Vs | shl64Vs | shr64Vs | faddVs | fsubVs | fmulVs | ffmaVs |
    fminVs | fmaxVs | hadd2Vs | hsub2Vs | hmul2Vs | hfma2Vs | hdot2Vs | hmax2Vs | hmin2Vs | padd2sVs | psub2sVs | pmul2Vs | pmac2Vs |
    pmax2Vs | pmin2Vs | psrar2Vs | pack2sVs =>
    obtain ⟨rfl, rfl, rfl, ho, hc, rfl, -⟩ := (lay0_eq_iff rfl).1 hx
    rw [raw1 x hc]; unfold decodeVs; rw [ho]; rfl
  case movVs =>
    obtain ⟨rfl, hr, rfl, ho, hc, rfl, -⟩ := (lay2_eq_iff rfl).1 hx
    rw [raw1 x hc]; unfold decodeVs; rw [ho]; exact if_pos hr
  case addVi | subVi | mulVi | mulhiVi | mulhuVi | madVi | andVi | orVi | xorVi | andnVi | shlVi | shrVi | sraVi | srarVi | minVi | maxVi |
    minuVi | maxuVi | addsVi | subsVi | bfxVi | bfiVi | selVi | shl64Vi | shr64Vi =>
    obtain ⟨rfl, rfl, rfl, ho, hc, rfl, -⟩ := (lay0_eq_iff rfl).1 hx
    rw [raw2 x hc]; unfold decodeVi; rw [ho]; rfl
  case movVi =>
    obtain ⟨rfl, hr, rfl, ho, hc, rfl, -⟩ := (lay2_eq_iff rfl).1 hx
    rw [raw2 x hc]; unfold decodeVi; rw [ho]; exact if_pos hr
  case cmpVv | cmpVs | cmpVi | scmp =>
    obtain ⟨rfl, rfl, rfl, ho, rfl, rfl, hc, rfl, -⟩ := (lay3_eq_iff rfl).1 hx
    rw [raw3 x hc]; unfold decodeVc; rw [ho]; rfl
  case sadd | ssub | smul | sand | sor | sxor | sshl | sshr | ssra | smin | smax | sminu | smaxu | smov | sadd64 | ssub64 | sget =>
    obtain ⟨hr, rfl, rfl, ho, hc, rfl, -⟩ := (lay4_eq_iff rfl).1 hx
    rw [raw4 x hc]; unfold decodeSr; rw [ho]; exact if_pos hr
  case sfromv =>
    obtain ⟨h0, rfl, h8, rfl, ho, hc, rfl, -⟩ := (lay5_eq_iff rfl).1 hx
    rw [raw4 x hc]; unfold decodeSr; rw [ho]; exact if_pos ⟨h0, h8⟩
  case stov =>
    obtain ⟨h0, rfl, rfl, h18, ho, hc, rfl, -⟩ := (lay6_eq_iff rfl).1 hx
    rw [raw4 x hc]; unfold decodeSr; rw [ho]; exact if_pos ⟨h0, h18⟩
  case sli | saddi | sandi | sori | sxori | smuli =>
    obtain ⟨rfl, rfl, ho, hc, rfl, -⟩ := (lay7_eq_iff rfl).1 hx
    rw [raw5 x hc]; unfold decodeSi; rw [ho]; rfl
  case sshli | sshri | ssrai =>
    obtain ⟨rfl, hr, rfl, ho, hc, rfl, -⟩ := (lay8_eq_iff rfl).1 hx
    rw [raw5 x hc]; unfold decodeSi; rw [ho]; exact if_pos hr
  case sld | sst =>
    obtain ⟨rfl, rfl, rfl, ho, hc, rfl, -⟩ := (lay9_eq_iff rfl).1 hx
    rw [raw5 x hc]; unfold decodeSi; rw [ho]; rfl
  case bbind =>
    obtain ⟨hr, rfl, rfl, ho, hc, rfl, -⟩ := (lay10_eq_iff rfl).1 hx
    rw [raw5 x hc]; unfold decodeSi; rw [ho]; exact if_pos hr
  case br | call =>
    obtain ⟨rfl, hr, ho, hc, rfl, -⟩ := (lay11_eq_iff rfl).1 hx
    rw [raw6 x hc]; unfold decodeBr; rw [ho]; exact if_pos hr
  case bp | bnp | bq | bnq =>
    obtain ⟨rfl, rfl, ho, hc, rfl, -⟩ := (lay12_eq_iff rfl).1 hx
    rw [raw6 x hc]; unfold decodeBr; rw [ho]; rfl
  case ret =>
    obtain ⟨hr, ho, hc, rfl, -⟩ := (lay13_eq_iff_24 rfl).1 hx
    rw [raw6 x hc]; unfold decodeBr; rw [ho]; exact if_pos hr
  case cvtfi | cvtfu | cvtfhl | cvtfhh =>
    obtain ⟨rfl, rfl, hr, rfl, rfl, ho, hc, rfl, -⟩ := (lay14_eq_iff rfl).1 hx
    rw [raw7 x hc]; unfold decodeCv; rw [ho]; exact if_pos hr
  case cvtif | cvtuf | frnd =>
    obtain ⟨rfl, hr, rfl, rfl, ho, hc, rfl, -⟩ := (lay15_eq_iff rfl).1 hx
    rw [raw7 x hc]; unfold decodeCv; rw [ho]; exact if_pos hr
  case cvtbf =>
    obtain ⟨rfl, rfl, rfl, ho, hc, rfl, -⟩ := (lay0_eq_iff rfl).1 hx
    rw [raw7 x hc]; unfold decodeCv; rw [ho]; rfl
  case cvtfbl | cvtfbh | rcp | rsqrt | sqrt | exp2 | log2 | sinpi | cospi | tanh =>
    obtain ⟨hr, rfl, rfl, ho, hc, rfl, -⟩ := (lay1_eq_iff rfl).1 hx
    rw [raw7 x hc]; unfold decodeCv; rw [ho]; exact if_pos hr
  case cvthf =>
    obtain ⟨h0, rfl, h4, rfl, rfl, ho, hc, rfl, -⟩ := (lay16_eq_iff rfl).1 hx
    rw [raw7 x hc]; unfold decodeCv; rw [ho]; exact if_pos ⟨h0, h4⟩
  case shfl =>
    obtain ⟨rfl, rfl, rfl, ho, hc, rfl, -⟩ := (lay0_eq_iff rfl).1 hx
    rw [raw8 x hc]; unfold decodeXl; rw [ho]; rfl
  case shfli | bcst =>
    obtain ⟨rfl, hr, rfl, rfl, ho, hc, rfl, -⟩ := (lay17_eq_iff rfl).1 hx
    rw [raw8 x hc]; unfold decodeXl; rw [ho]; exact if_pos hr
  case slup | sldn =>
    obtain ⟨rfl, rfl, rfl, rfl, ho, hc, rfl, -⟩ := (lay18_eq_iff rfl).1 hx
    rw [raw8 x hc]; unfold decodeXl; rw [ho]; rfl
  case ballot | ptov =>
    obtain ⟨h0, rfl, h10, rfl, ho, hc, rfl, -⟩ := (lay19_eq_iff rfl).1 hx
    rw [raw8 x hc]; unfold decodeXl; rw [ho]; exact if_pos ⟨h0, h10⟩
  case vany | vall | pnot =>
    obtain ⟨h0, rfl, h10, rfl, h17, ho, hc, rfl, -⟩ := (lay20_eq_iff rfl).1 hx
    rw [raw8 x hc]; unfold decodeXl; rw [ho]; exact if_pos ⟨h0, h10, h17⟩
  case radd | rfadd | rmax | rmin | scan | scanx | matchv =>
    obtain ⟨hr, rfl, rfl, ho, hc, rfl, -⟩ := (lay1_eq_iff rfl).1 hx
    rw [raw8 x hc]; unfold decodeXl; rw [ho]; exact if_pos hr
  case pand | por | pxor =>
    obtain ⟨rfl, h3, rfl, h10, rfl, h17, ho, hc, rfl, -⟩ := (lay21_eq_iff rfl).1 hx
    rw [raw8 x hc]; unfold decodeXl; rw [ho]; exact if_pos ⟨h3, h10, h17⟩
  case vtop =>
    obtain ⟨h0, rfl, rfl, h17, ho, hc, rfl, -⟩ := (lay22_eq_iff rfl).1 hx
    rw [raw8 x hc]; unfold decodeXl; rw [ho]; exact if_pos ⟨h0, h17⟩
  case pebpk | pebup =>
    obtain ⟨rfl, hr, rfl, rfl, ho, hc, rfl, -⟩ := (lay15_eq_iff rfl).1 hx
    rw [raw8 x hc]; unfold decodeXl; rw [ho]; exact if_pos hr
  case mvlk =>
    obtain ⟨hr, rfl, ho, hc, rfl, -⟩ := (lay23_eq_iff rfl).1 hx
    rw [raw8 x hc]; unfold decodeXl; rw [ho]; exact if_pos hr
  case ldlk =>
    obtain ⟨h0, rfl, h14, ho, hc, rfl, -⟩ := (lay24_eq_iff rfl).1 hx
    rw [raw8 x hc]; unfold decodeXl; rw [ho]; exact if_pos ⟨h0, h14⟩
  case ldb | ldbs | ldh | ldhs | ldw | ldd | ldq =>
    obtain ⟨rfl, rfl, rfl, rfl, rfl, rfl, rfl, ho, hc, rfl, -⟩ := (lay25_eq_iff rfl).1 hx
    rw [raw9 x hc]; unfold decodeMem; rw [ho]; rfl
  case stb | sth | stw | std | stq =>
    obtain ⟨rfl, rfl, hr, rfl, rfl, rfl, ho, hc, rfl, -⟩ := (lay26_eq_iff rfl).1 hx
    rw [raw9 x hc]; unfold decodeMem; rw [ho]; exact if_pos hr
  case pref =>
    obtain ⟨rfl, rfl, rfl, h3, rfl, rfl, h15, ho, hc, rfl, -⟩ := (lay27_eq_iff rfl).1 hx
    rw [raw9 x hc]; unfold decodeMem; rw [ho]; exact if_pos ⟨h3, h15⟩
  case aadd | amin | amax | aminu | amaxu | aand | aor | axor | axchg | acas | afadd | amaxpk | ahadd2 =>
    obtain ⟨rfl, rfl, rfl, rfl, ho, hc, rfl, -⟩ := (lay28_eq_iff rfl).1 hx
    rw [raw10 x hc]; unfold decodeAtm; rw [ho]; rfl
  case jset | jadd | jclr =>
    obtain ⟨hr, rfl, rfl, ho, hc, rfl, -⟩ := (lay29_eq_iff rfl).1 hx
    rw [raw11 x hc]; unfold decodeSy; rw [ho]; exact if_pos hr
  case jsetAct | jaddAct | jclrAct =>
    obtain ⟨hr, rfl, ho, hc, rfl, -⟩ := (lay30_eq_iff rfl).1 hx
    rw [raw11 x hc]; unfold decodeSy; rw [ho]
    exact (if_neg (bitsAt_ne_zero hr (by decide) (by decide) (by decide))).trans (if_pos hr)
  case join | rbacq =>
    obtain ⟨hr, rfl, ho, hc, rfl, -⟩ := (lay30_eq_iff rfl).1 hx
    rw [raw11 x hc]; unfold decodeSy; rw [ho]; exact if_pos hr
  case wait =>
    obtain ⟨rfl, rfl, hr, rfl, rfl, ho, hc, rfl, -⟩ := (lay31_eq_iff rfl).1 hx
    rw [raw11 x hc]; unfold decodeSy; rw [ho]; exact if_pos hr
  case bara | barw | barx =>
    obtain ⟨hr, rfl, rfl, ho, hc, rfl, -⟩ := (lay32_eq_iff rfl).1 hx
    rw [raw11 x hc]; unfold decodeSy; rw [ho]; exact if_pos hr
  case tgwa | tgwl | tgclr | cvjoin | cvget | jri =>
    obtain ⟨hr, rfl, ho, hc, rfl, -⟩ := (lay33_eq_iff rfl).1 hx
    rw [raw11 x hc]; unfold decodeSy; rw [ho]; exact if_pos hr
  case tgff =>
    obtain ⟨hr, rfl, rfl, ho, hc, rfl, -⟩ := (lay4_eq_iff rfl).1 hx
    rw [raw11 x hc]; unfold decodeSy; rw [ho]; exact if_pos hr
  case rbrel | cvleave | exit | yield =>
    obtain ⟨hr, ho, hc, rfl, -⟩ := (lay13_eq_iff rfl).1 hx
    rw [raw11 x hc]; unfold decodeSy; rw [ho]; exact if_pos hr
  case fence =>
    obtain ⟨hr, rfl, rfl, ho, hc, rfl, -⟩ := (lay34_eq_iff rfl).1 hx
    rw [raw11 x hc]; unfold decodeSy; rw [ho]; exact if_pos hr
  case cpy | cpyg | cpys | cpyf | qpub | qdone | droOpen | droSend | droClose | droCorr | asyOpen | asyPut | asySeal =>
    obtain ⟨hr, rfl, ho, hc, rfl, -⟩ := (lay33_eq_iff rfl).1 hx
    rw [raw12 x hc]; unfold decodeEn; rw [ho]; exact if_pos hr
  case orsv =>
    obtain ⟨h0, rfl, h4, rfl, ho, hc, rfl, -⟩ := (lay35_eq_iff rfl).1 hx
    rw [raw12 x hc]; unfold decodeEn; rw [ho]; exact if_pos ⟨h0, h4⟩
  case orel =>
    obtain ⟨h0, rfl, h4, ho, hc, rfl, -⟩ := (lay36_eq_iff rfl).1 hx
    rw [raw12 x hc]; unfold decodeEn; rw [ho]; exact if_pos ⟨h0, h4⟩
  case qclaim | qtake | qstat | droMfst | asyStat =>
    obtain ⟨hr, rfl, rfl, ho, hc, rfl, -⟩ := (lay4_eq_iff rfl).1 hx
    rw [raw12 x hc]; unfold decodeEn; rw [ho]; exact if_pos hr
  case droOpenStatus | droSendStatus | droCloseStatus | asyOpenStatus | asyPutStatus | asySealStatus =>
    obtain ⟨hr, rfl, rfl, ho, hc, rfl, -⟩ := (lay4_eq_iff rfl).1 hx
    rw [raw12 x hc]; unfold decodeEn; rw [ho]
    exact (if_neg (bitsAt_ne_zero_of_part hr (by decide) (by decide) (by decide))).trans (if_pos hr)
  case mld =>
    obtain ⟨h0, rfl, rfl, rfl, ho, hc, h31, -⟩ := (lay37_eq_iff rfl).1 hx
    rw [raw13 x hc]; unfold decodeMx; rw [ho]; exact if_pos ⟨h0, h31⟩
  case mmul | mmulsm =>
    obtain ⟨h0, rfl, rfl, rfl, rfl, ho, hc, h31, -⟩ := (lay38_eq_iff rfl).1 hx
    rw [raw13 x hc]; unfold decodeMx; rw [ho]; exact if_pos ⟨h0, h31⟩
  case mclr =>
    obtain ⟨h0, rfl, ho, hc, h31, -⟩ := (lay39_eq_iff rfl).1 hx
    rw [raw13 x hc]; unfold decodeMx; rw [ho]; exact if_pos ⟨h0, h31⟩
  case mbmap =>
    obtain ⟨h0, rfl, rfl, ho, hc, h31, -⟩ := (lay40_eq_iff rfl).1 hx
    rw [raw13 x hc]; unfold decodeMx; rw [ho]; exact if_pos ⟨h0, h31⟩
  case mgrp =>
    obtain ⟨h0, rfl, rfl, rfl, ho, hc, h31, -⟩ := (lay41_eq_iff rfl).1 hx
    rw [raw13 x hc]; unfold decodeMx; rw [ho]; exact if_pos ⟨h0, h31⟩
  case mret =>
    obtain ⟨h0, rfl, rfl, rfl, rfl, rfl, ho, hc, h31, -⟩ := (lay42_eq_iff rfl).1 hx
    rw [raw13 x hc]; unfold decodeMx; rw [ho]; exact if_pos ⟨h0, h31⟩
  case mretColl =>
    obtain ⟨h0, rfl, rfl, rfl, rfl, ho, hc, h31, -⟩ := (lay43_eq_iff rfl).1 hx
    rw [raw13 x hc]; unfold decodeMx; rw [ho]
    exact (if_neg fun h => bitsAt_ne_zero h0 (by decide) (by decide) (by decide) h.1).trans (if_pos ⟨h0, h31⟩)
  case marv | mwait =>
    obtain ⟨h0, rfl, ho, hc, h31, -⟩ := (lay44_eq_iff rfl).1 hx
    rw [raw13 x hc]; unfold decodeMx; rw [ho]; exact if_pos ⟨h0, h31⟩
  case mset | madd | mbnz =>
    obtain ⟨rfl, rfl, ho, hc, hr, -⟩ := (lay45_eq_iff rfl).1 hx
    rw [raw13 x hc]; unfold decodeMx; rw [ho]; exact if_pos hr
  case mtag =>
    obtain ⟨h0, rfl, ho, hc, h31, -⟩ := (lay46_eq_iff rfl).1 hx
    rw [raw13 x hc]; unfold decodeMx; rw [ho]; exact if_pos ⟨h0, h31⟩
  case trap | brk =>
    obtain ⟨rfl, hr, ho, hc, rfl, -⟩ := (lay48_eq_iff rfl).1 hx
    rw [raw14 x hc]; unfold decodeSys; rw [ho]; exact if_pos hr
  case tret | icinv | isync =>
    obtain ⟨hr, ho, hc, rfl, -⟩ := (lay13_eq_iff rfl).1 hx
    rw [raw14 x hc]; unfold decodeSys; rw [ho]; exact if_pos hr
  case trep =>
    obtain ⟨hr, rfl, rfl, ho, hc, rfl, -⟩ := (lay1_eq_iff rfl).1 hx
    rw [raw14 x hc]; unfold decodeSys; rw [ho]; exact if_pos hr
  case tmask | tcause | tlbinv | clock | cycles | ctxsw =>
    obtain ⟨hr, rfl, ho, hc, rfl, -⟩ := (lay33_eq_iff rfl).1 hx
    rw [raw14 x hc]; unfold decodeSys; rw [ho]; exact if_pos hr
  case segset | segget =>
    obtain ⟨hr, rfl, rfl, ho, hc, rfl, -⟩ := (lay29_eq_iff rfl).1 hx
    rw [raw14 x hc]; unfold decodeSys; rw [ho]; exact if_pos hr
  case pctr =>
    obtain ⟨hr, rfl, rfl, ho, hc, rfl, -⟩ := (lay4_eq_iff rfl).1 hx
    rw [raw14 x hc]; unfold decodeSys; rw [ho]; exact if_pos hr
  case imm =>
    obtain ⟨rfl, ho, hc, rfl, -⟩ := (lay49_eq_iff rfl).1 hx
    rw [raw15 x hc]; unfold decodeHint; rw [ho]; rfl
  case immhi =>
    obtain ⟨rfl, hr, ho, hc, rfl, -⟩ := (lay50_eq_iff rfl).1 hx
    rw [raw15 x hc]; unfold decodeHint; rw [ho]; exact if_pos hr
  case modh =>
    obtain ⟨rfl, rfl, rfl, rfl, rfl, rfl, rfl, rfl, hr, ho, hc, rfl, -⟩ := (lay51_eq_iff rfl).1 hx
    rw [raw15 x hc]; unfold decodeHint; rw [ho]; exact if_pos hr
  case safe =>
    obtain ⟨rfl, rfl, rfl, rfl, hr, ho, hc, rfl, -⟩ := (lay52_eq_iff rfl).1 hx
    rw [raw15 x hc]; unfold decodeHint; rw [ho]; exact if_pos hr
  case nop =>
    obtain ⟨hr, ho, hc, rfl, -⟩ := (lay13_eq_iff_24 rfl).1 hx
    rw [raw15 x hc]; unfold decodeHint; rw [ho]; exact if_pos hr
  case mend => rw [← hx]; rfl
  all_goals exact absurd h Bool.false_ne_true

/-- Settles O51: the word of an instruction reads as its layout, from which the decoder takes the instruction. -/
theorem decodeOfEncode : Obligations.DecodeOfEncode := by
  unfold Obligations.DecodeOfEncode
  intro i h
  exact decode_of (decodeRaw_encode h) h

/-- Settles O53: each word is decoded by evaluation. -/
theorem sampleWordsDecode : Obligations.SampleWordsDecode := by
  unfold Obligations.SampleWordsDecode
  exact ⟨rfl, rfl, rfl, rfl, rfl, rfl, rfl, rfl, rfl, rfl, rfl, rfl, rfl, rfl, rfl, rfl, rfl, rfl, rfl, rfl⟩

end Sys2Proof
end

section
/-! PROOFS. Numbers: FP32, BF16 pairs, packed INT16 and the conversions (R88, R90 to R95, R132 to R136, R138 to R147). -/

namespace Sys2Proof.Machine

/-! ## What the shared forms write (R60, R98, R136, R144) -/

section
variable {w : BitVec 1} {d a b : BitVec 7} {s t : State} {c : Ctx}

/-- A VR form that issues writes its function of the old destination and the two sources (R98). -/
theorem aluVR_writes (f : AluFn) (h : Issues (infoVR w d a b) s c t) :
    WritesV c t d.toNat (fun l => f (c.rv l d.toNat) (c.rv l a.toNat) (c.rv l b.toNat)) (aluVR f w d a b s) :=
  issue_putV_writes h

/-- A form of one source that issues writes its function of that source and sets no flag (R60). -/
theorem aluV1_writes (f : Word → Word) (h : Issues (infoV2 w d a) s c t) :
    WritesV c t d.toNat (fun l => (f (c.rv l a.toNat), 0)) (aluV1 f w d a s) :=
  issue_putV_writes h

/-- A VR form that issues with a mod hint's rounding writes its function in that direction (R136). -/
theorem fltVR_writes (f : FltFn) (h : Issues ((infoVR w d a b).allow modRND) s c t) :
    WritesV c t d.toNat (fun l => f c.hints.rnd (c.rv l d.toNat) (c.rv l a.toNat) (c.rv l b.toNat)) (fltVR f w d a b s) :=
  issue_putV_writes h

/-- A VS form that issues with a mod hint's rounding writes its function in that direction (R15, R136). -/
theorem fltVS_writes (f : FltFn) (h : Issues ((infoVS w d a b).allow modRND) s c t) :
    WritesV c t d.toNat (fun l => f c.hints.rnd (c.rv l d.toNat) (c.rv l a.toNat) (c.rs b.toNat)) (fltVS f w d a b s) :=
  issue_putV_writes h

/-- A conversion of fixed latency that issues writes its function of the source, with that function's flags (R24, R144). -/
theorem cvFn_writes (f : Word → Word × Word) (h : Issues (infoV2 w d a) s c t) :
    WritesV c t d.toNat (fun l => f (c.rv l a.toNat)) (cvFn f w d a s) :=
  issue_putV_writes h

end

/-! ## FP32 arithmetic (R88, R132 to R136) -/

/-- Settles O6: the sums and products take the direction of the mod hint, `fmin` and `fmax` round nothing, `fabs` and `fneg` set no
flag. -/
theorem fp32Results : Obligations.Fp32Results := by
  unfold Obligations.Fp32Results
  intro s t c w d a b
  exact ⟨fltVR_writes faddFn, fltVS_writes faddFn, fltVR_writes fsubFn, fltVS_writes fsubFn,
    fltVR_writes fmulFn, fltVS_writes fmulFn, fltVR_writes ffmaFn, fltVS_writes ffmaFn,
    aluVR_writes fminFn, aluVS_writes fminFn, aluVR_writes fmaxFn, aluVS_writes fmaxFn,
    aluV1_writes (· &&& 0x7FFFFFFF), aluV1_writes (· ^^^ 0x80000000)⟩

/-! ## Pairs in one word (R90 to R92, R95, R138 to R142) -/

/-- Settles O7: each BF16 and INT16 form is `aluVR` or `aluVS` of its function of two pairs, and an unpack is `aluV1` of one element. -/
theorem packedPairResults : Obligations.PackedPairResults := by
  unfold Obligations.PackedPairResults
  refine ⟨?bf16, ?int16⟩
  case bf16 =>
    intro s t c w d a b
    exact ⟨aluVR_writes hadd2Fn, aluVS_writes hadd2Fn, aluVR_writes hsub2Fn, aluVS_writes hsub2Fn,
      aluVR_writes hmul2Fn, aluVS_writes hmul2Fn, aluVR_writes hfma2Fn, aluVS_writes hfma2Fn,
      aluVR_writes hdot2Fn, aluVS_writes hdot2Fn, aluVR_writes hmax2Fn, aluVS_writes hmax2Fn,
      aluVR_writes hmin2Fn, aluVS_writes hmin2Fn⟩
  case int16 =>
    intro s t c w d a b
    exact ⟨aluVR_writes padd2sFn, aluVS_writes padd2sFn, aluVR_writes psub2sFn, aluVS_writes psub2sFn,
      aluVR_writes pmul2Fn, aluVS_writes pmul2Fn, aluVR_writes pmac2Fn, aluVS_writes pmac2Fn,
      aluVR_writes pmax2Fn, aluVS_writes pmax2Fn, aluVR_writes pmin2Fn, aluVS_writes pmin2Fn,
      aluVR_writes psrar2Fn, aluVS_writes psrar2Fn, aluVR_writes pack2sFn, aluVS_writes pack2sFn,
      aluV1_writes fun x => BitVec.ofInt 32 (elem x 0), aluV1_writes fun x => BitVec.ofInt 32 (elem x 1)⟩

/-! ## Conversions (R93, R94, R144 to R147) -/

/-- Settles O8: a conversion of one source is `cvFn` of its function; `cvtbf` reads two sources, and `cvtfhl` and `cvtfhh` the
destination whose other half they keep, so these three are writes of their own. -/
theorem conversionResults : Obligations.ConversionResults := by
  unfold Obligations.ConversionResults
  intro s t c w d a b u r
  exact ⟨cvFn_writes fun x => fToInt true (flag1 u) (Rnd.ofCode r.toNat) x.toNat,
    cvFn_writes fun x => fToInt false (flag1 u) (Rnd.ofCode r.toNat) x.toNat,
    cvFn_writes fun x => wordOf (intToF (Rnd.ofCode r.toNat) x.toInt),
    cvFn_writes fun x => wordOf (intToF (Rnd.ofCode r.toNat) x.toNat),
    issue_putV_writes,
    cvFn_writes fun x => wordOf (fConv bf16 fp32 .rn (bfLo x)),
    cvFn_writes fun x => wordOf (fConv bf16 fp32 .rn (bfHi x)),
    cvFn_writes fun x => wordOf (fConv fp16 fp32 .rn (if flag1 u then bfHi x else bfLo x)),
    issue_putV_writes, issue_putV_writes⟩

end Sys2Proof.Machine
end

section
/-! PROOFS. Instructions of the sequential machine: the integer ALU with a thread register, 64-bit forms, compares, uniform forms, buffer
records and segments, branches (R60, R63, R77, R98 to R107, R109 to R116, R120, R232, R428). -/

namespace Sys2Proof.Machine

/-! ## What an instruction with one effect leaves (R77, R105, R109) -/

section
variable {i : Info} {s t : State} {c : Ctx}

/-- An instruction whose whole effect is a write of register pairs writes them where it issues (R77). -/
theorem issue_putV2_writes {d : Nat} {f : Ctx → Nat → DWord} (h : Issues i s c t) :
    WritesV2 c t d (f c) (issue i (fun c s => s.putV2 c d (f c)) s) := by
  rw [h.issue]
  exact State.putV2_spec h.found _ _

/-- An instruction whose whole effect is a write of predicates writes them where it issues (R105). -/
theorem issue_putP_writes {p : Nat} {f : Ctx → Nat → Bool × Word} (h : Issues i s c t) :
    WritesP c t p (f c) (issue i (fun c s => s.putP c p (f c)) s) := by
  rw [h.issue]
  exact State.putP_spec h.found _ _

/-- An instruction whose whole effect is a write of a uniform predicate writes it where it issues (R105, R107). -/
theorem issue_putQ_writes {q : Nat} {f : Ctx → Bool × Word} (h : Issues i s c t) :
    WritesQ c t q (f c).1 (f c).2 (issue i (fun c s => s.putQ c q (f c).1 (f c).2) s) := by
  rw [h.issue]
  exact State.putQ_spec h.found _ _ _

end

/-! ## The integer thread ALU (R98 to R101) -/

/-- Settles O1: each form is `aluVR` of its function. -/
theorem integerVrResults : Obligations.IntegerVrResults := by
  unfold Obligations.IntegerVrResults
  intro s t c w d a b h
  exact ⟨aluVR_writes addFn h, aluVR_writes subFn h, aluVR_writes mulFn h, aluVR_writes mulhiFn h, aluVR_writes mulhuFn h,
    aluVR_writes madFn h, aluVR_writes andFn h, aluVR_writes orFn h, aluVR_writes xorFn h, aluVR_writes andnFn h,
    aluVR_writes shlFn h, aluVR_writes shrFn h, aluVR_writes sraFn h, aluVR_writes srarFn h,
    aluVR_writes minFn h, aluVR_writes maxFn h, aluVR_writes minuFn h, aluVR_writes maxuFn h,
    aluVR_writes addsFn h, aluVR_writes subsFn h, aluVR_writes bfxFn h, aluVR_writes bfiFn h⟩

/-! ## Register pairs (R77, R103) -/

/-- Settles O5: each form is one write of register pairs. -/
theorem sixtyFourBitResults : Obligations.SixtyFourBitResults := by
  unfold Obligations.SixtyFourBitResults
  intro s t c w d a b
  exact ⟨issue_putV2_writes, issue_putV2_writes, issue_putV2_writes, issue_putV2_writes, issue_putV2_writes,
    issue_putV2_writes, issue_putV2_writes, issue_putV2_writes, issue_putV2_writes, issue_putV2_writes⟩

/-! ## Compares (R105 to R107) -/

/-- Settles O10: `cmp` is one write of predicates, `scmp` of a uniform predicate. -/
theorem compareResults : Obligations.CompareResults := by
  unfold Obligations.CompareResults
  intro s t c w o p k a b
  exact ⟨issue_putP_writes, issue_putP_writes, issue_putP_writes,
    issue_putQ_writes (f := fun c => cmpTest o.toNat k.toNat (c.cmpS k.toNat a.toNat) (c.cmpS k.toNat b.toNat))⟩

/-! ## Uniform forms (R63, R109, R110, R112) -/

section
variable {w : BitVec 1} {d a : BitVec 10} {s t : State} {c : Ctx}

/-- An SR form that issues writes its function of the destination and the source (R109, R110). -/
theorem uniSR_writes (f : Word → Word → Word) (h : Issues (infoS2 w d a) s c t) :
    WritesS c t d.toNat [f (c.rs d.toNat) (c.rs a.toNat)] (uniSR f w d a s) :=
  putS_writes h d.toNat fun c _ => [f (c.rs d.toNat) (c.rs a.toNat)]

/-- An SI form that issues writes its function of the destination and the immediate, extended as `sgn` says unless hints widen it
(R63, R112). -/
theorem uniSI_writes (sgn : Bool) (f : Word → Word → Word) {x : BitVec 12}
    (h : Issues { infoS1 w d 1 1 with imm := true, immhi := true } s c t) :
    WritesS c t d.toNat [f (c.rs d.toNat) (c.hints.value.getD (if sgn then x.signExtend 32 else x.setWidth 32))] (uniSI sgn f w d x s) :=
  putS_writes h d.toNat fun c _ => [f (c.rs d.toNat) (c.hints.immOr (if sgn then x.signExtend 32 else x.setWidth 32))]

/-- A 64-bit uniform form that issues writes the two words of its result, low first (R77, R110). -/
theorem words2_writes (f : Ctx → DWord) (h : Issues (infoS2 w d a 2) s c t) :
    WritesS c t d.toNat [(f c).setWidth 32, (f c).extractLsb' 32 32] (issue (infoS2 w d a 2) (fun c s => s.putS c d.toNat (words2 (f c))) s) :=
  putS_writes h d.toNat fun c _ => words2 (f c)

end

/-- Settles O14: each form is one write of uniform registers, of a function of the destination and the source, the immediate or the
shift count. -/
theorem uniformResults : Obligations.UniformResults := by
  unfold Obligations.UniformResults
  refine ⟨?registers, ?immediates⟩
  case registers =>
    intro s t c w d a h
    exact ⟨uniSR_writes (fun x y => x + y) h, uniSR_writes (fun x y => x - y) h, uniSR_writes (fun x y => x * y) h,
      uniSR_writes (fun x y => x &&& y) h, uniSR_writes (fun x y => x ||| y) h, uniSR_writes (fun x y => x ^^^ y) h,
      uniSR_writes shlWord h, uniSR_writes shrWord h, uniSR_writes sraWord h, uniSR_writes minWord h, uniSR_writes maxWord h,
      uniSR_writes minuWord h, uniSR_writes maxuWord h, uniSR_writes (fun _ y => y) h⟩
  case immediates =>
    intro s t c w d a x k
    have hcount : (k.setWidth 32).toNat = k.toNat := BitVec.toNat_setWidth_of_le (by decide)
    rw [← hcount]
    exact ⟨uniSI_writes true fun _ y => y, uniSI_writes true fun x y => x + y, uniSI_writes false fun x y => x &&& y,
      uniSI_writes false fun x y => x ||| y, uniSI_writes false fun x y => x ^^^ y, uniSI_writes true fun x y => x * y,
      fun h => putS_writes h d.toNat fun c _ => [shlWord (c.rs d.toNat) (k.setWidth 32)],
      fun h => putS_writes h d.toNat fun c _ => [shrWord (c.rs d.toNat) (k.setWidth 32)],
      fun h => putS_writes h d.toNat fun c _ => [sraWord (c.rs d.toNat) (k.setWidth 32)],
      words2_writes fun c => c.rs2 d.toNat + c.rs2 a.toNat, words2_writes fun c => c.rs2 d.toNat - c.rs2 a.toNat⟩

/-! ## Buffer records and segments (R112, R120, R232, R428) -/

section
variable {w : BitVec 1} {d : BitVec 10} {s t : State} {c : Ctx}

/-- `bbind` writes the record where it passes its check, and traps where it does not (R112, R120). -/
theorem exec_bbind {x : BitVec 4} (h : Issues (infoS1 w d 4 4) s c t) : exec (.bbind w d x) s =
    .next (if recOk (c.rs4 d.toNat) then (t.updGroup c.g fun G => { G with b := G.b.put x.toNat (c.rs4 d.toNat) }).retire c
      else t.trapAt c 1 6) := h.issue _

/-- `segset` writes the segment where it passes its check, and traps where it does not (R232, R428). -/
theorem exec_segset {p : BitVec 3} (h : Issues { (infoS1 w d 4 4).bare with priv := true } s c t) : exec (.segset w p d) s =
    .next (if segOk p.toNat (c.rs4 d.toNat) then
        (t.updGroup c.g fun G => { G with seg := G.seg.put p.toNat (segNorm (c.rs4 d.toNat)) }).retire c
      else t.trapAt c 1 6) := h.issue _

end

/-- Settles O16: the check of the value decides between the write and the trap. -/
theorem recordAndSegmentWrites : Obligations.RecordAndSegmentWrites := by
  unfold Obligations.RecordAndSegmentWrites
  intro s t c w d x p
  refine ⟨?record, ?badRecord, ?segment, ?badSegment⟩
  case record =>
    intro h hok
    rw [exec_bbind h, if_pos hok]
    exact State.change_spec h.found (fun G => { G with b := G.b.put x.toNat (c.rs4 d.toNat) }) rfl rfl
  case badRecord =>
    intro h hbad
    rw [exec_bbind h, if_neg (Bool.eq_false_iff.1 hbad)]
  case segment =>
    intro h hok
    rw [exec_segset h, if_pos hok]
    exact State.change_spec h.found (fun G => { G with seg := G.seg.put p.toNat (segNorm (c.rs4 d.toNat)) }) rfl rfl
  case badSegment =>
    intro h hbad
    rw [exec_segset h, if_neg (Bool.eq_false_iff.1 hbad)]

/-! ## Branches and calls (R114, R115) -/

section
variable {w : BitVec 1} {o : BitVec 21} {a : BitVec 10} {s t : State} {c : Ctx}

/-- Does any thread of the path take a relative branch that `f` decides (R114)? A path without lanes asks for lane 0 (R396). -/
def Ctx.takes (c : Ctx) (f : Nat → Bool) : Bool := if c.mask = 0 then f 0 else (lanesOf c.mask).any f

/-- A branch that every thread takes is taken. -/
theorem Ctx.takes_all (c : Ctx) : (c.takes fun _ => true) = true := by
  unfold Ctx.takes
  split
  · rfl
  · rename_i hm
    obtain ⟨l, hl⟩ := List.exists_mem_of_ne_nil _ (lanesOf_ne_nil hm)
    exact List.any_eq_true.2 ⟨l, hl, rfl⟩

/-- A relative branch sends each thread to its target or to the next word, and is noted where any thread takes it (R114, R512). -/
theorem branchRel_goes (f : Ctx → Nat → Bool) (h : Issues (infoNone w).bare s c t) :
    GoesTo c (if c.takes (f c) then t.noteLoop c (branchTarget c.pc o) else t)
      (fun l x => if f c l then branchTarget c.pc o else x.pc + 4) (branchRel w o f s) := by
  unfold branchRel
  rw [h.issue]
  exact State.goto_spec (h.found.noteLoop _ _) _

/-- A branch that asks for no predicate sends every thread to its target (R114). -/
theorem execBr_goes (h : Issues (infoNone w).bare s c t) :
    GoesTo c (t.noteLoop c (branchTarget c.pc o)) (fun _ _ => branchTarget c.pc o) (execBr w o s) := by
  have hgo := branchRel_goes (o := o) (fun _ _ => true) h
  rw [if_pos c.takes_all] at hgo
  exact hgo

/-- `call` puts the address of the next word in LK and sends every thread to its target (R114). -/
theorem execCall_links (h : Issues (infoNone w).bare s c t) :
    ∃ u G, execCall w o s = .next u ∧ OneGroup c (t.noteLoop c (branchTarget c.pc o)) u G ∧
      G = { c.G with
        lanes := G.lanes
        hnd := c.handlerAt fun _ => branchTarget c.pc o } ∧
      Lanes c G fun _ x => { x.at_ (branchTarget c.pc o) with lk := c.pc + 4 } := by
  obtain ⟨u, G, hu, hone, hG, hlanes⟩ := State.moveLanes (h.found.noteLoop true (branchTarget c.pc o))
    (fun _ x => { x with lk := c.pc + 4 }) (fun _ _ => rfl) (fun _ _ => branchTarget c.pc o)
  refine ⟨u, G, ?_, hone, hG, hlanes⟩
  unfold execCall
  rw [h.issue, ← hu, if_pos rfl]
  simp only [State.noteLoop_updGroup, State.goto, State.updGroup_updGroup]

/-- `ret` sends each thread to its LK with bits 1:0 cleared (R114). -/
theorem execRet_goes (hm : c.mask ≠ 0) (h : Issues (infoNone w).bare s c t) :
    GoesTo c t (fun _ x => x.lk &&& ~~~3) (execRet w s) := by
  unfold execRet
  rw [h.issue]
  simp only [if_neg hm]
  exact State.goto_spec h.found _

/-- `jri` sends every thread to the address in its register, and traps where that is no multiple of 4 (R115). -/
theorem exec_jri (h : Issues (infoS1 w a 1 1).bare s c t) : exec (.jri w a) s =
    .next (if c.rs a.toNat &&& 3 = 0 then t.goto c fun _ _ => c.rs a.toNat else t.trapAt c 1 1) := h.issue _

end

/-- Settles O17: the conditional branches are `branchRel` of their predicate; `b`, `call`, `ret` and `jri` have their own lemmas. -/
theorem branchTargets : Obligations.BranchTargets := by
  unfold Obligations.BranchTargets
  intro s t c w p o a
  refine ⟨branchRel_goes fun c l => c.pred l p.toNat, branchRel_goes fun c l => !c.pred l p.toNat,
    branchRel_goes fun c _ => c.G.q.getLsbD p.toNat, branchRel_goes fun c _ => !c.G.q.getLsbD p.toNat,
    execBr_goes, execCall_links, fun h hm => execRet_goes hm h, ?aligned, ?misaligned, rfl⟩
  case aligned =>
    intro h ha
    rw [exec_jri h, if_pos ha]
    exact State.goto_spec h.found _
  case misaligned =>
    intro h ha
    rw [exec_jri h, if_neg ha]

end Sys2Proof.Machine
end

section
/-! PROOFS. Loads, stores and prefetches of threads, and uniform accesses (R122 to R130, R275, R279, R288 to R293). -/

namespace Sys2Proof.Machine

/-! ## Thread loads and stores (R122, R124, R288) -/

section
variable {w : BitVec 1} {d i : BitVec 7} {b : BitVec 4} {cf ro ef na : BitVec 1} {s t : State} {c : Ctx}

/-- What a load of a thread asks of memory (R122, R124, R288). -/
def Ctx.loadAsked (c : Ctx) (width : Nat) (sext : Bool) (d i : BitVec 7) (b : BitVec 4) (cf : BitVec 1) : Asked where
  kind := .load
  record := c.G.bufRec b.toNat
  width := width
  want := .read
  idx := c.indices i.toNat
  sext := sext
  acq := ordScope c (c.G.bufRec b.toNat) [1]
  dst := some (.v d.toNat (max 1 (width / 4)))
  cload := flag1 cf

/-- What a store of a thread asks of memory (R122, R124, R288). -/
def Ctx.storeAsked (c : Ctx) (width : Nat) (d i : BitVec 7) (b : BitVec 4) : Asked where
  kind := .store
  record := c.G.bufRec b.toNat
  width := width
  want := .write
  idx := c.indices i.toNat
  rel := ordScope c (c.G.bufRec b.toNat) [2]
  data := c.storeData width d.toNat

/-- A load that issues, with C only in a group that is not attached, sends what it asks where no lane is stopped (R122, R263, R275). -/
theorem memLoad_sends (width : Nat) (sext : Bool)
    (h : Issues {
      w := flag1 w
      var := true
      imm := true
      mods := modSCP ||| modORD ||| modLC3
      ords := [0, 1]
      regs := [.v d.toNat (max 1 (width / 4)) (max 1 (width / 4)), .v i.toNat 1 1] } s c t)
    (hc : ¬(cf = 1 ∧ c.G.cvm.state = 1)) (hg : ((c.loadAsked width sext d i b cf).plan c t).goes (c.G.bufRec b.toNat))
    (hp : ((c.loadAsked width sext d i b cf).plan c t).peer = false) :
    Sends c t (c.loadAsked width sext d i b cf) (memLoad width sext w d i b cf ro ef na s) := by
  unfold memLoad
  rw [h.issue]
  exact load_spec h.found (c.loadAsked width sext d i b cf) rfl rfl rfl rfl rfl hc hg hp

/-- A store that issues sends what it asks where no lane is stopped (R122, R275, R279). -/
theorem memStore_sends (width : Nat)
    (h : Issues {
      w := flag1 w
      imm := true
      mods := modSCP ||| modORD
      ords := [0, 2]
      regs := [.v d.toNat (max 1 (width / 4)) (max 1 (width / 4)), .v i.toNat 1 1] } s c t)
    (hg : ((c.storeAsked width d i b).plan c t).goes (c.G.bufRec b.toNat)) (hp : ((c.storeAsked width d i b).plan c t).peer = false) :
    Sends c t (c.storeAsked width d i b) (memStore width w d i b ef na s) := by
  unfold memStore
  rw [h.issue]
  exact access_sends h.found (c.storeAsked width d i b) rfl (indices_lanes c i.toNat) (fun hu => nomatch hu) hg hp _ _ _

end

/-- Settles O19: each form is `memLoad` of its width and its sign. -/
theorem threadLoads : Obligations.ThreadLoads := by
  unfold Obligations.ThreadLoads
  intro s t c w d i b cf ro ef na
  exact ⟨memLoad_sends 1 false, memLoad_sends 1 true, memLoad_sends 2 false, memLoad_sends 2 true, memLoad_sends 4 false,
    memLoad_sends 8 false, memLoad_sends 16 false⟩

/-- Settles O21: each form is `memStore` of its width. -/
theorem threadStores : Obligations.ThreadStores := by
  unfold Obligations.ThreadStores
  intro s t c w d i b ef na
  exact ⟨memStore_sends 1, memStore_sends 2, memStore_sends 4, memStore_sends 8, memStore_sends 16⟩

/-! ## Uniform accesses (R130, R293) -/

/-- A uniform access has an index. -/
theorem Ctx.uniIndex_ne_nil (c : Ctx) (x : BitVec 8) : c.uniIndex x ≠ [] := List.cons_ne_nil _ _

/-- Settles O23: each is one access for the path, neither a C load nor a release. -/
theorem uniformAccesses : Obligations.UniformAccesses := by
  unfold Obligations.UniformAccesses
  intro s t c w d b x
  refine ⟨?load, ?store⟩
  case load =>
    intro q h hg hp
    show Sends c t q (execSld w d b x s)
    unfold execSld
    rw [h.issue]
    exact access_sends h.found q rfl (c.uniIndex_ne_nil x) (fun _ => rfl) hg hp _ _ _
  case store =>
    intro q h hg hp
    show Sends c t q (execSst w d b x s)
    unfold execSst
    rw [h.issue]
    exact access_sends h.found q rfl (c.uniIndex_ne_nil x) (fun _ => rfl) hg hp _ _ _

/-! ## Prefetches (R126, R292) -/

/-- The plan of an access changes what `Pl` lets change: what is cached of translations, and what walks correct and count (R399, R408). -/
theorem Pl.plan (s : State) (core : Nat) (G : Group) (r : QWord) (width : Nat) (w : Want) (idx : List (Nat × Int)) :
    Pl s (s.plan core G r width w idx).st := by
  obtain ⟨u, n, hlike, hst⟩ := State.plan_st s core G r width w idx
  rw [hst]
  exact Pl.likeTlb hlike n

/-- Settles O31: the plan, and then the request of each lane that goes on, change only what `Pl` lets change; then the path goes on. -/
theorem prefetchChangesNothingElse : Obligations.PrefetchChangesNothingElse := by
  unfold Obligations.PrefetchChangesNothingElse
  intro s t c w i b r e n h
  show ∃ v G, execPref w i b r e n s = .next v ∧ _
  unfold execPref
  rw [h.issue]
  refine pref_spec h.found ?_
  have hplan := Pl.plan t c.G.core c.G (c.G.bufRec b.toNat) 1 .read (c.indices i.toNat)
  split
  · exact hplan
  · refine hplan.trans (Pl.fold (fun s x => ?_) _ _)
    obtain ⟨l, ls⟩ := x
    dsimp only
    split
    · exact Pl.prefetch s _ _
    · exact Pl.refl s

end Sys2Proof.Machine
end

section
/-! PROOFS. Parallel execution: rejoin masks, what blocks a path and what does not, and the end of threads
(R156, R161 to R168, R194 to R223, R300 to R305, R385 to R400, R424 to R432). -/

namespace Sys2Proof.Machine

/-! ## Rejoin masks (R161, R163, R212, R213) -/

section
variable {w : BitVec 1} {j : BitVec 3} {a : BitVec 10} {s t : State} {c : Ctx}

/-- A mask instruction with a uniform operand leaves the mask of its function, less the threads that have exited. -/
theorem jForm_rejoins (f : Word → Word → Word) (h : Issues (infoS1 w a 1 1).bare s c t) :
    Rejoins c t j.toNat (f (c.G.j.get j.toNat 0) (c.rs a.toNat) &&& c.G.liveMask) (c.G.arr.get j.toNat 0) (jForm f w j a s) := by
  unfold jForm
  rw [h.issue]
  exact writeJ_spec' h.found j.toNat fun G => f (G.j.get j.toNat 0) (c.rs a.toNat)

/-- The same with the active mask. -/
theorem jActForm_rejoins (f : Word → Word → Word) (h : Issues (infoNone w).bare s c t) :
    Rejoins c t j.toNat (f (c.G.j.get j.toNat 0) c.mask &&& c.G.liveMask) (c.G.arr.get j.toNat 0) (jActForm f w j s) := by
  unfold jActForm
  rw [h.issue]
  exact writeJ_spec' h.found j.toNat fun G => f (G.j.get j.toNat 0) c.mask

end

/-- Settles O24: each mask instruction is `jForm` or `jActForm` of its function, and `join` is `join_spec`. -/
theorem rejoinMasks : Obligations.RejoinMasks := by
  unfold Obligations.RejoinMasks
  intro s t c w j a
  refine ⟨jForm_rejoins fun _ x => x, jForm_rejoins fun y x => y ||| x, jForm_rejoins fun y x => y &&& ~~~x,
    jActForm_rejoins fun _ x => x, jActForm_rejoins fun y x => y ||| x, jActForm_rejoins fun y x => y &&& ~~~x, ?join⟩
  case join =>
    intro h
    show ∃ u G, execJoin w j s = .next u ∧ _
    unfold execJoin
    rw [h.issue]
    exact join_spec h.found j.toNat

/-! ## The end of threads (R223, R385, R386, R400, R424) -/

section
variable {w : BitVec 1} {n : BitVec 16} {s t : State} {c : Ctx}

/-- `trap` raises class 5 behind its word (R424). -/
theorem exec_trap (h : Issues (infoNone w).bare s c t) : exec (.trap w n) s =
    .next ((t.raise c.g c.h ⟨c.mask, c.pc + 4, c.first, c.pc + 4, causeWord 5 0 n.toNat, false⟩).draw 1) := h.issue _

/-- `brk` stops its threads for an attached debugger, and else raises class 9 behind its word (R424). -/
theorem exec_brk (h : Issues (infoNone w).bare s c t) : exec (.brk w n) s =
    .next (if t.debugger = true then
        ({ t with debugLog := t.debugLog ++ [(c.g, c.pc)] }.updGroup c.g fun G => G.debugStop c).draw 1
      else (t.raise c.g c.h ⟨c.mask, c.pc + 4, c.first, c.pc + 4, causeWord 9 0 n.toNat, false⟩).draw 1) := h.issue _

/-- `exit` delivers a write error of its group, ends the handler that has no thread, or ends its threads (R223, R396, R400). -/
theorem exec_exit (h : Issues (infoNone w).bare.block s c t) : exec (.exit w) s =
    .next (if c.G.werr then
        (t.updGroup c.g fun G => { G with werr := false }).raise c.g c.h
          ⟨c.mask, c.first, c.first, c.first, causeWord 6 23 0, false⟩
      else if c.mask = 0 then (t.endSeqHandler c.g false).draw 1
      else (t.kill c.g c.mask).draw 1) := h.issue _

/-- With no write error and a thread on the path, `exit` ends the threads of the path (R223). -/
theorem exec_exit_threads (h : Issues (infoNone w).bare.block s c t) (hw : c.G.werr = false) (hm : c.mask ≠ 0) :
    exec (.exit w) s = .next ((t.kill c.g c.mask).draw 1) := by
  rw [exec_exit h, if_neg (by rw [hw]; decide), if_neg hm]

end

/-- Settles O29: a trap is what `State.raise` leaves, and the end of threads what `State.kill` leaves. That the path of a
matrix-stream fault ends its handler is the model's choice (log 23). -/
theorem threadsTrapAndExit : Obligations.ThreadsTrapAndExit := by
  unfold Obligations.ThreadsTrapAndExit
  intro s t c w n
  refine ⟨?trap, ?brk, ?debug, ?some, ?handler, ?last, ?seq, ?werr⟩
  case trap =>
    intro h hh hv
    rw [exec_trap h, hh]
    exact State.raise_spec h.found.group _ hv 1
  case brk =>
    intro h hd hh hv
    rw [exec_brk h, if_neg (by rw [hd]; decide), hh]
    exact State.raise_spec h.found.group _ hv 1
  case debug =>
    intro h hd hm
    rw [exec_brk h]
    exact brk_spec h.found hd hm
  case some =>
    intro h hw hm hlive hrest
    rw [exec_exit_threads h hw hm]
    exact exit_some h.found hlive hrest
  case handler =>
    intro h hw hm hlive H hH hend
    rw [exec_exit_threads h hw hm]
    exact exit_handler h.found hlive hH hend
  case last =>
    intro h hw hm hlive T hT hother hv
    rw [exec_exit_threads h hw hm]
    exact exit_last h.found hlive hT hother hv
  case seq =>
    intro h hw hm H hH
    rw [exec_exit h, if_neg (by rw [hw]; decide), if_pos hm]
    exact exit_seq h.found hH
  case werr =>
    intro h hw hh hv
    rw [exec_exit h, if_pos hw, hh]
    exact exit_werr h.found hv

/-! ## What completes at once (R216 to R222, R304, R305, R429, R431, R432) -/

section
variable {w : BitVec 1} {b : BitVec 5} {a d : BitVec 10} {s t : State} {c : Ctx}

/-- `bara` whose count is a half word arrives once the earlier accesses of its path are performed (R216, R217). -/
theorem exec_bara (h : Issues (infoS1 w a 1 1).bare s c t) (hn : (c.rs a.toNat).toNat < 65536) (hq : c.G.quiet c.mask t.now = true) :
    exec (.bara w b a) s = .next ((t.arrive c.G.team b.toNat (c.rs a.toNat).toNat).retire c) := by
  show execBara w b a s = _
  unfold execBara
  rw [h.issue]
  simp only [Nat.div_eq_of_lt hn, Nat.mod_eq_of_lt hn, ne_eq, not_true_eq_false, ↓reduceIte, hq]

/-- `tgclr` of tags of the team clears them and their error bits (R218, R318). -/
theorem exec_tgclr (h : Issues (infoTag w a) s c t) (ht : t.tagsOk c.G (c.rs2 a.toNat) = true) :
    exec (.tgclr w a) s = .next ((t.updCore c.G.core fun k => { k with
      tags := k.tags &&& ~~~(c.rs2 a.toNat)
      terr := k.terr &&& ~~~(c.rs2 a.toNat) }).retire c) := by
  show execTgclr w a s = _
  unfold execTgclr
  rw [h.issue]
  simp only [ht, Bool.not_true, Bool.false_eq_true, ↓reduceIte]

/-- `tgff` of tags of the team starts the lowest of those that are set (R218). -/
theorem exec_tgff (h : Issues {
      w := flag1 w
      var := true
      noHint := true
      regs := [.s d.toNat 1 1, .s a.toNat 2 2] } s c t) (ht : t.tagsOk c.G (c.rs2 a.toNat) = true) :
    exec (.tgff w d a) s = .next (t.startS c d.toNat [lowestTag ((t.core c.G.core).tags &&& c.rs2 a.toNat)]) := by
  show execTgff w d a s = _
  unfold execTgff
  rw [h.issue]
  simp only [ht, Bool.not_true, Bool.false_eq_true, ↓reduceIte]

/-- `isync` discards the loop buffer of its partition and the fetched words of its group (R429, R512). -/
theorem exec_isync_changes (h : Issues (infoNone w).bare s c t) :
    Changes c (t.updPart c.G.core c.G.part fun p => { p with loop := none }) { c.G with pre := [] } (exec (.isync w) s) := by
  show Changes _ _ _ (execIsync w s)
  unfold execIsync
  rw [h.issue]
  have hfound : Found s c (t.updPart c.G.core c.G.part fun p => { p with loop := none }) := h.found.same rfl rfl
  exact State.change_spec hfound (fun G => { G with pre := [] }) rfl rfl

/-- `pctr` starts a result that samples its counter; one that user mode may not read gives 0 (R432). -/
theorem exec_pctr_starts (h : Issues { (infoS1 w d 1 1).bare with var := true } s c t) :
    StartsAs c t (.s d.toNat 1) none
      (some (if 32 ≤ a.toNat ∧ a.toNat ≤ 161 ∧ t.privileged c = false then 1023 else a.toNat)) (exec (.pctr w d a) s) := by
  show StartsAs _ _ _ _ _ (execPctr w d a s)
  unfold execPctr
  rw [h.issue]
  simp only [Bool.not_eq_true']
  exact State.startAs_spec h.found (.s d.toNat 1) none _

end

/-- Settles O26: each form leaves what the state's operation of its name leaves, and then the path goes on. -/
theorem synchronizationResults : Obligations.SynchronizationResults := by
  unfold Obligations.SynchronizationResults
  intro s t c w b a d
  refine ⟨?bara, ?tgclr, ?tgff, ?rbrel, ?yield, ?cvleave, ?cvget, exec_pctr_starts, ?icinv, exec_isync_changes, ?absent, ?preempts⟩
  case bara =>
    intro h hn hq
    rw [exec_bara h hn hq]
    exact bara_spec h.found _ _ _
  case tgclr =>
    intro h ht
    rw [exec_tgclr h ht]
    exact State.retire_spec (h.found.same rfl rfl)
  case tgff =>
    intro h ht
    rw [exec_tgff h ht]
    exact State.startS_spec h.found d.toNat _
  case rbrel =>
    intro h hp
    show Changes _ _ _ (execRbrel w s)
    unfold execRbrel
    rw [h.issue]
    exact rbrel_spec h.found hp
  case yield =>
    intro h
    show Changes _ _ _ (execYield w s)
    unfold execYield
    rw [h.issue]
    exact State.change_spec h.found (fun G => { G with run := 64, skip := true }) rfl rfl
  case cvleave =>
    intro h
    have hleave : exec (.cvleave w) s = .next ((t.detach c.g 3).wake.retire c) := h.issue _
    rw [hleave]
    exact cvleave_spec h.found
  case cvget =>
    intro h
    have hget : exec (.cvget w d) s = .next (t.startS c d.toNat (c.G.cvm.words false)) := h.issue _
    rw [hget]
    exact State.startS_spec h.found d.toNat _
  case icinv =>
    intro h
    show ∃ u, _ ∧ _ ∧ _ ∧ _ ∧ Changes _ _ _ (execIcinv w s)
    unfold execIcinv
    rw [h.issue]
    exact icinv_spec h.found
  case absent =>
    intro h x hvf hzero hen hnone
    show Changes _ _ _ (execCtxsw w a s)
    unfold execCtxsw
    rw [h.issue]
    exact ctxsw_none h.found hvf hzero hen hnone
  case preempts =>
    intro h x hvf hzero hen k T hname hT
    show ∃ u U, execCtxsw w a s = _ ∧ _
    unfold execCtxsw
    rw [h.issue]
    exact ctxsw_some hvf hzero hen hname hT

/-! ## What blocks its path (R194 to R197, R214 to R220, R260, R300 to R303, R430) -/

section
variable {w : BitVec 1} {b : BitVec 5} {a : BitVec 10} {s t : State} {c : Ctx}

/-- `barx` whose count is a half word blocks its path and arrives, once the earlier accesses of its path are performed (R216, R217). -/
theorem exec_barx (h : Issues (infoS1 w a 1 1).bare.block s c t) (hn : (c.rs a.toNat).toNat < 65536) (hq : c.G.quiet c.mask t.now = true) :
    exec (.barx w b a) s = .next ((t.blockPath c (.barx b.toNat)).arrive c.G.team b.toNat (c.rs a.toNat).toNat) := by
  show execBarx w b a s = _
  unfold execBarx
  rw [h.issue]
  simp only [Nat.div_eq_of_lt hn, Nat.mod_eq_of_lt hn, ne_eq, not_true_eq_false, ↓reduceIte, hq]

/-- `tgwa` of tags of the team, one at least, waits for one of them (R218). -/
theorem exec_tgwa (h : Issues (infoTag w a).block s c t) (ht : t.tagsOk c.G (c.rs2 a.toNat) = true) (hm : c.rs2 a.toNat ≠ 0) :
    exec (.tgwa w a) s = .next (t.blockPath c (.tag (c.rs2 a.toNat) false)).wake := by
  show execTgwa w a s = _
  unfold execTgwa
  rw [h.issue]
  simp only [ht, Bool.not_true, Bool.false_eq_true, hm, ↓reduceIte]

/-- `tgwl` of tags of the team waits for all of them (R218). -/
theorem exec_tgwl (h : Issues (infoTag w a).block s c t) (ht : t.tagsOk c.G (c.rs2 a.toNat) = true) :
    exec (.tgwl w a) s = .next (t.blockPath c (.tag (c.rs2 a.toNat) true)).wake := by
  show execTgwl w a s = _
  unfold execTgwl
  rw [h.issue]
  simp only [ht, Bool.not_true, Bool.false_eq_true, ↓reduceIte]

end

/-- A fence of release alone, of acquire alone, or of both, waits for the last of its actions (R300, R301). -/
theorem exec_fence_blocks {w : BitVec 1} {p : BitVec 4} {s t : State} {c : Ctx} (h : Issues (infoNone w).bare s c t) :
    (Blocks (c.adds [fenceAcc t.uid c (.release p.toNat)]) (t.adds c [fenceAcc t.uid c (.release p.toNat)]) (.fence t.uid 0) none
      (exec (.fence w p 2) s)) ∧
    (Blocks (c.adds [fenceAcc t.uid c (.acquire p.toNat)]) (t.adds c [fenceAcc t.uid c (.acquire p.toNat)]) (.fence t.uid 0) none
      (exec (.fence w p 1) s)) ∧
    (∀ k : BitVec 2, k ≠ 1 → k ≠ 2 →
      let as := [fenceAcc t.uid c (.release p.toNat), fenceAcc (t.uid + 1) c (.acquire p.toNat)]
      Blocks (c.adds as) (t.adds c as) (.fence (t.uid + 1) 0) none (exec (.fence w p k) s)) := by
  have hfence : ∀ k, exec (.fence w p k) s = execFence w p k s := fun _ => rfl
  refine ⟨?release, ?acquire, fun k h1 h2 => ?both⟩
  case release =>
    rw [hfence]; unfold execFence; rw [h.issue]
    exact fence_spec h.found (.release p.toNat)
  case acquire =>
    rw [hfence]; unfold execFence; rw [h.issue]
    exact fence_spec h.found (.acquire p.toNat)
  case both =>
    rw [hfence]; unfold execFence; rw [h.issue]
    dsimp only
    rw [if_neg h2, if_neg h1]
    exact fence2_spec h.found (.release p.toNat) (.acquire p.toNat)

/-- Settles O25: each form asks what it asks of the others, and then blocks its path; where its condition can be met at once, it is
evaluated at once (R196). -/
theorem blockingInstructions : Obligations.BlockingInstructions := by
  unfold Obligations.BlockingInstructions
  intro s t c w b a d n p k n2 e al
  refine ⟨?barw, ?barx, ?tgwa, ?tgwl, ?rbacq, ?cvjoin, fun h => (exec_fence_blocks h).1, fun h => (exec_fence_blocks h).2.1,
    fun h1 h2 h => (exec_fence_blocks h).2.2 k h1 h2, ?tlbinv, ?wait⟩
  case barw =>
    intro h
    have hbarw : exec (.barw w b a) s = .next (t.blockPath c (.barw b.toNat ((c.rs a.toNat).getLsbD 0))).wake := h.issue _
    rw [hbarw]
    exact State.blockWake_spec h.found _ _ fun u G hteams hcores hnow hteam _ => barw_eval hteams hcores hnow hteam
  case barx =>
    intro h hn hq
    exact ⟨_, _, State.blockPath_spec h.found _, State.arrive_spec _ _ _ _, exec_barx h hn hq⟩
  case tgwa =>
    intro h ht hm
    rw [exec_tgwa h ht hm]
    exact State.blockWake_spec h.found _ _ fun u G _ hcores hnow _ hcore => tgwa_eval hcores hnow hcore
  case tgwl =>
    intro h ht
    rw [exec_tgwl h ht]
    exact State.blockWake_spec h.found _ _ fun u G _ hcores hnow _ hcore => tgwl_eval hcores hnow hcore
  case rbacq =>
    intro h hext hreq hbudget
    show Blocks _ _ _ _ (execRbacq w n s)
    unfold execRbacq
    rw [h.issue]
    exact rbacq_spec h.found hext hreq hbudget
  case cvjoin =>
    intro h hout hjoin C D hD
    show Blocks _ _ _ _ (execCvjoin w a s)
    unfold execCvjoin
    rw [h.issue]
    exact cvjoin_spec h.found hout hjoin hD
  case tlbinv =>
    intro h x page hlow hhigh hvf hen hpages
    show Blocks _ _ _ _ (execTlbinv w a s)
    unfold execTlbinv
    rw [h.issue]
    exact tlbinv_spec h.found hlow hhigh hvf hen hpages
  case wait =>
    intro h ab ks hks p hgo
    show ∃ u, _ ∧ execWait w d e n2 al s = _
    unfold execWait
    rw [h.issue]
    exact wait_spec h.found hks hgo

end Sys2Proof.Machine
end

section
/-! PROOFS. How what is blocked goes on: waits, barriers, tags, register blocks and the waits of a sequencer
(R168, R196, R216, R219, R220, R284, R320, R346, R347, R400). -/

namespace Sys2Proof.Machine

/-! ## The events of a blocked path -/

section
variable {s : State} {g id : Nat} {G : Group} {b : Block}

/-- A path returns in a group that no pre-emption stops (R419). -/
theorem State.mayReturn_of_stopping (hs : s.stopping G.team = false) : s.mayReturn G = true := by
  unfold State.mayReturn
  rw [hs]
  rfl

variable (hb : s.Blocked g id G b) (hs : s.stopping G.team = false)

section
variable {sd : Nat} {cs : List WCond} {al : Bool} {t e : Nat} (hc : b.cond = .wait sd cs al t e)
include hb hs hc

/-- A wait with a word that fails its check traps with detail 21 (R400). -/
theorem exec_waitConditionMet_bad (hbad : waitBad cs = true) :
    exec (.waitConditionMet g id) s = .next (s.trapBlock g G b 6 21) := by
  show execWaitConditionMet g id s = _
  unfold execWaitConditionMet
  simp only [hb.find, Option.bind_some, hc, State.mayReturn_of_stopping hs, hbad, Bool.not_true, Bool.false_eq_true, ↓reduceIte]
  rfl

/-- A wait whose conditions have held, their completion times gone by, traps with detail 22 at a tag with its error bit, and else
returns what held (R196, R320). -/
theorem exec_waitConditionMet_met (hbad : waitBad cs = false) {m : Word} (hm : b.met = some m) (hat : b.at_ < s.now) (hcomp : b.comp ≤ s.now) :
    exec (.waitConditionMet g id) s = .next (if b.terr = true then s.trapBlock g G b 6 22 else s.waitReturns g b sd cs m) := by
  show execWaitConditionMet g id s = _
  unfold execWaitConditionMet
  have hdue : ¬(s.now ≤ b.at_ ∨ s.now < b.comp) := by omega
  simp only [hb.find, Option.bind_some, hc, State.mayReturn_of_stopping hs, hbad, hm, hdue, Bool.not_true, Bool.false_eq_true, ↓reduceIte]
  cases b.terr <;> rfl

/-- A wait whose conditions have not held returns 0 once the tick of its time-out has gone by (R196). -/
theorem exec_waitTimeout (ht : t ≠ 0) (he : e < s.now) (hm : b.met = none) (hbad : waitBad cs = false) :
    exec (.waitTimeout g id) s = .next (s.waitReturns g b sd cs 0) := by
  show execWaitTimeout g id s = _
  unfold execWaitTimeout
  have hdue : t ≠ 0 ∧ s.now > e ∧ b.met = none ∧ (!waitBad cs) = true ∧ s.mayReturn G = true :=
    ⟨ht, he, hm, by rw [hbad]; rfl, State.mayReturn_of_stopping hs⟩
  simp only [hb.find, Option.bind_some, hc]
  rw [if_pos hdue]
  rfl

/-- The word of a condition is read again while the wait is not met (R196). -/
theorem exec_waitPoll (hm : b.met = none) {k : Nat} {ls : List Loc} {x : Nat} {y : Word} {p : Poll} (hk : cs[k]? = some (.mem (some ls) x y p))
    (hls : globVas ls ≠ []) : exec (.waitPoll g id k) s = .next (s.repoll g G b k (.mem (some ls) x y p)) := by
  show execWaitPoll g id k s = _
  unfold execWaitPoll
  have hdue : ¬(globVas ls = [] ∨ b.met.isSome = true ∨ (!s.mayReturn G) = true) := by
    rintro (h | h | h)
    · exact hls h
    · rw [hm] at h; cases h
    · rw [State.mayReturn_of_stopping hs] at h; cases h
  simp only [hb.find, Option.bind_some, hc, hk]
  rw [if_neg hdue]
  rfl

end

include hb hs

/-- A barrier wait that is met goes on (R216). -/
theorem exec_barrierWaitRelease (hc : (∃ n p, b.cond = .barw n p) ∨ ∃ n, b.cond = .barx n) (hm : b.met ≠ none) :
    exec (.barrierWaitRelease g id) s = .next (s.unblock g b) := by
  show execBarrierWaitRelease g id s = _
  unfold execBarrierWaitRelease
  have hdue : b.met.isSome = true ∧ s.mayReturn G = true := ⟨Option.isSome_iff_ne_none.2 hm, State.mayReturn_of_stopping hs⟩
  rcases hc with ⟨n, p, hc⟩ | ⟨n, hc⟩
  · simp only [hb.find, Option.bind_some, hc]
    rw [if_pos hdue]
    rfl
  · simp only [hb.find, Option.bind_some, hc]
    rw [if_pos hdue]
    rfl

/-- A tag wait that is met, the completion times of its tags gone by, traps with detail 22 at an error bit, and else goes on
(R219, R284, R320). -/
theorem exec_tagWaitRelease {m : DWord} {al : Bool} (hc : b.cond = .tag m al) (hm : b.met ≠ none) (hcomp : b.comp ≤ s.now) :
    exec (.tagWaitRelease g id) s = .next (if b.terr = true then s.trapBlock g G b 6 22 else s.unblock g b) := by
  show execTagWaitRelease g id s = _
  unfold execTagWaitRelease
  have hdue : ¬(b.met.isNone = true ∨ (!s.mayReturn G) = true ∨ s.now < b.comp) := by
    rintro (h | h | h)
    · exact hm (Option.isNone_iff_eq_none.1 h)
    · rw [State.mayReturn_of_stopping hs] at h; cases h
    · omega
  simp only [hb.find, Option.bind_some, hc]
  rw [if_neg hdue]
  cases b.terr <;> rfl

end

/-! ## The waits of a sequencer (R346, R347) -/

section
variable {s : State} {t : Nat} {T : Team} (hT : s.team? t = some T) (hrun : T.seq.run = 1) (hflt : T.seq.sflt = false)
include hT hrun hflt

/-- A sequencer that waits for a barrier, no pre-emption asked of its team, goes on at the phase it expects, which is inverted (R346, R419). -/
theorem exec_sequencerWaitRelease_bar (hs : s.stopping t = false) {n : Nat} (hw : T.seq.wait = some (true, n)) (hx : s.expected T n = true) :
    exec (.sequencerWaitRelease t) s = .next (s.mwaitDone t n) := by
  show execSequencerWaitRelease t s = _
  unfold execSequencerWaitRelease
  simp only [hT, Option.bind_some, hrun, hflt, hw, hs, hx, ne_eq, not_true_eq_false, Bool.false_eq_true, or_self, Bool.not_false, and_self,
    ↓reduceIte]
  rfl

/-- A sequencer that waits for a tag goes on once the tag is ready (R347). -/
theorem exec_sequencerWaitRelease_tag {n : Nat} (hw : T.seq.wait = some (false, n)) (hr : s.tagReady T.core n = true) :
    exec (.sequencerWaitRelease t) s = .next (s.mtagDone t T.core n) := by
  show execSequencerWaitRelease t s = _
  unfold execSequencerWaitRelease
  simp only [hT, Option.bind_some, hrun, hflt, hw, hr, ne_eq, not_true_eq_false, Bool.false_eq_true, or_self, ↓reduceIte]
  rfl

end

/-- Settles O36: each release finds its path or its sequencer, and leaves what returning, trapping or going on leaves. -/
theorem waitsEnd : Obligations.WaitsEnd := by
  unfold Obligations.WaitsEnd
  intro s g id G b sd cs al t e
  refine ⟨?met, ?bad, ?tagError, ?timeout, ?poll, ?barrier, ?tag, ?tagTraps, ?grant, ?seqBarrier, ?seqTag⟩
  case met =>
    intro hb hc hs hbad m hm hat hcomp herr
    rw [exec_waitConditionMet_met hb hs hc hbad hm hat hcomp, if_neg (by rw [herr]; decide)]
    exact returns_spec hb.1 b sd cs m
  case bad =>
    intro hb hc hs hbad htrap
    rw [exec_waitConditionMet_bad hb hs hc hbad]
    exact trapBlock_spec hb.1 htrap 6 21
  case tagError =>
    intro hb hc hs hbad m hm hat hcomp herr htrap
    rw [exec_waitConditionMet_met hb hs hc hbad hm hat hcomp, if_pos herr]
    exact trapBlock_spec hb.1 htrap 6 22
  case timeout =>
    intro hb hc hs ht he hm hbad
    rw [exec_waitTimeout hb hs hc ht he hm hbad]
    exact returns_spec hb.1 b sd cs 0
  case poll =>
    intro hb hc hs hm k ls x y p hk hls hpages
    rw [exec_waitPoll hb hs hc hm hk hls]
    exact poll_spec hb hpages
  case barrier =>
    intro hb hc hm hs
    rw [exec_barrierWaitRelease hb hs hc hm]
    exact unblock_spec hb.1 b false
  case tag =>
    intro hb m hc hm hs hcomp herr
    rw [exec_tagWaitRelease hb hs hc hm hcomp, if_neg (by rw [herr]; decide)]
    exact unblock_spec hb.1 b false
  case tagTraps =>
    intro hb m hc hm hs hcomp herr htrap
    rw [exec_tagWaitRelease hb hs hc hm hcomp, if_pos herr]
    exact trapBlock_spec hb.1 htrap 6 22
  case grant =>
    intro c p n rest hq hfits hg hblk
    exact grant_spec hq hfits hg hblk
  case seqBarrier =>
    intro T hT hs hrun hflt n hw hphase
    rw [exec_sequencerWaitRelease_bar hT hrun hflt hs hw (State.expected_iff.2 hphase)]
    exact seqThen_spec hT _
  case seqTag =>
    intro T hT hrun hflt n hw hset htime herr
    rw [exec_sequencerWaitRelease_tag hT hrun hflt hw (State.tagReady_iff.2 ⟨hset, htime⟩)]
    exact mtagDone_goes hT herr

end Sys2Proof.Machine
end

section
/-! PROOFS. Launches: the doorbell, the acceptance of a record, the choices of the distributor, and the times of a launch
(R174 to R190, R233, R447, R448). -/

namespace Sys2Proof.Machine

/-! ## The doorbell (R445, R448) -/

section
variable {s : State} {e v q n : Nat}

/-- An owner's write of SQT moves the tail of the queue, and sets SQERR beyond the size of the ring (R448). -/
theorem exec_sqDoorbellWrite_owner (he : s.owner e = true) (hv : v < 64) (hq : q < 4) :
    exec (.sqDoorbellWrite e v q n) s = .next (s.updSubQ v q fun x => x.doorbell (BitVec.ofNat 32 n)) := by
  show execSqDoorbellWrite e v q n s = _
  unfold execSqDoorbellWrite
  exact if_pos ⟨he, hv, hq⟩

/-- Who owns no window writes nothing (R445). -/
theorem exec_sqDoorbellWrite_other (he : s.owner e = false) : exec (.sqDoorbellWrite e v q n) s = .next s := by
  show execSqDoorbellWrite e v q n s = _
  unfold execSqDoorbellWrite
  exact if_neg fun h => Bool.false_ne_true (he.symm.trans h.1)

end

/-! ## The distributor (R177, R182 to R190) -/

section
variable {s : State}

/-- The launch reads of a placed team leave before anything else (R177). -/
theorem exec_teamPlacement_reads {t : Nat} {T : Team} {M : Launch} (hu : s.unread = some (t, T)) (hM : s.launch? T.launch = some M) :
    exec .teamPlacement s = .next (s.readStart t T M) := by
  show execTeamPlacement s = _
  unfold execTeamPlacement
  simp only [hu, hM, Option.map_some]
  rfl

section
variable (hu : s.unread = none)
include hu

/-- With no launch reads to send, the teams of a placement whose reads have come start together (R173, R177). -/
theorem exec_teamPlacement_starts {ts : List (Nat × Team)} (hs : s.startable = some ts) :
    exec .teamPlacement s = .next (ts.foldl (fun s x => s.startOne x.1) s) := by
  show execTeamPlacement s = _
  unfold execTeamPlacement
  simp only [hu, hs]
  rfl

/-- With no team to start, a decision to place is carried out (R184). -/
theorem exec_teamPlacement_places (hs : s.startable = none) {l : Nat} {fits : List Fit} (hd : s.decide = some (.place l fits)) :
    exec .teamPlacement s = .next (s.placeNext l fits) := by
  show execTeamPlacement s = _
  unfold execTeamPlacement
  simp only [hu, hs, hd]
  rfl

/-- With no team to start, a decision to pre-empt asks for the room (R189). -/
theorem exec_teamPlacement_preempts (hs : s.startable = none) {ts : List Nat} (hd : s.decide = some (.preempt ts)) :
    exec .teamPlacement s = .next (s.makeRoom ts) := by
  show execTeamPlacement s = _
  unfold execTeamPlacement
  simp only [hu, hs, hd]
  rfl

end

/-- While room is being made the distributor decides nothing (R189). -/
theorem State.decide_of_makingRoom (h : s.makingRoom = true) : s.decide = none := by
  unfold State.decide
  cases s.queue with
  | nil => rfl
  | cons x rest => exact if_pos h

/-- A team whose launch read failed its check fails its launch with detail 7 (R177, R400). -/
theorem State.startOne_of_failed {t k : Nat} {T : Team} {M : Launch} {x : Txn} (hT : s.team? t = some T) (hr : s.startRead t = some (k, x))
    (hM : s.launch? T.launch = some M) (hx : s.txnBytes x (x.rd.flatMap (·.2)) = none) : s.startOne t = s.failLaunch T.launch 7 := by
  unfold State.startOne
  simp only [hT, hr, hM, hx]

/-! ## The times of a launch (R180, R184) -/

/-- Backfill stops past a launch whose next team has been unplaced for too long (R184). -/
theorem exec_backfillTimeout {n : Nat} {M : Launch} (hM : s.launch? n = some M) (hun : M.unplaced = true) (hno : M.noBack = false)
    (hlong : M.since + 1000000 < s.now) :
    exec (.backfillTimeout n) s = .next { s with launches := SMap.put s.launches n { M with noBack := true } } := by
  show execBackfillTimeout n s = _
  unfold execBackfillTimeout
  have hdue : M.unplaced = true ∧ (!M.noBack) = true ∧ M.since + 1000000 < s.now := ⟨hun, by rw [hno]; rfl, hlong⟩
  simp only [hM, Option.bind_some, updLaunch_some hM]
  rw [if_pos hdue]
  rfl

/-- A launch that runs past its deadline is late (R180). -/
theorem exec_launchDeadline {n : Nat} {M : Launch} (hM : s.launch? n = some M) (hrun : M.st = .running) (hnot : M.late = false)
    (hlate : M.isLate s.now = true) :
    exec (.launchDeadline n) s = .next { s with launches := SMap.put s.launches n { M with late := true } } := by
  show execLaunchDeadline n s = _
  unfold execLaunchDeadline
  have hdue : M.st = .running ∧ (!M.late) = true ∧ M.isLate s.now = true := ⟨hrun, by rw [hnot]; rfl, hlate⟩
  simp only [hM, Option.bind_some, updLaunch_some hM]
  rw [if_pos hdue]
  rfl

end

/-- Settles O42: the acceptance of a record is what the `accept_` lemmas say, and each step of the distributor is the one that the
first of its conditions to hold allows. That the record's read is of class 1 without a deadline is the model's choice (log 64), and so
is that a queue turned off meanwhile takes no record (log 36). -/
theorem launchEvents : Obligations.LaunchEvents := by
  unfold Obligations.LaunchEvents
  intro s e v q n
  refine ⟨exec_sqDoorbellWrite_owner, exec_sqDoorbellWrite_other, accept_send,
    fun t x hread hready hen hq => accept_bad hread hready hen hq,
    fun t x hread hready hen hq => accept_rej hread hready hen hq,
    fun t x hread hready hen hq => accept_ok hread hready hen hq,
    fun t x hread hready hoff => accept_off hread hready hoff,
    fun t T M hu hM => exec_teamPlacement_reads hu hM,
    fun ts hu hs => exec_teamPlacement_starts hu hs,
    fun ts hs => startable_spec hs,
    fun t T M k x bs hT hr hM hx => start_event hT hr hM hx,
    fun t T M k x hT hr hM hx => State.startOne_of_failed hT hr hM hx,
    fun hu hs l fits hd => exec_teamPlacement_places hu hs hd,
    fun hu hs ts hd => exec_teamPlacement_preempts hu hs hd,
    State.decide_of_makingRoom,
    fun M hM hun hno hlong => exec_backfillTimeout hM hun hno hlong,
    fun M d hM hrun hnot hdl r hran hle hpast => exec_launchDeadline hM hrun hnot (isLate_spec hdl hran hle hpast)⟩

end Sys2Proof.Machine
end

section
/-! PROOFS. Cross-lane instructions: lane moves, votes, predicate logic, the block format and LK (R202 to R205, R208 to R210). -/

namespace Sys2Proof.Machine

section
variable {s t : State} {c : Ctx}

/-! ## Lane moves (R202 to R204) -/

/-- A lane-moving form that issues writes what each lane's source lane supplies, with 0 from a lane outside the path (R202, R203). -/
theorem laneMove_writes {i : Info} {d a : BitVec 7} (src : Ctx → Nat → Nat) (h : Issues i s c t) :
    WritesV c t d.toNat (fun l => (c.from (src c l) a.toNat, 0)) (laneMove i d a src s) :=
  issue_putV_writes h

/-- The fill of a slide is zero, edge, wrap or a uniform register (R204). -/
theorem fill_cases (f : BitVec 2) : f = 0 ∨ f = 1 ∨ f = 2 ∨ f = 3 := by
  revert f
  decide

/-- `slup` takes lane L − n, and the fill in the lanes below n (R203, R204). -/
theorem execSlup_writes {w : BitVec 1} {d a : BitVec 7} {n : BitVec 5} {f : BitVec 2} (h : Issues (infoSlide w d a f) s c t) :
    WritesV c t d.toNat
      (fun l => (if n.toNat ≤ l then c.from (l - n.toNat) a.toNat
        else if f = 0 then 0 else if f = 1 then c.from 0 a.toNat else if f = 2 then c.from (l + 32 - n.toNat) a.toNat
        else c.rs c.hints.fill, 0))
      (execSlup w d a n f s) := by
  obtain rfl | rfl | rfl | rfl := fill_cases f <;> exact issue_putV_writes h

/-- `sldn` takes lane L + n, and the fill in the lanes from 32 − n (R203, R204). -/
theorem execSldn_writes {w : BitVec 1} {d a : BitVec 7} {n : BitVec 5} {f : BitVec 2} (h : Issues (infoSlide w d a f) s c t) :
    WritesV c t d.toNat
      (fun l => (if l + n.toNat < 32 then c.from (l + n.toNat) a.toNat
        else if f = 0 then 0 else if f = 1 then c.from 31 a.toNat else if f = 2 then c.from (l + n.toNat - 32) a.toNat
        else c.rs c.hints.fill, 0))
      (execSldn w d a n f s) := by
  obtain rfl | rfl | rfl | rfl := fill_cases f <;> exact issue_putV_writes h

/-! ## Votes and predicate logic (R205) -/

/-- A predicate form that issues writes its function of each lane's predicates and sets no flag (R205). -/
theorem predForm_writes {w : BitVec 1} {r : BitVec 3} (f : Ctx → Nat → Bool) (h : Issues (infoNone w) s c t) :
    WritesP c t r.toNat (fun l => (f c l, 0)) (predForm w r f s) :=
  issue_putP_writes h

/-- `ballot` writes the mask of the lanes whose predicate is set to a uniform register (R205). -/
theorem execBallot_writes {w : BitVec 1} {u : BitVec 7} {p : BitVec 3} (h : Issues { w := flag1 w, regs := [.s u.toNat 1 1] } s c t) :
    WritesS c t u.toNat [maskOf ((lanesOf c.mask).filter fun l => c.pred l p.toNat)] (execBallot w u p s) :=
  putS_writes h u.toNat fun c _ => [maskOf ((lanesOf c.mask).filter fun l => c.pred l p.toNat)]

/-- A vote on a uniform predicate writes its outcome over the path and sets no flag (R205). -/
theorem vote_writes {w : BitVec 1} {q : BitVec 3} (f : Ctx → Bool) (h : Issues (infoNone w) s c t) :
    WritesQ c t q.toNat (f c) 0 (issue (infoNone w) (fun c s => s.putQ c q.toNat (f c)) s) :=
  issue_putQ_writes (f := fun c => (f c, 0)) h

/-! ## LK (R210) -/

/-- `ldlk` puts the register of each lane in its LK, bits 1:0 cleared, and writes nothing else (R210). -/
theorem execLdlk_lanewise {w : BitVec 1} {a : BitVec 7} (h : Issues (infoV1 w a) s c t) :
    Lanewise c t (fun l x => { x.at_ (x.pc + 4) with lk := c.rv l a.toNat &&& ~~~3 }) (execLdlk w a s) := by
  unfold execLdlk
  rw [h.issue]
  exact State.lanewise_spec h.found (fun l x => { x with lk := c.rv l a.toNat &&& ~~~3 }) (fun _ _ => rfl) (fun _ _ => rfl)

end

/-- Settles O11: the shuffles and the broadcast are `laneMove` of their source lane; a slide has a source lane or the fill. -/
theorem laneMoveResults : Obligations.LaneMoveResults := by
  unfold Obligations.LaneMoveResults
  intro s t c w d a b n f
  exact ⟨laneMove_writes fun c l => (c.rv l b.toNat).toNat % 32, laneMove_writes fun _ l => l ^^^ n.toNat,
    laneMove_writes fun _ _ => n.toNat, execSlup_writes, execSldn_writes⟩

/-- Settles O12: the votes write a uniform register or predicate once for the path, the predicate logic is `predForm` of its function,
and the moves and `match` are one write of predicates or thread registers. -/
theorem voteAndPredicateResults : Obligations.VoteAndPredicateResults := by
  unfold Obligations.VoteAndPredicateResults
  intro s t c w p q r u a
  exact ⟨execBallot_writes,
    vote_writes fun c => (lanesOf c.mask).any fun l => c.pred l p.toNat,
    vote_writes fun c => (lanesOf c.mask).all fun l => c.pred l p.toNat,
    predForm_writes fun c l => c.pred l p.toNat && c.pred l q.toNat,
    predForm_writes fun c l => c.pred l p.toNat || c.pred l q.toNat,
    predForm_writes fun c l => c.pred l p.toNat != c.pred l q.toNat,
    predForm_writes fun c l => !c.pred l p.toNat,
    issue_putV_writes, issue_putP_writes, issue_putV_writes⟩

/-- Settles O13: `pebpk` packs the half of its lane and writes that lane's field word, `pebup` and `mvlk` are writes of thread registers
too, and `ldlk` changes LK alone. That `pebup` does not read the bits above the format's code is the model's reading (log 19). -/
theorem blockFormatAndLinkResults : Obligations.BlockFormatAndLinkResults := by
  unfold Obligations.BlockFormatAndLinkResults
  intro s t c w d a f
  exact ⟨issue_putV_writes, issue_putV_writes, issue_putV_writes, execLdlk_lanewise⟩

end Sys2Proof.Machine
end

section
/-! PROOFS. Device memory keeps its canonical form (log 8): every instruction and event but five leaves memory as it was, those five
(R277, R282, R446, R449, R509) write it byte by byte in its form, and a choice of the schedule writes it only through them. -/

namespace Sys2Proof.Machine

/-! ## Answers that leave memory alone -/

/-- An answer that is a state with memory `m`, or none. -/
def OptLeaves (m : List Host.Cell) (r : Option State) : Prop := ∀ t, r = some t → t.mem = m

section
variable {m : List Host.Cell} {α : Type}

@[simp] theorem optLeaves_none : OptLeaves m none := fun _ h => nomatch h

@[simp] theorem optLeaves_some {t : State} : OptLeaves m (some t) ↔ t.mem = m :=
  ⟨fun h => h t rfl, fun h _ hu => Option.some.inj hu ▸ h⟩

theorem OptLeaves.bind {o : Option α} {f : α → Option State} (h : ∀ x, o = some x → OptLeaves m (f x)) :
    OptLeaves m (o.bind f) := by
  cases o with
  | none => exact optLeaves_none
  | some x => exact h x rfl

theorem OptLeaves.map {o : Option α} {f : α → State} (h : ∀ x, o = some x → OptLeaves m (some (f x))) :
    OptLeaves m (o.map f) := by
  cases o with
  | none => exact optLeaves_none
  | some x => exact h x rfl

theorem Leaves.event {n : String} {r : Option State} (h : OptLeaves m r) : Leaves m (eventOf n r) := eventOf_leaves n r h

end

/-- Taking a message from the mail between a group and a marshal leaves memory alone. -/
theorem OptLeaves.nextMsg {s : State} {g : Nat} {up : Bool} {f : CvMsg × State → Option State} (h : ∀ m t, OptLeaves t.mem (f (m, t))) :
    OptLeaves s.mem ((s.nextMsg g up).bind f) := by
  refine .bind fun ⟨m, t⟩ hmt => ?_
  obtain ⟨_, -, hy⟩ := Option.map_eq_some_iff.1 hmt
  cases hy
  exact h _ _

/-! ## Instructions of threads (R98 to R305, R371 to R377, R423 to R434, R482 to R495) -/

section
variable {s : State} {w : BitVec 1}

/-- One write of thread registers. -/
theorem issue_putV_leaves {i : Info} {d : Nat} {f : Ctx → State → Nat → Word × Word} :
    Leaves s.mem (issue i (fun c u => u.putV c d (f c u)) s) :=
  issue_leaves _ _ _ fun _ _ => rfl

/-- One write of register pairs. -/
theorem issue_putV2_leaves {i : Info} {d : Nat} {f : Ctx → State → Nat → DWord} :
    Leaves s.mem (issue i (fun c u => u.putV2 c d (f c u)) s) :=
  issue_leaves _ _ _ fun _ _ => rfl

/-- One write of uniform registers. -/
theorem issue_putS_leaves {i : Info} {d : Nat} {f : Ctx → State → List Word} :
    Leaves s.mem (issue i (fun c u => u.putS c d (f c u)) s) :=
  issue_leaves _ _ _ fun _ _ => rfl

/-- One write of predicates. -/
theorem issue_putP_leaves {i : Info} {p : Nat} {f : Ctx → State → Nat → Bool × Word} :
    Leaves s.mem (issue i (fun c u => u.putP c p (f c u)) s) :=
  issue_leaves _ _ _ fun _ _ => rfl

/-- One result of variable latency. -/
theorem issue_startV_leaves {i : Info} {d : Nat} {f : Ctx → State → Nat → Word × Word} :
    Leaves s.mem (issue i (fun c u => u.startV c d (f c u)) s) :=
  issue_leaves _ _ _ fun _ _ => rfl

theorem memLoad_leaves {width : Nat} {sext : Bool} {d i : BitVec 7} {b : BitVec 4} {cf ro ef na : BitVec 1} :
    Leaves s.mem (memLoad width sext w d i b cf ro ef na s) :=
  issue_leaves _ _ _ fun _ _ => by simp

theorem memStore_leaves {width : Nat} {d i : BitVec 7} {b : BitVec 4} {ef na : BitVec 1} :
    Leaves s.mem (memStore width w d i b ef na s) :=
  issue_leaves _ _ _ fun _ _ => by simp

theorem atomic_leaves {op : Nat} {b : BitVec 2} {d i v : BitVec 7} : Leaves s.mem (atomic op w b d i v s) :=
  issueBy_leaves _ _ _ fun _ _ => by simp

theorem branchRel_leaves {o : BitVec 21} {f : Ctx → Nat → Bool} : Leaves s.mem (branchRel w o f s) :=
  issue_leaves _ _ _ fun _ _ => by simp

theorem copyForm_leaves {kind : Nat} {a : BitVec 10} : Leaves s.mem (copyForm kind w a s) :=
  issue_leaves _ _ _ fun _ _ => by
    split
    · rfl
    · dsimp only
      split <;> simp

theorem queueGet_leaves {kind : Nat} {a d : BitVec 10} : Leaves s.mem (queueGet kind w a d s) :=
  issue_leaves _ _ _ fun _ _ => by split <;> simp

theorem queuePut_leaves {kind : Nat} {a : BitVec 10} : Leaves s.mem (queuePut kind w a s) :=
  issue_leaves _ _ _ fun _ _ => by
    dsimp only
    split <;> simp

theorem xForm_leaves {func : Nat} {i : Info} {sa n : Nat} {check : State → Ctx → List Word → Option (Nat × Nat)} {rcd : List Word → Nat}
    {dst : List Word → Option Dst} : Leaves s.mem (xForm func i sa n check rcd dst s) :=
  issue_leaves _ _ _ fun c _ => by
    split
    · rfl
    · dsimp only
      split
      · simp
      · cases dst (c.rsn sa n) <;> simp

theorem execPref_leaves {i : BitVec 7} {b : BitVec 4} {r e n : BitVec 1} : Leaves s.mem (execPref w i b r e n s) :=
  issue_leaves _ _ _ fun c u => by
    dsimp only
    rw [retire_mem]
    split
    · exact plan_mem _ _ _ _ _ _ _
    · refine (foldl_mem _ _ _ fun v x => ?_).trans (plan_mem _ _ _ _ _ _ _)
      split <;> simp

theorem Placed.add_mem (p : Placed) (c : Ctx) (a : Word) (k : WCond) : (p.add c a k).st.mem = p.st.mem := by
  unfold Placed.add
  split
  · rfl
  · split <;> simp

theorem Placed.foldl_add_mem (c : Ctx) (xs : List ((Word × Word) × WCond)) (p : Placed) :
    (xs.foldl (fun p x => p.add c x.1.1 x.2) p).st.mem = p.st.mem := by
  induction xs generalizing p with
  | nil => rfl
  | cons x xs ih => rw [List.foldl_cons, ih, Placed.add_mem]

theorem execWait_leaves {d : BitVec 10} {b : BitVec 7} {n : BitVec 2} {al : BitVec 1} : Leaves s.mem (execWait w d b n al s) :=
  issue_leaves _ _ _ fun c u => by
    dsimp only
    split
    · simp
    · split
      · exact Placed.foldl_add_mem c _ _
      · rw [State.wake_mem]
        refine (foldl_mem _ _ _ fun v x => sendPoll_mem _ _ _ _ _ _ _).trans ?_
        rw [blockPath_mem]
        exact Placed.foldl_add_mem c _ _

theorem execCtxsw_leaves {a : BitVec 10} : Leaves s.mem (execCtxsw w a s) :=
  issue_leaves _ _ _ fun _ _ => by
    dsimp only
    (repeat' split) <;> simp

theorem execSafe_leaves {j p : BitVec 1} {n : BitVec 10} {v : BitVec 7} : Leaves s.mem (execSafe w j p n v s) :=
  issueHint_leaves _ _ _ fun _ _ => by simp

theorem execNop_leaves : Leaves s.mem (execNop w s) := by
  unfold execNop
  split
  · split
    · split
      · split
        · exact .next (seqNext_mem _ _)
        · exact .next (seqFault_mem _ _ _ _)
      · exact .fault _
    · exact .fault _
  · exact issueHint_leaves _ _ _ fun _ _ => rfl

end

/-! ## Words of the matrix stream (R343 to R370) -/

section
variable {s : State}

theorem execMmul_leaves {a o : BitVec 3} {m : BitVec 5} {v : BitVec 1} : Leaves s.mem (execMmul a o m v s) :=
  mxIssue_leaves _ _ fun _ _ _ => by split <;> simp

theorem execMgrp_leaves {a o : BitVec 3} {m : BitVec 5} : Leaves s.mem (execMgrp a o m s) :=
  mxIssue_leaves _ _ fun _ _ _ => by
    dsimp only
    (repeat' split) <;> simp

theorem execMret_leaves {a : BitVec 3} {f p : BitVec 2} {m : BitVec 5} {b : BitVec 4} : Leaves s.mem (execMret a f p m b s) :=
  mxIssue_leaves _ _ fun _ _ _ => by
    dsimp only
    (repeat' split) <;> simp

theorem execMretColl_leaves {a : BitVec 3} {f p : BitVec 2} {m : BitVec 5} : Leaves s.mem (execMretColl a f p m s) :=
  mxIssue_leaves _ _ fun _ _ _ => by
    dsimp only
    (repeat' split) <;> simp

end

/-! ## Events of groups and convoys -/

section
variable {s : State}

theorem execResultWriteback_leaves {g id : Nat} : Leaves s.mem (execResultWriteback g id s) :=
  .event (.bind fun _ _ => .bind fun _ _ => .map fun _ _ => optLeaves_some.2 rfl)

theorem execHandlerEntry_leaves {g : Nat} : Leaves s.mem (execHandlerEntry g s) :=
  .event (.bind fun _ _ => by dsimp only; (repeat' split) <;> simp)

theorem execWaitConditionMet_leaves {g id : Nat} : Leaves s.mem (execWaitConditionMet g id s) :=
  .event (.bind fun _ _ => by
    dsimp only
    split
    · split
      · simp
      · split
        · simp
        · exact .bind fun _ _ => by (repeat' split) <;> simp
    · simp)

theorem execWaitTimeout_leaves {g id : Nat} : Leaves s.mem (execWaitTimeout g id s) :=
  .event (.bind fun _ _ => by (repeat' split) <;> simp)

theorem execWaitPoll_leaves {g id k : Nat} : Leaves s.mem (execWaitPoll g id k s) :=
  .event (.bind fun _ _ => by (repeat' split) <;> simp)

theorem execBarrierWaitRelease_leaves {g id : Nat} : Leaves s.mem (execBarrierWaitRelease g id s) :=
  .event (.bind fun _ _ => by (repeat' split) <;> simp)

theorem execTagWaitRelease_leaves {g id : Nat} : Leaves s.mem (execTagWaitRelease g id s) :=
  .event (.bind fun _ _ => by (repeat' split) <;> simp)

theorem execRegisterBlockGrant_leaves {c p : Nat} : Leaves s.mem (execRegisterBlockGrant c p s) :=
  .event (by
    split
    · simp
    · split
      · exact .bind fun _ _ => .map fun _ _ => by simp
      · simp)

theorem execCvjoinRequest_leaves {g : Nat} : Leaves s.mem (execCvjoinRequest g s) :=
  .event (.nextMsg fun _ _ => by dsimp only; (repeat' split) <;> simp)

theorem execCvjoinAnswer_leaves {g : Nat} : Leaves s.mem (execCvjoinAnswer g s) :=
  .event (.nextMsg fun _ _ => by dsimp only; (repeat' split) <;> simp)

theorem execConvoyStepReport_leaves {g : Nat} : Leaves s.mem (execConvoyStepReport g s) :=
  .event (.nextMsg fun _ _ => by dsimp only; (repeat' split) <;> simp)

theorem execConvoyHoldReport_leaves {g : Nat} : Leaves s.mem (execConvoyHoldReport g s) :=
  .event (.nextMsg fun _ _ => by dsimp only; (repeat' split) <;> simp)

theorem execConvoyMinUpdate_leaves {g : Nat} : Leaves s.mem (execConvoyMinUpdate g s) :=
  .event (.nextMsg fun _ _ => by dsimp only; (repeat' split) <;> simp)

theorem execConvoyLeaveReport_leaves {g : Nat} : Leaves s.mem (execConvoyLeaveReport g s) :=
  .event (.nextMsg fun _ _ => by dsimp only; (repeat' split) <;> simp)

theorem execStragglerTimerExpiry_leaves {cv : Nat} : Leaves s.mem (execStragglerTimerExpiry cv s) :=
  .event (.bind fun _ _ => .bind fun _ _ => by
    split
    · simp
    · dsimp only
      split
      · simp
      · exact .map fun _ _ => by simp)

/-! ## Events of the memory system and the engines -/

theorem execSpoutRequestArrival_leaves {r : Nat} : Leaves s.mem (execSpoutRequestArrival r s) :=
  .event (.bind fun _ _ => by split <;> simp)

theorem execGrant_leaves {ch : Nat} : Leaves s.mem (execGrant ch s) :=
  .event (.bind fun ⟨v, c⟩ _ => by
    dsimp only
    split
    · split <;> simp
    · exact .map fun _ _ => by simp)

theorem execSpoutReplyMulticast_leaves {e : Nat} : Leaves s.mem (execSpoutReplyMulticast e s) :=
  .event (.bind fun _ _ => .map fun _ _ => by simp)

theorem execL1FillArrival_leaves {f : Nat} : Leaves s.mem (execL1FillArrival f s) :=
  .event (.bind fun _ _ => by (repeat' split) <;> simp)

theorem execFlush_leaves {c line k : Nat} : Leaves s.mem (execFlush c line k s) :=
  .event (.bind fun _ _ => by split <;> simp)

theorem execWriteCompletionReturn_leaves {r : Nat} : Leaves s.mem (execWriteCompletionReturn r s) :=
  .event (.bind fun _ _ => by split <;> simp)

theorem execFenceActionsEnd_leaves {g id : Nat} : Leaves s.mem (execFenceActionsEnd g id s) :=
  .event (.bind fun _ _ => .bind fun _ _ => by (repeat' split) <;> simp)

theorem execPeerAccessArrival_leaves {n : Nat} : Leaves s.mem (execPeerAccessArrival n s) :=
  .event (by
    split
    · split <;> simp
    · exact .bind fun _ _ => peerStep_mem s _)

theorem execCopyChunkRetire_leaves {c id : Nat} : Leaves s.mem (execCopyChunkRetire c id s) :=
  .event (.bind fun _ _ => by
    split
    · split <;> simp
    · exact .bind fun _ _ => by split <;> simp)

theorem execQueueCommandServe_leaves {d : Nat} : Leaves s.mem (execQueueCommandServe d s) :=
  .event (by
    split
    · simp
    · dsimp only
      split <;> simp)

theorem execSequencerWaitRelease_leaves {t : Nat} : Leaves s.mem (execSequencerWaitRelease t s) :=
  .event (.bind fun _ _ => by (repeat' split) <;> simp)

/-! ## Events of launches and pre-emption -/

theorem execSqDoorbellWrite_leaves {ep vf q v : Nat} : Leaves s.mem (execSqDoorbellWrite ep vf q v s) := by
  unfold execSqDoorbellWrite
  split
  · exact .next (updSubQ_mem _ _ _ _)
  · exact .next rfl

theorem execLaunchAccept_leaves : Leaves s.mem (execLaunchAccept s) :=
  .event (by
    split
    · (repeat' split) <;> simp
    · exact .map fun _ _ => by simp)

theorem execTeamPlacement_leaves : Leaves s.mem (execTeamPlacement s) :=
  .event (by
    split
    · exact .map fun _ _ => by simp
    · (repeat' split) <;> simp)

theorem execBackfillTimeout_leaves {l : Nat} : Leaves s.mem (execBackfillTimeout l s) :=
  .event (.bind fun _ _ => by split <;> simp)

theorem execLaunchDeadline_leaves {l : Nat} : Leaves s.mem (execLaunchDeadline l s) :=
  .event (.bind fun _ _ => by split <;> simp)

theorem execPreemptionRequest_leaves {t : Nat} : Leaves s.mem (execPreemptionRequest t s) :=
  .event (.bind fun _ _ => by split <;> simp)

theorem execPreemptionTimeout_leaves {t : Nat} : Leaves s.mem (execPreemptionTimeout t s) :=
  .event (.bind fun _ _ => by (repeat' split) <;> simp)

theorem execContextSave_leaves {t : Nat} : Leaves s.mem (execContextSave t s) :=
  .event (.bind fun _ _ => by (repeat' split) <;> simp)

theorem execTeamRestore_leaves {t : Nat} : Leaves s.mem (execTeamRestore t s) :=
  .event (by (repeat' split) <;> simp)

/-! ## Records, and what the host writes -/

theorem execCompletionRecordWrite_leaves {vf : Nat} : Leaves s.mem (execCompletionRecordWrite vf s) :=
  .event (writeRing_mem s vf true)

theorem execFaultRecordWrite_leaves {vf : Nat} : Leaves s.mem (execFaultRecordWrite vf s) :=
  .event (writeRing_mem s vf false)

theorem served_leaves {ep : Nat} {t : State} (h : t.mem = s.mem) : Leaves s.mem (s.served ep t) := by
  refine .next ?_
  split
  · exact h
  · rfl

theorem execFaultResponseWrite_leaves {ep vf v : Nat} : Leaves s.mem (execFaultResponseWrite ep vf v s) :=
  served_leaves (by simp)

theorem execHostShootdown_leaves {ep vf page n : Nat} : Leaves s.mem (execHostShootdown ep vf page n s) :=
  served_leaves (by simp)

theorem execShootdownComplete_leaves {n : Nat} : Leaves s.mem (execShootdownComplete n s) :=
  .event (.bind fun _ _ => by (repeat' split) <;> simp)

/-- A write with EN = 1 disables nothing, so it drains no ring (R446; log 36). -/
theorem writeVf_mem_of_on {vf x : Nat} (h : x % 2 = 1) : (s.writeVf vf x).mem = s.mem := by
  unfold State.writeVf
  simp only [h, beq_self_eq_true, if_true]
  (repeat' split) <;> rfl

theorem execFunctionEnable_leaves {ep vf v : Nat} : Leaves s.mem (execFunctionEnable ep vf v s) :=
  served_leaves (by
    split
    · exact writeVf_mem_of_on (by omega)
    · rfl)

theorem execQueueConfigWrite_leaves {ep q v own : Nat} : Leaves s.mem (execQueueConfigWrite ep q v own s) :=
  served_leaves (by simp)

theorem execStagingAreaSizeWrite_leaves {ep d v : Nat} : Leaves s.mem (execStagingAreaSizeWrite ep d v s) :=
  served_leaves (by split <;> rfl)

theorem execPowerLimitWrite_leaves {ep v : Nat} : Leaves s.mem (execPowerLimitWrite ep v s) :=
  served_leaves (by split <;> rfl)

theorem execAttestationRequest_leaves {ep v : Nat} : Leaves s.mem (execAttestationRequest ep v s) :=
  served_leaves rfl

/-! ## Bring-up, power and repair -/

theorem execDeviceReset_leaves : Leaves s.mem (execDeviceReset s) := .next (bootFrom_mem _)

theorem execRecoveryImageLoad_leaves {img sigs ver floor ep hz : Nat} : Leaves s.mem (execRecoveryImageLoad img sigs ver floor ep hz s) :=
  .event (by (repeat' split) <;> simp)

theorem execSupplySag_leaves {d v : Nat} : Leaves s.mem (execSupplySag d v s) := .event (by split <;> simp)

theorem execSupplyRecovery_leaves {d v : Nat} : Leaves s.mem (execSupplyRecovery d v s) := .event (by split <;> simp)

theorem execModulePowerExcess_leaves {v : Nat} : Leaves s.mem (execModulePowerExcess v s) := .next (foldl_mem _ _ _ fun _ _ => rfl)

theorem execArrayEccError_leaves {c k a b : Nat} : Leaves s.mem (execArrayEccError c k a b s) :=
  .event (by
    split
    · simp
    · split
      · simp
      · split
        · exact .bind fun _ _ => by (repeat' split) <;> simp
        · split
          · split <;> simp
          · split
            · split
              · split
                · exact laneError_mem s a b
                · simp
              · simp
            · (repeat' split) <;> simp)

theorem execCoreRetirement_leaves {c : Nat} : Leaves s.mem (execCoreRetirement c s) := .event (by split <;> simp)

theorem execHbmRowRemap_leaves {d r : Nat} : Leaves s.mem (execHbmRowRemap d r s) := .event (by split <;> simp)

theorem execHbmChannelSparing_leaves {st ch : Nat} : Leaves s.mem (execHbmChannelSparing st ch s) := .event (by split <;> simp)

theorem execLinkLaneFailure_leaves {p : Nat} : Leaves s.mem (execLinkLaneFailure p s) := .event (by split <;> simp)

theorem execFlitCrcError_leaves {p : Nat} : Leaves s.mem (execFlitCrcError p s) := .event (by split <;> simp)

theorem execPlaneOutOfService_leaves {p : Nat} : Leaves s.mem (execPlaneOutOfService p s) := .event (by split <;> simp)

/-! ## Events of the collective and assay objects -/

theorem execDroChunkArrival_leaves {n : Nat} : Leaves s.mem (execDroChunkArrival n s) :=
  .event (.map fun _ _ => by simp)

theorem execDroPartialArrival_leaves {n : Nat} : Leaves s.mem (execDroPartialArrival n s) :=
  .event (.map fun x _ => optLeaves_some.2 (droHandle_mem s n x _ fun u => by simp))

theorem execDroNodeDeadline_leaves {o p : Nat} : Leaves s.mem (execDroNodeDeadline o p s) := .event (by split <;> simp)

theorem execDroResultArrival_leaves {n : Nat} : Leaves s.mem (execDroResultArrival n s) :=
  .event (.map fun x _ => optLeaves_some.2 (droHandle_mem s n x _ fun u => by simp))

theorem execDroCorrectionArrival_leaves {n : Nat} : Leaves s.mem (execDroCorrectionArrival n s) :=
  .event (.bind fun x _ => by
    dsimp only
    split
    · simp
    · exact optLeaves_some.2 (droHandle_mem s n x _ fun u => by simp))

theorem execDroCorrectionWindowClose_leaves {o p : Nat} : Leaves s.mem (execDroCorrectionWindowClose o p s) :=
  .event (.bind fun _ _ => by split <;> simp)

theorem execDroVerdictArrival_leaves {n : Nat} : Leaves s.mem (execDroVerdictArrival n s) :=
  .event (.map fun x _ => optLeaves_some.2 (droHandle_mem s n x _ fun u => by simp))

theorem execDroCorrTimeout_leaves {o n : Nat} : Leaves s.mem (execDroCorrTimeout o n s) :=
  .event (.bind fun _ _ => by (repeat' split) <;> simp)

theorem execLinkRateExchange_leaves {d : Nat} : Leaves s.mem (execLinkRateExchange d s) := .event (by split <;> simp)

theorem execAsyBeginMarker_leaves {n : Nat} : Leaves s.mem (execAsyBeginMarker n s) :=
  .event (.map fun _ _ => optLeaves_some.2 (asyHandle_mem _ _ _))

theorem execAsyDataPacket_leaves {n : Nat} : Leaves s.mem (execAsyDataPacket n s) :=
  .event (.map fun _ _ => optLeaves_some.2 (asyHandle_mem _ _ _))

theorem execAsyEndMarker_leaves {n : Nat} : Leaves s.mem (execAsyEndMarker n s) :=
  .event (.map fun _ _ => optLeaves_some.2 (asyHandle_mem _ _ _))

theorem execAsyDeadline_leaves {d o : Nat} : Leaves s.mem (execAsyDeadline d o s) := .event (by split <;> simp)

theorem execAsyCorrectionWindowClose_leaves {d o : Nat} : Leaves s.mem (execAsyCorrectionWindowClose d o s) := .event (by split <;> simp)

/-! ## Host accesses, and words that are no instruction -/

theorem execHostMemoryAccess_leaves {ep vf w sec v : Nat} : Leaves s.mem (execHostMemoryAccess ep vf w sec v s) := by
  unfold execHostMemoryAccess
  split
  · exact .next rfl
  · refine .event ?_
    split
    · exact hostDone_mem s vf sec _ _
    · simp

theorem execReservedEncoding_leaves {v : Nat} : Leaves s.mem (execReservedEncoding v s) := by
  unfold execReservedEncoding
  split
  · split
    · split
      · exact .next (by simp)
      · exact .fault _
    · exact .fault _
  · exact issueHint_leaves _ _ _ fun c u => eachHints_mem _ _ _ fun d u => reservedPath_mem _ _ _

theorem execFetchBounds_leaves : Leaves s.mem (execFetchBounds s) := by
  unfold execFetchBounds
  split
  · split
    · split
      · exact .event (by split <;> simp)
      · exact .fault _
    · exact .fault _
  · split
    · refine .event ?_
      split
      · simp
      · exact optLeaves_some.2 (eachHints_mem _ _ _ fun d u => trapAt_mem _ _ _ _ _)
    · exact .fault _

theorem execCodeFetchFault_leaves : Leaves s.mem (execCodeFetchFault s) := by
  unfold execCodeFetchFault
  split
  · split
    · split
      · exact .event (.bind fun _ _ => by (repeat' split) <;> simp)
      · exact .fault _
    · exact .fault _
  · split
    · exact .fault _
    · refine .event ?_
      split
      · simp
      · split
        · rw [optLeaves_some, State.draw_mem, eachHints_mem _ _ _ fun d u => parkLanes_mem _ _ _]
          simp
        · rw [optLeaves_some, eachHints_mem _ _ _ fun d u => raise_mem _ _ _ _]
          simp
        · simp

end

/-! ## Every instruction and event but five leaves memory alone -/

/-- The five that reach memory: the arrival of a write, an atomic, and the host writes that can clear EN (R277, R282, R446, R449, R509). -/
def storesMemory : Instr → Bool
  | .writeArrival _ => true
  | .atom _ => true
  | .functionDisable _ _ _ => true
  | .configRegisterWrite _ _ _ _ => true
  | .moduleReplacement _ => true
  | _ => false

theorem storesMemory_cases {i : Instr} (h : storesMemory i = true) :
    (∃ n, i = .writeArrival n) ∨ (∃ n, i = .atom n) ∨ (∃ e v x, i = .functionDisable e v x) ∨
    (∃ e v r x, i = .configRegisterWrite e v r x) ∨ ∃ e, i = .moduleReplacement e := by
  unfold storesMemory at h
  split at h
  · exact .inl ⟨_, rfl⟩
  · exact .inr (.inl ⟨_, rfl⟩)
  · exact .inr (.inr (.inl ⟨_, _, _, rfl⟩))
  · exact .inr (.inr (.inr (.inl ⟨_, _, _, _, rfl⟩)))
  · exact .inr (.inr (.inr (.inr ⟨_, rfl⟩)))
  · cases h

/-- Every other instruction and event leaves device memory as it was. Most instructions of a thread stream are one update of their group, or
a check that picks between a trap and such an update. -/
theorem exec_leaves {s : State} {i : Instr} (h : storesMemory i = false) : Leaves s.mem (exec i s) := by
  cases i <;> dsimp only [exec]
  case addVr | addVs | addVi | subVr | subVs | subVi | mulVr | mulVs | mulVi | mulhiVr | mulhiVs | mulhiVi | mulhuVr | mulhuVs | mulhuVi |
    madVr | madVs | madVi | andVr | andVs | andVi | orVr | orVs | orVi | xorVr | xorVs | xorVi | andnVr | andnVs | andnVi | shlVr | shlVs |
    shlVi | shrVr | shrVs | shrVi | sraVr | sraVs | sraVi | srarVr | srarVs | srarVi | minVr | minVs | minVi | maxVr | maxVs | maxVi |
    minuVr | minuVs | minuVi | maxuVr | maxuVs | maxuVi | addsVr | addsVs | addsVi | subsVr | subsVs | subsVi | bfxVr | bfxVs | bfxVi |
    bfiVr | bfiVs | bfiVi | popc | clz | movVr | movVs | movVi | selVr | selVs | selVi | faddVr | faddVs | fsubVr | fsubVs | fmulVr | fmulVs
    | ffmaVr | ffmaVs | fminVr | fminVs | fmaxVr | fmaxVs | fabs | fneg | hadd2Vr | hadd2Vs | hsub2Vr | hsub2Vs | hmul2Vr | hmul2Vs |
    hfma2Vr | hfma2Vs | hdot2Vr | hdot2Vs | hmax2Vr | hmax2Vs | hmin2Vr | hmin2Vs | padd2sVr | padd2sVs | psub2sVr | psub2sVs | pmul2Vr |
    pmul2Vs | pmac2Vr | pmac2Vs | pmax2Vr | pmax2Vs | pmin2Vr | pmin2Vs | psrar2Vr | psrar2Vs | pack2sVr | pack2sVs | unpklo | unpkhi | stov
    | cvtfi | cvtfu | cvtif | cvtuf | cvtbf | cvtfbl | cvtfbh | cvthf | cvtfhl | cvtfhh | shfl | shfli | slup | sldn | bcst | matchv | ptov
    | pebpk | pebup | mvlk => exact issue_putV_leaves
  case add64Vr | add64Vs | sub64Vr | sub64Vs | shl64Vr | shl64Vs | shl64Vi | shr64Vr | shr64Vs | shr64Vi => exact issue_putV2_leaves
  case rcp | rsqrt | sqrt | exp2 | log2 | sinpi | cospi | tanh | frnd | radd | rfadd | rmax | rmin | scan | scanx =>
    exact issue_startV_leaves
  case sadd | ssub | smul | sand | sor | sxor | sshl | sshr | ssra | smin | smax | sminu | smaxu | smov | sadd64 | ssub64 | sfromv | sli |
    saddi | sandi | sori | sxori | sshli | sshri | ssrai | smuli | ballot | tmask | tcause | segget | clock | cycles =>
    exact issue_putS_leaves
  case cmpVv | cmpVs | cmpVi | pand | por | pxor | pnot | vtop => exact issue_putP_leaves
  case cvget | scmp | vany | vall | jset | jadd | jclr | jsetAct | jaddAct | jclrAct | ret | ldlk | join | barw | yield | orel | icinv |
    isync | pctr => exact issue_leaves _ _ _ fun _ _ => rfl
  case sget | sld | sst | bbind | call | bara | barx | tgwa | tgwl | tgff | tgclr | rbacq | rbrel | cvjoin | cvleave | fence | exit | jri |
    orsv | trap | tret | trep | segset | tlbinv | brk => exact issue_leaves _ _ _ fun _ _ => by simp
  case ldb | ldbs | ldh | ldhs | ldw | ldd | ldq => exact memLoad_leaves
  case stb | sth | stw | std | stq => exact memStore_leaves
  case aadd | amin | amax | aminu | amaxu | aand | aor | axor | axchg | acas | afadd | amaxpk | ahadd2 => exact atomic_leaves
  case br | bp | bnp | bq | bnq => exact branchRel_leaves
  case cpy | cpyg | cpys | cpyf => exact copyForm_leaves
  case qclaim | qtake | qstat => exact queueGet_leaves
  case qpub | qdone => exact queuePut_leaves
  case droOpen | droOpenStatus | droSend | droSendStatus | droClose | droCloseStatus | droMfst | droCorr | asyOpen | asyOpenStatus | asyPut
    | asyPutStatus | asySeal | asySealStatus | asyStat => exact xForm_leaves
  case imm | immhi | modh => exact issueHint_leaves _ _ _ fun _ _ => rfl
  case mclr | mbmap | mset | madd | mbnz => exact mxIssue_leaves _ _ fun _ _ _ => rfl
  case mld | mmulsm | marv | mwait | mtag | mend => exact mxIssue_leaves _ _ fun _ _ _ => by simp
  case pref => exact execPref_leaves
  case wait => exact execWait_leaves
  case mmul => exact execMmul_leaves
  case mgrp => exact execMgrp_leaves
  case mret => exact execMret_leaves
  case mretColl => exact execMretColl_leaves
  case ctxsw => exact execCtxsw_leaves
  case safe => exact execSafe_leaves
  case nop => exact execNop_leaves
  case resultWriteback => exact execResultWriteback_leaves
  case handlerEntry => exact execHandlerEntry_leaves
  case waitConditionMet => exact execWaitConditionMet_leaves
  case waitTimeout => exact execWaitTimeout_leaves
  case waitPoll => exact execWaitPoll_leaves
  case barrierWaitRelease => exact execBarrierWaitRelease_leaves
  case tagWaitRelease => exact execTagWaitRelease_leaves
  case registerBlockGrant => exact execRegisterBlockGrant_leaves
  case cvjoinRequest => exact execCvjoinRequest_leaves
  case cvjoinAnswer => exact execCvjoinAnswer_leaves
  case convoyStepReport => exact execConvoyStepReport_leaves
  case convoyHoldReport => exact execConvoyHoldReport_leaves
  case convoyMinUpdate => exact execConvoyMinUpdate_leaves
  case stragglerTimerExpiry => exact execStragglerTimerExpiry_leaves
  case convoyLeaveReport => exact execConvoyLeaveReport_leaves
  case spoutRequestArrival => exact execSpoutRequestArrival_leaves
  case grant => exact execGrant_leaves
  case spoutReplyMulticast => exact execSpoutReplyMulticast_leaves
  case l1FillArrival => exact execL1FillArrival_leaves
  case flush => exact execFlush_leaves
  case writeCompletionReturn => exact execWriteCompletionReturn_leaves
  case fenceActionsEnd => exact execFenceActionsEnd_leaves
  case peerAccessArrival => exact execPeerAccessArrival_leaves
  case copyChunkRetire => exact execCopyChunkRetire_leaves
  case queueCommandServe => exact execQueueCommandServe_leaves
  case sequencerWaitRelease => exact execSequencerWaitRelease_leaves
  case sqDoorbellWrite => exact execSqDoorbellWrite_leaves
  case launchAccept => exact execLaunchAccept_leaves
  case teamPlacement => exact execTeamPlacement_leaves
  case backfillTimeout => exact execBackfillTimeout_leaves
  case launchDeadline => exact execLaunchDeadline_leaves
  case preemptionRequest => exact execPreemptionRequest_leaves
  case preemptionTimeout => exact execPreemptionTimeout_leaves
  case contextSave => exact execContextSave_leaves
  case teamRestore => exact execTeamRestore_leaves
  case completionRecordWrite => exact execCompletionRecordWrite_leaves
  case faultRecordWrite => exact execFaultRecordWrite_leaves
  case faultResponseWrite => exact execFaultResponseWrite_leaves
  case hostShootdown => exact execHostShootdown_leaves
  case shootdownComplete => exact execShootdownComplete_leaves
  case functionEnable => exact execFunctionEnable_leaves
  case queueConfigWrite => exact execQueueConfigWrite_leaves
  case stagingAreaSizeWrite => exact execStagingAreaSizeWrite_leaves
  case powerLimitWrite => exact execPowerLimitWrite_leaves
  case attestationRequest => exact execAttestationRequest_leaves
  case deviceReset => exact execDeviceReset_leaves
  case recoveryImageLoad => exact execRecoveryImageLoad_leaves
  case supplySag => exact execSupplySag_leaves
  case supplyRecovery => exact execSupplyRecovery_leaves
  case modulePowerExcess => exact execModulePowerExcess_leaves
  case arrayEccError => exact execArrayEccError_leaves
  case coreRetirement => exact execCoreRetirement_leaves
  case hbmRowRemap => exact execHbmRowRemap_leaves
  case hbmChannelSparing => exact execHbmChannelSparing_leaves
  case linkLaneFailure => exact execLinkLaneFailure_leaves
  case flitCrcError => exact execFlitCrcError_leaves
  case planeOutOfService => exact execPlaneOutOfService_leaves
  case droChunkArrival => exact execDroChunkArrival_leaves
  case droPartialArrival => exact execDroPartialArrival_leaves
  case droNodeDeadline => exact execDroNodeDeadline_leaves
  case droResultArrival => exact execDroResultArrival_leaves
  case droCorrectionArrival => exact execDroCorrectionArrival_leaves
  case droCorrectionWindowClose => exact execDroCorrectionWindowClose_leaves
  case droVerdictArrival => exact execDroVerdictArrival_leaves
  case droCorrTimeout => exact execDroCorrTimeout_leaves
  case linkRateExchange => exact execLinkRateExchange_leaves
  case asyBeginMarker => exact execAsyBeginMarker_leaves
  case asyDataPacket => exact execAsyDataPacket_leaves
  case asyEndMarker => exact execAsyEndMarker_leaves
  case asyDeadline => exact execAsyDeadline_leaves
  case asyCorrectionWindowClose => exact execAsyCorrectionWindowClose_leaves
  case reservedEncoding => exact execReservedEncoding_leaves
  case fetchBounds => exact execFetchBounds_leaves
  case codeFetchFault => exact execCodeFetchFault_leaves
  case hostMemoryAccess => exact execHostMemoryAccess_leaves
  case partFailure => exact .next rfl
  case writeArrival | atom | functionDisable | configRegisterWrite | moduleReplacement => cases h

/-! ## What stores keeps the form -/

/-- A state with the same memory as one in the form has the form. -/
theorem State.Inv.of_mem {s t : State} (hs : s.Inv) (h : t.mem = s.mem) : t.Inv := by
  unfold State.Inv at hs ⊢
  rw [h]
  exact hs

section
variable {s t : State}

theorem eventOf_next {n : String} {r : Option State} (h : eventOf n r = .next t) : r = some t := by
  cases r with
  | none => cases h
  | some u => cases h; rfl

theorem execWriteArrival_inv {ch : Nat} (hs : s.Inv) (h : execWriteArrival ch s = .next t) : t.Inv := by
  obtain ⟨⟨v, c⟩, -, h⟩ := Option.bind_eq_some_iff.1 (eventOf_next h)
  dsimp only at h
  split at h
  · cases h
  · split at h
    · cases h
      exact State.storeSector_wf (s := s.takeAt ch v c) hs _ _ _ _
    · cases h

theorem execAtom_inv {ch : Nat} (hs : s.Inv) (h : execAtom ch s = .next t) : t.Inv := by
  obtain ⟨⟨v, c⟩, -, h⟩ := Option.bind_eq_some_iff.1 (eventOf_next h)
  dsimp only at h
  split at h
  · cases h
  · split at h
    · cases h
      exact State.atomStep_wf (s := s.takeAt ch v c) hs _ _ _ _ _ _ _
    · cases h

theorem served_inv {ep : Nat} {u : State} (hs : s.Inv) (hu : u.Inv) (h : s.served ep u = .next t) : t.Inv := by
  cases h
  split
  · exact hu
  · exact hs

theorem execFunctionDisable_inv {ep vf v : Nat} (hs : s.Inv) (h : execFunctionDisable ep vf v s = .next t) : t.Inv := by
  refine served_inv hs ?_ h
  split
  · exact writeVf_wf hs _ _
  · exact hs

theorem execConfigRegisterWrite_inv {ep vf r v : Nat} (hs : s.Inv) (h : execConfigRegisterWrite ep vf r v s = .next t) : t.Inv := by
  refine served_inv hs ?_ h
  split
  · exact hs
  · split
    · exact writeVf_wf hs _ _
    · exact hs.of_mem (by (repeat' split) <;> rfl)

theorem execModuleReplacement_inv {ep : Nat} (hs : s.Inv) (h : execModuleReplacement ep s = .next t) : t.Inv := by
  refine served_inv hs ?_ h
  refine State.Inv.of_mem (foldl_wf _ _ (fun u v hu => ?_) s hs) (foldl_mem _ _ _ fun _ _ => rfl)
  split
  · exact disable_wf hu v
  · exact hu

end

/-- Every instruction and event keeps the form, from every state that has it. -/
theorem exec_inv {i : Instr} {s t : State} (h : exec i s = .next t) (hs : s.Inv) : t.Inv := by
  cases hi : storesMemory i with
  | false => exact hs.of_mem (exec_leaves hi t h)
  | true =>
    rcases storesMemory_cases hi with ⟨n, rfl⟩ | ⟨n, rfl⟩ | ⟨e, v, x, rfl⟩ | ⟨e, v, r, x, rfl⟩ | ⟨e, rfl⟩
    · exact execWriteArrival_inv hs h
    · exact execAtom_inv hs h
    · exact execFunctionDisable_inv hs h
    · exact execConfigRegisterWrite_inv hs h
    · exact execModuleReplacement_inv hs h

/-! ## The schedule (R158, R165, R192, R345; log 1)

A choice that is no event reaches memory only through the instructions it runs, whatever gives them their meaning. -/

/-- A meaning of instructions and events that keeps memory in its form. -/
def KeepsForm (run : Instr → State → Result) : Prop := ∀ i s t, run i s = .next t → s.Inv → t.Inv

/-- What trying a path leaves, where it leaves a state, has memory in its form. -/
def Tried.Inv : Tried → Prop
  | .done _ t => t.Inv
  | .waits => True
  | .stays t => t.Inv

section
variable {run : Instr → State → Result} (hrun : KeepsForm run) {s : State}
include hrun

theorem State.tryPath_inv (hs : s.Inv) (g : Nat) (h : Bool) (pc m : Word) : (s.tryPath run g h pc m).Inv := by
  unfold State.tryPath
  dsimp only
  split
  · exact hs
  · rename_i c _
    have hf : (State.fetch { s with cur := .path g h pc m } c).2.Inv := hs.of_mem (fetch_mem _ _)
    split
    · exact hf
    · split
      · rename_i ht
        have ht := hrun _ _ _ ht hf
        split
        · split
          · split
            · trivial
            · exact State.Inv.of_mem hs (by (repeat' split) <;> simp)
          · exact hs
        · exact ht
      · exact hs

theorem State.tryPaths_inv (hs : s.Inv) (g : Nat) (ps : List (Bool × Word × Word)) : (s.tryPaths run g ps).Inv := by
  induction ps with
  | nil => exact hs
  | cons p ps ih =>
    obtain ⟨h, pc, m⟩ := p
    have hp := State.tryPath_inv hrun hs g h pc m
    unfold State.tryPaths
    split
    · exact ih
    · rename_i ht
      rw [ht] at hp
      exact hp
    · exact hp

theorem State.firstOf_inv (hs : s.Inv) (gs : List (Nat × Group)) : (s.firstOf run gs).1.Inv := by
  induction gs generalizing s with
  | nil => exact hs
  | cons x gs ih =>
    obtain ⟨g, G⟩ := x
    have hp := State.tryPaths_inv hrun hs g G.order
    unfold State.firstOf
    split
    · rename_i ht
      rw [ht] at hp
      exact hp
    · rename_i ht
      rw [ht] at hp
      exact ih hp
    · exact ih hs

theorem State.partner_inv (hs : s.Inv) {u t : State} {x : Issued} {gs : List (Nat × Group)} {k : Nat}
    (h : u.partner run s x gs = some (k, t)) : t.Inv := by
  have hf := State.firstOf_inv hrun hs gs
  unfold State.partner at h
  split at h
  · rename_i hu
    rw [hu] at hf
    split at h
    · cases h
      exact hf
    · cases h
  · cases h

theorem State.cycle_inv (hs : s.Inv) (c p : Nat) (pair : Bool) : (s.cycle run c p pair).Inv := by
  have hf := State.firstOf_inv hrun hs (s.slotOrder c p)
  unfold State.cycle
  split
  · rename_i ht
    rw [ht] at hf
    exact hf
  · rename_i ht
    rw [ht] at hf
    split
    · rename_i hu
      split at hu
      · exact State.Inv.of_mem (State.partner_inv hrun hf hu) (by simp)
      · cases hu
    · exact hf.of_mem (by simp)

theorem State.sequence_inv (hs : s.Inv) (t : Nat) : (s.sequence run t).Inv := by
  unfold State.sequence
  split
  · exact hs
  · rename_i T _
    have hf : (State.seqFetch { s with cur := .seq t } t T).2.Inv := hs.of_mem (seqFetch_mem _ _ _)
    dsimp only
    split
    · split
      · exact hf
      · split
        · rename_i ht
          exact State.Inv.of_mem (hrun _ _ _ ht hf) rfl
        · exact hs
    · exact hs

theorem choose_inv {t : State} {c : Choice} (h : State.choose run c s = .next t) (hs : s.Inv) : t.Inv := by
  cases c with
  | ev i => exact hrun i s t h hs
  | issue core part pair => cases h; exact State.cycle_inv hrun hs core part pair
  | seq n => cases h; exact State.sequence_inv hrun hs n
  | perform | part | copy | command | writes | tick | peerAck | prefetch | codeAhead | wordAhead | seqAhead | outside =>
    cases h
    exact hs.of_mem (by simp)

theorem stepWith_inv (hs : s.Inv) {t : State} (h : s.stepWith run = .next t) : t.Inv := by
  unfold State.stepWith at h
  dsimp only at h
  split at h
  · exact choose_inv hrun h (hs.of_mem rfl)
  · split at h
    · exact choose_inv hrun h (hs.of_mem rfl)
    · cases h
      exact State.Inv.of_mem (s := s) hs (pass_mem _ _)

end

/-- Settles O54: every instruction and event keeps the form, and so does each choice of the schedule that runs them. The canonical form
itself is the model's choice (log 8). -/
theorem memoryFormKeptByEveryStep : Obligations.MemoryFormKeptByEveryStep := by
  unfold Obligations.MemoryFormKeptByEveryStep
  intro s t hs h
  exact stepWith_inv (fun _ _ _ => exec_inv) hs h

end Sys2Proof.Machine
end

section
/-! PROOFS. The memory system: replies, completions and the horizon (R254, R273, R276, R277, R399), what its events leave, and that device
memory changes only through the five that store (R243, R277, R282, R446, R449, R509). -/

namespace Sys2Proof.Machine

/-! ## The home die (R273, R276, R399) -/

/-- A read of a sector that passes its check is answered with what the check delivered. -/
theorem State.answerOf_of_check {s : State} {key psec : Nat} {d : Delivered} (h : s.check key psec = some d) :
    s.answerOf key psec = (d.data, false) := by
  unfold State.answerOf
  rw [h]

/-- The raised horizon of a sector's line is the later of the old one and the new expiry: its place in the table does not move. -/
theorem State.horizon_raiseHorizon (s : State) (psec m : Nat) : (s.raiseHorizon psec m).horizon psec = max (s.horizon psec) m := by
  have hdie : (s.raiseHorizon psec m).die (homeDie psec) = { s.die (homeDie psec) with
      hor := (s.die (homeDie psec)).hor.put (s.horAt psec) (max (s.horizon psec) m) } := SMap.get_put_self _ _ _ _
  have hplace : (s.raiseHorizon psec m).horAt psec = s.horAt psec := rfl
  calc (s.raiseHorizon psec m).horizon psec
      = ((s.raiseHorizon psec m).die (homeDie psec)).hor.get ((s.raiseHorizon psec m).horAt psec) 0 := rfl
    _ = max (s.horizon psec) m := by rw [hdie, hplace]; exact SMap.get_put_self _ _ _ _

/-! ## What comes back (R254, R277) -/

/-- The copy that is next to arrive reaches the instruction cache that asked for its code, its engine, or the path that waits for its word,
for which it is an evaluation instant (R196). -/
theorem exec_l1FillArrival_replies {s : State} {n : Nat} {k : Copy} (hk : s.copies.find? (·.id == n) = some k) (hn : s.copyNext k = true) :
    let t := ({ s with copies := s.copies.filter (·.id != n) } : State).firstCopy k
    (∀ core id, k.req.src = .code core id → exec (.l1FillArrival n) s = .next (t.codeArrives k core id)) ∧
    (∀ x, k.req.src = .eng x → exec (.l1FillArrival n) s = .next (t.engReply k x)) ∧
    ∀ g b i j, k.req.src = .wait g b i j → exec (.l1FillArrival n) s = .next (t.waitArrives k g b i j).wake := by
  rw [show exec (.l1FillArrival n) s = execL1FillArrival n s from rfl]
  unfold execL1FillArrival
  rw [hk, Option.bind_some, if_pos hn]
  refine ⟨fun core id hs => ?code, fun x hs => ?engine, fun g b i j hs => ?wait⟩
  all_goals rw [hs]; rfl

/-- The completion that is next to arrive leaves those on their way, and completes. -/
theorem exec_writeCompletionReturn {s : State} {n : Nat} {d : Done} (hd : s.dones.find? (·.id == n) = some d) (hn : s.doneNext d = true) :
    exec (.writeCompletionReturn n) s = .next (({ s with dones := s.dones.filter (·.id != n) } : State).completes d) := by
  show execWriteCompletionReturn n s = _
  unfold execWriteCompletionReturn
  rw [hd, Option.bind_some, if_pos hn]
  rfl

/-! ## The statements -/

/-- Settles O40: one clause for each event. The blocked path of a release is log 11, the flags taken back log 54, and the replies of the
engines log 17. -/
theorem memorySystemEvents : Obligations.MemorySystemEvents := by
  unfold Obligations.MemorySystemEvents
  intro s n p q
  refine ⟨?arrival, ?grant, ?answer, ?horizon, ?wait, ?whole, ?masked, ?writeFails, ?atom, ?atomFails, ?multicast, ?idleUnit, ?fill, ?reply,
    ?flush, ?completion, ?back, ?release, ?releaseError, ?acquire⟩
  case arrival => exact arr_spec
  case grant => intro v c x e hv hx he; exact grant_event hv hx he
  case answer => intro k e d; exact State.answerOf_of_check
  case horizon => exact State.horizon_raiseHorizon s
  case wait => intro v c r; exact grant_wait
  case whole => intro v c r hv hr m x; exact write_whole hv hr
  case masked => intro v c r hv hr m x d; exact write_event hv hr
  case writeFails => intro v c r hv hr m x; exact write_fail hv hr
  case atom => intro v c r hv hr op w a x y d; exact atom_event hv hr
  case atomFails => intro v c r hv hr op w a x y; exact atom_fail hv hr
  case multicast => intro d u x w b t; exact multi_event
  case idleUnit => intro d u x w b t; exact multi_idle
  case fill => intro k hk hn t core id; exact fill_event hk hn
  case reply =>
    intro k hk hn
    obtain ⟨hcode, hengine, hwait⟩ := exec_l1FillArrival_replies hk hn
    exact ⟨hcode, hengine, fun g b i j hs => ⟨_, State.wake_spec _, hwait g b i j hs⟩⟩
  case flush => intro k L; exact flush_event
  case completion => intro d; exact exec_writeCompletionReturn
  case back => intro d core gs; exact back_done
  case release => intro G a hG hen ha sc; exact rel_end hG hen ha
  case releaseError => intro G a hG hen ha sc b; exact rel_err hG hen ha
  case acquire => intro G a hG hen ha sc; exact acq_end hG hen ha

/-- Settles O55: an instruction or event that is not one of the five leaves memory as it was, and so every byte of it. -/
theorem onlyStoresChangeMemory : Obligations.OnlyStoresChangeMemory := by
  unfold Obligations.OnlyStoresChangeMemory
  intro i s t h
  cases hi : storesMemory i with
  | false => exact .inl (State.byteAt_mem (exec_leaves hi t h))
  | true => exact .inr (storesMemory_cases hi)

end Sys2Proof.Machine
end

section
/-! PROOFS. Convoys: the C loads of an attached group, and the steps of the marshals (R261 to R267, R303, R304). -/

namespace Sys2Proof.Machine

/-! ## C loads of an attached group (R263, R264) -/

section
variable {w : BitVec 1} {d i : BitVec 7} {b : BitVec 4} {ro ef na : BitVec 1} {s t : State} {c : Ctx} (width : Nat) (sext : Bool)
  (h : Issues {
    w := flag1 w
    var := true
    imm := true
    mods := modSCP ||| modORD ||| modLC3
    ords := [0, 1]
    regs := [.v d.toNat (max 1 (width / 4)) (max 1 (width / 4)), .v i.toNat 1 1] } s c t)
include h

/-- A C load of an attached group that is not held sends what it asks, and counts a step exactly where some lane of its path has not been
given the step of this load (R263). -/
theorem memLoad_steps (ha : c.G.cvm.state = 1) (hh : t.holds c.G = false)
    (hg : ((c.loadAsked width sext d i b 1).plan c t).goes (c.G.bufRec b.toNat))
    (hp : ((c.loadAsked width sext d i b 1).plan c t).peer = false) :
    ((∃ l, c.has l = true ∧ (c.G.lane l).cstep ≠ some c.pc) →
      ∃ u, Sends c t (c.loadAsked width sext d i b 1) (.next u) ∧
        memLoad width sext w d i b 1 ro ef na s = .next { u.updGroup c.g (fun G => G.stepped c.mask c.pc) with
          cvMsgs := u.cvMsgs ++ [u.mailFrom c.G c.G.cvm.id (some 128) (.step c.g c.G.cvm.id)] }) ∧
    ((∀ l, c.has l = true → (c.G.lane l).cstep = some c.pc) →
      Sends c t (c.loadAsked width sext d i b 1) (memLoad width sext w d i b 1 ro ef na s)) := by
  unfold memLoad
  rw [h.issue]
  exact cload_spec h.found (c.loadAsked width sext d i b 1) rfl rfl rfl rfl rfl ha hh hg hp

/-- A C load of a group that must be held waits in front of itself, and the group reports the hold that begins (R264). -/
theorem memLoad_holds (hh : t.holds c.G = true) (hd : c.G.cvm.held = false) (hs : t.stopping c.G.team = false) :
    memLoad width sext w d i b 1 ro ef na s = .next { t.updGroup c.g (fun G => { G with cvm := { G.cvm with held := true } }) with
      cvMsgs := t.cvMsgs ++ [t.mailFrom c.G c.G.cvm.id none (.hold c.g c.G.cvm.id)] } := by
  unfold memLoad
  rw [h.issue]
  exact hload_spec hh hd hs

end

/-- Settles O20: each form is `memLoad` of its width and its sign, which sends and counts its step, or is held. -/
theorem convoyLoads : Obligations.ConvoyLoads := by
  unfold Obligations.ConvoyLoads
  intro s t c w d i b ro ef na
  refine ⟨memLoad_steps 1 false, memLoad_steps 1 true, memLoad_steps 2 false, memLoad_steps 2 true, memLoad_steps 4 false,
    memLoad_steps 8 false, memLoad_steps 16 false, ?ldb, ?ldbs, ?ldh, ?ldhs, ?ldw, ?ldd, ?ldq⟩
  case ldb => intro h _; exact memLoad_holds 1 false h
  case ldbs => intro h _; exact memLoad_holds 1 true h
  case ldh => intro h _; exact memLoad_holds 2 false h
  case ldhs => intro h _; exact memLoad_holds 2 true h
  case ldw => intro h _; exact memLoad_holds 4 false h
  case ldd => intro h _; exact memLoad_holds 8 false h
  case ldq => intro h _; exact memLoad_holds 16 false h

/-! ## Joins (R261, R262, R303) -/

/-- The marshal of a key sends group `g` the answer to its join (R262, R303): the new CVM of the group, with min. -/
def State.answered (t : State) (g : Nat) (key : DWord) (cvm : Cvm) (mn : Nat) : State :=
  { t with cvMsgs := t.cvMsgs ++ [t.mailTo g (256 * marshalDie key) none (.answer g cvm mn)] }

/-- The marshal refuses the join of group `g` with a code, which leaves the rest of its CVM as it was (R303). -/
def State.refused (t : State) (g : Nat) (key : DWord) (G : Group) (code : Nat) : State :=
  t.answered g key { G.cvm with
    rej := true
    rcode := code } G.minp

section
variable {t : State} {g n : Nat} {G : Group} {d : List Word} {key : DWord} {slip tout : Nat}

/-- A join that reaches its marshal, no expiry of its convoy coming first, is what the marshal makes of it (R262, R265). -/
theorem exec_cvjoinRequest {s : State} {x : Nat} (hm : s.nextMsg g true = some (.joinReq x, t)) (hG : s.group? g = some G)
    (hd : G.joinDesc = some d) (hk : cvDesc d = some (key, slip, n, tout)) (ho : ∀ k, t.convoyFor d = some k → t.onTime k = true) :
    exec (.cvjoinRequest g) s = .next (t.marshalJoin g G d) := by
  refine joinReq_spec hm hG hd hk ho ?_
  unfold State.marshalJoin
  rewrite [hk]
  rfl

variable (hk : cvDesc d = some (key, slip, n, tout))
include hk

section
variable (hnone : (t.die (marshalDie key)).convoyOf key = none)
include hnone

/-- A key that has no convoy opens one at the lowest free index, with the joiner for its first member (R262). -/
theorem State.marshalJoin_opens {k : Nat} (hfree : (t.die (marshalDie key)).convoys.freeFrom 256 0 = some k) (hlt : k < 256) :
    t.marshalJoin g G d = (t.putConvoy (256 * marshalDie key + k) ⟨key, slip, n, tout, [⟨g, 0, true, false⟩], false, none⟩).answered g key
      (cvAccept (256 * marshalDie key + k) 0) 0 := by
  simp only [State.marshalJoin, hk, hnone, hfree, ge_iff_le, Nat.not_le.2 hlt, ↓reduceIte]
  rfl

/-- A key that has no convoy is refused with code 1 where no index is free (R303). -/
theorem State.marshalJoin_noIndex (hfree : (t.die (marshalDie key)).convoys.freeFrom 256 0 = none) :
    t.marshalJoin g G d = t.refused g key G 1 := by
  simp only [State.marshalJoin, hk, hnone, hfree]
  rfl

end

section
variable {k : Nat} {v : Convoy} (hv : (t.die (marshalDie key)).convoyOf key = some (k, v))
include hv

/-- A group that is a member already is refused with code 5 (R303). -/
theorem State.marshalJoin_member (hmem : v.mem.any (·.guid == g) = true) : t.marshalJoin g G d = t.refused g key G 5 := by
  simp only [State.marshalJoin, hk, hv, hmem, ↓reduceIte]
  rfl

variable (hmem : v.mem.any (·.guid == g) = false)
include hmem

/-- A convoy that the straggler timer has closed refuses with code 4 (R303). -/
theorem State.marshalJoin_closed (hc : v.closed = true) : t.marshalJoin g G d = t.refused g key G 4 := by
  simp only [State.marshalJoin, hk, hv, hmem, hc, Bool.false_eq_true, ↓reduceIte]
  rfl

variable (hc : v.closed = false)
include hc

/-- A join whose slip limit, count or time-out is not the convoy's is refused with code 3 (R303). -/
theorem State.marshalJoin_mismatch (hne : v.slip ≠ slip ∨ v.count ≠ n ∨ v.tout ≠ tout) : t.marshalJoin g G d = t.refused g key G 3 := by
  simp only [State.marshalJoin, hk, hv, hmem, hc, hne, Bool.false_eq_true, ↓reduceIte]
  rfl

variable (hslip : v.slip = slip) (hn : v.count = n) (htout : v.tout = tout)
include hslip hn htout

/-- A convoy of as many members as its count refuses with code 2 (R303). -/
theorem State.marshalJoin_full (hfull : n ≤ v.mem.length) : t.marshalJoin g G d = t.refused g key G 2 := by
  subst hslip hn htout
  simp only [State.marshalJoin, hk, hv, hmem, hc, ge_iff_le, hfull, ne_eq, not_true_eq_false, or_self, Bool.false_eq_true, ↓reduceIte]
  rfl

/-- A convoy with an empty slot takes the joiner as its next member, at position 0 (R262, R263). -/
theorem State.marshalJoin_joins (hroom : v.mem.length < n) :
    t.marshalJoin g G d = (t.putConvoy (256 * marshalDie key + k) { v with mem := v.mem ++ [⟨g, 0, true, false⟩] }).answered g key
      (cvAccept (256 * marshalDie key + k) v.mem.length) (v.min?.getD 0) := by
  subst hslip hn htout
  simp only [State.marshalJoin, hk, hv, hmem, hc, ge_iff_le, Nat.not_le.2 hroom, ne_eq, not_true_eq_false, or_self, Bool.false_eq_true,
    ↓reduceIte]
  rfl

end

end

/-! ## Reports to a marshal (R263 to R265, R304) -/

section
variable {s t : State} {g x i : Nat} {v : Convoy} (hon : t.onTime i = true) (hv : t.convoy? i = some v)
include hon hv

/-- A step advances its member and ends its hold, and the convoy is settled (R263, R264). -/
theorem exec_convoyStepReport (hm : s.nextMsg g true = some (.step x i, t)) :
    exec (.convoyStepReport g) s = .next (t.settle i v.min? (v.updMember g fun x => { x with
      pos := x.pos + 1
      held := false })) := by
  show execConvoyStepReport g s = _
  simp only [execConvoyStepReport, hm, Option.bind_some, hon, Bool.not_true, Bool.false_eq_true, ↓reduceIte, hv]
  rfl

/-- A leave detaches its member, and the convoy is settled (R267, R304). -/
theorem exec_convoyLeaveReport (hm : s.nextMsg g true = some (.leave x i, t)) :
    exec (.convoyLeaveReport g) s = .next (t.settle i v.min? (v.updMember g fun x => { x with
      att := false
      held := false })) := by
  show execConvoyLeaveReport g s = _
  simp only [execConvoyLeaveReport, hm, Option.bind_some, hon, Bool.not_true, Bool.false_eq_true, ↓reduceIte, hv]
  rfl

/-- The hold of an attached member is noted, and arms a timer that is not armed (R264, R265). -/
theorem exec_convoyHoldReport (hm : s.nextMsg g true = some (.hold x i, t)) (hatt : (v.mem.any fun x => x.guid == g && x.att) = true) :
    exec (.convoyHoldReport g) s = .next (t.putConvoy i (if v.timer = none ∧ v.tout ≠ 0
      then { (v.updMember g fun x => { x with held := true }) with timer := some (t.now + v.tout) }
      else v.updMember g fun x => { x with held := true })) := by
  rw [← hold_spec]
  show execConvoyHoldReport g s = _
  simp only [execConvoyHoldReport, hm, Option.bind_some, hon, Bool.not_true, Bool.false_eq_true, ↓reduceIte, hv, hatt]
  rfl

end

/-! ## What a marshal tells a group (R264, R266, R303) -/

section
variable {s t : State} {g x i n e : Nat} {G : Group} (hG : s.group? g = some G)
include hG

/-- Taking a message off its way leaves the groups as they are. -/
theorem State.group?_nextMsg {up : Bool} {m : CvMsg} (hm : s.nextMsg g up = some (m, t)) : t.group? g = some G := by
  obtain ⟨_, _, rfl⟩ := nextMsg_st hm
  exact hG

/-- A new min of its convoy raises an attached member's min, and ends its hold where the hold test now lets it go (R264). -/
theorem exec_convoyMinUpdate_min (hm : s.nextMsg g false = some (.min_ x i n, t)) (ha : G.cvm.state = 1) (hi : G.cvm.id = i) :
    exec (.convoyMinUpdate g) s = .next { t with groups := SMap.put t.groups g { G with
      minp := max G.minp n
      cvm := { G.cvm with held := G.cvm.held && t.holds { G with minp := max G.minp n } } } } := by
  show execConvoyMinUpdate g s = _
  simp only [execConvoyMinUpdate, hm, Option.bind_some, State.updGroup_some (State.group?_nextMsg hG hm)]
  rw [if_pos ⟨ha, hi⟩]
  rfl

/-- The detach by the straggler timer reaches its group, which takes it as of the tick of the expiry; waits are looked at (R266, log 45). -/
theorem exec_convoyMinUpdate_out (hm : s.nextMsg g false = some (.out x i e, t)) :
    exec (.convoyMinUpdate g) s = .next ({ t with groups := SMap.put t.groups g (G.timeOut i e) } : State).wake := by
  show execConvoyMinUpdate g s = _
  simp only [execConvoyMinUpdate, hm, Option.bind_some, State.updGroup_some (State.group?_nextMsg hG hm)]
  rfl

end

/-! ## The straggler timer (R265, R266, log 68) -/

section
variable {s : State} {cv e : Nat} {v : Convoy} (hv : s.convoy? cv = some v) (ht : v.timer = some e) (he : e < s.now)
include hv ht he

/-- An expiry with a slot still empty closes the convoy at the members that it has (R266). -/
theorem exec_stragglerTimerExpiry_closes (hempty : v.empty = true) :
    exec (.stragglerTimerExpiry cv) s = .next ((s.settle cv v.min? { v with
      timer := none
      closed := true
      count := v.mem.length }).rearm cv e) := by
  have hempty' : ({ v with timer := none } : Convoy).empty = true := hempty
  show execStragglerTimerExpiry cv s = _
  simp only [execStragglerTimerExpiry, hv, Option.bind_some, ht, overdue ht he, Bool.not_true, Bool.false_eq_true, ↓reduceIte, hempty']
  rfl

/-- An expiry with no slot empty detaches the straggler, and the marshal tells it so (R266, R303, log 45). -/
theorem exec_stragglerTimerExpiry_detaches {y : Member} (hfull : v.empty = false) (hy : v.straggler = some y) :
    exec (.stragglerTimerExpiry cv) s = .next ((({ s with cvMsgs := s.cvMsgs ++ [s.mailTo y.guid cv none (.out y.guid cv e)] } : State).settle cv v.min?
      (({ v with timer := none } : Convoy).updMember y.guid fun z => { z with
        att := false
        held := false })).rearm cv e) := by
  have hfull' : ({ v with timer := none } : Convoy).empty = false := hfull
  have hy' : ({ v with timer := none } : Convoy).straggler = some y := hy
  show execStragglerTimerExpiry cv s = _
  simp only [execStragglerTimerExpiry, hv, Option.bind_some, ht, overdue ht he, Bool.not_true, Bool.false_eq_true, ↓reduceIte, hfull', hy',
    Option.map_some]
  rfl

end

/-- Settles O39: one clause for each answer to a join and for each message or expiry. That the straggler hears of its detach by a message,
dated by the expiry, is log 45, and that an expiry is handled once its tick is over, log 68: both are the model's choices. -/
theorem convoyMessages : Obligations.ConvoyMessages := by
  unfold Obligations.ConvoyMessages
  intro s t g x i e n mn G d key slip tout cv
  refine ⟨?opens, ?noIndex, ?member, ?closed, ?mismatch, ?full, ?joins, ?answer, ?step, ?leave, ?hold, ?min, ?out, ?closes, ?detaches⟩
  case opens =>
    intro hm hG hd hk ho hnone k hfree hlt
    rw [exec_cvjoinRequest hm hG hd hk ho, State.marshalJoin_opens hk hnone hfree hlt]
    rfl
  case noIndex =>
    intro hm hG hd hk ho hnone hfree
    rw [exec_cvjoinRequest hm hG hd hk ho, State.marshalJoin_noIndex hk hnone hfree]
    rfl
  case member =>
    intro hm hG hd hk ho k v hv hmem
    rw [exec_cvjoinRequest hm hG hd hk ho, State.marshalJoin_member hk hv hmem]
    rfl
  case closed =>
    intro hm hG hd hk ho k v hv hmem hc
    rw [exec_cvjoinRequest hm hG hd hk ho, State.marshalJoin_closed hk hv hmem hc]
    rfl
  case mismatch =>
    intro hm hG hd hk ho k v hv hmem hc hne
    rw [exec_cvjoinRequest hm hG hd hk ho, State.marshalJoin_mismatch hk hv hmem hc hne]
    rfl
  case full =>
    intro hm hG hd hk ho k v hv hmem hc hslip hn htout hfull
    rw [exec_cvjoinRequest hm hG hd hk ho, State.marshalJoin_full hk hv hmem hc hslip hn htout hfull]
    rfl
  case joins =>
    intro hm hG hd hk ho k v hv hmem hc hslip hn htout hroom
    rw [exec_cvjoinRequest hm hG hd hk ho, State.marshalJoin_joins hk hv hmem hc hslip hn htout hroom]
    rfl
  case answer => intro hm hG; exact answer_spec hm hG
  case step => intro hm hon v hv; exact ⟨_, settle_spec _ _ _ _, exec_convoyStepReport hon hv hm⟩
  case leave => intro hm hon v hv; exact ⟨_, settle_spec _ _ _ _, exec_convoyLeaveReport hon hv hm⟩
  case hold => intro hm hon v hv hatt; exact exec_convoyHoldReport hon hv hm hatt
  case min => intro hm hG ha hi; exact exec_convoyMinUpdate_min hG hm ha hi
  case out => intro hm hG; exact ⟨_, State.wake_spec _, exec_convoyMinUpdate_out hG hm⟩
  case closes =>
    intro cv v e hv ht he hempty
    exact ⟨_, settle_spec _ _ _ _, exec_stragglerTimerExpiry_closes hv ht he hempty⟩
  case detaches =>
    intro cv v e y hv ht he hfull hy
    exact ⟨_, settle_spec _ _ _ _, exec_stragglerTimerExpiry_detaches hv ht he hfull hy⟩

end Sys2Proof.Machine
end

section
/-! PROOFS. The epilogue of a tile (R283, R354, R356, R357, R367, R454). -/

namespace Sys2Proof.Machine

/-- Planning an access leaves the teams. -/
@[simp] theorem plan_team? (s : State) (core : Nat) (G : Group) (r : QWord) (width : Nat) (w : Want) (idx : List (Nat × Int)) (n : Nat) :
    (s.plan core G r width w idx).st.team? n = s.team? n := by
  unfold State.team?
  rw [plan_teams]

/-! ## A chunk on its way (R454) -/

/-- A sequencer's chunk has left: to this device's own objects, or over the links. -/
def State.chunkSent (s : State) (c : Chunk) : State :=
  { s with
    chunks := if c.dev = s.devId then s.chunks ++ [c] else s.chunks
    chunkOut := if c.dev = s.devId then s.chunkOut else s.chunkOut ++ [c] }

/-- The model sends a chunk by a choice between two updates; each changes one of the two lists. -/
theorem State.ite_dev_eq_chunkSent (s : State) (c : Chunk) :
    (if c.dev = s.devId then { s with chunks := s.chunks ++ [c] } else { s with chunkOut := s.chunkOut ++ [c] }) = s.chunkSent c := by
  unfold State.chunkSent
  split <;> rfl

/-- Sending a chunk leaves the teams. -/
@[simp] theorem State.chunkSent_team? (s : State) (c : Chunk) (n : Nat) : (s.chunkSent c).team? n = s.team? n := rfl

/-- The chunk of tile `a` of team `n`, which is `T`, for the object that its DRT names (R357, R454). -/
def State.tileChunk (s : State) (n : Nat) (T : Team) (r : LaunchRec) (a fmt : Nat) (e : Epi) : Chunk :=
  ⟨s.devId, T.drt.toNat / 2 ^ 10 % 2 ^ 12, dieOf T.core, T.drt.toNat % 256, T.vf, r.chunkOf T.x a, fmt, e.vals, some n, none⟩

/-! ## The words where their checks pass (R367) -/

section
variable {s : State} {n : Nat} {T : Team} {a : BitVec 3} {f p : BitVec 2} {m : BitVec 5}

/-- `mret` to memory, where k and the records pass their checks, goes to its stores: the plan of the main record is made first, and that
of the side record in the state it leaves. -/
theorem Sequences.mret {b : BitVec 4} (h : Sequences s n T) (hk : m.toNat ≤ 28)
    (hrecs : mretRecs f.toNat ((s.seqGroup n T).bufRec b.toNat) ((s.seqGroup n T).bufRec (b.toNat + 1)) = true) :
    let G := s.seqGroup n T
    let reg := fun i => (T.seq.reg (m.toNat + i)).toNat
    let e := T.seq.epilogue a.toNat f.toNat p.toNat (reg 0) (reg 1) (reg 2) (reg 3)
    let p0 := s.plan T.core G (G.bufRec b.toNat) (if f = 0 then 4 else if f = 1 then 2 else 1) .write (numbered e.main)
    let p1 := p0.st.plan T.core G (G.bufRec (b.toNat + 1)) 1 .write (numbered e.side)
    execMret a f p m b s = .next (s.mretStores n T a.toNat e (G.bufRec b.toNat) (G.bufRec (b.toNat + 1)) p0 p1) := by
  dsimp only
  rw [execMret, h.mx]
  dsimp only
  rw [if_neg (by omega), if_neg (by rw [hrecs]; decide)]

/-- `mret … coll`, where its checks pass: once the object has accepted the chunk the tile is retired, and until then the chunk is on its
way (R357). -/
theorem Sequences.mretColl {r : LaunchRec} (h : Sequences s n T) (hk : m.toNat ≤ 28) (hr : s.recOf T = some r)
    (hbound : r.tmask.testBit a.toNat = true) (hfmt : f.toNat = r.ctype) :
    let e := T.seq.epilogue a.toNat f.toNat 0 (T.seq.reg m.toNat).toNat 0 0 0
    execMretColl a f p m s = .next
      (if T.seq.chunks = 2 then s.seqThen n fun q => { q.retire a.toNat e with chunks := 0 }
       else (s.chunkSent (s.tileChunk n T r a.toNat f.toNat e)).updSeq n fun q => { q with chunks := 1 }) := by
  dsimp only
  rw [execMretColl, h.mx, hr]
  dsimp only
  rw [if_neg (by omega), if_neg (by simp [hbound, hfmt]), ← State.ite_dev_eq_chunkSent]
  rfl

end

/-- Settles O35: the plans leave the teams, so the stores of `mret` find the team as it was and change its completion time and write
error alone; `mret … coll` is read off its one equation, before and after the object's answer. That stream registers are read as
unsigned words and the records are those of group 0 is log 24, and that the stores carry class and budget of their record, log 25:
both are the model's choices. -/
theorem epilogueWords : Obligations.EpilogueWords := by
  unfold Obligations.EpilogueWords
  intro s n T a f p m b
  refine ⟨?mret, ?collSends, ?collRetires⟩
  case mret =>
    intro h hk
    dsimp only
    intro hrecs hoob hoob' hfaults hfaults'
    show ∃ U, _ ∧ _ ∧ SeqGoes n _ U _ (execMret a f p m b s)
    rw [h.mret hk hrecs]
    refine mret_gen n T a.toNat _ _ _ _ _ hoob hoob' hfaults hfaults' ?_
    rw [plan_team?, plan_team?]
    exact h.2.1
  case collSends =>
    intro h hwait hk r hr hbound hfmt
    show execMretColl a f p m s = _
    rw [h.mretColl hk hr hbound hfmt, if_neg (by omega), updSeq_eq ((State.chunkSent_team? ..).trans h.2.1)]
    rfl
  case collRetires =>
    intro h htaken hk r hr hbound hfmt
    show SeqGoes n s T _ (execMretColl a f p m s)
    rw [h.mretColl hk hr hbound hfmt, if_pos htaken]
    exact seqThen_spec h.2.1 _

end Sys2Proof.Machine
end

section
/-! PROOFS. Atomics, and the commands of the copy engine, of the queues, of the Drover and of the Assayer (R294 to R298, R314 to R325, R342,
R371 to R377, R483 to R495). -/

namespace Sys2Proof.Machine

/-! ## Atomics (R294 to R298) -/

section
variable {w : BitVec 1} {b : BitVec 2} {d i v : BitVec 7} {s t : State} {c : Ctx}

/-- What atomic `op` asks of memory: operands and old value are registers, or pairs with b64, and `acas` (9) takes its comparand first
(R295). -/
def Ctx.atomicAsked (c : Ctx) (op : Nat) (b : BitVec 2) (d i v : BitVec 7) : Asked where
  kind := .atomic op c.hints.wide
  record := c.G.bufRec b.toNat
  width := 4 * (if c.hints.wide then 2 else 1)
  want := .atomic
  idx := (lanesOf c.mask).map fun l => (l, (c.rv l i.toNat).toInt)
  acq := ordScope c (c.G.bufRec b.toNat) [1, 3]
  rel := ordScope c (c.G.bufRec b.toNat) [2, 3]
  dst := some (.v d.toNat (if c.hints.wide then 2 else 1))
  data := fun l => c.atomWord c.hints.wide l (if op = 9 then v.toNat + (if c.hints.wide then 2 else 1) else v.toNat)
  cmp := fun l => if op = 9 then c.atomWord c.hints.wide l v.toNat else []

/-- An atomic that issues, outside the operand buffer, sends what it asks where no lane is stopped (R275, R296). -/
theorem atomic_sends (op : Nat) (h : Issues (infoAtomic op w d i v c) s c t) (hr : recSpace (c.G.bufRec b.toNat) ≠ 3)
    (hg : ((c.atomicAsked op b d i v).plan c t).goes (c.G.bufRec b.toNat)) (hp : ((c.atomicAsked op b d i v).plan c t).peer = false) :
    Sends c t (c.atomicAsked op b d i v) (atomic op w b d i v s) := atomic_spec h hr hg hp rfl

end

/-- Settles O22: each form is `atomic` of its operation. That a release at die scope or wider blocks the path behind the atomic is log 11,
the model's choice. -/
theorem atomicsGoOut : Obligations.AtomicsGoOut := by
  unfold Obligations.AtomicsGoOut
  intro s t c w b d i v
  exact ⟨atomic_sends 0, atomic_sends 1, atomic_sends 2, atomic_sends 3, atomic_sends 4, atomic_sends 5, atomic_sends 6, atomic_sends 7,
    atomic_sends 8, atomic_sends 9, atomic_sends 10, atomic_sends 11, atomic_sends 12⟩

/-! ## Copies, queues and reservations (R314, R342, R371 to R377) -/

/-- Settles O27: the copies are `copyForm` of their kind, the queue commands `queueGet` and `queuePut` of theirs; a reservation changes in
the team's table, and the path goes on. -/
theorem copyAndQueueCommands : Obligations.CopyAndQueueCommands := by
  unfold Obligations.CopyAndQueueCommands
  intro s t c w a d r q n
  refine ⟨copy_spec, copy_spec, copy_spec, copy_spec, fun h hq => queueGet_spec (kind := 6) h hq,
    fun h hq => queueGet_spec (kind := 8) h hq, fun h hq => queueGet_spec (kind := 10) h hq, queuePut_spec, queuePut_spec, ?orsv, ?orel⟩
  case orsv =>
    intro h hok
    show Changes c _ c.G (execOrsv w a r s)
    rw [execOrsv, h.issue]
    exact (congrArg (fun u => Changes c _ c.G (.next u)) (if_pos hok)).mpr (State.retire_spec (h.found.same rfl rfl))
  case orel =>
    intro h
    show Changes c _ c.G (execOrel w r s)
    rw [execOrel, h.issue]
    exact State.retire_spec (h.found.same rfl rfl)

/-! ## The Drover and the Assayer (R482 to R495) -/

/-- Settles O28: each form is `xForm` of its function, whose one rule `xForm_spec` states: the engine's unit has room, the descriptor passes
its check, and the command enters the order. -/
theorem engineCommands : Obligations.EngineCommands := by
  unfold Obligations.EngineCommands
  intro s t c w a d
  exact ⟨xForm_spec, xForm_spec, xForm_spec, xForm_spec, xForm_spec, xForm_spec, xForm_spec, xForm_spec, xForm_spec, xForm_spec, xForm_spec,
    xForm_spec, xForm_spec, xForm_spec, xForm_spec⟩

end Sys2Proof.Machine
end

section
/-! PROOFS. The end of a handler, and the queue unit, the copy engine, shootdowns and peer accesses (R315 to R324, R378, R390, R391, R396,
R409, R426, R427, R443, R444). -/

namespace Sys2Proof.Machine

/-! ## Leaving the handler (R390, R396, R426, R427) -/

section
variable {w : BitVec 1} {s t : State} {c : Ctx}

/-- `tret` on a path with lanes parks them, and the group is looked at (R427). -/
theorem exec_tret_lanes (h : Issues { (infoNone w).bare with handler := true } s c t) (hm : c.mask ≠ 0) :
    exec (.tret w) s =
      .next (((t.updGroup c.g fun G => G.updLanes (lanesOf c.mask) fun _ t => { t with st := .tretWait }).handlerCheck c.g).draw 1) := by
  show execTret w s = _
  rw [execTret, h.issue]
  simp only [hm, if_false]

/-- `tret` on a path without lanes ends the handler of a matrix-stream fault (R396, R427). -/
theorem exec_tret_laneless (h : Issues { (infoNone w).bare with handler := true } s c t) (hm : c.mask = 0) :
    exec (.tret w) s = .next ((t.endSeqHandler c.g true).draw 1) := by
  show execTret w s = _
  rw [execTret, h.issue]
  simp only [hm, if_true]

end

/-- Settles O30: `tret` parks its lanes, and whether the handler ends turns on whether its last thread has come; a path without lanes ends
it at once, and the sequencer goes on; `trep` adds one record for each lane. -/
theorem handlerReturns : Obligations.HandlerReturns := by
  unfold Obligations.HandlerReturns
  intro s t c w d a
  refine ⟨?waits, ?ends, ?sequencer, ?trep⟩
  case waits =>
    intro h hm H hH hrest
    rw [exec_tret_lanes h hm]
    exact tret_some h.found hH hrest
  case ends =>
    intro h hm H hH hlast
    rw [exec_tret_lanes h hm]
    exact tret_end h.found hH hlast
  case sequencer =>
    intro h hm H T hH hT
    rw [exec_tret_laneless h hm]
    exact tret_seq h.found hH hT
  case trep =>
    intro h hm H hH
    show ∃ u G, execTrep w d a s = .next u ∧ _
    rw [execTrep, h.issue]
    dsimp only
    rw [if_neg hm]
    exact trep_spec h.found hm hH

/-! ## The queue unit (R323, R324, R378) -/

section
variable {s : State} {d : Nat} {q : QCmd} {rest : List QCmd}

/-- A command of a queue of another function leaves the queue alone and is answered as an all-zero queue answers (R378). -/
theorem exec_queueCommandServe_foreign (hq : (s.die d).qcmds = q :: rest) (ho : ((s.die d).queue q.q).ownedBy q.vf = false) :
    exec (.queueCommandServe d) s =
      .next ((s.updDie d fun D => { D with qcmds := rest }).queueAnswer q (foreignResult q.kind)) := by
  show execQueueCommandServe d s = _
  unfold execQueueCommandServe
  simp only [hq, ho]
  rfl

/-- A command of a queue of its own function is served, and answered (R323); here PUB does not advance, or has no mirror (R324). -/
theorem exec_queueCommandServe_owned {r : QRec} {x : Nat} {adv : Bool} (hq : (s.die d).qcmds = q :: rest)
    (ho : ((s.die d).queue q.q).ownedBy q.vf = true) (hs : ((s.die d).queue q.q).serve q = (r, x, adv)) (hm : adv = false ∨ r.mirror = 0) :
    exec (.queueCommandServe d) s =
      .next (((s.updDie d fun D => { D with qcmds := rest }).updDie d fun D => { D with queues := D.queues.put (q.q % 256) r }).queueAnswer
        q x) := by
  show execQueueCommandServe d s = _
  unfold execQueueCommandServe
  simp only [hq, ho, hs, if_true, eventOf]
  congr 2
  unfold State.mirror
  rcases hm with hm | hm
  · rw [hm, if_neg (by decide)]
  · rw [if_pos hm, ite_self]

end

section
variable {r : QRec} {q : QCmd}

/-- A claim for which the queue has room (R323). -/
theorem QRec.serve_claim (hk : q.kind = 6) (he : r.en = true) (hn : q.n ≤ r.free) :
    r.serve q = ({ r with
      tail := qWrap (r.tail + q.n)
      free := r.free - q.n }, r.tail, false) := by
  simp only [QRec.serve, hk]
  exact if_pos ⟨he, hn⟩

/-- A claim that fails reports the free slots (R323). -/
theorem QRec.serve_claim_fails (hk : q.kind = 6) (hn : r.en = false ∨ r.free < q.n) : r.serve q = (r, qFail + r.free, false) := by
  simp only [QRec.serve, hk]
  refine if_neg fun ⟨he, hle⟩ => ?_
  rcases hn with hn | hn
  · rw [hn] at he; cases he
  · omega

/-- A take of slots that are published (R323). -/
theorem QRec.serve_take (hk : q.kind = 8) (he : r.en = true) (hn : q.n ≤ qDist r.head r.pub) :
    r.serve q = ({ r with head := qWrap (r.head + q.n) }, r.head, false) := by
  simp only [QRec.serve, hk]
  exact if_pos ⟨he, hn⟩

/-- A take that fails reports the slots that are published (R323). -/
theorem QRec.serve_take_fails (hk : q.kind = 8) (hn : r.en = false ∨ qDist r.head r.pub < q.n) :
    r.serve q = (r, qFail + qDist r.head r.pub, false) := by
  simp only [QRec.serve, hk]
  refine if_neg fun ⟨he, hle⟩ => ?_
  rcases hn with hn | hn
  · rw [hn] at he; cases he
  · omega

/-- A publication of slots that are claimed (R323). -/
theorem QRec.serve_publish (hk : q.kind = 7) (hi : qInside r.pub r.tail q.k q.n r.pubs = true) :
    let x := qAdvance r.nslot r.pub (r.pubs ++ qSlots q.k q.n)
    r.serve q = ({ r with
      pub := x.1
      pubs := x.2 }, 0, x.1 != r.pub) := by
  simp only [QRec.serve, hk]
  exact if_pos hi

/-- A publication of other slots sets EPUB (R323). -/
theorem QRec.serve_publish_fails (hk : q.kind = 7) (hi : qInside r.pub r.tail q.k q.n r.pubs = false) :
    r.serve q = ({ r with epub := true }, 0, false) := by
  simp only [QRec.serve, hk]
  exact if_neg (by rw [hi]; decide)

/-- The end of slots that are taken (R323). -/
theorem QRec.serve_done (hk : q.kind = 9) (hi : qInside r.done r.head q.k q.n r.dones = true) :
    let x := qAdvance r.nslot r.done (r.dones ++ qSlots q.k q.n)
    r.serve q = ({ r with
      done := x.1
      dones := x.2
      free := r.free + qDist r.done x.1 }, 0, false) := by
  simp only [QRec.serve, hk]
  exact if_pos hi

/-- The end of other slots sets EDONE (R323). -/
theorem QRec.serve_done_fails (hk : q.kind = 9) (hi : qInside r.done r.head q.k q.n r.dones = false) :
    r.serve q = ({ r with edone := true }, 0, false) := by
  simp only [QRec.serve, hk]
  exact if_neg (by rw [hi]; decide)

/-- The state word of a queue (R323). -/
theorem QRec.serve_stat (hk : q.kind = 10) :
    r.serve q = (r, r.free + r.en.toNat * 2 ^ 17 + r.epub.toNat * 2 ^ 18 + r.edone.toNat * 2 ^ 19, false) := by
  simp only [QRec.serve, hk, fieldAt]

end

/-! ### What an answer of the queue unit leaves (R325) -/

section
variable (s : State) (q : QCmd) (x : Nat)

/-- An answer of the queue unit changes the groups alone. -/
@[simp] theorem State.queueAnswer_dies : (s.queueAnswer q x).dies = s.dies := by
  unfold State.queueAnswer State.answer
  cases q.pend <;> dsimp only <;> split <;> rfl

/-- A change of one group that queues no trap in it queues none in any. -/
theorem State.trapQ_updGroup {g j : Nat} {es : List TrapEntry} (f : Group → Group) (hf : ∀ G, (f G).trapQ = G.trapQ)
    (h : ∃ G, s.group? j = some G ∧ G.trapQ = es) : ∃ G, (s.updGroup g f).group? j = some G ∧ G.trapQ = es := by
  obtain ⟨G, hG, htrap⟩ := h
  by_cases hj : j = g
  · subst hj
    exact ⟨f G, by rw [State.group?_updGroup_self, hG]; rfl, (hf G).trans htrap⟩
  · exact ⟨G, (SMap.find?_upd_ne _ _ hj).trans hG, htrap⟩

/-- An answer of the queue unit queues no trap. -/
theorem State.trapQ_queueAnswer {j : Nat} {es : List TrapEntry} (h : ∃ G, s.group? j = some G ∧ G.trapQ = es) :
    ∃ G, (s.queueAnswer q x).group? j = some G ∧ G.trapQ = es := by
  have hans : ∃ G, (s.answer q.guid q.pend (BitVec.ofNat 32 x)).group? j = some G ∧ G.trapQ = es := by
    unfold State.answer
    cases q.pend with
    | none => exact h
    | some p => exact s.trapQ_updGroup _ (fun _ => rfl) h
  unfold State.queueAnswer
  dsimp only
  split
  · exact State.trapQ_updGroup _ _ (fun _ => rfl) hans
  · exact hans

/-- A command without a result leaves its issuer alone. -/
theorem State.queueAnswer_none (hk : q.kind ≠ 8) (hp : q.pend = none) : s.queueAnswer q x = s := by
  unfold State.queueAnswer State.answer
  simp only [hp, hk, if_false]

end

/-- Taking a command from a queue unit changes no queue. -/
theorem State.queue_takeCommand (s : State) (d : Nat) (rest : List QCmd) (k q : Nat) :
    ((s.updDie d fun D => { D with qcmds := rest }).die k).queue q = (s.die k).queue q := by
  simp only [State.die, State.updDie, SMap.get_put]
  split
  · next h => rw [h]; rfl
  · rfl

/-- Settles O59: the unit does not touch the queue of another function, and its answers are those that an all-zero queue gives. -/
theorem foreignQueuesActDisabled : Obligations.ForeignQueuesActDisabled := by
  unfold Obligations.ForeignQueuesActDisabled
  intro s d c rest hq ho
  have hinit : QRec.init.en = false ∨ QRec.init.free < c.n := .inl rfl
  refine ⟨_, exec_queueCommandServe_foreign hq ho, ?fails, ?stat, ?silent, ?queues, ?traps⟩
  case fails =>
    rintro (hk | hk)
    · exact ⟨by rw [hk]; rfl, by rw [QRec.serve_claim_fails hk hinit]; rfl⟩
    · exact ⟨by rw [hk]; rfl, by rw [QRec.serve_take_fails hk (.inl rfl)]; rfl⟩
  case stat =>
    intro hk
    exact ⟨by rw [hk]; rfl, by rw [QRec.serve_stat hk]; rfl⟩
  case silent =>
    intro hk hp
    exact State.queueAnswer_none _ _ _ (by omega) hp
  case queues =>
    intro k q
    rw [State.die, State.queueAnswer_dies]
    exact s.queue_takeCommand d rest k q
  case traps =>
    intro g G hG
    exact State.trapQ_queueAnswer _ _ _ ⟨G, hG, rfl⟩

/-! ## The copy engine and shootdowns (R315, R409) -/

section
variable {s : State} {c n : Nat} {x : CopyCmd}

/-- A copy command with no chunk in flight and none to come completes (R315, R373). -/
theorem exec_copyChunkRetire_nothing (hx : s.copyCmd? c n = some x) (hk : x.chunks = []) (hp : x.total ≤ x.pos) :
    exec (.copyChunkRetire c n) s = .next (s.copyDone c { x with comp := max x.comp s.now }) := by
  show execCopyChunkRetire c n s = _
  unfold execCopyChunkRetire
  simp only [hx, Option.bind_some, hk, hp, if_true]
  rfl

/-- A copy command whose oldest chunk has retired (R315). -/
def CopyCmd.retired (x : CopyCmd) (k : CopyChunk) (ks : List CopyChunk) (v : Txn) : CopyCmd :=
  { x with
    chunks := ks
    done := x.done + k.run.length
    comp := max x.comp v.comp
    err := x.err || v.werr
    pos := if v.werr then x.total else x.pos }

/-- The oldest chunk retires once its writes have been performed (R315). -/
theorem exec_copyChunkRetire_chunk {k : CopyChunk} {ks : List CopyChunk} {v : Txn} (hx : s.copyCmd? c n = some x) (hk : x.chunks = k :: ks)
    (hv : s.txns.find? k.txn = some v) (hc : v.complete = true) :
    exec (.copyChunkRetire c n) s = .next ((s.endTxn k.txn).copyEnd c (x.retired k ks v)) := by
  show execCopyChunkRetire c n s = _
  unfold execCopyChunkRetire
  simp only [hx, Option.bind_some, hk, hv, hc, if_true]
  rfl

/-- Neard takes a shootdown from an owner, for a function that there is (R409, R445). -/
theorem exec_hostShootdown (e f a m : Nat) (s : State) :
    exec (.hostShootdown e f a m) s = .next (if s.owner e = true then (if f < 64 then s.shoot f a m else s) else s) := rfl

/-- A shootdown that has begun, all of whose write-backs have ended, is complete (R409). -/
theorem exec_shootdownComplete_ends {y : Shoot} (hy : s.shoots.find? (·.id == n) = some y) (hb : y.begun = true) (ho : y.out = [])
    (hu : y.until_ ≤ s.now) :
    exec (.shootdownComplete n) s =
      .next ((({ s with shoots := s.shoots.filter (·.id != n) } : State).dropTlb y.vf y.page y.n).shootDone n) := by
  show execShootdownComplete n s = _
  unfold execShootdownComplete
  simp only [hy, Option.bind_some, hb, ho, hu, and_self, if_true]
  rfl

/-- A shootdown begins once nothing that it waits for is under way: the entries are dropped and the dirty lines are on their way (R409). -/
theorem exec_shootdownComplete_begins {y : Shoot} (hy : s.shoots.find? (·.id == n) = some y) (hb : y.begun = false)
    (hw : s.shootWaits y = false) :
    let u := (s.dropTlb y.vf y.page y.n).shootLines y
    exec (.shootdownComplete n) s = .next { u with shoots := u.shoots.map fun z => if z.id = n then { z with
      begun := true
      out := u.backsOf y.vf } else z } := by
  show execShootdownComplete n s = _
  unfold execShootdownComplete
  simp only [hy, Option.bind_some, hb, hw, Bool.false_eq_true, if_false]
  rfl

end

/-- Settles O41: one clause for each step of an engine. A queue command is served as `QRec.serve` says, and here leaves the mirror alone; a
peer access is translated or refused, begins its transaction, and is answered at its end. That die 0 translates peer accesses, that
accesses of one asker to one sector keep their order and that a disabled function refuses them is log 51, the model's choice. -/
theorem engineStepEvents : Obligations.EngineStepEvents := by
  unfold Obligations.EngineStepEvents
  intro s c n a m x q rest y r
  refine ⟨exec_copyChunkRetire_nothing, ?chunk, exec_queueCommandServe_foreign, ?claim, ?claimFails, ?take, ?takeFails, ?publishFails,
    ?publish, ?doneFails, ?done, ?stat, ?shootdown, rfl, ?noShootdown, exec_shootdownComplete_ends, exec_shootdownComplete_begins,
    ?refused, ?fault, ?load, ?store, ?atomic, fun i v => peer_done, fun i v => peerDone_spec i v⟩
  case chunk =>
    intro k ks v hx hk hv hc
    dsimp only
    rw [exec_copyChunkRetire_chunk hx hk hv hc]
    exact ⟨fun hlast => congrArg Host.Outcome.next (if_pos hlast), fun hmore => congrArg Host.Outcome.next (if_neg hmore)⟩
  case claim => exact fun hq ho hk he hn => exec_queueCommandServe_owned hq ho (QRec.serve_claim hk he hn) (.inl rfl)
  case claimFails => exact fun hq ho hk hn => exec_queueCommandServe_owned hq ho (QRec.serve_claim_fails hk hn) (.inl rfl)
  case take => exact fun hq ho hk he hn => exec_queueCommandServe_owned hq ho (QRec.serve_take hk he hn) (.inl rfl)
  case takeFails => exact fun hq ho hk hn => exec_queueCommandServe_owned hq ho (QRec.serve_take_fails hk hn) (.inl rfl)
  case publishFails => exact fun hq ho hk hi => exec_queueCommandServe_owned hq ho (QRec.serve_publish_fails hk hi) (.inl rfl)
  case publish => exact fun hq ho hk hi hm => exec_queueCommandServe_owned hq ho (QRec.serve_publish hk hi) (.inr hm)
  case doneFails => exact fun hq ho hk hi => exec_queueCommandServe_owned hq ho (QRec.serve_done_fails hk hi) (.inl rfl)
  case done => exact fun hq ho hk hi => exec_queueCommandServe_owned hq ho (QRec.serve_done hk hi) (.inl rfl)
  case stat => exact fun hq ho hk => exec_queueCommandServe_owned hq ho (QRec.serve_stat hk) (.inl rfl)
  case shootdown =>
    intro he hc
    rw [exec_hostShootdown, if_pos he, if_pos hc]
  case noShootdown =>
    rintro (he | hc)
    · rw [exec_hostShootdown, if_neg (by rw [he]; decide)]
    · rw [exec_hostShootdown, if_neg (Nat.not_lt.2 hc), ite_self]
  case refused => exact fun hr hfirst hoff => peer_ends (peer_head hr hfirst) (peer_off hoff) rfl
  case fault => exact fun hr hfirst hon f lev z hp => peer_ends (peer_head hr hfirst) (peer_fault hon hp) rfl
  case load => exact fun hr hfirst hon b e hp hop => peer_ends (peer_head hr hfirst) (peer_ok hon hp) (peerBegin_read hop)
  case store => exact fun hr hfirst hon b e hp hop => peer_ends (peer_head hr hfirst) (peer_ok hon hp) (peerBegin_write hop)
  case atomic =>
    exact fun hr hfirst hon b e hp hop z ht => peer_ends (peer_head hr hfirst) (peer_ok hon hp) (peerBegin_atomic hop ht)

end Sys2Proof.Machine
end

section
/-! PROOFS. The events of collective and assay objects (R455 to R466, R469 to R481, R492, R513). -/

namespace Sys2Proof.Machine

/-! ## The Drover (R455 to R464, R513) -/

/-- What comes up late at a node that is not the root goes on to its parent as a correction, and counts as a miss (R460, R462). -/
theorem next_droUp_mid {s u : State} {i : Instr} {x : DroPkt} {e : PathEnt} (h : exec i s = .next (u.droUp x.obj x))
    (he : (u.coll x.obj).plan[x.path]? = some e) (hp : e.parent ≠ 0x3FF) :
    exec i s = .next ((u.droMiss x.obj).droEmit x.obj x.path 3 e.parent x.man false [] x.vals) := by
  rw [h, up_mid he hp]

/-- What comes up late at the root is applied to its result (R463). -/
theorem next_droUp_root {s u : State} {i : Instr} {x : DroPkt} {e : PathEnt} (h : exec i s = .next (u.droUp x.obj x))
    (he : (u.coll x.obj).plan[x.path]? = some e) (hp : e.parent = 0x3FF) : exec i s = .next (u.droApply x.obj x) := by
  rw [h, up_root he hp]

/-- Settles O46: the tests of a packet come first (`pkt_over`, `corr_over`), then what its kind does. The rates of `linkRateExchange`
are free values as log 27 says, and that a second partial counts as a correction and a discarded chunk as answered is log 43: both are
the model's choices. -/
theorem droverEvents : Obligations.DroverEvents := by
  unfold Obligations.DroverEvents
  intro s n o p x k
  refine ⟨chunk_bad, ?chunk, fun h hover => pkt_over h hover _, fun h hover => pkt_over h hover _, fun h hover => pkt_over h hover _,
    corr_over, partial_on, ?lateMid, ?lateRoot, ?corrMid, ?corrRoot, corr_down, apply_drop, apply_sum, result_first, result_again, verdict,
    ?deadlineMid, ?deadlineRoot, ?close, fun y t => corr_timeout, rate_exchange⟩
  case chunk =>
    exact fun h hn hopen hidx hnew htype => ⟨chunk_more h hn hopen hidx hnew htype, chunk_last h hn hopen hidx hnew htype⟩
  case lateMid => exact fun h hopen hrnd hpath hlate e he hp => next_droUp_mid (partial_late h hopen hrnd hpath hlate) he hp
  case lateRoot => exact fun h hopen hrnd hpath hlate e he hp => next_droUp_root (partial_late h hopen hrnd hpath hlate) he hp
  case corrMid => exact fun h hopen hrnd hpath hkind e he hp => next_droUp_mid (corr_up h hopen hrnd hpath hkind) he hp
  case corrRoot => exact fun h hopen hrnd hpath hkind e he hp => next_droUp_root (corr_up h hopen hrnd hpath hkind) he hp
  case deadlineMid => exact fun hopen hfwd hdl hwait e he hp => deadline_mid hopen hfwd hdl hwait he hp
  case deadlineRoot => exact fun hopen hfwd hdl hwait e he hp hop hcq => deadline_root hopen hfwd hdl hwait he hp hop hcq
  case close =>
    exact fun e he hp hopen hdl hhave hclosed hwait hjobs hcomp => window_close he hp hopen hdl hhave hclosed hwait hjobs hcomp

/-! ## The Assayer (R469 to R478) -/

section
variable {a : Assay} {x : AsyPkt}

/-- A begin marker stages an idle slot; a slot that is not idle takes none (R471). -/
theorem Assay.accept_begin (hk : x.kind = 0) : a.accept x =
    if (a.slot x.id).st = 0 then (a.updSlot x.id fun q => { q with
      st := 1
      want := x.n
      ser := x.ser }, false) else (a.mark astDROP, true) := by
  unfold Assay.accept
  simp only [hk]

/-- Data for a slot that is not staged is discarded with ERR (R471). -/
theorem Assay.accept_data_unstaged (hk : x.kind = 1) (hst : (a.slot x.id).st ≠ 1) : a.accept x = (a.mark astERR, true) := by
  rw [acc1 hk, if_pos hst]

/-- An end marker for a slot that is not staged is discarded with DROP (R471). -/
theorem Assay.accept_end_unstaged (hk : x.kind = 2) (hst : (a.slot x.id).st ≠ 1) : a.accept x = (a.mark astDROP, true) := by
  rw [acc2 hk, if_pos hst]

end

/-- Settles O47: the tests of a packet are the same for its three kinds, but that a late end marker counts as a miss; then `Assay.accept`
does what its kind says. That a packet at which the contribution is rejected is answered with code 4 is log 44, the model's choice. -/
theorem assayerEvents : Obligations.AssayerEvents := by
  unfold Obligations.AssayerEvents
  intro s n d o i late x a
  refine ⟨?beginClosed, ?beginForeign, ?beginStale, ?beginTaken, ?dataClosed, ?dataForeign, ?dataStale, ?dataTaken, ?endClosed,
    ?endForeign, ?endStale, ?endTaken, Assay.accept_begin, Assay.accept_data_unstaged, acc_twice, acc_data, Assay.accept_end_unstaged,
    acc_count, acc_bad, acc_inf, ?sealed, commit_spec a i late, fun m hm hi hst => drain_holds hm hi hst, asy_deadline, asy_close⟩
  case beginClosed => exact fun h hclosed => asy_closed h hclosed _
  case beginForeign => exact fun h hopen hkey => asy_key0 h (by decide) hopen hkey _
  case beginStale => exact fun h hopen hkey hid hser => asy_ser0 h (by decide) hopen hkey hid hser _
  case beginTaken => exact fun h hopen hkey hid hser hshut hsmear => asy_ok0 h (by decide) hopen hkey hid hser hshut hsmear _
  case dataClosed => exact fun h hclosed => asy_closed h hclosed _
  case dataForeign => exact fun h hopen hkey => asy_key0 h (by decide) hopen hkey _
  case dataStale => exact fun h hopen hkey hid hser => asy_ser0 h (by decide) hopen hkey hid hser _
  case dataTaken => exact fun h hopen hkey hid hser hshut hsmear => asy_ok0 h (by decide) hopen hkey hid hser hshut hsmear _
  case endClosed => exact fun h hclosed => asy_closed h hclosed _
  case endForeign => exact fun h hopen hkey => asy_key1 h hopen hkey _
  case endStale => exact fun h hopen hkey hid hser => asy_ser1 h hopen hkey hid hser _
  case endTaken => exact fun h hopen hkey hid hser hshut hsmear => asy_ok1 h hopen hkey hid hser hshut hsmear _
  case sealed =>
    exact fun hk hst hn hwant hcnt hbad hnorm =>
      ⟨acc_time hk hst hn hwant hcnt hbad hnorm, acc_late hk hst hn hwant hcnt hbad hnorm⟩

end Sys2Proof.Machine
end

section
/-! PROOFS. Words of the matrix stream that load, multiply and clear (R339, R343, R350 to R355, R361 to R366). -/

namespace Sys2Proof.Machine

section
variable {s : State} {n : Nat} {T : Team} {a o : BitVec 3} {m : BitVec 5} {sh : BitVec 2} {v : BitVec 1}

/-- `mld`, of a reservation that it may use, takes the macros of B from it (R350, R361). -/
theorem Sequences.mld (h : Sequences s n T)
    (hr : rsvUsable (T.rsv o.toNat) (T.seq.reg m.toNat).toNat (shapeCols sh.toNat) (shapeK sh.toNat) = true) :
    execMld o sh m s = .next ((s.draw 1).seqThen n fun q => { q with
      shape := some sh.toNat
      fmt := rsvFmt (T.rsv o.toNat)
      macros := (List.range (shapeCols sh.toNat)).flatMap fun k => (List.range (shapeK sh.toNat / 16)).map fun i =>
        (k * 32 + i, s.rsvBlock T (T.rsv o.toNat) ((T.seq.reg m.toNat).toNat + k) i) }) := by
  rw [execMld, h.mx]
  simp only [hr, Bool.not_true, Bool.false_eq_true, if_false]

/-- `mmul`, of rows that it may use and of the format of B, adds their product to its tiles, which leave their chains (R351, R362). -/
theorem Sequences.mmul (h : Sequences s n T) {k : Nat} (hk : T.seq.shape = some k) (hfit : a.toNat + shapeN k ≤ 8)
    (hr : rsvUsable (T.rsv o.toNat) (T.seq.reg m.toNat).toNat 64 (shapeK k) = true) (hf : rsvFmt (T.rsv o.toNat) = T.seq.fmt)
    (hb : T.bmOk o.toNat (T.rsv o.toNat) (T.seq.reg m.toNat).toNat 64 (shapeK k) = true) :
    execMmul a o m v s = .next ((s.draw 1).seqThen n fun q =>
      let q := (q.product ((List.range 64).map fun i => (i, s.rsvRow T (T.rsv o.toNat) ((T.seq.reg m.toNat).toNat + i) (shapeK k))) a.toNat 0
        (shapeCols k) (flag1 v)).unchain a.toNat (shapeN k)
      { q with bmx := q.bmx || s.bmFound T o.toNat (T.rsv o.toNat) (T.seq.reg m.toNat).toNat 64 (shapeK k) }) := by
  rw [execMmul, h.mx]
  dsimp only
  rw [hk]
  dsimp only
  rw [if_neg (by omega), if_neg (by rw [hr]; decide), if_neg (fun hne => hne hf), if_neg (by rw [hb]; decide)]

end

/-- Settles O34: each word whose checks pass is one step of the unit, `mmulsm` with its writes of the operand buffer before it. That RMAX
of a row that no softmax step has written reads as −∞ is log 57, and that `mgrp` applies BMX inside LEN log 25: the model's choices. -/
theorem matrixWords : Obligations.MatrixWords := by
  unfold Obligations.MatrixWords
  intro s n T a o m sh v
  refine ⟨?mld, ?mmul, ?mclr, ?mbmap, ?mmulsm, ?mgrp⟩
  case mld =>
    intro h hr
    show SeqGoes n (s.draw 1) T _ (execMld o sh m s)
    rw [h.mld hr]
    exact seqThen_spec (s := s.draw 1) h.2.1 _
  case mmul =>
    intro h k hk hfit x r hr hf hb
    show SeqGoes n (s.draw 1) T _ (execMmul a o m v s)
    rw [h.mmul hk hfit hr hf hb]
    exact seqThen_spec (s := s.draw 1) h.2.1 _
  case mclr =>
    intro h
    show SeqGoes n s T _ (execMclr a s)
    rw [execMclr, h.mx]
    exact seqThen_spec h.2.1 _
  case mbmap =>
    intro h
    show SeqGoes n s T _ (execMbmap o v s)
    rw [execMbmap, h.mx]
    exact seqThen_spec h.2.1 _
  case mmulsm =>
    intro h hshape htile hmask hout hchain x hr hf hb
    show ∃ u U, execMmulsm a o m v s = .next u ∧ _
    rw [execMmulsm, h.mx]
    exact mmulsm_spec h.2.1 hshape htile hmask hout hchain hr hf hb
  case mgrp =>
    intro h hshape x mk G off hmin hmax hzero hin hoff hr hf
    show SeqGoes n (s.draw 1) T _ (execMgrp a o m s)
    rw [execMgrp, h.mx]
    exact mgrp_spec h.2.1 hshape hmin hmax hzero hin hoff hr hf

end Sys2Proof.Machine
end

section
/-! PROOFS. Pre-emption and records, what the host writes through Neard, and bring-up, power and repair (R397, R401 to R403, R412 to R422,
R440 to R449, R469, R501 to R511). -/

namespace Sys2Proof.Machine

/-! ## Pre-emption (R397, R419 to R422) -/

section
variable {s : State} {n : Nat} {T : Team}

/-- The time-out of a pre-emption parks what still runs (R397). -/
theorem exec_preemptionTimeout {k : Nat} (hT : s.team? n = some T) (hp : T.pre = .asked k) (hk : k + (s.vf T.vf).timeout ≤ s.now)
    (hr : (T.groups.any fun g => match s.group? g with | some G => G.running | none => false) = true) :
    exec (.preemptionTimeout n) s = .next (T.groups.foldl State.parkLate s) := by
  show execPreemptionTimeout n s = _
  unfold execPreemptionTimeout
  rw [hT, Option.bind_some]
  rw [hp]
  exact congrArg (eventOf _) (if_pos ⟨hk, hr⟩)

/-- The release of a save begins once all of the team has stopped (R420); a group that its convoy holds is stopped there. -/
theorem exec_contextSave_flushes {k : Nat} (hT : s.team? n = some T) (hp : T.pre = .asked k) (hr : s.saveReady n T = true) :
    let u := (s.groupsOf T).foldl (fun s x => if x.2.cvm.held then s.stopReady x.1 else s) s
    exec (.contextSave n) s =
      .next (((u.groupsOf T).foldl (fun s x => s.flushGroup x.1 x.2) u).updTeam n fun T => { T with pre := .flushing }) := by
  intro u
  show execContextSave n s = _
  unfold execContextSave
  rw [hT, Option.bind_some]
  dsimp only
  rw [hp]
  exact congrArg (eventOf _) (if_pos hr)

/-- The context is saved once the release has ended (R420). -/
theorem exec_contextSave_saves (hT : s.team? n = some T) (hp : T.pre = .flushing) (hr : s.saveReleased T = true) :
    exec (.contextSave n) s = .next (s.saveTeam n T) := by
  show execContextSave n s = _
  unfold execContextSave
  rw [hT, Option.bind_some]
  dsimp only
  rw [hp]
  exact congrArg (eventOf _) (if_pos hr)

/-- A decision to restore brings back the saved teams of its cluster (R190, R422). -/
theorem exec_teamRestore {l : Nat} {ts : List (Nat × Fit)} {f : Fit} (hd : s.decide = some (.restore l ts)) (hh : ts.head? = some (n, f)) :
    let u := ts.foldl (fun s x => s.restoreTeam x.1 x.2) s
    exec (.teamRestore n) s = .next (u.updLaunch l fun L => { L with
      saved := L.saved.filter fun k => !(ts.any fun x => x.1 == k)
      since := u.now
      noBack := false }) := by
  intro u
  show execTeamRestore n s = _
  unfold execTeamRestore
  rw [hd]
  exact congrArg (eventOf _) (if_pos (by rw [hh]; rfl))

end

/-! ## Records (R412 to R415, R449) -/

/-- The write of a completion record is the event's one step (R449). -/
theorem exec_completionRecordWrite {s t : State} {v : Nat} (h : s.writeRing v true = some t) :
    exec (.completionRecordWrite v) s = .next t :=
  congrArg (eventOf _) h

/-- The write of a fault record is the event's one step (R413). -/
theorem exec_faultRecordWrite {s t : State} {v : Nat} (h : s.writeRing v false = some t) : exec (.faultRecordWrite v) s = .next t :=
  congrArg (eventOf _) h

/-- Settles O43: a save goes in the two steps that `exec_contextSave_flushes` and `exec_contextSave_saves` state; a ring holds its record
until it has room and until the write has completed; an answer is looked up by its record and given to the party parked on it. That the
writes of rings have class 1 and no deadline is log 64, that a held group stops where its convoy holds it log 60, and that a handler
path without lanes stops where it is log 34: the model's choices. -/
theorem preemptionAndRecords : Obligations.PreemptionAndRecords := by
  unfold Obligations.PreemptionAndRecords
  intro s e v n
  refine ⟨fun T => preq_event, fun T k => exec_preemptionTimeout, fun T k => exec_contextSave_flushes, fun T => exec_contextSave_saves,
    fun l ts f => exec_teamRestore, ?completion, ?fault, ?completed, ?written, ?unknown, ?ignored, ?lanes, ?saved⟩
  case completion => exact fun x rest hnone hheld hroom => exec_completionRecordWrite (ring_send (cq := true) hnone hheld hroom)
  case fault => exact fun x rest hnone hheld hroom => exec_faultRecordWrite (ring_send (cq := false) hnone hheld hroom)
  case completed => exact fun t x ht hx => exec_completionRecordWrite (done_spec ht hx)
  case written => exact fun t x ht hx => exec_faultRecordWrite (fault_spec ht hx)
  case unknown => exact fun he hv hf => owner_spec he hv (fr_none hf)
  case ignored => exact fun he hv p hf hi => owner_spec he hv (fr_ignored hf hi)
  case lanes => exact fun he hv g m G hf hG hm hs => fr_lanes he hv hf hG hm hs
  case saved => exact fun he hv p t hf hp ha ht hs => owner_spec he hv (fr_saved hf hp ha ht hs)

/-! ## Host registers (R322, R445 to R449, R469, R504, R505, R507, R511) -/

section
variable {s t : State} {e : Nat}

/-- Neard serves an owner (R445). -/
theorem State.served_owner (he : s.owner e = true) : s.served e t = .next t := congrArg Host.Outcome.next (if_pos he)

/-- Neard drops what comes from another endpoint (R445). -/
theorem State.served_other (he : s.owner e = false) : s.served e t = .next s :=
  congrArg Host.Outcome.next (if_neg (by rw [he]; decide))

variable {v n p : Nat} (he : s.owner e = true)
include he

/-- A write with EN = 1 to a function's register (R446). -/
theorem exec_functionEnable (hv : v < 64) : exec (.functionEnable e v n) s = .next (s.writeVf v (n / 2 * 2 + 1)) :=
  (State.served_owner he).trans (congrArg Host.Outcome.next (if_pos hv))

/-- A write with EN = 0 to a function's register (R446). -/
theorem exec_functionDisable (hv : v < 64) : exec (.functionDisable e v n) s = .next (s.writeVf v (n / 2 * 2)) :=
  (State.served_owner he).trans (congrArg Host.Outcome.next (if_pos hv))

/-- A write to register `r` of a function's window (R445). -/
theorem exec_configRegisterWrite (hv : v < 64) (r : Nat) : exec (.configRegisterWrite e v r n) s = .next
    (if r = 0 then s.writeVf v (n / 2 * 2 + (s.vf v).en.toNat)
     else if r = 1 then s.updVf v fun x => { x with fq := x.fq.load n 4096 }
     else if r = 2 then s.updVf v fun x => { x with cq := x.cq.load n 4096 }
     else if r = 3 then s.updVf v fun x => { x with cqn := n % 2 ^ 60 }
     else if r < 8 then s.updSubQ v (r - 4) fun q => q.load n
     else if r = 8 then { s with devId := n % 4096 }
     else s) := (State.served_owner he).trans (congrArg Host.Outcome.next (if_neg (Nat.not_le.2 hv)))

/-- A write to a submission queue's register (R447). -/
theorem exec_configRegisterWrite_subq (hv : v < 64) {q : Nat} (hq : q < 4) :
    exec (.configRegisterWrite e v (4 + q) n) s = .next (s.updSubQ v q fun y => y.load n) := by
  rw [exec_configRegisterWrite he hv, if_neg (by omega), if_neg (by omega), if_neg (by omega), if_neg (by omega), if_pos (by omega),
    Nat.add_sub_cancel_left]

/-- The record of a disabled queue takes what is written (R446). -/
theorem exec_queueConfigWrite_disabled (hv : v < 1024) (hr : ((s.die (v / 256)).queue v).en = false) :
    exec (.queueConfigWrite e v n p) s =
      .next (s.updDie (v / 256) fun D => { D with queues := D.queues.put (v % 256) (QRec.load n p) }) := by
  refine (State.served_owner he).trans (congrArg Host.Outcome.next ?_)
  rw [if_neg (by omega), hr]
  rfl

/-- A write that clears EN of an enabled queue clears EN alone (R446, log 37). -/
theorem exec_queueConfigWrite_clears (hv : v < 1024) (hr : ((s.die (v / 256)).queue v).en = true) (hn : n / 2 ^ 155 % 2 = 0) :
    exec (.queueConfigWrite e v n p) s = .next (s.updDie (v / 256) fun D => { D with
      queues := D.queues.put (v % 256) { (s.die (v / 256)).queue v with en := false } }) := by
  refine (State.served_owner he).trans (congrArg Host.Outcome.next ?_)
  rw [if_neg (by omega), if_neg fun hset => by have hone : n / 2 ^ 155 % 2 = 1 := hset.2; omega, if_pos hr]

/-- A write that keeps EN of an enabled queue is ignored (R446, log 37). -/
theorem exec_queueConfigWrite_keeps (hv : v < 1024) (hr : ((s.die (v / 256)).queue v).en = true) (hn : n / 2 ^ 155 % 2 = 1) :
    exec (.queueConfigWrite e v n p) s = .next s := by
  refine (State.served_owner he).trans (congrArg Host.Outcome.next ?_)
  rw [if_neg (by omega), if_pos ⟨hr, hn⟩]

/-- The staging area of a die takes a size while no assay object of it is open (R469). -/
theorem exec_stagingAreaSizeWrite (hv : v < 4) (hmax : n ≤ 2 ^ 32) (hn : n % 2 ^ 21 = 0)
    (ho : ∀ o, o < 16 → (s.assay v o).ast &&& 1 = 0) :
    exec (.stagingAreaSizeWrite e v n) s = .next (s.updDie v fun D => { D with asz := n }) := by
  have hclosed : (List.range 16).all (fun o => (s.assay v o).ast &&& 1 == 0) = true := by
    simp only [List.all_eq_true, List.mem_range, beq_iff_eq]
    exact ho
  exact (State.served_owner he).trans (congrArg Host.Outcome.next (if_pos ⟨hv, hmax, hn, hclosed⟩))

end

/-- An access to a sector is not made for another endpoint (R445, R511). -/
theorem exec_hostMemoryAccess_other {s : State} {e : Nat} (he : s.owner e = false) (v w p n : Nat) :
    exec (.hostMemoryAccess e v w p n) s = .next s := if_pos (.inl (by rw [he]; rfl))

/-- Settles O44: every register write goes through `State.served`, which asks who the endpoint is, and then is the write of its register.
That low address bits are dropped is log 35, that an enabled queue takes only a write that clears EN log 37, that register 8 is the device
id log 47, that an access takes one whole sector log 58, of class 1 without a deadline, log 64: the model's choices. -/
theorem hostRegisterEvents : Obligations.HostRegisterEvents := by
  unfold Obligations.HostRegisterEvents
  intro s e v n p q
  refine ⟨?enables, ?refuses, ?reloads, ?disables, ?loads, ?register, ?faultRing, ?completionRing, ?notice, ?subq, ?devId,
    exec_queueConfigWrite_disabled, exec_queueConfigWrite_clears, exec_queueConfigWrite_keeps, exec_stagingAreaSizeWrite, ?power,
    State.served_owner, rfl, host_read, fun he hv hp hnone w => host_write he hv hp hnone, fun he hv hp w k x => host_ends he hv hp, ?other⟩
  case enables =>
    intro he hv x hoff hok
    rw [exec_functionEnable he hv, writeVf_on hoff hok]
  case refuses =>
    intro he hv x hoff hbad
    rw [exec_functionEnable he hv, writeVf_bad hoff hbad]
  case reloads =>
    intro he hv x hon
    rw [exec_functionEnable he hv, writeVf_keep hon]
  case disables =>
    intro he hv x hon
    rw [exec_functionDisable he hv, writeVf_off hon]
  case loads =>
    intro he hv x hoff
    rw [exec_functionDisable he hv, writeVf_none hoff]
  case register =>
    intro he hv
    rw [exec_configRegisterWrite he hv, if_pos rfl, writeVf_same]
  case faultRing => exact fun he hv => exec_configRegisterWrite he hv 1
  case completionRing => exact fun he hv => exec_configRegisterWrite he hv 2
  case notice => exact fun he hv => exec_configRegisterWrite he hv 3
  case subq => exact fun he hv q hq => exec_configRegisterWrite_subq he hv hq
  case devId => exact fun he hv => exec_configRegisterWrite he hv 8
  case power => exact fun he hmin hmax => (State.served_owner he).trans (congrArg Host.Outcome.next (if_pos ⟨hmin, hmax⟩))
  case other =>
    intro he
    exact ⟨State.served_other he, State.served_other he, State.served_other he, State.served_other he, State.served_other he,
      State.served_other he, State.served_other he, exec_hostMemoryAccess_other he v p n q, State.served_other he, State.served_other he,
      State.served_other he⟩

/-! ## Bring-up, power and repair (R401 to R403, R440, R441, R501 to R509) -/

section
variable {s : State} {n v f : Nat}

/-- A die that sags stretches its clock (R506). -/
theorem exec_supplySag (hn : n < 4) : exec (.supplySag n v) s = .next (s.updDie n fun D => { D with mhz := max 1200 (min D.mhz v) }) :=
  congrArg (eventOf _) (if_pos hn)

/-- A die that recovers takes a step up (R506). -/
theorem exec_supplyRecovery (hn : n < 4) :
    exec (.supplyRecovery n v) s = .next (s.updDie n fun D => { D with mhz := min 1900 (max D.mhz v) }) :=
  congrArg (eventOf _) (if_pos hn)

section
variable (hn : n < 336)
include hn

/-- A single-bit error is corrected and counted (R401). -/
theorem exec_arrayEccError_single : exec (.arrayEccError n 0 v f) s = .next (s.updCore n fun C => { C with secc := satInc C.secc }) :=
  congrArg (eventOf _) (if_neg (Nat.not_le.2 hn))

/-- A double error in an L1 sector: the sector is read again if it is clean, and otherwise the core is retired (R401, log 40). -/
theorem exec_arrayEccError_line {L : Line} (hL : (s.core n).l1[v]? = some L) (hf : f < 4) :
    exec (.arrayEccError n 1 v f) s = .next
      (if (L.sec f).dm = 0 then s.updCore n fun C => C.updLine L.vf L.asid L.vline fun M => M.updSec f fun x => { x with v := false }
       else s.retire_ n) := by
  show execArrayEccError n 1 v f s = _
  rw [execArrayEccError, if_neg (by omega), if_neg (by decide), if_pos rfl, hL, Option.bind_some, if_neg (by omega)]
  split <;> rfl

/-- A double error in the instruction cache: the word is read again (R401). -/
theorem exec_arrayEccError_code (hv : v < (s.core n).icache.length) :
    exec (.arrayEccError n 2 v f) s = .next (s.updCore n fun C => { C with icache := C.icache.eraseIdx v }) := by
  show execArrayEccError n 2 v f s = _
  rw [execArrayEccError, if_neg (by omega), if_neg (by decide), if_neg (by decide), if_pos rfl, if_pos hv]
  rfl

/-- A double error in state that a team shares: the team is lost and the core retired (R401). -/
theorem exec_arrayEccError_team {T : Team} (hT : s.team? v = some T) (hc : T.core = n) (hp : T.pre ≠ .saved) :
    exec (.arrayEccError n 4 v f) s = .next ((s.loseTeam v).retire_ n) := by
  show execArrayEccError n 4 v f s = _
  rw [execArrayEccError, if_neg (by omega), if_neg (by decide), if_neg (by decide), if_neg (by decide), if_neg (by decide), if_pos rfl, hT]
  exact congrArg (eventOf _) (if_pos ⟨hc, hp⟩)

end

/-- A row that has had its corrections is replaced (R508). -/
theorem exec_hbmRowRemap (hlen : 16 ≤ (s.rowCorr.get (n * 2 ^ 32 + v) []).length)
    (hspan : (s.rowCorr.get (n * 2 ^ 32 + v) []).headD 0 - (s.rowCorr.get (n * 2 ^ 32 + v) []).getLastD 0 ≤ 2 ^ 30) :
    exec (.hbmRowRemap n v) s = .next { s with
      rows := s.rows ++ [n * 2 ^ 32 + v]
      rowCorr := s.rowCorr.del (n * 2 ^ 32 + v) } := congrArg (eventOf _) (if_pos ⟨hlen, hspan⟩)

/-- The spare channel of a stack is used once (R402, R508). -/
theorem exec_hbmChannelSparing (hn : n < 8) (hv : v < 32) (hs : s.spared.find? n = none) :
    exec (.hbmChannelSparing n v) s = .next { s with spared := s.spared.put n v } :=
  congrArg (eventOf _) (if_pos ⟨hn, hv, by rw [hs]; rfl⟩)

/-- A lane that fails takes the spare, or leaves four (R440). -/
theorem exec_linkLaneFailure (hn : n < 20) :
    exec (.linkLaneFailure n) s = .next (s.updPort n fun P => if P.spare then { P with spare := false } else { P with lanes := 4 }) :=
  congrArg (eventOf _) (if_pos hn)

/-- A bad flit is sent again and changes nothing (R440, log 48). -/
theorem exec_flitCrcError (hn : n < 26) : exec (.flitCrcError n) s = .next s := congrArg (eventOf _) (if_pos hn)

/-- A plane leaves service, and what it carried is sent again (R441). -/
theorem exec_planeOutOfService (hn : n < 20) :
    exec (.planeOutOfService n) s = .next ((s.updPort n fun P => { P with up := false }).resend n) := congrArg (eventOf _) (if_pos hn)

/-- On the planes that are left goes every request of the lost plane that has no answer (R441, log 67). -/
theorem State.resend_planes (hp : s.planes ≠ []) : s.resend n = { s with
    peerOut := s.peerOut ++ (s.peerSent.filter fun r => r.plane == n && r.dev != s.devId).map fun r =>
      { r with plane := s.planeOf r.dev r.vsec }
    peerSent := s.peerSent.map fun r =>
      if (r.plane == n && r.dev != s.devId) = true then { r with plane := s.planeOf r.dev r.vsec } else r } :=
  if_neg (by rw [List.isEmpty_iff]; exact hp)

end

/-- Settles O45: what a reset leaves is `reset_event`, an image is taken by `image_ok` and refused by `image_bad`, and each error or repair
is the one that its kind names. That a reset keeps clocks and repairs is log 38, that the caches of a retired core are lost log 39, that an
error in a dirty sector counts as one in shared state log 40, that a bad flit changes nothing log 48, and which requests are sent again
log 67: the model's choices. -/
theorem serviceEvents : Obligations.ServiceEvents := by
  unfold Obligations.ServiceEvents
  intro s e n v f g z
  refine ⟨State.served_owner, reset_event s, image_ok, image_bad, exec_supplySag, exec_supplyRecovery, excess_event s v,
    exec_arrayEccError_single, ?clean, ?dirty, exec_arrayEccError_code, ?lane, ?laneParks, fun hn T => exec_arrayEccError_team hn,
    fun hn hup p ps => retire_spare hn hup, retire_none, exec_hbmRowRemap, exec_hbmChannelSparing, exec_linkLaneFailure, exec_flitCrcError,
    exec_planeOutOfService, State.resend_planes, rfl⟩
  case clean =>
    intro hn L hL hf hdm
    rw [exec_arrayEccError_line hn hL hf, if_pos hdm]
  case dirty =>
    intro hn L hL hf hdm
    rw [exec_arrayEccError_line hn hL hf, if_neg hdm]
  case lane => exact fun hn G hG hcore hend hf hst hsaved => lane_raise hn hG hcore hend hf hst hsaved
  case laneParks => exact fun hn G hG hcore hend hf hst hsaved => lane_error hn hG hcore hend hf hst hsaved

end Sys2Proof.Machine
end
